-- ==== Sys2Proof/Word.lean ====
section
/-! DEFINITION. The word types of the part and the plain records that instructions carry as operands. -/

namespace Sys2Proof

/-- One byte of memory. -/
abbrev Byte := BitVec 8

/-- A scalar register, and every 64-bit control register (R26, R33). -/
abbrev Word := BitVec 64

/-- A vector queue entry of 64 lanes of 32 bits (R127). -/
abbrev Entry := BitVec 2048

/-- A table from numbers to values: pairs in strictly rising order of the number.
A number that is not listed holds the default that its reader names. -/
abbrev Map (α : Type) := List (Nat × α)

/-- A Ganan Tile Set record as its 32 bytes give it (R353), without the operation code. -/
structure GtsRec where
  lvl : BitVec 8
  flags : BitVec 16
  body : BitVec 224
  deriving DecidableEq, Repr

end Sys2Proof
end

