-- ==== Sys2Proof/Machine/Bits.lean ====
section
/-! DEFINITION. Helper functions of R8 and plain operations over tables, bit fields and byte strings. -/

namespace Sys2Proof.Machine

/-- The value a table holds at `k`, or `d` where it lists none. -/
def mapGet {α : Type} (d : α) : Map α → Nat → α
  | [], _ => d
  | (k', v) :: m, k => if k = k' then v else mapGet d m k

/-- The table with `v` at `k`; rising order is kept. -/
def mapPut {α : Type} : Map α → Nat → α → Map α
  | [], k, v => [(k, v)]
  | (k', v') :: m, k, v =>
    if k < k' then (k, v) :: (k', v') :: m
    else if k = k' then (k, v) :: m
    else (k', v') :: mapPut m k v

/-- The table without an entry at `k`. -/
def mapDel {α : Type} : Map α → Nat → Map α
  | [], _ => []
  | (k', v') :: m, k => if k = k' then mapDel m k else (k', v') :: mapDel m k

/-- The table with `v` at `k`, where `d` is what an unlisted number holds: writing `d` removes the entry. -/
def mapSet {α : Type} [DecidableEq α] (d : α) (m : Map α) (k : Nat) (v : α) : Map α :=
  if v = d then mapDel m k else mapPut m k v

/-- Bits `hi` down to `lo` of a number (R8 `field`). -/
def field (x hi lo : Nat) : Nat := (x >>> lo) % 2 ^ (hi + 1 - lo)

/-- Bit `i` of a number. -/
def bit (x i : Nat) : Bool := (x >>> i) % 2 == 1

/-- A number read as signed(n) (R8 `sext`). -/
def sext (x n : Nat) : Int :=
  let v := x % 2 ^ n
  if v < 2 ^ (n - 1) then (v : Int) else (v : Int) - (2 ^ n : Nat)

/-- The low n bits of an int (R7). -/
def lowBits (v : Int) (n : Nat) : Nat := (v % (2 ^ n : Nat)).toNat

/-- An int kept to the low n bits as bits(n) (R7). -/
def toBits (n : Nat) (v : Int) : BitVec n := BitVec.ofNat n (lowBits v n)

/-- `sat_s` of R8. -/
def satS (v : Int) (n : Nat) : Int :=
  let hi : Int := (2 ^ (n - 1) : Nat) - 1
  let lo : Int := -((2 ^ (n - 1) : Nat) : Int)
  if v > hi then hi else if v < lo then lo else v

/-- `sat_u` of R8. -/
def satU (v : Int) (n : Nat) : Int :=
  let hi : Int := (2 ^ n : Nat) - 1
  if v > hi then hi else if v < 0 then 0 else v

/-- A signed field of an instruction word. -/
def signedField (x hi lo : Nat) : Int := sext (field x hi lo) (hi + 1 - lo)

/-- Assembles little-endian pieces of `w` bits each, the first piece lowest. -/
def joinPieces (w : Nat) : List Nat → Nat
  | [] => 0
  | x :: xs => x % 2 ^ w + (joinPieces w xs) <<< w

/-- The first `n` pieces of `w` bits of a number, lowest first. -/
def splitPieces (w : Nat) : Nat → Nat → List Nat
  | 0, _ => []
  | n + 1, x => (x % 2 ^ w) :: splitPieces w n (x >>> w)

/-- Replaces bits `lo` to `lo + n - 1` of `x` by the low n bits of `v`. -/
def putField (x lo n v : Nat) : Nat :=
  let low := x % 2 ^ lo
  let high := x >>> (lo + n)
  low + ((v % 2 ^ n) <<< lo) + (high <<< (lo + n))

/-- The number of one bits among the low n bits. -/
def popCount : Nat → Nat → Nat
  | 0, _ => 0
  | n + 1, x => x % 2 + popCount n (x / 2)

/-- The number of trailing zero bits among the low n bits; n when they are all zero. -/
def trailingZeros : Nat → Nat → Nat
  | 0, _ => 0
  | n + 1, x => if x % 2 = 1 then 0 else 1 + trailingZeros n (x / 2)

/-- The number of leading zero bits of a number of n bits; n when it is zero. -/
def leadingZeros (n x : Nat) : Nat :=
  let v := x % 2 ^ n
  if v = 0 then n else n - 1 - Nat.log2 v

/-- The numbers `a, a + 1, …` of length n. -/
def rangeFrom (a : Nat) : Nat → List Nat
  | 0 => []
  | n + 1 => a :: rangeFrom (a + 1) n

/-- The first element of a list with the least key. -/
def minBy {α : Type} (key : α → Nat) : List α → Option α
  | [] => none
  | x :: xs =>
    match minBy key xs with
    | none => some x
    | some y => if key x ≤ key y then some x else some y

/-- The list without its first element that meets `p`. -/
def dropFirst {α : Type} (p : α → Bool) : List α → List α
  | [] => []
  | x :: xs => if p x then xs else x :: dropFirst p xs

/-- Whether the bits of a mask at lane `i` are set. -/
def maskBit (m : Word) (i : Nat) : Bool := m.toNat.testBit i

/-- Whether a ply that may be known has come. -/
def plyDue (p : Option Nat) (now : Nat) : Bool :=
  match p with
  | some f => f ≤ now
  | none => false

/-- The bits of a GTS record with an operation code (R354). -/
def recordBits (opc : Nat) (r : GtsRec) : Nat := opc + r.lvl.toNat <<< 8 + r.flags.toNat <<< 16 + r.body.toNat <<< 32

/-! ## Sorting by a key -/

/-- Inserts an element behind those whose key is not greater. -/
def insertBy {α : Type} (le : α → α → Bool) (x : α) : List α → List α
  | [] => [x]
  | y :: ys => if le y x then y :: insertBy le x ys else x :: y :: ys

/-- A list sorted by `le`, equal elements in their old order. -/
def sortBy {α : Type} (le : α → α → Bool) : List α → List α
  | [] => []
  | xs => xs.foldl (fun acc x => insertBy le x acc) []

end Sys2Proof.Machine
end

