-- ==== Sys2Proof/Syntax.lean ====
section
/-! DEFINITION. The abstract syntax: one constructor per row of the opcode table.

The rows of bundle slots take the operand fields of their encoding; `t` is the path tag (R23).
The rows of events take what names the unit the event happens at (a core, a port, a chip, an access).
The rows of records, link-program instructions and commands take their fields. -/

namespace Sys2Proof

/-- The instructions and events of the part, one constructor per row of the opcode table. -/
inductive Instr where
  /-- R13. A one-byte idle bundle (H = 0x00) occupies one ply and does nothing else. -/
  | idle
  /-- R22. A tree-form C slot evaluates up to four tests, reaches a leaf, branches to its offset, selects the tagged slots and records the leaf. -/
  | tree (nt : BitVec 2) (st : BitVec 8) (t0 : BitVec 10) (t1 : BitVec 10) (t2 : BitVec 10) (t3 : BitVec 10) (o1 : BitVec 8) (o2 : BitVec 8) (o3 : BitVec 8) (o4 : BitVec 8) (g : BitVec 3) (z1 : BitVec 2) (z0 : BitVec 3)
  /-- R100. 64-bit wrapping add of two scalars. -/
  | addI64 (t : BitVec 3) (d : BitVec 6) (a : BitVec 6) (b : BitVec 6)
  /-- R100. 64-bit wrapping subtract. -/
  | subI64 (t : BitVec 3) (d : BitVec 6) (a : BitVec 6) (b : BitVec 6)
  /-- R436. Link instruction that transmits n chunk-buffer granules as data flits. -/
  | send (stamp : BitVec 32) (buf : BitVec 19) (n : BitVec 11) (pos : BitVec 5)
  /-- R436. Link instruction that transmits granules as signature flits. -/
  | sendSig (stamp : BitVec 32) (buf : BitVec 19) (n : BitVec 11) (pos : BitVec 5)
  /-- R436. Link instruction that claims arriving flits and writes their payloads to the chunk buffer. -/
  | land (stamp : BitVec 32) (buf : BitVec 19) (n : BitVec 11) (pos : BitVec 5)
  /-- R436. Link instruction that claims arriving flits and retransmits them on another port. -/
  | fwd (stamp : BitVec 32) (n : BitVec 11) (pos : BitVec 5) (oq : BitVec 4)
  /-- R437. Link instruction that combines arriving FP32 payloads into the buffer by addition. -/
  | redAddF32 (stamp : BitVec 32) (buf : BitVec 19) (n : BitVec 11) (pos : BitVec 5)
  /-- R437. Combines arriving BF16 payloads by addition. -/
  | redAddBf16 (stamp : BitVec 32) (buf : BitVec 19) (n : BitVec 11) (pos : BitVec 5)
  /-- R437. Combines arriving I32 payloads by wrapping addition. -/
  | redAddI32 (stamp : BitVec 32) (buf : BitVec 19) (n : BitVec 11) (pos : BitVec 5)
  /-- R437. Combines arriving FP32 payloads by maximum. -/
  | redMaxF32 (stamp : BitVec 32) (buf : BitVec 19) (n : BitVec 11) (pos : BitVec 5)
  /-- R437. Combines arriving BF16 payloads by maximum. -/
  | redMaxBf16 (stamp : BitVec 32) (buf : BitVec 19) (n : BitVec 11) (pos : BitVec 5)
  /-- R437. Combines arriving I32 payloads by signed maximum. -/
  | redMaxI32 (stamp : BitVec 32) (buf : BitVec 19) (n : BitVec 11) (pos : BitVec 5)
  /-- R438. Link instruction that compares an arriving signature with the local one. -/
  | guard (stamp : BitVec 32) (buf : BitVec 19) (pos : BitVec 5)
  /-- R441. Link instruction that pushes a loop entry with a count and period. -/
  | linkLoop (count : BitVec 24) (period : BitVec 32)
  /-- R441. Link instruction that repeats or pops the innermost link loop. -/
  | endl
  /-- R440. Link instruction that atomically adds a buffer value to a counter after earlier DELVs. -/
  | mark (stamp : BitVec 32) (buf : BitVec 19) (addr : BitVec 48)
  /-- R442. Link instruction that records the stage and restart point and updates stage registers. -/
  | ckpt (stamp : BitVec 32) (stage : BitVec 16)
  /-- R439. Link instruction that copies granules from a compute die into the chunk buffer. -/
  | fill (stamp : BitVec 32) (buf : BitVec 19) (n : BitVec 11) (addr : BitVec 48)
  /-- R439. Link instruction that writes chunk-buffer granules to a compute die. -/
  | delv (stamp : BitVec 32) (buf : BitVec 19) (n : BitVec 11) (addr : BitVec 48)
  /-- R443. Link instruction that reserves a request slot and transmits its request or empty flits. -/
  | slot (stamp : BitVec 32) (core : BitVec 11) (chip : BitVec 16) (arr : BitVec 18) (rdep : BitVec 18) (rarr : BitVec 18) (rport : BitVec 4)
  /-- R444. Link instruction that receives a remote request, performs it and transmits the reply. -/
  | serve (stamp : BitVec 32) (rdep : BitVec 18) (rport : BitVec 4)
  /-- R442. Link instruction that makes the engine idle. -/
  | halt (stamp : BitVec 32)
  /-- R435. A link engine reaches an instruction with a reserved OPC, including zero memory, and faults with subcode 0x11. -/
  | reservedOpc (w : BitVec 128)
  /-- R100. 64-bit AND. -/
  | andI64 (t : BitVec 3) (d : BitVec 6) (a : BitVec 6) (b : BitVec 6)
  /-- R100. 64-bit OR; MOV is an alias. -/
  | orI64 (t : BitVec 3) (d : BitVec 6) (a : BitVec 6) (b : BitVec 6)
  /-- R100. 64-bit XOR. -/
  | xorI64 (t : BitVec 3) (d : BitVec 6) (a : BitVec 6) (b : BitVec 6)
  /-- R100. 64-bit AND NOT. -/
  | andnI64 (t : BitVec 3) (d : BitVec 6) (a : BitVec 6) (b : BitVec 6)
  /-- R100. 64-bit shift left by a register amount. -/
  | sllI64 (t : BitVec 3) (d : BitVec 6) (a : BitVec 6) (b : BitVec 6)
  /-- R100. 64-bit logical shift right. -/
  | srlI64 (t : BitVec 3) (d : BitVec 6) (a : BitVec 6) (b : BitVec 6)
  /-- R100. 64-bit arithmetic shift right. -/
  | sraI64 (t : BitVec 3) (d : BitVec 6) (a : BitVec 6) (b : BitVec 6)
  /-- R100. 64-bit multiply, low half, latency 3. -/
  | mulI64 (t : BitVec 3) (d : BitVec 6) (a : BitVec 6) (b : BitVec 6)
  /-- R100. 64-bit signed multiply, high half. -/
  | mulhI64 (t : BitVec 3) (d : BitVec 6) (a : BitVec 6) (b : BitVec 6)
  /-- R100. 64-bit unsigned multiply, high half. -/
  | mulhuI64 (t : BitVec 3) (d : BitVec 6) (a : BitVec 6) (b : BitVec 6)
  /-- R100. 64-bit signed saturating add. -/
  | addsI64 (t : BitVec 3) (d : BitVec 6) (a : BitVec 6) (b : BitVec 6)
  /-- R100. 64-bit signed saturating subtract. -/
  | subsI64 (t : BitVec 3) (d : BitVec 6) (a : BitVec 6) (b : BitVec 6)
  /-- R100. 64-bit unsigned saturating add. -/
  | addsuI64 (t : BitVec 3) (d : BitVec 6) (a : BitVec 6) (b : BitVec 6)
  /-- R100. 64-bit unsigned saturating subtract. -/
  | subsuI64 (t : BitVec 3) (d : BitVec 6) (a : BitVec 6) (b : BitVec 6)
  /-- R100. 64-bit signed minimum. -/
  | minI64 (t : BitVec 3) (d : BitVec 6) (a : BitVec 6) (b : BitVec 6)
  /-- R100. 64-bit signed maximum. -/
  | maxI64 (t : BitVec 3) (d : BitVec 6) (a : BitVec 6) (b : BitVec 6)
  /-- R100. 64-bit unsigned minimum. -/
  | minuI64 (t : BitVec 3) (d : BitVec 6) (a : BitVec 6) (b : BitVec 6)
  /-- R100. 64-bit unsigned maximum. -/
  | maxuI64 (t : BitVec 3) (d : BitVec 6) (a : BitVec 6) (b : BitVec 6)
  /-- R100. 64-bit count of leading zeros. -/
  | clzI64 (t : BitVec 3) (d : BitVec 6) (a : BitVec 6)
  /-- R100. 64-bit count of trailing zeros. -/
  | ctzI64 (t : BitVec 3) (d : BitVec 6) (a : BitVec 6)
  /-- R100. 64-bit population count. -/
  | popcI64 (t : BitVec 3) (d : BitVec 6) (a : BitVec 6)
  /-- R100. 32-bit wrapping add, sign-extended. -/
  | addI32 (t : BitVec 3) (d : BitVec 6) (a : BitVec 6) (b : BitVec 6)
  /-- R100. 32-bit wrapping subtract, sign-extended. -/
  | subI32 (t : BitVec 3) (d : BitVec 6) (a : BitVec 6) (b : BitVec 6)
  /-- R100. 32-bit AND, sign-extended. -/
  | andI32 (t : BitVec 3) (d : BitVec 6) (a : BitVec 6) (b : BitVec 6)
  /-- R100. 32-bit OR, sign-extended. -/
  | orI32 (t : BitVec 3) (d : BitVec 6) (a : BitVec 6) (b : BitVec 6)
  /-- R100. 32-bit XOR, sign-extended. -/
  | xorI32 (t : BitVec 3) (d : BitVec 6) (a : BitVec 6) (b : BitVec 6)
  /-- R100. 32-bit AND NOT, sign-extended. -/
  | andnI32 (t : BitVec 3) (d : BitVec 6) (a : BitVec 6) (b : BitVec 6)
  /-- R100. 32-bit shift left, sign-extended. -/
  | sllI32 (t : BitVec 3) (d : BitVec 6) (a : BitVec 6) (b : BitVec 6)
  /-- R100. 32-bit logical shift right, sign-extended. -/
  | srlI32 (t : BitVec 3) (d : BitVec 6) (a : BitVec 6) (b : BitVec 6)
  /-- R100. 32-bit arithmetic shift right, sign-extended. -/
  | sraI32 (t : BitVec 3) (d : BitVec 6) (a : BitVec 6) (b : BitVec 6)
  /-- R100. 32-bit multiply, low half. -/
  | mulI32 (t : BitVec 3) (d : BitVec 6) (a : BitVec 6) (b : BitVec 6)
  /-- R100. 32-bit signed multiply, high half. -/
  | mulhI32 (t : BitVec 3) (d : BitVec 6) (a : BitVec 6) (b : BitVec 6)
  /-- R100. 32-bit unsigned multiply, high half. -/
  | mulhuI32 (t : BitVec 3) (d : BitVec 6) (a : BitVec 6) (b : BitVec 6)
  /-- R100. 32-bit signed saturating add. -/
  | addsI32 (t : BitVec 3) (d : BitVec 6) (a : BitVec 6) (b : BitVec 6)
  /-- R100. 32-bit signed saturating subtract. -/
  | subsI32 (t : BitVec 3) (d : BitVec 6) (a : BitVec 6) (b : BitVec 6)
  /-- R100. 32-bit unsigned saturating add. -/
  | addsuI32 (t : BitVec 3) (d : BitVec 6) (a : BitVec 6) (b : BitVec 6)
  /-- R100. 32-bit unsigned saturating subtract. -/
  | subsuI32 (t : BitVec 3) (d : BitVec 6) (a : BitVec 6) (b : BitVec 6)
  /-- R100. 32-bit signed minimum. -/
  | minI32 (t : BitVec 3) (d : BitVec 6) (a : BitVec 6) (b : BitVec 6)
  /-- R100. 32-bit signed maximum. -/
  | maxI32 (t : BitVec 3) (d : BitVec 6) (a : BitVec 6) (b : BitVec 6)
  /-- R100. 32-bit unsigned minimum. -/
  | minuI32 (t : BitVec 3) (d : BitVec 6) (a : BitVec 6) (b : BitVec 6)
  /-- R100. 32-bit unsigned maximum. -/
  | maxuI32 (t : BitVec 3) (d : BitVec 6) (a : BitVec 6) (b : BitVec 6)
  /-- R100. 32-bit count of leading zeros. -/
  | clzI32 (t : BitVec 3) (d : BitVec 6) (a : BitVec 6)
  /-- R100. 32-bit count of trailing zeros. -/
  | ctzI32 (t : BitVec 3) (d : BitVec 6) (a : BitVec 6)
  /-- R100. 32-bit population count. -/
  | popcI32 (t : BitVec 3) (d : BitVec 6) (a : BitVec 6)
  /-- R101. 64-bit add of a signed 11-bit immediate. -/
  | addiI64 (t : BitVec 3) (d : BitVec 6) (a : BitVec 6) (i : BitVec 11)
  /-- R101. 32-bit add of an immediate, sign-extended. -/
  | addiI32 (t : BitVec 3) (d : BitVec 6) (a : BitVec 6) (i : BitVec 11)
  /-- R101. AND with a sign-extended immediate. -/
  | andiI64 (t : BitVec 3) (d : BitVec 6) (a : BitVec 6) (i : BitVec 11)
  /-- R101. OR with a sign-extended immediate. -/
  | oriI64 (t : BitVec 3) (d : BitVec 6) (a : BitVec 6) (i : BitVec 11)
  /-- R101. XOR with a sign-extended immediate. -/
  | xoriI64 (t : BitVec 3) (d : BitVec 6) (a : BitVec 6) (i : BitVec 11)
  /-- R101. Shift left by an immediate 0 to 63. -/
  | slliI64 (t : BitVec 3) (d : BitVec 6) (a : BitVec 6) (i : BitVec 11)
  /-- R101. Logical shift right by an immediate. -/
  | srliI64 (t : BitVec 3) (d : BitVec 6) (a : BitVec 6) (i : BitVec 11)
  /-- R101. Arithmetic shift right by an immediate. -/
  | sraiI64 (t : BitVec 3) (d : BitVec 6) (a : BitVec 6) (i : BitVec 11)
  /-- R101. Saturating add of an immediate. -/
  | addsiI64 (t : BitVec 3) (d : BitVec 6) (a : BitVec 6) (i : BitVec 11)
  /-- R102. Sets s[D] to 1 when s[A] equals s[B]. -/
  | cmpEq (t : BitVec 3) (d : BitVec 6) (a : BitVec 6) (b : BitVec 6)
  /-- R102. Sets s[D] to 1 when s[A] differs from s[B]. -/
  | cmpNe (t : BitVec 3) (d : BitVec 6) (a : BitVec 6) (b : BitVec 6)
  /-- R102. Signed less-than compare into a scalar. -/
  | cmpLt (t : BitVec 3) (d : BitVec 6) (a : BitVec 6) (b : BitVec 6)
  /-- R102. Signed greater-or-equal compare into a scalar. -/
  | cmpGe (t : BitVec 3) (d : BitVec 6) (a : BitVec 6) (b : BitVec 6)
  /-- R102. Unsigned less-than compare into a scalar. -/
  | cmpLtu (t : BitVec 3) (d : BitVec 6) (a : BitVec 6) (b : BitVec 6)
  /-- R102. Unsigned greater-or-equal compare into a scalar. -/
  | cmpGeu (t : BitVec 3) (d : BitVec 6) (a : BitVec 6) (b : BitVec 6)
  /-- R104. Moves s[B] to s[D] when s[A] is non-zero, else rewrites s[D]. -/
  | cmovNz (t : BitVec 3) (d : BitVec 6) (a : BitVec 6) (b : BitVec 6)
  /-- R104. Conditional move when s[A] is zero. -/
  | cmovZ (t : BitVec 3) (d : BitVec 6) (a : BitVec 6) (b : BitVec 6)
  /-- R104. Conditional move when s[A] is negative. -/
  | cmovLt (t : BitVec 3) (d : BitVec 6) (a : BitVec 6) (b : BitVec 6)
  /-- R104. Conditional move when s[A] is non-negative. -/
  | cmovGe (t : BitVec 3) (d : BitVec 6) (a : BitVec 6) (b : BitVec 6)
  /-- R103. Signed less-than compare against an immediate. -/
  | cmpiLt (t : BitVec 3) (d : BitVec 6) (a : BitVec 6) (i : BitVec 11)
  /-- R103. Equality compare against an immediate. -/
  | cmpiEq (t : BitVec 3) (d : BitVec 6) (a : BitVec 6) (i : BitVec 11)
  /-- R105. Loads a zero-extended 17-bit immediate into a scalar. -/
  | movi (t : BitVec 3) (d : BitVec 6) (i : BitVec 17)
  /-- R105. Shifts s[D] left 17 and ORs in a 17-bit immediate. -/
  | movsh (t : BitVec 3) (d : BitVec 6) (i : BitVec 17)
  /-- R106. Reads a control state register into a scalar. -/
  | mfc (t : BitVec 3) (d : BitVec 6) (x : BitVec 8)
  /-- R106. Writes a scalar to a control state register, effective from the next ply. -/
  | mtc (t : BitVec 3) (a : BitVec 6) (x : BitVec 8)
  /-- R109. Branches by a 14-bit offset when a scalar meets its condition. -/
  | br (t : BitVec 3) (a : BitVec 6) (c : BitVec 3) (o : BitVec 14)
  /-- R110. Jumps by a 23-bit offset. -/
  | jmp (t : BitVec 3) (o : BitVec 23)
  /-- R110. Writes the return address to s59 and jumps by a 23-bit offset. -/
  | call (t : BitVec 3) (o : BitVec 23)
  /-- R111. Jumps to the address in s[A]. -/
  | jr (t : BitVec 3) (a : BitVec 6)
  /-- R111. Writes the return address to s[D] and jumps to s[A]. -/
  | callr (t : BitVec 3) (d : BitVec 6) (a : BitVec 6)
  /-- R112. Opens a loop with the count in s[A], or skips the body when it is zero. -/
  | loop (t : BitVec 3) (a : BitVec 6) (o : BitVec 17)
  /-- R112. Opens a loop with an immediate count 0 to 63. -/
  | loopi (t : BitVec 3) (n : BitVec 6) (o : BitVec 17)
  /-- R19. Closes the innermost loop, branching back or popping the entry; marks an iteration boundary. -/
  | endloop (t : BitVec 3)
  /-- R113. Removes the innermost loop entry without redirecting. -/
  | lpop (t : BitVec 3)
  /-- R41. Returns from a trap to TPC and clears INTRAP. -/
  | tret (t : BitVec 3)
  /-- R114. Ends the program; the core becomes idle at the next ply keeping its state. -/
  | yield (t : BitVec 3)
  /-- R115. Raises SOFTWARE_TRAP after the rest of its bundle commits, with TVAL from s[A]. -/
  | trap (t : BitVec 3) (a : BitVec 6) (n : BitVec 6)
  /-- R116. Holds until the core's own register results have landed and own-scratchpad stores performed. -/
  | fenceSeq (t : BitVec 3)
  /-- R125. Adds STEP0 to a walk register's BASE. -/
  | wstep (w : BitVec 3)
  /-- R125. Adds STEP1 to a walk register's BASE. -/
  | wstep1 (w : BitVec 3)
  /-- R125. Subtracts STEP0 from a walk register's BASE. -/
  | wback (w : BitVec 3)
  /-- R125. Steps BASE by STEP1 when the named loop count is 1, else by STEP0. -/
  | wstepL (w : BitVec 3) (l : BitVec 3)
  /-- R125. Copies a walk register's BASE to a scalar. -/
  | wget (w : BitVec 3) (s : BitVec 6)
  /-- R125. Sets a walk register's BASE from a scalar. -/
  | wset (w : BitVec 3) (s : BitVec 6)
  /-- R125. Copies BASE to a scalar and steps it by STEP0. -/
  | wtake (w : BitVec 3) (s : BitVec 6)
  /-- R125. Copies BASE to a scalar and steps it by STEP1. -/
  | wtake1 (w : BitVec 3) (s : BitVec 6)
  /-- R125. Copies BASE and steps it by STEP1 at the last inner iteration, else STEP0. -/
  | wtakeL (w : BitVec 3) (s : BitVec 6)
  /-- R118. Loads a sign-extended byte from the own scratchpad. -/
  | ldB (t : BitVec 3) (s : BitVec 6) (c : BitVec 4) (o : BitVec 13)
  /-- R118. Loads a sign-extended halfword from the own scratchpad. -/
  | ldH (t : BitVec 3) (s : BitVec 6) (c : BitVec 4) (o : BitVec 13)
  /-- R118. Loads a sign-extended word from the own scratchpad. -/
  | ldW (t : BitVec 3) (s : BitVec 6) (c : BitVec 4) (o : BitVec 13)
  /-- R118. Loads a doubleword from the own scratchpad. -/
  | ldD (t : BitVec 3) (s : BitVec 6) (c : BitVec 4) (o : BitVec 13)
  /-- R118. Stores a byte to the own scratchpad. -/
  | stB (t : BitVec 3) (s : BitVec 6) (c : BitVec 4) (o : BitVec 13)
  /-- R118. Stores a halfword to the own scratchpad. -/
  | stH (t : BitVec 3) (s : BitVec 6) (c : BitVec 4) (o : BitVec 13)
  /-- R118. Stores a word to the own scratchpad. -/
  | stW (t : BitVec 3) (s : BitVec 6) (c : BitVec 4) (o : BitVec 13)
  /-- R118. Stores a doubleword to the own scratchpad. -/
  | stD (t : BitVec 3) (s : BitVec 6) (c : BitVec 4) (o : BitVec 13)
  /-- R277. Loads a 64-lane entry into a queue. -/
  | ldvW (t : BitVec 3) (v : BitVec 9) (c : BitVec 4) (s : BitVec 6)
  /-- R277. Strided vector load into a queue. -/
  | ldvsW (t : BitVec 3) (v : BitVec 9) (c : BitVec 4) (s : BitVec 6)
  /-- R277. Masked vector load into a queue. -/
  | ldvmW (t : BitVec 3) (v : BitVec 9) (c : BitVec 4) (s : BitVec 6)
  /-- R277. Strided masked vector load into a queue. -/
  | ldvsmW (t : BitVec 3) (v : BitVec 9) (c : BitVec 4) (s : BitVec 6)
  /-- R277. Stores a queue head as 64 lanes. -/
  | stvW (t : BitVec 3) (v : BitVec 9) (p : BitVec 1) (c : BitVec 4) (s : BitVec 6)
  /-- R277. Strided vector store. -/
  | stvsW (t : BitVec 3) (v : BitVec 9) (p : BitVec 1) (c : BitVec 4) (s : BitVec 6)
  /-- R277. Masked vector store. -/
  | stvmW (t : BitVec 3) (v : BitVec 9) (p : BitVec 1) (c : BitVec 4) (s : BitVec 6)
  /-- R277. Strided masked vector store. -/
  | stvsmW (t : BitVec 3) (v : BitVec 9) (p : BitVec 1) (c : BitVec 4) (s : BitVec 6)
  /-- R279. Pushes a queue head into a queue of a window-1 push region, relaxed. -/
  | qpush (t : BitVec 3) (v : BitVec 9) (p : BitVec 1) (c : BitVec 4) (s : BitVec 6)
  /-- R279. Pushes a queue head into a remote queue as a release at the scope in FN. -/
  | qpushRel (t : BitVec 3) (v : BitVec 9) (p : BitVec 1) (c : BitVec 4) (s : BitVec 6) (k : BitVec 3)
  /-- R286. Loads a capability and its tag from memory. -/
  | cld (t : BitVec 3) (d : BitVec 4) (a : BitVec 4) (s : BitVec 6)
  /-- R286. Stores a capability and its tag to memory. -/
  | cst (t : BitVec 3) (d : BitVec 4) (a : BitVec 4) (s : BitVec 6)
  /-- R286. Derives a capability with its base moved up and length reduced. -/
  | cbase (t : BitVec 3) (d : BitVec 4) (a : BitVec 4) (s : BitVec 6)
  /-- R286. Derives a capability with a narrower length. -/
  | clen (t : BitVec 3) (d : BitVec 4) (a : BitVec 4) (s : BitVec 6)
  /-- R286. Derives a capability with permissions cleared by a mask. -/
  | cperms (t : BitVec 3) (d : BitVec 4) (a : BitVec 4) (s : BitVec 6)
  /-- R286. Derives a capability with a new space kind. -/
  | cspace (t : BitVec 3) (d : BitVec 4) (a : BitVec 4) (s : BitVec 6)
  /-- R286. Reads a capability's base into a scalar. -/
  | cgetb (t : BitVec 3) (a : BitVec 4) (s : BitVec 6)
  /-- R286. Reads a capability's high 64 bits into a scalar. -/
  | cgeth (t : BitVec 3) (a : BitVec 4) (s : BitVec 6)
  /-- R286. Reads a capability's tag into a scalar. -/
  | cgett (t : BitVec 3) (a : BitVec 4) (s : BitVec 6)
  /-- R286. Copies a capability register with its tag. -/
  | cmovc (t : BitVec 3) (d : BitVec 4) (a : BitVec 4)
  /-- R286. Clears a capability register's tag. -/
  | cclr (t : BitVec 3) (d : BitVec 4)
  /-- R286. Seals a capability with an object type taken from the sealing capability. -/
  | cseal (t : BitVec 3) (d : BitVec 4) (a : BitVec 4) (s : BitVec 6)
  /-- R286. Unseals a capability whose object type matches. -/
  | cunseal (t : BitVec 3) (d : BitVec 4) (a : BitVec 4) (s : BitVec 6)
  /-- R281. Atomic swap of a 64-bit word. -/
  | aswapD (t : BitVec 3) (d : BitVec 6) (c : BitVec 4) (s : BitVec 6) (k : BitVec 3) (o : BitVec 2)
  /-- R281. Atomic compare-and-swap of a 64-bit word. -/
  | acasD (t : BitVec 3) (d : BitVec 6) (c : BitVec 4) (s : BitVec 6) (k : BitVec 3) (o : BitVec 2)
  /-- R281. Atomic add to a 64-bit word. -/
  | aaddD (t : BitVec 3) (d : BitVec 6) (c : BitVec 4) (s : BitVec 6) (k : BitVec 3) (o : BitVec 2)
  /-- R281. Atomic signed minimum. -/
  | aminD (t : BitVec 3) (d : BitVec 6) (c : BitVec 4) (s : BitVec 6) (k : BitVec 3) (o : BitVec 2)
  /-- R281. Atomic signed maximum. -/
  | amaxD (t : BitVec 3) (d : BitVec 6) (c : BitVec 4) (s : BitVec 6) (k : BitVec 3) (o : BitVec 2)
  /-- R281. Atomic AND. -/
  | aandD (t : BitVec 3) (d : BitVec 6) (c : BitVec 4) (s : BitVec 6) (k : BitVec 3) (o : BitVec 2)
  /-- R281. Atomic OR. -/
  | aorD (t : BitVec 3) (d : BitVec 6) (c : BitVec 4) (s : BitVec 6) (k : BitVec 3) (o : BitVec 2)
  /-- R281. Atomic XOR. -/
  | axorD (t : BitVec 3) (d : BitVec 6) (c : BitVec 4) (s : BitVec 6) (k : BitVec 3) (o : BitVec 2)
  /-- R280. Ordered 8-byte load, relaxed or acquire, at any window the capability covers. -/
  | ldxD (t : BitVec 3) (d : BitVec 6) (c : BitVec 4) (s : BitVec 6) (k : BitVec 3) (o : BitVec 2)
  /-- R280. Ordered 8-byte store, relaxed or release. -/
  | stxD (t : BitVec 3) (d : BitVec 6) (c : BitVec 4) (s : BitVec 6) (k : BitVec 3) (o : BitVec 2)
  /-- R285. Holds later bundles of the successor kinds until earlier predecessor operations in scope complete. -/
  | fence (t : BitVec 3) (p : BitVec 6) (s : BitVec 6) (k : BitVec 3)
  /-- R176. Lane-wise wrapping 32-bit add of two queues. -/
  | vaddI32 (t : BitVec 3) (g : BitVec 3) (p : BitVec 1) (q : BitVec 1) (d : BitVec 6) (a : BitVec 6) (b : BitVec 6)
  /-- R176. Lane-wise wrapping 32-bit subtract. -/
  | vsubI32 (t : BitVec 3) (g : BitVec 3) (p : BitVec 1) (q : BitVec 1) (d : BitVec 6) (a : BitVec 6) (b : BitVec 6)
  /-- R176. Element-wise wrapping 16-bit add. -/
  | vaddI16 (t : BitVec 3) (g : BitVec 3) (p : BitVec 1) (q : BitVec 1) (d : BitVec 6) (a : BitVec 6) (b : BitVec 6)
  /-- R176. Element-wise wrapping 16-bit subtract. -/
  | vsubI16 (t : BitVec 3) (g : BitVec 3) (p : BitVec 1) (q : BitVec 1) (d : BitVec 6) (a : BitVec 6) (b : BitVec 6)
  /-- R176. Element-wise wrapping 8-bit add. -/
  | vaddI8 (t : BitVec 3) (g : BitVec 3) (p : BitVec 1) (q : BitVec 1) (d : BitVec 6) (a : BitVec 6) (b : BitVec 6)
  /-- R176. Saturating 32-bit add. -/
  | vaddsI32 (t : BitVec 3) (g : BitVec 3) (p : BitVec 1) (q : BitVec 1) (d : BitVec 6) (a : BitVec 6) (b : BitVec 6)
  /-- R176. Saturating 16-bit add. -/
  | vaddsI16 (t : BitVec 3) (g : BitVec 3) (p : BitVec 1) (q : BitVec 1) (d : BitVec 6) (a : BitVec 6) (b : BitVec 6)
  /-- R176. Saturating 8-bit add. -/
  | vaddsI8 (t : BitVec 3) (g : BitVec 3) (p : BitVec 1) (q : BitVec 1) (d : BitVec 6) (a : BitVec 6) (b : BitVec 6)
  /-- R176. Saturating 32-bit subtract. -/
  | vsubsI32 (t : BitVec 3) (g : BitVec 3) (p : BitVec 1) (q : BitVec 1) (d : BitVec 6) (a : BitVec 6) (b : BitVec 6)
  /-- R176. 32-bit multiply, low half. -/
  | vmulI32 (t : BitVec 3) (g : BitVec 3) (p : BitVec 1) (q : BitVec 1) (d : BitVec 6) (a : BitVec 6) (b : BitVec 6)
  /-- R176. 32-bit signed multiply, high half. -/
  | vmulhI32 (t : BitVec 3) (g : BitVec 3) (p : BitVec 1) (q : BitVec 1) (d : BitVec 6) (a : BitVec 6) (b : BitVec 6)
  /-- R176. Lane-wise signed minimum. -/
  | vminI32 (t : BitVec 3) (g : BitVec 3) (p : BitVec 1) (q : BitVec 1) (d : BitVec 6) (a : BitVec 6) (b : BitVec 6)
  /-- R176. Lane-wise signed maximum. -/
  | vmaxI32 (t : BitVec 3) (g : BitVec 3) (p : BitVec 1) (q : BitVec 1) (d : BitVec 6) (a : BitVec 6) (b : BitVec 6)
  /-- R176. Masked 32-bit add of a queue and the broadcast scalar. -/
  | vaddI32Bc (t : BitVec 3) (d : BitVec 9) (a : BitVec 9) (p : BitVec 1) (m : BitVec 4)
  /-- R176. Masked 32-bit multiply by the broadcast scalar. -/
  | vmulI32Bc (t : BitVec 3) (d : BitVec 9) (a : BitVec 9) (p : BitVec 1) (m : BitVec 4)
  /-- R176. Adds a signed 5-bit immediate to every lane. -/
  | vaddiI32 (t : BitVec 3) (d : BitVec 9) (a : BitVec 9) (i : BitVec 5)
  /-- R177. Lane-wise AND. -/
  | vandU32 (t : BitVec 3) (g : BitVec 3) (p : BitVec 1) (q : BitVec 1) (d : BitVec 6) (a : BitVec 6) (b : BitVec 6)
  /-- R177. Lane-wise OR. -/
  | vorU32 (t : BitVec 3) (g : BitVec 3) (p : BitVec 1) (q : BitVec 1) (d : BitVec 6) (a : BitVec 6) (b : BitVec 6)
  /-- R177. Lane-wise XOR. -/
  | vxorU32 (t : BitVec 3) (g : BitVec 3) (p : BitVec 1) (q : BitVec 1) (d : BitVec 6) (a : BitVec 6) (b : BitVec 6)
  /-- R177. Masked AND with the broadcast scalar. -/
  | vandU32Bc (t : BitVec 3) (d : BitVec 9) (a : BitVec 9) (p : BitVec 1) (m : BitVec 4)
  /-- R177. Masked XOR with the broadcast scalar. -/
  | vxorU32Bc (t : BitVec 3) (d : BitVec 9) (a : BitVec 9) (p : BitVec 1) (m : BitVec 4)
  /-- R177. Shifts every lane left by an immediate. -/
  | vsllI32 (t : BitVec 3) (d : BitVec 9) (a : BitVec 9) (i : BitVec 5)
  /-- R177. Logical right shift of every lane. -/
  | vsrlI32 (t : BitVec 3) (d : BitVec 9) (a : BitVec 9) (i : BitVec 5)
  /-- R177. Arithmetic right shift of every lane. -/
  | vsraI32 (t : BitVec 3) (d : BitVec 9) (a : BitVec 9) (i : BitVec 5)
  /-- R178. FP32 add rounded once with rne. -/
  | vaddF32 (t : BitVec 3) (g : BitVec 3) (p : BitVec 1) (q : BitVec 1) (d : BitVec 6) (a : BitVec 6) (b : BitVec 6)
  /-- R178. FP32 subtract. -/
  | vsubF32 (t : BitVec 3) (g : BitVec 3) (p : BitVec 1) (q : BitVec 1) (d : BitVec 6) (a : BitVec 6) (b : BitVec 6)
  /-- R178. FP32 multiply. -/
  | vmulF32 (t : BitVec 3) (g : BitVec 3) (p : BitVec 1) (q : BitVec 1) (d : BitVec 6) (a : BitVec 6) (b : BitVec 6)
  /-- R178. FP32 fused multiply-add with the popped destination head as addend. -/
  | vfmaF32 (t : BitVec 3) (g : BitVec 3) (p : BitVec 1) (q : BitVec 1) (d : BitVec 6) (a : BitVec 6) (b : BitVec 6)
  /-- R179. FP32 maximum with -0 below +0. -/
  | vmaxF32 (t : BitVec 3) (g : BitVec 3) (p : BitVec 1) (q : BitVec 1) (d : BitVec 6) (a : BitVec 6) (b : BitVec 6)
  /-- R179. FP32 minimum with -0 below +0. -/
  | vminF32 (t : BitVec 3) (g : BitVec 3) (p : BitVec 1) (q : BitVec 1) (d : BitVec 6) (a : BitVec 6) (b : BitVec 6)
  /-- R178. Paired BF16 add rounded directly to BF16. -/
  | vaddBf16 (t : BitVec 3) (g : BitVec 3) (p : BitVec 1) (q : BitVec 1) (d : BitVec 6) (a : BitVec 6) (b : BitVec 6)
  /-- R178. Paired BF16 subtract. -/
  | vsubBf16 (t : BitVec 3) (g : BitVec 3) (p : BitVec 1) (q : BitVec 1) (d : BitVec 6) (a : BitVec 6) (b : BitVec 6)
  /-- R178. Paired BF16 multiply. -/
  | vmulBf16 (t : BitVec 3) (g : BitVec 3) (p : BitVec 1) (q : BitVec 1) (d : BitVec 6) (a : BitVec 6) (b : BitVec 6)
  /-- R178. Paired BF16 fused multiply-add. -/
  | vfmaBf16 (t : BitVec 3) (g : BitVec 3) (p : BitVec 1) (q : BitVec 1) (d : BitVec 6) (a : BitVec 6) (b : BitVec 6)
  /-- R178. Masked FP32 add of the broadcast scalar. -/
  | vaddF32Bc (t : BitVec 3) (d : BitVec 9) (a : BitVec 9) (p : BitVec 1) (m : BitVec 4)
  /-- R178. Masked FP32 multiply by the broadcast scalar. -/
  | vmulF32Bc (t : BitVec 3) (d : BitVec 9) (a : BitVec 9) (p : BitVec 1) (m : BitVec 4)
  /-- R180. Writes a lane mask of signed less-than. -/
  | vcmpltI32 (t : BitVec 3) (d : BitVec 4) (a : BitVec 9) (b : BitVec 9) (p : BitVec 1)
  /-- R180. Writes a lane mask of equality. -/
  | vcmpeqI32 (t : BitVec 3) (d : BitVec 4) (a : BitVec 9) (b : BitVec 9) (p : BitVec 1)
  /-- R180. Writes a lane mask of FP32 less-or-equal. -/
  | vcmpleF32 (t : BitVec 3) (d : BitVec 4) (a : BitVec 9) (b : BitVec 9) (p : BitVec 1)
  /-- R181. Selects lanes from A or the popped destination head by a mask. -/
  | vmergeU32 (t : BitVec 3) (d : BitVec 9) (a : BitVec 9) (p : BitVec 1) (m : BitVec 4)
  /-- R182. Converts signed 32-bit lanes to FP32. -/
  | vcvtF32I32 (t : BitVec 3) (d : BitVec 9) (a : BitVec 9) (r : BitVec 3)
  /-- R182. Converts unsigned 32-bit lanes to FP32. -/
  | vcvtF32U32 (t : BitVec 3) (d : BitVec 9) (a : BitVec 9) (r : BitVec 3)
  /-- R182. Converts FP32 lanes to saturated signed 32-bit integers. -/
  | vcvtI32F32 (t : BitVec 3) (d : BitVec 9) (a : BitVec 9) (r : BitVec 3)
  /-- R182. Converts FP32 lanes to saturated unsigned 32-bit integers. -/
  | vcvtU32F32 (t : BitVec 3) (d : BitVec 9) (a : BitVec 9) (r : BitVec 3)
  /-- R183. Narrows FP32 lanes into one half of a BF16 entry. -/
  | vcvtBf16F32 (t : BitVec 3) (d : BitVec 9) (a : BitVec 9) (h : BitVec 1) (r : BitVec 3)
  /-- R183. Widens one half of a BF16 entry to FP32 lanes. -/
  | vcvtF32Bf16 (t : BitVec 3) (d : BitVec 9) (a : BitVec 9) (h : BitVec 1)
  /-- R184. Saturating narrowing to signed 16-bit into one part. -/
  | vpacksI16I32 (t : BitVec 3) (d : BitVec 9) (a : BitVec 9) (p : BitVec 3)
  /-- R184. Saturating narrowing to signed 8-bit into one part. -/
  | vpacksI8I32 (t : BitVec 3) (d : BitVec 9) (a : BitVec 9) (p : BitVec 3)
  /-- R184. Saturating narrowing to unsigned 8-bit into one part. -/
  | vpacksU8I32 (t : BitVec 3) (d : BitVec 9) (a : BitVec 9) (p : BitVec 3)
  /-- R186. Rotates lanes within each lane group by an immediate. -/
  | vrotg (t : BitVec 3) (d : BitVec 9) (a : BitVec 9) (k : BitVec 4)
  /-- R186. Rotates lanes across all 64 by the broadcast amount. -/
  | vrot (t : BitVec 3) (d : BitVec 9) (a : BitVec 9) (p : BitVec 1) (m : BitVec 4)
  /-- R186. Permutes lanes by indices from the popped destination head. -/
  | vperm (t : BitVec 3) (d : BitVec 9) (a : BitVec 9) (p : BitVec 1) (m : BitVec 4)
  /-- R186. Broadcasts one lane, chosen by the broadcast scalar, to every lane. -/
  | vbcast (t : BitVec 3) (d : BitVec 9) (a : BitVec 9) (p : BitVec 1) (m : BitVec 4)
  /-- R187. Integer sum reduction with a carry. -/
  | vredaddI32 (t : BitVec 3) (d : BitVec 9) (a : BitVec 9) (p : BitVec 1) (m : BitVec 4)
  /-- R187. FP32 tree sum reduction with a carry. -/
  | vredaddF32 (t : BitVec 3) (d : BitVec 9) (a : BitVec 9) (p : BitVec 1) (m : BitVec 4)
  /-- R187. FP32 maximum reduction with a carry. -/
  | vredmaxF32 (t : BitVec 3) (d : BitVec 9) (a : BitVec 9) (p : BitVec 1) (m : BitVec 4)
  /-- R187. FP32 inclusive prefix sum with a carry. -/
  | vscanaddF32 (t : BitVec 3) (d : BitVec 9) (a : BitVec 9) (p : BitVec 1) (m : BitVec 4)
  /-- R188. AND of two lane masks. -/
  | vmand (t : BitVec 3) (d : BitVec 4) (a : BitVec 4) (b : BitVec 4)
  /-- R188. OR of two lane masks. -/
  | vmor (t : BitVec 3) (d : BitVec 4) (a : BitVec 4) (b : BitVec 4)
  /-- R188. XOR of two lane masks. -/
  | vmxor (t : BitVec 3) (d : BitVec 4) (a : BitVec 4) (b : BitVec 4)
  /-- R188. AND NOT of two lane masks. -/
  | vmandn (t : BitVec 3) (d : BitVec 4) (a : BitVec 4) (b : BitVec 4)
  /-- R188. Complement of a lane mask. -/
  | vmnot (t : BitVec 3) (d : BitVec 4) (a : BitVec 4)
  /-- R189. Copies a lane mask to a scalar. -/
  | vmget (t : BitVec 3) (s : BitVec 6) (m : BitVec 4)
  /-- R189. Sets a lane mask from a scalar. -/
  | vmset (t : BitVec 3) (s : BitVec 6) (m : BitVec 4)
  /-- R189. Counts the set bits of a lane mask. -/
  | vmcnt (t : BitVec 3) (s : BitVec 6) (m : BitVec 4)
  /-- R189. Gives the lowest set lane of a mask, or 64. -/
  | vmfirst (t : BitVec 3) (s : BitVec 6) (m : BitVec 4)
  /-- R189. Sets a mask bit for each non-zero lane of a queue head. -/
  | vmfromq (t : BitVec 3) (v : BitVec 9) (p : BitVec 1) (m : BitVec 4)
  /-- R189. Pushes a mask expanded to all-ones or zero lanes. -/
  | vmtoq (t : BitVec 3) (v : BitVec 9) (m : BitVec 4)
  /-- R190. Copies one lane zero-extended into a scalar. -/
  | vlaneU32 (t : BitVec 3) (v : BitVec 9) (p : BitVec 1) (s : BitVec 6) (l : BitVec 4) (h : BitVec 2)
  /-- R190. Copies one lane sign-extended into a scalar. -/
  | vlaneI32 (t : BitVec 3) (v : BitVec 9) (p : BitVec 1) (s : BitVec 6) (l : BitVec 4) (h : BitVec 2)
  /-- R191. Pushes an entry with every lane set from a scalar. -/
  | vsplatU32 (t : BitVec 3) (v : BitVec 9) (s : BitVec 6)
  /-- R191. Pushes an entry with every 16-bit element set. -/
  | vsplatU16 (t : BitVec 3) (v : BitVec 9) (s : BitVec 6)
  /-- R191. Pushes an entry with every 8-bit element set. -/
  | vsplatU8 (t : BitVec 3) (v : BitVec 9) (s : BitVec 6)
  /-- R191. Pushes one 256-byte chunk of a tile register into a queue. -/
  | vtrd (t : BitVec 3) (v : BitVec 9) (s : BitVec 6) (u : BitVec 4)
  /-- R191. Writes a queue head into one 256-byte chunk of a tile. -/
  | vtwr (t : BitVec 3) (v : BitVec 9) (p : BitVec 1) (s : BitVec 6) (u : BitVec 4)
  /-- R213. Loads a tile's data from the own scratchpad. -/
  | tld (t : BitVec 3) (u : BitVec 4) (c : BitVec 4) (s : BitVec 6)
  /-- R213. Loads a tile's data and sidecar. -/
  | tldX (t : BitVec 3) (u : BitVec 4) (c : BitVec 4) (s : BitVec 6)
  /-- R213. Loads a tile's sidecar only. -/
  | tldSc (t : BitVec 3) (u : BitVec 4) (c : BitVec 4) (s : BitVec 6)
  /-- R213. Stores a tile's data to the own scratchpad. -/
  | tst (t : BitVec 3) (u : BitVec 4) (c : BitVec 4) (s : BitVec 6)
  /-- R213. Stores a tile's data and sidecar. -/
  | tstX (t : BitVec 3) (u : BitVec 4) (c : BitVec 4) (s : BitVec 6)
  /-- R213. Stores a tile's sidecar only. -/
  | tstSc (t : BitVec 3) (u : BitVec 4) (c : BitVec 4) (s : BitVec 6)
  /-- R214. Chunk j of a tile load or store moves at issue ply + 4 + j. -/
  | tileChunkMove (core : Nat)
  /-- R216. Multiply-accumulates two MX tiles into an accumulator over 128 plies. -/
  | mma (t : BitVec 3) (n : BitVec 1) (a : BitVec 4) (b : BitVec 4) (f : BitVec 2) (g : BitVec 2) (c : BitVec 1)
  /-- R216. Multiply-accumulate whose first block replaces the accumulator elements. -/
  | mmaz (t : BitVec 3) (n : BitVec 1) (a : BitVec 4) (b : BitVec 4) (f : BitVec 2) (g : BitVec 2) (c : BitVec 1)
  /-- R216. Block beta of a multiply-accumulate combines into the accumulator at issue ply + 34 + 32 beta. -/
  | matrixCombine (core : Nat)
  /-- R218. Reads out 16 accumulator rows as FP32 into a raw tile. -/
  | aoutF32 (t : BitVec 3) (n : BitVec 1) (u : BitVec 4) (s : BitVec 6) (r : BitVec 3)
  /-- R218. Reads out 32 accumulator rows as BF16 into a raw tile. -/
  | aoutBf16 (t : BitVec 3) (n : BitVec 1) (u : BitVec 4) (s : BitVec 6) (r : BitVec 3)
  /-- R218. Reads out 96 rows as MXINT8 codes into an MX tile. -/
  | aoutI8 (t : BitVec 3) (n : BitVec 1) (u : BitVec 4) (s : BitVec 6) (r : BitVec 3)
  /-- R218. Reads out 128 rows as MXINT6 codes. -/
  | aoutI6 (t : BitVec 3) (n : BitVec 1) (u : BitVec 4) (s : BitVec 6) (r : BitVec 3)
  /-- R218. Reads out 192 rows as MXINT4 codes. -/
  | aoutI4 (t : BitVec 3) (n : BitVec 1) (u : BitVec 4) (s : BitVec 6) (r : BitVec 3)
  /-- R219. Writes the tile kinds when no tile is in use. -/
  | tcfg (t : BitVec 3) (s : BitVec 6)
  /-- R220. Zeroes the named tiles and accumulators and clears their flags. -/
  | trel (t : BitVec 3) (s : BitVec 6)
  /-- R221. Sets every element of an accumulator to +0.0. -/
  | azero (t : BitVec 3) (n : BitVec 1)
  /-- R221. Zeroes a tile's data and sidecar. -/
  | tzero (t : BitVec 3) (u : BitVec 4)
  /-- R222. Transposes a K-major MXINT8 block into an operand tile. -/
  | ttrI8 (t : BitVec 3) (u : BitVec 4) (c : BitVec 4)
  /-- R222. Transposes a K-major MXINT6 block. -/
  | ttrI6 (t : BitVec 3) (u : BitVec 4) (c : BitVec 4)
  /-- R222. Transposes a K-major MXINT4 block. -/
  | ttrI4 (t : BitVec 3) (u : BitVec 4) (c : BitVec 4)
  /-- R210. Loads one A scale-table entry, in force six plies later. -/
  | scldA (e : BitVec 4) (s : BitVec 6)
  /-- R210. Loads one B scale-table entry. -/
  | scldB (e : BitVec 4) (s : BitVec 6)
  /-- R210. Loads four A scale-table entries from a scalar. -/
  | scldqA (s : BitVec 6) (g : BitVec 2)
  /-- R210. Loads four B scale-table entries from a scalar. -/
  | scldqB (s : BitVec 6) (g : BitVec 2)
  /-- R210. Resets every A scale-table entry to 1.0. -/
  | scrstA
  /-- R210. Resets every B scale-table entry to 1.0. -/
  | scrstB
  /-- R210. Sets the A uniform-scale field. -/
  | kuniA (s : BitVec 6)
  /-- R210. Sets the B uniform-scale field. -/
  | kuniB (s : BitVec 6)
  /-- R241. Sets a pan's seed and zeroes its phase. -/
  | pseed (t : BitVec 3) (n : BitVec 4) (s : BitVec 6)
  /-- R241. Sets a pan's scramble and phase. -/
  | paux (t : BitVec 3) (n : BitVec 4) (s : BitVec 6)
  /-- R241. Reads a pan's seed into a scalar. -/
  | pgets (t : BitVec 3) (n : BitVec 4) (s : BitVec 6)
  /-- R241. Reads a pan's scramble and phase into a scalar. -/
  | pgeta (t : BitVec 3) (n : BitVec 4) (s : BitVec 6)
  /-- R241. Sets BLEN, the stream length code for dissolves. -/
  | bsetlen (t : BitVec 3) (l : BitVec 3)
  /-- R241. Sets the dither pan. -/
  | bdither (t : BitVec 3) (n : BitVec 4)
  /-- R242. Dissolves unipolar values from a queue into one part of a brine register. -/
  | bdslv (t : BitVec 3) (d : BitVec 4) (v : BitVec 9) (p : BitVec 1) (n : BitVec 4) (k : BitVec 3)
  /-- R242. Dissolves bipolar values into one part of a brine register. -/
  | bdslvBi (t : BitVec 3) (d : BitVec 4) (v : BitVec 9) (p : BitVec 1) (n : BitVec 4) (k : BitVec 3)
  /-- R245. Pushes the count of ones of each lane of a brine register. -/
  | bcryst (t : BitVec 3) (a : BitVec 4) (v : BitVec 9)
  /-- R245. Adds each lane's count to the popped queue head and pushes it. -/
  | bcrysta (t : BitVec 3) (a : BitVec 4) (v : BitVec 9)
  /-- R245. Pushes per-sub-stream counts of one part. -/
  | bcrystp (t : BitVec 3) (a : BitVec 4) (v : BitVec 9) (k : BitVec 3)
  /-- R245. Accumulates per-sub-stream counts of one part into the popped head. -/
  | bcrystpa (t : BitVec 3) (a : BitVec 4) (v : BitVec 9) (k : BitVec 3)
  /-- R244. Replaces each sub-stream with a fresh one of equal salinity from a pan. -/
  | bresalt (t : BitVec 3) (d : BitVec 4) (a : BitVec 4) (n : BitVec 4)
  /-- R243. Bitwise AND of two independent streams, a unipolar product. -/
  | band (t : BitVec 3) (d : BitVec 4) (a : BitVec 4) (b : BitVec 4)
  /-- R243. Bitwise XNOR of two independent streams, a bipolar product. -/
  | bxnor (t : BitVec 3) (d : BitVec 4) (a : BitVec 4) (b : BitVec 4)
  /-- R243. Selects bits of A or B by a select stream. -/
  | bmux (t : BitVec 3) (d : BitVec 4) (a : BitVec 4) (b : BitVec 4) (s : BitVec 4)
  /-- R243. AND of two streams from one pan, the minimum. -/
  | bmin (t : BitVec 3) (d : BitVec 4) (a : BitVec 4) (b : BitVec 4)
  /-- R243. OR of two streams from one pan, the maximum. -/
  | bmax (t : BitVec 3) (d : BitVec 4) (a : BitVec 4) (b : BitVec 4)
  /-- R243. Bitwise complement of a stream. -/
  | bnot (t : BitVec 3) (d : BitVec 4) (a : BitVec 4)
  /-- R243. Copies a brine register with its tags. -/
  | bmov (t : BitVec 3) (d : BitVec 4) (a : BitVec 4)
  /-- R246. Draws one Bernoulli sample per lane into a mask. -/
  | bbern (t : BitVec 3) (m : BitVec 4) (v : BitVec 9) (p : BitVec 1) (n : BitVec 4)
  /-- R247. Draws one weighted category per lane group into a mask. -/
  | bcat (t : BitVec 3) (m : BitVec 4) (v : BitVec 9) (p : BitVec 1) (n : BitVec 4)
  /-- R333. Starts a copy channel on a record chain with a copied channel capability. -/
  | chstart (t : BitVec 3) (x : BitVec 6) (y : BitVec 4) (ch : BitVec 2)
  /-- R337. Stops a channel's granule reads; the channel becomes stopped after its last write. -/
  | chstop (t : BitVec 3) (ch : BitVec 2)
  /-- R338. Holds until a channel is not running. -/
  | chwait (t : BitVec 3) (ch : BitVec 2)
  /-- R343. Holds until a counter reaches a value, observing it as an acquire. -/
  | cwait (t : BitVec 3) (x : BitVec 6) (y : BitVec 4) (i : BitVec 25)
  /-- R343. Holds until a barrier object's phase differs from a value. -/
  | bwait (t : BitVec 3) (x : BitVec 6) (y : BitVec 4) (i : BitVec 25)
  /-- R342. Atomically adds to a counter as a release at scope pod. -/
  | cadd (t : BitVec 3) (x : BitVec 6) (y : BitVec 4) (i : BitVec 25)
  /-- R342. Makes a barrier add to a barrier object as a release. -/
  | badd (t : BitVec 3) (x : BitVec 6) (y : BitVec 4) (i : BitVec 25)
  /-- R344. Arms a threshold slot with a descriptor from a queue head. -/
  | arm (t : BitVec 3) (v : BitVec 9) (p : BitVec 1) (x : BitVec 4) (n : BitVec 3)
  /-- R346. Disarms a threshold slot. -/
  | disarm (t : BitVec 3) (n : BitVec 3)
  /-- R350. Forms the next tile word and lands it in the ring eight plies later. -/
  | next (t : BitVec 3)
  /-- R351. Reads the next schedule-table entry into the ring. -/
  | nextt (t : BitVec 3)
  /-- R347. Starts a program on another idle core of the chip by a resuming launch. -/
  | spawn (t : BitVec 3) (x : BitVec 6) (y : BitVec 4) (i : BitVec 25)
  /-- R379. Submits a GTS record to a level's unit as a release. -/
  | gsub (t : BitVec 3) (lvl : BitVec 3) (x : BitVec 6) (y : BitVec 4) (i : BitVec 24)
  /-- R380. Holds until a record's report has been written over it. -/
  | gwait (t : BitVec 3) (x : BitVec 6) (y : BitVec 4)
  /-- R14. A result of a committed bundle lands at its issue ply plus its latency into its register, queue slot or state. -/
  | resultLanding (core : Nat)
  /-- R290. A load, store, push or window access performs at its home at its perform ply. -/
  | memoryAccessPerform (ident : Nat)
  /-- R268. An atomic executes in the atomic cache of its home die and leases the line. -/
  | atomicExecute (ident : Nat)
  /-- R269. An atomic cache lease ends 512 plies after its last atomic. -/
  | leaseExpiry (die : Nat) (line : Nat)
  /-- R345. A fired threshold slot takes its spawn, store or host-event action at its ply. -/
  | thresholdAction (core : Nat) (ch : Nat)
  /-- R331. A copy channel reads and validates a transfer record. -/
  | recordFetch (core : Nat) (ch : Nat)
  /-- R334. A channel issues one granule read and writes it to every destination. -/
  | granuleTransfer (core : Nat) (ch : Nat)
  /-- R336. After every write of a counted record performs, the engine adds to its counter and clears OWN. -/
  | countedRecordAdd (core : Nat) (ch : Nat)
  /-- R349. After a yield, once the core's operations complete, the engine adds 1 to the word at YCTR. -/
  | yieldCounterAdd (core : Nat)
  /-- R384. A pending deferred event is taken on the next bundle the core issues, which then commits nothing. -/
  | deferredEventTaken (core : Nat)
  /-- R389. WDCNT reaches WDLIM and WATCHDOG subcode 0 becomes due. -/
  | watchdog (core : Nat)
  /-- R390. A bundle held for WAITLIM plies raises WATCHDOG subcode 1. -/
  | waitWatchdog (core : Nat)
  /-- R391. At ply P link engines stop issuing and pause, and cores begin to look for a divert. -/
  | preemptionPly (chip : Nat)
  /-- R392. A core that has neither diverted nor yielded by P + PRWAIT gets PREEMPT subcode 0 due. -/
  | preemptTimeout (core : Nat)
  /-- R396. A drained core writes its save area one granule per ply, disarms thresholds and is left idle. -/
  | contextSave (core : Nat)
  /-- R399. A restored diverted core issues its first bundle at Q + O, restarts stopped channels and re-raises saved events. -/
  | resumeStart (core : Nat)
  /-- R449. At Q + 512 a port's pause store is released and unclaimed entries discarded. -/
  | pauseStoreRelease (port : Nat)
  /-- R387. HCTL action that resumes a halted core at TPC or at the trap vector. -/
  | go (core : Nat) (vec : Bool)
  /-- R387. HCTL action that halts a running core after the bundle of its ply. -/
  | stop (core : Nat)
  /-- R387. HCTL action that requests a context save of an idle or halted core. -/
  | save (core : Nat)
  /-- R398. HCTL action that reads the save area back into an idle core. -/
  | restore (core : Nat)
  /-- R142. A write to QSTAT sets the selected queue's HEAD and COUNT unless landings are pending. -/
  | qstatWrite (core : Nat) (v : BitVec 64)
  /-- R386. A write to CSBASE is ignored if unaligned or too high, and clears CKV when it changes the base. -/
  | csbaseWrite (core : Nat) (v : BitVec 64)
  /-- R414. A write to ACTAGn binds the slot and clears ACNJn. -/
  | actagWrite (chip : Nat) (index : Nat) (v : BitVec 64)
  /-- R33. A write to a control state or BAR0 register without behaviour of its own updates its writable fields. -/
  | registerWrite (bar : Bool) (unit : Nat) (index : Nat) (v : BitVec 64)
  /-- R365. A GTS record that does nothing and completes at acceptance. -/
  | gnop (r : GtsRec)
  /-- R358. GTS record that copies one tensor to another. -/
  | gcopy (r : GtsRec)
  /-- R358. GTS record that converts a tensor between formats. -/
  | gconv (r : GtsRec)
  /-- R358. GTS record that fills a tensor with a constant. -/
  | gfill (r : GtsRec)
  /-- R359. GTS elementwise operation on two tensors. -/
  | gelt (r : GtsRec)
  /-- R359. GTS elementwise operation with a scalar argument. -/
  | gelts (r : GtsRec)
  /-- R360. GTS matrix product accumulated into d. -/
  | gmma (r : GtsRec)
  /-- R360. GTS matrix product replacing d. -/
  | gmmaz (r : GtsRec)
  /-- R361. GTS inclusive scan along dimension 0. -/
  | gscan (r : GtsRec)
  /-- R361. GTS reduction along dimension 0. -/
  | gred (r : GtsRec)
  /-- R362. GTS gather of rows by an index tensor. -/
  | ggather (r : GtsRec)
  /-- R363. GTS all-gather collective over a multicast group. -/
  | gagather (r : GtsRec)
  /-- R363. GTS reduce-scatter collective. -/
  | grscat (r : GtsRec)
  /-- R363. GTS all-reduce collective. -/
  | gared (r : GtsRec)
  /-- R363. GTS all-to-all collective. -/
  | ga2a (r : GtsRec)
  /-- R364. GTS stochastic product counts on the brine unit. -/
  | gbprod (r : GtsRec)
  /-- R364. GTS categorical draws on the brine unit. -/
  | gbdraw (r : GtsRec)
  /-- R365. GTS record that completes when a counter reaches a threshold. -/
  | gcwait (r : GtsRec)
  /-- R371. A leaf of a record is checked against its core and dispatched at its dispatch ply. -/
  | leafDispatch (ident : Nat)
  /-- R372. A dispatched leaf begins staging, compute and write-out on its core. -/
  | leafStart (core : Nat)
  /-- R372. A leaf ends its write-out and adds its byte count to the record's counter. -/
  | leafEnd (core : Nat)
  /-- R374. A record completes, its cores are released and cleared, and its report is written. -/
  | recordCompletion (ident : Nat)
  /-- R453. At dispatch a collective is checked, its signature written and its engines started. -/
  | collectiveStart (chip : Nat)
  /-- R453. At F + DONE the collective adds its byte count to its counter and completes. -/
  | collectiveCompletion (chip : Nat)
  /-- R434. LCTL action that starts a link engine at frame LFRAME. -/
  | start (port : Nat)
  /-- R449. LCTL action that arms a paused engine to resume at the resume ply. -/
  | resume (port : Nat)
  /-- R459. Compression step that keeps the K largest elements of each block. -/
  | topk (chip : Nat) (die : Nat) (w : BitVec 128)
  /-- R459. Compression step that adds sparse top-k values into a destination. -/
  | scadd (chip : Nat) (die : Nat) (w : BitVec 128)
  /-- R460. Compression step that quantises blocks to 4-bit codes with error feedback. -/
  | q4 (chip : Nat) (die : Nat) (w : BitVec 128)
  /-- R460. Compression step that adds decoded 4-bit blocks into a destination. -/
  | dq4add (chip : Nat) (die : Nat) (w : BitVec 128)
  /-- R445. Reply flits arrive at a claimed reply slot and their data lands 30 plies later. -/
  | replyArrival (port : Nat)
  /-- R422. A flit is checked at the receiver by CRC, header and tag. -/
  | flitArrival (port : Nat)
  /-- R423. A NAK reaching the sender makes it send the flit's parity symbols. -/
  | nakReceipt (port : Nat)
  /-- R423. Parity arrives, the receiver decodes and the repaired flit is checked and delivered. -/
  | parityArrival (port : Nat)
  /-- R424. At s + HD, no flit or a failed repair at a claimed position declares the link failed. -/
  | missingFlitDetection (port : Nat)
  /-- R427. The elastic buffer leaving its range declares failure 0x03. -/
  | elasticBufferDrift (port : Nat) (distance : Nat)
  /-- R429. At each guard interval every port sends its exchange message and re-centres its elastic buffer. -/
  | guardInterval (port : Nat)
  /-- R430. Message kind 7 carrying the sender's send time is received and timed. -/
  | exchangeSendTime (port : Nat) (arrival : BitVec 72)
  /-- R430. Message kind 8 lets the child compute delta and theta, or declare failure 0x06. -/
  | exchangeReceiptTime (port : Nat)
  /-- R430. The child shifts its clock phase by -theta at the end of the next guard interval. -/
  | phaseCorrection (port : Nat)
  /-- R409. Message kind 1 announcing a tempo change at ply Z is received, relayed and held. -/
  | tempoNotice (chip : Nat)
  /-- R391. Message kind 2 announcing a pre-emption ply is received; PRPLY is set. -/
  | preemptionNotice (chip : Nat)
  /-- R399. Message kind 3 announcing the resume ply is received; RSPLY is set. -/
  | resumeNotice (chip : Nat)
  /-- R462. Message kind 4 is relayed up, returned by the root, and applied to choose the recovery mode and halt ply. -/
  | faultNotice (chip : Nat)
  /-- R473. Message kind 5 received at the root starts or extends a D hold. -/
  | tempoDRequest (chip : Nat)
  /-- R474. Message kind 6 lowers the root's thermal ceiling one step. -/
  | slowDownNotice (chip : Nat)
  /-- R473. A D hold expires and tempo D ceases to count. -/
  | dHoldEnd
  /-- R474. After THOLD plies without a slow-down notice the thermal ceiling rises one step. -/
  | thermalStepUp
  /-- R475. A write of CAPMSG is applied as a new cap or dropped as stale. -/
  | powerCapMessage (v : BitVec 64)
  /-- R475. The cap lease expires and the cap becomes C with LAPSED set. -/
  | capLeaseExpiry
  /-- R409. Converters switch ratio 1,024 plies before or after a tempo change. -/
  | converterSwitch (chip : Nat)
  /-- R409. At ply Z the clock takes the new tempo and split code. -/
  | tempoChange (chip : Nat)
  /-- R411. At the end of a 256-ply window an over-limit average sends a tempo-D request. -/
  | currentWindowEnd (chip : Nat) (amps : Nat)
  /-- R412. A periodic temperature reading sends a slow-down notice at WARN or halts the package at CRIT. -/
  | temperatureReading (chip : Nat) (die : Nat) (temp : BitVec 8)
  /-- R464. At H every chip of the job stops its engines and either idles the cores or makes the cause due. -/
  | haltPly (chip : Nat)
  /-- R470. At Y ports and cores of the job restart from the target stage on the chosen VID. -/
  | replayPly (chip : Nat)
  /-- R484. Command KIND 0 submits a level-4 GTS record to the package sequencer. -/
  | hostGtsRecord (chip : Nat)
  /-- R484. Command that copies host staging into a pod address as a counted host transfer. -/
  | write (chip : Nat)
  /-- R484. Command that copies a target range into host staging. -/
  | read (chip : Nat)
  /-- R484. Command that sets an entry of the context's capability table. -/
  | capset (chip : Nat)
  /-- R484. Command that starts a core under R12 from a launch block. -/
  | launch (chip : Nat)
  /-- R484. Command that installs the placement map for the next context. -/
  | mapset (chip : Nat)
  /-- R484. A reserved KIND or out-of-range body is consumed and answered with event CODE 1. -/
  | badCommand (chip : Nat)
  /-- R484. A host WRITE or READ completes by a counter add or an event. -/
  | hostTransferCompletion (chip : Nat)
  /-- R487. A write of 1 to PODJOIN requests the move from package ready to pod joined. -/
  | podJoin (chip : Nat)
  /-- R489. MWDCNT reaches MWDLIM; an event is posted and cores may be stopped. -/
  | managementWatchdog (chip : Nat)
  /-- R487. Reset returns the part to the power-on state. -/
  | reset (chip : Nat)
  /-- R487. Supplies become stable and the part enters self-test. -/
  | powerOn (chip : Nat)
  /-- R487. Every die passes self-test, state and scratchpads are zeroed, and the part enters local service. -/
  | selfTest (chip : Nat)
  /-- R488. The firmware signature check ends, setting FWSTAT and moving to package ready on success. -/
  | firmwareCheck (chip : Nat) (result : BitVec 2)
  /-- R52. A bundle whose slot holds a reserved or extension major, or an unlisted FN, issues and raises ILLEGAL_OPCODE or EXTENSION_ABSENT. -/
  | illegalOpcode (cls : Nat) (sub : Nat) (word : BitVec 48)
  /-- R370. A unit accepts a GTS record at a = max(p + A, c + 1), reads its descriptors, checks it under R357 and cuts it into children. -/
  | recordAcceptance (ident : Nat)
  /-- R424. Both copies of a control-word message fail their CCRC and the link is declared failed with subcode 0x07. -/
  | damagedMessage (port : Nat)
  /-- R488. The device signs the host's nonce, the firmware digest and BSTATE with its identity key. -/
  | attestation (chip : Nat) (nonce : BitVec 256)
  /-- R426. Management writes the write-only key registers of a port, installing new link keys and clearing TFAIL so that a locked port can come up again. -/
  | linkKeyInstall (port : Nat) (tx : BitVec 256) (rx : BitVec 256)
  deriving DecidableEq, Repr

end Sys2Proof
end

