-- ==== Sys2Proof/Machine/State.lean ====
section
/-! DEFINITION. The state of the part as plain data, and the state right after reset. -/

namespace Sys2Proof.Machine

/-! ## Registers of a core -/

/-- The three states of a sequencer (R16). -/
inductive RunState where
  | idle
  | running
  | halted
  deriving DecidableEq, Repr

/-- One loop stack entry (R19). -/
structure LoopEntry where
  count : BitVec 32
  start : BitVec 32
  deriving DecidableEq, Repr

/-- One walk register (R124). -/
structure Walk where
  base : Word
  step : Word
  deriving DecidableEq, Repr

/-- One vector queue: head, count, two physical slots (R130). -/
structure VQueue where
  head : BitVec 1
  count : BitVec 2
  slot0 : Entry
  slot1 : Entry
  deriving DecidableEq, Repr

/-- A capability with its hidden tag (R257, R258). -/
structure Cap where
  tag : Bool
  bits : BitVec 128
  deriving DecidableEq, Repr

/-- One pan of the brine unit (R230). -/
structure Pan where
  seed : Word
  scr : BitVec 10
  ph : BitVec 16
  deriving DecidableEq, Repr

/-- A register that the checking scoreboard watches (R30, R238). -/
inductive Reg where
  | scalar (n : Nat)
  | mask (n : Nat)
  | walk (n : Nat)
  | cap (n : Nat)
  | control (index : Nat)
  | brine (n : Nat)
  deriving DecidableEq, Repr

/-- What lands in a core at the end of a latency (R14).
The last group are the results the part calls effective at commit: they are seen from the next ply on. -/
inductive Land where
  | scalar (r : Nat) (v : Word)
  | ring (r : Nat) (v : Word)
  | mask (m : Nat) (v : Word)
  | cap (c : Nat) (v : Cap)
  | control (index : Nat) (v : Word)
  | queue (q : Nat) (slot : Nat) (v : Entry)
  | brine (b : Nat) (v : BitVec 65536)
  | scaleEntry (side e : Nat) (v : BitVec 16)
  | scaleQuad (side g : Nat) (v : Word)
  | scaleReset (side : Nat)
  | scaleUni (side : Nat) (v : BitVec 5)
  | tile (t off len : Nat) (v : BitVec 101376)
  | accZero (n : Nat)
  | flagsSet (bits : BitVec 18)
  | flagsClear (bits : BitVec 18)
  | tconf (v : BitVec 32)
  | panSeed (p : Nat) (v : Word)
  | panAux (p : Nat) (scr : BitVec 10) (ph : BitVec 16)
  | panPhase (p : Nat) (ph : BitVec 16)
  | brineTags (b : Nat) (len : BitVec 3) (mask : BitVec 16)
  | blen (v : BitVec 3)
  | dpan (v : BitVec 4)
  deriving DecidableEq, Repr

/-- A result of a committed bundle on its way to its register (R14, R29): due ply, issue order, slot order. -/
structure Pending where
  due : Nat
  seq : Nat
  slot : Nat
  what : Land
  deriving DecidableEq, Repr

/-! ## Memory accesses -/

/-- A run of bytes at a physical home address, `off` bytes into the data of its access. -/
structure Span where
  addr : Nat
  len : Nat
  off : Nat
  deriving DecidableEq, Repr

/-- Where the data of a read goes. -/
inductive Dest where
  /-- a write: no data returns -/
  | nowhere
  /-- scalar register `r`; `size` bytes, sign-extended (R118, R280) -/
  | scalar (r size : Nat)
  /-- physical slot of a queue; the lanes the spans fill, in order (R277) -/
  | queue (q slot : Nat) (lanes : List Nat)
  /-- capability register (R286) -/
  | cap (c : Nat)
  /-- a word of the next-tile ring (R351) -/
  | ring (r : Nat)
  /-- a read that polls for the wait of a held bundle (R343) -/
  | poll (size : Nat)
  /-- bytes of a tile register (R214) -/
  | tile (t off : Nat)
  /-- a write whose data is sampled from a tile at the start of its perform ply (R214) -/
  | fromTile (t off : Nat)
  /-- a granule of row `row` read by copy channel `ch`, written on to the listed homes at the listed plies (R334) -/
  | copy (ch row : Nat) (targets : List (Nat × Nat))
  /-- a granule of the save area that a restore reads (R398) -/
  | restore (off : Nat)
  /-- a write that changes one nibble of its byte, the high one or the low one (R372) -/
  | nibble (high : Bool)
  /-- the 32 bytes of a submitted record (R379) -/
  | record (rec : Nat)
  /-- a granule that is written on to another home `lag` plies later (R372, R439) -/
  | forward (home lag : Nat)
  /-- a granule for the host staging of a chip, and a write of one from there (R484) -/
  | staging (chip off : Nat)
  | fromStaging (chip off : Nat)
  /-- a read of the counter that a GCWAIT record names (R365) -/
  | counter (rec : Nat)
  /-- the faulted report of a record, which its submitter takes with this subcode and TVAL (R378) -/
  | report (sub : Nat) (tval : Word)
  deriving DecidableEq, Repr

/-- A memory access on its way to its home (R290): who issued it, when it performs, when its data lands. -/
structure Access where
  ident : Nat
  op : Nat
  core : Nat
  rank : Nat
  order : Nat
  due : Nat
  landAt : Nat
  delayed : Bool
  write : Bool
  spans : List Span
  data : BitVec 2048
  /-- the hidden tag a capability store writes; other writes clear tags (R258) -/
  capTag : Option Bool
  dest : Dest
  /-- the active lanes and the byte stride of a vector form, for its request flits (R443) -/
  mask : BitVec 64 := BitVec.allOnes 64
  stride : BitVec 32 := 4
  deriving DecidableEq, Repr

/-- The operations of atomics, and the adds that engines make (R281, R299, R341). -/
inductive AtomOp where
  | swap
  | cas
  | add
  | min
  | max
  | and
  | or
  | xor
  | barrier
  deriving DecidableEq, Repr

/-- An atomic on its way to the atomic cache of its home die (R268). -/
structure Atom where
  ident : Nat
  op : Nat
  core : Nat
  rank : Nat
  order : Nat
  due : Nat
  landAt : Nat
  addr : Nat
  kind : AtomOp
  x : Word
  y : Word
  /-- the scalar register that receives the old value; none for the adds of engines and E slots -/
  dest : Option Nat
  /-- the tag that the request flits carried, for one that another chip serves (R415) -/
  atag : BitVec 16 := 0
  deriving DecidableEq, Repr

/-- A memory operation a release, an acquire or a fence may wait for (R272, R273). -/
structure Op where
  ident : Nat
  seq : Nat
  /-- PRED and SUCC bits of R62: loads 1, stores 2, copy reads 4, copy writes 8, matrix reads 16, matrix writes 32 -/
  kinds : Nat
  /-- distance class of its home (R272) -/
  dist : Nat
  /-- still without a known completion ply -/
  isOpen : Bool
  /-- its completion ply when known -/
  due : Nat
  /-- the scope of the acquire it is, if it is one (R283) -/
  acq : Option Nat
  deriving DecidableEq, Repr

/-- A fence in force (R285). -/
structure Fence where
  seq : Nat
  pred : Nat
  succ : Nat
  scope : Nat
  deriving DecidableEq, Repr

/-- A lease of the atomic cache of a die on a 64-byte line (R269). The home keeps its old bytes meanwhile. -/
structure Lease where
  die : Nat
  line : Nat
  start : Nat
  data : BitVec 512
  deriving DecidableEq, Repr

/-! ## The matrix unit -/

/-- What a busy bit belongs to (R203). -/
inductive BusyReg where
  | tileWrite (t : Nat)
  | tileRead (t : Nat)
  | accWrite (n : Nat)
  | accRead (n : Nat)
  | step
  deriving DecidableEq, Repr

/-- A busy bit with the ply from which it is clear; `byMma` when a multiply-accumulate set it (R204, R205). -/
structure Busy where
  reg : BusyReg
  free : Nat
  byMma : Bool
  deriving DecidableEq, Repr

/-- A multiply-accumulate in flight (R216): its operands and the columns and nibbles sampled so far. -/
structure Mma where
  issue : Nat
  acc : Nat
  ta : Nat
  tb : Nat
  fa : Nat
  fb : Nat
  kl : Nat
  ml : Nat
  nl : Nat
  zero : Bool
  colA : Map (BitVec 768)
  colB : Map (BitVec 768)
  nibA : Map (BitVec 768)
  nibB : Map (BitVec 768)
  /-- combines already made -/
  done : Nat
  deriving DecidableEq, Repr

/-- A deferred event that a source holds (R385): TPEND bit, channel, due ply, cause, subcode, TVAL. -/
structure Deferred where
  src : Nat
  ch : Nat
  due : Nat
  num : Nat
  sub : Nat
  tval : Word
  deriving DecidableEq, Repr

/-- What an E-slot wait compares (R343, R380): a counter reaches a value, a barrier phase differs, a report stands. -/
inductive WaitKind where
  | counter
  | barrier
  | report
  deriving DecidableEq, Repr

/-- The wait of a held bundle: its comparison value sampled at first issue, the read in flight that polls the word, the
plies from a read to the issue it allows, and the ply at which the bundle issues once a read has met the condition
(R343). -/
structure Wait where
  kind : WaitKind
  cmp : Word
  ident : Nat
  lag : Nat
  ready : Option Nat
  deriving DecidableEq, Repr


/-! ## Copy channels, thresholds, saves (R327 to R345, R395 to R399) -/

/-- The record whose granules a channel is issuing (R327, R328): its fields, its number of granules, and the ply at which
the next granule read issues. `op` numbers it as a memory operation. -/
structure CopyRun where
  off : Nat
  op : Nat
  ctl : BitVec 8
  nextOff : Nat
  src : Nat
  dst : Nat
  rows : Nat
  rbytes : Nat
  sstride : Int
  dstride : Int
  ctr : Word
  add : Word
  mcast : Nat
  n : Nat
  issueAt : Nat
  deriving DecidableEq, Repr

/-- A record whose granules have all been issued and which is not complete yet; the ply of its counter add when known. -/
structure CopyTail where
  off : Nat
  op : Nat
  ctl : BitVec 8
  ctr : Word
  add : Word
  addAt : Option Nat
  last : Bool
  deriving DecidableEq, Repr

/-- A granule for a push region that waits for the others of its 256 bytes (R330). -/
structure PushPart where
  /-- the operation of its record, and its row -/
  op : Nat
  row : Nat
  home : Nat
  due : Nat
  data : BitVec 512
  deriving DecidableEq, Repr

/-- A copy channel (R333 to R340). -/
structure Chan where
  /-- 0 idle, 1 running, 2 stopped, 3 faulted -/
  state : BitVec 2
  sub : BitVec 8
  mode : Bool
  recOff : BitVec 22
  next : BitVec 32
  cap : Cap
  /-- the operation that stands for the records not fetched yet, and the bundle that started the chain -/
  chain : Nat
  seq : Nat
  /-- the next record to fetch, and when; whether a lease has delayed the fetch -/
  fetchOff : Nat
  fetchAt : Option Nat
  fetchDelayed : Bool
  /-- the start granule of the head record; none after the head -/
  head : Option Nat
  cur : Option CopyRun
  tails : List CopyTail
  parts : List PushPart
  /-- the subcode of a record that failed its validation -/
  fault : Option Nat
  /-- the ply of the CHSTOP -/
  stopAt : Option Nat
  deriving DecidableEq, Repr

/-- An armed threshold slot (R344): it watches atomics that execute after ply `since` and, once disarmed or replaced, none
after ply `until`. -/
structure Arm where
  slot : Nat
  off : Nat
  thr : Word
  kind : Nat
  target : Word
  value : Word
  code : BitVec 16
  since : Nat
  ends : Option Nat
  deriving DecidableEq, Repr

/-- A slot that has fired, with the ply of its action (R345). -/
structure Fired where
  arm : Arm
  ply : Nat
  deriving DecidableEq, Repr

/-- A context save, requested or in progress (R395, R396): PRE and KIND of the header, whether it has begun, the runs of
granules still to write (offset and number), and the registers it writes. -/
structure Save where
  pre : Bool
  kind : BitVec 2
  begun : Bool
  todo : List (Nat × Nat)
  /-- the ply of its next granule at the earliest -/
  next : Nat
  tsaved : BitVec 18
  bsaved : BitVec 22
  /-- the KIND of the save that ply P asked for while this one waited or ran (R395) -/
  again : Option (BitVec 2) := none
  deriving DecidableEq, Repr

/-- A restore in progress (R398): the runs of granules still to read, and the header, TVALs and channel offsets read. -/
structure Restore where
  todo : List (Nat × Nat)
  /-- the ply of its next granule at the earliest -/
  next : Nat
  /-- CSBASE as the restore began -/
  base : BitVec 22
  header : BitVec 512
  tvals : BitVec 512
  offs : List (Nat × Word)
  deriving DecidableEq, Repr

/-- The start that a restored core holds (R399): RPC, O, the saved events with their subcodes and TVALs, the saved offsets of
the channels still to restart, and the last ply of the restore. -/
structure Resume where
  rpc : BitVec 32
  o : Word
  pend : BitVec 64
  psub : Word
  tvals : BitVec 512
  chans : List (Nat × Word)
  doneAt : Nat
  /-- the core has started; channels are still to restart -/
  started : Bool
  deriving DecidableEq, Repr

/-- An event for the host (R485): its source, code and data, and the ply at which it became due. -/
structure HostEvent where
  chip : Nat
  src : Nat
  code : Nat
  data : BitVec 320
  deriving DecidableEq, Repr

/-! ## The tile set (R352 to R381) -/

/-- A tensor descriptor as its 32 bytes give it (R355). -/
structure Tensor where
  cap : Nat
  fmt : Nat
  rank : Nat
  scl : Nat
  ext : List Nat
  s1 : Nat
  s2 : Nat
  s3 : Nat
  off : Nat
  deriving DecidableEq, Repr

/-- The phase of a leaf (R371 to R374). -/
inductive LeafPhase where
  /-- not dispatched -/
  | planned
  /-- dispatched at its ply, and waiting for its core -/
  | queued
  /-- its inputs are being staged -/
  | staging
  /-- computed; its output is being written -/
  | writing
  | ended
  deriving DecidableEq, Repr

/-- A leaf of a record (R366, R371): output rows and columns, planes, physical core, the reporter's child that holds it, the
leaf whose carry it takes (R373); its dispatch ply, the ply at which it may compute, its compute end and its end; the index
values of a gather. -/
structure Leaf where
  row0 : Nat
  rows : Nat
  col0 : Nat
  cols : Nat
  planes : List (Nat × Nat)
  core : Nat
  child : Nat
  prev : Option Nat
  phase : LeafPhase
  dispatched : Nat
  computeAt : Nat
  computed : Nat
  ends : Nat
  index : List Nat
  /-- the ply of the reads that a lease delays: of its index values while it is planned, of d before it computes (R269) -/
  late : Option Nat := none
  /-- the last results of its rows, for the leaf that takes its carry -/
  carry : List Nat
  deriving DecidableEq, Repr

/-- What a faulted record reports (R376): FLVL, CAUSE, SUB, FADDR, FCHILD. -/
structure GtsFault where
  lvl : Nat
  cause : Nat
  sub : Nat
  addr : Nat
  child : Nat
  deriving DecidableEq, Repr

/-- A record submitted to a unit (R370, R379). -/
structure GtsRun where
  ident : Nat
  lvl : Nat
  /-- the unit by the first physical core it holds (R352) -/
  unit : Nat
  /-- the lane group of a level-0 record (R128, R379) -/
  group : Nat
  /-- pod address of the record, and its home -/
  addr : Nat
  home : Nat
  /-- submitting core, GSUB capability, and c0 to c15 as sampled; a host record has the capability table of its chip -/
  who : Nat
  cap : Cap
  caps : List Cap
  /-- a host record: its chip -/
  host : Option Nat
  raw : Option (BitVec 256)
  /-- the earliest acceptance ply -/
  readyAt : Nat
  accepted : Option Nat
  /-- the ply of its acceptance, where a lease has delayed the reads of its descriptors (R269) -/
  late : Option Nat := none
  tensors : List (Option Tensor)
  leaves : List Leaf
  children : Nat
  /-- the first rank that is not dispatched any more; the record waits for nothing else -/
  stop : Option Nat
  fault : Option GtsFault
  /-- cores reserved, with the granules that their leaves have staged -/
  held : Map Nat
  /-- the latest of the plies of R374 so far -/
  latest : Nat
  done : Option Nat
  op : Nat
  deriving DecidableEq, Repr
/-! ## A core -/

/-- The state of one core (R11), with the model's own bookkeeping of what is in flight. -/
structure Core where
  /-- program counter; bits [31:22] are always zero (R17) -/
  pc : BitVec 22
  run : RunState
  chksb : Bool
  codeLo : BitVec 32
  codeHi : BitVec 32
  lc : Map LoopEntry
  depth : BitVec 3
  leaf : BitVec 3
  tcause : BitVec 32
  tpc : BitVec 32
  tval : Word
  tvec : BitVec 32
  intrap : Bool
  s : Map Word
  w : Map Walk
  pend : List Pending
  /-- the ply at which the next bundle issues at the earliest (R13) -/
  nextIssue : Nat
  /-- plies for which the bundle at issue has been held (R390) -/
  held : Nat
  /-- the ply from which a core that yielded is idle (R114) -/
  idleFrom : Nat
  /-- the ply from which a core that a SPAWN launched is running (R347) -/
  runFrom : Nat
  -- queues and masks (R130, R141, R143)
  q : Map VQueue
  /-- which push last reserved a physical slot (R138), by 2 q + slot: 8 times its issue order plus its slot class plus 1 -/
  qown : Map Nat
  m : Map Word
  qsel : BitVec 9
  msel : BitVec 4
  -- capabilities (R257, R261)
  c : Map Cap
  pmq : Word
  -- matrix unit (R196-R208)
  tile : Map (BitVec 101376)
  /-- rows of the accumulators: row r of an at 192 n + r -/
  acc : Map (BitVec 6144)
  tconf : BitVec 32
  tinuse : BitVec 18
  tdirty : BitVec 18
  busy : List Busy
  mmas : List Mma
  /-- the A table (entries 0 to 15) and the B table (16 to 31) -/
  scale : Map (BitVec 16)
  uniA : BitVec 5
  uniB : BitVec 5
  -- brine unit (R227-R234)
  b : Map (BitVec 65536)
  blen : Map (BitVec 3)
  bmask : Map (BitVec 16)
  pan : Map Pan
  blenc : BitVec 3
  dpan : BitVec 4
  psel : BitVec 4
  -- memory operations (R272, R285)
  ops : List Op
  fences : List Fence
  /-- the wait of the bundle at issue (R343) -/
  wait : Option Wait
  -- copy engine and persistent work (R339)
  chans : Map Chan
  arms : List Arm
  fired : List Fired
  ntcur : Word
  ntstep : Word
  ntend : Word
  ntw : BitVec 20
  ntrp : BitVec 2
  schbase : BitVec 22
  schlen : BitVec 32
  schcur : BitVec 32
  yctr : Word
  /-- the yield counters that yields found and whose adds are still to make (R349) -/
  yieldAdds : List Word
  /-- the tile-set record that has reserved the core (R374) -/
  reserved : Option Nat
  -- faults and pre-emption (R384-R399)
  dev : List Deferred
  lost : BitVec 8
  prply : Word
  prwait : BitVec 32
  drpc : BitVec 32
  droff : Word
  /-- the core diverted for the announced pre-emption (R392) -/
  diverted : Bool
  /-- the core has asked for its save for the announced pre-emption (R395), or was too late for it (R392) -/
  preDone : Bool
  preLate : Bool
  wdlim : BitVec 32
  wdcnt : BitVec 32
  waitlim : BitVec 32
  csbase : BitVec 22
  ckv : Bool
  csmode : Bool
  csdirty : BitVec 22
  /-- the bits of CSDIRTY that this ply has set (R200, R397) -/
  csfresh : BitVec 22
  rsply : Word
  dtbase : BitVec 22
  dtlen : BitVec 16
  /-- HCTL.STOP takes effect at the end of this ply (R387) -/
  stopping : Bool
  saving : Option Save
  restoring : Option Restore
  resume : Option Resume
  deriving DecidableEq, Repr

/-! ## The bundle being issued -/

/-- A cause that a slot meets at issue: number, subcode, TVAL (R9). -/
structure Cause where
  num : Nat
  sub : Nat
  tval : Word
  deriving DecidableEq, Repr

/-- A push of a slot: queue, and the entry with its latency, or the load that will fill it (R133). -/
structure Push where
  q : Nat
  lat : Nat
  data : Entry
  load : Option Access
  deriving DecidableEq, Repr

/-- What a tree decided (R22, R23): tests, leaf reached, whether it lies in the left subtree of the root. -/
structure TreeOut where
  ok : Bool
  tests : Nat
  leaf : Nat
  left : Bool
  deriving DecidableEq, Repr

/-- What a slot does at commit beside its landings, as data. -/
inductive Eff where
  /-- a new loop stack depth, and an entry to write (R19) -/
  | loops (depth : Nat) (entry : Option (Nat × LoopEntry))
  /-- a loop close committed: the end of this ply is an iteration boundary (R20) -/
  | boundary
  | tret
  | yielded
  | softTrap (sub : Nat) (tval : Word)
  | access (a : Access)
  | atom (a : Atom)
  | op (o : Op)
  | fence (f : Fence)
  | busy (reg : BusyReg) (after : Nat) (byMma : Bool)
  | mma (m : Mma)
  /-- the request slot that a remote access takes (R266): its place in the list of slots -/
  | takeSlot (i ident : Nat)
  /-- starts a channel on a record chain (R333): channel, head offset, start granule, channel capability -/
  | chStart (ch off g0 : Nat) (cap : Cap)
  | chStop (ch : Nat)
  | arm (a : Arm)
  | disarm (slot : Nat)
  /-- launches another core (R347): physical core, entry, first issue ply -/
  | spawn (core entry first : Nat)
  /-- submits a record to a unit (R379), with the read of its bytes -/
  | submit (r : GtsRun) (a : Access)
  deriving DecidableEq, Repr

/-- What one slot reads, needs and does, computed from the state at the start of the bundle. -/
structure SlotOut where
  cls : Nat
  tag : Nat
  word : Nat
  tree : Option TreeOut
  /-- the subcode of ILLEGAL_OPCODE, for a slot that is no instruction -/
  illegal : Option Nat
  /-- queues read, with whether the read pops -/
  qreads : List (Nat × Bool)
  /-- destination queues named (R49) -/
  qdests : List Nat
  bc : Bool
  hold : Bool
  /-- the wait that the bundle begins when it is first held, and its first read (R343) -/
  wait : Option (Wait × Access)
  /-- a check of a wait fails when its bundle first reaches issue: the bundle is not held (R343) -/
  prompt : Bool
  reads : List Reg
  causes : List Cause
  pushes : List Push
  lands : List (Nat × Land)
  target : Option Nat
  /-- pan indices drawn (R159, R239) -/
  draws : List (Nat × Nat)
  /-- memory operations the slot starts: kinds and distance class (R272, R273) -/
  starts : List (Nat × Nat)
  /-- the scope of the release it is, if it is one (R282) -/
  release : Option Nat
  effs : List Eff
  deriving DecidableEq, Repr

/-- The bundle being issued: its core, the slots still to come and what the slots before them do. -/
structure Cur where
  core : Nat
  header : Nat
  w : Nat
  len : Nat
  /-- bytes 0 to 7 of the bundle, for TVAL (R54) -/
  bytes : Word
  /-- the lowest byte of the bundle outside the code range (R17) -/
  fetchFault : Option Nat
  left : Nat
  outs : List SlotOut
  deriving DecidableEq, Repr

/-! ## Placement -/

/-- The placement map of a chip's context (R259): the number of logical chips; for a logical chip its physical chip and
whether it is a member; for a logical core (die 64 + core, with 1,536 for each logical chip) the physical one and its
state; the groups. A chip or core that is not listed is bound to itself, a member and present. -/
structure PlaceMap where
  n : Nat
  chips : Map (Nat × Bool)
  cores : Map Nat
  /-- 1 disabled, 2 foreign; a core that is not listed is present -/
  status : Map Nat
  groups : Map (List Nat)
  deriving DecidableEq, Repr

/-- A request slot that the link programs list for a core and a target chip (R266, R445): request departure and arrival,
reply departure and arrival, the port it departs on and the port its reply arrives on, and whether an access took it. -/
structure ReqSlot where
  port : Nat
  rport : Nat
  core : Nat
  chip : Nat
  dep : Nat
  arr : Nat
  rdep : Nat
  rarr : Nat
  taken : Bool
  /-- the number of the access or atomic that took it -/
  ident : Nat := 0
  deriving DecidableEq, Repr

/-! ## Ports and link engines (R416 to R449) -/

/-- An entry of the link loop stack (R441). -/
structure LinkLoop where
  count : Nat
  start : Nat
  iter : Nat
  period : Nat
  outer : Nat
  deriving DecidableEq, Repr

/-- A place in a link program: next index, base, and the loop stack with its top first. -/
structure LinkPlace where
  index : Nat
  base : Nat
  loops : List LinkLoop
  deriving DecidableEq, Repr

/-- An instruction that an engine has read (R433): its number in the order of reading, the ply at which it issues, its index,
the place after it, and whether the stamp order is broken there (R434). -/
structure LinkEntry where
  ident : Nat
  ply : Nat
  index : Nat
  instr : Instr
  next : LinkPlace
  broken : Bool
  deriving DecidableEq, Repr

/-- The link engine of a port (R432 to R449). -/
structure LinkEngine where
  /-- 0 idle, 1 running, 2 paused, 3 faulted -/
  run : BitVec 2
  fcode : BitVec 8
  lpc : BitVec 14
  stage : BitVec 16
  /-- frame ply of the last start -/
  frame : Nat
  /-- the place of the next instruction to issue, and of the next one to read -/
  at0 : LinkPlace
  cursor : LinkPlace
  /-- no more is read: a HALT, a reserved code or a loop fault has been read -/
  readAll : Bool
  ahead : List LinkEntry
  /-- ply of the last instruction read, and how many issue at it -/
  lastPly : Nat
  lastCount : Nat
  /-- no instruction issues from this ply on: a pre-emption, a halt, a HALT or a fault -/
  stopAt : Option Nat
  /-- the ply at which a HALT makes it idle -/
  idleAt : Option Nat
  /-- operations of its DELVs, for MARK (R440) -/
  delvs : List Nat
  /-- before this ply a DELV or a MARK faults, for an engine that a collective started (R456) -/
  guardEnd : Nat
  /-- restart points of its last two stages: stage, start ply of the CKPT, place (R442, R470) -/
  points : List (Nat × Nat × LinkPlace)
  /-- P of the pause in force, or of the last one (R447) -/
  pausedAt : Nat
  /-- flits kept in the pause store by their entry (R448), with the access that a request or a reply belongs to -/
  kept : List (Nat × Option Nat)
  /-- armed to resume, and the Q that it resumes at (R449) -/
  armed : Bool
  resumeAt : Option Nat
  /-- the tag of the job whose program it runs, or ran when it was stopped; none before its first start and after a HALT (R462) -/
  job : Option (BitVec 16)
  deriving DecidableEq, Repr

/-- A pod port (R417 to R432). -/
structure Port where
  w : BitVec 7
  /-- 0 down, 1 up, 2 failed, 3 locked -/
  state : BitVec 2
  lastSub : BitVec 8
  tfail : BitVec 8
  det : Word
  uncl : Word
  repaired : Word
  tboff : Word
  tbdel : Word
  role : BitVec 2
  frame : Word
  txKey : BitVec 256
  rxKey : BitVec 256
  /-- elastic buffer: distance and delay line (R427) -/
  dist : Nat
  delayLine : Nat
  /-- arrival time of the far end's exchange message, in 1/256 ply, with the guard interval it belongs to (R430) -/
  heard : Option (Nat × Nat)
  /-- the last guard interval whose exchange passed, and the last one whose exchange failed -/
  passed : Option Nat
  failed : Option Nat
  /-- the ply of the last thing it did for a guard interval, and the phase shifts it owes: ply and 1/256 plies (R429, R430) -/
  guardStep : Nat
  shifts : List (Nat × Int)
  /-- management brings a failed port up again (R424) -/
  raise : Bool
  /-- the ply at which the port was last locked (R425, R426) -/
  lockedAt : Option Nat
  /-- the message field is taken until this ply (R421) -/
  busyTo : Nat
  engine : LinkEngine
  deriving DecidableEq, Repr

/-- What a claim does with a flit that arrives (R436, R437, R438, R444, R445). -/
inductive ClaimUse where
  | land (buf : Nat)
  | fwd (oq : Nat)
  | red (op buf : Nat)
  | guard (buf : Nat)
  /-- a request at a SERVE: ply and port of the reply -/
  | request (rdep rport : Nat)
  /-- a reply to an access: its core, and the order of its landing -/
  | reply (core order : Nat)
  deriving DecidableEq, Repr

/-- Claimed positions of a receiver (R422): arrival ply and position of the first flit, number of flits; `issued` once the
instruction has issued; its place in program order. -/
structure Claim where
  order : Nat
  port : Nat
  ply : Nat
  pos : Nat
  n : Nat
  use : ClaimUse
  issued : Bool
  deriving DecidableEq, Repr

/-- A transfer that a SEND makes (R436): departures from `ply` and `pos` on; the granules read so far. -/
structure SendRun where
  ident : Nat
  port : Nat
  ply : Nat
  pos : Nat
  n : Nat
  kind : Nat
  buf : Nat
  issued : Bool
  data : Map (BitVec 512)
  deriving DecidableEq, Repr

/-- A flit that departs later: from an FWD, a request slot or a SERVE (R436, R443, R444). `token` names the access that a
request or a reply belongs to. -/
structure OutFlit where
  port : Nat
  ply : Nat
  pos : Nat
  kind : Nat
  hops : Nat
  atag : BitVec 16
  pay : BitVec 512
  token : Option Nat
  deriving DecidableEq, Repr

/-- What has become of a flit in flight (R422, R423, R425). -/
inductive FlitPhase where
  /-- not checked yet -/
  | flying
  /-- passed its checks -/
  | good
  /-- passed its checks, at a position that no instruction claims, during a pause (R448) -/
  | kept
  /-- CRC failed; a repair is under way -/
  | damaged
  /-- its NAK has reached the sender -/
  | asked
  /-- the repair failed -/
  | lost
  /-- header mismatch found after a repair -/
  | misplaced
  /-- tag failure -/
  | forged
  /-- delivered at this ply -/
  | delivered
  deriving DecidableEq, Repr

/-- A flit on a link (R419): receiving port, departure ply, its fields as sent, and the bits that the wire has changed. -/
structure Flit where
  ident : Nat
  port : Nat
  sent : Nat
  pos : Nat
  kind : Nat
  hops : Nat
  atag : BitVec 16
  pay : BitVec 512
  tag : BitVec 64
  mask : BitVec 640
  phase : FlitPhase
  token : Option Nat
  deriving DecidableEq, Repr

/-- A message on its way over a link (R421): receiving port and the ply of its next copy; whether that is the second one, and what
the receiver took from the first. -/
structure Ctrl where
  port : Nat
  ply : Nat
  second : Bool
  bits : BitVec 128
  seen : Option (BitVec 128)
  deriving DecidableEq, Repr

/-- A message that waits for the message field of a port (R431); `src` is the pod port that it came from, 12 for the chip's own. -/
structure OutMsg where
  port : Nat
  src : Nat
  ready : Nat
  down : Bool
  bits : BitVec 128
  deriving DecidableEq, Repr

/-- A message that a chip has received, or that management gives the root: chip, ply, receiving port if any. -/
structure InMsg where
  chip : Nat
  ply : Nat
  port : Option Nat
  bits : BitVec 128
  deriving DecidableEq, Repr

/-- A charge of a ply (R415). -/
structure Charge where
  chip : Nat
  ply : Nat
  tag : BitVec 16
  pj : Nat
  deriving DecidableEq, Repr

/-! ## Packages (R403 to R415, R450 to R490) -/

/-- A tempo change that a chip has been told of (R409). -/
structure TempoHeld where
  z : Nat
  tempo : BitVec 2
  split : BitVec 2
  deriving DecidableEq, Repr

/-- A recovery of the job of a chip (R461 to R470). -/
structure Recovery where
  origin : Nat
  port : Nat
  ev : Nat
  t : Nat
  /-- automatic -/
  auto : Bool
  vid : Nat
  stage : Nat
  start : Nat
  replay : Nat
  halted : Bool
  /-- causes that came while it was pending -/
  extra : Nat
  /-- CODELO, CODEHI, DTBASE and DTLEN of the cores as they stood at the halt (R470) -/
  bounds : Map (List Nat)
  deriving DecidableEq, Repr

/-- An add of a MARK that waits for its ply and for the DELVs before it (R440). -/
structure MarkRun where
  port : Nat
  ply : Nat
  addr : Nat
  value : Word
  ops : List Nat
  deriving DecidableEq, Repr

/-- A collective on one link die (R450 to R458), handed over at acceptance and started at dispatch; its steps still to do: ply
and number of the next block, and the step. -/
structure Coll where
  record : Nat
  started : Bool
  chip : Nat
  die : Nat
  frame : Nat
  sigEnd : Nat
  done : Nat
  steps : List (Nat × Nat × BitVec 128)
  deriving DecidableEq, Repr

/-- A host transfer (R484): its operation, chip, command number, length and counter address. -/
structure Xfer where
  op : Nat
  chip : Nat
  seq : Nat
  len : Nat
  ctr : Nat
  deriving DecidableEq, Repr

/-- The registers of a package and of its place in the pod. -/
structure Chip where
  -- identity and state (R481, R487, R488)
  bstate : BitVec 3
  fwstat : BitVec 2
  /-- the ply at which the package was last attested (R488) -/
  attested : Option Nat
  /-- the ply from which a PODJOIN write is in effect -/
  joinAsked : Option Nat
  quote : BitVec 62848
  -- management watchdog and time base (R489)
  mtime : Word
  mwdlim : Word
  mwdcnt : Word
  mwdact : Bool
  /-- the watchdog has fired since MWDCNT was cleared -/
  mwdFired : Bool
  -- detectors (R411, R412, R490)
  curlim : Map Word
  /-- the limits of the current window -/
  limits : Map Word
  twarn : BitVec 8
  tcrit : BitVec 8
  temps : Map (BitVec 8)
  /-- the plies of the first readings of the dies -/
  tempAt : Map Nat
  /-- dies that have warned -/
  warned : List Nat
  /-- the ply of the halt at CRIT -/
  crit : Option Nat
  -- accounting (R414)
  actag : Map (BitVec 17)
  /-- charges of a slot in pJ -/
  acnj : Map Nat
  /-- accounting tag of the context, and its capability table (R413, R484) -/
  tag : BitVec 16
  caps : Map Cap
  -- recovery (R466)
  curStage : BitVec 16
  prvStage : BitVec 16
  vid : BitVec 16
  ev : BitVec 6
  rcState : BitVec 2
  rcCur : Word
  rcPrv : Word
  rcHalt : Word
  rcReplay : Word
  /-- the start plies of the current and the previous stage (R469) -/
  curStart : Nat
  prvStart : Nat
  recovery : Option Recovery
  /-- notices that the chip, as root, has returned: link key and tag, EV, PLY (R462) -/
  returned : List (Nat × Nat × Nat)
  -- tempo (R409, R472 to R477)
  tempo : BitVec 2
  split : BitVec 2
  ratio : BitVec 2
  held : List TempoHeld
  lastTempo : BitVec 2
  lastSplit : BitVec 2
  tz : Word
  capMsg : Word
  capSeen : Bool
  cap : BitVec 2
  lapsed : Bool
  drop : BitVec 8
  /-- MTIME at which the cap lease ends -/
  leaseEnd : Option Nat
  ceiling : BitVec 2
  /-- the ply of its last tempo change -/
  changedAt : Nat
  /-- the ply from which THOLD counts -/
  calmFrom : Nat
  dsplit : BitVec 2
  dhold : BitVec 32
  thold : BitVec 32
  /-- the ply at which the D hold ends -/
  dUntil : Option Nat
  /-- the effective tempo that the root has last announced or found in force -/
  effective : BitVec 2
  /-- the ply of the last downward message that the root has sent -/
  lastDown : Option Nat
  /-- phase of its clock in 1/256 ply (R430) -/
  phase : Int
  -- pre-emption (R391, R399)
  preempt : Option Nat
  resumeQ : Option Nat
  -- command window (R482 to R486)
  cmdCons : BitVec 32
  cmdAt : Option Nat
  evProd : BitVec 32
  evAck : BitVec 32
  evLost : BitVec 32
  /-- the last number of each event source -/
  sources : Map Nat
  bar2 : List Host.Cell
  deriving DecidableEq, Repr

/-- What the world outside the pod does: an event or a register write; bytes that the host writes in BAR2; bits of a flit
that the wire changes (sending port, departure ply, position), and of a control word (receiving port, arrival ply); a
message that management gives the root. Log 62, DESIGN CHOICE. -/
inductive Input where
  | row (i : Instr)
  | bar2 (chip off len : Nat) (v : BitVec 512)
  | damage (port ply pos : Nat) (mask : BitVec 640)
  | word (port ply : Nat) (mask : BitVec 224)
  | message (chip : Nat) (bits : BitVec 128)
  deriving DecidableEq, Repr

/-! ## The whole machine -/

/-- The state of the part: one pod, with the model's own agenda. -/
structure State where
  /-- the pod ply counter (R2) -/
  now : Nat
  /-- number of the next bundle in issue order -/
  seq : Nat
  /-- number of the next access or operation -/
  nextId : Nat
  /-- counter of free values -/
  freeCtr : Nat
  cur : Cur
  cores : Map Core
  /-- every byte of scratchpads and link dies, by physical pod address (R250, R290) -/
  mem : List Host.Cell
  /-- hidden tags of the 16-byte units of scratchpads, by unit address (R258) -/
  tags : Map Bool
  accs : List Access
  atoms : List Atom
  /-- the model's own: the atomics that the cores are foreseen to start at this ply on their own scratchpads (R268), once foreseen -/
  foreseen : Option (List Atom)
  leases : List Lease
  pmaps : Map PlaceMap
  slots : List ReqSlot
  /-- events for the host that became due at this ply -/
  posted : List HostEvent
  /-- the records that units hold, in the order of their submission (R370) -/
  recs : List GtsRun
  /-- ring sizes of the pod (R416), and the physical index of its root chip (R428) -/
  rings : List Nat
  root : Nat
  /-- the packages of the pod by physical index, and their ports by 12 chip + port -/
  chips : Map Chip
  ports : Map Port
  claims : List Claim
  sends : List SendRun
  outs : List OutFlit
  flits : List Flit
  ctrls : List Ctrl
  outMsgs : List OutMsg
  inMsgs : List InMsg
  charges : List Charge
  colls : List Coll
  xfers : List Xfer
  /-- remote accesses whose requests their SERVEs have received (R444) -/
  served : List Nat
  /-- the data of their replies, with the tag of a capability above 256 bytes -/
  replies : Map (BitVec 2056)
  marks : List MarkRun
  /-- what is to come from outside, by ply -/
  inputs : List (Nat × Input)
  deriving DecidableEq, Repr

/-- Why the machine stops with a fault. -/
inductive Fault where
  /-- Nothing raises this: no instruction of the part stops the model with a fault. -/
  | none
  deriving DecidableEq, Repr

/-- Why the machine refuses an instruction. -/
inductive Refusal where
  /-- An arm of `exec` that has no meaning yet raises this; it is safe. -/
  | notModelled (mnemonic : String)
  deriving DecidableEq, Repr

/-! ## Reset -/

/-- A core as self-test leaves it; registers without a reset value of the spec hold 0 (log 7, DESIGN CHOICE). -/
def Core.reset : Core :=
  { pc := 0, run := .idle, chksb := false, codeLo := 0, codeHi := 0, lc := [], depth := 0, leaf := 0, tcause := 0,
    tpc := 0, tval := 0, tvec := 0, intrap := false, s := [], w := [], pend := [], nextIssue := 0, held := 0, idleFrom := 0, runFrom := 0,
    q := [], qown := [], m := [], qsel := 0, msel := 0, c := [], pmq := 0, tile := [], acc := [], tconf := 0, tinuse := 0,
    tdirty := 0, busy := [], mmas := [], scale := [], uniA := 0, uniB := 0, b := [], blen := [], bmask := [],
    pan := [], blenc := 4, dpan := 0, psel := 0, ops := [], fences := [], wait := none
    , chans := [], arms := [], fired := [], ntcur := 0, ntstep := 0, ntend := 0, ntw := 0, ntrp := 0, schbase := 0,
    schlen := 0, schcur := 0, yctr := 0, yieldAdds := [], reserved := none,
    dev := [], lost := 0, prply := BitVec.allOnes 64, prwait := 0x10000, drpc := 0, droff := 0, diverted := false, preDone := false, preLate := false,
    wdlim := 0, wdcnt := 0, waitlim := 0, csbase := 0, ckv := false, csmode := false, csdirty := 0, csfresh := 0,
    rsply := BitVec.allOnes 64, dtbase := 0, dtlen := 0, stopping := false, saving := none, restoring := none,
    resume := none
  }

/-- The placement map before MAPSET: one logical chip, every number kept (log 6, DESIGN CHOICE). -/
def PlaceMap.reset : PlaceMap := { n := 1, chips := [], cores := [], status := [], groups := [] }

def Cur.reset : Cur :=
  { core := 0, header := 0, w := 0, len := 1, bytes := 0, fetchFault := none, left := 1, outs := [] }

def LinkPlace.reset : LinkPlace := { index := 0, base := 0, loops := [] }

def LinkEngine.reset : LinkEngine :=
  { run := 0, fcode := 0, lpc := 0, stage := 0, frame := 0, at0 := LinkPlace.reset, cursor := LinkPlace.reset,
    readAll := true, ahead := [], lastPly := 0, lastCount := 0, stopAt := none, idleAt := none, delvs := [], guardEnd := 0, points := [],
    pausedAt := 0, kept := [], armed := false, resumeAt := none, job := none }

/-- A pod port after reset, its elastic buffer at the centre (log 7, DESIGN CHOICE). -/
def Port.reset : Port :=
  { w := 0, state := 0, lastSub := 0, tfail := 0, det := 0, uncl := 0, repaired := 0, tboff := 0, tbdel := 0, role := 0,
    frame := 0, txKey := 0, rxKey := 0, dist := 32, delayLine := 0, heard := none, passed := none, failed := none,
    guardStep := 0, shifts := [], raise := false, lockedAt := none, busyTo := 0, engine := LinkEngine.reset }

/-- A package after reset; limits that the spec gives no value for are never exceeded (log 7, DESIGN CHOICE). -/
def Chip.reset : Chip :=
  { bstate := 0, fwstat := 0, attested := none, joinAsked := none, quote := 0, mtime := 0, mwdlim := 0, mwdcnt := 0, mwdact := false, mwdFired := false,
    curlim := [(0, BitVec.allOnes 64), (1, BitVec.allOnes 64), (2, BitVec.allOnes 64)],
    limits := [(0, BitVec.allOnes 64), (1, BitVec.allOnes 64), (2, BitVec.allOnes 64)], twarn := 0xFF, tcrit := 0xFF, temps := [], tempAt := [], warned := [], crit := none, actag := [], acnj := [], tag := 0,
    caps := [], curStage := 0xFFFF, prvStage := 0xFFFF, vid := 0, ev := 0, rcState := 0, rcCur := BitVec.allOnes 64,
    rcPrv := BitVec.allOnes 64, rcHalt := BitVec.allOnes 64, rcReplay := BitVec.allOnes 64, curStart := 0, prvStart := 0, recovery := none,
    returned := [], tempo := 2, split := 0, ratio := 2, held := [], lastTempo := 2, lastSplit := 0,
    tz := BitVec.allOnes 64, capMsg := 0, capSeen := false, cap := 2, lapsed := true, drop := 0, leaseEnd := none,
    ceiling := 0, changedAt := 0, calmFrom := 0, dsplit := 0, dhold := 0x100000, thold := 0x1000000, dUntil := none, effective := 2,
    lastDown := none, phase := 0, preempt := none, resumeQ := none, cmdCons := 0, cmdAt := none, evProd := 0, evAck := 0,
    evLost := 0, sources := [], bar2 := [] }

/-- The machine right after reset: one package (log 5, DESIGN CHOICE) with the identity map (log 6, DESIGN CHOICE), every core idle,
memory with nothing listed (log 8, DESIGN CHOICE). Registers hold the values of the spec, or those of log 7 (DESIGN CHOICE); the
counters `seq`, `nextId` and `freeCtr` are the model's own (log 98, DESIGN CHOICE). -/
def State.reset : State :=
  { now := 0, seq := 0, nextId := 0, freeCtr := 0, cur := Cur.reset, cores := [], mem := [], tags := [], accs := [],
    atoms := [], foreseen := none, leases := [], pmaps := [], slots := []
    , posted := []
    , recs := []
    , rings := [1, 1, 1, 1], root := 0, chips := [(0, Chip.reset)], ports := [], claims := [], sends := [], outs := [],
      flits := [], ctrls := [], outMsgs := [], inMsgs := [], charges := [], colls := [], xfers := [], served := [], replies := [], marks := [],
      inputs := []
  }

end Sys2Proof.Machine
end

