-- ==== Sys2Proof/Machine/Ops.lean ====
section
/-! DEFINITION. The named operations over cores, registers, queues and memory, and taking a trap. -/

namespace Sys2Proof.Machine

/-! ## Cores -/

/-- The core with a physical core number (R251). -/
def State.core (s : State) (n : Nat) : Core := mapGet Core.reset s.cores n

/-- The state with a core replaced. -/
def State.setCore (s : State) (n : Nat) (c : Core) : State := { s with cores := mapPut s.cores n c }

/-- The chip of a physical core number, and its core within the chip (R251). -/
def chipOf (n : Nat) : Nat := n / 1536
def dieOf (n : Nat) : Nat := n % 1536 / 64

/-- The physical pod address of window-0 byte `off` of a core (R250). -/
def coreBase (n : Nat) : Nat := (n / 1536) <<< 48 + (n % 1536 / 64) <<< 43 + (n % 64) <<< 37

/-- The core that a physical address of a core's window names. -/
def addrCore (a : Nat) : Nat := (a >>> 48) * 1536 + (field a 47 43) * 64 + field a 42 37

/-- The window and offset of a physical address. -/
def addrWin (a : Nat) : Nat := field a 36 32
def addrOff (a : Nat) : Nat := a % 2 ^ 32

/-! ## Registers -/

/-- A scalar register; s0 reads as zero (R26). -/
def Core.sreg (c : Core) (r : Nat) : Word := if r = 0 then 0 else mapGet 0 c.s r

/-- A write of a scalar register; a write to s0 is discarded (R26). -/
def Core.setSreg (c : Core) (r : Nat) (v : Word) : Core :=
  if r = 0 then c else { c with s := mapSet 0 c.s r v }

/-- A lane mask; m0 reads as all ones (R143). -/
def Core.mreg (c : Core) (r : Nat) : Word := if r = 0 then BitVec.allOnes 64 else mapGet 0 c.m r

/-- A write of a lane mask; a write to m0 is discarded (R143). -/
def Core.setMreg (c : Core) (r : Nat) (v : Word) : Core :=
  if r = 0 then c else { c with m := mapSet 0 c.m r v }

/-- The capability that no launch supplied: all zero with a clear tag (R12). -/
def Cap.null : Cap := { tag := false, bits := 0 }

def Core.creg (c : Core) (r : Nat) : Cap := mapGet Cap.null c.c r
def Core.setCreg (c : Core) (r : Nat) (v : Cap) : Core := { c with c := mapSet Cap.null c.c r v }

def Cap.base (c : Cap) : Nat := field c.bits.toNat 63 0
def Cap.length (c : Cap) : Nat := field c.bits.toNat 103 64
def Cap.perm (c : Cap) : Nat := field c.bits.toNat 111 104
def Cap.space (c : Cap) : Nat := field c.bits.toNat 115 112
def Cap.otype (c : Cap) : Nat := field c.bits.toNat 127 116

/-- A capability from its fields (R257). Log 87, DEDUCED. -/
def Cap.make (tag : Bool) (base length perm space otype : Nat) : Cap :=
  { tag := tag,
    bits := BitVec.ofNat 128 (base % 2 ^ 64 + (length % 2 ^ 40) <<< 64 + (perm % 2 ^ 8) <<< 104 +
      (space % 2 ^ 4) <<< 112 + (otype % 2 ^ 12) <<< 116) }

def Core.walk (c : Core) (n : Nat) : Walk := mapGet { base := 0, step := 0 } c.w n
def Core.setWalk (c : Core) (n : Nat) (v : Walk) : Core := { c with w := mapSet { base := 0, step := 0 } c.w n v }

def Core.loopEntry (c : Core) (n : Nat) : LoopEntry := mapGet { count := 0, start := 0 } c.lc n
def Core.setLoopEntry (c : Core) (n : Nat) (v : LoopEntry) : Core :=
  { c with lc := mapSet { count := 0, start := 0 } c.lc n v }

/-- A queue as a full launch or self-test leaves it (R131). -/
def VQueue.empty : VQueue := { head := 0, count := 0, slot0 := 0, slot1 := 0 }

def Core.queue (c : Core) (q : Nat) : VQueue := mapGet VQueue.empty c.q q
def Core.setQueue (c : Core) (q : Nat) (v : VQueue) : Core := { c with q := mapSet VQueue.empty c.q q v }

/-- The contents of a physical slot of a queue. -/
def VQueue.slot (v : VQueue) (i : Nat) : Entry := if i = 0 then v.slot0 else v.slot1
def VQueue.setSlot (v : VQueue) (i : Nat) (x : Entry) : VQueue :=
  if i = 0 then { v with slot0 := x } else { v with slot1 := x }

/-- The entry a source operand reads: the slot HEAD as it stands (R132). -/
def Core.headOf (c : Core) (q : Nat) : Entry := (c.queue q).slot (c.queue q).head.toNat

/-- A pop: HEAD moves on and COUNT falls (R133). -/
def VQueue.pop (v : VQueue) : VQueue := { v with head := v.head ^^^ 1, count := v.count - 1 }

/-- The physical slot that the next push reserves (R133). -/
def VQueue.pushSlot (v : VQueue) : Nat := (v.head.toNat + v.count.toNat) % 2

/-- The reservation of a push: COUNT rises (R133). -/
def VQueue.reserve (v : VQueue) : VQueue := { v with count := v.count + 1 }

def Core.tileOf (c : Core) (t : Nat) : BitVec 101376 := mapGet 0 c.tile t
def Core.setTile (c : Core) (t : Nat) (v : BitVec 101376) : Core := { c with tile := mapSet 0 c.tile t v }

/-- Row r of accumulator an (R197). -/
def Core.accRow (c : Core) (n r : Nat) : BitVec 6144 := mapGet 0 c.acc (192 * n + r)
def Core.setAccRow (c : Core) (n r : Nat) (v : BitVec 6144) : Core :=
  { c with acc := mapSet 0 c.acc (192 * n + r) v }

/-- An accumulator of zeros (R220, R221). -/
def Core.zeroAcc (c : Core) (n : Nat) : Core :=
  { c with acc := c.acc.filter (fun e => !(192 * n ≤ e.1 && e.1 < 192 * n + 192)) }

/-- Entry e of the scale table of a side, 0 for A and 1 for B (R208). -/
def Core.scaleEntry (c : Core) (side e : Nat) : BitVec 16 := mapGet 0x3F80 c.scale (16 * side + e)
def Core.setScale (c : Core) (side e : Nat) (v : BitVec 16) : Core :=
  { c with scale := mapSet 0x3F80 c.scale (16 * side + e) v }

/-- The kind of a tile (R199). -/
def Core.tileKind (c : Core) (t : Nat) : Nat := field c.tconf.toNat (2 * t + 1) (2 * t)

/-- Bits of CSDIRTY set (R397): also in the set of those that a write to CSDIRTY at this ply leaves set (R200). -/
def Core.markDirty (c : Core) (bits : BitVec 22) : Core :=
  { c with csdirty := c.csdirty ||| bits, csfresh := c.csfresh ||| bits }

def Core.breg (c : Core) (r : Nat) : BitVec 65536 := mapGet 0 c.b r
def Core.setBreg (c : Core) (r : Nat) (v : BitVec 65536) : Core := { c with b := mapSet 0 c.b r v }
def Core.lenTag (c : Core) (r : Nat) : BitVec 3 := mapGet 4 c.blen r
def Core.panMask (c : Core) (r : Nat) : BitVec 16 := mapGet 0 c.bmask r

/-- A pan of all zeros (R230). -/
def Pan.zero : Pan := { seed := 0, scr := 0, ph := 0 }

def Core.panOf (c : Core) (p : Nat) : Pan := mapGet Pan.zero c.pan p
def Core.setPan (c : Core) (p : Nat) (v : Pan) : Core := { c with pan := mapSet Pan.zero c.pan p v }

/-- A channel that no program has used. -/
def Chan.reset : Chan :=
  { state := 0, sub := 0, mode := false, recOff := 0, next := 0, cap := Cap.null, chain := 0, seq := 0, fetchOff := 0,
    fetchAt := none, fetchDelayed := false, head := none, cur := none, tails := [], parts := [], fault := none,
    stopAt := none }

def Core.chan (c : Core) (ch : Nat) : Chan := mapGet Chan.reset c.chans ch
def Core.setChan (c : Core) (ch : Nat) (v : Chan) : Core := { c with chans := mapPut c.chans ch v }

/-! ## Landings -/

/-- The control state registers that hold the entries of a scale table side, or the four of a group (R208). -/
def scaleRegs (side : Nat) : List Reg := (rangeFrom 0 4).map (fun g => .control (0x54 + 4 * side + g))

/-- The registers of the checking scoreboard that a landing writes (R30). -/
def Land.regs : Land → List Reg
  | .scalar r _ => [.scalar r]
  | .ring r _ => [.scalar r]
  | .mask m _ => [.mask m]
  | .cap c _ => [.cap c]
  | .control i _ => [if 0x30 ≤ i && i ≤ 0x3F then .walk ((i - 0x30) / 2) else .control i]
  | .brine b _ => [.brine b]
  | .scaleEntry side e _ => [.control (0x54 + 4 * side + e / 4)]
  | .scaleQuad side g _ => [.control (0x54 + 4 * side + g)]
  | .scaleReset side => scaleRegs side
  | .scaleUni _ _ => [.control 0x5C]
  | .tconf _ => [.control 0x50]
  | _ => []

/-- Landings in tiles and accumulators are seen from the next ply on (R14, R207). -/
def Land.isLate : Land → Bool
  | .tile _ _ _ _ => true
  | .accZero _ => true
  | _ => false

/-- Bytes `off` to `off + len - 1` of a tile replaced (R196). -/
def Core.putTile (c : Core) (t off len : Nat) (v : Nat) : Core :=
  c.setTile t (BitVec.ofNat 101376 (putField (c.tileOf t).toNat (8 * off) (8 * len) v))

/-! ## Memory -/

/-- The byte a home holds; a byte that nothing has written reads as zero (R487). Log 8, DESIGN CHOICE. -/
def readByte (m : List Host.Cell) (a : Nat) : Byte := mapGet 0 m a

/-- A write of one byte; a zero removes the entry, so the list stays canonical. Log 8, DESIGN CHOICE. -/
def writeByte (m : List Host.Cell) (a : Nat) (v : Byte) : List Host.Cell := mapSet 0 m a v

/-- The canonical form of memory: rising addresses, no entry equal to what an unlisted address reads as. -/
def Memory.wf : List Host.Cell → Bool
  | [] => true
  | [(_, v)] => v != 0
  | (a, v) :: (b, w) :: m => v != 0 && decide (a < b) && Memory.wf ((b, w) :: m)

/-- Writes of bytes in order. -/
def writeBytes : List Host.Cell → List (Nat × Byte) → List Host.Cell
  | m, [] => m
  | m, (a, v) :: ws => writeBytes (writeByte m a v) ws

/-- `n` bytes from `a`, as a little-endian number (R4). -/
def readNat (m : List Host.Cell) (a : Nat) : Nat → Nat
  | 0 => 0
  | n + 1 => (readByte m a).toNat + (readNat m (a + 1) n) <<< 8

/-- The byte writes of a little-endian number of `n` bytes at `a`. -/
def bytesOf (a : Nat) (v : Nat) : Nat → List (Nat × Byte)
  | 0 => []
  | n + 1 => (a, BitVec.ofNat 8 v) :: bytesOf (a + 1) (v >>> 8) n

/-- A state to come and the byte writes that go with it.
Every change of memory in the model is such a list of writes. -/
structure Result where
  st : State
  writes : List (Nat × Byte)

/-- A step that writes the listed bytes of memory and no others. -/
def finish (s : State) (r : Result) : Host.Outcome State Fault Refusal :=
  .next { r.st with mem := writeBytes s.mem r.writes }

/-- A step that leaves memory as it is. -/
def finishSame (s t : State) : Host.Outcome State Fault Refusal := .next { t with mem := s.mem }

/-- An access takes a request slot, by its place in the list (R266). -/
def State.takeSlot (s : State) (i ident : Nat) : State :=
  { s with slots := s.slots.mapIdx (fun j x => if j = i then { x with taken := true, ident := ident } else x) }

/-! ## Fetch addresses -/

/-- Scratchpad memory as a fetch of a core sees it: the bytes that the last atomic left in a leased granule, else those at
home (R122, R123). Log 16, DEDUCED. -/
def State.code (s : State) (n : Nat) : List Host.Cell :=
  writeBytes s.mem ((s.leases.filter (fun l => l.line / 2 ^ 16 = coreBase n / 2 ^ 22)).flatMap
    (fun l => bytesOf (64 * l.line) l.data.toNat 64))

/-- The lowest listed, that is non-zero, byte address from `lo` on and below `hi`; `hi` when there is none. -/
def firstListed (lo hi : Nat) : List Host.Cell → Nat
  | [] => hi
  | (a, _) :: m => if lo ≤ a then (if a < hi then a else hi) else firstListed lo hi m

/-- The move over idle bytes of R13 from window-0 offset `a` of a core: lines whose remaining bytes are all zero and below CODEHI
are passed over. A byte outside the code range is not read (R46). -/
def skipIdle (s : State) (n a : Nat) : Nat :=
  let hi := (s.core n).codeHi.toNat
  if hi ≤ a || a < (s.core n).codeLo.toNat then a
  else
    let b := coreBase n
    let nz := firstListed (b + a) (b + hi) (s.code n) - b
    if nz / 64 = a / 64 then a else nz / 64 * 64

/-! ## Which slots take effect (R23, R24) -/

/-- The tree decision of a bundle, or the leaf 0 of a bundle without a tree. -/
def treeOf : List SlotOut → Option TreeOut
  | [] => none
  | o :: os => match o.tree with
    | some t => some t
    | none => treeOf os

/-- Whether a path tag is illegal (R23). A tree that fails its checks has no shape, and no tag is judged (R58). -/
def tagIllegal (t : Option TreeOut) (tag : Nat) : Bool :=
  match t with
  | none => 2 ≤ tag
  | some t => t.ok && (1 ≤ tag && tag ≤ 5 && t.tests + 1 < tag)

/-- Whether a slot with a path tag takes effect (R23). -/
def tagTaken (t : Option TreeOut) (tag : Nat) : Bool :=
  match t with
  | none => tag ≤ 1
  | some t => tag = 0 || (tag ≤ 5 && tag = t.leaf + 1) || (tag = 6 && t.left) || (tag = 7 && !t.left)

/-- The slots of a bundle that take effect. -/
def takenSlots (outs : List SlotOut) : List SlotOut := outs.filter (fun o => tagTaken (treeOf outs) o.tag)

/-! ## Traps -/

/-- TCAUSE from its fields (R35). -/
def makeTcause (dbl : Bool) (leaf : Nat) (slot : Option Nat) (sub num : Nat) : BitVec 32 :=
  BitVec.ofNat 32 ((if dbl then 2 ^ 31 else 0) + (leaf % 8) <<< 24 +
    (match slot with | some k => 2 ^ 23 + (k % 8) <<< 20 | none => 0) + (sub % 256) <<< 8 + num % 256)

/-- take_trap of R38: halts the core while a handler runs or when no handler is valid, else enters the handler.
Log 14, DEDUCED. -/
def takeTrap (s : State) (n : Nat) (num sub : Nat) (slot : Option Nat) (leaf : Nat) (tval : Word) (addr : Nat) : State :=
  let c := s.core n
  if c.intrap then
    s.setCore n { c with tcause := makeTcause true leaf slot sub num, pc := BitVec.ofNat 22 addr,
                         run := .halted, held := 0, wait := none }
  else if c.tvec.toNat % 2 = 0 then
    s.setCore n { c with tcause := makeTcause false leaf slot sub num, tpc := BitVec.ofNat 32 addr,
                         pc := BitVec.ofNat 22 addr, run := .halted, held := 0, wait := none }
  else
    s.setCore n { c with tcause := makeTcause false leaf slot sub num, tpc := BitVec.ofNat 32 addr, tval := tval,
                         intrap := true, pc := BitVec.ofNat 22 (c.tvec.toNat >>> 6 <<< 6), held := 0, wait := none,
                         nextIssue := s.now + 1 }

end Sys2Proof.Machine
end

