-- ==== Sys2Proof/Machine/Address.lean ====
section
/-! DEFINITION. Pod addresses, the placement map, the checks at issue, and access times (R250 to R266). -/

namespace Sys2Proof.Machine

/-! ## Placement (R259, R260) -/

/-- The placement map of the context of a chip. Log 6, DESIGN CHOICE. -/
def State.pmap (s : State) (chip : Nat) : PlaceMap := mapGet PlaceMap.reset s.pmaps chip

/-- The physical chip of a logical chip, and whether it is a member. -/
def PlaceMap.chip (m : PlaceMap) (l : Nat) : Nat × Bool := mapGet (l, true) m.chips l

/-- The logical number of a physical chip. -/
def PlaceMap.logicalChip (m : PlaceMap) (p : Nat) : Nat :=
  match m.chips.find? (fun e => e.2.1 = p) with
  | some e => e.1
  | none => p

/-- The physical die and core (64 die + core) of a logical one of a logical chip. -/
def PlaceMap.physCore (m : PlaceMap) (l k : Nat) : Nat := mapGet k m.cores (l * 1536 + k)

/-- The logical die and core of a physical one. -/
def PlaceMap.logicalCore (m : PlaceMap) (l p : Nat) : Nat :=
  match m.cores.find? (fun e => e.1 / 1536 = l && e.2 = p) with
  | some e => e.1 % 1536
  | none => p

/-- 0 present, 1 disabled, 2 foreign. -/
def PlaceMap.state (m : PlaceMap) (l k : Nat) : Nat := mapGet 0 m.status (l * 1536 + k)

/-- The logical chip of a core. -/
def ownLogicalChip (s : State) (n : Nat) : Nat := (s.pmap (chipOf n)).logicalChip (chipOf n)

/-! ## Windows (R252, R256) -/

/-- Whether every byte of a range of a core's window has a target. -/
def windowOk (win off len : Nat) : Bool :=
  match win with
  | 0 => off + len ≤ 0x400000
  | 1 => off + len ≤ 0x18000 || (0x20000 ≤ off && off + len ≤ 0x50000)
  | 2 => off < 0x40000 && off % 0x4000 + len ≤ 12672
  | 3 => off < 0x80000 && off % 0x40000 + len ≤ 0x24000
  | 4 => off + len ≤ 0x20000
  | 5 => off + len ≤ 0x800 || (0x800 ≤ off && off + len ≤ 0xA80) || (0x1000 ≤ off && off + len ≤ 0x1100)
  | 7 => off + len ≤ 0x80000
  | _ => false

/-- The home address: window 7 names the top of window 0 (R255). -/
def homeAddr (chip k win off : Nat) : Nat :=
  let hi := chip <<< 48 + (k / 64) <<< 43 + (k % 64) <<< 37
  if win = 7 then hi + 0x380000 + off else hi + win <<< 32 + off

/-- The home address of a byte of the memory of link die d (R256). -/
def linkAddr (chip d off : Nat) : Nat := chip <<< 48 + d <<< 37 + 6 <<< 32 + off

/-- Resolution on one logical chip: the home address, or the subcode of PEER_ABSENT (rows 1 to 5 of R264).
`own` is whether the field names the issuing chip. -/
def resolveOn (m : PlaceMap) (l phys : Nat) (addr size : Nat) : Except Nat Nat :=
  let die := field addr 47 43
  let k := die * 64 + field addr 42 37
  let win := field addr 36 32
  let off := addr % 2 ^ 32
  let len := min size (2 ^ 32 - off)
  if 24 ≤ die then .error 0
  else if win = 6 then
    if die = 0 && field addr 42 37 ≤ 5 && off + len ≤ 0x2080000 then .ok (linkAddr phys (field addr 42 37) off)
    else .error 3
  else if m.state l k = 2 then .error 2
  else if m.state l k = 1 then .error 1
  else if windowOk win off len then .ok (homeAddr phys (m.physCore l k) win off)
  else .error 3

/-- What an address names: the issuing chip, another chip, a group, or nothing that rows 1 and 2 of R264 allow. -/
inductive ChipName where
  | own (l : Nat)
  | other (l phys : Nat)
  | group (members : List Nat)
  | absent (sub : Nat)

/-- The CHIP field of an address issued by core `n` (R250, R260, rows 1 and 2 of R264). -/
def chipName (s : State) (n addr : Nat) : ChipName :=
  let m := s.pmap (chipOf n)
  let f := field addr 63 48
  let own := m.logicalChip (chipOf n)
  if f = 0xFFFE || f = own then .own own
  else if f = 0xFFFF then .absent 0
  else if 0xF000 ≤ f then
    match m.groups.find? (fun g => g.1 = f - 0xF000) with
    | some g => .group g.2
    | none => .absent 2
  else if m.n ≤ f then .absent 0
  else if (m.chip f).2 then .other f (m.chip f).1
  else .absent 2

/-- What an address of a group comes to on one member: its home, or the subcode of the first row of R264 that applies. -/
def resolveMember (m : PlaceMap) (addr size : Nat) (groupAllowed : Bool) (l : Nat) : Except Nat Nat :=
  if 24 ≤ field addr 47 43 then .error 0
  else if !(m.chip l).2 then .error 2
  else match resolveOn m l (m.chip l).1 addr size with
    | .error e => .error e
    | .ok a => if groupAllowed then .ok a else .error 3

/-- The homes of an access: one home, or one for each member of a group in ascending logical chip, whose first failing member
decides; or the subcode of PEER_ABSENT (R264). Log 83, DEDUCED. -/
def resolve (s : State) (n addr size : Nat) (groupAllowed : Bool) : Except Nat (List Nat) :=
  let m := s.pmap (chipOf n)
  match chipName s n addr with
  | .own l => (resolveOn m l (chipOf n) addr size).map (fun a => [a])
  | .other l p => (resolveOn m l p addr size).map (fun a => [a])
  | .absent sub => if 24 ≤ field addr 47 43 then .error 0 else .error sub
  | .group ls =>
    (sortBy (fun a b => a ≤ b) ls).foldr (fun l acc =>
      match resolveMember m addr size groupAllowed l, acc with
      | .error e, _ => .error e
      | .ok _, .error e => .error e
      | .ok a, .ok as => .ok (a :: as)) (.ok [])

/-! ## Distance and access times (R266, R272) -/

/-- The distance class from a core to a home: 0 own core, 1 cluster, 2 die, 3 package or link die, 4 another chip. -/
def distance (n home : Nat) : Nat :=
  if home >>> 48 != chipOf n then 4
  else if addrWin home = 6 then 3
  else
    let h := addrCore home
    if h = n then 0
    else if h / 16 = n / 16 then 1
    else if h / 64 = n / 64 then 2
    else 3

/-- T: plies from issue to the perform ply. -/
def performLag (dist : Nat) : Nat :=
  match dist with
  | 0 => 4
  | 1 => 8
  | 2 => 14
  | _ => 34

/-- U: plies from issue to the landing of a load. -/
def landLag (dist : Nat) : Nat :=
  match dist with
  | 0 => 4
  | 1 => 12
  | 2 => 24
  | _ => 64

/-- Whether an earlier slot of the bundle being issued takes a request slot (R266): accesses take them in issue order. -/
def State.takenBefore (s : State) (i : Nat) : Bool :=
  (takenSlots s.cur.outs).any (fun o => o.effs.any (fun e => match e with | .takeSlot j _ => j = i | _ => false))

/-- The earliest request slot of a core for a chip that is still free for an access issued now (R266, R445), of one departure
the one of the lowest port, with its place in the list; `reply` asks for a paired reply slot. -/
def freeSlot (s : State) (n chip : Nat) (reply : Bool) : Option (Nat × ReqSlot) :=
  minBy (fun e => e.2.dep * 16 + e.2.port % 12)
    ((s.slots.mapIdx (fun i x => (i, x))).filter
      (fun e => e.2.core = n && e.2.chip = chip && !e.2.taken && !s.takenBefore e.1 && s.now + 30 ≤ e.2.dep && (!reply || e.2.rarr != 0)))

/-- The perform ply and the landing ply of an access to a home, and the request slot it takes. -/
def accessPlies (s : State) (n home : Nat) (reply : Bool) : Nat × Nat × Option Nat :=
  let d := distance n home
  if d = 4 then
    match freeSlot s n (home >>> 48) reply with
    | some (i, x) => (x.arr + 30, x.rarr + 30, some i)
    | none => (s.now, s.now, none)
  else (s.now + performLag d, s.now + landLag d, none)

/-! ## Checks at issue (R263) -/

/-- What an access asks for. -/
structure Request where
  cap : Cap
  addr : Int
  size : Nat
  /-- permission bits counted from bit 104: read 0, write 1, atomic 3 -/
  perms : List Nat
  natural : Bool
  shape : Bool
  /-- limited to window 0 of the issuing core: a tile move with all its bytes (R213), a scalar access by the fields of its
  address only, 0 (R119) -/
  ownOnly : Option Nat
  /-- can never leave the chip: the remote, multicast and slot checks are not made (R263) -/
  stays : Bool
  groupAllowed : Bool
  reply : Bool
  atomic : Bool

/-- Whether the chip, die and core fields of an address name the issuing core. -/
def namesOwnCore (s : State) (n : Nat) (addr : Int) : Bool :=
  let a := lowBits addr 64
  match chipName s n a with
  | .own l => 0 ≤ addr && addr < 2 ^ 64 && field a 47 43 < 24 &&
      (s.pmap (chipOf n)).physCore l (field a 47 43 * 64 + field a 42 37) = n % 1536
  | _ => false

/-- Whether the fields of an address name window 0 of the issuing core (R119), and `len` bytes from it lie there (R213). -/
def inOwnWindow0 (s : State) (n : Nat) (addr : Int) (len : Nat) : Bool :=
  let a := lowBits addr 64
  namesOwnCore s n addr && field a 36 32 = 0 && (len = 0 || a % 2 ^ 32 + len ≤ 0x400000)

/-- Whether a capability's space covers a window (R257). -/
def spaceCovers (space win : Nat) : Bool := space = 15 || (space ≤ 7 && space = win)

/-- Whether every other chip an access names has a free request slot (R263). -/
def slotsListed (s : State) (n addr : Nat) (reply : Bool) : Bool :=
  let m := s.pmap (chipOf n)
  match chipName s n addr with
  | .other _ p => (freeSlot s n p reply).isSome
  | .group ls => ls.all (fun l => (m.chip l).1 = chipOf n || (freeSlot s n (m.chip l).1 reply).isSome)
  | _ => true

/-- The permissions that an access needs in all, lowest first: remote for another chip or a group, multicast for a
group (R263). CHIP = 0xFFFF names no chip, and is taken as another one. Log 104, DEDUCED. -/
def neededPerms (s : State) (n addr : Nat) (q : Request) : List Nat :=
  if q.stays then q.perms
  else
    let f := field addr 63 48
    q.perms ++ (match chipName s n addr with | .own _ => [] | _ => [4]) ++ (if 0xF000 ≤ f && f ≤ 0xFFFD then [5] else [])

/-- The resolution part of the checks: rows 1 to 5 of R264, with the rule for accesses that stay on the chip.
Log 89, DEDUCED. -/
def resolveRequest (s : State) (n : Nat) (q : Request) : Except Nat (List Nat) :=
  let a := lowBits q.addr 64
  let ownChip := match chipName s n a with | .own _ => true | _ => false
  if q.stays && !ownChip then .error 3
  else
    match resolve s n a q.size q.groupAllowed with
    | .error e => .error e
    | .ok hs => if q.atomic && hs.any (fun h => addrWin h != 0) then .error 3 else .ok hs

/-- check_access of R263: the lowest cause, or none. Log 89, DEDUCED. -/
def checkAccess (s : State) (n : Nat) (q : Request) : Option Cause :=
  let a := lowBits q.addr 64
  let tval : Word := BitVec.ofNat 64 a
  let base : Int := q.cap.base
  let last := lowBits (q.addr + q.size - 1) 64
  let missing := (neededPerms s n a q).find? (fun b => !bit q.cap.perm b)
  if !q.cap.tag then some ⟨0x08, 0, tval⟩
  else if q.addr < base || base + q.cap.length < q.addr + q.size then some ⟨0x09, 0, tval⟩
  else if q.ownOnly.any (fun len => !inOwnWindow0 s n q.addr len) then some ⟨0x09, 3, tval⟩
  else if !spaceCovers q.cap.space (field a 36 32) then some ⟨0x09, 4, tval⟩
  else match missing with
    | some b => some ⟨0x0A, b, tval⟩
    | none =>
      if !q.stays && !slotsListed s n a q.reply then some ⟨0x0A, 8, tval⟩
      else if q.cap.otype != 0 then some ⟨0x0B, 0, tval⟩
      else if !q.natural then some ⟨0x0C, 0, tval⟩
      else if !q.shape then some ⟨0x0C, 1, tval⟩
      else match resolveRequest s n q with
        | .error sub => some ⟨0x0D, sub, tval⟩
        | .ok _ => if a >>> 32 != last >>> 32 then some ⟨0x0E, 0, tval⟩ else none

/-- The homes of an access that passed its checks. Log 83, DEDUCED. -/
def homesOf (s : State) (n : Nat) (q : Request) : List Nat :=
  match resolveRequest s n q with
  | .ok hs => hs
  | .error _ => []

/-- Whether the shape rule of R253 holds for an access of a size at an offset of a window. -/
def shapeOk (win off size : Nat) : Bool :=
  match win with
  | 1 => size = 256 && off % 256 = 0
  | 5 => (size = 8 && off % 8 = 0) || (size = 16 && off % 16 = 0 && 0x1000 ≤ off && off < 0x1100)
  | _ => true

end Sys2Proof.Machine
end

