-- ==== Sys2Proof/Machine/Flags.lean ====
section
/-! DEFINITION. The tests and conditions of the part (it has no flag register, R100) and the checking scoreboard. -/

namespace Sys2Proof.Machine

/-- The conditions of tree tests and BR on a 64-bit value read as signed(64) (R21). -/
def testCond (code : Nat) (x : Word) : Bool :=
  match code with
  | 0 => x == 0
  | 1 => x != 0
  | 2 => x.msb
  | 3 => !x.msb
  | 4 => !x.msb && x != 0
  | 5 => x.msb || x == 0
  | 6 => x == BitVec.allOnes 64
  | _ => x != BitVec.allOnes 64

/-- A truth value as a scalar (R102). -/
def boolWord (b : Bool) : Word := if b then 1 else 0

/-! ## The checking scoreboard (R30, R138, R238) -/

/-- The register a read in flight will write. -/
def Dest.reg : Dest → Option Reg
  | .scalar r _ => some (.scalar r)
  | .cap c => some (.cap c)
  | .ring r => some (.scalar r)
  | _ => none

/-- The latest landing ply still pending on a register, from landings, loads and atomics of earlier bundles. -/
def pendingPly (s : State) (n : Nat) (r : Reg) : Nat :=
  if r = .scalar 0 || r = .mask 0 then 0 else
  let a := ((s.core n).pend.filter (fun p => p.what.regs.contains r)).foldl (fun m p => max m p.due) 0
  let b := (s.accs.filter (fun x => x.core = n && x.dest.reg = some r)).foldl (fun m x => max m x.landAt) 0
  let d := (s.atoms.filter (fun x => x.core = n && (x.dest.map Reg.scalar) = some r)).foldl
    (fun m x => max m x.landAt) 0
  max a (max b d)

/-- Whether a read of a register at issue meets a result still pending. -/
def readPending (s : State) (n : Nat) (r : Reg) : Bool := s.now < pendingPly s n r

/-- Whether an access fills a physical slot of a queue of its core. -/
def Access.fills (x : Access) (n q slot : Nat) : Bool :=
  x.core = n && (match x.dest with | .queue q' s' _ => q' = q && s' = slot | _ => false)

/-- Whether a landing fills a physical slot of a queue. -/
def Land.fills (l : Land) (q slot : Nat) : Bool :=
  match l with
  | .queue q' s' _ => q' = q && s' = slot
  | _ => false

/-- Landings of a queue slot still pending (R138, R142). -/
def slotPending (s : State) (n q slot : Nat) : Nat :=
  ((s.core n).pend.filter (fun p => p.what.fills q slot)).length +
    (s.accs.filter (fun x => x.fills n q slot)).length

/-- PEND of QSTAT: reserved slots whose landing is still pending, 0 to 2 (R142). A landing on a slot whose entry has been
popped counts too. Log 99, DEDUCED. -/
def queuePend (s : State) (n q : Nat) : Nat :=
  ((rangeFrom 0 2).filter (fun i => 0 < slotPending s n q i)).length

/-- Whether the head entry of a queue is reserved and has not landed: the landing that its push brought is still on its way
(R138). A landing that an earlier, popped entry left behind is another one. -/
def headPending (s : State) (n q : Nat) : Bool :=
  let c := s.core n
  let i := (c.queue q).head.toNat
  let key := mapGet 0 c.qown (2 * q + i)
  0 < (c.queue q).count.toNat &&
    (c.pend.any (fun p => p.what.fills q i && p.seq * 8 + p.slot + 1 = key) ||
      s.accs.any (fun x => x.fills n q i && x.order + 1 = key))

/-- The physical slots that `k` pushes into a queue would reserve. -/
def reservedSlots : VQueue → Nat → List Nat
  | _, 0 => []
  | v, k + 1 => v.pushSlot :: reservedSlots v.reserve k

end Sys2Proof.Machine
end

