-- ==== Sys2Proof/Machine/Control.lean ====
section
/-! DEFINITION. The control state registers: their reads and their writes (R33, R124, R141, R201, R233, R261, R339, R386). -/

namespace Sys2Proof.Machine

/-- Packs `k` fields of `w` bits, the first lowest. -/
def packFields (w : Nat) (l : List Nat) : Nat := joinPieces w l

/-- TBUSY as it stands at the current ply (R203). -/
def tbusyWord (c : Core) (now : Nat) : Word :=
  BitVec.ofNat 64 ((c.busy.filter (fun b => now < b.free)).foldl (fun acc b =>
    acc ||| (1 <<< (match b.reg with
      | .tileWrite t => t
      | .tileRead t => 16 + t
      | .accWrite n => 32 + n
      | .accRead n => 34 + n
      | .step => 36))) 0)

/-- QOCC k: the COUNT of queues 32 k to 32 k + 31 (R141). -/
def qoccWord (c : Core) (k : Nat) : Word :=
  BitVec.ofNat 64 (packFields 2 ((rangeFrom (32 * k) 32).map (fun q => (c.queue q).count.toNat)))

/-- The program counter of R16: of a running core, the address of the bundle that it issues next, idle bytes passed over
(R13). -/
def fetchAddress (s : State) (n : Nat) : Nat :=
  let c := s.core n
  if c.run = .running then skipIdle s n c.pc.toNat else c.pc.toNat

/-- QSTAT of the selected queue (R142). -/
def qstatWord (s : State) (n : Nat) : Word :=
  let c := s.core n
  if 384 ≤ c.qsel.toNat then 0
  else
    let v := c.queue c.qsel.toNat
    BitVec.ofNat 64 (queuePend s n c.qsel.toNat * 8 + v.head.toNat * 4 + v.count.toNat)

/-- PMLOG of a core (R261). -/
def pmlogWord (s : State) (n : Nat) : Word :=
  let l := ownLogicalChip s n
  let k := (s.pmap (chipOf n)).logicalCore l (n % 1536)
  BitVec.ofNat 64 (l + (k / 64) <<< 16 + (k % 64) <<< 21)

/-- PMPHYS of a core (R261). -/
def pmphysWord (n : Nat) : Word :=
  BitVec.ofNat 64 ((chipOf n) <<< 16 + (dieOf n) <<< 11 + (n % 64) <<< 5)

/-- PMSIZE of a core (R261). -/
def pmsizeWord (s : State) (n : Nat) : Word :=
  let m := s.pmap (chipOf n)
  BitVec.ofNat 64 (m.n % 2 ^ 16 + (m.groups.length % 2 ^ 12) <<< 16)

/-- PMQR: the resolution of PMQ (R262). A declared group gives STATUS 5 and no physical numbers. Log 88, DEDUCED. -/
def pmqrWord (s : State) (n : Nat) : Word :=
  let a := (s.core n).pmq.toNat
  match chipName s n a with
  | .group _ => BitVec.ofNat 64 (5 <<< 36 + 5 <<< 32)
  | _ =>
    match resolve s n a 1 true with
    | .error sub => BitVec.ofNat 64 ((sub + 1) <<< 36)
    | .ok [h] =>
      BitVec.ofNat 64 ((distance n h) <<< 32 + (h >>> 48) <<< 16 + (field h 47 43) <<< 11 + (field h 42 37) <<< 5)
    | .ok _ => 0

/-- TPEND: the sources whose events are due, and LOST (R385). -/
def tpendWord (c : Core) (now : Nat) : Word :=
  let bits := (c.dev.filter (fun d => d.due ≤ now)).foldl (fun acc d => acc ||| (1 <<< d.src)) 0
  BitVec.ofNat 64 (c.lost.toNat <<< 8 + bits)

/-- HCTL.STATE of a sequencer state (R387). -/
def runCode (r : RunState) : Nat :=
  match r with
  | .idle => 0
  | .running => 1
  | .halted => 2


/-- CHSTAT and CHREC of a channel (R339, R340). -/
def chstatWord (k : Chan) : Word := BitVec.ofNat 64 (k.state.toNat + (if k.mode then 4 else 0) + k.sub.toNat <<< 8)
def chrecWord (k : Chan) : Word := BitVec.ofNat 64 (k.recOff.toNat + k.next.toNat <<< 32)

/-- ARMSTAT: the slots armed at a ply (R339, R346). -/
def armstatWord (c : Core) (now : Nat) : Word :=
  BitVec.ofNat 64 ((c.arms.filter (fun a => match a.ends with | none => true | some e => now ≤ e)).foldl
    (fun acc a => acc ||| (1 <<< a.slot)) 0)

/-- HCTL as it reads (R387). -/
def hctlWord (c : Core) : Word :=
  BitVec.ofNat 64 (runCode c.run <<< 6 + (match c.resume with | some r => (if r.started then 0 else 32) | none => 0) + (if c.restoring.isSome then 16 else 0))

/-- CSCTL.BUSY (R387, R388, R396). Log 22, DEDUCED. -/
def Core.areaBusy (c : Core) : Bool :=
  c.restoring.isSome || (match c.saving with | some v => v.begun || !v.pre | none => false)

/-- CSCTL as it reads (R388). -/
def csctlWord (c : Core) : Word :=
  BitVec.ofNat 64 ((if c.areaBusy then 4 else 0) + (if c.ckv then 2 else 0) + (if c.csmode then 1 else 0))

/-! ## HCTL actions (R387) -/

/-- GO: a halted core runs on at TPC, or at the trap vector. -/
def goCore (s : State) (n : Nat) (vec : Bool) : State :=
  let c := s.core n
  if c.run != .halted then s
  else if vec then
    s.setCore n { c with run := .running, intrap := true, pc := BitVec.ofNat 22 (c.tvec.toNat >>> 6 <<< 6), held := 0,
                         wait := none, nextIssue := s.now + 1 }
  else if c.tpc.toNat >>> 22 != 0 then s
  else
    s.setCore n { c with run := .running, intrap := false, pc := BitVec.ofNat 22 c.tpc.toNat, held := 0, wait := none,
                         nextIssue := s.now + 1 }

/-- Whether a core is idle at a ply: one that yields stays a running core up to the end of that ply (R114). -/
def Core.isIdle (c : Core) (now : Nat) : Bool := c.run = .idle && c.idleFrom ≤ now

/-- Whether a core has been launched at this ply by a SPAWN, and is running from the next ply on (R347). -/
def Core.starting (c : Core) (now : Nat) : Bool := c.run = .running && now < c.runFrom

/-- Whether an HCTL action finds a core running: one that has yielded at this ply still is (R114), one that a SPAWN has launched
at this ply is not yet (R347). -/
def Core.actsRunning (c : Core) (now : Nat) : Bool := (c.run = .running && c.runFrom ≤ now) || now < c.idleFrom

/-- STOP: a running core halts at the end of this ply, one that has just yielded too. Log 100, DESIGN CHOICE. -/
def stopCore (s : State) (n : Nat) : State :=
  if (s.core n).actsRunning s.now then s.setCore n { s.core n with stopping := true } else s

/-- A save that has not begun. -/
def Save.ask (pre : Bool) (kind : BitVec 2) : Save :=
  { pre := pre, kind := kind, begun := false, todo := [], next := 0, tsaved := 0, bsaved := 0 }

/-- SAVE: an idle or halted core saves its context once it is drained. While a save or a restore waits or runs it is ignored.
Log 138, DESIGN CHOICE. -/
def saveCore (s : State) (n : Nat) : State :=
  let c := s.core n
  if !(c.isIdle s.now || c.starting s.now || c.run = .halted) || c.saving.isSome || c.restoring.isSome then s
  else s.setCore n { c with saving := some (Save.ask false (if c.run = .halted then 2 else 0)) }

/-- The runs of granules of the queue banks, brine registers, tiles and accumulators of a set: bits of BSAVED and TSAVED
(R396). -/
def bankRuns (b : Nat) : List (Nat × Nat) :=
  ((rangeFrom 0 6).filter (fun i => bit b (16 + i))).map (fun (i : Nat) => (0x4000 + 0x8000 * i, 512))
def brineRuns (b : Nat) : List (Nat × Nat) :=
  ((rangeFrom 0 16).filter (fun i => bit b i)).map (fun (i : Nat) => (0x34000 + 0x2000 * i, 128))
def tileRuns (t : Nat) : List (Nat × Nat) :=
  ((rangeFrom 0 16).filter (fun i => bit t i)).map (fun (i : Nat) => (0x54000 + 0x4000 * i, 198)) ++
  ((rangeFrom 0 2).filter (fun i => bit t (16 + i))).map (fun (i : Nat) => (0x94000 + 0x24000 * i, 2304))

/-- RESTORE: the granules that the mode of the save area selects are read; tiles and accumulators that are not read are
zeroed (R398). The header is read as the atomics left it. While a save or a restore waits or runs it is ignored.
Log 23, DEDUCED. Log 138, DESIGN CHOICE. -/
def restoreCore (s : State) (n : Nat) : State :=
  let c := s.core n
  if !(c.isIdle s.now || c.starting s.now) || c.restoring.isSome || c.saving.isSome then s
  else
    let base := coreBase n + c.csbase.toNat
    let m := s.code n
    let incremental := bit (readNat m base 4) 1
    let t := if incremental then readNat m (base + 0x2288) 4 ||| readNat m (base + 0x2290) 4
      else readNat m (base + 0x18) 4
    let b := if incremental then 0x3FFFFF else readNat m (base + 0x1C) 4
    let c1 := (rangeFrom 0 16).foldl (fun c i => if bit t i then c else c.setTile i 0) c
    let c2 := (rangeFrom 0 2).foldl (fun c i => if bit t (16 + i) then c else c.zeroAcc i) c1
    s.setCore n { c2 with
      resume := none,
      restoring := some { next := s.now, base := c.csbase, todo := brineRuns b ++ bankRuns b ++ tileRuns t ++
                            [(0x200, 4), (0x80, 6), (0x2000, 128), (0x300, 4), (0, 2)],
                          header := 0, tvals := 0, offs := [] } }

/-- A write of HCTL acts through ACT (R387). -/
def hctlAct (s : State) (n : Nat) (v : Word) : State :=
  match v.toNat % 8 with
  | 1 => goCore s n (v.getLsbD 3)
  | 2 => stopCore s n
  | 3 => saveCore s n
  | 4 => restoreCore s n
  | _ => s
/-- A control state register as it reads at the current ply. Reserved fields and unassigned indices read as zero. -/
def csRead (s : State) (n idx : Nat) : Word :=
  let c := s.core n
  let z (w : Nat) (v : BitVec w) : Word := v.setWidth 64
  match idx with
  | 0x00 => BitVec.ofNat 64 (fetchAddress s n)
  | 0x01 => BitVec.ofNat 64 s.now
  | 0x02 => boolWord c.chksb
  | 0x03 => z 3 c.leaf
  | 0x04 => z 32 c.codeLo
  | 0x05 => z 32 c.codeHi
  | 0x06 => z 3 c.depth
  | 0x10 => z 32 c.tcause
  | 0x11 => z 32 c.tpc
  | 0x12 => c.tval
  | 0x13 => z 32 c.tvec
  | 0x14 => boolWord c.intrap
  | 0x40 => z 9 c.qsel
  | 0x41 => qstatWord s n
  | 0x4E => z 4 c.msel
  | 0x4F => c.mreg c.msel.toNat
  | 0x50 => z 32 c.tconf
  | 0x51 => z 18 c.tinuse
  | 0x52 => z 18 c.tdirty
  | 0x53 => tbusyWord c s.now
  | 0x5C => BitVec.ofNat 64 (c.uniB.toNat <<< 8 + c.uniA.toNat)
  | 0x60 => BitVec.ofNat 64 (c.dpan.toNat <<< 8 + c.blenc.toNat)
  | 0x65 => BitVec.ofNat 64 (packFields 3 ((rangeFrom 0 16).map (fun r => (c.lenTag r).toNat)))
  | 0x66 => z 4 c.psel
  | 0x67 => (c.panOf c.psel.toNat).seed
  | 0x68 => BitVec.ofNat 64 ((c.panOf c.psel.toNat).scr.toNat <<< 16 + (c.panOf c.psel.toNat).ph.toNat)
  | 0x70 => pmlogWord s n
  | 0x71 => pmphysWord n
  | 0x72 => pmsizeWord s n
  | 0x73 => c.pmq
  | 0x74 => pmqrWord s n
  | 0xA0 => tpendWord c s.now
  | 0xA1 => c.prply
  | 0xA2 => z 32 c.prwait
  | 0xA3 => z 32 c.drpc
  | 0xA4 => c.droff
  | 0xA5 => z 32 c.wdlim
  | 0xA6 => z 32 c.wdcnt
  | 0xA7 => z 32 c.waitlim
  | 0xA9 => z 22 c.csbase
  | 0xAB => z 22 c.csdirty
  | 0xAC => c.rsply
  | 0xAD => z 22 c.dtbase
  | 0xAE => z 16 c.dtlen
  | 0x88 => c.ntcur
  | 0x89 => c.ntstep
  | 0x8A => c.ntend
  | 0x8B => z 20 c.ntw
  | 0x8C => z 2 c.ntrp
  | 0x8D => z 22 c.schbase
  | 0x8E => z 32 c.schlen
  | 0x8F => z 32 c.schcur
  | 0x90 => armstatWord c s.now
  | 0x91 => c.yctr
  | 0xA8 => hctlWord c
  | 0xAA => csctlWord c
  | i =>
    if 0x20 ≤ i && i ≤ 0x25 then z 32 (c.loopEntry (i - 0x20)).count
    else if 0x28 ≤ i && i ≤ 0x2D then z 32 (c.loopEntry (i - 0x28)).start
    else if 0x30 ≤ i && i ≤ 0x3F then
      if i % 2 = 0 then (c.walk ((i - 0x30) / 2)).base else (c.walk ((i - 0x30) / 2)).step
    else if 0x42 ≤ i && i ≤ 0x4D then qoccWord c (i - 0x42)
    else if 0x54 ≤ i && i ≤ 0x5B then
      BitVec.ofNat 64 (packFields 16 ((rangeFrom (4 * ((i - 0x54) % 4)) 4).map
        (fun e => (c.scaleEntry ((i - 0x54) / 4) e).toNat)))
    else if 0x80 ≤ i && i ≤ 0x83 then chstatWord (c.chan (i - 0x80))
    else if 0x84 ≤ i && i ≤ 0x87 then chrecWord (c.chan (i - 0x84))
    else if 0x61 ≤ i && i ≤ 0x64 then
      BitVec.ofNat 64 (packFields 16 ((rangeFrom (4 * (i - 0x61)) 4).map (fun r => (c.panMask r).toNat)))
    else 0

/-- A write of QSTAT: HEAD and COUNT of the selected queue, unless a landing is pending there (R142) as the write takes effect.
Log 101, DEDUCED. -/
def writeQstat (s : State) (n : Nat) (v : Word) : State :=
  let c := s.core n
  let q := c.qsel.toNat
  if 384 ≤ q || queuePend s n q != 0 then s
  else
    let k := v.toNat % 4
    s.setCore n (c.setQueue q { c.queue q with head := BitVec.ofNat 1 (v.toNat / 4), count := if k = 3 then 2 else BitVec.ofNat 2 k })

/-- A write of CSBASE (R386). Log 48, DEDUCED. -/
def writeCsbase (s : State) (n : Nat) (v : Word) : State :=
  let c := s.core n
  let b : BitVec 22 := v.setWidth 22
  if b.toNat % 0x2000 != 0 || 0x400000 < b.toNat + 0xDC000 then s
  else s.setCore n { c with csbase := b, ckv := if b = c.csbase then c.ckv else false }

/-- BLTAG fields: a code of 5 to 7 leaves its field unchanged (R233). -/
def writeLenTags (c : Core) (v : Nat) : Core :=
  (rangeFrom 0 16).foldl (fun c r =>
    let k := field v (3 * r + 2) (3 * r)
    if 5 ≤ k then c else { c with blen := mapSet 4 c.blen r (BitVec.ofNat 3 k) }) c

/-- Pan masks of four registers from a BMSK word (R233). -/
def writePanMasks (c : Core) (k v : Nat) : Core :=
  (rangeFrom 0 4).foldl (fun c i =>
    { c with bmask := mapSet 0 c.bmask (4 * k + i) (BitVec.ofNat 16 (v >>> (16 * i))) }) c

/-- A write of a control state register taking effect now. Writes of RO registers, reserved fields and unassigned
indices are ignored (R6, R33). A bit of CSDIRTY that this ply has set stays set (R200, R397). Log 144, DEDUCED. -/
def csWrite (s : State) (n idx : Nat) (v : Word) : State :=
  let c := s.core n
  let lo (w : Nat) : BitVec w := v.setWidth w
  let put (c : Core) : State := s.setCore n c
  match idx with
  | 0x02 => put { c with chksb := v.getLsbD 0 }
  | 0x03 => put { c with leaf := lo 3 }
  | 0x04 => put { c with codeLo := lo 32 }
  | 0x05 => put { c with codeHi := lo 32 }
  | 0x06 => put { c with depth := if 6 < v.toNat then 6 else lo 3 }
  | 0x10 => put { c with tcause := lo 32 &&& 0x87F0FFFF }
  | 0x11 => put { c with tpc := lo 32 }
  | 0x12 => put { c with tval := v }
  | 0x13 => put { c with tvec := lo 32 &&& 0xFFFFFFC1 }
  | 0x14 => put { c with intrap := v.getLsbD 0 }
  | 0x40 => put { c with qsel := lo 9 }
  | 0x41 => writeQstat s n v
  | 0x4E => put { c with msel := lo 4 }
  | 0x4F => put (c.setMreg c.msel.toNat v)
  | 0x52 => put { c with tdirty := lo 18 }
  | 0x60 => put { c with blenc := if 5 ≤ v.toNat % 8 then c.blenc else lo 3, dpan := (v >>> 8).setWidth 4 }
  | 0x65 => put (writeLenTags c v.toNat)
  | 0x66 => put { c with psel := lo 4 }
  | 0x67 => put (c.setPan c.psel.toNat { c.panOf c.psel.toNat with seed := v })
  | 0x68 => put (c.setPan c.psel.toNat { c.panOf c.psel.toNat with scr := (v >>> 16).setWidth 10, ph := lo 16 })
  | 0x73 => put { c with pmq := v }
  | 0xA2 => put { c with prwait := lo 32 }
  | 0xA5 => put { c with wdlim := lo 32 }
  | 0xA6 => put { c with wdcnt := lo 32 }
  | 0xA7 => put { c with waitlim := lo 32 }
  | 0xA9 => writeCsbase s n v
  | 0xAA => put { c with ckv := v.getLsbD 1, csmode := v.getLsbD 0 }
  | 0xAB => put { c with csdirty := lo 22 ||| c.csfresh }
  | 0xAD => put { c with dtbase := lo 22 }
  | 0xAE => put { c with dtlen := lo 16 }
  | 0x88 => put { c with ntcur := v }
  | 0x89 => put { c with ntstep := v }
  | 0x8A => put { c with ntend := v }
  | 0x8B => put { c with ntw := lo 20 }
  | 0x8C => put { c with ntrp := lo 2 }
  | 0x8D => put { c with schbase := lo 22 }
  | 0x8E => put { c with schlen := lo 32 }
  | 0x8F => put { c with schcur := lo 32 }
  | 0x91 => put { c with yctr := v }
  | 0xA8 => hctlAct s n v
  | i =>
    if 0x20 ≤ i && i ≤ 0x25 then
      put (c.setLoopEntry (i - 0x20) { c.loopEntry (i - 0x20) with count := lo 32 })
    else if 0x28 ≤ i && i ≤ 0x2D then
      put (c.setLoopEntry (i - 0x28) { c.loopEntry (i - 0x28) with start := lo 32 })
    else if 0x30 ≤ i && i ≤ 0x3F then
      let k := (i - 0x30) / 2
      put (if i % 2 = 0 then c.setWalk k { c.walk k with base := v } else c.setWalk k { c.walk k with step := v })
    else if 0x61 ≤ i && i ≤ 0x64 then put (writePanMasks c (i - 0x61) v.toNat)
    else s

/-- One landing in a core (R14, R29). Window-5 stores and MTC write control state the same way (R254). -/
def applyLand (s : State) (n : Nat) (l : Land) : State :=
  let c := s.core n
  let put (c : Core) : State := s.setCore n c
  match l with
  | .scalar r v => put (c.setSreg r v)
  | .ring r v => put (c.setSreg r v)
  | .mask m v => put (c.setMreg m v)
  | .cap r v => put (c.setCreg r v)
  | .control i v => csWrite s n i v
  | .queue q slot v =>
    put ((c.setQueue q ((c.queue q).setSlot slot v)).markDirty (BitVec.ofNat 22 (1 <<< (16 + q / 64))))
  | .brine b v => put ((c.setBreg b v).markDirty (BitVec.ofNat 22 (1 <<< b)))
  | .scaleEntry side e v => put (c.setScale side e v)
  | .scaleQuad side g v =>
    put ((rangeFrom 0 4).foldl (fun c i => c.setScale side (4 * g + i) ((v >>> (16 * i)).setWidth 16)) c)
  | .scaleReset side => put ((rangeFrom 0 16).foldl (fun c e => c.setScale side e 0x3F80) c)
  | .scaleUni side v => put (if side = 0 then { c with uniA := v } else { c with uniB := v })
  | .tile t off len v => put (c.putTile t off len v.toNat)
  | .accZero k => put (c.zeroAcc k)
  | .flagsSet bits => put { c with tinuse := c.tinuse ||| bits, tdirty := c.tdirty ||| bits }
  | .flagsClear bits => put { c with tinuse := c.tinuse &&& ~~~bits, tdirty := c.tdirty &&& ~~~bits }
  | .tconf v => put { c with tconf := v }
  | .panSeed p v => put (c.setPan p { c.panOf p with seed := v, ph := 0 })
  | .panAux p scr ph => put (c.setPan p { c.panOf p with scr := scr, ph := ph })
  | .panPhase p ph => put (c.setPan p { c.panOf p with ph := ph })
  | .brineTags b len mask => put { c with blen := mapSet 4 c.blen b len, bmask := mapSet 0 c.bmask b mask }
  | .blen v => put { c with blenc := v }
  | .dpan v => put { c with dpan := v }

end Sys2Proof.Machine
end

