-- ==== Sys2Proof/Machine/Bundle.lean ====
section
/-! DEFINITION. Issuing a bundle: holds, issue checks, traps and commit, shared by every slot instruction.

A slot's meaning computes a `SlotOut`; `issueSlot` collects it, and with the last slot of the bundle decides the bundle. -/

namespace Sys2Proof.Machine

/-! ## Deferred events (R384, R385) -/

/-- Whether two events come from one source: the TPEND bit, and the channel for ENGINE_RECORD. -/
def Deferred.same (d : Deferred) (src ch : Nat) : Bool := d.src = src && d.ch = ch

/-- A source raises an event; one it already holds makes it lost (R385). -/
def raiseDeferred (s : State) (n : Nat) (d : Deferred) : State :=
  let c := s.core n
  if c.dev.any (fun e => e.same d.src d.ch) then
    s.setCore n { c with lost := if c.lost = 255 then 255 else c.lost + 1 }
  else s.setCore n { c with dev := c.dev ++ [d] }

/-- The events a bundle issuing now may take: WATCHDOG and PREEMPT always, others only outside a handler (R384). -/
def Core.takeable (c : Core) (now : Nat) : List Deferred :=
  c.dev.filter (fun d => d.due ≤ now && (d.num = 0x16 || d.num = 0x17 || !c.intrap))

/-- The event reported: the lowest cause number, and of one cause the lowest channel. -/
def Core.bestEvent (c : Core) (now : Nat) : Option Deferred :=
  minBy (fun d => d.num * 4 + d.ch) (c.takeable now)

/-- The core without an event that was taken; LOST clears when no event stays pending (R385). -/
def Core.dropEvent (c : Core) (now : Nat) (d : Deferred) : Core :=
  let dev := dropFirst (fun e => e.same d.src d.ch) c.dev
  { c with dev := dev, lost := if dev.any (fun e => e.due ≤ now) then c.lost else 0 }

/-! ## The leaf of a trap -/

/-- TCAUSE.LEAF of a bundle that traps (R25, R35): the leaf reached, and 0 without a tree. A tree that fails its checks reaches
no leaf, and leaves 0 too. Log 102, DESIGN CHOICE. -/
def leafOf (outs : List SlotOut) : Nat :=
  match treeOf outs with
  | some t => if t.ok then t.leaf else 0
  | none => 0

/-- A deferred event is taken on the bundle at `addr`, which commits nothing (R384). -/
def takeDeferred (s : State) (n addr leaf : Nat) (d : Deferred) : State :=
  takeTrap (s.setCore n ((s.core n).dropEvent s.now d)) n d.num d.sub none leaf d.tval addr

/-! ## Encoding causes (R47-R53) -/

/-- A cause with the slot that raised it; `none` for a cause of the whole bundle. -/
structure Raised where
  slot : Option Nat
  what : Cause

/-- The allotment code of a slot class in the port fields of the control word (R47). -/
def portCode (cls : Nat) : Nat :=
  match cls with
  | 2 => 1
  | 3 => 2
  | 6 => 3
  | 7 => 4
  | _ => 0

/-- The four port fields of a control word. -/
def portFields (w : Nat) : List Nat := [field w 6 4, field w 9 7, field w 12 10, field w 15 13]

/-- The presence bit of the slot that an allotment code names (R43). -/
def portSlotPresent (h code : Nat) : Bool :=
  match code with
  | 0 => true
  | 1 => bit h 2
  | 2 => bit h 3
  | 3 => bit h 6
  | 4 => bit h 7
  | _ => true

/-- The distinct queues of a list (R48). -/
def distinct : List Nat → List Nat
  | [] => []
  | x :: xs => if xs.contains x then distinct xs else x :: distinct xs

/-- Read ports a slot needs (R48). -/
def SlotOut.portsNeeded (o : SlotOut) : Nat := (distinct (o.qreads.map Prod.fst)).length

/-- Whether a slot reads more queues than its allotted ports (R48). -/
def portShort (w : Nat) (o : SlotOut) : Bool :=
  ((portFields w).filter (fun c => c = portCode o.cls && c != 0)).length < o.portsNeeded

/-- Whether the bundle at `addr` of length `len` crosses its 64-byte fetch line (R45). -/
def crossesLine (addr len : Nat) : Bool := addr % 64 + len > 64

/-- ILLEGAL_BUNDLE of a bundle, lowest subcode first (R51). A tree that fails R58 is reported when none of the subcodes 0 to 5
applies. -/
def bundleIllegal (cur : Cur) (addr : Nat) (outs : List SlotOut) : Option Raised :=
  let mk (sub : Nat) (slot : Option Nat) : Option Raised := some ⟨slot, ⟨0x01, sub, cur.bytes⟩⟩
  let tr := treeOf outs
  if cur.header = 0 then none
  else if field cur.w 30 28 != 0 then mk 0 none
  else if crossesLine addr cur.len then mk 1 none
  else if (portFields cur.w).any (fun c => 5 ≤ c) then mk 2 none
  else if (portFields cur.w).any (fun c => !portSlotPresent cur.header c) then mk 3 none
  else if outs.any (portShort cur.w) then mk 4 none
  else if 2 < (outs.map (fun o => o.qdests.length)).sum then mk 5 none
  else if tr.any (fun t => !t.ok) then mk 8 (some 0)
  else match outs.find? (fun o => o.tree.isNone && tagIllegal tr o.tag) with
    | some o => mk 6 (some o.cls)
    | none => (outs.find? (fun o => o.bc && !bit cur.w 22)).bind (fun o => mk 7 (some o.cls))

/-- EXTENSION_ABSENT and ILLEGAL_OPCODE of a bundle (R52-R54). -/
def opcodeCauses (cur : Cur) (outs : List SlotOut) : List Raised :=
  (if bit cur.w 31 && cur.header != 0 then [⟨none, ⟨0x02, 0, cur.bytes⟩⟩] else []) ++
    outs.filterMap (fun o => o.illegal.map (fun sub => ⟨some o.cls, ⟨0x03, sub, BitVec.ofNat 64 o.word⟩⟩))

/-! ## The checking scoreboard (R30, R138) -/

/-- The registers a taken slot writes, with the ply at which its result lands; a write that is then ignored counts (log 118, DESIGN
CHOICE). Log 36, DEDUCED. -/
def SlotOut.regWrites (o : SlotOut) (now : Nat) : List (Reg × Nat) :=
  o.lands.flatMap (fun l => l.2.regs.map (fun r => (r, now + l.1))) ++
    o.effs.filterMap (fun e => match e with
      | .access a => a.dest.reg.map (fun r => (r, a.landAt))
      | .atom a => a.dest.map (fun r => (.scalar r, a.landAt))
      | _ => none)

/-- The queues that the taken slots of a bundle pop (R135). -/
def poppedQueues (taken : List SlotOut) : List Nat :=
  distinct (taken.flatMap (fun o => (o.qreads.filter Prod.snd).map Prod.fst))

/-- The queues into which the slots of a bundle push before a slot of a class, once for each push (R133). -/
def earlierPushes (taken : List SlotOut) (cls : Nat) : List Nat :=
  (taken.filter (fun o => o.cls < cls)).flatMap (fun o => o.pushes.map Push.q)

/-- The physical slots of a queue that the pushes of a slot reserve, after the pops of its bundle and the pushes of the slots
before it (R133). -/
def slotsReserved (c : Core) (taken : List SlotOut) (o : SlotOut) (q : Nat) : List Nat :=
  let v := if (poppedQueues taken).contains q then (c.queue q).pop else c.queue q
  let before := ((earlierPushes taken o.cls).filter (fun x => x = q)).length
  (reservedSlots v (before + (o.pushes.filter (fun p => p.q = q)).length)).drop before

/-- STALL_SHORT of one slot: subcode 0 for a read, subcode 1 for a write (R30). The queue reads of a slot that its tag leaves
untaken are checked too (log 119, DEDUCED). Log 36, DEDUCED. -/
def slotStall (s : State) (n bsrc : Nat) (taken : List SlotOut) (tagged : Bool) (o : SlotOut) : List Raised :=
  let qr := o.qreads.any (fun r => headPending s n r.1)
  let rr := tagged && (o.reads.any (readPending s n) || (o.bc && readPending s n (.scalar bsrc)))
  let rw := tagged && (o.regWrites s.now).any (fun x => s.now < pendingPly s n x.1 && x.2 ≤ pendingPly s n x.1)
  let qw := tagged && o.pushes.any (fun p => (slotsReserved (s.core n) taken o p.q).any (fun i => 0 < slotPending s n p.q i))
  (if qr || rr then [⟨some o.cls, ⟨0x04, 0, 0⟩⟩] else []) ++ (if rw || qw then [⟨some o.cls, ⟨0x04, 1, 0⟩⟩] else [])

/-! ## Queue checks (R136) -/

/-- The first failing check of R136 over the queues in ascending number, also where a higher queue fails with a lower cause (R10).
Log 44, DEDUCED. -/
def queueCauses (c : Core) (taken : List SlotOut) : List Raised :=
  let reads := taken.flatMap (fun o => o.qreads)
  let pushes := taken.flatMap (fun o => o.pushes.map (fun p => p.q))
  let qs := distinct (reads.map Prod.fst ++ pushes)
  let check (q : Nat) : Option Raised :=
    let count := (c.queue q).count.toNat
    let pops := if reads.any (fun r => r.1 = q && r.2) then 1 else 0
    let isRead := reads.any (fun r => r.1 = q)
    let np := (pushes.filter (fun x => x = q)).length
    let slot := (taken.find? (fun o => o.qreads.any (fun r => r.1 = q) || o.pushes.any (fun p => p.q = q))).map
      (fun o => o.cls)
    if isRead && count = 0 then some ⟨slot, ⟨0x05, 1 - pops, BitVec.ofNat 64 q⟩⟩
    else if 2 < count - pops + np then some ⟨slot, ⟨0x06, np - 1, BitVec.ofNat 64 q⟩⟩
    else none
  match minBy id (qs.filter (fun q => (check q).isSome)) with
  | some q => (check q).toList
  | none => []

/-! ## The cause reported (R10, R38) -/

/-- Order of causes: number, then a cause of the whole bundle before one of a slot, then slot order, then subcode.
Log 44, DEDUCED. -/
def Raised.key (r : Raised) : Nat :=
  (r.what.num * 16 + (match r.slot with | none => 0 | some k => k + 1)) * 256 + r.what.sub

/-- The causes a bundle meets at issue. -/
def bundleCauses (s : State) (cur : Cur) (addr : Nat) (outs : List SlotOut) : List Raised :=
  let c := s.core cur.core
  let taken := takenSlots outs
  let chk := c.chksb || bit cur.w 23
  (bundleIllegal cur addr outs).toList ++ opcodeCauses cur outs ++
    (if chk then
      outs.flatMap (fun o => slotStall s cur.core (field cur.w 21 16) taken (tagTaken (treeOf outs) o.tag) o)
     else []) ++
    queueCauses c taken ++
    (match cur.fetchFault with
     | some a => [⟨none, ⟨0x09, 1, BitVec.ofNat 64 a⟩⟩]
     | none => []) ++
    taken.flatMap (fun o => o.causes.map (fun x => ⟨some o.cls, x⟩))

/-- The cause that the part reports for a bundle, if any; `more` holds a hold that has reached its limit (R390).
Log 44, DEDUCED. -/
def bundleCause (s : State) (cur : Cur) (addr : Nat) (outs : List SlotOut) (more : List Raised) : Option Raised :=
  minBy Raised.key (bundleCauses s cur addr outs ++ more)

/-! ## Holds (R31, R274, R282-R285) -/

/-- Whether an operation is still incomplete at a ply (R273). -/
def Op.waits (o : Op) (now : Nat) : Bool := o.isOpen || now < o.due

/-- Whether a fence still awaits a member (R285): a copy record is judged by its ends from its fetch on. Log 135, DESIGN CHOICE. -/
def Fence.waits (f : Fence) (ops : List Op) (now : Nat) : Bool :=
  ops.any (fun o => o.seq < f.seq && (o.kinds &&& f.pred) != 0 && o.dist ≤ f.scope && o.waits now)

/-- Whether the order rules hold a slot: a release waits for earlier operations within its scope (R282), an acquire in
flight holds operations within its scope (R283), and a fence holds those of its successor kinds (R285). -/
def orderHold (c : Core) (now : Nat) (o : SlotOut) : Bool :=
  (match o.release with
   | some k => c.ops.any (fun x => x.dist ≤ k && x.waits now)
   | none => false) ||
  o.starts.any (fun st =>
    c.ops.any (fun x => match x.acq with | some k => x.waits now && st.2 ≤ k | none => false) ||
    c.fences.any (fun f => (st.1 &&& f.succ) != 0 && st.2 ≤ f.scope && f.waits c.ops now))

/-- Whether a bundle is held: no hold stands against a deferred event that it may take (R384), or against a wait whose check
fails when the bundle first reaches issue (R343). An L slot holds it whatever its path tag (R24; log 117, DESIGN CHOICE).
Log 40, DEDUCED. -/
def bundleHeld (s : State) (cur : Cur) (outs : List SlotOut) : Bool :=
  let c := s.core cur.core
  (c.takeable s.now).isEmpty && !outs.any (fun o => o.prompt) && outs.any (fun o => o.hold || orderHold c s.now o)

/-- The wait that a held bundle begins, with its first read (R343). -/
def beginWait (s : State) (n : Nat) (outs : List SlotOut) : State :=
  let c := s.core n
  match c.wait, outs.findSome? (fun o => o.wait) with
  | none, some (w, a) =>
    let k := 2 * s.nextId + 1
    { s.setCore n { c with wait := some { w with ident := k } } with
      accs := s.accs ++ [{ a with ident := k, op := k }], nextId := s.nextId + 1 }
  | _, _ => s

/-- Whether the hold of a bundle that is held at this ply too reaches WAITLIM (R390). -/
def Core.waitOver (c : Core) : Bool := c.waitlim != 0 && c.waitlim.toNat ≤ c.held + 1

/-- WATCHDOG with subcode 1, for a bundle that has been held for WAITLIM plies (R390). -/
def waitCause (c : Core) : Raised := ⟨none, ⟨0x16, 1, c.waitlim.setWidth 64⟩⟩

/-- A held bundle reaches issue again at the next ply (R31). -/
def holdBundle (s : State) (n : Nat) (outs : List SlotOut) : State :=
  let s1 := beginWait s n outs
  s1.setCore n { s1.core n with held := (s.core n).held + 1, nextIssue := s.now + 1 }

/-! ## Commit -/

/-- CSDIRTY with the bank of a queue marked (R397). -/
def Core.markBank (c : Core) (q : Nat) : Core := c.markDirty (BitVec.ofNat 22 (1 <<< (16 + q / 64)))

/-- Adds a result on its way to a core. -/
def State.addPending (s : State) (n : Nat) (p : Pending) : State :=
  s.setCore n { s.core n with pend := (s.core n).pend ++ [p] }

/-- One push: the slot is reserved now, and the data lands later (R133). -/
def commitPush (s : State) (n cls : Nat) (p : Push) : State :=
  let c := s.core n
  let v := c.queue p.q
  let slot := v.pushSlot
  let s1 := s.setCore n { (c.setQueue p.q v.reserve).markBank p.q with
    qown := mapSet 0 c.qown (2 * p.q + slot) (8 * s.seq + cls + 1) }
  match p.load with
  | none => s1.addPending n { due := s.now + p.lat, seq := s.seq, slot := cls, what := .queue p.q slot p.data }
  | some a =>
    let lanes := match a.dest with | .queue _ _ l => l | _ => []
    { s1 with accs := s1.accs ++ [{ a with dest := .queue p.q slot lanes }] }

/-- The pops of a bundle, then its pushes in slot order (R133). -/
def commitQueues (s : State) (n : Nat) (taken : List SlotOut) : State :=
  let s1 := (poppedQueues taken).foldl
    (fun s q => s.setCore n (((s.core n).setQueue q ((s.core n).queue q).pop).markBank q)) s
  taken.foldl (fun s o => o.pushes.foldl (fun s p => commitPush s n o.cls p) s) s1

/-- The pan phases that the draws of a bundle leave (R159, R235), each with the last slot that draws on its pan.
Log 46, DEDUCED. -/
def drawnPhases (c : Core) (taken : List SlotOut) : List (Nat × Land) :=
  let ds := taken.flatMap (fun o => o.draws.map (fun d => (o.cls, d)))
  (distinct (ds.map (fun d => d.2.1))).map (fun p =>
    let mine := ds.filter (fun d => d.2.1 = p)
    (mine.foldl (fun m d => max m d.1) 0, .panPhase p ((c.panOf p).ph + BitVec.ofNat 16 (mine.map (fun d => d.2.2)).sum)))

/-- A yield at commit (R114, R349, R395): the core is idle from the next ply on, its yield counter is remembered, and a core
that yields after an announced pre-emption asks for its save. Log 20, DEDUCED. -/
def yieldCore (c : Core) (now : Nat) : Core :=
  let asks := c.prply != BitVec.allOnes 64 && c.prply.toNat ≤ now && !c.preDone
  { c with run := .idle, idleFrom := now + 1, yieldAdds := c.yieldAdds ++ (if c.yctr = 0 then [] else [c.yctr]),
           preDone := c.preDone || asks,
           saving := if asks then
               some { pre := true, kind := if c.diverted then 1 else 0, begun := false, todo := [], next := now + 1, tsaved := 0, bsaved := 0 }
             else c.saving }

/-- CHSTART at commit (R333): the channel runs, and its head record is fetched at `fetch`. The chain counts as started by
this bundle, and a record not yet fetched as within every scope (R272). -/
def startChannel (s : State) (n ch off g0 : Nat) (cap : Cap) (fetch : Nat) : State :=
  let c := s.core n
  let k := c.chan ch
  { s.setCore n { c.setChan ch { k with
        state := 1, cap := cap, recOff := BitVec.ofNat 22 off, next := BitVec.ofNat 32 g0, chain := 2 * s.nextId + 1,
        seq := s.seq, fetchOff := off, fetchAt := some fetch, fetchDelayed := false, head := some g0, cur := none,
        tails := [], fault := none, stopAt := none } with
      ops := c.ops ++ [{ ident := 2 * s.nextId + 1, seq := s.seq, kinds := 12, dist := 0, isOpen := true, due := 0,
                         acq := none }] } with
    nextId := s.nextId + 1 }

/-- The arms of a core with those of a slot in force until `now` (R344, R346). Log 28, DEDUCED. -/
def endArms (arms : List Arm) (slot now : Nat) : List Arm :=
  arms.map (fun a => if a.slot = slot && a.ends.isNone then { a with ends := some now } else a)

/-- A resuming launch of a core (R347, R348), which is running from the next ply on. Log 29, DEDUCED. -/
def launchCore (s : State) (n entry first : Nat) : State :=
  s.setCore n { s.core n with run := .running, runFrom := s.now + 1, pc := BitVec.ofNat 22 entry, depth := 0, leaf := 0, nextIssue := first,
                              held := 0, wait := none }

/-- One commit effect of a slot. -/
def applyEff (s : State) (n : Nat) (e : Eff) : State :=
  let c := s.core n
  match e with
  | .loops d none => s.setCore n { c with depth := BitVec.ofNat 3 d }
  | .loops d (some (i, x)) => s.setCore n { c.setLoopEntry i x with depth := BitVec.ofNat 3 d }
  | .boundary => s
  | .tret => s.setCore n { c with intrap := false }
  | .yielded => s.setCore n (yieldCore c s.now)
  | .softTrap _ _ => s
  | .access a => { s with accs := s.accs ++ [a] }
  | .atom a => { s with atoms := s.atoms ++ [a] }
  | .op o => s.setCore n { c with ops := c.ops ++ [o] }
  | .fence f => s.setCore n { c with fences := c.fences ++ [f] }
  | .busy r k m => s.setCore n { c with busy := c.busy ++ [{ reg := r, free := s.now + k, byMma := m }] }
  | .mma m => s.setCore n { c with mmas := c.mmas ++ [m] }
  | .takeSlot i ident => s.takeSlot i ident
  | .chStart ch off g0 cap => startChannel s n ch off g0 cap (s.now + 4)
  | .chStop ch =>
    if (c.chan ch).state = 1 && (c.chan ch).stopAt.isNone then
      s.setCore n (c.setChan ch { c.chan ch with stopAt := some s.now })
    else s
  | .arm a => s.setCore n { c with arms := endArms c.arms a.slot s.now ++ [a] }
  | .disarm k => s.setCore n { c with arms := endArms c.arms k s.now }
  | .spawn k entry first => launchCore s k entry first
  | .submit r a => { s with recs := s.recs ++ [r], accs := s.accs ++ [a] }

/-- A result of a slot: one with latency 0 takes effect at commit (R228, R237, R350), others land later (R14). -/
def commitLand (s : State) (n cls : Nat) (l : Nat × Land) : State :=
  if l.1 = 0 then applyLand s n l.2
  else s.addPending n { due := s.now + l.1, seq := s.seq, slot := cls, what := l.2 }

/-- The results and effects of a taken slot, and the phases of the pans that it draws from last. Log 47, DEDUCED. -/
def commitSlot (s : State) (n : Nat) (phases : List (Nat × Land)) (o : SlotOut) : State :=
  let s1 := o.lands.foldl (fun s l => commitLand s n o.cls l) s
  let s2 := (phases.filter (fun x => x.1 = o.cls)).foldl (fun s x => applyLand s n x.2) s1
  o.effs.foldl (fun s e => applyEff s n e) s2

/-- The first drain-table entry whose range holds `a`: LO, HI and STUB (R308, R393). -/
def drainStub (m : List Host.Cell) (base : Nat) (a : Nat) : Nat → Option Nat
  | 0 => none
  | k + 1 =>
    if readNat m base 4 ≤ a && a < readNat m (base + 4) 4 then some (readNat m (base + 8) 4)
    else drainStub m (base + 12) a k

/-- The divert of R392 at an iteration boundary whose next fetch address is `next`, not for a core that has been asked for its
save at P. Log 11, DEDUCED. Log 92, DEDUCED. Log 141, DESIGN CHOICE. -/
def divert (s : State) (n next issue : Nat) : Core :=
  let c := s.core n
  if c.prply != BitVec.allOnes 64 && c.prply.toNat ≤ s.now && !c.intrap && !c.diverted && !c.preDone then
    match drainStub (s.code n) (coreBase n + c.dtbase.toNat) next c.dtlen.toNat with
    | some stub => { c with pc := BitVec.ofNat 22 stub, drpc := BitVec.ofNat 32 next, diverted := true,
                            droff := BitVec.ofNat 64 issue - c.prply }
    | none => c
  else c

/-- The byte after the bundle being issued (R18). -/
def byteAfter (s : State) (cur : Cur) : Nat := (s.core cur.core).pc.toNat + cur.len

/-- The address that row 3 of R18 gives for the bundle being issued, where an instruction keeps it: as idle bytes stand at the
commit. The sequencer itself passes over idle bytes when it fetches (R13, R122). Log 14, DEDUCED. -/
def nextAddress (s : State) (cur : Cur) : Nat := skipIdle s cur.core (byteAfter s cur)

/-- The commit of a bundle: queues, slots in order, leaf, next address, next issue ply (R14, R18, R133). -/
def commitBundle (s : State) (cur : Cur) (outs : List SlotOut) : State :=
  let n := cur.core
  let taken := takenSlots outs
  let row3 := nextAddress s cur
  let target := taken.findSome? (fun o => o.target)
  let yields := taken.any (fun o => o.effs.contains .yielded)
  let issue := s.now + 1 + (if cur.header = 0 then 0 else field cur.w 3 0)
  let s1 := commitQueues s n taken
  let phases := drawnPhases (s1.core n) taken
  let s3 := taken.foldl (fun s o => commitSlot s n phases o) s1
  let c := s3.core n
  let leaf := match treeOf outs with | some t => BitVec.ofNat 3 t.leaf | none => c.leaf
  let s4 := s3.setCore n { c with pc := BitVec.ofNat 22 (if yields then row3 else target.getD (byteAfter s cur)), leaf := leaf,
                                  held := 0, wait := none, nextIssue := if yields then s.now + 1 else issue }
  let s5 := if taken.any (fun o => o.effs.contains .boundary) then s4.setCore n (divert s4 n (target.getD row3) issue) else s4
  { s5 with seq := s.seq + 1 }

/-- SOFTWARE_TRAP after the bundle holding TRAP has committed (R40, R115). -/
def softwareTrap (s : State) (cur : Cur) (outs : List SlotOut) (row3 : Nat) : State :=
  match (takenSlots outs).findSome? (fun o => o.effs.findSome? (fun e => match e with
      | .softTrap sub tval => some (sub, tval)
      | _ => none)) with
  | some (sub, tval) => takeTrap s cur.core 0x13 sub (some 0) 0 tval row3
  | none => s

/-- A bundle with all its slots known, before an event or a hold that has reached its limit joins its causes (R384, R390). The row of the
event reports on it next, before anything else of the ply. -/
def leaveUndecided (s : State) (cur : Cur) (outs : List SlotOut) : State := { s with cur := { cur with left := 0, outs := outs } }

/-- The decision of a bundle with all its slots known (R14): left to an event that it may take, or to a hold that has reached its limit;
held; a trap; or commit. Log 40, DEDUCED. -/
def decideBundle (s : State) (cur : Cur) (outs : List SlotOut) : State :=
  let n := cur.core
  let c := s.core n
  let addr := c.pc.toNat
  let held := bundleHeld s cur outs
  if !(c.takeable s.now).isEmpty || held && c.waitOver then leaveUndecided s cur outs
  else if held then holdBundle s n outs
  else match bundleCause s cur addr outs [] with
    | some r => takeTrap s n r.what.num r.what.sub r.slot (leafOf outs) r.what.tval addr
    | none => softwareTrap (commitBundle s cur outs) cur outs (nextAddress s cur)

/-- Whether the bundle of a core has all its slots known and is still to be decided. -/
def State.undecided (s : State) (n : Nat) : Bool := s.cur.left = 0 && s.cur.core = n

/-- The report of an undecided bundle: the lowest of the event that it may take, of its own causes and of `more`, of one number the event
(R10, R384). -/
def reportUndecided (s : State) (more : List Raised) : State :=
  let cur := { s.cur with left := 1, outs := [] }
  let u := { s with cur := cur }
  let n := cur.core
  let addr := (u.core n).pc.toNat
  let leaf := leafOf s.cur.outs
  match (u.core n).bestEvent u.now, bundleCause u cur addr s.cur.outs more with
  | some d, some r =>
    if d.num ≤ r.what.num then takeDeferred u n addr leaf d else takeTrap u n r.what.num r.what.sub r.slot leaf r.what.tval addr
  | some d, none => takeDeferred u n addr leaf d
  | none, some r => takeTrap u n r.what.num r.what.sub r.slot leaf r.what.tval addr
  | none, none => u

/-- One slot of the bundle being issued: collected while slots are still to come, else the bundle is decided. -/
def issueSlot (s : State) (o : SlotOut) : State :=
  let cur := s.cur
  if 1 < cur.left then { s with cur := { cur with left := cur.left - 1, outs := cur.outs ++ [o] } }
  else decideBundle { s with cur := { cur with outs := [] } } cur (cur.outs ++ [o])

/-- A slot that does nothing, of a class and with a path tag. -/
def SlotOut.empty (cls tag : Nat) : SlotOut :=
  { cls := cls, tag := tag, word := 0, tree := none, illegal := none, qreads := [], qdests := [], bc := false,
    hold := false, wait := none, prompt := false, reads := [], causes := [], pushes := [], lands := [], target := none, draws := [],
    starts := [], release := none, effs := [] }

/-- A slot instruction: its slot is issued, and memory stays as it is (every access performs later, R290). -/
def execSlot (s : State) (o : SlotOut) : Host.Outcome State Fault Refusal := finishSame s (issueSlot s o)

/-- The core whose bundle is being issued. -/
def State.curCore (s : State) : Core := s.core s.cur.core

/-- The broadcast scalar of the bundle being issued (R32). -/
def State.bcast (s : State) : Word := s.curCore.sreg (field s.cur.w 21 16)

/-- The address of byte 0 of the bundle being issued. -/
def State.bundleAddr (s : State) : Nat := s.curCore.pc.toNat

end Sys2Proof.Machine
end

