-- ==== Sys2Proof/Machine/Numbers.lean ====
section
/-! DEFINITION. Number formats and exact arithmetic (R148 to R170), and the values that pans supply (R231). -/

namespace Sys2Proof.Machine

/-! ## Floating values -/

/-- A floating value: a quieted NaN by its FP32 encoding, an infinity, or the exact (−1)^neg · m · 2^e (R151, R152). -/
inductive Num where
  | nan (bits : Nat)
  | inf (neg : Bool)
  | fin (neg : Bool) (m : Nat) (e : Int)
  deriving DecidableEq, Repr

/-- The value of an FP32 encoding (R151, R152); a NaN is quieted, which every use of one does (R153). -/
def decodeF32 (x : Nat) : Num :=
  let neg := bit x 31
  let e := field x 30 23
  let f := field x 22 0
  if e = 255 then (if f = 0 then .inf neg else .nan (if bit x 22 then x % 2 ^ 32 else x % 2 ^ 32 + 2 ^ 22))
  else if e = 0 then .fin neg f (-149)
  else .fin neg (2 ^ 23 + f) ((e : Int) - 150)

/-- The value of a BF16 encoding: bits [31:16] of FP32 (R151). -/
def decodeBf16 (x : Nat) : Num := decodeF32 (x % 2 ^ 16 * 2 ^ 16)

/-- The default NaN (R153). -/
def Num.defaultNan : Num := .nan 0x7FC00000

def Num.isNan : Num → Bool
  | .nan _ => true
  | _ => false

/-- The value with its sign turned; a NaN keeps its sign (R153). -/
def Num.negate : Num → Num
  | .nan b => .nan b
  | .inf n => .inf !n
  | .fin n m e => .fin (!n) m e

/-- An exact product (R153, R155). -/
def Num.mul : Num → Num → Num
  | .nan b, _ => .nan b
  | _, .nan b => .nan b
  | .inf n, .inf k => .inf (n != k)
  | .inf n, .fin k m _ => if m = 0 then .defaultNan else .inf (n != k)
  | .fin n m _, .inf k => if m = 0 then .defaultNan else .inf (n != k)
  | .fin n m e, .fin k l d => .fin (n != k) (m * l) (e + d)

/-- An exact sum; `down` is whether the mode is rdn, under which an exact zero sum is −0 (R155). -/
def Num.add (down : Bool) : Num → Num → Num
  | .nan b, _ => .nan b
  | _, .nan b => .nan b
  | .inf n, .inf k => if n = k then .inf n else .defaultNan
  | .inf n, .fin _ _ _ => .inf n
  | .fin _ _ _, .inf k => .inf k
  | .fin n m e, .fin k l d =>
    let low := if e ≤ d then e else d
    let x : Int := (m <<< (e - low).toNat : Nat)
    let y : Int := (l <<< (d - low).toNat : Nat)
    let v := (if n then -x else x) + (if k then -y else y)
    if v = 0 then .fin (if m = 0 && l = 0 && n = k then n else down) 0 low
    else .fin (v < 0) v.natAbs low

/-- An exact difference a − b. -/
def Num.sub (down : Bool) (a b : Num) : Num :=
  match a, b with
  | .nan x, _ => .nan x
  | _, .nan y => .nan y
  | a, b => Num.add down a b.negate

/-- a × b + c with an exact product; the NaN order is a, b, c (R153). -/
def Num.fma (a b c : Num) : Num :=
  match a, b, c with
  | .nan x, _, _ => .nan x
  | _, .nan x, _ => .nan x
  | _, _, .nan x => .nan x
  | a, b, c => Num.add false (Num.mul a b) c

/-! ## Rounding (R156 to R158) -/

/-- Whether a magnitude that lies the fraction `rem / unit` (and a little more, if `sticky`) above a representable one
is rounded away from zero. `odd` is the last bit of the lower one, `g` the dither value. -/
def roundsAway (mode : Nat) (neg odd sticky : Bool) (rem unit g : Nat) : Bool :=
  if rem = 0 && !sticky then false
  else match mode with
    | 0 => unit < 2 * rem || (2 * rem = unit && (sticky || odd))
    | 1 => false
    | 2 => !neg
    | 3 => neg
    | _ => g < 1024 * rem / unit

/-- A finite magnitude m · 2^e (and a little more, if `sticky`) rounded to an encoding of `f` fraction bits
(f = 23 for FP32, 7 for BF16), with its sign. -/
def roundMag (f mode : Nat) (neg : Bool) (m : Nat) (e : Int) (sticky : Bool) (g : Nat) : Nat :=
  let sign := if neg then 2 ^ (f + 8) else 0
  if m = 0 && !sticky then sign
  else
    let top : Int := e + Nat.log2 m
    let ulp : Int := if top - f < -126 - (f : Int) then -126 - (f : Int) else top - f
    let k := (ulp - e).toNat
    let lo := if ulp ≤ e then m <<< (e - ulp).toNat else m >>> k
    let rem := if ulp ≤ e then 0 else m % 2 ^ k
    let r := if roundsAway mode neg (lo % 2 = 1) sticky rem (2 ^ k) g then lo + 1 else lo
    let mag := if r < 2 ^ f then r else (ulp + f + 126).toNat <<< f + r
    if mag < 255 * 2 ^ f then sign + mag
    else
      let largest := sign + 255 * 2 ^ f - 1
      let infinite := sign + 255 * 2 ^ f
      match mode with
      | 1 => largest
      | 2 => if neg then largest else infinite
      | 3 => if neg then infinite else largest
      | _ => infinite

/-- round_f32 and round_bf16: the encoding with `f` fraction bits (R157, R158, R169). -/
def Num.round (f mode g : Nat) : Num → Nat
  | .nan b => b >>> (23 - f)
  | .inf n => (if n then 2 ^ (f + 8) else 0) + 255 * 2 ^ f
  | .fin n m e => roundMag f mode n m e false g

/-- round_f32 with rne. -/
def Num.f32 (v : Num) : Nat := v.round 23 0 0

/-- A quotient num / den of magnitudes rounded to an integer (R157, R158). -/
def roundQuotient (mode : Nat) (neg : Bool) (num den g : Nat) : Int :=
  let lo := num / den
  let r := if roundsAway mode neg (lo % 2 = 1) false (num % den) den g then lo + 1 else lo
  if neg then -(r : Int) else r

/-- Conversion to an integer clamped to bounds: a NaN gives 0, an infinity the bound of its sign (R168). -/
def Num.toInteger (mode g : Nat) (lo hi : Int) : Num → Int
  | .nan _ => 0
  | .inf n => if n then lo else hi
  | .fin n m e =>
    let v := if 0 ≤ e then roundQuotient mode n (m <<< e.toNat) 1 g else roundQuotient mode n m (2 ^ (-e).toNat) g
    if v < lo then lo else if hi < v then hi else v

/-- An integer as a floating value. -/
def Num.ofInt (v : Int) : Num := .fin (v < 0) v.natAbs 0

/-! ## FP32 operations, with one rounding by rne (R160, R178, R179) -/

def f32Add (a b : Nat) : Nat := (Num.add false (decodeF32 a) (decodeF32 b)).f32
def f32Sub (a b : Nat) : Nat := (Num.sub false (decodeF32 a) (decodeF32 b)).f32
def f32Mul (a b : Nat) : Nat := (Num.mul (decodeF32 a) (decodeF32 b)).f32
def f32Fma (a b c : Nat) : Nat := (Num.fma (decodeF32 a) (decodeF32 b) (decodeF32 c)).f32
def bf16Add (a b : Nat) : Nat := (Num.add false (decodeBf16 a) (decodeBf16 b)).round 7 0 0
def bf16Sub (a b : Nat) : Nat := (Num.sub false (decodeBf16 a) (decodeBf16 b)).round 7 0 0
def bf16Mul (a b : Nat) : Nat := (Num.mul (decodeBf16 a) (decodeBf16 b)).round 7 0 0
def bf16Fma (a b c : Nat) : Nat := (Num.fma (decodeBf16 a) (decodeBf16 b) (decodeBf16 c)).round 7 0 0

/-- The order of FP32 encodings that are no NaN, with −0 less than +0 (R179). -/
def f32Key (x : Nat) : Int := if bit x 31 then -((x % 2 ^ 31 : Nat) : Int) - 1 else (x % 2 ^ 31 : Nat)

/-- VMAX.F32 of R179. -/
def f32Max (a b : Nat) : Nat :=
  match decodeF32 a, decodeF32 b with
  | .nan x, _ => x
  | _, .nan y => y
  | _, _ => if f32Key a < f32Key b then b else a

/-- VMIN.F32 of R179. -/
def f32Min (a b : Nat) : Nat :=
  match decodeF32 a, decodeF32 b with
  | .nan x, _ => x
  | _, .nan y => y
  | _, _ => if f32Key b < f32Key a then b else a

/-- a ≤ b as FP32 values; false with a NaN, and −0 equals +0 (R180). -/
def f32Le (a b : Nat) : Bool :=
  match decodeF32 a, decodeF32 b with
  | .nan _, _ => false
  | _, .nan _ => false
  | _, _ => (a % 2 ^ 31 = 0 && b % 2 ^ 31 = 0) || f32Key a ≤ f32Key b

/-! ## MX codes (R161 to R166) -/

/-- mx_value before rounding: c × S (R165). Code 0 keeps the sign of its scale: −0.0 for a negative S. Log 111, DEDUCED. -/
def mxExact (c : Int) (s : Nat) : Num := Num.mul (Num.ofInt c) (decodeBf16 s)

/-- The code of a floating value under a scale, a mode and a bound (R166). Under a scale of zero it is 0 for every value, though R170
returns a code whose value is zero. Log 132, DESIGN CHOICE. -/
def mxCode (x : Num) (s mode g : Nat) (bound : Nat) : Int :=
  match decodeBf16 s, x with
  | .nan _, _ => 0
  | .inf _, _ => 0
  | .fin _ 0 _, _ => 0
  | .fin _ _ _, .nan _ => 0
  | .fin k _ _, .inf n => if n != k then -(bound : Int) else bound
  | .fin k l d, .fin n m e =>
    let low := if e ≤ d then e else d
    let v := roundQuotient mode (n != k) (m <<< (e - low).toNat) (l <<< (d - low).toNat) g
    if v < -(bound : Int) then -(bound : Int) else if (bound : Int) < v then bound else v

/-- The bits of an element of format code f: 8, 6 or 4 (R161). -/
def mxBits (f : Nat) : Nat := 8 - 2 * f

/-- The bound B of a format (R161). -/
def mxBound (f : Nat) : Nat := 2 ^ (mxBits f - 1) - 1

/-- The native edge of a format (R194). -/
def mxEdge (f : Nat) : Nat := if f = 0 then 96 else if f = 1 then 128 else 192

/-- The term of one block: the exact product sum × sA × sB rounded once; sA is tested for a NaN before sB (R167). -/
def blockTerm (sum : Int) (sa sb : Nat) : Nat :=
  match decodeBf16 sa, decodeBf16 sb with
  | .nan x, _ => x
  | _, .nan y => y
  | a, b => (Num.mul (Num.mul (Num.ofInt sum) a) b).f32

/-! ## Pans (R231, R232) -/

/-- The direction numbers Vset (R232). -/
def directionSets : List (List Nat) :=
  [[0x200, 0x100, 0x080, 0x040, 0x020, 0x010, 0x008, 0x004, 0x002, 0x001],
   [0x200, 0x300, 0x280, 0x3C0, 0x220, 0x330, 0x288, 0x3CC, 0x222, 0x333],
   [0x200, 0x100, 0x180, 0x0C0, 0x1A0, 0x050, 0x0E8, 0x1B4, 0x0B6, 0x2A5],
   [0x200, 0x300, 0x380, 0x140, 0x260, 0x190, 0x358, 0x264, 0x19A, 0x0CF],
   [0x200, 0x100, 0x380, 0x2C0, 0x0E0, 0x270, 0x1C8, 0x09C, 0x31E, 0x15B],
   [0x200, 0x300, 0x080, 0x340, 0x3A0, 0x0B0, 0x2F8, 0x1E4, 0x0CA, 0x3A9],
   [0x200, 0x100, 0x280, 0x1C0, 0x160, 0x3D0, 0x038, 0x2AC, 0x1E2, 0x217],
   [0x200, 0x300, 0x180, 0x240, 0x0A0, 0x1F0, 0x118, 0x074, 0x3A6, 0x0E3],
   [0x200, 0x100, 0x280, 0x3C0, 0x060, 0x110, 0x2A8, 0x35C, 0x05A, 0x1CD],
   [0x200, 0x300, 0x380, 0x0C0, 0x1E0, 0x2D0, 0x078, 0x1C4, 0x26E, 0x339],
   [0x200, 0x100, 0x080, 0x340, 0x320, 0x030, 0x1D8, 0x0AC, 0x2F2, 0x087],
   [0x200, 0x300, 0x180, 0x2C0, 0x2A0, 0x3B0, 0x0C8, 0x3F4, 0x116, 0x2DB],
   [0x200, 0x100, 0x380, 0x140, 0x120, 0x0D0, 0x368, 0x154, 0x0DE, 0x3F1],
   [0x200, 0x300, 0x280, 0x040, 0x3E0, 0x150, 0x1A8, 0x23C, 0x382, 0x06D],
   [0x200, 0x100, 0x180, 0x240, 0x2E0, 0x370, 0x258, 0x31C, 0x24A, 0x1B5],
   [0x200, 0x300, 0x080, 0x1C0, 0x160, 0x290, 0x3B8, 0x0E4, 0x3CE, 0x2C1]]

/-- The exclusive or of the direction numbers that the bits of an index select. -/
def directionXor : List Nat → Nat → Nat
  | [], _ => 0
  | v :: vs, lo => (if lo % 2 = 1 then v else 0) ^^^ directionXor vs (lo / 2)

/-- pan_value of R231: the value of pan p for generator index n and lane i. -/
def panValue (p : Nat) (pan : Pan) (n i : Nat) : Nat :=
  let n16 := n % 65536
  let key := (pan.seed.rotateRight ((7 * (n16 / 1024) + i) % 64)).toNat % 1024
  directionXor (directionSets.getD p []) (n16 % 1024) ^^^ pan.scr.toNat ^^^ key

end Sys2Proof.Machine
end

