-- ==== Sys2Proof/Machine/Operands.lean ====
section
/-! DEFINITION. The operand forms of slots: how an operand is read, named to the scoreboard and the ports, and written. -/

namespace Sys2Proof.Machine

/-- A scalar operand of the bundle being issued, read at its start (R7). -/
def State.rs (s : State) (r : BitVec 6) : Word := s.curCore.sreg r.toNat

/-- A capability operand of the bundle being issued. -/
def State.rc (s : State) (r : BitVec 4) : Cap := s.curCore.creg r.toNat

/-- A lane mask operand of the bundle being issued. -/
def State.rm (s : State) (r : BitVec 4) : Word := s.curCore.mreg r.toNat

/-- The head entry of a queue, as a source operand reads it (R132). -/
def State.rq (s : State) (q : Nat) : Entry := s.curCore.headOf q

/-- A result on its way to a scalar register; a write to s0 is discarded (R26). -/
def landScalar (d : BitVec 6) (lat : Nat) (v : Word) : List (Nat × Land) :=
  if d = 0 then [] else [(lat, .scalar d.toNat v)]

/-- A result on its way to a lane mask; a write to m0 is discarded (R143). -/
def landMask (m : BitVec 4) (lat : Nat) (v : Word) : List (Nat × Land) :=
  if m = 0 then [] else [(lat, .mask m.toNat v)]

/-- A result on its way to a capability register. -/
def landCap (c : BitVec 4) (v : Cap) : List (Nat × Land) := [(1, .cap c.toNat v)]

/-- The register that a control state index names to the scoreboard (R30, R124, R141). -/
def controlReg (c : Core) (idx : Nat) : Reg :=
  if 0x30 ≤ idx && idx ≤ 0x3F then .walk ((idx - 0x30) / 2)
  else if idx = 0x4F then .mask c.msel.toNat
  else .control idx

/-- A push of a computed entry (R133). -/
def pushEntry (q : Nat) (lat : Nat) (v : Entry) : List Push := [{ q := q, lat := lat, data := v, load := none }]

/-- The number of the queue that a bank and a 6-bit name give (R63). -/
def bankQueue (g : BitVec 3) (r : BitVec 6) : Nat := 64 * g.toNat + r.toNat

/-- Operations and accesses of a slot are numbered by its bundle and its place in it. -/
def slotOp (s : State) (cls : Nat) : Nat := (s.seq * 8 + cls) * 2
def slotIdent (s : State) (cls j : Nat) : Nat := ((s.seq * 8 + cls) * 65536 + j) * 2

/-- Writes of bundles carry the core's rank before its channels (R291). Log 91, DEDUCED. -/
def bundleRank (n : Nat) : Nat := n * 16

/-- Whether an access is a store of a bundle, by its rank (R291). Log 17, DEDUCED. -/
def Access.isBundleStore (a : Access) : Bool := a.rank = bundleRank a.core

/-! ## Lanes (R127, R129, R175) -/

/-- The elements of `w` bits of an entry, in packing order. -/
def elems (w : Nat) (v : Entry) : List Nat := splitPieces w (2048 / w) v.toNat

/-- The entry of a list of elements of `w` bits. -/
def entryOf (w : Nat) (xs : List Nat) : Entry := BitVec.ofNat 2048 (joinPieces w xs)

/-- The elements whose lane a mask selects from `r`, the others from `a` (R144). -/
def laneSelect (m : Word) : Nat → List Nat → List Nat → List Nat
  | i, x :: a, y :: r => (if maskBit m i then y else x) :: laneSelect m (i + 1) a r
  | _, _, _ => []

/-- The mask of a list of truth values, lane 0 first. -/
def maskOf (bs : List Bool) : Word := BitVec.ofNat 64 (joinPieces 1 (bs.map Bool.toNat))

/-! ## Draws (R159) -/

/-- Values of a pan that the earlier slots of the bundle being issued draw. -/
def State.earlierDraws (s : State) (p : Nat) : Nat :=
  (((takenSlots s.cur.outs).flatMap (fun o => o.draws)).filter (fun d => d.1 = p)).foldl (fun n d => n + d.2) 0

/-- The value of a pan `k` places after its phase as the slot at issue meets it, for a lane. Log 46, DEDUCED. -/
def State.panAt (s : State) (p k i : Nat) : Nat :=
  let pan := s.curCore.panOf p
  panValue p pan (pan.ph.toNat + s.earlierDraws p + k) i

/-- The dither value of element e of a stochastic rounding (R158, R159). -/
def State.dither (s : State) (e : Nat) : Nat := s.panAt s.curCore.dpan.toNat e 0

/-- The dither value where a mode asks for one. -/
def State.ditherFor (s : State) (mode e : Nat) : Nat := if mode = 4 then s.dither e else 0

/-- The draws of an instruction that rounds n elements under a mode. -/
def State.draws (s : State) (mode n : Nat) : List (Nat × Nat) :=
  if mode = 4 then [(s.curCore.dpan.toNat, n)] else []

/-! ## Tile and accumulator busy bits (R204) -/

def Core.isBusy (c : Core) (now : Nat) (r : BusyReg) : Bool := c.busy.any (fun b => b.reg = r && now < b.free)

/-- Whether a bundle that only reads a tile, or one that writes it, is held. -/
def Core.tileHeld (c : Core) (now t : Nat) (writer : Bool) : Bool :=
  c.isBusy now (.tileWrite t) || (writer && c.isBusy now (.tileRead t))
def Core.accHeld (c : Core) (now n : Nat) (writer : Bool) : Bool :=
  c.isBusy now (.accWrite n) || (writer && c.isBusy now (.accRead n))

/-- The write of a tile or accumulator sets its in-use and dirty flags at commit (R200). Log 47, DEDUCED. -/
def landFlags (bits : Nat) : List (Nat × Land) := [(1, .flagsSet (BitVec.ofNat 18 bits))]

end Sys2Proof.Machine
end

