-- ==== Sys2Proof/Machine/Scalar.lean ====
section
/-! DEFINITION. The C slot and the A slot: scalar arithmetic, constants, control flow, sequencer operations, walk
registers (R100 to R117, R124 to R126). -/

namespace Sys2Proof.Machine

/-! ## Operations on n-bit values (R100) -/

def aluAnd {n : Nat} (a b : BitVec n) : BitVec n := a &&& b
def aluOr {n : Nat} (a b : BitVec n) : BitVec n := a ||| b
def aluXor {n : Nat} (a b : BitVec n) : BitVec n := a ^^^ b
def aluAndn {n : Nat} (a b : BitVec n) : BitVec n := a &&& ~~~b
def aluAdd {n : Nat} (a b : BitVec n) : BitVec n := a + b
def aluSub {n : Nat} (a b : BitVec n) : BitVec n := a - b
def aluSll {n : Nat} (a b : BitVec n) : BitVec n := a <<< (b.toNat % n)
def aluSrl {n : Nat} (a b : BitVec n) : BitVec n := a >>> (b.toNat % n)
def aluSra {n : Nat} (a b : BitVec n) : BitVec n := a.sshiftRight (b.toNat % n)
def aluMul {n : Nat} (a b : BitVec n) : BitVec n := a * b
def aluMulh {n : Nat} (a b : BitVec n) : BitVec n := toBits n ((a.toInt * b.toInt) / (2 ^ n : Nat))
def aluMulhu {n : Nat} (a b : BitVec n) : BitVec n := BitVec.ofNat n ((a.toNat * b.toNat) >>> n)
def aluAdds {n : Nat} (a b : BitVec n) : BitVec n := toBits n (satS (a.toInt + b.toInt) n)
def aluSubs {n : Nat} (a b : BitVec n) : BitVec n := toBits n (satS (a.toInt - b.toInt) n)
def aluAddsu {n : Nat} (a b : BitVec n) : BitVec n := toBits n (satU ((a.toNat : Int) + b.toNat) n)
def aluSubsu {n : Nat} (a b : BitVec n) : BitVec n := toBits n (satU ((a.toNat : Int) - b.toNat) n)
def aluMin {n : Nat} (a b : BitVec n) : BitVec n := if a.toInt < b.toInt then a else b
def aluMax {n : Nat} (a b : BitVec n) : BitVec n := if a.toInt < b.toInt then b else a
def aluMinu {n : Nat} (a b : BitVec n) : BitVec n := if a.toNat < b.toNat then a else b
def aluMaxu {n : Nat} (a b : BitVec n) : BitVec n := if a.toNat < b.toNat then b else a
def aluClz {n : Nat} (a : BitVec n) : BitVec n := BitVec.ofNat n (leadingZeros n a.toNat)
def aluCtz {n : Nat} (a : BitVec n) : BitVec n := BitVec.ofNat n (trailingZeros n a.toNat)
def aluPopc {n : Nat} (a : BitVec n) : BitVec n := BitVec.ofNat n (popCount n a.toNat)

/-- The low half of a scalar, and a 32-bit result sign-extended (R100). -/
def low32 (v : Word) : BitVec 32 := v.setWidth 32
def widen32 (v : BitVec 32) : Word := v.signExtend 64

/-! ## Slot forms -/

/-- A C slot that reads the scalars A and B and writes D after `lat` plies. -/
def regForm (t : BitVec 3) (d a b : BitVec 6) (lat : Nat) (v : Word) : SlotOut :=
  { SlotOut.empty 0 t.toNat with reads := [.scalar a.toNat, .scalar b.toNat], lands := landScalar d lat v }

/-- A C slot that reads the scalar A and writes D after one ply. -/
def immForm (t : BitVec 3) (d a : BitVec 6) (v : Word) : SlotOut :=
  { SlotOut.empty 0 t.toNat with reads := [.scalar a.toNat], lands := landScalar d 1 v }

/-- IMM11 sign-extended (R101). -/
def imm11 (i : BitVec 11) : Word := i.signExtend 64

/-- A conditional move; D is read and written whichever way the test goes (R104). -/
def cmovForm (s : State) (t : BitVec 3) (d a b : BitVec 6) (test : Bool) : SlotOut :=
  { SlotOut.empty 0 t.toNat with
    reads := [.scalar a.toNat, .scalar b.toNat, .scalar d.toNat],
    lands := landScalar d 1 (if test then s.rs b else s.rs d) }

/-- The redirect to a computed target: its slot target, or CAP_BOUNDS with subcode 2 outside 0 to 2^22 - 1 (R108). -/
def redirect (o : SlotOut) (target : Int) : SlotOut :=
  if 0 ≤ target && target < 2 ^ 22 then { o with target := some target.toNat }
  else { o with causes := o.causes ++ [⟨0x09, 2, toBits 64 target⟩] }

/-- The address of byte 0 of the bundle plus a signed offset of `n` bits. -/
def relative (s : State) (n : Nat) (off : BitVec n) : Int := (s.bundleAddr : Int) + off.toInt

/-- A slot of the C class that reads the listed registers. -/
def ctlForm (t : BitVec 3) (reads : List Reg) : SlotOut := { SlotOut.empty 0 t.toNat with reads := reads }

/-- loop_open of R19. -/
def loopOpen (s : State) (o : SlotOut) (count : BitVec 32) (skip : Int) : SlotOut :=
  let c := s.curCore
  if count = 0 then redirect o skip
  else if c.depth.toNat = 6 then { o with causes := [⟨0x07, 0, 0⟩] }
  else { o with effs := [.loops (c.depth.toNat + 1)
          (some (c.depth.toNat, { count := count, start := BitVec.ofNat 32 (nextAddress s s.cur) }))] }

/-- loop_close of R19. Its commit is an iteration boundary (R20). -/
def loopClose (s : State) (o : SlotOut) : SlotOut :=
  let c := s.curCore
  let d := c.depth.toNat
  let e := c.loopEntry (d - 1)
  if d = 0 then { o with causes := [⟨0x07, 1, 0⟩] }
  else if 1 < e.count.toNat then
    { redirect o e.start.toNat with effs := [.loops d (some (d - 1, { e with count := e.count - 1 })), .boundary] }
  else { o with effs := [.loops (d - 1) none, .boundary] }

/-- Whether FENCE.SEQ still waits (R116): a result of an earlier bundle on the register files it covers has not landed,
or a store of an earlier bundle to the core's own scratchpad has not performed. Log 17, DEDUCED. -/
def fenceSeqWaits (s : State) (n : Nat) : Bool :=
  let c := s.core n
  let covered (r : Reg) : Bool := match r with
    | .brine _ => false
    | _ => true
  c.pend.any (fun p => s.now < p.due && p.what.regs.any covered) ||
    s.accs.any (fun a => a.core = n && s.now < a.landAt && a.dest.reg.any covered) ||
    s.atoms.any (fun a => a.core = n && s.now < a.landAt && a.dest.isSome) ||
    s.accs.any (fun a => a.core = n && a.write && a.isBundleStore &&
      a.spans.any (fun p => addrWin p.addr = 0 && addrCore p.addr = n))

/-! ## The tree form (R21, R22, R55 to R58) -/

/-- The operand of a test (R21, R57). -/
def testValue (s : State) (test : Nat) : Word :=
  if bit test 9 then s.curCore.mreg (field test 6 3) else s.curCore.sreg (field test 8 3)

/-- The register a test reads. -/
def testReg (test : Nat) : Reg := if bit test 9 then .mask (field test 6 3) else .scalar (field test 8 3)

/-- The walk of R56 from test `i`: the number after the tests of its subtree, or none when it would pass 3. -/
def treeNext (st : Nat) : Nat → Nat → Nat → Option Nat
  | 0, _, _ => none
  | fuel + 1, i, next =>
    let afterLeft : Option Nat :=
      if bit st (2 * i) then (if 3 < next then none else treeNext st fuel next (next + 1)) else some next
    match afterLeft with
    | none => none
    | some k => if bit st (2 * i + 1) then (if 3 < k then none else treeNext st fuel k (k + 1)) else some k

/-- The leaf reached from test `i`, numbering leaves from `leaf` on: whether a leaf was reached, and the next number. -/
def treeLeaf (s : State) (st : Nat) (tests : List Nat) : Nat → Nat → Nat → Nat → Nat × Nat
  | 0, _, _, leaf => (leaf, leaf + 1)
  | fuel + 1, i, next, leaf =>
    let holds := testCond (field (tests.getD i 0) 2 0) (testValue s (tests.getD i 0))
    -- leaves and tests of the left child
    let l := if bit st (2 * i) then treeLeaf s st tests fuel next (next + 1) leaf else (leaf, leaf + 1)
    let nl := if bit st (2 * i) then (treeNext st 4 next (next + 1)).getD (next + 1) else next
    let r := if bit st (2 * i + 1) then treeLeaf s st tests fuel nl (nl + 1) l.2 else (l.2, l.2 + 1)
    (if holds then r.1 else l.1, r.2)

/-- Whether the tests and offsets beyond the tree are zero, and the walk uses exactly NT + 1 tests (R58). -/
def treeOk (nt st : Nat) (tests offs : List Nat) : Bool :=
  treeNext st 4 0 1 = some (nt + 1) &&
    (rangeFrom 0 8).all (fun k => !(bit st k && nt < k / 2)) &&
    (rangeFrom 0 4).all (fun k => !(nt < k && tests.getD k 0 != 0)) &&
    (rangeFrom 1 4).all (fun j => !(nt + 1 < j && offs.getD (j - 1) 0 != 0)) &&
    tests.all (fun x => !(bit x 9 && field x 8 7 != 0))

/-- TREE (R22): the tests decide a leaf; leaves 1 and up branch by their offsets. -/
def treeOut (s : State) (nt st : Nat) (tests offs : List Nat) (must : Bool) : SlotOut :=
  let o := { SlotOut.empty 0 0 with reads := (tests.take (nt + 1)).map testReg }
  if must && treeOk nt st tests offs then
    let leaf := (treeLeaf s st tests 4 0 1 0).1
    let root := testCond (field (tests.getD 0 0) 2 0) (testValue s (tests.getD 0 0))
    let o1 := { o with tree := some { ok := true, tests := nt + 1, leaf := leaf, left := !root } }
    if leaf = 0 then o1 else redirect o1 ((s.bundleAddr : Int) + sext (offs.getD (leaf - 1) 0) 8)
  else { o with reads := [], tree := some { ok := false, tests := 0, leaf := 0, left := true } }

/-! ## Walk registers (R124, R125) -/

/-- STEP0 and STEP1 of a walk register, sign-extended. -/
def step0 (w : Walk) : Word := (w.step.setWidth 32).signExtend 64
def step1 (w : Walk) : Word := ((w.step >>> 32).setWidth 32).signExtend 64

/-- An A slot that reads walk register W, and the listed registers, and writes its BASE. -/
def walkForm (reads : List Reg) (w : Nat) (base : Option Word) (lands : List (Nat × Land)) (causes : List Cause) : SlotOut :=
  { SlotOut.empty 1 0 with
    reads := .walk w :: reads,
    lands := (match base with | some v => [(1, .control (0x30 + 2 * w) v)] | none => []) ++ lands,
    causes := causes }

/-- The step of a loop-indexed form: STEP1 where the entry's count is 1 (R125). -/
def loopStep (c : Core) (w : Walk) (entry : Nat) : Word :=
  if (c.loopEntry entry).count = 1 then step1 w else step0 w

/-! ## Meanings -/

/-- ADD_I64 (R100). 64-bit wrapping add of two scalars. -/
def execAddI64 (t : BitVec 3) (d : BitVec 6) (a : BitVec 6) (b : BitVec 6) (s : State) : Host.Outcome State Fault Refusal :=
  execSlot s (regForm t d a b 1 (aluAdd (s.rs a) (s.rs b)))

/-- SUB_I64 (R100). 64-bit wrapping subtract. -/
def execSubI64 (t : BitVec 3) (d : BitVec 6) (a : BitVec 6) (b : BitVec 6) (s : State) : Host.Outcome State Fault Refusal :=
  execSlot s (regForm t d a b 1 (aluSub (s.rs a) (s.rs b)))

/-- AND_I64 (R100). 64-bit AND. -/
def execAndI64 (t : BitVec 3) (d : BitVec 6) (a : BitVec 6) (b : BitVec 6) (s : State) : Host.Outcome State Fault Refusal :=
  execSlot s (regForm t d a b 1 (aluAnd (s.rs a) (s.rs b)))

/-- OR_I64 (R100). 64-bit OR; MOV is an alias. -/
def execOrI64 (t : BitVec 3) (d : BitVec 6) (a : BitVec 6) (b : BitVec 6) (s : State) : Host.Outcome State Fault Refusal :=
  execSlot s (regForm t d a b 1 (aluOr (s.rs a) (s.rs b)))

/-- XOR_I64 (R100). 64-bit XOR. -/
def execXorI64 (t : BitVec 3) (d : BitVec 6) (a : BitVec 6) (b : BitVec 6) (s : State) : Host.Outcome State Fault Refusal :=
  execSlot s (regForm t d a b 1 (aluXor (s.rs a) (s.rs b)))

/-- ANDN_I64 (R100). 64-bit AND NOT. -/
def execAndnI64 (t : BitVec 3) (d : BitVec 6) (a : BitVec 6) (b : BitVec 6) (s : State) : Host.Outcome State Fault Refusal :=
  execSlot s (regForm t d a b 1 (aluAndn (s.rs a) (s.rs b)))

/-- SLL_I64 (R100). 64-bit shift left by a register amount. -/
def execSllI64 (t : BitVec 3) (d : BitVec 6) (a : BitVec 6) (b : BitVec 6) (s : State) : Host.Outcome State Fault Refusal :=
  execSlot s (regForm t d a b 1 (aluSll (s.rs a) (s.rs b)))

/-- SRL_I64 (R100). 64-bit logical shift right. -/
def execSrlI64 (t : BitVec 3) (d : BitVec 6) (a : BitVec 6) (b : BitVec 6) (s : State) : Host.Outcome State Fault Refusal :=
  execSlot s (regForm t d a b 1 (aluSrl (s.rs a) (s.rs b)))

/-- SRA_I64 (R100). 64-bit arithmetic shift right. -/
def execSraI64 (t : BitVec 3) (d : BitVec 6) (a : BitVec 6) (b : BitVec 6) (s : State) : Host.Outcome State Fault Refusal :=
  execSlot s (regForm t d a b 1 (aluSra (s.rs a) (s.rs b)))

/-- MUL_I64 (R100). 64-bit multiply, low half, latency 3. -/
def execMulI64 (t : BitVec 3) (d : BitVec 6) (a : BitVec 6) (b : BitVec 6) (s : State) : Host.Outcome State Fault Refusal :=
  execSlot s (regForm t d a b 3 (aluMul (s.rs a) (s.rs b)))

/-- MULH_I64 (R100). 64-bit signed multiply, high half. -/
def execMulhI64 (t : BitVec 3) (d : BitVec 6) (a : BitVec 6) (b : BitVec 6) (s : State) : Host.Outcome State Fault Refusal :=
  execSlot s (regForm t d a b 3 (aluMulh (s.rs a) (s.rs b)))

/-- MULHU_I64 (R100). 64-bit unsigned multiply, high half. -/
def execMulhuI64 (t : BitVec 3) (d : BitVec 6) (a : BitVec 6) (b : BitVec 6) (s : State) : Host.Outcome State Fault Refusal :=
  execSlot s (regForm t d a b 3 (aluMulhu (s.rs a) (s.rs b)))

/-- ADDS_I64 (R100). 64-bit signed saturating add. -/
def execAddsI64 (t : BitVec 3) (d : BitVec 6) (a : BitVec 6) (b : BitVec 6) (s : State) : Host.Outcome State Fault Refusal :=
  execSlot s (regForm t d a b 1 (aluAdds (s.rs a) (s.rs b)))

/-- SUBS_I64 (R100). 64-bit signed saturating subtract. -/
def execSubsI64 (t : BitVec 3) (d : BitVec 6) (a : BitVec 6) (b : BitVec 6) (s : State) : Host.Outcome State Fault Refusal :=
  execSlot s (regForm t d a b 1 (aluSubs (s.rs a) (s.rs b)))

/-- ADDSU_I64 (R100). 64-bit unsigned saturating add. -/
def execAddsuI64 (t : BitVec 3) (d : BitVec 6) (a : BitVec 6) (b : BitVec 6) (s : State) : Host.Outcome State Fault Refusal :=
  execSlot s (regForm t d a b 1 (aluAddsu (s.rs a) (s.rs b)))

/-- SUBSU_I64 (R100). 64-bit unsigned saturating subtract. -/
def execSubsuI64 (t : BitVec 3) (d : BitVec 6) (a : BitVec 6) (b : BitVec 6) (s : State) : Host.Outcome State Fault Refusal :=
  execSlot s (regForm t d a b 1 (aluSubsu (s.rs a) (s.rs b)))

/-- MIN_I64 (R100). 64-bit signed minimum. -/
def execMinI64 (t : BitVec 3) (d : BitVec 6) (a : BitVec 6) (b : BitVec 6) (s : State) : Host.Outcome State Fault Refusal :=
  execSlot s (regForm t d a b 1 (aluMin (s.rs a) (s.rs b)))

/-- MAX_I64 (R100). 64-bit signed maximum. -/
def execMaxI64 (t : BitVec 3) (d : BitVec 6) (a : BitVec 6) (b : BitVec 6) (s : State) : Host.Outcome State Fault Refusal :=
  execSlot s (regForm t d a b 1 (aluMax (s.rs a) (s.rs b)))

/-- MINU_I64 (R100). 64-bit unsigned minimum. -/
def execMinuI64 (t : BitVec 3) (d : BitVec 6) (a : BitVec 6) (b : BitVec 6) (s : State) : Host.Outcome State Fault Refusal :=
  execSlot s (regForm t d a b 1 (aluMinu (s.rs a) (s.rs b)))

/-- MAXU_I64 (R100). 64-bit unsigned maximum. -/
def execMaxuI64 (t : BitVec 3) (d : BitVec 6) (a : BitVec 6) (b : BitVec 6) (s : State) : Host.Outcome State Fault Refusal :=
  execSlot s (regForm t d a b 1 (aluMaxu (s.rs a) (s.rs b)))

/-- CLZ_I64 (R100). 64-bit count of leading zeros. -/
def execClzI64 (t : BitVec 3) (d : BitVec 6) (a : BitVec 6) (s : State) : Host.Outcome State Fault Refusal :=
  execSlot s (regForm t d a 0 1 (aluClz (s.rs a)))

/-- CTZ_I64 (R100). 64-bit count of trailing zeros. -/
def execCtzI64 (t : BitVec 3) (d : BitVec 6) (a : BitVec 6) (s : State) : Host.Outcome State Fault Refusal :=
  execSlot s (regForm t d a 0 1 (aluCtz (s.rs a)))

/-- POPC_I64 (R100). 64-bit population count. -/
def execPopcI64 (t : BitVec 3) (d : BitVec 6) (a : BitVec 6) (s : State) : Host.Outcome State Fault Refusal :=
  execSlot s (regForm t d a 0 1 (aluPopc (s.rs a)))

/-- ADD_I32 (R100). 32-bit wrapping add, sign-extended. -/
def execAddI32 (t : BitVec 3) (d : BitVec 6) (a : BitVec 6) (b : BitVec 6) (s : State) : Host.Outcome State Fault Refusal :=
  execSlot s (regForm t d a b 1 (widen32 (aluAdd (low32 (s.rs a)) (low32 (s.rs b)))))

/-- SUB_I32 (R100). 32-bit wrapping subtract, sign-extended. -/
def execSubI32 (t : BitVec 3) (d : BitVec 6) (a : BitVec 6) (b : BitVec 6) (s : State) : Host.Outcome State Fault Refusal :=
  execSlot s (regForm t d a b 1 (widen32 (aluSub (low32 (s.rs a)) (low32 (s.rs b)))))

/-- AND_I32 (R100). 32-bit AND, sign-extended. -/
def execAndI32 (t : BitVec 3) (d : BitVec 6) (a : BitVec 6) (b : BitVec 6) (s : State) : Host.Outcome State Fault Refusal :=
  execSlot s (regForm t d a b 1 (widen32 (aluAnd (low32 (s.rs a)) (low32 (s.rs b)))))

/-- OR_I32 (R100). 32-bit OR, sign-extended. -/
def execOrI32 (t : BitVec 3) (d : BitVec 6) (a : BitVec 6) (b : BitVec 6) (s : State) : Host.Outcome State Fault Refusal :=
  execSlot s (regForm t d a b 1 (widen32 (aluOr (low32 (s.rs a)) (low32 (s.rs b)))))

/-- XOR_I32 (R100). 32-bit XOR, sign-extended. -/
def execXorI32 (t : BitVec 3) (d : BitVec 6) (a : BitVec 6) (b : BitVec 6) (s : State) : Host.Outcome State Fault Refusal :=
  execSlot s (regForm t d a b 1 (widen32 (aluXor (low32 (s.rs a)) (low32 (s.rs b)))))

/-- ANDN_I32 (R100). 32-bit AND NOT, sign-extended. -/
def execAndnI32 (t : BitVec 3) (d : BitVec 6) (a : BitVec 6) (b : BitVec 6) (s : State) : Host.Outcome State Fault Refusal :=
  execSlot s (regForm t d a b 1 (widen32 (aluAndn (low32 (s.rs a)) (low32 (s.rs b)))))

/-- SLL_I32 (R100). 32-bit shift left, sign-extended. -/
def execSllI32 (t : BitVec 3) (d : BitVec 6) (a : BitVec 6) (b : BitVec 6) (s : State) : Host.Outcome State Fault Refusal :=
  execSlot s (regForm t d a b 1 (widen32 (aluSll (low32 (s.rs a)) (low32 (s.rs b)))))

/-- SRL_I32 (R100). 32-bit logical shift right, sign-extended. -/
def execSrlI32 (t : BitVec 3) (d : BitVec 6) (a : BitVec 6) (b : BitVec 6) (s : State) : Host.Outcome State Fault Refusal :=
  execSlot s (regForm t d a b 1 (widen32 (aluSrl (low32 (s.rs a)) (low32 (s.rs b)))))

/-- SRA_I32 (R100). 32-bit arithmetic shift right, sign-extended. -/
def execSraI32 (t : BitVec 3) (d : BitVec 6) (a : BitVec 6) (b : BitVec 6) (s : State) : Host.Outcome State Fault Refusal :=
  execSlot s (regForm t d a b 1 (widen32 (aluSra (low32 (s.rs a)) (low32 (s.rs b)))))

/-- MUL_I32 (R100). 32-bit multiply, low half. -/
def execMulI32 (t : BitVec 3) (d : BitVec 6) (a : BitVec 6) (b : BitVec 6) (s : State) : Host.Outcome State Fault Refusal :=
  execSlot s (regForm t d a b 3 (widen32 (aluMul (low32 (s.rs a)) (low32 (s.rs b)))))

/-- MULH_I32 (R100). 32-bit signed multiply, high half. -/
def execMulhI32 (t : BitVec 3) (d : BitVec 6) (a : BitVec 6) (b : BitVec 6) (s : State) : Host.Outcome State Fault Refusal :=
  execSlot s (regForm t d a b 3 (widen32 (aluMulh (low32 (s.rs a)) (low32 (s.rs b)))))

/-- MULHU_I32 (R100). 32-bit unsigned multiply, high half. -/
def execMulhuI32 (t : BitVec 3) (d : BitVec 6) (a : BitVec 6) (b : BitVec 6) (s : State) : Host.Outcome State Fault Refusal :=
  execSlot s (regForm t d a b 3 (widen32 (aluMulhu (low32 (s.rs a)) (low32 (s.rs b)))))

/-- ADDS_I32 (R100). 32-bit signed saturating add. -/
def execAddsI32 (t : BitVec 3) (d : BitVec 6) (a : BitVec 6) (b : BitVec 6) (s : State) : Host.Outcome State Fault Refusal :=
  execSlot s (regForm t d a b 1 (widen32 (aluAdds (low32 (s.rs a)) (low32 (s.rs b)))))

/-- SUBS_I32 (R100). 32-bit signed saturating subtract. -/
def execSubsI32 (t : BitVec 3) (d : BitVec 6) (a : BitVec 6) (b : BitVec 6) (s : State) : Host.Outcome State Fault Refusal :=
  execSlot s (regForm t d a b 1 (widen32 (aluSubs (low32 (s.rs a)) (low32 (s.rs b)))))

/-- ADDSU_I32 (R100). 32-bit unsigned saturating add. -/
def execAddsuI32 (t : BitVec 3) (d : BitVec 6) (a : BitVec 6) (b : BitVec 6) (s : State) : Host.Outcome State Fault Refusal :=
  execSlot s (regForm t d a b 1 (widen32 (aluAddsu (low32 (s.rs a)) (low32 (s.rs b)))))

/-- SUBSU_I32 (R100). 32-bit unsigned saturating subtract. -/
def execSubsuI32 (t : BitVec 3) (d : BitVec 6) (a : BitVec 6) (b : BitVec 6) (s : State) : Host.Outcome State Fault Refusal :=
  execSlot s (regForm t d a b 1 (widen32 (aluSubsu (low32 (s.rs a)) (low32 (s.rs b)))))

/-- MIN_I32 (R100). 32-bit signed minimum. -/
def execMinI32 (t : BitVec 3) (d : BitVec 6) (a : BitVec 6) (b : BitVec 6) (s : State) : Host.Outcome State Fault Refusal :=
  execSlot s (regForm t d a b 1 (widen32 (aluMin (low32 (s.rs a)) (low32 (s.rs b)))))

/-- MAX_I32 (R100). 32-bit signed maximum. -/
def execMaxI32 (t : BitVec 3) (d : BitVec 6) (a : BitVec 6) (b : BitVec 6) (s : State) : Host.Outcome State Fault Refusal :=
  execSlot s (regForm t d a b 1 (widen32 (aluMax (low32 (s.rs a)) (low32 (s.rs b)))))

/-- MINU_I32 (R100). 32-bit unsigned minimum. -/
def execMinuI32 (t : BitVec 3) (d : BitVec 6) (a : BitVec 6) (b : BitVec 6) (s : State) : Host.Outcome State Fault Refusal :=
  execSlot s (regForm t d a b 1 (widen32 (aluMinu (low32 (s.rs a)) (low32 (s.rs b)))))

/-- MAXU_I32 (R100). 32-bit unsigned maximum. -/
def execMaxuI32 (t : BitVec 3) (d : BitVec 6) (a : BitVec 6) (b : BitVec 6) (s : State) : Host.Outcome State Fault Refusal :=
  execSlot s (regForm t d a b 1 (widen32 (aluMaxu (low32 (s.rs a)) (low32 (s.rs b)))))

/-- CLZ_I32 (R100). 32-bit count of leading zeros. -/
def execClzI32 (t : BitVec 3) (d : BitVec 6) (a : BitVec 6) (s : State) : Host.Outcome State Fault Refusal :=
  execSlot s (regForm t d a 0 1 (widen32 (aluClz (low32 (s.rs a)))))

/-- CTZ_I32 (R100). 32-bit count of trailing zeros. -/
def execCtzI32 (t : BitVec 3) (d : BitVec 6) (a : BitVec 6) (s : State) : Host.Outcome State Fault Refusal :=
  execSlot s (regForm t d a 0 1 (widen32 (aluCtz (low32 (s.rs a)))))

/-- POPC_I32 (R100). 32-bit population count. -/
def execPopcI32 (t : BitVec 3) (d : BitVec 6) (a : BitVec 6) (s : State) : Host.Outcome State Fault Refusal :=
  execSlot s (regForm t d a 0 1 (widen32 (aluPopc (low32 (s.rs a)))))

/-- ADDI_I64 (R101). 64-bit add of a signed 11-bit immediate. -/
def execAddiI64 (t : BitVec 3) (d : BitVec 6) (a : BitVec 6) (i : BitVec 11) (s : State) : Host.Outcome State Fault Refusal :=
  execSlot s (immForm t d a (s.rs a + imm11 i))

/-- ADDI_I32 (R101). 32-bit add of an immediate, sign-extended. -/
def execAddiI32 (t : BitVec 3) (d : BitVec 6) (a : BitVec 6) (i : BitVec 11) (s : State) : Host.Outcome State Fault Refusal :=
  execSlot s (immForm t d a (widen32 (low32 (s.rs a + imm11 i))))

/-- ANDI_I64 (R101). AND with a sign-extended immediate. -/
def execAndiI64 (t : BitVec 3) (d : BitVec 6) (a : BitVec 6) (i : BitVec 11) (s : State) : Host.Outcome State Fault Refusal :=
  execSlot s (immForm t d a (s.rs a &&& imm11 i))

/-- ORI_I64 (R101). OR with a sign-extended immediate. -/
def execOriI64 (t : BitVec 3) (d : BitVec 6) (a : BitVec 6) (i : BitVec 11) (s : State) : Host.Outcome State Fault Refusal :=
  execSlot s (immForm t d a (s.rs a ||| imm11 i))

/-- XORI_I64 (R101). XOR with a sign-extended immediate. -/
def execXoriI64 (t : BitVec 3) (d : BitVec 6) (a : BitVec 6) (i : BitVec 11) (s : State) : Host.Outcome State Fault Refusal :=
  execSlot s (immForm t d a (s.rs a ^^^ imm11 i))

/-- SLLI_I64 (R101). Shift left by an immediate 0 to 63. -/
def execSlliI64 (t : BitVec 3) (d : BitVec 6) (a : BitVec 6) (i : BitVec 11) (s : State) : Host.Outcome State Fault Refusal :=
  execSlot s (immForm t d a (s.rs a <<< i.toNat))

/-- SRLI_I64 (R101). Logical shift right by an immediate. -/
def execSrliI64 (t : BitVec 3) (d : BitVec 6) (a : BitVec 6) (i : BitVec 11) (s : State) : Host.Outcome State Fault Refusal :=
  execSlot s (immForm t d a (s.rs a >>> i.toNat))

/-- SRAI_I64 (R101). Arithmetic shift right by an immediate. -/
def execSraiI64 (t : BitVec 3) (d : BitVec 6) (a : BitVec 6) (i : BitVec 11) (s : State) : Host.Outcome State Fault Refusal :=
  execSlot s (immForm t d a ((s.rs a).sshiftRight i.toNat))

/-- ADDSI_I64 (R101). Saturating add of an immediate. -/
def execAddsiI64 (t : BitVec 3) (d : BitVec 6) (a : BitVec 6) (i : BitVec 11) (s : State) : Host.Outcome State Fault Refusal :=
  execSlot s (immForm t d a (aluAdds (s.rs a) (imm11 i)))

/-- CMPI_LT (R103). Signed less-than compare against an immediate. -/
def execCmpiLt (t : BitVec 3) (d : BitVec 6) (a : BitVec 6) (i : BitVec 11) (s : State) : Host.Outcome State Fault Refusal :=
  execSlot s (immForm t d a (boolWord ((s.rs a).toInt < (imm11 i).toInt)))

/-- CMPI_EQ (R103). Equality compare against an immediate. -/
def execCmpiEq (t : BitVec 3) (d : BitVec 6) (a : BitVec 6) (i : BitVec 11) (s : State) : Host.Outcome State Fault Refusal :=
  execSlot s (immForm t d a (boolWord (s.rs a = imm11 i)))

/-- CMP_EQ (R102). Sets s[D] to 1 when s[A] equals s[B]. -/
def execCmpEq (t : BitVec 3) (d : BitVec 6) (a : BitVec 6) (b : BitVec 6) (s : State) : Host.Outcome State Fault Refusal :=
  execSlot s (regForm t d a b 1 (boolWord (s.rs a = s.rs b)))

/-- CMP_NE (R102). Sets s[D] to 1 when s[A] differs from s[B]. -/
def execCmpNe (t : BitVec 3) (d : BitVec 6) (a : BitVec 6) (b : BitVec 6) (s : State) : Host.Outcome State Fault Refusal :=
  execSlot s (regForm t d a b 1 (boolWord (s.rs a ≠ s.rs b)))

/-- CMP_LT (R102). Signed less-than compare into a scalar. -/
def execCmpLt (t : BitVec 3) (d : BitVec 6) (a : BitVec 6) (b : BitVec 6) (s : State) : Host.Outcome State Fault Refusal :=
  execSlot s (regForm t d a b 1 (boolWord ((s.rs a).toInt < (s.rs b).toInt)))

/-- CMP_GE (R102). Signed greater-or-equal compare into a scalar. -/
def execCmpGe (t : BitVec 3) (d : BitVec 6) (a : BitVec 6) (b : BitVec 6) (s : State) : Host.Outcome State Fault Refusal :=
  execSlot s (regForm t d a b 1 (boolWord ((s.rs b).toInt ≤ (s.rs a).toInt)))

/-- CMP_LTU (R102). Unsigned less-than compare into a scalar. -/
def execCmpLtu (t : BitVec 3) (d : BitVec 6) (a : BitVec 6) (b : BitVec 6) (s : State) : Host.Outcome State Fault Refusal :=
  execSlot s (regForm t d a b 1 (boolWord ((s.rs a).toNat < (s.rs b).toNat)))

/-- CMP_GEU (R102). Unsigned greater-or-equal compare into a scalar. -/
def execCmpGeu (t : BitVec 3) (d : BitVec 6) (a : BitVec 6) (b : BitVec 6) (s : State) : Host.Outcome State Fault Refusal :=
  execSlot s (regForm t d a b 1 (boolWord ((s.rs b).toNat ≤ (s.rs a).toNat)))

/-- CMOV_NZ (R104). Moves s[B] to s[D] when s[A] is non-zero, else rewrites s[D]. -/
def execCmovNz (t : BitVec 3) (d : BitVec 6) (a : BitVec 6) (b : BitVec 6) (s : State) : Host.Outcome State Fault Refusal :=
  execSlot s (cmovForm s t d a b (s.rs a != 0))

/-- CMOV_Z (R104). Conditional move when s[A] is zero. -/
def execCmovZ (t : BitVec 3) (d : BitVec 6) (a : BitVec 6) (b : BitVec 6) (s : State) : Host.Outcome State Fault Refusal :=
  execSlot s (cmovForm s t d a b (s.rs a == 0))

/-- CMOV_LT (R104). Conditional move when s[A] is negative. -/
def execCmovLt (t : BitVec 3) (d : BitVec 6) (a : BitVec 6) (b : BitVec 6) (s : State) : Host.Outcome State Fault Refusal :=
  execSlot s (cmovForm s t d a b ((s.rs a).msb))

/-- CMOV_GE (R104). Conditional move when s[A] is non-negative. -/
def execCmovGe (t : BitVec 3) (d : BitVec 6) (a : BitVec 6) (b : BitVec 6) (s : State) : Host.Outcome State Fault Refusal :=
  execSlot s (cmovForm s t d a b (!(s.rs a).msb))

/-- MOVI (R105). Loads a zero-extended 17-bit immediate into a scalar. -/
def execMovi (t : BitVec 3) (d : BitVec 6) (i : BitVec 17) (s : State) : Host.Outcome State Fault Refusal :=
  execSlot s { SlotOut.empty 0 t.toNat with lands := landScalar d 1 (i.setWidth 64) }

/-- MOVSH (R105). Shifts s[D] left 17 and ORs in a 17-bit immediate. -/
def execMovsh (t : BitVec 3) (d : BitVec 6) (i : BitVec 17) (s : State) : Host.Outcome State Fault Refusal :=
  execSlot s { SlotOut.empty 0 t.toNat with
    reads := [.scalar d.toNat], lands := landScalar d 1 ((s.rs d <<< 17) ||| i.setWidth 64) }

/-- MFC (R106). Reads a control state register into a scalar. -/
def execMfc (t : BitVec 3) (d : BitVec 6) (x : BitVec 8) (s : State) : Host.Outcome State Fault Refusal :=
  execSlot s { SlotOut.empty 0 t.toNat with
    reads := [controlReg s.curCore x.toNat], lands := landScalar d 1 (csRead s s.cur.core x.toNat) }

/-- Plies after which an MTC takes effect: at commit for the state of the brine unit (R228, R237), and for the registers that NEXT
and NEXTT move on at commit (R350, R351), so that the latest slot of a bundle persists (R29, R235); else one (R28).
Log 103, DEDUCED. -/
def moveLatency (idx : Nat) : Nat :=
  if (0x60 ≤ idx && idx ≤ 0x68) || idx = 0x88 || idx = 0x8C || idx = 0x8F then 0 else 1

/-- MTC (R106). Writes a scalar to a control state register, effective from the next ply. -/
def execMtc (t : BitVec 3) (a : BitVec 6) (x : BitVec 8) (s : State) : Host.Outcome State Fault Refusal :=
  execSlot s { SlotOut.empty 0 t.toNat with
    reads := [.scalar a.toNat],
    lands := [(moveLatency x.toNat, match controlReg s.curCore x.toNat with
      | .mask m => .mask m (s.rs a)
      | _ => .control x.toNat (s.rs a))] }

/-- BR (R109). Branches by a 14-bit offset when a scalar meets its condition. -/
def execBr (t : BitVec 3) (a : BitVec 6) (c : BitVec 3) (o : BitVec 14) (s : State) : Host.Outcome State Fault Refusal :=
  let f := ctlForm t [.scalar a.toNat]
  execSlot s (if testCond c.toNat (s.rs a) then redirect f (relative s 14 o) else f)

/-- JMP (R110). Jumps by a 23-bit offset. -/
def execJmp (t : BitVec 3) (o : BitVec 23) (s : State) : Host.Outcome State Fault Refusal :=
  execSlot s (redirect (ctlForm t []) (relative s 23 o))

/-- CALL (R110). Writes the return address to s59 and jumps by a 23-bit offset. -/
def execCall (t : BitVec 3) (o : BitVec 23) (s : State) : Host.Outcome State Fault Refusal :=
  execSlot s (redirect { ctlForm t [] with
    lands := landScalar 59 1 (BitVec.ofNat 64 (nextAddress s s.cur)) } (relative s 23 o))

/-- JR (R111). Jumps to the address in s[A]. -/
def execJr (t : BitVec 3) (a : BitVec 6) (s : State) : Host.Outcome State Fault Refusal :=
  execSlot s (redirect (ctlForm t [.scalar a.toNat]) (s.rs a).toNat)

/-- CALLR (R111). Writes the return address to s[D] and jumps to s[A]. -/
def execCallr (t : BitVec 3) (d : BitVec 6) (a : BitVec 6) (s : State) : Host.Outcome State Fault Refusal :=
  execSlot s (redirect { ctlForm t [.scalar a.toNat] with
    lands := landScalar d 1 (BitVec.ofNat 64 (nextAddress s s.cur)) } (s.rs a).toNat)

/-- LOOP (R112). Opens a loop with the count in s[A], or skips the body when it is zero. -/
def execLoop (t : BitVec 3) (a : BitVec 6) (o : BitVec 17) (s : State) : Host.Outcome State Fault Refusal :=
  execSlot s (loopOpen s (ctlForm t [.scalar a.toNat]) (low32 (s.rs a)) (relative s 17 o))

/-- LOOPI (R112). Opens a loop with an immediate count 0 to 63. -/
def execLoopi (t : BitVec 3) (n : BitVec 6) (o : BitVec 17) (s : State) : Host.Outcome State Fault Refusal :=
  execSlot s (loopOpen s (ctlForm t []) (n.setWidth 32) (relative s 17 o))

/-- ENDLOOP (R19). Closes the innermost loop, branching back or popping the entry; marks an iteration boundary. -/
def execEndloop (t : BitVec 3) (s : State) : Host.Outcome State Fault Refusal :=
  execSlot s (loopClose s (ctlForm t []))

/-- LPOP (R113). Removes the innermost loop entry without redirecting. -/
def execLpop (t : BitVec 3) (s : State) : Host.Outcome State Fault Refusal :=
  let d := s.curCore.depth.toNat
  execSlot s (if d = 0 then { ctlForm t [] with causes := [⟨0x07, 1, 0⟩] }
    else { ctlForm t [] with effs := [.loops (d - 1) none] })

/-- TRET (R41). Returns from a trap to TPC and clears INTRAP. -/
def execTret (t : BitVec 3) (s : State) : Host.Outcome State Fault Refusal :=
  execSlot s (redirect { ctlForm t [] with effs := [.tret] } s.curCore.tpc.toNat)

/-- YIELD (R114). Ends the program; the core becomes idle at the next ply keeping its state. -/
def execYield (t : BitVec 3) (s : State) : Host.Outcome State Fault Refusal :=
  execSlot s { ctlForm t [] with effs := [.yielded] }

/-- TRAP (R115). Raises SOFTWARE_TRAP after the rest of its bundle commits, with TVAL from s[A]. -/
def execTrap (t : BitVec 3) (a : BitVec 6) (n : BitVec 6) (s : State) : Host.Outcome State Fault Refusal :=
  execSlot s { ctlForm t [.scalar a.toNat] with effs := [.softTrap n.toNat (s.rs a)] }

/-- FENCE_SEQ (R116). Holds until the core's own register results have landed and own-scratchpad stores performed. -/
def execFenceSeq (t : BitVec 3) (s : State) : Host.Outcome State Fault Refusal :=
  execSlot s { ctlForm t [] with hold := fenceSeqWaits s s.cur.core }

/-- The tree form of the C slot, from its fields. -/
def treeSlot (s : State) (nt : BitVec 2) (st : BitVec 8) (t0 t1 t2 t3 : BitVec 10) (o1 o2 o3 o4 : BitVec 8) (g : BitVec 3)
    (z1 : BitVec 2) (z0 : BitVec 3) : SlotOut :=
  treeOut s nt.toNat st.toNat [t0.toNat, t1.toNat, t2.toNat, t3.toNat]
    [o1.toNat, o2.toNat, o3.toNat, o4.toNat] (g = 0 && z1 = 0 && z0 = 0)

/-- TREE (R22). A tree-form C slot evaluates up to four tests, reaches a leaf, branches to its offset, selects the tagged slots and records the leaf. -/
def execTree (nt : BitVec 2) (st : BitVec 8) (t0 : BitVec 10) (t1 : BitVec 10) (t2 : BitVec 10) (t3 : BitVec 10) (o1 : BitVec 8) (o2 : BitVec 8) (o3 : BitVec 8) (o4 : BitVec 8) (g : BitVec 3) (z1 : BitVec 2) (z0 : BitVec 3) (s : State) : Host.Outcome State Fault Refusal :=
  execSlot s (treeSlot s nt st t0 t1 t2 t3 o1 o2 o3 o4 g z1 z0)

/-- The path tag of a slot word by its class (R50), whatever its MAJOR; A and K slots carry none. -/
def wordTag (cls w : Nat) : Nat :=
  match cls with
  | 1 => 0
  | 5 => 0
  | 6 => field w 47 45
  | _ => field w 31 29

/-- Whether a slot word with a reserved operand names the broadcast (R174, R215): its MAJOR is one of format VM with a broadcast,
or it is a multiply-accumulate with its C bit set. -/
def wordBc (cls w : Nat) : Bool :=
  let major := field w 28 23
  (cls = 3 && [13, 14, 19, 20, 34, 35, 45, 47, 48, 49, 50, 51].contains major) ||
    (cls = 4 && major = 4 && field w 8 0 ≤ 1 && bit w 9)

/-- A slot that no encoding gives (R52). -/
def illegalOut (cls sub : Nat) (word : BitVec 48) : SlotOut :=
  { SlotOut.empty cls (wordTag cls word.toNat) with
    word := word.toNat, illegal := some sub, bc := sub = 2 && wordBc cls word.toNat }

/-- ILLEGAL_OPCODE (R52). A bundle whose slot holds a reserved or extension major, or an unlisted FN, issues and raises ILLEGAL_OPCODE or EXTENSION_ABSENT. -/
def execIllegalOpcode (cls : Nat) (sub : Nat) (word : BitVec 48) (s : State) : Host.Outcome State Fault Refusal :=
  execSlot s (illegalOut cls sub word)

/-- IDLE (R13). A one-byte idle bundle (H = 0x00) occupies one ply and does nothing else. -/
def execIdle (s : State) : Host.Outcome State Fault Refusal :=
  finishSame s (decideBundle { s with cur := { s.cur with outs := [] } } { s.cur with header := 0, w := 0, len := 1 } [])

/-- WSTEP (R125). Adds STEP0 to a walk register's BASE. -/
def execWstep (w : BitVec 3) (s : State) : Host.Outcome State Fault Refusal :=
  execSlot s (walkForm [] w.toNat (some ((s.curCore.walk w.toNat).base + step0 (s.curCore.walk w.toNat))) [] [])

/-- WSTEP1 (R125). Adds STEP1 to a walk register's BASE. -/
def execWstep1 (w : BitVec 3) (s : State) : Host.Outcome State Fault Refusal :=
  execSlot s (walkForm [] w.toNat (some ((s.curCore.walk w.toNat).base + step1 (s.curCore.walk w.toNat))) [] [])

/-- WBACK (R125). Subtracts STEP0 from a walk register's BASE. -/
def execWback (w : BitVec 3) (s : State) : Host.Outcome State Fault Refusal :=
  execSlot s (walkForm [] w.toNat (some ((s.curCore.walk w.toNat).base - step0 (s.curCore.walk w.toNat))) [] [])

/-- WSTEP_L (R125). Steps BASE by STEP1 when the named loop count is 1, else by STEP0. -/
def execWstepL (w : BitVec 3) (l : BitVec 3) (s : State) : Host.Outcome State Fault Refusal :=
  execSlot s (walkForm [] w.toNat (some ((s.curCore.walk w.toNat).base + loopStep s.curCore (s.curCore.walk w.toNat) l.toNat)) []
    (if s.curCore.depth.toNat ≤ l.toNat then [⟨0x07, 2, 0⟩] else []))

/-- WGET (R125). Copies a walk register's BASE to a scalar. -/
def execWget (w : BitVec 3) (s' : BitVec 6) (s : State) : Host.Outcome State Fault Refusal :=
  execSlot s (walkForm [] w.toNat none (landScalar s' 1 (s.curCore.walk w.toNat).base) [])

/-- WSET (R125). Sets a walk register's BASE from a scalar. -/
def execWset (w : BitVec 3) (s' : BitVec 6) (s : State) : Host.Outcome State Fault Refusal :=
  execSlot s { SlotOut.empty 1 0 with reads := [.scalar s'.toNat], lands := [(1, .control (0x30 + 2 * w.toNat) (s.rs s'))] }

/-- WTAKE (R125). Copies BASE to a scalar and steps it by STEP0. -/
def execWtake (w : BitVec 3) (s' : BitVec 6) (s : State) : Host.Outcome State Fault Refusal :=
  execSlot s (walkForm [] w.toNat (some ((s.curCore.walk w.toNat).base + step0 (s.curCore.walk w.toNat))) (landScalar s' 1 (s.curCore.walk w.toNat).base) [])

/-- WTAKE1 (R125). Copies BASE to a scalar and steps it by STEP1. -/
def execWtake1 (w : BitVec 3) (s' : BitVec 6) (s : State) : Host.Outcome State Fault Refusal :=
  execSlot s (walkForm [] w.toNat (some ((s.curCore.walk w.toNat).base + step1 (s.curCore.walk w.toNat))) (landScalar s' 1 (s.curCore.walk w.toNat).base) [])

/-- WTAKE_L (R125). Copies BASE and steps it by STEP1 at the last inner iteration, else STEP0. -/
def execWtakeL (w : BitVec 3) (s' : BitVec 6) (s : State) : Host.Outcome State Fault Refusal :=
  execSlot s (walkForm [] w.toNat
    (some ((s.curCore.walk w.toNat).base + loopStep s.curCore (s.curCore.walk w.toNat) (s.curCore.depth.toNat - 1)))
    (landScalar s' 1 (s.curCore.walk w.toNat).base) (if s.curCore.depth = 0 then [⟨0x07, 2, 0⟩] else []))

end Sys2Proof.Machine
end

