-- ==== Sys2Proof/Machine/Vector.lean ====
section
/-! DEFINITION. The V slot: vector arithmetic, conversions, lane moves, reductions, mask operations and moves between
queues, scalars and tiles (R171 to R193). -/

namespace Sys2Proof.Machine

/-! ## Forms (R63, R171, R175) -/

/-- A V slot that reads queues and pushes one entry. -/
def pushForm (t : BitVec 3) (qreads : List (Nat × Bool)) (d lat : Nat) (r : Entry) : SlotOut :=
  { SlotOut.empty 3 t.toNat with qreads := qreads, qdests := [d], pushes := pushEntry d lat r }

/-- Format VG: the element function `f` of width `w` on the heads of A and B. -/
def vgForm (s : State) (t g : BitVec 3) (p q : BitVec 1) (d a b : BitVec 6) (lat w : Nat) (f : Nat → Nat → Nat) : SlotOut :=
  let qa := bankQueue g a
  let qb := bankQueue g b
  pushForm t [(qa, p = 0), (qb, q = 0)] (bankQueue g d) lat
    (entryOf w (List.zipWith f (elems w (s.rq qa)) (elems w (s.rq qb))))

/-- Format VG with a read destination: `f` also takes the element of the popped head of D. -/
def vgdForm (s : State) (t g : BitVec 3) (p q : BitVec 1) (d a b : BitVec 6) (lat w : Nat)
    (f : Nat → Nat → Nat → Nat) : SlotOut :=
  let qa := bankQueue g a
  let qb := bankQueue g b
  let qd := bankQueue g d
  pushForm t [(qa, p = 0), (qb, q = 0), (qd, true)] qd lat
    (entryOf w (List.zipWith (fun (h : Nat → Nat) x => h x)
      (List.zipWith f (elems w (s.rq qa)) (elems w (s.rq qb))) (elems w (s.rq qd))))

/-- Format VM on whole lanes: lanes that m[M] masks off take their lane of A (R144). -/
def vmLanes (s : State) (t : BitVec 3) (d a : BitVec 9) (p : BitVec 1) (m : BitVec 4) (lat : Nat) (r : List Nat) : SlotOut :=
  { pushForm t [(a.toNat, p = 0)] d.toNat lat
      (entryOf 32 (laneSelect (s.rm m) 0 (elems 32 (s.rq a.toNat)) r)) with
    bc := true, reads := [.mask m.toNat] }

/-- The low 32 bits of the broadcast scalar (R145). -/
def State.bc32 (s : State) : Nat := s.bcast.toNat % 2 ^ 32

/-- Format VM with an element function of the lane and the broadcast. -/
def vmForm (s : State) (t : BitVec 3) (d a : BitVec 9) (p : BitVec 1) (m : BitVec 4) (lat : Nat) (f : Nat → Nat → Nat) : SlotOut :=
  vmLanes s t d a p m lat ((elems 32 (s.rq a.toNat)).map (fun x => f x s.bc32))

/-- Format VI with an element function of whole lanes; A is always popped (R173). -/
def viForm (s : State) (t : BitVec 3) (d a : BitVec 9) (lat : Nat) (f : Nat → Nat) : SlotOut :=
  pushForm t [(a.toNat, true)] d.toNat lat (entryOf 32 ((elems 32 (s.rq a.toNat)).map f))

/-- Format VI with a result of its own; `readD` is whether D is read and popped. -/
def viResult (t : BitVec 3) (d a : BitVec 9) (readD : Bool) (lat : Nat) (r : Entry) : SlotOut :=
  pushForm t ((a.toNat, true) :: (if readD then [(d.toNat, true)] else [])) d.toNat lat r

/-- Format VK: a compare of the heads of A and B into a mask; B is always popped (R173, R180). -/
def vkForm (s : State) (t : BitVec 3) (d : BitVec 4) (a b : BitVec 9) (p : BitVec 1) (f : Nat → Nat → Bool) : SlotOut :=
  { SlotOut.empty 3 t.toNat with
    qreads := [(a.toNat, p = 0), (b.toNat, true)],
    lands := landMask d 1 (maskOf (List.zipWith f (elems 32 (s.rq a.toNat)) (elems 32 (s.rq b.toNat)))) }

/-- A mask operation (R188). -/
def vmaskForm (t : BitVec 3) (d : BitVec 4) (reads : List (BitVec 4)) (v : Word) : SlotOut :=
  { SlotOut.empty 3 t.toNat with reads := reads.map (fun m => .mask m.toNat), lands := landMask d 1 v }

/-- An operation of the C slot on elements of `w` bits. -/
def onBits (w : Nat) (f : BitVec w → BitVec w → BitVec w) (a b : Nat) : Nat :=
  (f (BitVec.ofNat w a) (BitVec.ofNat w b)).toNat

/-! ## Conversions (R182 to R185) -/

/-- A conversion of whole lanes under a mode, with its dither values (R185). -/
def convertForm (s : State) (t : BitVec 3) (d a : BitVec 9) (r : BitVec 3) (f : Nat → Nat → Nat) : SlotOut :=
  { viResult t d a false 2
      (entryOf 32 ((rangeFrom 0 64).zipWith (fun i x => f (s.ditherFor r.toNat i) x) (elems 32 (s.rq a.toNat)))) with
    draws := s.draws r.toNat 64 }

/-- Elements 64 P to 64 P + 63 of width `w` of an entry replaced. -/
def putPart (w part : Nat) (old : Entry) (xs : List Nat) : Entry :=
  BitVec.ofNat 2048 (putField old.toNat (64 * part * w) (64 * w) (joinPieces w xs))

/-- VPACKS: narrowing of the lanes of A into part P of the entry (R184). -/
def packForm (s : State) (t : BitVec 3) (d a : BitVec 9) (p : BitVec 3) (w : Nat) (f : Int → Int) : SlotOut :=
  viResult t d a (p != 0) 2
    (putPart w p.toNat (if p = 0 then 0 else s.rq d.toNat)
      ((elems 32 (s.rq a.toNat)).map (fun x => lowBits (f (sext x 32)) w)))

/-! ## Reductions and scans (R187) -/

/-- One step of the scan: every element with one `d` places below it takes that one on its left. -/
def scanStep (f : Nat → Nat → Nat) (h : List Nat) (d : Nat) : List Nat := h.take d ++ List.zipWith f h (h.drop d)

/-- The inclusive scan of 64 contributions. -/
def scanAll (f : Nat → Nat → Nat) (h : List Nat) : List Nat := [1, 2, 4, 8, 16, 32].foldl (scanStep f) h

/-- The contributions: lanes that the mask leaves out give the identity. -/
def contributions (m : Word) (identity : Nat) (va : List Nat) : List Nat :=
  laneSelect m 0 (va.map (fun _ => identity)) va

/-- A reduction: every unmasked lane receives carry ⊕ T. -/
def reduceForm (s : State) (t : BitVec 3) (d a : BitVec 9) (p : BitVec 1) (m : BitVec 4) (lat identity : Nat)
    (f : Nat → Nat → Nat) : SlotOut :=
  let va := elems 32 (s.rq a.toNat)
  let total := (scanAll f (contributions (s.rm m) identity va)).getD 63 0
  vmLanes s t d a p m lat (va.map (fun _ => f s.bc32 total))

/-- The scan: unmasked lane i receives carry ⊕ h(i). -/
def scanForm (s : State) (t : BitVec 3) (d a : BitVec 9) (p : BitVec 1) (m : BitVec 4) (lat identity : Nat)
    (f : Nat → Nat → Nat) : SlotOut :=
  vmLanes s t d a p m lat
    ((scanAll f (contributions (s.rm m) identity (elems 32 (s.rq a.toNat)))).map (fun h => f s.bc32 h))

/-! ## Moves (R189 to R192) -/

/-- A V slot that writes a scalar from a mask. -/
def maskToScalar (t : BitVec 3) (r : BitVec 6) (m : BitVec 4) (v : Word) : SlotOut :=
  { SlotOut.empty 3 t.toNat with reads := [.mask m.toNat], lands := landScalar r 1 v }

/-- VSPLAT: every element of `w` bits takes the low bits of a scalar (R191). -/
def splatForm (s : State) (t : BitVec 3) (v : BitVec 9) (r : BitVec 6) (w : Nat) : SlotOut :=
  { pushForm t [] v.toNat 1 (entryOf w ((rangeFrom 0 (2048 / w)).map (fun _ => (s.rs r).toNat))) with
    reads := [.scalar r.toNat] }

/-- The check of a chunk index (R191). -/
def chunkCauses (k : Word) : List Cause := if 47 < k.toNat then [⟨0x10, 0x40, k⟩] else []

/-! ## Meanings -/

/-- VADD_I32 (R176). Lane-wise wrapping 32-bit add of two queues. -/
def execVaddI32 (t : BitVec 3) (g : BitVec 3) (p : BitVec 1) (q : BitVec 1) (d : BitVec 6) (a : BitVec 6) (b : BitVec 6) (s : State) : Host.Outcome State Fault Refusal :=
  execSlot s (vgForm s t g p q d a b 1 32 (onBits 32 aluAdd))

/-- VADD_I16 (R176). Element-wise wrapping 16-bit add. -/
def execVaddI16 (t : BitVec 3) (g : BitVec 3) (p : BitVec 1) (q : BitVec 1) (d : BitVec 6) (a : BitVec 6) (b : BitVec 6) (s : State) : Host.Outcome State Fault Refusal :=
  execSlot s (vgForm s t g p q d a b 1 16 (onBits 16 aluAdd))

/-- VADD_I8 (R176). Element-wise wrapping 8-bit add. -/
def execVaddI8 (t : BitVec 3) (g : BitVec 3) (p : BitVec 1) (q : BitVec 1) (d : BitVec 6) (a : BitVec 6) (b : BitVec 6) (s : State) : Host.Outcome State Fault Refusal :=
  execSlot s (vgForm s t g p q d a b 1 8 (onBits 8 aluAdd))

/-- VSUB_I32 (R176). Lane-wise wrapping 32-bit subtract. -/
def execVsubI32 (t : BitVec 3) (g : BitVec 3) (p : BitVec 1) (q : BitVec 1) (d : BitVec 6) (a : BitVec 6) (b : BitVec 6) (s : State) : Host.Outcome State Fault Refusal :=
  execSlot s (vgForm s t g p q d a b 1 32 (onBits 32 aluSub))

/-- VSUB_I16 (R176). Element-wise wrapping 16-bit subtract. -/
def execVsubI16 (t : BitVec 3) (g : BitVec 3) (p : BitVec 1) (q : BitVec 1) (d : BitVec 6) (a : BitVec 6) (b : BitVec 6) (s : State) : Host.Outcome State Fault Refusal :=
  execSlot s (vgForm s t g p q d a b 1 16 (onBits 16 aluSub))

/-- VADDS_I32 (R176). Saturating 32-bit add. -/
def execVaddsI32 (t : BitVec 3) (g : BitVec 3) (p : BitVec 1) (q : BitVec 1) (d : BitVec 6) (a : BitVec 6) (b : BitVec 6) (s : State) : Host.Outcome State Fault Refusal :=
  execSlot s (vgForm s t g p q d a b 1 32 (onBits 32 aluAdds))

/-- VADDS_I16 (R176). Saturating 16-bit add. -/
def execVaddsI16 (t : BitVec 3) (g : BitVec 3) (p : BitVec 1) (q : BitVec 1) (d : BitVec 6) (a : BitVec 6) (b : BitVec 6) (s : State) : Host.Outcome State Fault Refusal :=
  execSlot s (vgForm s t g p q d a b 1 16 (onBits 16 aluAdds))

/-- VADDS_I8 (R176). Saturating 8-bit add. -/
def execVaddsI8 (t : BitVec 3) (g : BitVec 3) (p : BitVec 1) (q : BitVec 1) (d : BitVec 6) (a : BitVec 6) (b : BitVec 6) (s : State) : Host.Outcome State Fault Refusal :=
  execSlot s (vgForm s t g p q d a b 1 8 (onBits 8 aluAdds))

/-- VSUBS_I32 (R176). Saturating 32-bit subtract. -/
def execVsubsI32 (t : BitVec 3) (g : BitVec 3) (p : BitVec 1) (q : BitVec 1) (d : BitVec 6) (a : BitVec 6) (b : BitVec 6) (s : State) : Host.Outcome State Fault Refusal :=
  execSlot s (vgForm s t g p q d a b 1 32 (onBits 32 aluSubs))

/-- VMUL_I32 (R176). 32-bit multiply, low half. -/
def execVmulI32 (t : BitVec 3) (g : BitVec 3) (p : BitVec 1) (q : BitVec 1) (d : BitVec 6) (a : BitVec 6) (b : BitVec 6) (s : State) : Host.Outcome State Fault Refusal :=
  execSlot s (vgForm s t g p q d a b 3 32 (onBits 32 aluMul))

/-- VMULH_I32 (R176). 32-bit signed multiply, high half. -/
def execVmulhI32 (t : BitVec 3) (g : BitVec 3) (p : BitVec 1) (q : BitVec 1) (d : BitVec 6) (a : BitVec 6) (b : BitVec 6) (s : State) : Host.Outcome State Fault Refusal :=
  execSlot s (vgForm s t g p q d a b 3 32 (onBits 32 aluMulh))

/-- VMIN_I32 (R176). Lane-wise signed minimum. -/
def execVminI32 (t : BitVec 3) (g : BitVec 3) (p : BitVec 1) (q : BitVec 1) (d : BitVec 6) (a : BitVec 6) (b : BitVec 6) (s : State) : Host.Outcome State Fault Refusal :=
  execSlot s (vgForm s t g p q d a b 1 32 (onBits 32 aluMin))

/-- VMAX_I32 (R176). Lane-wise signed maximum. -/
def execVmaxI32 (t : BitVec 3) (g : BitVec 3) (p : BitVec 1) (q : BitVec 1) (d : BitVec 6) (a : BitVec 6) (b : BitVec 6) (s : State) : Host.Outcome State Fault Refusal :=
  execSlot s (vgForm s t g p q d a b 1 32 (onBits 32 aluMax))

/-- VADD_I32_BC (R176). Masked 32-bit add of a queue and the broadcast scalar. -/
def execVaddI32Bc (t : BitVec 3) (d : BitVec 9) (a : BitVec 9) (p : BitVec 1) (m : BitVec 4) (s : State) : Host.Outcome State Fault Refusal :=
  execSlot s (vmForm s t d a p m 1 (onBits 32 aluAdd))

/-- VMUL_I32_BC (R176). Masked 32-bit multiply by the broadcast scalar. -/
def execVmulI32Bc (t : BitVec 3) (d : BitVec 9) (a : BitVec 9) (p : BitVec 1) (m : BitVec 4) (s : State) : Host.Outcome State Fault Refusal :=
  execSlot s (vmForm s t d a p m 3 (onBits 32 aluMul))

/-- VADDI_I32 (R176). Adds a signed 5-bit immediate to every lane. -/
def execVaddiI32 (t : BitVec 3) (d : BitVec 9) (a : BitVec 9) (i : BitVec 5) (s : State) : Host.Outcome State Fault Refusal :=
  execSlot s (viForm s t d a 1 (fun x => onBits 32 aluAdd x (i.signExtend 32).toNat))

/-- VAND_U32 (R177). Lane-wise AND. -/
def execVandU32 (t : BitVec 3) (g : BitVec 3) (p : BitVec 1) (q : BitVec 1) (d : BitVec 6) (a : BitVec 6) (b : BitVec 6) (s : State) : Host.Outcome State Fault Refusal :=
  execSlot s (vgForm s t g p q d a b 1 32 (onBits 32 aluAnd))

/-- VOR_U32 (R177). Lane-wise OR. -/
def execVorU32 (t : BitVec 3) (g : BitVec 3) (p : BitVec 1) (q : BitVec 1) (d : BitVec 6) (a : BitVec 6) (b : BitVec 6) (s : State) : Host.Outcome State Fault Refusal :=
  execSlot s (vgForm s t g p q d a b 1 32 (onBits 32 aluOr))

/-- VXOR_U32 (R177). Lane-wise XOR. -/
def execVxorU32 (t : BitVec 3) (g : BitVec 3) (p : BitVec 1) (q : BitVec 1) (d : BitVec 6) (a : BitVec 6) (b : BitVec 6) (s : State) : Host.Outcome State Fault Refusal :=
  execSlot s (vgForm s t g p q d a b 1 32 (onBits 32 aluXor))

/-- VAND_U32_BC (R177). Masked AND with the broadcast scalar. -/
def execVandU32Bc (t : BitVec 3) (d : BitVec 9) (a : BitVec 9) (p : BitVec 1) (m : BitVec 4) (s : State) : Host.Outcome State Fault Refusal :=
  execSlot s (vmForm s t d a p m 1 (onBits 32 aluAnd))

/-- VXOR_U32_BC (R177). Masked XOR with the broadcast scalar. -/
def execVxorU32Bc (t : BitVec 3) (d : BitVec 9) (a : BitVec 9) (p : BitVec 1) (m : BitVec 4) (s : State) : Host.Outcome State Fault Refusal :=
  execSlot s (vmForm s t d a p m 1 (onBits 32 aluXor))

/-- VSLL_I32 (R177). Shifts every lane left by an immediate. -/
def execVsllI32 (t : BitVec 3) (d : BitVec 9) (a : BitVec 9) (i : BitVec 5) (s : State) : Host.Outcome State Fault Refusal :=
  execSlot s (viForm s t d a 1 (fun x => onBits 32 aluSll x i.toNat))

/-- VSRL_I32 (R177). Logical right shift of every lane. -/
def execVsrlI32 (t : BitVec 3) (d : BitVec 9) (a : BitVec 9) (i : BitVec 5) (s : State) : Host.Outcome State Fault Refusal :=
  execSlot s (viForm s t d a 1 (fun x => onBits 32 aluSrl x i.toNat))

/-- VSRA_I32 (R177). Arithmetic right shift of every lane. -/
def execVsraI32 (t : BitVec 3) (d : BitVec 9) (a : BitVec 9) (i : BitVec 5) (s : State) : Host.Outcome State Fault Refusal :=
  execSlot s (viForm s t d a 1 (fun x => onBits 32 aluSra x i.toNat))

/-- VADD_F32 (R178). FP32 add rounded once with rne. -/
def execVaddF32 (t : BitVec 3) (g : BitVec 3) (p : BitVec 1) (q : BitVec 1) (d : BitVec 6) (a : BitVec 6) (b : BitVec 6) (s : State) : Host.Outcome State Fault Refusal :=
  execSlot s (vgForm s t g p q d a b 4 32 f32Add)

/-- VSUB_F32 (R178). FP32 subtract. -/
def execVsubF32 (t : BitVec 3) (g : BitVec 3) (p : BitVec 1) (q : BitVec 1) (d : BitVec 6) (a : BitVec 6) (b : BitVec 6) (s : State) : Host.Outcome State Fault Refusal :=
  execSlot s (vgForm s t g p q d a b 4 32 f32Sub)

/-- VMUL_F32 (R178). FP32 multiply. -/
def execVmulF32 (t : BitVec 3) (g : BitVec 3) (p : BitVec 1) (q : BitVec 1) (d : BitVec 6) (a : BitVec 6) (b : BitVec 6) (s : State) : Host.Outcome State Fault Refusal :=
  execSlot s (vgForm s t g p q d a b 4 32 f32Mul)

/-- VFMA_F32 (R178). FP32 fused multiply-add with the popped destination head as addend. -/
def execVfmaF32 (t : BitVec 3) (g : BitVec 3) (p : BitVec 1) (q : BitVec 1) (d : BitVec 6) (a : BitVec 6) (b : BitVec 6) (s : State) : Host.Outcome State Fault Refusal :=
  execSlot s (vgdForm s t g p q d a b 4 32 f32Fma)

/-- VADD_BF16 (R178). Paired BF16 add rounded directly to BF16. -/
def execVaddBf16 (t : BitVec 3) (g : BitVec 3) (p : BitVec 1) (q : BitVec 1) (d : BitVec 6) (a : BitVec 6) (b : BitVec 6) (s : State) : Host.Outcome State Fault Refusal :=
  execSlot s (vgForm s t g p q d a b 4 16 bf16Add)

/-- VSUB_BF16 (R178). Paired BF16 subtract. -/
def execVsubBf16 (t : BitVec 3) (g : BitVec 3) (p : BitVec 1) (q : BitVec 1) (d : BitVec 6) (a : BitVec 6) (b : BitVec 6) (s : State) : Host.Outcome State Fault Refusal :=
  execSlot s (vgForm s t g p q d a b 4 16 bf16Sub)

/-- VMUL_BF16 (R178). Paired BF16 multiply. -/
def execVmulBf16 (t : BitVec 3) (g : BitVec 3) (p : BitVec 1) (q : BitVec 1) (d : BitVec 6) (a : BitVec 6) (b : BitVec 6) (s : State) : Host.Outcome State Fault Refusal :=
  execSlot s (vgForm s t g p q d a b 4 16 bf16Mul)

/-- VFMA_BF16 (R178). Paired BF16 fused multiply-add. -/
def execVfmaBf16 (t : BitVec 3) (g : BitVec 3) (p : BitVec 1) (q : BitVec 1) (d : BitVec 6) (a : BitVec 6) (b : BitVec 6) (s : State) : Host.Outcome State Fault Refusal :=
  execSlot s (vgdForm s t g p q d a b 4 16 bf16Fma)

/-- VMAX_F32 (R179). FP32 maximum with -0 below +0. -/
def execVmaxF32 (t : BitVec 3) (g : BitVec 3) (p : BitVec 1) (q : BitVec 1) (d : BitVec 6) (a : BitVec 6) (b : BitVec 6) (s : State) : Host.Outcome State Fault Refusal :=
  execSlot s (vgForm s t g p q d a b 1 32 f32Max)

/-- VMIN_F32 (R179). FP32 minimum with -0 below +0. -/
def execVminF32 (t : BitVec 3) (g : BitVec 3) (p : BitVec 1) (q : BitVec 1) (d : BitVec 6) (a : BitVec 6) (b : BitVec 6) (s : State) : Host.Outcome State Fault Refusal :=
  execSlot s (vgForm s t g p q d a b 1 32 f32Min)

/-- VADD_F32_BC (R178). Masked FP32 add of the broadcast scalar. -/
def execVaddF32Bc (t : BitVec 3) (d : BitVec 9) (a : BitVec 9) (p : BitVec 1) (m : BitVec 4) (s : State) : Host.Outcome State Fault Refusal :=
  execSlot s (vmForm s t d a p m 4 f32Add)

/-- VMUL_F32_BC (R178). Masked FP32 multiply by the broadcast scalar. -/
def execVmulF32Bc (t : BitVec 3) (d : BitVec 9) (a : BitVec 9) (p : BitVec 1) (m : BitVec 4) (s : State) : Host.Outcome State Fault Refusal :=
  execSlot s (vmForm s t d a p m 4 f32Mul)

/-- VCMPLT_I32 (R180). Writes a lane mask of signed less-than. -/
def execVcmpltI32 (t : BitVec 3) (d : BitVec 4) (a : BitVec 9) (b : BitVec 9) (p : BitVec 1) (s : State) : Host.Outcome State Fault Refusal :=
  execSlot s (vkForm s t d a b p (fun x y => sext x 32 < sext y 32))

/-- VCMPEQ_I32 (R180). Writes a lane mask of equality. -/
def execVcmpeqI32 (t : BitVec 3) (d : BitVec 4) (a : BitVec 9) (b : BitVec 9) (p : BitVec 1) (s : State) : Host.Outcome State Fault Refusal :=
  execSlot s (vkForm s t d a b p (fun x y => x = y))

/-- VCMPLE_F32 (R180). Writes a lane mask of FP32 less-or-equal. -/
def execVcmpleF32 (t : BitVec 3) (d : BitVec 4) (a : BitVec 9) (b : BitVec 9) (p : BitVec 1) (s : State) : Host.Outcome State Fault Refusal :=
  execSlot s (vkForm s t d a b p f32Le)

/-- VMERGE_U32 (R181). Selects lanes from A or the popped destination head by a mask. -/
def execVmergeU32 (t : BitVec 3) (d : BitVec 9) (a : BitVec 9) (p : BitVec 1) (m : BitVec 4) (s : State) : Host.Outcome State Fault Refusal :=
  execSlot s { pushForm t [(a.toNat, p = 0), (d.toNat, true)] d.toNat 1
    (entryOf 32 (laneSelect (s.rm m) 0 (elems 32 (s.rq d.toNat)) (elems 32 (s.rq a.toNat)))) with reads := [.mask m.toNat] }

/-- VCVT_F32_I32 (R182). Converts signed 32-bit lanes to FP32. -/
def execVcvtF32I32 (t : BitVec 3) (d : BitVec 9) (a : BitVec 9) (r : BitVec 3) (s : State) : Host.Outcome State Fault Refusal :=
  execSlot s (convertForm s t d a r (fun g x => (Num.ofInt (sext x 32)).round 23 r.toNat g))

/-- VCVT_F32_U32 (R182). Converts unsigned 32-bit lanes to FP32. -/
def execVcvtF32U32 (t : BitVec 3) (d : BitVec 9) (a : BitVec 9) (r : BitVec 3) (s : State) : Host.Outcome State Fault Refusal :=
  execSlot s (convertForm s t d a r (fun g x => (Num.ofInt x).round 23 r.toNat g))

/-- VCVT_I32_F32 (R182). Converts FP32 lanes to saturated signed 32-bit integers. -/
def execVcvtI32F32 (t : BitVec 3) (d : BitVec 9) (a : BitVec 9) (r : BitVec 3) (s : State) : Host.Outcome State Fault Refusal :=
  execSlot s (convertForm s t d a r (fun g x => lowBits ((decodeF32 x).toInteger r.toNat g (-(2 ^ 31)) (2 ^ 31 - 1)) 32))

/-- VCVT_U32_F32 (R182). Converts FP32 lanes to saturated unsigned 32-bit integers. -/
def execVcvtU32F32 (t : BitVec 3) (d : BitVec 9) (a : BitVec 9) (r : BitVec 3) (s : State) : Host.Outcome State Fault Refusal :=
  execSlot s (convertForm s t d a r (fun g x => lowBits ((decodeF32 x).toInteger r.toNat g 0 (2 ^ 32 - 1)) 32))

/-- VCVT_BF16_F32 (R183). Narrows FP32 lanes into one half of a BF16 entry. -/
def execVcvtBf16F32 (t : BitVec 3) (d : BitVec 9) (a : BitVec 9) (h : BitVec 1) (r : BitVec 3) (s : State) : Host.Outcome State Fault Refusal :=
  execSlot s { viResult t d a (h = 1) 2 (putPart 16 h.toNat (if h = 0 then 0 else s.rq d.toNat)
    ((rangeFrom 0 64).zipWith (fun i x => (decodeF32 x).round 7 r.toNat (s.ditherFor r.toNat i))
      (elems 32 (s.rq a.toNat)))) with draws := s.draws r.toNat 64 }

/-- VCVT_F32_BF16 (R183). Widens one half of a BF16 entry to FP32 lanes. -/
def execVcvtF32Bf16 (t : BitVec 3) (d : BitVec 9) (a : BitVec 9) (h : BitVec 1) (s : State) : Host.Outcome State Fault Refusal :=
  execSlot s (viResult t d a false 2
    (entryOf 32 (((elems 16 (s.rq a.toNat)).drop (64 * h.toNat)).take 64 |>.map (fun x => (decodeBf16 x).f32))))

/-- VPACKS_I16_I32 (R184). Saturating narrowing to signed 16-bit into one part. -/
def execVpacksI16I32 (t : BitVec 3) (d : BitVec 9) (a : BitVec 9) (p : BitVec 3) (s : State) : Host.Outcome State Fault Refusal :=
  execSlot s (packForm s t d a p 16 (fun v => satS v 16))

/-- VPACKS_I8_I32 (R184). Saturating narrowing to signed 8-bit into one part. -/
def execVpacksI8I32 (t : BitVec 3) (d : BitVec 9) (a : BitVec 9) (p : BitVec 3) (s : State) : Host.Outcome State Fault Refusal :=
  execSlot s (packForm s t d a p 8 (fun v => satS v 8))

/-- VPACKS_U8_I32 (R184). Saturating narrowing to unsigned 8-bit into one part. -/
def execVpacksU8I32 (t : BitVec 3) (d : BitVec 9) (a : BitVec 9) (p : BitVec 3) (s : State) : Host.Outcome State Fault Refusal :=
  execSlot s (packForm s t d a p 8 (fun v => satU v 8))

/-- VROTG (R186). Rotates lanes within each lane group by an immediate. -/
def execVrotg (t : BitVec 3) (d : BitVec 9) (a : BitVec 9) (k : BitVec 4) (s : State) : Host.Outcome State Fault Refusal :=
  let va := elems 32 (s.rq a.toNat)
  execSlot s (viResult t d a false 2
    (entryOf 32 ((rangeFrom 0 64).map (fun i => va.getD (16 * (i / 16) + (i + 16 - k.toNat) % 16) 0))))

/-- VROT (R186). Rotates lanes across all 64 by the broadcast amount. -/
def execVrot (t : BitVec 3) (d : BitVec 9) (a : BitVec 9) (p : BitVec 1) (m : BitVec 4) (s : State) : Host.Outcome State Fault Refusal :=
  let va := elems 32 (s.rq a.toNat)
  execSlot s (vmLanes s t d a p m 3 ((rangeFrom 0 64).map (fun i => va.getD ((i + 64 - s.bc32 % 64) % 64) 0)))

/-- VBCAST (R186). Broadcasts one lane, chosen by the broadcast scalar, to every lane. -/
def execVbcast (t : BitVec 3) (d : BitVec 9) (a : BitVec 9) (p : BitVec 1) (m : BitVec 4) (s : State) : Host.Outcome State Fault Refusal :=
  let va := elems 32 (s.rq a.toNat)
  execSlot s (vmLanes s t d a p m 2 (va.map (fun _ => va.getD (s.bc32 % 64) 0)))

/-- VPERM (R186). Permutes lanes by indices from the popped destination head. -/
def execVperm (t : BitVec 3) (d : BitVec 9) (a : BitVec 9) (p : BitVec 1) (m : BitVec 4) (s : State) : Host.Outcome State Fault Refusal :=
  let va := elems 32 (s.rq a.toNat)
  execSlot s { pushForm t [(a.toNat, p = 0), (d.toNat, true)] d.toNat 3
    (entryOf 32 (laneSelect (s.rm m) 0 va ((elems 32 (s.rq d.toNat)).map (fun x => va.getD (x % 64) 0)))) with
    reads := [.mask m.toNat] }

/-- VREDADD_I32 (R187). Integer sum reduction with a carry. -/
def execVredaddI32 (t : BitVec 3) (d : BitVec 9) (a : BitVec 9) (p : BitVec 1) (m : BitVec 4) (s : State) : Host.Outcome State Fault Refusal :=
  execSlot s (reduceForm s t d a p m 6 0 (onBits 32 aluAdd))

/-- VREDADD_F32 (R187). FP32 tree sum reduction with a carry. -/
def execVredaddF32 (t : BitVec 3) (d : BitVec 9) (a : BitVec 9) (p : BitVec 1) (m : BitVec 4) (s : State) : Host.Outcome State Fault Refusal :=
  execSlot s (reduceForm s t d a p m 12 0x80000000 f32Add)

/-- VREDMAX_F32 (R187). FP32 maximum reduction with a carry. -/
def execVredmaxF32 (t : BitVec 3) (d : BitVec 9) (a : BitVec 9) (p : BitVec 1) (m : BitVec 4) (s : State) : Host.Outcome State Fault Refusal :=
  execSlot s (reduceForm s t d a p m 12 0xFF800000 f32Max)

/-- VSCANADD_F32 (R187). FP32 inclusive prefix sum with a carry. -/
def execVscanaddF32 (t : BitVec 3) (d : BitVec 9) (a : BitVec 9) (p : BitVec 1) (m : BitVec 4) (s : State) : Host.Outcome State Fault Refusal :=
  execSlot s (scanForm s t d a p m 12 0x80000000 f32Add)

/-- VMAND (R188). AND of two lane masks. -/
def execVmand (t : BitVec 3) (d : BitVec 4) (a : BitVec 4) (b : BitVec 4) (s : State) : Host.Outcome State Fault Refusal :=
  execSlot s (vmaskForm t d [a, b] (s.rm a &&& s.rm b))

/-- VMOR (R188). OR of two lane masks. -/
def execVmor (t : BitVec 3) (d : BitVec 4) (a : BitVec 4) (b : BitVec 4) (s : State) : Host.Outcome State Fault Refusal :=
  execSlot s (vmaskForm t d [a, b] (s.rm a ||| s.rm b))

/-- VMXOR (R188). XOR of two lane masks. -/
def execVmxor (t : BitVec 3) (d : BitVec 4) (a : BitVec 4) (b : BitVec 4) (s : State) : Host.Outcome State Fault Refusal :=
  execSlot s (vmaskForm t d [a, b] (s.rm a ^^^ s.rm b))

/-- VMANDN (R188). AND NOT of two lane masks. -/
def execVmandn (t : BitVec 3) (d : BitVec 4) (a : BitVec 4) (b : BitVec 4) (s : State) : Host.Outcome State Fault Refusal :=
  execSlot s (vmaskForm t d [a, b] (s.rm a &&& ~~~(s.rm b)))

/-- VMNOT (R188). Complement of a lane mask. -/
def execVmnot (t : BitVec 3) (d : BitVec 4) (a : BitVec 4) (s : State) : Host.Outcome State Fault Refusal :=
  execSlot s (vmaskForm t d [a] (~~~(s.rm a)))

/-- VMGET (R189). Copies a lane mask to a scalar. -/
def execVmget (t : BitVec 3) (s' : BitVec 6) (m : BitVec 4) (s : State) : Host.Outcome State Fault Refusal :=
  execSlot s (maskToScalar t s' m (s.rm m))

/-- VMSET (R189). Sets a lane mask from a scalar. -/
def execVmset (t : BitVec 3) (s' : BitVec 6) (m : BitVec 4) (s : State) : Host.Outcome State Fault Refusal :=
  execSlot s { SlotOut.empty 3 t.toNat with reads := [.scalar s'.toNat], lands := landMask m 1 (s.rs s') }

/-- VMCNT (R189). Counts the set bits of a lane mask. -/
def execVmcnt (t : BitVec 3) (s' : BitVec 6) (m : BitVec 4) (s : State) : Host.Outcome State Fault Refusal :=
  execSlot s (maskToScalar t s' m (BitVec.ofNat 64 (popCount 64 (s.rm m).toNat)))

/-- VMFIRST (R189). Gives the lowest set lane of a mask, or 64. -/
def execVmfirst (t : BitVec 3) (s' : BitVec 6) (m : BitVec 4) (s : State) : Host.Outcome State Fault Refusal :=
  execSlot s (maskToScalar t s' m (BitVec.ofNat 64 (trailingZeros 64 (s.rm m).toNat)))

/-- VMFROMQ (R189). Sets a mask bit for each non-zero lane of a queue head. -/
def execVmfromq (t : BitVec 3) (v : BitVec 9) (p : BitVec 1) (m : BitVec 4) (s : State) : Host.Outcome State Fault Refusal :=
  execSlot s { SlotOut.empty 3 t.toNat with
    qreads := [(v.toNat, p = 0)],
    lands := landMask m 1 (maskOf ((elems 32 (s.rq v.toNat)).map (fun x => x != 0))) }

/-- VMTOQ (R189). Pushes a mask expanded to all-ones or zero lanes. -/
def execVmtoq (t : BitVec 3) (v : BitVec 9) (m : BitVec 4) (s : State) : Host.Outcome State Fault Refusal :=
  execSlot s { pushForm t [] v.toNat 1
    (entryOf 32 ((rangeFrom 0 64).map (fun i => if maskBit (s.rm m) i then 0xFFFFFFFF else 0))) with reads := [.mask m.toNat] }

/-- VLANE_U32 (R190). Copies one lane zero-extended into a scalar. -/
def execVlaneU32 (t : BitVec 3) (v : BitVec 9) (p : BitVec 1) (s' : BitVec 6) (l : BitVec 4) (h : BitVec 2) (s : State) : Host.Outcome State Fault Refusal :=
  let x := (elems 32 (s.rq v.toNat)).getD (16 * h.toNat + l.toNat) 0
  execSlot s { SlotOut.empty 3 t.toNat with qreads := [(v.toNat, p = 0)], lands := landScalar s' 2 (BitVec.ofNat 64 x) }

/-- VLANE_I32 (R190). Copies one lane sign-extended into a scalar. -/
def execVlaneI32 (t : BitVec 3) (v : BitVec 9) (p : BitVec 1) (s' : BitVec 6) (l : BitVec 4) (h : BitVec 2) (s : State) : Host.Outcome State Fault Refusal :=
  let x := (elems 32 (s.rq v.toNat)).getD (16 * h.toNat + l.toNat) 0
  execSlot s { SlotOut.empty 3 t.toNat with qreads := [(v.toNat, p = 0)], lands := landScalar s' 2 (toBits 64 (sext x 32)) }

/-- VSPLAT_U32 (R191). Pushes an entry with every lane set from a scalar. -/
def execVsplatU32 (t : BitVec 3) (v : BitVec 9) (s' : BitVec 6) (s : State) : Host.Outcome State Fault Refusal :=
  execSlot s (splatForm s t v s' 32)

/-- VSPLAT_U16 (R191). Pushes an entry with every 16-bit element set. -/
def execVsplatU16 (t : BitVec 3) (v : BitVec 9) (s' : BitVec 6) (s : State) : Host.Outcome State Fault Refusal :=
  execSlot s (splatForm s t v s' 16)

/-- VSPLAT_U8 (R191). Pushes an entry with every 8-bit element set. -/
def execVsplatU8 (t : BitVec 3) (v : BitVec 9) (s' : BitVec 6) (s : State) : Host.Outcome State Fault Refusal :=
  execSlot s (splatForm s t v s' 8)

/-- VTRD (R191). Pushes one 256-byte chunk of a tile register into a queue. -/
def execVtrd (t : BitVec 3) (v : BitVec 9) (s' : BitVec 6) (u : BitVec 4) (s : State) : Host.Outcome State Fault Refusal :=
  let k := s.rs s'
  execSlot s { pushForm t [] v.toNat 4 (BitVec.ofNat 2048 ((s.curCore.tileOf u.toNat).toNat >>> (2048 * k.toNat))) with
    reads := [.scalar s'.toNat], causes := chunkCauses k, hold := s.curCore.tileHeld s.now u.toNat false,
    effs := [.busy (.tileRead u.toNat) 1 false] }

/-- VTWR (R191). Writes a queue head into one 256-byte chunk of a tile. -/
def execVtwr (t : BitVec 3) (v : BitVec 9) (p : BitVec 1) (s' : BitVec 6) (u : BitVec 4) (s : State) : Host.Outcome State Fault Refusal :=
  let k := s.rs s'
  execSlot s { SlotOut.empty 3 t.toNat with
    qreads := [(v.toNat, p = 0)], reads := [.scalar s'.toNat], causes := chunkCauses k,
    hold := s.curCore.tileHeld s.now u.toNat true,
    lands := (4, .tile u.toNat (256 * k.toNat) 256 ((s.rq v.toNat).setWidth 101376)) :: landFlags (2 ^ u.toNat),
    effs := [.busy (.tileWrite u.toNat) 5 false] }

end Sys2Proof.Machine
end

