-- ==== Sys2Proof/Machine/Brine.lean ====
section
/-! DEFINITION. The B slot: pans, dissolves, stream products, re-salts, counts and draws (R225 to R248). -/

namespace Sys2Proof.Machine

/-! ## Streams (R226, R227) -/

/-- The stream length of a length code. -/
def streamLength (code : Nat) : Nat := 64 <<< code

/-- The lanes of a brine register, 1,024 bits each (R227). -/
def brineLanes (b : BitVec 65536) : List Nat := splitPieces 1024 64 b.toNat

/-- A brine register from its lanes. -/
def brineOf (lanes : List Nat) : BitVec 65536 := BitVec.ofNat 65536 (joinPieces 1024 lanes)

/-- The parts that a length has (R242). -/
def partCount (code : Nat) : Nat := if code = 4 then 1 else 512 / streamLength code

/-- One sub-stream of L bits: bit k is set when u exceeds the pan value k places after the start (R242). -/
def dissolveBits (value : Nat → Nat) (u len : Nat) : Nat :=
  joinPieces 1 ((rangeFrom 0 len).map (fun k => if value k < u then 1 else 0))

/-- A B slot that reads the listed brine registers. -/
def brineForm (t : BitVec 3) (reads : List (BitVec 4)) : SlotOut :=
  { SlotOut.empty 7 t.toNat with reads := reads.map (fun r => .brine r.toNat) }

/-- The landings of a brine result: the data after `lat` plies, the tags at commit (R228, R237). -/
def landBrine (d : BitVec 4) (lat : Nat) (v : BitVec 65536) (len : BitVec 3) (mask : BitVec 16) : List (Nat × Land) :=
  [(lat, .brine d.toNat v), (0, .brineTags d.toNat len mask)]

/-- The pan mask of one pan. -/
def onePan (n : BitVec 4) : BitVec 16 := BitVec.ofNat 16 (2 ^ n.toNat)

/-- STREAM_LENGTH with a subcode (R248). -/
def lengthCause (sub tval : Nat) : Cause := ⟨0x11, sub, BitVec.ofNat 64 tval⟩

/-! ## Dissolve (R242) -/

/-- The 10-bit fraction of an element, unipolar or bipolar. -/
def salinityOf (bipolar : Bool) (e : Nat) : Nat :=
  if bipolar then
    let v := sext e 16 + 512
    if v < 0 then 0 else if 1024 < v then 1024 else v.toNat
  else min e 1024

/-- The lane that a dissolve leaves: sub-streams 2 P and 2 P + 1 filled, or sub-stream 0 at the full length. -/
def dissolveLane (s : State) (bipolar : Bool) (pan code part : Nat) (i old e0 e1 : Nat) : Nat :=
  let len := streamLength code
  let piece (h e : Nat) : Nat := dissolveBits (fun k => s.panAt pan (h * len + k) i) (salinityOf bipolar e) len
  let one := putField old (2 * part * len) len (piece 0 e0)
  if code = 4 then one else putField one ((2 * part + 1) * len) len (piece 1 e1)

/-- Pairs of consecutive elements. -/
def pairs : List Nat → List (Nat × Nat)
  | x :: y :: xs => (x, y) :: pairs xs
  | _ => []

/-- BDSLV and BDSLV.BI. -/
def dissolveSlot (s : State) (t : BitVec 3) (d : BitVec 4) (v : BitVec 9) (p : BitVec 1) (n : BitVec 4) (k : BitVec 3)
    (bipolar : Bool) : SlotOut :=
  let c := s.curCore
  let code := c.blenc.toNat
  let part := k.toNat
  let old := if part = 0 then (0 : BitVec 65536) else c.breg d.toNat
  let lanes := List.zipWith (fun i (x : Nat × Nat × Nat) => dissolveLane s bipolar n.toNat code part i x.1 x.2.1 x.2.2)
    (rangeFrom 0 64) (List.zip (brineLanes old) (pairs (elems 16 (s.rq v.toNat))))
  let tag := c.lenTag d.toNat
  { brineForm t (if part = 0 then [] else [d]) with
    qreads := [(v.toNat, p = 0)],
    causes :=
      if partCount code ≤ part then [lengthCause 2 (code + part <<< 8)]
      else if 0 < part && tag != c.blenc then [lengthCause 1 (code + tag.toNat <<< 3 + part <<< 8)] else [],
    draws := [(n.toNat, if code = 4 then 1024 else 2 * streamLength code)],
    lands := landBrine d 2 (brineOf lanes) c.blenc (if part = 0 then onePan n else c.panMask d.toNat ||| onePan n) }

/-! ## Products and selections (R236, R243) -/

/-- The length check over the registers read, in the order A, B, S. -/
def lengthCauses (c : Core) (regs : List (BitVec 4)) : List Cause :=
  let tags := regs.map (fun r => (c.lenTag r.toNat).toNat)
  if tags.all (fun x => x = tags.headD 0) then [] else [lengthCause 0 (joinPieces 3 tags)]

/-- CORRELATED with a subcode; TVAL holds the masks of A, B and S. -/
def correlated (c : Core) (sub : Nat) (regs : List (BitVec 4)) (bad : Bool) : List Cause :=
  if bad then [⟨0x12, sub, BitVec.ofNat 64 (joinPieces 16 (regs.map (fun r => (c.panMask r.toNat).toNat)))⟩] else []

/-- A bitwise stream operation: the registers read in the order A, B, S, the correlation check, the result and its
mask; the result takes the common length tag. -/
def streamSlot (s : State) (t : BitVec 3) (d : BitVec 4) (regs : List (BitVec 4)) (bad : List Cause) (v : BitVec 65536)
    (mask : BitVec 16) : SlotOut :=
  let c := s.curCore
  { brineForm t regs with
    causes := lengthCauses c regs ++ bad,
    lands := landBrine d 1 v (c.lenTag (regs.headD 0).toNat) mask }

/-- The data and the mask of a brine register of the bundle being issued. -/
def State.rb (s : State) (r : BitVec 4) : BitVec 65536 := s.curCore.breg r.toNat
def State.rmask (s : State) (r : BitVec 4) : BitVec 16 := s.curCore.panMask r.toNat

/-! ## Re-salt (R244) -/

/-- The lane of a re-salt: every sub-stream drawn anew with the salinity of the old one. -/
def resaltLane (s : State) (pan code i old : Nat) : Nat :=
  let len := streamLength code
  let count := 1024 / len
  joinPieces len ((List.zip (rangeFrom 0 count) (splitPieces len count old)).map (fun x =>
    dissolveBits (fun k => s.panAt pan (x.1 * len + k) i) (popCount len x.2 * count) len))

/-! ## Crystallize (R245) -/

/-- The ones of every whole lane. -/
def laneCounts (b : BitVec 65536) : List Nat := (brineLanes b).map (popCount 1024)

/-- The counts of sub-streams 2 P and 2 P + 1 of every lane, in element order; none at the full length for the second. -/
def partCounts (b : BitVec 65536) (code part : Nat) : List (List (Option Nat)) :=
  let len := streamLength code
  (brineLanes b).map (fun x =>
    let one (h : Nat) : Option Nat :=
      if code = 4 && h = 1 then none else some (popCount len (field x ((2 * part + h + 1) * len - 1) ((2 * part + h) * len)))
    [one 0, one 1])

/-- A crystallize form: the entry pushed, and whether V is popped and read. -/
def crystalSlot (t : BitVec 3) (a : BitVec 4) (v : BitVec 9) (readV : Bool) (bad : List Cause) (r : Entry) : SlotOut :=
  { brineForm t [a] with
    qreads := if readV then [(v.toNat, true)] else [], qdests := [v.toNat], causes := bad,
    pushes := pushEntry v.toNat 3 r }

/-- The part check of modes 2 and 3, with the length tag of A (R245). -/
def partCauses (s : State) (a : BitVec 4) (k : BitVec 3) : List Cause :=
  let code := (s.curCore.lenTag a.toNat).toNat
  if partCount code ≤ k.toNat then [lengthCause 2 (code + k.toNat <<< 8)] else []

/-! ## Draws (R246, R247) -/

/-- A draw into a mask. -/
def drawSlot (t : BitVec 3) (m : BitVec 4) (v : BitVec 9) (p : BitVec 1) (n : BitVec 4) (lat : Nat) (r : Word) : SlotOut :=
  { SlotOut.empty 7 t.toNat with
    qreads := [(v.toNat, p = 0)], draws := [(n.toNat, 1)], lands := landMask m lat r }

/-- The lane that a total of weights passes `t` at: the smallest with a running sum above it. -/
def chooseLane : Nat → Nat → Nat → List Nat → Nat
  | _, _, _, [] => 0
  | i, acc, t, c :: cs => if t < acc + c then i else chooseLane (i + 1) (acc + c) t cs

/-- The mask bits of one lane group of a categorical draw. -/
def categoryBits (u : Nat) (ws : List Nat) : Nat :=
  let total := ws.foldl (fun a x => a + x) 0
  if total = 0 then 0 else 2 ^ chooseLane 0 0 (u * total / 1024) ws

/-! ## Meanings -/

/-- PSEED (R241). Sets a pan's seed and zeroes its phase. -/
def execPseed (t : BitVec 3) (n : BitVec 4) (s' : BitVec 6) (s : State) : Host.Outcome State Fault Refusal :=
  execSlot s { SlotOut.empty 7 t.toNat with
    reads := [.scalar s'.toNat],
    lands := [(0, .panSeed n.toNat (s.rs s'))] }

/-- PAUX (R241). Sets a pan's scramble and phase. -/
def execPaux (t : BitVec 3) (n : BitVec 4) (s' : BitVec 6) (s : State) : Host.Outcome State Fault Refusal :=
  let v := (s.rs s').toNat
  execSlot s { SlotOut.empty 7 t.toNat with
    reads := [.scalar s'.toNat],
    lands := [(0, .panAux n.toNat (BitVec.ofNat 10 (field v 25 16)) (BitVec.ofNat 16 (field v 15 0)))] }

/-- PGETS (R241). Reads a pan's seed into a scalar. -/
def execPgets (t : BitVec 3) (n : BitVec 4) (s' : BitVec 6) (s : State) : Host.Outcome State Fault Refusal :=
  execSlot s { SlotOut.empty 7 t.toNat with lands := landScalar s' 1 (s.curCore.panOf n.toNat).seed }

/-- PGETA (R241). Reads a pan's scramble and phase into a scalar; the values that earlier slots of its bundle draw count.
Log 106, DEDUCED. -/
def execPgeta (t : BitVec 3) (n : BitVec 4) (s' : BitVec 6) (s : State) : Host.Outcome State Fault Refusal :=
  let pan := s.curCore.panOf n.toNat
  let phase := (pan.ph.toNat + s.earlierDraws n.toNat) % 65536
  execSlot s { SlotOut.empty 7 t.toNat with
    lands := landScalar s' 1 (BitVec.ofNat 64 (pan.scr.toNat <<< 16 + phase)) }

/-- BSETLEN (R241). Sets BLEN, the stream length code for dissolves. -/
def execBsetlen (t : BitVec 3) (l : BitVec 3) (s : State) : Host.Outcome State Fault Refusal :=
  execSlot s { SlotOut.empty 7 t.toNat with lands := [(0, .blen l)] }

/-- BDITHER (R241). Sets the dither pan. -/
def execBdither (t : BitVec 3) (n : BitVec 4) (s : State) : Host.Outcome State Fault Refusal :=
  execSlot s { SlotOut.empty 7 t.toNat with lands := [(0, .dpan n)] }

/-- BDSLV (R242). Dissolves unipolar values from a queue into one part of a brine register. -/
def execBdslv (t : BitVec 3) (d : BitVec 4) (v : BitVec 9) (p : BitVec 1) (n : BitVec 4) (k : BitVec 3) (s : State) : Host.Outcome State Fault Refusal :=
  execSlot s (dissolveSlot s t d v p n k false)

/-- BDSLV_BI (R242). Dissolves bipolar values into one part of a brine register. -/
def execBdslvBi (t : BitVec 3) (d : BitVec 4) (v : BitVec 9) (p : BitVec 1) (n : BitVec 4) (k : BitVec 3) (s : State) : Host.Outcome State Fault Refusal :=
  execSlot s (dissolveSlot s t d v p n k true)

/-- BCRYST (R245). Pushes the count of ones of each lane of a brine register. -/
def execBcryst (t : BitVec 3) (a : BitVec 4) (v : BitVec 9) (s : State) : Host.Outcome State Fault Refusal :=
  execSlot s (crystalSlot t a v false [] (entryOf 32 (laneCounts (s.rb a))))

/-- BCRYSTA (R245). Adds each lane's count to the popped queue head and pushes it. -/
def execBcrysta (t : BitVec 3) (a : BitVec 4) (v : BitVec 9) (s : State) : Host.Outcome State Fault Refusal :=
  execSlot s (crystalSlot t a v true []
    (entryOf 32 (List.zipWith (fun x y => x + y) (elems 32 (s.rq v.toNat)) (laneCounts (s.rb a)))))

/-- BCRYSTP (R245). Pushes per-sub-stream counts of one part. -/
def execBcrystp (t : BitVec 3) (a : BitVec 4) (v : BitVec 9) (k : BitVec 3) (s : State) : Host.Outcome State Fault Refusal :=
  let code := (s.curCore.lenTag a.toNat).toNat
  execSlot s (crystalSlot t a v false (partCauses s a k)
    (entryOf 16 ((partCounts (s.rb a) code k.toNat).flatten.map (fun x => x.getD 0))))

/-- BCRYSTPA (R245). Accumulates per-sub-stream counts of one part into the popped head. -/
def execBcrystpa (t : BitVec 3) (a : BitVec 4) (v : BitVec 9) (k : BitVec 3) (s : State) : Host.Outcome State Fault Refusal :=
  let code := (s.curCore.lenTag a.toNat).toNat
  execSlot s (crystalSlot t a v true (partCauses s a k)
    (entryOf 16 (List.zipWith (fun x (y : Option Nat) => x + y.getD 0) (elems 16 (s.rq v.toNat))
      (partCounts (s.rb a) code k.toNat).flatten)))

/-- BRESALT (R244). Replaces each sub-stream with a fresh one of equal salinity from a pan. -/
def execBresalt (t : BitVec 3) (d : BitVec 4) (a : BitVec 4) (n : BitVec 4) (s : State) : Host.Outcome State Fault Refusal :=
  let tag := s.curCore.lenTag a.toNat
  execSlot s { brineForm t [a] with
    draws := [(n.toNat, 1024)],
    lands := landBrine d 3 (brineOf (List.zipWith (fun i x => resaltLane s n.toNat tag.toNat i x) (rangeFrom 0 64)
      (brineLanes (s.rb a)))) tag (onePan n) }

/-- BAND (R243). Bitwise AND of two independent streams, a unipolar product. -/
def execBand (t : BitVec 3) (d : BitVec 4) (a : BitVec 4) (b : BitVec 4) (s : State) : Host.Outcome State Fault Refusal :=
  execSlot s (streamSlot s t d [a, b] (correlated s.curCore 0 [a, b] (s.rmask a &&& s.rmask b != 0))
    (s.rb a &&& s.rb b) (s.rmask a ||| s.rmask b))

/-- BXNOR (R243). Bitwise XNOR of two independent streams, a bipolar product. -/
def execBxnor (t : BitVec 3) (d : BitVec 4) (a : BitVec 4) (b : BitVec 4) (s : State) : Host.Outcome State Fault Refusal :=
  execSlot s (streamSlot s t d [a, b] (correlated s.curCore 1 [a, b] (s.rmask a &&& s.rmask b != 0))
    (~~~(s.rb a ^^^ s.rb b)) (s.rmask a ||| s.rmask b))

/-- BMUX (R243). Selects bits of A or B by a select stream. -/
def execBmux (t : BitVec 3) (d : BitVec 4) (a : BitVec 4) (b : BitVec 4) (s' : BitVec 4) (s : State) : Host.Outcome State Fault Refusal :=
  execSlot s (streamSlot s t d [a, b, s']
    (correlated s.curCore 2 [a, b, s'] (s.rmask s' &&& (s.rmask a ||| s.rmask b) != 0))
    ((s.rb s' &&& s.rb b) ||| (~~~(s.rb s') &&& s.rb a)) (s.rmask a ||| s.rmask b ||| s.rmask s'))

/-- BMIN (R243). AND of two streams from one pan, the minimum. -/
def execBmin (t : BitVec 3) (d : BitVec 4) (a : BitVec 4) (b : BitVec 4) (s : State) : Host.Outcome State Fault Refusal :=
  execSlot s (streamSlot s t d [a, b]
    (correlated s.curCore 3 [a, b] (s.rmask a != s.rmask b || popCount 16 (s.rmask a).toNat != 1))
    (s.rb a &&& s.rb b) (s.rmask a))

/-- BMAX (R243). OR of two streams from one pan, the maximum. -/
def execBmax (t : BitVec 3) (d : BitVec 4) (a : BitVec 4) (b : BitVec 4) (s : State) : Host.Outcome State Fault Refusal :=
  execSlot s (streamSlot s t d [a, b]
    (correlated s.curCore 3 [a, b] (s.rmask a != s.rmask b || popCount 16 (s.rmask a).toNat != 1))
    (s.rb a ||| s.rb b) (s.rmask a))

/-- BNOT (R243). Bitwise complement of a stream. -/
def execBnot (t : BitVec 3) (d : BitVec 4) (a : BitVec 4) (s : State) : Host.Outcome State Fault Refusal :=
  execSlot s (streamSlot s t d [a] [] (~~~(s.rb a)) (s.rmask a))

/-- BMOV (R243). Copies a brine register with its tags. -/
def execBmov (t : BitVec 3) (d : BitVec 4) (a : BitVec 4) (s : State) : Host.Outcome State Fault Refusal :=
  execSlot s (streamSlot s t d [a] [] (s.rb a) (s.rmask a))

/-- BBERN (R246). Draws one Bernoulli sample per lane into a mask. -/
def execBbern (t : BitVec 3) (m : BitVec 4) (v : BitVec 9) (p : BitVec 1) (n : BitVec 4) (s : State) : Host.Outcome State Fault Refusal :=
  execSlot s (drawSlot t m v p n 2 (maskOf (List.zipWith (fun i (x : Nat × Nat) =>
    s.panAt n.toNat 0 i < min x.1 1024) (rangeFrom 0 64) (pairs (elems 16 (s.rq v.toNat))))))

/-- BCAT (R247). Draws one weighted category per lane group into a mask. -/
def execBcat (t : BitVec 3) (m : BitVec 4) (v : BitVec 9) (p : BitVec 1) (n : BitVec 4) (s : State) : Host.Outcome State Fault Refusal :=
  let ws := elems 32 (s.rq v.toNat)
  execSlot s (drawSlot t m v p n 4 (BitVec.ofNat 64 (joinPieces 16 ((rangeFrom 0 4).map (fun g =>
    categoryBits (s.panAt n.toNat 0 (16 * g)) ((ws.drop (16 * g)).take 16))))))

end Sys2Proof.Machine
end

