-- ==== Sys2Proof/Machine/Launch.lean ====
section
/-! DEFINITION. A full launch of a core (R12, R120): by the host, by zload, or by a recovery restart. -/

namespace Sys2Proof.Machine

/-- The default capability of a core: its own scratchpad, read and write (R120). -/
def defaultCap (s : State) (n : Nat) : Cap :=
  let k := (s.pmap (chipOf n)).logicalCore (ownLogicalChip s n) (n % 1536)
  Cap.make true (0xFFFE <<< 48 + (k / 64) <<< 43 + (k % 64) <<< 37) 4194304 3 0 0

/-- What a launch names: entry, code range, registers and capabilities, drain table. -/
structure LaunchBlock where
  entry : Nat
  codeLo : Nat
  codeHi : Nat
  regs : Map Word
  caps : Map Cap
  dtbase : Nat
  dtlen : Nat

/-- A core as a full launch sets it: every control state register at its reset value but those the launch names, the
sequencer state of R12, and queues empty (R131). Tile, accumulator and brine data and queue slots stay, and so does what is
in flight. An announced pre-emption is forgotten with PRPLY. Log 49, DEDUCED. Log 139, DESIGN CHOICE. -/
def launchedCore (c : Core) (b : LaunchBlock) (c0 : Cap) (first : Nat) : Core :=
  { Core.reset with
    pc := BitVec.ofNat 22 b.entry, run := .running, codeLo := BitVec.ofNat 32 b.codeLo, codeHi := BitVec.ofNat 32 b.codeHi,
    s := b.regs, c := if b.caps.any (fun e => e.1 = 0) then b.caps else mapSet Cap.null b.caps 0 c0, nextIssue := first,
    dtbase := BitVec.ofNat 22 b.dtbase, dtlen := BitVec.ofNat 16 b.dtlen,
    q := c.q.map (fun e => (e.1, { e.2 with head := 0, count := 0 })),
    tile := c.tile, acc := c.acc, b := c.b, pend := c.pend, busy := c.busy, mmas := c.mmas, ops := c.ops }

/-- A full launch whose first bundle issues at ply `first`. Log 49, DEDUCED. -/
def fullLaunch (s : State) (n : Nat) (b : LaunchBlock) (first : Nat) : State :=
  s.setCore n (launchedCore (s.core n) b (defaultCap s n) first)

end Sys2Proof.Machine
end

