-- ==== Sys2Proof/Config.lean ====
section
/-! DEFINITION. What an implementation fixes, and the free values: constants without a body, of which no proof can
know anything. -/

namespace Sys2Proof.Config

/-- Plies by which an event of a counted operation falls after the earliest ply that its rule allows (R294, R336).
The argument is the counter of free values. Log 9, DESIGN CHOICE. -/
opaque countedDelay : Nat → Nat

/-- A granule of a push that its record never read, because the record started inside the 256 bytes (R330).
Log 24, DESIGN CHOICE. -/
opaque missingGranule : Nat → BitVec 512

/-- The CODE of the events of a source for which R485 states none, by SRC. Log 33, DESIGN CHOICE. -/
opaque eventCode : Nat → BitVec 16

/-- Arrival time of an exchange message in 1/256 ply (R430), by the counter of free values. Log 50, DESIGN CHOICE. -/
opaque arrivalTime : Nat → BitVec 72

/-- IDKEY, fused in a package (R481), and its energy meter PKGEJ, measured at a ply (R480). Log 12, DESIGN CHOICE. -/
opaque identityKey : Nat → BitVec 64
opaque energyMeter : Nat → Nat → BitVec 64

/-- The digest of the firmware image of a package (R488). Log 12, DESIGN CHOICE. -/
opaque firmwareDigest : Nat → BitVec 256

/-- The signature of an attestation (R488): package, nonce, firmware digest, BSTATE. Log 12, DESIGN CHOICE. -/
opaque signature : Nat → BitVec 256 → BitVec 256 → BitVec 3 → BitVec 62848

/-- Plies between the granules of a host transfer (R293, R484), by the counter of free values. Log 9, DESIGN CHOICE. -/
opaque hostDelay : Nat → Nat

/-- What a placement map image says (R484): the number of logical chips, chips, cores, states, groups, accounting tag.
Log 10, DESIGN CHOICE. -/
opaque imageChips : BitVec 4194304 → Nat
opaque imageChip : BitVec 4194304 → Map (Nat × Bool)
opaque imageCores : BitVec 4194304 → Map Nat
opaque imageStatus : BitVec 4194304 → Map Nat
opaque imageGroups : BitVec 4194304 → Map (List Nat)
opaque imageTag : BitVec 4194304 → BitVec 16

end Sys2Proof.Config
end

