-- ==== Sys2Proof/Decode.lean ====
section
/-! DEFINITION. The decoder, total on any bytes, and the encoder, both from the encoding tables of the manual.

A slot word with a reserved or extension major, or with a reserved operand value, decodes to `illegalOpcode`,
which names the slot, the subcode of R52 and the word.
The section is noncomputable only because Lean's compiled code holds no constructor number above 244;
the kernel evaluates every definition of it. -/

noncomputable section

namespace Sys2Proof

open Sys2Proof.Machine

/-- The `n`-bit field of a word whose lowest bit is `lo`. -/
def bv (n w lo : Nat) : BitVec n := BitVec.ofNat n (w >>> lo)

/-- A slot whose word is no instruction: slot number, subcode of R52, word. -/
def bad (cls sub w : Nat) : Instr := .illegalOpcode cls sub (BitVec.ofNat 48 w)

/-- The control state indices that the manual assigns (R33, R124, R141, R201, R233, R261, R339, R386). -/
def assignedIndex (x : Nat) : Bool :=
  x ≤ 0x06 || (0x10 ≤ x && x ≤ 0x14) || (0x20 ≤ x && x ≤ 0x25) || (0x28 ≤ x && x ≤ 0x2D) ||
  (0x30 ≤ x && x ≤ 0x5C) || (0x60 ≤ x && x ≤ 0x68) || (0x70 ≤ x && x ≤ 0x74) ||
  (0x80 ≤ x && x ≤ 0x91) || (0xA0 ≤ x && x ≤ 0xAE)

/-- Whether the target field of GSUB breaks the rules of its level (R379). -/
def gsubTargetBad (lvl imm : Nat) : Bool :=
  match lvl with
  | 0 => field imm 23 6 != 0
  | 1 => field imm 23 4 != 0
  | _ => imm != 0

/-- Major 0x00 of the C slot in plain form, by its variant field. -/
def decodeC00 (w : Nat) : Instr :=
  match field w 4 0 with
  | 0 => .addI64 (bv 3 w 29) (bv 6 w 17) (bv 6 w 11) (bv 6 w 5)
  | 1 => .subI64 (bv 3 w 29) (bv 6 w 17) (bv 6 w 11) (bv 6 w 5)
  | 2 => .andI64 (bv 3 w 29) (bv 6 w 17) (bv 6 w 11) (bv 6 w 5)
  | 3 => .orI64 (bv 3 w 29) (bv 6 w 17) (bv 6 w 11) (bv 6 w 5)
  | 4 => .xorI64 (bv 3 w 29) (bv 6 w 17) (bv 6 w 11) (bv 6 w 5)
  | 5 => .andnI64 (bv 3 w 29) (bv 6 w 17) (bv 6 w 11) (bv 6 w 5)
  | 6 => .sllI64 (bv 3 w 29) (bv 6 w 17) (bv 6 w 11) (bv 6 w 5)
  | 7 => .srlI64 (bv 3 w 29) (bv 6 w 17) (bv 6 w 11) (bv 6 w 5)
  | 8 => .sraI64 (bv 3 w 29) (bv 6 w 17) (bv 6 w 11) (bv 6 w 5)
  | 9 => .mulI64 (bv 3 w 29) (bv 6 w 17) (bv 6 w 11) (bv 6 w 5)
  | 10 => .mulhI64 (bv 3 w 29) (bv 6 w 17) (bv 6 w 11) (bv 6 w 5)
  | 11 => .mulhuI64 (bv 3 w 29) (bv 6 w 17) (bv 6 w 11) (bv 6 w 5)
  | 12 => .addsI64 (bv 3 w 29) (bv 6 w 17) (bv 6 w 11) (bv 6 w 5)
  | 13 => .subsI64 (bv 3 w 29) (bv 6 w 17) (bv 6 w 11) (bv 6 w 5)
  | 14 => .addsuI64 (bv 3 w 29) (bv 6 w 17) (bv 6 w 11) (bv 6 w 5)
  | 15 => .subsuI64 (bv 3 w 29) (bv 6 w 17) (bv 6 w 11) (bv 6 w 5)
  | 16 => .minI64 (bv 3 w 29) (bv 6 w 17) (bv 6 w 11) (bv 6 w 5)
  | 17 => .maxI64 (bv 3 w 29) (bv 6 w 17) (bv 6 w 11) (bv 6 w 5)
  | 18 => .minuI64 (bv 3 w 29) (bv 6 w 17) (bv 6 w 11) (bv 6 w 5)
  | 19 => .maxuI64 (bv 3 w 29) (bv 6 w 17) (bv 6 w 11) (bv 6 w 5)
  | 20 => if field w 10 5 ≠ 0 then bad 0 2 w else .clzI64 (bv 3 w 29) (bv 6 w 17) (bv 6 w 11)
  | 21 => if field w 10 5 ≠ 0 then bad 0 2 w else .ctzI64 (bv 3 w 29) (bv 6 w 17) (bv 6 w 11)
  | 22 => if field w 10 5 ≠ 0 then bad 0 2 w else .popcI64 (bv 3 w 29) (bv 6 w 17) (bv 6 w 11)
  | _ => bad 0 2 w

/-- Major 0x01 of the C slot in plain form, by its variant field. -/
def decodeC01 (w : Nat) : Instr :=
  match field w 4 0 with
  | 0 => .addI32 (bv 3 w 29) (bv 6 w 17) (bv 6 w 11) (bv 6 w 5)
  | 1 => .subI32 (bv 3 w 29) (bv 6 w 17) (bv 6 w 11) (bv 6 w 5)
  | 2 => .andI32 (bv 3 w 29) (bv 6 w 17) (bv 6 w 11) (bv 6 w 5)
  | 3 => .orI32 (bv 3 w 29) (bv 6 w 17) (bv 6 w 11) (bv 6 w 5)
  | 4 => .xorI32 (bv 3 w 29) (bv 6 w 17) (bv 6 w 11) (bv 6 w 5)
  | 5 => .andnI32 (bv 3 w 29) (bv 6 w 17) (bv 6 w 11) (bv 6 w 5)
  | 6 => .sllI32 (bv 3 w 29) (bv 6 w 17) (bv 6 w 11) (bv 6 w 5)
  | 7 => .srlI32 (bv 3 w 29) (bv 6 w 17) (bv 6 w 11) (bv 6 w 5)
  | 8 => .sraI32 (bv 3 w 29) (bv 6 w 17) (bv 6 w 11) (bv 6 w 5)
  | 9 => .mulI32 (bv 3 w 29) (bv 6 w 17) (bv 6 w 11) (bv 6 w 5)
  | 10 => .mulhI32 (bv 3 w 29) (bv 6 w 17) (bv 6 w 11) (bv 6 w 5)
  | 11 => .mulhuI32 (bv 3 w 29) (bv 6 w 17) (bv 6 w 11) (bv 6 w 5)
  | 12 => .addsI32 (bv 3 w 29) (bv 6 w 17) (bv 6 w 11) (bv 6 w 5)
  | 13 => .subsI32 (bv 3 w 29) (bv 6 w 17) (bv 6 w 11) (bv 6 w 5)
  | 14 => .addsuI32 (bv 3 w 29) (bv 6 w 17) (bv 6 w 11) (bv 6 w 5)
  | 15 => .subsuI32 (bv 3 w 29) (bv 6 w 17) (bv 6 w 11) (bv 6 w 5)
  | 16 => .minI32 (bv 3 w 29) (bv 6 w 17) (bv 6 w 11) (bv 6 w 5)
  | 17 => .maxI32 (bv 3 w 29) (bv 6 w 17) (bv 6 w 11) (bv 6 w 5)
  | 18 => .minuI32 (bv 3 w 29) (bv 6 w 17) (bv 6 w 11) (bv 6 w 5)
  | 19 => .maxuI32 (bv 3 w 29) (bv 6 w 17) (bv 6 w 11) (bv 6 w 5)
  | 20 => if field w 10 5 ≠ 0 then bad 0 2 w else .clzI32 (bv 3 w 29) (bv 6 w 17) (bv 6 w 11)
  | 21 => if field w 10 5 ≠ 0 then bad 0 2 w else .ctzI32 (bv 3 w 29) (bv 6 w 17) (bv 6 w 11)
  | 22 => if field w 10 5 ≠ 0 then bad 0 2 w else .popcI32 (bv 3 w 29) (bv 6 w 17) (bv 6 w 11)
  | _ => bad 0 2 w

/-- Major 0x10 of the C slot in plain form, by its variant field. -/
def decodeC10 (w : Nat) : Instr :=
  match field w 4 0 with
  | 0 => .cmpEq (bv 3 w 29) (bv 6 w 17) (bv 6 w 11) (bv 6 w 5)
  | 1 => .cmpNe (bv 3 w 29) (bv 6 w 17) (bv 6 w 11) (bv 6 w 5)
  | 2 => .cmpLt (bv 3 w 29) (bv 6 w 17) (bv 6 w 11) (bv 6 w 5)
  | 3 => .cmpGe (bv 3 w 29) (bv 6 w 17) (bv 6 w 11) (bv 6 w 5)
  | 4 => .cmpLtu (bv 3 w 29) (bv 6 w 17) (bv 6 w 11) (bv 6 w 5)
  | 5 => .cmpGeu (bv 3 w 29) (bv 6 w 17) (bv 6 w 11) (bv 6 w 5)
  | _ => bad 0 2 w

/-- Major 0x11 of the C slot in plain form, by its variant field. -/
def decodeC11 (w : Nat) : Instr :=
  match field w 4 0 with
  | 0 => .cmovNz (bv 3 w 29) (bv 6 w 17) (bv 6 w 11) (bv 6 w 5)
  | 1 => .cmovZ (bv 3 w 29) (bv 6 w 17) (bv 6 w 11) (bv 6 w 5)
  | 2 => .cmovLt (bv 3 w 29) (bv 6 w 17) (bv 6 w 11) (bv 6 w 5)
  | 3 => .cmovGe (bv 3 w 29) (bv 6 w 17) (bv 6 w 11) (bv 6 w 5)
  | _ => bad 0 2 w

/-- Major 0x1B of the C slot in plain form, by its variant field. -/
def decodeC1B (w : Nat) : Instr :=
  match field w 4 0 with
  | 0 => if field w 22 17 ≠ 0 ∨ field w 10 5 ≠ 0 then bad 0 2 w else .jr (bv 3 w 29) (bv 6 w 11)
  | 1 => if field w 10 5 ≠ 0 then bad 0 2 w else .callr (bv 3 w 29) (bv 6 w 17) (bv 6 w 11)
  | _ => bad 0 2 w

/-- Major 0x1E of the C slot in plain form, by its variant field. -/
def decodeC1E (w : Nat) : Instr :=
  match field w 4 0 with
  | 0 => if field w 22 5 ≠ 0 then bad 0 2 w else .endloop (bv 3 w 29)
  | 1 => if field w 22 5 ≠ 0 then bad 0 2 w else .lpop (bv 3 w 29)
  | 2 => if field w 22 5 ≠ 0 then bad 0 2 w else .tret (bv 3 w 29)
  | 3 => if field w 22 5 ≠ 0 then bad 0 2 w else .yield (bv 3 w 29)
  | 4 => if field w 22 17 ≠ 0 then bad 0 2 w else .trap (bv 3 w 29) (bv 6 w 11) (bv 6 w 5)
  | 5 => if field w 22 5 ≠ 0 then bad 0 2 w else .fenceSeq (bv 3 w 29)
  | _ => bad 0 2 w

/-- The C slot in plain form (R69, R100-R113). Reserved majors, extension majors and reserved operand values
become `illegalOpcode` with their subcode of R52. -/
def decodeC (w : Nat) : Instr :=
  match field w 28 23 with
  | 0 => decodeC00 w
  | 1 => decodeC01 w
  | 2 => .addiI64 (bv 3 w 29) (bv 6 w 17) (bv 6 w 11) (bv 11 w 0)
  | 3 => .addiI32 (bv 3 w 29) (bv 6 w 17) (bv 6 w 11) (bv 11 w 0)
  | 4 => .andiI64 (bv 3 w 29) (bv 6 w 17) (bv 6 w 11) (bv 11 w 0)
  | 5 => .oriI64 (bv 3 w 29) (bv 6 w 17) (bv 6 w 11) (bv 11 w 0)
  | 6 => .xoriI64 (bv 3 w 29) (bv 6 w 17) (bv 6 w 11) (bv 11 w 0)
  | 7 => if 64 ≤ field w 10 0 then bad 0 2 w else .slliI64 (bv 3 w 29) (bv 6 w 17) (bv 6 w 11) (bv 11 w 0)
  | 8 => if 64 ≤ field w 10 0 then bad 0 2 w else .srliI64 (bv 3 w 29) (bv 6 w 17) (bv 6 w 11) (bv 11 w 0)
  | 9 => if 64 ≤ field w 10 0 then bad 0 2 w else .sraiI64 (bv 3 w 29) (bv 6 w 17) (bv 6 w 11) (bv 11 w 0)
  | 10 => .addsiI64 (bv 3 w 29) (bv 6 w 17) (bv 6 w 11) (bv 11 w 0)
  | 16 => decodeC10 w
  | 17 => decodeC11 w
  | 18 => .cmpiLt (bv 3 w 29) (bv 6 w 17) (bv 6 w 11) (bv 11 w 0)
  | 19 => .cmpiEq (bv 3 w 29) (bv 6 w 17) (bv 6 w 11) (bv 11 w 0)
  | 20 => .movi (bv 3 w 29) (bv 6 w 17) (bv 17 w 0)
  | 21 => .movsh (bv 3 w 29) (bv 6 w 17) (bv 17 w 0)
  | 22 => if field w 16 11 ≠ 0 ∨ ¬ assignedIndex (field w 7 0) then bad 0 2 w else if field w 10 8 ≠ 0 then bad 0 3 w else .mfc (bv 3 w 29) (bv 6 w 17) (bv 8 w 0)
  | 23 => if field w 22 17 ≠ 0 ∨ ¬ assignedIndex (field w 7 0) then bad 0 2 w else if field w 10 8 ≠ 0 then bad 0 3 w else .mtc (bv 3 w 29) (bv 6 w 11) (bv 8 w 0)
  | 24 => .br (bv 3 w 29) (bv 6 w 17) (bv 3 w 14) (bv 14 w 0)
  | 25 => .jmp (bv 3 w 29) (bv 23 w 0)
  | 26 => .call (bv 3 w 29) (bv 23 w 0)
  | 27 => decodeC1B w
  | 28 => .loop (bv 3 w 29) (bv 6 w 17) (bv 17 w 0)
  | 29 => .loopi (bv 3 w 29) (bv 6 w 17) (bv 17 w 0)
  | 30 => decodeC1E w
  | _ => bad 0 (if 56 ≤ field w 28 23 then 1 else 0) w

/-- Major 0x00 of the A slot, by its variant field. -/
def decodeA00 (w : Nat) : Instr :=
  match field w 3 0 with
  | 0 => if field w 6 4 ≠ 0 then bad 1 2 w else .wstep (bv 3 w 7)
  | 1 => if field w 6 4 ≠ 0 then bad 1 2 w else .wstep1 (bv 3 w 7)
  | 2 => if field w 6 4 ≠ 0 then bad 1 2 w else .wback (bv 3 w 7)
  | 3 => if 6 ≤ field w 6 4 then bad 1 2 w else .wstepL (bv 3 w 7) (bv 3 w 4)
  | _ => bad 1 2 w

/-- Major 0x01 of the A slot, by its variant field. -/
def decodeA01 (w : Nat) : Instr :=
  match field w 0 0 with
  | 0 => .wget (bv 3 w 7) (bv 6 w 1)
  | _ => .wset (bv 3 w 7) (bv 6 w 1)

/-- Major 0x02 of the A slot, by its variant field. -/
def decodeA02 (w : Nat) : Instr :=
  match field w 0 0 with
  | 0 => .wtake (bv 3 w 7) (bv 6 w 1)
  | _ => .wtake1 (bv 3 w 7) (bv 6 w 1)

/-- Major 0x03 of the A slot, by its variant field. -/
def decodeA03 (w : Nat) : Instr :=
  match field w 0 0 with
  | 0 => .wtakeL (bv 3 w 7) (bv 6 w 1)
  | _ => bad 1 2 w

/-- The A slot (R70, R125). Reserved majors, extension majors and reserved operand values
become `illegalOpcode` with their subcode of R52. -/
def decodeA (w : Nat) : Instr :=
  match field w 15 10 with
  | 0 => decodeA00 w
  | 1 => decodeA01 w
  | 2 => decodeA02 w
  | 3 => decodeA03 w
  | _ => bad 1 (if 56 ≤ field w 15 10 then 1 else 0) w

/-- Major 0x08 of the L slot, by its variant field. -/
def decodeL08 (w : Nat) : Instr :=
  match field w 2 0 with
  | 0 => if 384 ≤ field w 22 14 ∨ bit w 13 then bad 2 2 w else .ldvW (bv 3 w 29) (bv 9 w 14) (bv 4 w 9) (bv 6 w 3)
  | 1 => if 384 ≤ field w 22 14 ∨ bit w 13 then bad 2 2 w else .ldvsW (bv 3 w 29) (bv 9 w 14) (bv 4 w 9) (bv 6 w 3)
  | 2 => if 384 ≤ field w 22 14 ∨ bit w 13 then bad 2 2 w else .ldvmW (bv 3 w 29) (bv 9 w 14) (bv 4 w 9) (bv 6 w 3)
  | 3 => if 384 ≤ field w 22 14 ∨ bit w 13 then bad 2 2 w else .ldvsmW (bv 3 w 29) (bv 9 w 14) (bv 4 w 9) (bv 6 w 3)
  | _ => bad 2 2 w

/-- Major 0x09 of the L slot, by its variant field. -/
def decodeL09 (w : Nat) : Instr :=
  match field w 2 0 with
  | 0 => if 384 ≤ field w 22 14 then bad 2 2 w else .stvW (bv 3 w 29) (bv 9 w 14) (bv 1 w 13) (bv 4 w 9) (bv 6 w 3)
  | 1 => if 384 ≤ field w 22 14 then bad 2 2 w else .stvsW (bv 3 w 29) (bv 9 w 14) (bv 1 w 13) (bv 4 w 9) (bv 6 w 3)
  | 2 => if 384 ≤ field w 22 14 then bad 2 2 w else .stvmW (bv 3 w 29) (bv 9 w 14) (bv 1 w 13) (bv 4 w 9) (bv 6 w 3)
  | 3 => if 384 ≤ field w 22 14 then bad 2 2 w else .stvsmW (bv 3 w 29) (bv 9 w 14) (bv 1 w 13) (bv 4 w 9) (bv 6 w 3)
  | _ => bad 2 2 w

/-- Major 0x10 of the L slot, by its variant field. -/
def decodeL10 (w : Nat) : Instr :=
  match field w 2 0 with
  | 0 => if 384 ≤ field w 22 14 then bad 2 2 w else .qpush (bv 3 w 29) (bv 9 w 14) (bv 1 w 13) (bv 4 w 9) (bv 6 w 3)
  | _ => bad 2 2 w

/-- Major 0x14 of the L slot, by its variant field. -/
def decodeL14 (w : Nat) : Instr :=
  match field w 8 0 with
  | 0 => .cld (bv 3 w 29) (bv 4 w 19) (bv 4 w 15) (bv 6 w 9)
  | _ => bad 2 2 w

/-- Major 0x15 of the L slot, by its variant field. -/
def decodeL15 (w : Nat) : Instr :=
  match field w 8 0 with
  | 0 => .cst (bv 3 w 29) (bv 4 w 19) (bv 4 w 15) (bv 6 w 9)
  | _ => bad 2 2 w

/-- Major 0x16 of the L slot, by its variant field. -/
def decodeL16 (w : Nat) : Instr :=
  match field w 8 0 with
  | 0 => .cbase (bv 3 w 29) (bv 4 w 19) (bv 4 w 15) (bv 6 w 9)
  | 1 => .clen (bv 3 w 29) (bv 4 w 19) (bv 4 w 15) (bv 6 w 9)
  | 2 => .cperms (bv 3 w 29) (bv 4 w 19) (bv 4 w 15) (bv 6 w 9)
  | 3 => .cspace (bv 3 w 29) (bv 4 w 19) (bv 4 w 15) (bv 6 w 9)
  | 4 => if field w 22 19 ≠ 0 then bad 2 2 w else .cgetb (bv 3 w 29) (bv 4 w 15) (bv 6 w 9)
  | 5 => if field w 22 19 ≠ 0 then bad 2 2 w else .cgeth (bv 3 w 29) (bv 4 w 15) (bv 6 w 9)
  | 6 => if field w 22 19 ≠ 0 then bad 2 2 w else .cgett (bv 3 w 29) (bv 4 w 15) (bv 6 w 9)
  | 7 => if field w 14 9 ≠ 0 then bad 2 2 w else .cmovc (bv 3 w 29) (bv 4 w 19) (bv 4 w 15)
  | 8 => if field w 18 9 ≠ 0 then bad 2 2 w else .cclr (bv 3 w 29) (bv 4 w 19)
  | _ => bad 2 2 w

/-- Major 0x17 of the L slot, by its variant field. -/
def decodeL17 (w : Nat) : Instr :=
  match field w 8 0 with
  | 0 => .cseal (bv 3 w 29) (bv 4 w 19) (bv 4 w 15) (bv 6 w 9)
  | 1 => .cunseal (bv 3 w 29) (bv 4 w 19) (bv 4 w 15) (bv 6 w 9)
  | _ => bad 2 2 w

/-- The L slot (R71, R118, R275-R286). Reserved majors, extension majors and reserved operand values
become `illegalOpcode` with their subcode of R52. -/
def decodeL (w : Nat) : Instr :=
  match field w 28 23 with
  | 0 => .ldB (bv 3 w 29) (bv 6 w 17) (bv 4 w 13) (bv 13 w 0)
  | 1 => .ldH (bv 3 w 29) (bv 6 w 17) (bv 4 w 13) (bv 13 w 0)
  | 2 => .ldW (bv 3 w 29) (bv 6 w 17) (bv 4 w 13) (bv 13 w 0)
  | 3 => .ldD (bv 3 w 29) (bv 6 w 17) (bv 4 w 13) (bv 13 w 0)
  | 4 => .stB (bv 3 w 29) (bv 6 w 17) (bv 4 w 13) (bv 13 w 0)
  | 5 => .stH (bv 3 w 29) (bv 6 w 17) (bv 4 w 13) (bv 13 w 0)
  | 6 => .stW (bv 3 w 29) (bv 6 w 17) (bv 4 w 13) (bv 13 w 0)
  | 7 => .stD (bv 3 w 29) (bv 6 w 17) (bv 4 w 13) (bv 13 w 0)
  | 8 => decodeL08 w
  | 9 => decodeL09 w
  | 16 => decodeL10 w
  | 17 => if 384 ≤ field w 22 14 ∨ 5 ≤ field w 2 0 then bad 2 2 w else .qpushRel (bv 3 w 29) (bv 9 w 14) (bv 1 w 13) (bv 4 w 9) (bv 6 w 3) (bv 3 w 0)
  | 20 => decodeL14 w
  | 21 => decodeL15 w
  | 22 => decodeL16 w
  | 23 => decodeL17 w
  | 24 => if 5 ≤ field w 6 4 then bad 2 2 w else if field w 1 0 ≠ 0 then bad 2 3 w else .aswapD (bv 3 w 29) (bv 6 w 17) (bv 4 w 13) (bv 6 w 7) (bv 3 w 4) (bv 2 w 2)
  | 25 => if 5 ≤ field w 6 4 ∨ bit w 17 then bad 2 2 w else if field w 1 0 ≠ 0 then bad 2 3 w else .acasD (bv 3 w 29) (bv 6 w 17) (bv 4 w 13) (bv 6 w 7) (bv 3 w 4) (bv 2 w 2)
  | 26 => if 5 ≤ field w 6 4 then bad 2 2 w else if field w 1 0 ≠ 0 then bad 2 3 w else .aaddD (bv 3 w 29) (bv 6 w 17) (bv 4 w 13) (bv 6 w 7) (bv 3 w 4) (bv 2 w 2)
  | 27 => if 5 ≤ field w 6 4 then bad 2 2 w else if field w 1 0 ≠ 0 then bad 2 3 w else .aminD (bv 3 w 29) (bv 6 w 17) (bv 4 w 13) (bv 6 w 7) (bv 3 w 4) (bv 2 w 2)
  | 28 => if 5 ≤ field w 6 4 then bad 2 2 w else if field w 1 0 ≠ 0 then bad 2 3 w else .amaxD (bv 3 w 29) (bv 6 w 17) (bv 4 w 13) (bv 6 w 7) (bv 3 w 4) (bv 2 w 2)
  | 29 => if 5 ≤ field w 6 4 then bad 2 2 w else if field w 1 0 ≠ 0 then bad 2 3 w else .aandD (bv 3 w 29) (bv 6 w 17) (bv 4 w 13) (bv 6 w 7) (bv 3 w 4) (bv 2 w 2)
  | 30 => if 5 ≤ field w 6 4 then bad 2 2 w else if field w 1 0 ≠ 0 then bad 2 3 w else .aorD (bv 3 w 29) (bv 6 w 17) (bv 4 w 13) (bv 6 w 7) (bv 3 w 4) (bv 2 w 2)
  | 31 => if 5 ≤ field w 6 4 then bad 2 2 w else if field w 1 0 ≠ 0 then bad 2 3 w else .axorD (bv 3 w 29) (bv 6 w 17) (bv 4 w 13) (bv 6 w 7) (bv 3 w 4) (bv 2 w 2)
  | 32 => if 5 ≤ field w 6 4 ∨ 2 ≤ field w 3 2 then bad 2 2 w else if field w 1 0 ≠ 0 then bad 2 3 w else .ldxD (bv 3 w 29) (bv 6 w 17) (bv 4 w 13) (bv 6 w 7) (bv 3 w 4) (bv 2 w 2)
  | 33 => if 5 ≤ field w 6 4 ∨ bit w 2 then bad 2 2 w else if field w 1 0 ≠ 0 then bad 2 3 w else .stxD (bv 3 w 29) (bv 6 w 17) (bv 4 w 13) (bv 6 w 7) (bv 3 w 4) (bv 2 w 2)
  | 34 => if 5 ≤ field w 10 8 then bad 2 2 w else if field w 7 0 ≠ 0 then bad 2 3 w else .fence (bv 3 w 29) (bv 6 w 17) (bv 6 w 11) (bv 3 w 8)
  | _ => bad 2 (if 56 ≤ field w 28 23 then 1 else 0) w

/-- Major 0x28 of the V slot, by its variant field. -/
def decodeV28 (w : Nat) : Instr :=
  match field w 4 3 with
  | 0 => if 384 ≤ field w 22 14 ∨ 384 ≤ field w 13 5 ∨ 5 ≤ field w 2 0 then bad 3 2 w else .vcvtF32I32 (bv 3 w 29) (bv 9 w 14) (bv 9 w 5) (bv 3 w 0)
  | 1 => if 384 ≤ field w 22 14 ∨ 384 ≤ field w 13 5 ∨ 5 ≤ field w 2 0 then bad 3 2 w else .vcvtF32U32 (bv 3 w 29) (bv 9 w 14) (bv 9 w 5) (bv 3 w 0)
  | _ => bad 3 2 w

/-- Major 0x29 of the V slot, by its variant field. -/
def decodeV29 (w : Nat) : Instr :=
  match field w 4 3 with
  | 0 => if 384 ≤ field w 22 14 ∨ 384 ≤ field w 13 5 ∨ 5 ≤ field w 2 0 then bad 3 2 w else .vcvtI32F32 (bv 3 w 29) (bv 9 w 14) (bv 9 w 5) (bv 3 w 0)
  | 1 => if 384 ≤ field w 22 14 ∨ 384 ≤ field w 13 5 ∨ 5 ≤ field w 2 0 then bad 3 2 w else .vcvtU32F32 (bv 3 w 29) (bv 9 w 14) (bv 9 w 5) (bv 3 w 0)
  | _ => bad 3 2 w

/-- Major 0x2A of the V slot, by its variant field. -/
def decodeV2A (w : Nat) : Instr :=
  match field w 4 4 with
  | 0 => if 384 ≤ field w 22 14 ∨ 384 ≤ field w 13 5 ∨ 5 ≤ field w 2 0 then bad 3 2 w else .vcvtBf16F32 (bv 3 w 29) (bv 9 w 14) (bv 9 w 5) (bv 1 w 3) (bv 3 w 0)
  | _ => if 384 ≤ field w 22 14 ∨ 384 ≤ field w 13 5 ∨ field w 2 0 ≠ 0 then bad 3 2 w else .vcvtF32Bf16 (bv 3 w 29) (bv 9 w 14) (bv 9 w 5) (bv 1 w 3)

/-- Major 0x2B of the V slot, by its variant field. -/
def decodeV2B (w : Nat) : Instr :=
  match field w 4 3 with
  | 0 => if 384 ≤ field w 22 14 ∨ 384 ≤ field w 13 5 ∨ 2 ≤ field w 2 0 then bad 3 2 w else .vpacksI16I32 (bv 3 w 29) (bv 9 w 14) (bv 9 w 5) (bv 3 w 0)
  | 1 => if 384 ≤ field w 22 14 ∨ 384 ≤ field w 13 5 ∨ 4 ≤ field w 2 0 then bad 3 2 w else .vpacksI8I32 (bv 3 w 29) (bv 9 w 14) (bv 9 w 5) (bv 3 w 0)
  | 2 => if 384 ≤ field w 22 14 ∨ 384 ≤ field w 13 5 ∨ 4 ≤ field w 2 0 then bad 3 2 w else .vpacksU8I32 (bv 3 w 29) (bv 9 w 14) (bv 9 w 5) (bv 3 w 0)
  | _ => bad 3 2 w

/-- Major 0x34 of the V slot, by its variant field. -/
def decodeV34 (w : Nat) : Instr :=
  match field w 14 10 with
  | 0 => if field w 5 0 ≠ 0 then bad 3 2 w else .vmand (bv 3 w 29) (bv 4 w 19) (bv 4 w 15) (bv 4 w 6)
  | 1 => if field w 5 0 ≠ 0 then bad 3 2 w else .vmor (bv 3 w 29) (bv 4 w 19) (bv 4 w 15) (bv 4 w 6)
  | 2 => if field w 5 0 ≠ 0 then bad 3 2 w else .vmxor (bv 3 w 29) (bv 4 w 19) (bv 4 w 15) (bv 4 w 6)
  | 3 => if field w 5 0 ≠ 0 then bad 3 2 w else .vmandn (bv 3 w 29) (bv 4 w 19) (bv 4 w 15) (bv 4 w 6)
  | 4 => if field w 9 0 ≠ 0 then bad 3 2 w else .vmnot (bv 3 w 29) (bv 4 w 19) (bv 4 w 15)
  | _ => bad 3 2 w

/-- Major 0x35 of the V slot, by its variant field. -/
def decodeV35 (w : Nat) : Instr :=
  match field w 2 0 with
  | 0 => if field w 22 13 ≠ 0 then bad 3 2 w else .vmget (bv 3 w 29) (bv 6 w 7) (bv 4 w 3)
  | 1 => if field w 22 13 ≠ 0 then bad 3 2 w else .vmset (bv 3 w 29) (bv 6 w 7) (bv 4 w 3)
  | 2 => if field w 22 13 ≠ 0 then bad 3 2 w else .vmcnt (bv 3 w 29) (bv 6 w 7) (bv 4 w 3)
  | 3 => if field w 22 13 ≠ 0 then bad 3 2 w else .vmfirst (bv 3 w 29) (bv 6 w 7) (bv 4 w 3)
  | 4 => if 384 ≤ field w 22 14 ∨ field w 12 7 ≠ 0 then bad 3 2 w else .vmfromq (bv 3 w 29) (bv 9 w 14) (bv 1 w 13) (bv 4 w 3)
  | 5 => if 384 ≤ field w 22 14 ∨ bit w 13 ∨ field w 12 7 ≠ 0 then bad 3 2 w else .vmtoq (bv 3 w 29) (bv 9 w 14) (bv 4 w 3)
  | _ => bad 3 2 w

/-- Major 0x36 of the V slot, by its variant field. -/
def decodeV36 (w : Nat) : Instr :=
  match field w 2 2 with
  | 0 => if 384 ≤ field w 22 14 then bad 3 2 w else .vlaneU32 (bv 3 w 29) (bv 9 w 14) (bv 1 w 13) (bv 6 w 7) (bv 4 w 3) (bv 2 w 0)
  | _ => if 384 ≤ field w 22 14 then bad 3 2 w else .vlaneI32 (bv 3 w 29) (bv 9 w 14) (bv 1 w 13) (bv 6 w 7) (bv 4 w 3) (bv 2 w 0)

/-- Major 0x37 of the V slot, by its variant field. -/
def decodeV37 (w : Nat) : Instr :=
  match field w 2 0 with
  | 0 => if 384 ≤ field w 22 14 ∨ bit w 13 ∨ field w 6 3 ≠ 0 then bad 3 2 w else .vsplatU32 (bv 3 w 29) (bv 9 w 14) (bv 6 w 7)
  | 1 => if 384 ≤ field w 22 14 ∨ bit w 13 ∨ field w 6 3 ≠ 0 then bad 3 2 w else .vsplatU16 (bv 3 w 29) (bv 9 w 14) (bv 6 w 7)
  | 2 => if 384 ≤ field w 22 14 ∨ bit w 13 ∨ field w 6 3 ≠ 0 then bad 3 2 w else .vsplatU8 (bv 3 w 29) (bv 9 w 14) (bv 6 w 7)
  | 3 => if 384 ≤ field w 22 14 ∨ bit w 13 then bad 3 2 w else .vtrd (bv 3 w 29) (bv 9 w 14) (bv 6 w 7) (bv 4 w 3)
  | 4 => if 384 ≤ field w 22 14 then bad 3 2 w else .vtwr (bv 3 w 29) (bv 9 w 14) (bv 1 w 13) (bv 6 w 7) (bv 4 w 3)
  | _ => bad 3 2 w

/-- The V slot (R72, R171). Reserved majors, extension majors and reserved operand values
become `illegalOpcode` with their subcode of R52. -/
def decodeV (w : Nat) : Instr :=
  match field w 28 23 with
  | 0 => if 6 ≤ field w 22 20 then bad 3 2 w else .vaddI32 (bv 3 w 29) (bv 3 w 20) (bv 1 w 19) (bv 1 w 18) (bv 6 w 12) (bv 6 w 6) (bv 6 w 0)
  | 1 => if 6 ≤ field w 22 20 then bad 3 2 w else .vsubI32 (bv 3 w 29) (bv 3 w 20) (bv 1 w 19) (bv 1 w 18) (bv 6 w 12) (bv 6 w 6) (bv 6 w 0)
  | 2 => if 6 ≤ field w 22 20 then bad 3 2 w else .vaddI16 (bv 3 w 29) (bv 3 w 20) (bv 1 w 19) (bv 1 w 18) (bv 6 w 12) (bv 6 w 6) (bv 6 w 0)
  | 3 => if 6 ≤ field w 22 20 then bad 3 2 w else .vsubI16 (bv 3 w 29) (bv 3 w 20) (bv 1 w 19) (bv 1 w 18) (bv 6 w 12) (bv 6 w 6) (bv 6 w 0)
  | 4 => if 6 ≤ field w 22 20 then bad 3 2 w else .vaddI8 (bv 3 w 29) (bv 3 w 20) (bv 1 w 19) (bv 1 w 18) (bv 6 w 12) (bv 6 w 6) (bv 6 w 0)
  | 5 => if 6 ≤ field w 22 20 then bad 3 2 w else .vaddsI32 (bv 3 w 29) (bv 3 w 20) (bv 1 w 19) (bv 1 w 18) (bv 6 w 12) (bv 6 w 6) (bv 6 w 0)
  | 6 => if 6 ≤ field w 22 20 then bad 3 2 w else .vaddsI16 (bv 3 w 29) (bv 3 w 20) (bv 1 w 19) (bv 1 w 18) (bv 6 w 12) (bv 6 w 6) (bv 6 w 0)
  | 7 => if 6 ≤ field w 22 20 then bad 3 2 w else .vaddsI8 (bv 3 w 29) (bv 3 w 20) (bv 1 w 19) (bv 1 w 18) (bv 6 w 12) (bv 6 w 6) (bv 6 w 0)
  | 8 => if 6 ≤ field w 22 20 then bad 3 2 w else .vsubsI32 (bv 3 w 29) (bv 3 w 20) (bv 1 w 19) (bv 1 w 18) (bv 6 w 12) (bv 6 w 6) (bv 6 w 0)
  | 9 => if 6 ≤ field w 22 20 then bad 3 2 w else .vmulI32 (bv 3 w 29) (bv 3 w 20) (bv 1 w 19) (bv 1 w 18) (bv 6 w 12) (bv 6 w 6) (bv 6 w 0)
  | 10 => if 6 ≤ field w 22 20 then bad 3 2 w else .vmulhI32 (bv 3 w 29) (bv 3 w 20) (bv 1 w 19) (bv 1 w 18) (bv 6 w 12) (bv 6 w 6) (bv 6 w 0)
  | 11 => if 6 ≤ field w 22 20 then bad 3 2 w else .vminI32 (bv 3 w 29) (bv 3 w 20) (bv 1 w 19) (bv 1 w 18) (bv 6 w 12) (bv 6 w 6) (bv 6 w 0)
  | 12 => if 6 ≤ field w 22 20 then bad 3 2 w else .vmaxI32 (bv 3 w 29) (bv 3 w 20) (bv 1 w 19) (bv 1 w 18) (bv 6 w 12) (bv 6 w 6) (bv 6 w 0)
  | 13 => if 384 ≤ field w 22 14 ∨ 384 ≤ field w 13 5 then bad 3 2 w else .vaddI32Bc (bv 3 w 29) (bv 9 w 14) (bv 9 w 5) (bv 1 w 4) (bv 4 w 0)
  | 14 => if 384 ≤ field w 22 14 ∨ 384 ≤ field w 13 5 then bad 3 2 w else .vmulI32Bc (bv 3 w 29) (bv 9 w 14) (bv 9 w 5) (bv 1 w 4) (bv 4 w 0)
  | 15 => if 384 ≤ field w 22 14 ∨ 384 ≤ field w 13 5 then bad 3 2 w else .vaddiI32 (bv 3 w 29) (bv 9 w 14) (bv 9 w 5) (bv 5 w 0)
  | 16 => if 6 ≤ field w 22 20 then bad 3 2 w else .vandU32 (bv 3 w 29) (bv 3 w 20) (bv 1 w 19) (bv 1 w 18) (bv 6 w 12) (bv 6 w 6) (bv 6 w 0)
  | 17 => if 6 ≤ field w 22 20 then bad 3 2 w else .vorU32 (bv 3 w 29) (bv 3 w 20) (bv 1 w 19) (bv 1 w 18) (bv 6 w 12) (bv 6 w 6) (bv 6 w 0)
  | 18 => if 6 ≤ field w 22 20 then bad 3 2 w else .vxorU32 (bv 3 w 29) (bv 3 w 20) (bv 1 w 19) (bv 1 w 18) (bv 6 w 12) (bv 6 w 6) (bv 6 w 0)
  | 19 => if 384 ≤ field w 22 14 ∨ 384 ≤ field w 13 5 then bad 3 2 w else .vandU32Bc (bv 3 w 29) (bv 9 w 14) (bv 9 w 5) (bv 1 w 4) (bv 4 w 0)
  | 20 => if 384 ≤ field w 22 14 ∨ 384 ≤ field w 13 5 then bad 3 2 w else .vxorU32Bc (bv 3 w 29) (bv 9 w 14) (bv 9 w 5) (bv 1 w 4) (bv 4 w 0)
  | 21 => if 384 ≤ field w 22 14 ∨ 384 ≤ field w 13 5 then bad 3 2 w else .vsllI32 (bv 3 w 29) (bv 9 w 14) (bv 9 w 5) (bv 5 w 0)
  | 22 => if 384 ≤ field w 22 14 ∨ 384 ≤ field w 13 5 then bad 3 2 w else .vsrlI32 (bv 3 w 29) (bv 9 w 14) (bv 9 w 5) (bv 5 w 0)
  | 23 => if 384 ≤ field w 22 14 ∨ 384 ≤ field w 13 5 then bad 3 2 w else .vsraI32 (bv 3 w 29) (bv 9 w 14) (bv 9 w 5) (bv 5 w 0)
  | 24 => if 6 ≤ field w 22 20 then bad 3 2 w else .vaddF32 (bv 3 w 29) (bv 3 w 20) (bv 1 w 19) (bv 1 w 18) (bv 6 w 12) (bv 6 w 6) (bv 6 w 0)
  | 25 => if 6 ≤ field w 22 20 then bad 3 2 w else .vsubF32 (bv 3 w 29) (bv 3 w 20) (bv 1 w 19) (bv 1 w 18) (bv 6 w 12) (bv 6 w 6) (bv 6 w 0)
  | 26 => if 6 ≤ field w 22 20 then bad 3 2 w else .vmulF32 (bv 3 w 29) (bv 3 w 20) (bv 1 w 19) (bv 1 w 18) (bv 6 w 12) (bv 6 w 6) (bv 6 w 0)
  | 27 => if 6 ≤ field w 22 20 then bad 3 2 w else .vfmaF32 (bv 3 w 29) (bv 3 w 20) (bv 1 w 19) (bv 1 w 18) (bv 6 w 12) (bv 6 w 6) (bv 6 w 0)
  | 28 => if 6 ≤ field w 22 20 then bad 3 2 w else .vmaxF32 (bv 3 w 29) (bv 3 w 20) (bv 1 w 19) (bv 1 w 18) (bv 6 w 12) (bv 6 w 6) (bv 6 w 0)
  | 29 => if 6 ≤ field w 22 20 then bad 3 2 w else .vminF32 (bv 3 w 29) (bv 3 w 20) (bv 1 w 19) (bv 1 w 18) (bv 6 w 12) (bv 6 w 6) (bv 6 w 0)
  | 30 => if 6 ≤ field w 22 20 then bad 3 2 w else .vaddBf16 (bv 3 w 29) (bv 3 w 20) (bv 1 w 19) (bv 1 w 18) (bv 6 w 12) (bv 6 w 6) (bv 6 w 0)
  | 31 => if 6 ≤ field w 22 20 then bad 3 2 w else .vsubBf16 (bv 3 w 29) (bv 3 w 20) (bv 1 w 19) (bv 1 w 18) (bv 6 w 12) (bv 6 w 6) (bv 6 w 0)
  | 32 => if 6 ≤ field w 22 20 then bad 3 2 w else .vmulBf16 (bv 3 w 29) (bv 3 w 20) (bv 1 w 19) (bv 1 w 18) (bv 6 w 12) (bv 6 w 6) (bv 6 w 0)
  | 33 => if 6 ≤ field w 22 20 then bad 3 2 w else .vfmaBf16 (bv 3 w 29) (bv 3 w 20) (bv 1 w 19) (bv 1 w 18) (bv 6 w 12) (bv 6 w 6) (bv 6 w 0)
  | 34 => if 384 ≤ field w 22 14 ∨ 384 ≤ field w 13 5 then bad 3 2 w else .vaddF32Bc (bv 3 w 29) (bv 9 w 14) (bv 9 w 5) (bv 1 w 4) (bv 4 w 0)
  | 35 => if 384 ≤ field w 22 14 ∨ 384 ≤ field w 13 5 then bad 3 2 w else .vmulF32Bc (bv 3 w 29) (bv 9 w 14) (bv 9 w 5) (bv 1 w 4) (bv 4 w 0)
  | 36 => if 384 ≤ field w 18 10 ∨ 384 ≤ field w 9 1 then bad 3 2 w else .vcmpltI32 (bv 3 w 29) (bv 4 w 19) (bv 9 w 10) (bv 9 w 1) (bv 1 w 0)
  | 37 => if 384 ≤ field w 18 10 ∨ 384 ≤ field w 9 1 then bad 3 2 w else .vcmpeqI32 (bv 3 w 29) (bv 4 w 19) (bv 9 w 10) (bv 9 w 1) (bv 1 w 0)
  | 38 => if 384 ≤ field w 18 10 ∨ 384 ≤ field w 9 1 then bad 3 2 w else .vcmpleF32 (bv 3 w 29) (bv 4 w 19) (bv 9 w 10) (bv 9 w 1) (bv 1 w 0)
  | 39 => if 384 ≤ field w 22 14 ∨ 384 ≤ field w 13 5 then bad 3 2 w else .vmergeU32 (bv 3 w 29) (bv 9 w 14) (bv 9 w 5) (bv 1 w 4) (bv 4 w 0)
  | 40 => decodeV28 w
  | 41 => decodeV29 w
  | 42 => decodeV2A w
  | 43 => decodeV2B w
  | 44 => if 384 ≤ field w 22 14 ∨ 384 ≤ field w 13 5 ∨ bit w 4 then bad 3 2 w else .vrotg (bv 3 w 29) (bv 9 w 14) (bv 9 w 5) (bv 4 w 0)
  | 45 => if 384 ≤ field w 22 14 ∨ 384 ≤ field w 13 5 then bad 3 2 w else .vrot (bv 3 w 29) (bv 9 w 14) (bv 9 w 5) (bv 1 w 4) (bv 4 w 0)
  | 46 => if 384 ≤ field w 22 14 ∨ 384 ≤ field w 13 5 then bad 3 2 w else .vperm (bv 3 w 29) (bv 9 w 14) (bv 9 w 5) (bv 1 w 4) (bv 4 w 0)
  | 47 => if 384 ≤ field w 22 14 ∨ 384 ≤ field w 13 5 then bad 3 2 w else .vbcast (bv 3 w 29) (bv 9 w 14) (bv 9 w 5) (bv 1 w 4) (bv 4 w 0)
  | 48 => if 384 ≤ field w 22 14 ∨ 384 ≤ field w 13 5 then bad 3 2 w else .vredaddI32 (bv 3 w 29) (bv 9 w 14) (bv 9 w 5) (bv 1 w 4) (bv 4 w 0)
  | 49 => if 384 ≤ field w 22 14 ∨ 384 ≤ field w 13 5 then bad 3 2 w else .vredaddF32 (bv 3 w 29) (bv 9 w 14) (bv 9 w 5) (bv 1 w 4) (bv 4 w 0)
  | 50 => if 384 ≤ field w 22 14 ∨ 384 ≤ field w 13 5 then bad 3 2 w else .vredmaxF32 (bv 3 w 29) (bv 9 w 14) (bv 9 w 5) (bv 1 w 4) (bv 4 w 0)
  | 51 => if 384 ≤ field w 22 14 ∨ 384 ≤ field w 13 5 then bad 3 2 w else .vscanaddF32 (bv 3 w 29) (bv 9 w 14) (bv 9 w 5) (bv 1 w 4) (bv 4 w 0)
  | 52 => decodeV34 w
  | 53 => decodeV35 w
  | 54 => decodeV36 w
  | 55 => decodeV37 w
  | _ => bad 3 (if 60 ≤ field w 28 23 then 1 else 0) w

/-- Major 0x00 of the M slot, by its variant field. -/
def decodeM00 (w : Nat) : Instr :=
  match field w 8 0 with
  | 0 => .tld (bv 3 w 29) (bv 4 w 19) (bv 4 w 15) (bv 6 w 9)
  | 1 => .tldX (bv 3 w 29) (bv 4 w 19) (bv 4 w 15) (bv 6 w 9)
  | 2 => .tldSc (bv 3 w 29) (bv 4 w 19) (bv 4 w 15) (bv 6 w 9)
  | _ => bad 4 2 w

/-- Major 0x01 of the M slot, by its variant field. -/
def decodeM01 (w : Nat) : Instr :=
  match field w 8 0 with
  | 0 => .tst (bv 3 w 29) (bv 4 w 19) (bv 4 w 15) (bv 6 w 9)
  | 1 => .tstX (bv 3 w 29) (bv 4 w 19) (bv 4 w 15) (bv 6 w 9)
  | 2 => .tstSc (bv 3 w 29) (bv 4 w 19) (bv 4 w 15) (bv 6 w 9)
  | _ => bad 4 2 w

/-- Major 0x04 of the M slot, by its variant field. -/
def decodeM04 (w : Nat) : Instr :=
  match field w 8 0 with
  | 0 => if field w 13 12 = 3 ∨ field w 11 10 = 3 then bad 4 2 w else .mma (bv 3 w 29) (bv 1 w 22) (bv 4 w 18) (bv 4 w 14) (bv 2 w 12) (bv 2 w 10) (bv 1 w 9)
  | 1 => if field w 13 12 = 3 ∨ field w 11 10 = 3 then bad 4 2 w else .mmaz (bv 3 w 29) (bv 1 w 22) (bv 4 w 18) (bv 4 w 14) (bv 2 w 12) (bv 2 w 10) (bv 1 w 9)
  | _ => bad 4 2 w

/-- Major 0x08 of the M slot, by its variant field. -/
def decodeM08 (w : Nat) : Instr :=
  match field w 8 0 with
  | 0 => if 5 ≤ field w 11 9 then bad 4 2 w else .aoutF32 (bv 3 w 29) (bv 1 w 22) (bv 4 w 18) (bv 6 w 12) (bv 3 w 9)
  | 1 => if 5 ≤ field w 11 9 then bad 4 2 w else .aoutBf16 (bv 3 w 29) (bv 1 w 22) (bv 4 w 18) (bv 6 w 12) (bv 3 w 9)
  | 2 => if 5 ≤ field w 11 9 then bad 4 2 w else .aoutI8 (bv 3 w 29) (bv 1 w 22) (bv 4 w 18) (bv 6 w 12) (bv 3 w 9)
  | 3 => if 5 ≤ field w 11 9 then bad 4 2 w else .aoutI6 (bv 3 w 29) (bv 1 w 22) (bv 4 w 18) (bv 6 w 12) (bv 3 w 9)
  | 4 => if 5 ≤ field w 11 9 then bad 4 2 w else .aoutI4 (bv 3 w 29) (bv 1 w 22) (bv 4 w 18) (bv 6 w 12) (bv 3 w 9)
  | _ => bad 4 2 w

/-- Major 0x0C of the M slot, by its variant field. -/
def decodeM0C (w : Nat) : Instr :=
  match field w 8 0 with
  | 0 => if field w 22 15 ≠ 0 then bad 4 2 w else .tcfg (bv 3 w 29) (bv 6 w 9)
  | 1 => if field w 22 15 ≠ 0 then bad 4 2 w else .trel (bv 3 w 29) (bv 6 w 9)
  | _ => bad 4 2 w

/-- Major 0x0D of the M slot, by its variant field. -/
def decodeM0D (w : Nat) : Instr :=
  match field w 8 0 with
  | 0 => if field w 22 20 ≠ 0 ∨ field w 18 9 ≠ 0 then bad 4 2 w else .azero (bv 3 w 29) (bv 1 w 19)
  | 1 => if field w 18 9 ≠ 0 then bad 4 2 w else .tzero (bv 3 w 29) (bv 4 w 19)
  | _ => bad 4 2 w

/-- Major 0x0E of the M slot, by its variant field. -/
def decodeM0E (w : Nat) : Instr :=
  match field w 8 0 with
  | 0 => if field w 14 9 ≠ 0 then bad 4 2 w else .ttrI8 (bv 3 w 29) (bv 4 w 19) (bv 4 w 15)
  | 1 => if field w 14 9 ≠ 0 then bad 4 2 w else .ttrI6 (bv 3 w 29) (bv 4 w 19) (bv 4 w 15)
  | 2 => if field w 14 9 ≠ 0 then bad 4 2 w else .ttrI4 (bv 3 w 29) (bv 4 w 19) (bv 4 w 15)
  | _ => bad 4 2 w

/-- The M slot (R73, R211). Reserved majors, extension majors and reserved operand values
become `illegalOpcode` with their subcode of R52. -/
def decodeM (w : Nat) : Instr :=
  match field w 28 23 with
  | 0 => decodeM00 w
  | 1 => decodeM01 w
  | 4 => decodeM04 w
  | 8 => decodeM08 w
  | 12 => decodeM0C w
  | 13 => decodeM0D w
  | 14 => decodeM0E w
  | _ => bad 4 (if 56 ≤ field w 28 23 then 1 else 0) w

/-- Major 0x02 of the K slot, by its variant field. -/
def decodeK02 (w : Nat) : Instr :=
  match field w 9 9 with
  | 0 => if 4 ≤ field w 2 0 then bad 5 2 w else .scldqA (bv 6 w 3) (bv 2 w 0)
  | _ => if 4 ≤ field w 2 0 then bad 5 2 w else .scldqB (bv 6 w 3) (bv 2 w 0)

/-- Major 0x03 of the K slot, by its variant field. -/
def decodeK03 (w : Nat) : Instr :=
  match field w 9 9 with
  | 0 => if field w 8 0 ≠ 0 then bad 5 2 w else .scrstA
  | _ => if field w 8 0 ≠ 0 then bad 5 2 w else .scrstB

/-- Major 0x04 of the K slot, by its variant field. -/
def decodeK04 (w : Nat) : Instr :=
  match field w 9 9 with
  | 0 => if field w 2 0 ≠ 0 then bad 5 2 w else .kuniA (bv 6 w 3)
  | _ => if field w 2 0 ≠ 0 then bad 5 2 w else .kuniB (bv 6 w 3)

/-- The K slot (R74, R210). Reserved majors, extension majors and reserved operand values
become `illegalOpcode` with their subcode of R52. -/
def decodeK (w : Nat) : Instr :=
  match field w 15 10 with
  | 0 => .scldA (bv 4 w 6) (bv 6 w 0)
  | 1 => .scldB (bv 4 w 6) (bv 6 w 0)
  | 2 => decodeK02 w
  | 3 => decodeK03 w
  | 4 => decodeK04 w
  | _ => bad 5 (if 56 ≤ field w 15 10 then 1 else 0) w

/-- The E slot (R75, R326, R379, R380). A count of a wait, an add or a spawn is never negative (R325). Reserved majors, extension majors and reserved operand values
become `illegalOpcode` with their subcode of R52. -/
def decodeE (w : Nat) : Instr :=
  match field w 44 39 with
  | 0 => if field w 32 31 ≠ 0 ∨ field w 24 0 ≠ 0 then bad 6 2 w else .chstart (bv 3 w 45) (bv 6 w 33) (bv 4 w 27) (bv 2 w 25)
  | 1 => if field w 38 27 ≠ 0 ∨ field w 24 0 ≠ 0 then bad 6 2 w else .chstop (bv 3 w 45) (bv 2 w 25)
  | 2 => if field w 38 27 ≠ 0 ∨ field w 24 0 ≠ 0 then bad 6 2 w else .chwait (bv 3 w 45) (bv 2 w 25)
  | 8 => if field w 32 31 ≠ 0 ∨ field w 26 24 ≠ 0 then bad 6 2 w else .cwait (bv 3 w 45) (bv 6 w 33) (bv 4 w 27) (bv 25 w 0)
  | 9 => if field w 32 31 ≠ 0 ∨ field w 26 24 ≠ 0 then bad 6 2 w else .bwait (bv 3 w 45) (bv 6 w 33) (bv 4 w 27) (bv 25 w 0)
  | 10 => if field w 32 31 ≠ 0 ∨ field w 26 24 ≠ 0 then bad 6 2 w else .cadd (bv 3 w 45) (bv 6 w 33) (bv 4 w 27) (bv 25 w 0)
  | 11 => if field w 32 31 ≠ 0 ∨ field w 26 24 ≠ 0 then bad 6 2 w else .badd (bv 3 w 45) (bv 6 w 33) (bv 4 w 27) (bv 25 w 0)
  | 12 => if 384 ≤ field w 38 30 ∨ field w 28 27 ≠ 0 ∨ 8 ≤ field w 22 0 then bad 6 2 w else .arm (bv 3 w 45) (bv 9 w 30) (bv 1 w 29) (bv 4 w 23) (bv 3 w 0)
  | 13 => if field w 38 25 ≠ 0 ∨ 8 ≤ field w 24 0 then bad 6 2 w else .disarm (bv 3 w 45) (bv 3 w 0)
  | 16 => if field w 38 0 ≠ 0 then bad 6 2 w else .next (bv 3 w 45)
  | 17 => if field w 38 0 ≠ 0 then bad 6 2 w else .nextt (bv 3 w 45)
  | 20 => if field w 32 31 ≠ 0 ∨ field w 26 24 ≠ 0 then bad 6 2 w else .spawn (bv 3 w 45) (bv 6 w 33) (bv 4 w 27) (bv 25 w 0)
  | 24 => if 5 ≤ field w 38 36 ∨ field w 29 28 ≠ 0 ∨ gsubTargetBad (field w 38 36) (field w 23 0) then bad 6 2 w else .gsub (bv 3 w 45) (bv 3 w 36) (bv 6 w 30) (bv 4 w 24) (bv 24 w 0)
  | 25 => if field w 38 36 ≠ 0 ∨ field w 29 28 ≠ 0 ∨ field w 23 0 ≠ 0 then bad 6 2 w else .gwait (bv 3 w 45) (bv 6 w 30) (bv 4 w 24)
  | _ => bad 6 (if 56 ≤ field w 44 39 then 1 else 0) w

/-- Major 0x00 of the B slot, by its variant field. -/
def decodeB00 (w : Nat) : Instr :=
  match field w 12 0 with
  | 0 => .pseed (bv 3 w 29) (bv 4 w 19) (bv 6 w 13)
  | 1 => .paux (bv 3 w 29) (bv 4 w 19) (bv 6 w 13)
  | 2 => .pgets (bv 3 w 29) (bv 4 w 19) (bv 6 w 13)
  | 3 => .pgeta (bv 3 w 29) (bv 4 w 19) (bv 6 w 13)
  | 4 => if 5 ≤ field w 22 19 ∨ field w 18 13 ≠ 0 then bad 7 2 w else .bsetlen (bv 3 w 29) (bv 3 w 19)
  | 5 => if field w 18 13 ≠ 0 then bad 7 2 w else .bdither (bv 3 w 29) (bv 4 w 19)
  | _ => bad 7 2 w

/-- Major 0x01 of the B slot, by its variant field. -/
def decodeB01 (w : Nat) : Instr :=
  match field w 3 3 with
  | 0 => if 384 ≤ field w 18 10 ∨ bit w 4 then bad 7 2 w else .bdslv (bv 3 w 29) (bv 4 w 19) (bv 9 w 10) (bv 1 w 9) (bv 4 w 5) (bv 3 w 0)
  | _ => if 384 ≤ field w 18 10 ∨ bit w 4 then bad 7 2 w else .bdslvBi (bv 3 w 29) (bv 4 w 19) (bv 9 w 10) (bv 1 w 9) (bv 4 w 5) (bv 3 w 0)

/-- Major 0x02 of the B slot, by its variant field. -/
def decodeB02 (w : Nat) : Instr :=
  match field w 4 3 with
  | 0 => if 384 ≤ field w 18 10 ∨ field w 9 5 ≠ 0 ∨ field w 2 0 ≠ 0 then bad 7 2 w else .bcryst (bv 3 w 29) (bv 4 w 19) (bv 9 w 10)
  | 1 => if 384 ≤ field w 18 10 ∨ field w 9 5 ≠ 0 ∨ field w 2 0 ≠ 0 then bad 7 2 w else .bcrysta (bv 3 w 29) (bv 4 w 19) (bv 9 w 10)
  | 2 => if 384 ≤ field w 18 10 ∨ field w 9 5 ≠ 0 then bad 7 2 w else .bcrystp (bv 3 w 29) (bv 4 w 19) (bv 9 w 10) (bv 3 w 0)
  | _ => if 384 ≤ field w 18 10 ∨ field w 9 5 ≠ 0 then bad 7 2 w else .bcrystpa (bv 3 w 29) (bv 4 w 19) (bv 9 w 10) (bv 3 w 0)

/-- Major 0x07 of the B slot, by its variant field. -/
def decodeB07 (w : Nat) : Instr :=
  match field w 6 0 with
  | 0 => if field w 10 7 ≠ 0 then bad 7 2 w else .bmin (bv 3 w 29) (bv 4 w 19) (bv 4 w 15) (bv 4 w 11)
  | 1 => if field w 10 7 ≠ 0 then bad 7 2 w else .bmax (bv 3 w 29) (bv 4 w 19) (bv 4 w 15) (bv 4 w 11)
  | _ => bad 7 2 w

/-- Major 0x08 of the B slot, by its variant field. -/
def decodeB08 (w : Nat) : Instr :=
  match field w 6 0 with
  | 0 => if field w 14 7 ≠ 0 then bad 7 2 w else .bnot (bv 3 w 29) (bv 4 w 19) (bv 4 w 15)
  | 1 => if field w 14 7 ≠ 0 then bad 7 2 w else .bmov (bv 3 w 29) (bv 4 w 19) (bv 4 w 15)
  | _ => bad 7 2 w

/-- The B slot (R76, R240). Reserved majors, extension majors and reserved operand values
become `illegalOpcode` with their subcode of R52. -/
def decodeB (w : Nat) : Instr :=
  match field w 28 23 with
  | 0 => decodeB00 w
  | 1 => decodeB01 w
  | 2 => decodeB02 w
  | 3 => if field w 14 11 ≠ 0 ∨ field w 6 0 ≠ 0 then bad 7 2 w else .bresalt (bv 3 w 29) (bv 4 w 19) (bv 4 w 15) (bv 4 w 7)
  | 4 => if field w 10 0 ≠ 0 then bad 7 2 w else .band (bv 3 w 29) (bv 4 w 19) (bv 4 w 15) (bv 4 w 11)
  | 5 => if field w 10 0 ≠ 0 then bad 7 2 w else .bxnor (bv 3 w 29) (bv 4 w 19) (bv 4 w 15) (bv 4 w 11)
  | 6 => if field w 6 0 ≠ 0 then bad 7 2 w else .bmux (bv 3 w 29) (bv 4 w 19) (bv 4 w 15) (bv 4 w 11) (bv 4 w 7)
  | 7 => decodeB07 w
  | 8 => decodeB08 w
  | 9 => if 384 ≤ field w 18 10 ∨ field w 4 0 ≠ 0 then bad 7 2 w else .bbern (bv 3 w 29) (bv 4 w 19) (bv 9 w 10) (bv 1 w 9) (bv 4 w 5)
  | 10 => if 384 ≤ field w 18 10 ∨ field w 4 0 ≠ 0 then bad 7 2 w else .bcat (bv 3 w 29) (bv 4 w 19) (bv 9 w 10) (bv 1 w 9) (bv 4 w 5)
  | _ => bad 7 (if 56 ≤ field w 28 23 then 1 else 0) w

/-- The fields of the tree form of the C slot, a word of 96 bits, given to `k` (R55). -/
def withTree {α : Type} (w : Nat)
    (k : BitVec 2 → BitVec 8 → BitVec 10 → BitVec 10 → BitVec 10 → BitVec 10 → BitVec 8 → BitVec 8 → BitVec 8 → BitVec 8 →
      BitVec 3 → BitVec 2 → BitVec 3 → α) : α :=
  k (bv 2 w 21) (bv 8 w 13) (bv 10 w 3) (bv 10 w 32) (bv 10 w 42) (bv 10 w 52) (bv 8 w 64) (bv 8 w 72) (bv 8 w 80) (bv 8 w 88) (bv 3 w 29) (bv 2 w 62) (bv 3 w 0)

/-- The tree form of the C slot (R55). -/
def decodeTree (w : Nat) : Instr := withTree w .tree

/-- Bytes of a slot, the form of the C slot taken from its first word (R44). -/
def slotBytes (cls w : Nat) : Nat :=
  match cls with
  | 0 => if field w 28 23 = 0x3F then 12 else 4
  | 1 => 2
  | 5 => 2
  | 6 => 6
  | _ => 4

/-- One slot of a class from its word. -/
def decodeSlot (cls w : Nat) : Instr :=
  match cls with
  | 0 => if field w 28 23 = 0x3F then decodeTree (w % 2 ^ 96) else decodeC (w % 2 ^ 32)
  | 1 => decodeA (w % 2 ^ 16)
  | 2 => decodeL (w % 2 ^ 32)
  | 3 => decodeV (w % 2 ^ 32)
  | 4 => decodeM (w % 2 ^ 32)
  | 5 => decodeK (w % 2 ^ 16)
  | 6 => decodeE (w % 2 ^ 48)
  | _ => decodeB (w % 2 ^ 32)

/-- The slots that header `h` marks present, from class `cls` on, laid out from the low end of `x` (R42, R43). -/
def decodeSlotsFrom (h x : Nat) : Nat → Nat → List Instr
  | 0, _ => []
  | n + 1, cls =>
    if bit h cls then
      decodeSlot cls x :: decodeSlotsFrom h (x >>> (8 * slotBytes cls x)) n (cls + 1)
    else decodeSlotsFrom h x n (cls + 1)

/-- The slots of a bundle with header `h` whose slot bytes, from byte 5 on, are `x` little-endian. -/
def decodeSlots (h x : Nat) : List Instr := decodeSlotsFrom h x 8 0

/-- The sizes of the present slots, from class `cls` on; `x` is the first word of C (R44). -/
def slotSizes (h x : Nat) : Nat → Nat → Nat
  | 0, _ => 0
  | n + 1, cls => (if bit h cls then slotBytes cls (if cls = 0 then x else 0) else 0) + slotSizes h x n (cls + 1)

/-- The length of a bundle from its header and its bytes 5 to 8 (R44). -/
def bundleLength (h x : Nat) : Nat := if h = 0 then 1 else 5 + slotSizes h x 8 0

/-- Whether an instruction is a slot that the decoder refused. -/
def isIllegal : Instr → Bool
  | .illegalOpcode _ _ _ => true
  | _ => false

/-- The operation of a GTS record of 256 bits; none where OPC is reserved (R354, R358). Log 97, DEDUCED. -/
def decodeRecord (w : Nat) : Option Instr :=
  let r : GtsRec := { lvl := bv 8 w 8, flags := bv 16 w 16, body := bv 224 w 32 }
  match w % 256 with
  | 0x00 => some (.gnop r)
  | 0x01 => some (.gcopy r)
  | 0x02 => some (.gconv r)
  | 0x03 => some (.gfill r)
  | 0x04 => some (.gelt r)
  | 0x05 => some (.gelts r)
  | 0x06 => some (.gmma r)
  | 0x07 => some (.gmmaz r)
  | 0x08 => some (.gscan r)
  | 0x09 => some (.gred r)
  | 0x0A => some (.ggather r)
  | 0x0B => some (.gagather r)
  | 0x0C => some (.grscat r)
  | 0x0D => some (.gared r)
  | 0x0E => some (.ga2a r)
  | 0x0F => some (.gbprod r)
  | 0x10 => some (.gbdraw r)
  | 0x11 => some (.gcwait r)
  | _ => none

/-- A link-program instruction of 128 bits (R435). A reserved code, or a must-be-zero bit that is set, gives the row of
reserved codes. Log 97, DEDUCED. -/
def decodeLink (w : Nat) : Instr :=
  let zero (mask : Nat) (i : Instr) : Instr :=
    if w % 2 ^ 128 &&& mask = w % 2 ^ 128 then i else .reservedOpc (BitVec.ofNat 128 w)
  match field w 37 32 with
  | 0x01 =>
    zero 0x3FFFFFFFFFFFFFFFFFF (match field w 73 73 with
      | 0 => .send (bv 32 w 0) (bv 19 w 38) (bv 11 w 57) (bv 5 w 68)
      | _ => .sendSig (bv 32 w 0) (bv 19 w 38) (bv 11 w 57) (bv 5 w 68))
  | 0x02 => zero 0x1FFFFFFFFFFFFFFFFFF (.land (bv 32 w 0) (bv 19 w 38) (bv 11 w 57) (bv 5 w 68))
  | 0x03 => zero 0x1FFFFE00003FFFFFFFFF (.fwd (bv 32 w 0) (bv 11 w 57) (bv 5 w 68) (bv 4 w 73))
  | 0x04 =>
    zero 0xFFFFFFFFFFFFFFFFFFF (match field w 75 73 with
      | 0 => .redAddF32 (bv 32 w 0) (bv 19 w 38) (bv 11 w 57) (bv 5 w 68)
      | 1 => .redAddBf16 (bv 32 w 0) (bv 19 w 38) (bv 11 w 57) (bv 5 w 68)
      | 2 => .redAddI32 (bv 32 w 0) (bv 19 w 38) (bv 11 w 57) (bv 5 w 68)
      | 3 => .redMaxF32 (bv 32 w 0) (bv 19 w 38) (bv 11 w 57) (bv 5 w 68)
      | 4 => .redMaxBf16 (bv 32 w 0) (bv 19 w 38) (bv 11 w 57) (bv 5 w 68)
      | 5 => .redMaxI32 (bv 32 w 0) (bv 19 w 38) (bv 11 w 57) (bv 5 w 68)
      | _ => .reservedOpc (BitVec.ofNat 128 w))
  | 0x05 => zero 0x1F001FFFFFFFFFFFFFF (.guard (bv 32 w 0) (bv 19 w 38) (bv 5 w 68))
  | 0x06 => zero 0x3FFFFFFFFFFFFFFF00000000 (.linkLoop (bv 24 w 38) (bv 32 w 62))
  | 0x07 => zero 0x3F00000000 (.endl)
  | 0x08 => zero 0x1FFFFFFFFFFFFFFFFFFFFFFFFFF (.mark (bv 32 w 0) (bv 19 w 86) (bv 48 w 38))
  | 0x09 => zero 0x3FFFFFFFFFFFFF (.ckpt (bv 32 w 0) (bv 16 w 38))
  | 0x0A => zero 0xFFFFFFFFFFFFFFFFFFFFFFFFFFFFF (.fill (bv 32 w 0) (bv 19 w 86) (bv 11 w 105) (bv 48 w 38))
  | 0x0B => zero 0xFFFFFFFFFFFFFFFFFFFFFFFFFFFFF (.delv (bv 32 w 0) (bv 19 w 86) (bv 11 w 105) (bv 48 w 38))
  | 0x0C => zero 0x7FFFFFFFFFFFFFFFFFFFFFFFFFFFFFF (.slot (bv 32 w 0) (bv 11 w 38) (bv 16 w 49) (bv 18 w 65) (bv 18 w 83) (bv 18 w 101) (bv 4 w 119))
  | 0x0D => zero 0xFFFFFFFFFFFFFFF (.serve (bv 32 w 0) (bv 18 w 38) (bv 4 w 56))
  | 0x0E => zero 0x3FFFFFFFFF (.halt (bv 32 w 0))
  | _ => .reservedOpc (BitVec.ofNat 128 w)


/-- The encoding of an instruction: its width in bits and its word. Events have no encoding. -/
def encode (i : Instr) : Option (Nat × Nat) :=
  match i with
  | .idle => some (8, 0)
  | .tree nt st t0 t1 t2 t3 o1 o2 o3 o4 g z1 z0 => some (96, 0x1F800000 + nt.toNat * 0x200000 + st.toNat * 0x2000 + t0.toNat * 0x8 + t1.toNat * 0x100000000 + t2.toNat * 0x40000000000 + t3.toNat * 0x10000000000000 + o1.toNat * 0x10000000000000000 + o2.toNat * 0x1000000000000000000 + o3.toNat * 0x100000000000000000000 + o4.toNat * 0x10000000000000000000000 + g.toNat * 0x20000000 + z1.toNat * 0x4000000000000000 + z0.toNat)
  | .addI64 t d a b => some (32, 0x0 + t.toNat * 0x20000000 + d.toNat * 0x20000 + a.toNat * 0x800 + b.toNat * 0x20)
  | .subI64 t d a b => some (32, 0x1 + t.toNat * 0x20000000 + d.toNat * 0x20000 + a.toNat * 0x800 + b.toNat * 0x20)
  | .andI64 t d a b => some (32, 0x2 + t.toNat * 0x20000000 + d.toNat * 0x20000 + a.toNat * 0x800 + b.toNat * 0x20)
  | .orI64 t d a b => some (32, 0x3 + t.toNat * 0x20000000 + d.toNat * 0x20000 + a.toNat * 0x800 + b.toNat * 0x20)
  | .xorI64 t d a b => some (32, 0x4 + t.toNat * 0x20000000 + d.toNat * 0x20000 + a.toNat * 0x800 + b.toNat * 0x20)
  | .andnI64 t d a b => some (32, 0x5 + t.toNat * 0x20000000 + d.toNat * 0x20000 + a.toNat * 0x800 + b.toNat * 0x20)
  | .sllI64 t d a b => some (32, 0x6 + t.toNat * 0x20000000 + d.toNat * 0x20000 + a.toNat * 0x800 + b.toNat * 0x20)
  | .srlI64 t d a b => some (32, 0x7 + t.toNat * 0x20000000 + d.toNat * 0x20000 + a.toNat * 0x800 + b.toNat * 0x20)
  | .sraI64 t d a b => some (32, 0x8 + t.toNat * 0x20000000 + d.toNat * 0x20000 + a.toNat * 0x800 + b.toNat * 0x20)
  | .mulI64 t d a b => some (32, 0x9 + t.toNat * 0x20000000 + d.toNat * 0x20000 + a.toNat * 0x800 + b.toNat * 0x20)
  | .mulhI64 t d a b => some (32, 0xA + t.toNat * 0x20000000 + d.toNat * 0x20000 + a.toNat * 0x800 + b.toNat * 0x20)
  | .mulhuI64 t d a b => some (32, 0xB + t.toNat * 0x20000000 + d.toNat * 0x20000 + a.toNat * 0x800 + b.toNat * 0x20)
  | .addsI64 t d a b => some (32, 0xC + t.toNat * 0x20000000 + d.toNat * 0x20000 + a.toNat * 0x800 + b.toNat * 0x20)
  | .subsI64 t d a b => some (32, 0xD + t.toNat * 0x20000000 + d.toNat * 0x20000 + a.toNat * 0x800 + b.toNat * 0x20)
  | .addsuI64 t d a b => some (32, 0xE + t.toNat * 0x20000000 + d.toNat * 0x20000 + a.toNat * 0x800 + b.toNat * 0x20)
  | .subsuI64 t d a b => some (32, 0xF + t.toNat * 0x20000000 + d.toNat * 0x20000 + a.toNat * 0x800 + b.toNat * 0x20)
  | .minI64 t d a b => some (32, 0x10 + t.toNat * 0x20000000 + d.toNat * 0x20000 + a.toNat * 0x800 + b.toNat * 0x20)
  | .maxI64 t d a b => some (32, 0x11 + t.toNat * 0x20000000 + d.toNat * 0x20000 + a.toNat * 0x800 + b.toNat * 0x20)
  | .minuI64 t d a b => some (32, 0x12 + t.toNat * 0x20000000 + d.toNat * 0x20000 + a.toNat * 0x800 + b.toNat * 0x20)
  | .maxuI64 t d a b => some (32, 0x13 + t.toNat * 0x20000000 + d.toNat * 0x20000 + a.toNat * 0x800 + b.toNat * 0x20)
  | .clzI64 t d a => some (32, 0x14 + t.toNat * 0x20000000 + d.toNat * 0x20000 + a.toNat * 0x800)
  | .ctzI64 t d a => some (32, 0x15 + t.toNat * 0x20000000 + d.toNat * 0x20000 + a.toNat * 0x800)
  | .popcI64 t d a => some (32, 0x16 + t.toNat * 0x20000000 + d.toNat * 0x20000 + a.toNat * 0x800)
  | .addI32 t d a b => some (32, 0x800000 + t.toNat * 0x20000000 + d.toNat * 0x20000 + a.toNat * 0x800 + b.toNat * 0x20)
  | .subI32 t d a b => some (32, 0x800001 + t.toNat * 0x20000000 + d.toNat * 0x20000 + a.toNat * 0x800 + b.toNat * 0x20)
  | .andI32 t d a b => some (32, 0x800002 + t.toNat * 0x20000000 + d.toNat * 0x20000 + a.toNat * 0x800 + b.toNat * 0x20)
  | .orI32 t d a b => some (32, 0x800003 + t.toNat * 0x20000000 + d.toNat * 0x20000 + a.toNat * 0x800 + b.toNat * 0x20)
  | .xorI32 t d a b => some (32, 0x800004 + t.toNat * 0x20000000 + d.toNat * 0x20000 + a.toNat * 0x800 + b.toNat * 0x20)
  | .andnI32 t d a b => some (32, 0x800005 + t.toNat * 0x20000000 + d.toNat * 0x20000 + a.toNat * 0x800 + b.toNat * 0x20)
  | .sllI32 t d a b => some (32, 0x800006 + t.toNat * 0x20000000 + d.toNat * 0x20000 + a.toNat * 0x800 + b.toNat * 0x20)
  | .srlI32 t d a b => some (32, 0x800007 + t.toNat * 0x20000000 + d.toNat * 0x20000 + a.toNat * 0x800 + b.toNat * 0x20)
  | .sraI32 t d a b => some (32, 0x800008 + t.toNat * 0x20000000 + d.toNat * 0x20000 + a.toNat * 0x800 + b.toNat * 0x20)
  | .mulI32 t d a b => some (32, 0x800009 + t.toNat * 0x20000000 + d.toNat * 0x20000 + a.toNat * 0x800 + b.toNat * 0x20)
  | .mulhI32 t d a b => some (32, 0x80000A + t.toNat * 0x20000000 + d.toNat * 0x20000 + a.toNat * 0x800 + b.toNat * 0x20)
  | .mulhuI32 t d a b => some (32, 0x80000B + t.toNat * 0x20000000 + d.toNat * 0x20000 + a.toNat * 0x800 + b.toNat * 0x20)
  | .addsI32 t d a b => some (32, 0x80000C + t.toNat * 0x20000000 + d.toNat * 0x20000 + a.toNat * 0x800 + b.toNat * 0x20)
  | .subsI32 t d a b => some (32, 0x80000D + t.toNat * 0x20000000 + d.toNat * 0x20000 + a.toNat * 0x800 + b.toNat * 0x20)
  | .addsuI32 t d a b => some (32, 0x80000E + t.toNat * 0x20000000 + d.toNat * 0x20000 + a.toNat * 0x800 + b.toNat * 0x20)
  | .subsuI32 t d a b => some (32, 0x80000F + t.toNat * 0x20000000 + d.toNat * 0x20000 + a.toNat * 0x800 + b.toNat * 0x20)
  | .minI32 t d a b => some (32, 0x800010 + t.toNat * 0x20000000 + d.toNat * 0x20000 + a.toNat * 0x800 + b.toNat * 0x20)
  | .maxI32 t d a b => some (32, 0x800011 + t.toNat * 0x20000000 + d.toNat * 0x20000 + a.toNat * 0x800 + b.toNat * 0x20)
  | .minuI32 t d a b => some (32, 0x800012 + t.toNat * 0x20000000 + d.toNat * 0x20000 + a.toNat * 0x800 + b.toNat * 0x20)
  | .maxuI32 t d a b => some (32, 0x800013 + t.toNat * 0x20000000 + d.toNat * 0x20000 + a.toNat * 0x800 + b.toNat * 0x20)
  | .clzI32 t d a => some (32, 0x800014 + t.toNat * 0x20000000 + d.toNat * 0x20000 + a.toNat * 0x800)
  | .ctzI32 t d a => some (32, 0x800015 + t.toNat * 0x20000000 + d.toNat * 0x20000 + a.toNat * 0x800)
  | .popcI32 t d a => some (32, 0x800016 + t.toNat * 0x20000000 + d.toNat * 0x20000 + a.toNat * 0x800)
  | .addiI64 t d a i => some (32, 0x1000000 + t.toNat * 0x20000000 + d.toNat * 0x20000 + a.toNat * 0x800 + i.toNat)
  | .addiI32 t d a i => some (32, 0x1800000 + t.toNat * 0x20000000 + d.toNat * 0x20000 + a.toNat * 0x800 + i.toNat)
  | .andiI64 t d a i => some (32, 0x2000000 + t.toNat * 0x20000000 + d.toNat * 0x20000 + a.toNat * 0x800 + i.toNat)
  | .oriI64 t d a i => some (32, 0x2800000 + t.toNat * 0x20000000 + d.toNat * 0x20000 + a.toNat * 0x800 + i.toNat)
  | .xoriI64 t d a i => some (32, 0x3000000 + t.toNat * 0x20000000 + d.toNat * 0x20000 + a.toNat * 0x800 + i.toNat)
  | .slliI64 t d a i => some (32, 0x3800000 + t.toNat * 0x20000000 + d.toNat * 0x20000 + a.toNat * 0x800 + i.toNat)
  | .srliI64 t d a i => some (32, 0x4000000 + t.toNat * 0x20000000 + d.toNat * 0x20000 + a.toNat * 0x800 + i.toNat)
  | .sraiI64 t d a i => some (32, 0x4800000 + t.toNat * 0x20000000 + d.toNat * 0x20000 + a.toNat * 0x800 + i.toNat)
  | .addsiI64 t d a i => some (32, 0x5000000 + t.toNat * 0x20000000 + d.toNat * 0x20000 + a.toNat * 0x800 + i.toNat)
  | .cmpEq t d a b => some (32, 0x8000000 + t.toNat * 0x20000000 + d.toNat * 0x20000 + a.toNat * 0x800 + b.toNat * 0x20)
  | .cmpNe t d a b => some (32, 0x8000001 + t.toNat * 0x20000000 + d.toNat * 0x20000 + a.toNat * 0x800 + b.toNat * 0x20)
  | .cmpLt t d a b => some (32, 0x8000002 + t.toNat * 0x20000000 + d.toNat * 0x20000 + a.toNat * 0x800 + b.toNat * 0x20)
  | .cmpGe t d a b => some (32, 0x8000003 + t.toNat * 0x20000000 + d.toNat * 0x20000 + a.toNat * 0x800 + b.toNat * 0x20)
  | .cmpLtu t d a b => some (32, 0x8000004 + t.toNat * 0x20000000 + d.toNat * 0x20000 + a.toNat * 0x800 + b.toNat * 0x20)
  | .cmpGeu t d a b => some (32, 0x8000005 + t.toNat * 0x20000000 + d.toNat * 0x20000 + a.toNat * 0x800 + b.toNat * 0x20)
  | .cmovNz t d a b => some (32, 0x8800000 + t.toNat * 0x20000000 + d.toNat * 0x20000 + a.toNat * 0x800 + b.toNat * 0x20)
  | .cmovZ t d a b => some (32, 0x8800001 + t.toNat * 0x20000000 + d.toNat * 0x20000 + a.toNat * 0x800 + b.toNat * 0x20)
  | .cmovLt t d a b => some (32, 0x8800002 + t.toNat * 0x20000000 + d.toNat * 0x20000 + a.toNat * 0x800 + b.toNat * 0x20)
  | .cmovGe t d a b => some (32, 0x8800003 + t.toNat * 0x20000000 + d.toNat * 0x20000 + a.toNat * 0x800 + b.toNat * 0x20)
  | .cmpiLt t d a i => some (32, 0x9000000 + t.toNat * 0x20000000 + d.toNat * 0x20000 + a.toNat * 0x800 + i.toNat)
  | .cmpiEq t d a i => some (32, 0x9800000 + t.toNat * 0x20000000 + d.toNat * 0x20000 + a.toNat * 0x800 + i.toNat)
  | .movi t d i => some (32, 0xA000000 + t.toNat * 0x20000000 + d.toNat * 0x20000 + i.toNat)
  | .movsh t d i => some (32, 0xA800000 + t.toNat * 0x20000000 + d.toNat * 0x20000 + i.toNat)
  | .mfc t d x => some (32, 0xB000000 + t.toNat * 0x20000000 + d.toNat * 0x20000 + x.toNat)
  | .mtc t a x => some (32, 0xB800000 + t.toNat * 0x20000000 + a.toNat * 0x800 + x.toNat)
  | .br t a c o => some (32, 0xC000000 + t.toNat * 0x20000000 + a.toNat * 0x20000 + c.toNat * 0x4000 + o.toNat)
  | .jmp t o => some (32, 0xC800000 + t.toNat * 0x20000000 + o.toNat)
  | .call t o => some (32, 0xD000000 + t.toNat * 0x20000000 + o.toNat)
  | .jr t a => some (32, 0xD800000 + t.toNat * 0x20000000 + a.toNat * 0x800)
  | .callr t d a => some (32, 0xD800001 + t.toNat * 0x20000000 + d.toNat * 0x20000 + a.toNat * 0x800)
  | .loop t a o => some (32, 0xE000000 + t.toNat * 0x20000000 + a.toNat * 0x20000 + o.toNat)
  | .loopi t n o => some (32, 0xE800000 + t.toNat * 0x20000000 + n.toNat * 0x20000 + o.toNat)
  | .endloop t => some (32, 0xF000000 + t.toNat * 0x20000000)
  | .lpop t => some (32, 0xF000001 + t.toNat * 0x20000000)
  | .tret t => some (32, 0xF000002 + t.toNat * 0x20000000)
  | .yield t => some (32, 0xF000003 + t.toNat * 0x20000000)
  | .trap t a n => some (32, 0xF000004 + t.toNat * 0x20000000 + a.toNat * 0x800 + n.toNat * 0x20)
  | .fenceSeq t => some (32, 0xF000005 + t.toNat * 0x20000000)
  | .wstep w => some (16, 0x0 + w.toNat * 0x80)
  | .wstep1 w => some (16, 0x1 + w.toNat * 0x80)
  | .wback w => some (16, 0x2 + w.toNat * 0x80)
  | .wstepL w l => some (16, 0x3 + w.toNat * 0x80 + l.toNat * 0x10)
  | .wget w s => some (16, 0x400 + w.toNat * 0x80 + s.toNat * 0x2)
  | .wset w s => some (16, 0x401 + w.toNat * 0x80 + s.toNat * 0x2)
  | .wtake w s => some (16, 0x800 + w.toNat * 0x80 + s.toNat * 0x2)
  | .wtake1 w s => some (16, 0x801 + w.toNat * 0x80 + s.toNat * 0x2)
  | .wtakeL w s => some (16, 0xC00 + w.toNat * 0x80 + s.toNat * 0x2)
  | .ldB t s c o => some (32, 0x0 + t.toNat * 0x20000000 + s.toNat * 0x20000 + c.toNat * 0x2000 + o.toNat)
  | .ldH t s c o => some (32, 0x800000 + t.toNat * 0x20000000 + s.toNat * 0x20000 + c.toNat * 0x2000 + o.toNat)
  | .ldW t s c o => some (32, 0x1000000 + t.toNat * 0x20000000 + s.toNat * 0x20000 + c.toNat * 0x2000 + o.toNat)
  | .ldD t s c o => some (32, 0x1800000 + t.toNat * 0x20000000 + s.toNat * 0x20000 + c.toNat * 0x2000 + o.toNat)
  | .stB t s c o => some (32, 0x2000000 + t.toNat * 0x20000000 + s.toNat * 0x20000 + c.toNat * 0x2000 + o.toNat)
  | .stH t s c o => some (32, 0x2800000 + t.toNat * 0x20000000 + s.toNat * 0x20000 + c.toNat * 0x2000 + o.toNat)
  | .stW t s c o => some (32, 0x3000000 + t.toNat * 0x20000000 + s.toNat * 0x20000 + c.toNat * 0x2000 + o.toNat)
  | .stD t s c o => some (32, 0x3800000 + t.toNat * 0x20000000 + s.toNat * 0x20000 + c.toNat * 0x2000 + o.toNat)
  | .ldvW t v c s => some (32, 0x4000000 + t.toNat * 0x20000000 + v.toNat * 0x4000 + c.toNat * 0x200 + s.toNat * 0x8)
  | .ldvsW t v c s => some (32, 0x4000001 + t.toNat * 0x20000000 + v.toNat * 0x4000 + c.toNat * 0x200 + s.toNat * 0x8)
  | .ldvmW t v c s => some (32, 0x4000002 + t.toNat * 0x20000000 + v.toNat * 0x4000 + c.toNat * 0x200 + s.toNat * 0x8)
  | .ldvsmW t v c s => some (32, 0x4000003 + t.toNat * 0x20000000 + v.toNat * 0x4000 + c.toNat * 0x200 + s.toNat * 0x8)
  | .stvW t v p c s => some (32, 0x4800000 + t.toNat * 0x20000000 + v.toNat * 0x4000 + p.toNat * 0x2000 + c.toNat * 0x200 + s.toNat * 0x8)
  | .stvsW t v p c s => some (32, 0x4800001 + t.toNat * 0x20000000 + v.toNat * 0x4000 + p.toNat * 0x2000 + c.toNat * 0x200 + s.toNat * 0x8)
  | .stvmW t v p c s => some (32, 0x4800002 + t.toNat * 0x20000000 + v.toNat * 0x4000 + p.toNat * 0x2000 + c.toNat * 0x200 + s.toNat * 0x8)
  | .stvsmW t v p c s => some (32, 0x4800003 + t.toNat * 0x20000000 + v.toNat * 0x4000 + p.toNat * 0x2000 + c.toNat * 0x200 + s.toNat * 0x8)
  | .qpush t v p c s => some (32, 0x8000000 + t.toNat * 0x20000000 + v.toNat * 0x4000 + p.toNat * 0x2000 + c.toNat * 0x200 + s.toNat * 0x8)
  | .qpushRel t v p c s k => some (32, 0x8800000 + t.toNat * 0x20000000 + v.toNat * 0x4000 + p.toNat * 0x2000 + c.toNat * 0x200 + s.toNat * 0x8 + k.toNat)
  | .cld t d a s => some (32, 0xA000000 + t.toNat * 0x20000000 + d.toNat * 0x80000 + a.toNat * 0x8000 + s.toNat * 0x200)
  | .cst t d a s => some (32, 0xA800000 + t.toNat * 0x20000000 + d.toNat * 0x80000 + a.toNat * 0x8000 + s.toNat * 0x200)
  | .cbase t d a s => some (32, 0xB000000 + t.toNat * 0x20000000 + d.toNat * 0x80000 + a.toNat * 0x8000 + s.toNat * 0x200)
  | .clen t d a s => some (32, 0xB000001 + t.toNat * 0x20000000 + d.toNat * 0x80000 + a.toNat * 0x8000 + s.toNat * 0x200)
  | .cperms t d a s => some (32, 0xB000002 + t.toNat * 0x20000000 + d.toNat * 0x80000 + a.toNat * 0x8000 + s.toNat * 0x200)
  | .cspace t d a s => some (32, 0xB000003 + t.toNat * 0x20000000 + d.toNat * 0x80000 + a.toNat * 0x8000 + s.toNat * 0x200)
  | .cgetb t a s => some (32, 0xB000004 + t.toNat * 0x20000000 + a.toNat * 0x8000 + s.toNat * 0x200)
  | .cgeth t a s => some (32, 0xB000005 + t.toNat * 0x20000000 + a.toNat * 0x8000 + s.toNat * 0x200)
  | .cgett t a s => some (32, 0xB000006 + t.toNat * 0x20000000 + a.toNat * 0x8000 + s.toNat * 0x200)
  | .cmovc t d a => some (32, 0xB000007 + t.toNat * 0x20000000 + d.toNat * 0x80000 + a.toNat * 0x8000)
  | .cclr t d => some (32, 0xB000008 + t.toNat * 0x20000000 + d.toNat * 0x80000)
  | .cseal t d a s => some (32, 0xB800000 + t.toNat * 0x20000000 + d.toNat * 0x80000 + a.toNat * 0x8000 + s.toNat * 0x200)
  | .cunseal t d a s => some (32, 0xB800001 + t.toNat * 0x20000000 + d.toNat * 0x80000 + a.toNat * 0x8000 + s.toNat * 0x200)
  | .aswapD t d c s k o => some (32, 0xC000000 + t.toNat * 0x20000000 + d.toNat * 0x20000 + c.toNat * 0x2000 + s.toNat * 0x80 + k.toNat * 0x10 + o.toNat * 0x4)
  | .acasD t d c s k o => some (32, 0xC800000 + t.toNat * 0x20000000 + d.toNat * 0x20000 + c.toNat * 0x2000 + s.toNat * 0x80 + k.toNat * 0x10 + o.toNat * 0x4)
  | .aaddD t d c s k o => some (32, 0xD000000 + t.toNat * 0x20000000 + d.toNat * 0x20000 + c.toNat * 0x2000 + s.toNat * 0x80 + k.toNat * 0x10 + o.toNat * 0x4)
  | .aminD t d c s k o => some (32, 0xD800000 + t.toNat * 0x20000000 + d.toNat * 0x20000 + c.toNat * 0x2000 + s.toNat * 0x80 + k.toNat * 0x10 + o.toNat * 0x4)
  | .amaxD t d c s k o => some (32, 0xE000000 + t.toNat * 0x20000000 + d.toNat * 0x20000 + c.toNat * 0x2000 + s.toNat * 0x80 + k.toNat * 0x10 + o.toNat * 0x4)
  | .aandD t d c s k o => some (32, 0xE800000 + t.toNat * 0x20000000 + d.toNat * 0x20000 + c.toNat * 0x2000 + s.toNat * 0x80 + k.toNat * 0x10 + o.toNat * 0x4)
  | .aorD t d c s k o => some (32, 0xF000000 + t.toNat * 0x20000000 + d.toNat * 0x20000 + c.toNat * 0x2000 + s.toNat * 0x80 + k.toNat * 0x10 + o.toNat * 0x4)
  | .axorD t d c s k o => some (32, 0xF800000 + t.toNat * 0x20000000 + d.toNat * 0x20000 + c.toNat * 0x2000 + s.toNat * 0x80 + k.toNat * 0x10 + o.toNat * 0x4)
  | .ldxD t d c s k o => some (32, 0x10000000 + t.toNat * 0x20000000 + d.toNat * 0x20000 + c.toNat * 0x2000 + s.toNat * 0x80 + k.toNat * 0x10 + o.toNat * 0x4)
  | .stxD t d c s k o => some (32, 0x10800000 + t.toNat * 0x20000000 + d.toNat * 0x20000 + c.toNat * 0x2000 + s.toNat * 0x80 + k.toNat * 0x10 + o.toNat * 0x4)
  | .fence t p s k => some (32, 0x11000000 + t.toNat * 0x20000000 + p.toNat * 0x20000 + s.toNat * 0x800 + k.toNat * 0x100)
  | .vaddI32 t g p q d a b => some (32, 0x0 + t.toNat * 0x20000000 + g.toNat * 0x100000 + p.toNat * 0x80000 + q.toNat * 0x40000 + d.toNat * 0x1000 + a.toNat * 0x40 + b.toNat)
  | .vsubI32 t g p q d a b => some (32, 0x800000 + t.toNat * 0x20000000 + g.toNat * 0x100000 + p.toNat * 0x80000 + q.toNat * 0x40000 + d.toNat * 0x1000 + a.toNat * 0x40 + b.toNat)
  | .vaddI16 t g p q d a b => some (32, 0x1000000 + t.toNat * 0x20000000 + g.toNat * 0x100000 + p.toNat * 0x80000 + q.toNat * 0x40000 + d.toNat * 0x1000 + a.toNat * 0x40 + b.toNat)
  | .vsubI16 t g p q d a b => some (32, 0x1800000 + t.toNat * 0x20000000 + g.toNat * 0x100000 + p.toNat * 0x80000 + q.toNat * 0x40000 + d.toNat * 0x1000 + a.toNat * 0x40 + b.toNat)
  | .vaddI8 t g p q d a b => some (32, 0x2000000 + t.toNat * 0x20000000 + g.toNat * 0x100000 + p.toNat * 0x80000 + q.toNat * 0x40000 + d.toNat * 0x1000 + a.toNat * 0x40 + b.toNat)
  | .vaddsI32 t g p q d a b => some (32, 0x2800000 + t.toNat * 0x20000000 + g.toNat * 0x100000 + p.toNat * 0x80000 + q.toNat * 0x40000 + d.toNat * 0x1000 + a.toNat * 0x40 + b.toNat)
  | .vaddsI16 t g p q d a b => some (32, 0x3000000 + t.toNat * 0x20000000 + g.toNat * 0x100000 + p.toNat * 0x80000 + q.toNat * 0x40000 + d.toNat * 0x1000 + a.toNat * 0x40 + b.toNat)
  | .vaddsI8 t g p q d a b => some (32, 0x3800000 + t.toNat * 0x20000000 + g.toNat * 0x100000 + p.toNat * 0x80000 + q.toNat * 0x40000 + d.toNat * 0x1000 + a.toNat * 0x40 + b.toNat)
  | .vsubsI32 t g p q d a b => some (32, 0x4000000 + t.toNat * 0x20000000 + g.toNat * 0x100000 + p.toNat * 0x80000 + q.toNat * 0x40000 + d.toNat * 0x1000 + a.toNat * 0x40 + b.toNat)
  | .vmulI32 t g p q d a b => some (32, 0x4800000 + t.toNat * 0x20000000 + g.toNat * 0x100000 + p.toNat * 0x80000 + q.toNat * 0x40000 + d.toNat * 0x1000 + a.toNat * 0x40 + b.toNat)
  | .vmulhI32 t g p q d a b => some (32, 0x5000000 + t.toNat * 0x20000000 + g.toNat * 0x100000 + p.toNat * 0x80000 + q.toNat * 0x40000 + d.toNat * 0x1000 + a.toNat * 0x40 + b.toNat)
  | .vminI32 t g p q d a b => some (32, 0x5800000 + t.toNat * 0x20000000 + g.toNat * 0x100000 + p.toNat * 0x80000 + q.toNat * 0x40000 + d.toNat * 0x1000 + a.toNat * 0x40 + b.toNat)
  | .vmaxI32 t g p q d a b => some (32, 0x6000000 + t.toNat * 0x20000000 + g.toNat * 0x100000 + p.toNat * 0x80000 + q.toNat * 0x40000 + d.toNat * 0x1000 + a.toNat * 0x40 + b.toNat)
  | .vaddI32Bc t d a p m => some (32, 0x6800000 + t.toNat * 0x20000000 + d.toNat * 0x4000 + a.toNat * 0x20 + p.toNat * 0x10 + m.toNat)
  | .vmulI32Bc t d a p m => some (32, 0x7000000 + t.toNat * 0x20000000 + d.toNat * 0x4000 + a.toNat * 0x20 + p.toNat * 0x10 + m.toNat)
  | .vaddiI32 t d a i => some (32, 0x7800000 + t.toNat * 0x20000000 + d.toNat * 0x4000 + a.toNat * 0x20 + i.toNat)
  | .vandU32 t g p q d a b => some (32, 0x8000000 + t.toNat * 0x20000000 + g.toNat * 0x100000 + p.toNat * 0x80000 + q.toNat * 0x40000 + d.toNat * 0x1000 + a.toNat * 0x40 + b.toNat)
  | .vorU32 t g p q d a b => some (32, 0x8800000 + t.toNat * 0x20000000 + g.toNat * 0x100000 + p.toNat * 0x80000 + q.toNat * 0x40000 + d.toNat * 0x1000 + a.toNat * 0x40 + b.toNat)
  | .vxorU32 t g p q d a b => some (32, 0x9000000 + t.toNat * 0x20000000 + g.toNat * 0x100000 + p.toNat * 0x80000 + q.toNat * 0x40000 + d.toNat * 0x1000 + a.toNat * 0x40 + b.toNat)
  | .vandU32Bc t d a p m => some (32, 0x9800000 + t.toNat * 0x20000000 + d.toNat * 0x4000 + a.toNat * 0x20 + p.toNat * 0x10 + m.toNat)
  | .vxorU32Bc t d a p m => some (32, 0xA000000 + t.toNat * 0x20000000 + d.toNat * 0x4000 + a.toNat * 0x20 + p.toNat * 0x10 + m.toNat)
  | .vsllI32 t d a i => some (32, 0xA800000 + t.toNat * 0x20000000 + d.toNat * 0x4000 + a.toNat * 0x20 + i.toNat)
  | .vsrlI32 t d a i => some (32, 0xB000000 + t.toNat * 0x20000000 + d.toNat * 0x4000 + a.toNat * 0x20 + i.toNat)
  | .vsraI32 t d a i => some (32, 0xB800000 + t.toNat * 0x20000000 + d.toNat * 0x4000 + a.toNat * 0x20 + i.toNat)
  | .vaddF32 t g p q d a b => some (32, 0xC000000 + t.toNat * 0x20000000 + g.toNat * 0x100000 + p.toNat * 0x80000 + q.toNat * 0x40000 + d.toNat * 0x1000 + a.toNat * 0x40 + b.toNat)
  | .vsubF32 t g p q d a b => some (32, 0xC800000 + t.toNat * 0x20000000 + g.toNat * 0x100000 + p.toNat * 0x80000 + q.toNat * 0x40000 + d.toNat * 0x1000 + a.toNat * 0x40 + b.toNat)
  | .vmulF32 t g p q d a b => some (32, 0xD000000 + t.toNat * 0x20000000 + g.toNat * 0x100000 + p.toNat * 0x80000 + q.toNat * 0x40000 + d.toNat * 0x1000 + a.toNat * 0x40 + b.toNat)
  | .vfmaF32 t g p q d a b => some (32, 0xD800000 + t.toNat * 0x20000000 + g.toNat * 0x100000 + p.toNat * 0x80000 + q.toNat * 0x40000 + d.toNat * 0x1000 + a.toNat * 0x40 + b.toNat)
  | .vmaxF32 t g p q d a b => some (32, 0xE000000 + t.toNat * 0x20000000 + g.toNat * 0x100000 + p.toNat * 0x80000 + q.toNat * 0x40000 + d.toNat * 0x1000 + a.toNat * 0x40 + b.toNat)
  | .vminF32 t g p q d a b => some (32, 0xE800000 + t.toNat * 0x20000000 + g.toNat * 0x100000 + p.toNat * 0x80000 + q.toNat * 0x40000 + d.toNat * 0x1000 + a.toNat * 0x40 + b.toNat)
  | .vaddBf16 t g p q d a b => some (32, 0xF000000 + t.toNat * 0x20000000 + g.toNat * 0x100000 + p.toNat * 0x80000 + q.toNat * 0x40000 + d.toNat * 0x1000 + a.toNat * 0x40 + b.toNat)
  | .vsubBf16 t g p q d a b => some (32, 0xF800000 + t.toNat * 0x20000000 + g.toNat * 0x100000 + p.toNat * 0x80000 + q.toNat * 0x40000 + d.toNat * 0x1000 + a.toNat * 0x40 + b.toNat)
  | .vmulBf16 t g p q d a b => some (32, 0x10000000 + t.toNat * 0x20000000 + g.toNat * 0x100000 + p.toNat * 0x80000 + q.toNat * 0x40000 + d.toNat * 0x1000 + a.toNat * 0x40 + b.toNat)
  | .vfmaBf16 t g p q d a b => some (32, 0x10800000 + t.toNat * 0x20000000 + g.toNat * 0x100000 + p.toNat * 0x80000 + q.toNat * 0x40000 + d.toNat * 0x1000 + a.toNat * 0x40 + b.toNat)
  | .vaddF32Bc t d a p m => some (32, 0x11000000 + t.toNat * 0x20000000 + d.toNat * 0x4000 + a.toNat * 0x20 + p.toNat * 0x10 + m.toNat)
  | .vmulF32Bc t d a p m => some (32, 0x11800000 + t.toNat * 0x20000000 + d.toNat * 0x4000 + a.toNat * 0x20 + p.toNat * 0x10 + m.toNat)
  | .vcmpltI32 t d a b p => some (32, 0x12000000 + t.toNat * 0x20000000 + d.toNat * 0x80000 + a.toNat * 0x400 + b.toNat * 0x2 + p.toNat)
  | .vcmpeqI32 t d a b p => some (32, 0x12800000 + t.toNat * 0x20000000 + d.toNat * 0x80000 + a.toNat * 0x400 + b.toNat * 0x2 + p.toNat)
  | .vcmpleF32 t d a b p => some (32, 0x13000000 + t.toNat * 0x20000000 + d.toNat * 0x80000 + a.toNat * 0x400 + b.toNat * 0x2 + p.toNat)
  | .vmergeU32 t d a p m => some (32, 0x13800000 + t.toNat * 0x20000000 + d.toNat * 0x4000 + a.toNat * 0x20 + p.toNat * 0x10 + m.toNat)
  | .vcvtF32I32 t d a r => some (32, 0x14000000 + t.toNat * 0x20000000 + d.toNat * 0x4000 + a.toNat * 0x20 + r.toNat)
  | .vcvtF32U32 t d a r => some (32, 0x14000008 + t.toNat * 0x20000000 + d.toNat * 0x4000 + a.toNat * 0x20 + r.toNat)
  | .vcvtI32F32 t d a r => some (32, 0x14800000 + t.toNat * 0x20000000 + d.toNat * 0x4000 + a.toNat * 0x20 + r.toNat)
  | .vcvtU32F32 t d a r => some (32, 0x14800008 + t.toNat * 0x20000000 + d.toNat * 0x4000 + a.toNat * 0x20 + r.toNat)
  | .vcvtBf16F32 t d a h r => some (32, 0x15000000 + t.toNat * 0x20000000 + d.toNat * 0x4000 + a.toNat * 0x20 + h.toNat * 0x8 + r.toNat)
  | .vcvtF32Bf16 t d a h => some (32, 0x15000010 + t.toNat * 0x20000000 + d.toNat * 0x4000 + a.toNat * 0x20 + h.toNat * 0x8)
  | .vpacksI16I32 t d a p => some (32, 0x15800000 + t.toNat * 0x20000000 + d.toNat * 0x4000 + a.toNat * 0x20 + p.toNat)
  | .vpacksI8I32 t d a p => some (32, 0x15800008 + t.toNat * 0x20000000 + d.toNat * 0x4000 + a.toNat * 0x20 + p.toNat)
  | .vpacksU8I32 t d a p => some (32, 0x15800010 + t.toNat * 0x20000000 + d.toNat * 0x4000 + a.toNat * 0x20 + p.toNat)
  | .vrotg t d a k => some (32, 0x16000000 + t.toNat * 0x20000000 + d.toNat * 0x4000 + a.toNat * 0x20 + k.toNat)
  | .vrot t d a p m => some (32, 0x16800000 + t.toNat * 0x20000000 + d.toNat * 0x4000 + a.toNat * 0x20 + p.toNat * 0x10 + m.toNat)
  | .vperm t d a p m => some (32, 0x17000000 + t.toNat * 0x20000000 + d.toNat * 0x4000 + a.toNat * 0x20 + p.toNat * 0x10 + m.toNat)
  | .vbcast t d a p m => some (32, 0x17800000 + t.toNat * 0x20000000 + d.toNat * 0x4000 + a.toNat * 0x20 + p.toNat * 0x10 + m.toNat)
  | .vredaddI32 t d a p m => some (32, 0x18000000 + t.toNat * 0x20000000 + d.toNat * 0x4000 + a.toNat * 0x20 + p.toNat * 0x10 + m.toNat)
  | .vredaddF32 t d a p m => some (32, 0x18800000 + t.toNat * 0x20000000 + d.toNat * 0x4000 + a.toNat * 0x20 + p.toNat * 0x10 + m.toNat)
  | .vredmaxF32 t d a p m => some (32, 0x19000000 + t.toNat * 0x20000000 + d.toNat * 0x4000 + a.toNat * 0x20 + p.toNat * 0x10 + m.toNat)
  | .vscanaddF32 t d a p m => some (32, 0x19800000 + t.toNat * 0x20000000 + d.toNat * 0x4000 + a.toNat * 0x20 + p.toNat * 0x10 + m.toNat)
  | .vmand t d a b => some (32, 0x1A000000 + t.toNat * 0x20000000 + d.toNat * 0x80000 + a.toNat * 0x8000 + b.toNat * 0x40)
  | .vmor t d a b => some (32, 0x1A000400 + t.toNat * 0x20000000 + d.toNat * 0x80000 + a.toNat * 0x8000 + b.toNat * 0x40)
  | .vmxor t d a b => some (32, 0x1A000800 + t.toNat * 0x20000000 + d.toNat * 0x80000 + a.toNat * 0x8000 + b.toNat * 0x40)
  | .vmandn t d a b => some (32, 0x1A000C00 + t.toNat * 0x20000000 + d.toNat * 0x80000 + a.toNat * 0x8000 + b.toNat * 0x40)
  | .vmnot t d a => some (32, 0x1A001000 + t.toNat * 0x20000000 + d.toNat * 0x80000 + a.toNat * 0x8000)
  | .vmget t s m => some (32, 0x1A800000 + t.toNat * 0x20000000 + s.toNat * 0x80 + m.toNat * 0x8)
  | .vmset t s m => some (32, 0x1A800001 + t.toNat * 0x20000000 + s.toNat * 0x80 + m.toNat * 0x8)
  | .vmcnt t s m => some (32, 0x1A800002 + t.toNat * 0x20000000 + s.toNat * 0x80 + m.toNat * 0x8)
  | .vmfirst t s m => some (32, 0x1A800003 + t.toNat * 0x20000000 + s.toNat * 0x80 + m.toNat * 0x8)
  | .vmfromq t v p m => some (32, 0x1A800004 + t.toNat * 0x20000000 + v.toNat * 0x4000 + p.toNat * 0x2000 + m.toNat * 0x8)
  | .vmtoq t v m => some (32, 0x1A800005 + t.toNat * 0x20000000 + v.toNat * 0x4000 + m.toNat * 0x8)
  | .vlaneU32 t v p s l h => some (32, 0x1B000000 + t.toNat * 0x20000000 + v.toNat * 0x4000 + p.toNat * 0x2000 + s.toNat * 0x80 + l.toNat * 0x8 + h.toNat)
  | .vlaneI32 t v p s l h => some (32, 0x1B000004 + t.toNat * 0x20000000 + v.toNat * 0x4000 + p.toNat * 0x2000 + s.toNat * 0x80 + l.toNat * 0x8 + h.toNat)
  | .vsplatU32 t v s => some (32, 0x1B800000 + t.toNat * 0x20000000 + v.toNat * 0x4000 + s.toNat * 0x80)
  | .vsplatU16 t v s => some (32, 0x1B800001 + t.toNat * 0x20000000 + v.toNat * 0x4000 + s.toNat * 0x80)
  | .vsplatU8 t v s => some (32, 0x1B800002 + t.toNat * 0x20000000 + v.toNat * 0x4000 + s.toNat * 0x80)
  | .vtrd t v s u => some (32, 0x1B800003 + t.toNat * 0x20000000 + v.toNat * 0x4000 + s.toNat * 0x80 + u.toNat * 0x8)
  | .vtwr t v p s u => some (32, 0x1B800004 + t.toNat * 0x20000000 + v.toNat * 0x4000 + p.toNat * 0x2000 + s.toNat * 0x80 + u.toNat * 0x8)
  | .tld t u c s => some (32, 0x0 + t.toNat * 0x20000000 + u.toNat * 0x80000 + c.toNat * 0x8000 + s.toNat * 0x200)
  | .tldX t u c s => some (32, 0x1 + t.toNat * 0x20000000 + u.toNat * 0x80000 + c.toNat * 0x8000 + s.toNat * 0x200)
  | .tldSc t u c s => some (32, 0x2 + t.toNat * 0x20000000 + u.toNat * 0x80000 + c.toNat * 0x8000 + s.toNat * 0x200)
  | .tst t u c s => some (32, 0x800000 + t.toNat * 0x20000000 + u.toNat * 0x80000 + c.toNat * 0x8000 + s.toNat * 0x200)
  | .tstX t u c s => some (32, 0x800001 + t.toNat * 0x20000000 + u.toNat * 0x80000 + c.toNat * 0x8000 + s.toNat * 0x200)
  | .tstSc t u c s => some (32, 0x800002 + t.toNat * 0x20000000 + u.toNat * 0x80000 + c.toNat * 0x8000 + s.toNat * 0x200)
  | .mma t n a b f g c => some (32, 0x2000000 + t.toNat * 0x20000000 + n.toNat * 0x400000 + a.toNat * 0x40000 + b.toNat * 0x4000 + f.toNat * 0x1000 + g.toNat * 0x400 + c.toNat * 0x200)
  | .mmaz t n a b f g c => some (32, 0x2000001 + t.toNat * 0x20000000 + n.toNat * 0x400000 + a.toNat * 0x40000 + b.toNat * 0x4000 + f.toNat * 0x1000 + g.toNat * 0x400 + c.toNat * 0x200)
  | .aoutF32 t n u s r => some (32, 0x4000000 + t.toNat * 0x20000000 + n.toNat * 0x400000 + u.toNat * 0x40000 + s.toNat * 0x1000 + r.toNat * 0x200)
  | .aoutBf16 t n u s r => some (32, 0x4000001 + t.toNat * 0x20000000 + n.toNat * 0x400000 + u.toNat * 0x40000 + s.toNat * 0x1000 + r.toNat * 0x200)
  | .aoutI8 t n u s r => some (32, 0x4000002 + t.toNat * 0x20000000 + n.toNat * 0x400000 + u.toNat * 0x40000 + s.toNat * 0x1000 + r.toNat * 0x200)
  | .aoutI6 t n u s r => some (32, 0x4000003 + t.toNat * 0x20000000 + n.toNat * 0x400000 + u.toNat * 0x40000 + s.toNat * 0x1000 + r.toNat * 0x200)
  | .aoutI4 t n u s r => some (32, 0x4000004 + t.toNat * 0x20000000 + n.toNat * 0x400000 + u.toNat * 0x40000 + s.toNat * 0x1000 + r.toNat * 0x200)
  | .tcfg t s => some (32, 0x6000000 + t.toNat * 0x20000000 + s.toNat * 0x200)
  | .trel t s => some (32, 0x6000001 + t.toNat * 0x20000000 + s.toNat * 0x200)
  | .azero t n => some (32, 0x6800000 + t.toNat * 0x20000000 + n.toNat * 0x80000)
  | .tzero t u => some (32, 0x6800001 + t.toNat * 0x20000000 + u.toNat * 0x80000)
  | .ttrI8 t u c => some (32, 0x7000000 + t.toNat * 0x20000000 + u.toNat * 0x80000 + c.toNat * 0x8000)
  | .ttrI6 t u c => some (32, 0x7000001 + t.toNat * 0x20000000 + u.toNat * 0x80000 + c.toNat * 0x8000)
  | .ttrI4 t u c => some (32, 0x7000002 + t.toNat * 0x20000000 + u.toNat * 0x80000 + c.toNat * 0x8000)
  | .scldA e s => some (16, 0x0 + e.toNat * 0x40 + s.toNat)
  | .scldB e s => some (16, 0x400 + e.toNat * 0x40 + s.toNat)
  | .scldqA s g => some (16, 0x800 + s.toNat * 0x8 + g.toNat)
  | .scldqB s g => some (16, 0xA00 + s.toNat * 0x8 + g.toNat)
  | .scrstA => some (16, 0xC00)
  | .scrstB => some (16, 0xE00)
  | .kuniA s => some (16, 0x1000 + s.toNat * 0x8)
  | .kuniB s => some (16, 0x1200 + s.toNat * 0x8)
  | .chstart t x y ch => some (48, 0x0 + t.toNat * 0x200000000000 + x.toNat * 0x200000000 + y.toNat * 0x8000000 + ch.toNat * 0x2000000)
  | .chstop t ch => some (48, 0x8000000000 + t.toNat * 0x200000000000 + ch.toNat * 0x2000000)
  | .chwait t ch => some (48, 0x10000000000 + t.toNat * 0x200000000000 + ch.toNat * 0x2000000)
  | .cwait t x y i => some (48, 0x40000000000 + t.toNat * 0x200000000000 + x.toNat * 0x200000000 + y.toNat * 0x8000000 + i.toNat)
  | .bwait t x y i => some (48, 0x48000000000 + t.toNat * 0x200000000000 + x.toNat * 0x200000000 + y.toNat * 0x8000000 + i.toNat)
  | .cadd t x y i => some (48, 0x50000000000 + t.toNat * 0x200000000000 + x.toNat * 0x200000000 + y.toNat * 0x8000000 + i.toNat)
  | .badd t x y i => some (48, 0x58000000000 + t.toNat * 0x200000000000 + x.toNat * 0x200000000 + y.toNat * 0x8000000 + i.toNat)
  | .arm t v p x n => some (48, 0x60000000000 + t.toNat * 0x200000000000 + v.toNat * 0x40000000 + p.toNat * 0x20000000 + x.toNat * 0x800000 + n.toNat)
  | .disarm t n => some (48, 0x68000000000 + t.toNat * 0x200000000000 + n.toNat)
  | .next t => some (48, 0x80000000000 + t.toNat * 0x200000000000)
  | .nextt t => some (48, 0x88000000000 + t.toNat * 0x200000000000)
  | .spawn t x y i => some (48, 0xA0000000000 + t.toNat * 0x200000000000 + x.toNat * 0x200000000 + y.toNat * 0x8000000 + i.toNat)
  | .gsub t lvl x y i => some (48, 0xC0000000000 + t.toNat * 0x200000000000 + lvl.toNat * 0x1000000000 + x.toNat * 0x40000000 + y.toNat * 0x1000000 + i.toNat)
  | .gwait t x y => some (48, 0xC8000000000 + t.toNat * 0x200000000000 + x.toNat * 0x40000000 + y.toNat * 0x1000000)
  | .pseed t n s => some (32, 0x0 + t.toNat * 0x20000000 + n.toNat * 0x80000 + s.toNat * 0x2000)
  | .paux t n s => some (32, 0x1 + t.toNat * 0x20000000 + n.toNat * 0x80000 + s.toNat * 0x2000)
  | .pgets t n s => some (32, 0x2 + t.toNat * 0x20000000 + n.toNat * 0x80000 + s.toNat * 0x2000)
  | .pgeta t n s => some (32, 0x3 + t.toNat * 0x20000000 + n.toNat * 0x80000 + s.toNat * 0x2000)
  | .bsetlen t l => some (32, 0x4 + t.toNat * 0x20000000 + l.toNat * 0x80000)
  | .bdither t n => some (32, 0x5 + t.toNat * 0x20000000 + n.toNat * 0x80000)
  | .bdslv t d v p n k => some (32, 0x800000 + t.toNat * 0x20000000 + d.toNat * 0x80000 + v.toNat * 0x400 + p.toNat * 0x200 + n.toNat * 0x20 + k.toNat)
  | .bdslvBi t d v p n k => some (32, 0x800008 + t.toNat * 0x20000000 + d.toNat * 0x80000 + v.toNat * 0x400 + p.toNat * 0x200 + n.toNat * 0x20 + k.toNat)
  | .bcryst t a v => some (32, 0x1000000 + t.toNat * 0x20000000 + a.toNat * 0x80000 + v.toNat * 0x400)
  | .bcrysta t a v => some (32, 0x1000008 + t.toNat * 0x20000000 + a.toNat * 0x80000 + v.toNat * 0x400)
  | .bcrystp t a v k => some (32, 0x1000010 + t.toNat * 0x20000000 + a.toNat * 0x80000 + v.toNat * 0x400 + k.toNat)
  | .bcrystpa t a v k => some (32, 0x1000018 + t.toNat * 0x20000000 + a.toNat * 0x80000 + v.toNat * 0x400 + k.toNat)
  | .bresalt t d a n => some (32, 0x1800000 + t.toNat * 0x20000000 + d.toNat * 0x80000 + a.toNat * 0x8000 + n.toNat * 0x80)
  | .band t d a b => some (32, 0x2000000 + t.toNat * 0x20000000 + d.toNat * 0x80000 + a.toNat * 0x8000 + b.toNat * 0x800)
  | .bxnor t d a b => some (32, 0x2800000 + t.toNat * 0x20000000 + d.toNat * 0x80000 + a.toNat * 0x8000 + b.toNat * 0x800)
  | .bmux t d a b s => some (32, 0x3000000 + t.toNat * 0x20000000 + d.toNat * 0x80000 + a.toNat * 0x8000 + b.toNat * 0x800 + s.toNat * 0x80)
  | .bmin t d a b => some (32, 0x3800000 + t.toNat * 0x20000000 + d.toNat * 0x80000 + a.toNat * 0x8000 + b.toNat * 0x800)
  | .bmax t d a b => some (32, 0x3800001 + t.toNat * 0x20000000 + d.toNat * 0x80000 + a.toNat * 0x8000 + b.toNat * 0x800)
  | .bnot t d a => some (32, 0x4000000 + t.toNat * 0x20000000 + d.toNat * 0x80000 + a.toNat * 0x8000)
  | .bmov t d a => some (32, 0x4000001 + t.toNat * 0x20000000 + d.toNat * 0x80000 + a.toNat * 0x8000)
  | .bbern t m v p n => some (32, 0x4800000 + t.toNat * 0x20000000 + m.toNat * 0x80000 + v.toNat * 0x400 + p.toNat * 0x200 + n.toNat * 0x20)
  | .bcat t m v p n => some (32, 0x5000000 + t.toNat * 0x20000000 + m.toNat * 0x80000 + v.toNat * 0x400 + p.toNat * 0x200 + n.toNat * 0x20)
  | .gnop r => some (256, recordBits 0x00 r)
  | .gcopy r => some (256, recordBits 0x01 r)
  | .gconv r => some (256, recordBits 0x02 r)
  | .gfill r => some (256, recordBits 0x03 r)
  | .gelt r => some (256, recordBits 0x04 r)
  | .gelts r => some (256, recordBits 0x05 r)
  | .gmma r => some (256, recordBits 0x06 r)
  | .gmmaz r => some (256, recordBits 0x07 r)
  | .gscan r => some (256, recordBits 0x08 r)
  | .gred r => some (256, recordBits 0x09 r)
  | .ggather r => some (256, recordBits 0x0A r)
  | .gagather r => some (256, recordBits 0x0B r)
  | .grscat r => some (256, recordBits 0x0C r)
  | .gared r => some (256, recordBits 0x0D r)
  | .ga2a r => some (256, recordBits 0x0E r)
  | .gbprod r => some (256, recordBits 0x0F r)
  | .gbdraw r => some (256, recordBits 0x10 r)
  | .gcwait r => some (256, recordBits 0x11 r)
  | .send stamp buf n pos => some (128, 0x100000000 + stamp.toNat + buf.toNat <<< 38 + n.toNat <<< 57 + pos.toNat <<< 68)
  | .sendSig stamp buf n pos => some (128, 0x100000000 + 0x2000000000000000000 + stamp.toNat + buf.toNat <<< 38 + n.toNat <<< 57 + pos.toNat <<< 68)
  | .land stamp buf n pos => some (128, 0x200000000 + stamp.toNat + buf.toNat <<< 38 + n.toNat <<< 57 + pos.toNat <<< 68)
  | .fwd stamp n pos oq => some (128, 0x300000000 + stamp.toNat + n.toNat <<< 57 + pos.toNat <<< 68 + oq.toNat <<< 73)
  | .redAddF32 stamp buf n pos => some (128, 0x400000000 + stamp.toNat + buf.toNat <<< 38 + n.toNat <<< 57 + pos.toNat <<< 68)
  | .redAddBf16 stamp buf n pos => some (128, 0x400000000 + 0x2000000000000000000 + stamp.toNat + buf.toNat <<< 38 + n.toNat <<< 57 + pos.toNat <<< 68)
  | .redAddI32 stamp buf n pos => some (128, 0x400000000 + 0x4000000000000000000 + stamp.toNat + buf.toNat <<< 38 + n.toNat <<< 57 + pos.toNat <<< 68)
  | .redMaxF32 stamp buf n pos => some (128, 0x400000000 + 0x6000000000000000000 + stamp.toNat + buf.toNat <<< 38 + n.toNat <<< 57 + pos.toNat <<< 68)
  | .redMaxBf16 stamp buf n pos => some (128, 0x400000000 + 0x8000000000000000000 + stamp.toNat + buf.toNat <<< 38 + n.toNat <<< 57 + pos.toNat <<< 68)
  | .redMaxI32 stamp buf n pos => some (128, 0x400000000 + 0xA000000000000000000 + stamp.toNat + buf.toNat <<< 38 + n.toNat <<< 57 + pos.toNat <<< 68)
  | .guard stamp buf pos => some (128, 0x500000000 + stamp.toNat + buf.toNat <<< 38 + pos.toNat <<< 68)
  | .linkLoop count period => some (128, 0x600000000 + count.toNat <<< 38 + period.toNat <<< 62)
  | .endl => some (128, 0x700000000)
  | .mark stamp buf addr => some (128, 0x800000000 + stamp.toNat + buf.toNat <<< 86 + addr.toNat <<< 38)
  | .ckpt stamp stage => some (128, 0x900000000 + stamp.toNat + stage.toNat <<< 38)
  | .fill stamp buf n addr => some (128, 0xA00000000 + stamp.toNat + buf.toNat <<< 86 + n.toNat <<< 105 + addr.toNat <<< 38)
  | .delv stamp buf n addr => some (128, 0xB00000000 + stamp.toNat + buf.toNat <<< 86 + n.toNat <<< 105 + addr.toNat <<< 38)
  | .slot stamp core chip arr rdep rarr rport => some (128, 0xC00000000 + stamp.toNat + core.toNat <<< 38 + chip.toNat <<< 49 + arr.toNat <<< 65 + rdep.toNat <<< 83 + rarr.toNat <<< 101 + rport.toNat <<< 119)
  | .serve stamp rdep rport => some (128, 0xD00000000 + stamp.toNat + rdep.toNat <<< 38 + rport.toNat <<< 56)
  | .halt stamp => some (128, 0xE00000000 + stamp.toNat)
  | .reservedOpc w => some (128, w.toNat)
  | _ => none

/-- The first of the words that is an instruction. -/
def firstLegal : List Instr → Option Instr
  | [] => none
  | i :: is => if isIllegal i then firstLegal is else some i

/-- The instruction of a bare word of `nbits` bits.
A word of 32 or 16 bits does not say which slot it stands in; the slots are tried in the order of R42.
Log 3, DESIGN CHOICE. -/
def decodeTableWord (nbits w : Nat) : Option Instr :=
  match nbits with
  | 8 => if w = 0 then some .idle else none
  | 16 => firstLegal [decodeA w, decodeK w]
  | 32 => firstLegal [decodeC w, decodeL w, decodeV w, decodeM w, decodeB w]
  | 48 => firstLegal [decodeE w]
  | 96 => if field w 28 23 = 0x3F then some (decodeTree w) else none
  | _ => none

end Sys2Proof

end
end

