-- ==== Sys2Proof/Machine/Coding.lean ====
section
/-! DEFINITION. The codes of the links: the CRC of R420, the AES-256-GMAC of its tags (FIPS 197 and SP 800-38D, log 112, PRESUMED), and
the Reed-Solomon code of R423. -/

namespace Sys2Proof.Machine

/-! ## CRC-16 (R420) -/

/-- One byte of the CRC-16 with polynomial 0x1021, most significant bit first. -/
def crcByte (c b : Nat) : Nat :=
  (rangeFrom 0 8).foldl (fun c _ => if bit c 15 then (2 * c % 65536) ^^^ 0x1021 else 2 * c % 65536) (c ^^^ (b <<< 8))

/-- The CRC of a byte string from an initial value. -/
def crc16 (init : Nat) (bs : List Nat) : Nat := bs.foldl crcByte init

/-! ## Bytes as field elements -/

/-- The product of two bytes in the field with a polynomial of degree 8. -/
def gfMul (poly a b : Nat) : Nat :=
  (rangeFrom 0 8).foldl (fun acc i =>
    let d := if bit acc 7 then (2 * acc) ^^^ poly else 2 * acc
    if bit b (7 - i) then d ^^^ a else d) 0

/-- A byte to a power. -/
def gfPow (poly a : Nat) : Nat → Nat
  | 0 => 1
  | n + 1 => gfMul poly (gfPow poly a n) a

/-- The exclusive or of two byte strings of one length. -/
def xorBytes (xs ys : List Nat) : List Nat := List.zipWith (fun a b => a ^^^ b) xs ys

/-- A byte string read with its first byte most significant. -/
def bigEndian (bs : List Nat) : Nat := bs.foldl (fun v b => 256 * v + b) 0

/-! ## AES-256 -/

/-- The S-box, 32 entries to a word, entry 0 lowest. -/
def sboxRows : List Nat :=
  [
   0xc072a49cafa2d4adf04759fa7dc982ca76abd7fe2b670130c56f6bf27b777c63,
   0x75b227ebe28012079a059618c323c7041531d871f1e5a534ccf73f362693fdb7,
   0xcf584c4a39becb6a5bb1fc20ed00d153842fe329b3d63b52a05a6e1b1a2c8309,
   0xd2f3ff1021dab6bcf5389d928f40a351a89f3c507f02f94585334d43fbaaefd0,
   0xdb0b5ede14b8ee4688902a22dc4f816073195d643d7ea7c41744975fec130ccd,
   0x08ae7a65eaf4566ca94ed58d6d37c8e779e4959162acd3c25c2406490a3a32e0,
   0x9e1dc186b95735610ef6034866b53e708a8bbd4b1f74dde8c6b4a61c2e2578ba,
   0x16bb54b00f2d99416842e6bf0d89a18cdf2855cee9871e9b948ed9691198f8e1]

/-- The S-box of a byte. -/
def sbox (b : Nat) : Nat := field (sboxRows.getD (b / 32) 0) (8 * (b % 32) + 7) (8 * (b % 32))

/-- The next word of the key schedule from the words before it, the latest first. -/
def nextKeyWord (ws : List (List Nat)) (i : Nat) : List Nat :=
  let last := ws.headD []
  let t :=
    if i % 8 = 0 then xorBytes ((last.drop 1 ++ last.take 1).map sbox) [gfPow 0x11B 2 (i / 8 - 1), 0, 0, 0]
    else if i % 8 = 4 then last.map sbox
    else last
  xorBytes (ws.getD 7 []) t

/-- A byte string in groups of `n` bytes. -/
def groupBytes (n : Nat) : Nat → List Nat → List (List Nat)
  | 0, _ => []
  | k + 1, bs => bs.take n :: groupBytes n k (bs.drop n)

/-- The 15 round keys of a key of 32 bytes. -/
def roundKeys (key : List Nat) : List (List Nat) :=
  let ws := (rangeFrom 8 52).foldl (fun ws i => nextKeyWord ws i :: ws) (groupBytes 4 8 key).reverse
  groupBytes 16 15 ws.reverse.flatten

/-- SubBytes and ShiftRows of a block of 16 bytes. -/
def subShift (b : List Nat) : List Nat :=
  (rangeFrom 0 16).map (fun k => sbox (b.getD (4 * ((k / 4 + k % 4) % 4) + k % 4) 0))

/-- MixColumns. -/
def mixColumns (b : List Nat) : List Nat :=
  (rangeFrom 0 16).map (fun k =>
    let x (j : Nat) : Nat := b.getD (4 * (k / 4) + (k + j) % 4) 0
    gfMul 0x11B 2 (x 0) ^^^ gfMul 0x11B 3 (x 1) ^^^ x 2 ^^^ x 3)

/-- AES-256 of a block under the round keys of a key. -/
def aesBlock (keys : List (List Nat)) (b : List Nat) : List Nat :=
  let mid := ((keys.drop 1).take 13).foldl (fun b k => xorBytes (mixColumns (subShift b)) k) (xorBytes b (keys.headD []))
  xorBytes (subShift mid) (keys.getD 14 [])

/-! ## GMAC -/

/-- The product of two blocks in the field of GHASH. -/
def ghashMul (x y : Nat) : Nat :=
  ((rangeFrom 0 128).foldl (fun (acc : Nat × Nat) i =>
    (if bit x (127 - i) then acc.1 ^^^ acc.2 else acc.1,
      if bit acc.2 0 then (acc.2 >>> 1) ^^^ (0xE1 <<< 120) else acc.2 >>> 1)) (0, y)).1

/-- GHASH of a list of blocks. -/
def ghash (h : Nat) (blocks : List Nat) : Nat := blocks.foldl (fun y x => ghashMul (y ^^^ x) h) 0

/-- First 8 bytes of the AES-256-GMAC tag over bytes 0 to 69 of a flit, by key and IV; every string with byte 0 lowest (R420).
Log 112, PRESUMED. -/
def gmac (key : BitVec 256) (iv : BitVec 96) (body : BitVec 560) : BitVec 64 :=
  let keys := roundKeys (splitPieces 8 32 key.toNat)
  let h := bigEndian (aesBlock keys (List.replicate 16 0))
  let blocks := (groupBytes 16 5 (splitPieces 8 80 body.toNat)).map bigEndian ++ [560 <<< 64]
  let mask := aesBlock keys (splitPieces 8 12 iv.toNat ++ [0, 0, 0, 1])
  let tag := ghash h blocks ^^^ bigEndian mask
  BitVec.ofNat 64 (joinPieces 8 ((rangeFrom 0 8).map (fun i => field tag (127 - 8 * i) (120 - 8 * i))))

/-! ## Reed-Solomon (R423) -/

/-- Multiplication under the field polynomial of R423, and powers of its α. -/
def rsMul (a b : Nat) : Nat := gfMul 0x11D a b
def rsAlpha (k : Nat) : Nat := gfPow 0x11D 2 (k % 255)

/-- The inverse of a byte that is not zero. -/
def rsInv (a : Nat) : Nat := gfPow 0x11D a 254

/-- The product of two polynomials, lowest degree first. -/
def rsPolyMul : List Nat → List Nat → List Nat
  | [], _ => []
  | a :: as, bs =>
    let rest := 0 :: rsPolyMul as bs
    (rangeFrom 0 (max bs.length rest.length)).map (fun i => rsMul a (bs.getD i 0) ^^^ rest.getD i 0)

/-- The value of a polynomial, lowest degree first. -/
def rsEval (p : List Nat) (x : Nat) : Nat := p.foldr (fun c v => rsMul v x ^^^ c) 0

/-- The generator, lowest degree first: the product of x − α^i for i = 0 to 7. -/
def rsGenerator : List Nat := (rangeFrom 0 8).foldl (fun g i => rsPolyMul g [rsAlpha i, 1]) [1]

/-- The eight parity symbols of a message, whose first byte has the highest degree; the highest first. -/
def rsParity (msg : List Nat) : List Nat :=
  let g := (rsGenerator.take 8).reverse
  msg.foldl (fun p b =>
    let f := b ^^^ p.headD 0
    xorBytes (p.drop 1 ++ [0]) (g.map (rsMul f))) (List.replicate 8 0)

/-- The syndromes of a word, the highest degree first. -/
def rsSyndromes (w : List Nat) : List Nat := (rangeFrom 0 8).map (fun i => rsEval w.reverse (rsAlpha i))

/-- The working values of the Berlekamp-Massey search: the locator, the one before its last change of length, that change's
discrepancy and its distance, and the number of errors. -/
structure RsSearch where
  loc : List Nat
  old : List Nat
  disc : Nat
  gap : Nat
  errs : Nat

/-- One step of the search, with syndrome `n`. -/
def rsStep (s : List Nat) (x : RsSearch) (n : Nat) : RsSearch :=
  let d := (rangeFrom 0 (x.errs + 1)).foldl (fun v i => v ^^^ rsMul (x.loc.getD i 0) (s.getD (n - i) 0)) 0
  if d = 0 then { x with gap := x.gap + 1 }
  else
    let c := rsMul d (rsInv x.disc)
    let add := List.replicate x.gap 0 ++ x.old.map (rsMul c)
    let loc := (rangeFrom 0 (max x.loc.length add.length)).map (fun i => x.loc.getD i 0 ^^^ add.getD i 0)
    if 2 * x.errs ≤ n then { loc := loc, old := x.loc, disc := d, gap := 1, errs := n + 1 - x.errs }
    else { x with loc := loc, gap := x.gap + 1 }

/-- The error locator of syndromes, lowest degree first. -/
def rsLocator (s : List Nat) : List Nat :=
  ((rangeFrom 0 8).foldl (rsStep s) { loc := [1], old := [1], disc := 1, gap := 1, errs := 0 }).loc

/-- The error of a word of 88 symbols at the symbol of degree `k`. -/
def rsErrorAt (s loc : List Nat) (k : Nat) : Nat :=
  let x := rsAlpha (255 - k % 255)
  if rsEval loc x != 0 then 0
  else
    let omega := (rsPolyMul s loc).take 8
    let slope := (loc.mapIdx (fun i c => if i % 2 = 1 then c else 0)).drop 1
    rsMul (rsAlpha k) (rsMul (rsEval omega x) (rsInv (rsEval slope x)))

/-- The word of at most four damaged symbols that has the syndromes of a received word of 88 symbols, if there is one; the
highest degree first (R423). Log 51, DEDUCED. -/
def rsErrors (w : List Nat) : Option (List Nat) :=
  let s := rsSyndromes w
  let loc := rsLocator s
  let errs := (rangeFrom 0 88).map (fun i => rsErrorAt s loc (87 - i))
  if (errs.filter (fun e => e != 0)).length ≤ 4 && rsSyndromes errs = s then some errs else none

end Sys2Proof.Machine
end

