-- ==== Sys2Proof/Machine/LoadStore.lean ====
section
/-! DEFINITION. The L slot: scalar and vector loads and stores, queue pushes, ordered accesses, atomics, fences and
capability instructions (R118 to R121, R271 to R289). -/

namespace Sys2Proof.Machine

/-- What an access moves once it has passed its checks: its spans relative to its first byte (start, length, place in
the data), its data when it writes, and where the data of a read goes. -/
structure Move where
  kinds : Nat
  write : Bool
  parts : List (Nat × Nat × Nat)
  data : Nat
  capTag : Option Bool
  dest : Dest
  acq : Option Nat
  /-- lanes and byte stride of a vector form (R443) -/
  mask : BitVec 64 := BitVec.allOnes 64
  stride : BitVec 32 := 4

/-- The access to one home. -/
def makeAccess (s : State) (cls j home : Nat) (plies : Nat × Nat × Option Nat) (mv : Move) : Access :=
  { ident := slotIdent s cls j, op := slotOp s cls, core := s.cur.core, rank := bundleRank s.cur.core,
    order := s.seq * 8 + cls, due := plies.1, landAt := plies.2.1, delayed := false, write := mv.write,
    spans := mv.parts.map (fun p => { addr := home + p.1, len := p.2.1, off := p.2.2 }),
    data := BitVec.ofNat 2048 mv.data, capTag := mv.capTag, dest := mv.dest, mask := mv.mask, stride := mv.stride }

/-- The distance class of an access: that of its home, and another chip for a group (R272). Log 42, DEDUCED. -/
def accessClass (s : State) (q : Request) (homes : List Nat) : Nat :=
  match chipName s s.cur.core (lowBits q.addr 64) with
  | .group _ => 4
  | _ => distance s.cur.core (homes.headD 0)

/-- The distance class by which the order rules judge an access, whether its checks pass or not (R272, R274). An access without
a home counts as within every scope. Log 105, DESIGN CHOICE. -/
def startClass (s : State) (q : Request) : Nat :=
  match resolveRequest s s.cur.core q with
  | .ok homes => accessClass s q homes
  | .error _ => match chipName s s.cur.core (lowBits q.addr 64) with
    | .group _ => 4
    | _ => 0

/-- The operation that an access is, complete at the landing of a load or at the last perform ply of a store (R273).
Log 35, DEDUCED. -/
def makeOp (s : State) (cls kinds dist due : Nat) (acq : Option Nat) : Op :=
  { ident := slotOp s cls, seq := s.seq, kinds := kinds, dist := dist, isOpen := false, due := due, acq := acq }

/-- The register that a load whose checks fail names, for the scoreboard (R30): its result would land as that of its home does, and as
one of the own scratchpad where there is no home, or no request slot. Log 128, DESIGN CHOICE. -/
def failedLands (s : State) (q : Request) (d : Dest) : List (Nat × Land) :=
  let lag := (homesOf s s.cur.core q).foldl (fun m h => max m ((accessPlies s s.cur.core h true).2.1 - s.now)) (landLag 0)
  match d with
  | .scalar r _ => if r = 0 then [] else [(lag, .scalar r 0)]
  | .cap k => [(lag, .cap k Cap.null)]
  | _ => []

/-- An access at issue: its first failing check, or its accesses, their request slots and its operation (R263, R266). -/
def accessSlot (s : State) (o : SlotOut) (q : Request) (mv : Move) : SlotOut :=
  let n := s.cur.core
  match checkAccess s n q with
  | some c =>
    { o with causes := o.causes ++ [c], starts := (mv.kinds, startClass s q) :: o.starts, lands := o.lands ++ failedLands s q mv.dest }
  | none =>
    let homes := homesOf s n q
    let timed := homes.map (fun h => (h, accessPlies s n h q.reply))
    let dist := accessClass s q homes
    let due := timed.foldl (fun m x => max m (if mv.write then x.2.1 else x.2.2.1)) 0
    { o with
      starts := (mv.kinds, dist) :: o.starts,
      effs := o.effs ++ (timed.mapIdx (fun j x => Eff.access (makeAccess s o.cls j x.1 x.2 mv))) ++
        (timed.mapIdx (fun j x => x.2.2.2.map (fun i => Eff.takeSlot i (slotIdent s o.cls j)))).filterMap id ++
        [.op (makeOp s o.cls mv.kinds dist due mv.acq)] }

/-- A load into a queue: the access fills the slot that the push reserves (R277, R133). A load that fails its checks counts as
its one push among the checks of the bundle (R136, R138). -/
def loadPush (o : SlotOut) (q : Nat) : SlotOut :=
  let isLoad (e : Eff) : Bool := match e with | .access _ => true | _ => false
  { o with
    pushes := if o.causes.isEmpty then
        o.effs.filterMap (fun e => match e with
          | .access a => some { q := q, lat := 0, data := 0, load := some a }
          | _ => none)
      else [{ q := q, lat := 0, data := 0, load := none }],
    effs := o.effs.filter (fun e => !isLoad e) }

/-- A plain request of a size at an address. -/
def plainRequest (cap : Cap) (addr : Int) (size : Nat) (perms : List Nat) : Request :=
  { cap := cap, addr := addr, size := size, perms := perms, natural := addr % size = 0,
    shape := shapeOk (field (lowBits addr 64) 36 32) (lowBits addr 32) size, ownOnly := none, stays := false,
    groupAllowed := false, reply := false, atomic := false }

/-! ## Scalar loads and stores to the own scratchpad (R118, R119) -/

/-- The request of a scalar access through c[C] with an element index. -/
def ownRequest (cap : Cap) (off : BitVec 13) (size : Nat) (perm : Nat) : Request :=
  { plainRequest cap ((cap.base : Int) + off.toInt * size) size [perm] with ownOnly := some 0 }

/-- LD.x: a load of `size` bytes, sign-extended, that lands four plies after issue (R121). -/
def ownLoad (s : State) (t : BitVec 3) (r : BitVec 6) (c : BitVec 4) (off : BitVec 13) (size : Nat) : SlotOut :=
  accessSlot s { SlotOut.empty 2 t.toNat with reads := [.cap c.toNat] } (ownRequest (s.rc c) off size 0)
    { kinds := 1, write := false, parts := [(0, size, 0)], data := 0, capTag := none,
      dest := .scalar r.toNat size, acq := none }

/-- ST.x: a store of the low `size` bytes of a scalar that performs four plies after issue (R121). -/
def ownStore (s : State) (t : BitVec 3) (r : BitVec 6) (c : BitVec 4) (off : BitVec 13) (size : Nat) : SlotOut :=
  accessSlot s { SlotOut.empty 2 t.toNat with reads := [.cap c.toNat, .scalar r.toNat] }
    (ownRequest (s.rc c) off size 1)
    { kinds := 2, write := true, parts := [(0, size, 0)], data := (s.rs r).toNat % 2 ^ (8 * size), capTag := none,
      dest := .nowhere, acq := none }

/-! ## Vector loads and stores (R275 to R278) -/

/-- The lanes a vector access touches, with their byte offsets from c[C].BASE (R276, R277). -/
def activeLanes (s : State) (ctl : Nat) (strided masked : Bool) : List (Nat × Int) :=
  let stride : Int := if strided then signedField ctl 59 40 else 4
  let mk := if masked then s.curCore.mreg (field ctl 63 60) else BitVec.allOnes 64
  ((rangeFrom 0 64).filter (fun i => maskBit mk i)).map (fun i => (i, (field ctl 39 0 : Int) + i * stride))

/-- The lanes and the byte stride of a vector access, for its request flits (R443). -/
def laneMask (lanes : List (Nat × Int)) : BitVec 64 := BitVec.ofNat 64 (lanes.foldl (fun m l => m ||| 2 ^ l.1) 0)
def laneStride (ctl : Nat) (strided : Bool) : BitVec 32 := if strided then toBits 32 (signedField ctl 59 40) else 4

/-- Least and greatest of the offsets. -/
def leastInt : Int → List Int → Int
  | m, [] => m
  | m, x :: xs => leastInt (if x < m then x else m) xs
def greatestInt : Int → List Int → Int
  | m, [] => m
  | m, x :: xs => greatestInt (if m < x then x else m) xs

/-- The request of a vector access over its whole span, and the parts of its lanes relative to the lowest byte: one run of 256
bytes for the plain form, so that a window 1 sees one push or one peek (R253, R277, R278). Log 41, DEDUCED. -/
def vectorRequest (cap : Cap) (lanes : List (Nat × Int)) (perm : Nat) (plainForm : Bool) : Request × List (Nat × Nat × Nat) :=
  let offs := lanes.map Prod.snd
  let lo := leastInt (offs.headD 0) offs
  let hi := greatestInt (offs.headD 0) offs + 4
  let base : Int := cap.base
  let a := lowBits (base + lo) 64
  let win := field a 36 32
  let shape := if win = 1 then plainForm && a % 256 = 0 else win != 5
  ({ plainRequest cap (base + lo) (hi - lo).toNat [perm] with
      natural := offs.all (fun x => (base + x) % 4 = 0), shape := shape, groupAllowed := perm = 1, reply := perm = 0 },
   if plainForm then [(0, 256, 0)] else lanes.map (fun l => ((l.2 - lo).toNat, 4, 4 * l.1)))

/-- LDV and its forms. Log 41, DEDUCED. -/
def vectorLoad (s : State) (t : BitVec 3) (v : BitVec 9) (c : BitVec 4) (r : BitVec 6) (strided masked : Bool) : SlotOut :=
  let ctl := (s.rs r).toNat
  let lanes := activeLanes s ctl strided masked
  let o := { SlotOut.empty 2 t.toNat with
    reads := [.cap c.toNat, .scalar r.toNat] ++ (if masked then [.mask (field ctl 63 60)] else []),
    qdests := [v.toNat] }
  if lanes.isEmpty then
    { o with pushes := pushEntry v.toNat 4 0, starts := [(1, 0)], effs := [.op (makeOp s 2 1 0 (s.now + 4) none)] }
  else
    let q := vectorRequest (s.rc c) lanes 0 (!strided && !masked)
    loadPush (accessSlot s o q.1
      { kinds := 1, write := false, parts := q.2, data := 0, capTag := none,
        dest := .queue v.toNat 0 (lanes.map Prod.fst), acq := none, mask := laneMask lanes, stride := laneStride ctl strided }) v.toNat

/-- STV and its forms. A store with no active lane performs nothing, and is no operation that an order rule could hold or wait
for. Log 41, DEDUCED. -/
def vectorStore (s : State) (t : BitVec 3) (v : BitVec 9) (p : BitVec 1) (c : BitVec 4) (r : BitVec 6)
    (strided masked : Bool) : SlotOut :=
  let ctl := (s.rs r).toNat
  let lanes := activeLanes s ctl strided masked
  let o := { SlotOut.empty 2 t.toNat with
    reads := [.cap c.toNat, .scalar r.toNat] ++ (if masked then [.mask (field ctl 63 60)] else []),
    qreads := [(v.toNat, p = 0)] }
  if lanes.isEmpty then o
  else
    let q := vectorRequest (s.rc c) lanes 1 (!strided && !masked)
    accessSlot s o q.1
      { kinds := 2, write := true, parts := q.2, data := (s.rq v.toNat).toNat, capTag := none, dest := .nowhere,
        acq := none, mask := laneMask lanes, stride := laneStride ctl strided }

/-- QPUSH and QPUSH.REL: a 256-byte store of the head of a queue into a queue window (R279). -/
def queuePush (s : State) (t : BitVec 3) (v : BitVec 9) (p : BitVec 1) (c : BitVec 4) (r : BitVec 6)
    (release : Option Nat) : SlotOut :=
  let cap := s.rc c
  accessSlot s
    { SlotOut.empty 2 t.toNat with
      reads := [.cap c.toNat, .scalar r.toNat], qreads := [(v.toNat, p = 0)], release := release }
    { plainRequest cap ((cap.base : Int) + 256 * field (s.rs r).toNat 8 0) 256 [1] with groupAllowed := true }
    { kinds := 2, write := true, parts := [(0, 256, 0)], data := (s.rq v.toNat).toNat, capTag := none,
      dest := .nowhere, acq := none }

/-! ## Ordered accesses and atomics (R280 to R284) -/

/-- The release and acquire scopes of ORD and SCOPE: 1 acquires, 2 releases, 3 both. -/
def ordRelease (o : BitVec 2) (k : BitVec 3) : Option Nat := if o.toNat = 2 || o.toNat = 3 then some k.toNat else none
def ordAcquire (o : BitVec 2) (k : BitVec 3) : Option Nat := if o.toNat = 1 || o.toNat = 3 then some k.toNat else none

/-- The request of an 8-byte access at c[C].BASE + s[S]. -/
def wordRequest (cap : Cap) (off : Word) (perms : List Nat) (size : Nat) : Request :=
  plainRequest cap ((cap.base : Int) + off.toNat) size perms

/-- An atomic on the aligned word at c[C].BASE + s[S] (R281): it executes in the atomic cache of its home at p + T - 4,
or at a + 26 for another chip (R268). -/
def atomicSlot (s : State) (t : BitVec 3) (d : BitVec 6) (c : BitVec 4) (r : BitVec 6) (k : BitVec 3) (o : BitVec 2)
    (kind : AtomOp) : SlotOut :=
  let n := s.cur.core
  let out : SlotOut := { SlotOut.empty 2 t.toNat with
    reads := [.cap c.toNat, .scalar r.toNat, .scalar d.toNat] ++ (if kind = AtomOp.cas then [.scalar (d.toNat + 1)] else []),
    release := ordRelease o k }
  let q := { wordRequest (s.rc c) (s.rs r) [0, 1, 3] 8 with reply := true, atomic := true }
  match checkAccess s n q with
  | some x => { out with causes := [x], starts := [(3, startClass s q)], lands := failedLands s q (.scalar d.toNat 8) }
  | none =>
    let home := (homesOf s n q).headD 0
    let plies := accessPlies s n home true
    let dist := distance n home
    { out with
      starts := [(3, dist)],
      effs := [.atom { ident := slotIdent s 2 0, op := slotOp s 2, core := n, rank := bundleRank n, order := s.seq * 8 + 2,
                       due := plies.1 - 4, landAt := plies.2.1, addr := home, kind := kind, x := s.rs d,
                       y := s.curCore.sreg (d.toNat + 1), dest := if d = 0 then none else some d.toNat }] ++
        (plies.2.2.map (fun i => Eff.takeSlot i (slotIdent s 2 0))).toList ++ [.op (makeOp s 2 3 dist plies.2.1 (ordAcquire o k))] }

/-! ## Capabilities (R286 to R288) -/

/-- A capability of the same bits with one bit field replaced, tag set. -/
def Cap.withField (c : Cap) (lo n v : Nat) : Cap := { tag := true, bits := BitVec.ofNat 128 (putField c.bits.toNat lo n v) }

/-- The first failing check of a derivation, in cause order; TVAL is s[S] (R288). -/
def firstCheck (tval : Word) : List (Bool × Nat × Nat) → List Cause
  | [] => []
  | (true, num, sub) :: _ => [⟨num, sub, tval⟩]
  | (false, _, _) :: cs => firstCheck tval cs

/-- A derivation: CD receives the derived capability, unless a check fails (R286, R288). -/
def deriveSlot (s : State) (t : BitVec 3) (d a : BitVec 4) (r : BitVec 6) (bad : List (Bool × Nat × Nat)) (v : Cap) : SlotOut :=
  { SlotOut.empty 2 t.toNat with
    reads := [.cap a.toNat, .scalar r.toNat],
    causes := firstCheck (s.rs r)
      ([(!(s.rc a).tag, 0x08, 0)] ++ bad ++ [((s.rc a).otype != 0, 0x0B, 0)]),
    lands := landCap d v }

/-- CSEAL and CUNSEAL (R286, R288): the object type `v` is A.BASE + s[S]. -/
def sealSlot (s : State) (t : BitVec 3) (d a : BitVec 4) (r : BitVec 6) (undo : Bool) : SlotOut :=
  let ca := s.rc a
  let cd := s.rc d
  let v := ca.base + (s.rs r).toNat
  { SlotOut.empty 2 t.toNat with
    reads := [.cap a.toNat, .cap d.toNat, .scalar r.toNat],
    causes := firstCheck (s.rs r)
      [(!ca.tag, 0x08, 0), (!cd.tag, 0x08, 1),
       (v < ca.base || ca.base + ca.length ≤ v || v < 1 || 4095 < v, 0x09, 7),
       (!bit ca.perm 7, 0x0A, 7), (ca.otype != 0, 0x0B, 0),
       (!undo && cd.otype != 0, 0x0B, 1), (undo && cd.otype != v, 0x0B, 2)],
    lands := landCap d (cd.withField 116 12 (if undo then 0 else v)) }

/-- A capability read into a scalar (R286). -/
def capGet (s : State) (t : BitVec 3) (a : BitVec 4) (r : BitVec 6) (v : Cap → Nat) : SlotOut :=
  { SlotOut.empty 2 t.toNat with reads := [.cap a.toNat], lands := landScalar r 1 (BitVec.ofNat 64 (v (s.rc a))) }

/-- A capability transfer of 16 bytes at c[CA].BASE + s[S] (R286, R287). -/
def capMove (s : State) (t : BitVec 3) (d a : BitVec 4) (r : BitVec 6) (write : Bool) : SlotOut :=
  let cd := s.rc d
  accessSlot s
    { SlotOut.empty 2 t.toNat with
      reads := [.cap a.toNat, .scalar r.toNat] ++ (if write then [.cap d.toNat] else []) }
    { wordRequest (s.rc a) (s.rs r) [if write then 1 else 0] 16 with reply := !write }
    { kinds := if write then 2 else 1, write := write, parts := [(0, 16, 0)], data := if write then cd.bits.toNat else 0,
      capTag := if write then some cd.tag else none, dest := if write then .nowhere else .cap d.toNat, acq := none }

/-! ## Meanings -/

/-- LD_B (R118). Loads a sign-extended byte from the own scratchpad. -/
def execLdB (t : BitVec 3) (s' : BitVec 6) (c : BitVec 4) (o : BitVec 13) (s : State) : Host.Outcome State Fault Refusal :=
  execSlot s (ownLoad s t s' c o 1)

/-- LD_H (R118). Loads a sign-extended halfword from the own scratchpad. -/
def execLdH (t : BitVec 3) (s' : BitVec 6) (c : BitVec 4) (o : BitVec 13) (s : State) : Host.Outcome State Fault Refusal :=
  execSlot s (ownLoad s t s' c o 2)

/-- LD_W (R118). Loads a sign-extended word from the own scratchpad. -/
def execLdW (t : BitVec 3) (s' : BitVec 6) (c : BitVec 4) (o : BitVec 13) (s : State) : Host.Outcome State Fault Refusal :=
  execSlot s (ownLoad s t s' c o 4)

/-- LD_D (R118). Loads a doubleword from the own scratchpad. -/
def execLdD (t : BitVec 3) (s' : BitVec 6) (c : BitVec 4) (o : BitVec 13) (s : State) : Host.Outcome State Fault Refusal :=
  execSlot s (ownLoad s t s' c o 8)

/-- ST_B (R118). Stores a byte to the own scratchpad. -/
def execStB (t : BitVec 3) (s' : BitVec 6) (c : BitVec 4) (o : BitVec 13) (s : State) : Host.Outcome State Fault Refusal :=
  execSlot s (ownStore s t s' c o 1)

/-- ST_H (R118). Stores a halfword to the own scratchpad. -/
def execStH (t : BitVec 3) (s' : BitVec 6) (c : BitVec 4) (o : BitVec 13) (s : State) : Host.Outcome State Fault Refusal :=
  execSlot s (ownStore s t s' c o 2)

/-- ST_W (R118). Stores a word to the own scratchpad. -/
def execStW (t : BitVec 3) (s' : BitVec 6) (c : BitVec 4) (o : BitVec 13) (s : State) : Host.Outcome State Fault Refusal :=
  execSlot s (ownStore s t s' c o 4)

/-- ST_D (R118). Stores a doubleword to the own scratchpad. -/
def execStD (t : BitVec 3) (s' : BitVec 6) (c : BitVec 4) (o : BitVec 13) (s : State) : Host.Outcome State Fault Refusal :=
  execSlot s (ownStore s t s' c o 8)

/-- LDV_W (R277). Loads a 64-lane entry into a queue. -/
def execLdvW (t : BitVec 3) (v : BitVec 9) (c : BitVec 4) (s' : BitVec 6) (s : State) : Host.Outcome State Fault Refusal :=
  execSlot s (vectorLoad s t v c s' false false)

/-- LDVS_W (R277). Strided vector load into a queue. -/
def execLdvsW (t : BitVec 3) (v : BitVec 9) (c : BitVec 4) (s' : BitVec 6) (s : State) : Host.Outcome State Fault Refusal :=
  execSlot s (vectorLoad s t v c s' true false)

/-- LDVM_W (R277). Masked vector load into a queue. -/
def execLdvmW (t : BitVec 3) (v : BitVec 9) (c : BitVec 4) (s' : BitVec 6) (s : State) : Host.Outcome State Fault Refusal :=
  execSlot s (vectorLoad s t v c s' false true)

/-- LDVSM_W (R277). Strided masked vector load into a queue. -/
def execLdvsmW (t : BitVec 3) (v : BitVec 9) (c : BitVec 4) (s' : BitVec 6) (s : State) : Host.Outcome State Fault Refusal :=
  execSlot s (vectorLoad s t v c s' true true)

/-- STV_W (R277). Stores a queue head as 64 lanes. -/
def execStvW (t : BitVec 3) (v : BitVec 9) (p : BitVec 1) (c : BitVec 4) (s' : BitVec 6) (s : State) : Host.Outcome State Fault Refusal :=
  execSlot s (vectorStore s t v p c s' false false)

/-- STVS_W (R277). Strided vector store. -/
def execStvsW (t : BitVec 3) (v : BitVec 9) (p : BitVec 1) (c : BitVec 4) (s' : BitVec 6) (s : State) : Host.Outcome State Fault Refusal :=
  execSlot s (vectorStore s t v p c s' true false)

/-- STVM_W (R277). Masked vector store. -/
def execStvmW (t : BitVec 3) (v : BitVec 9) (p : BitVec 1) (c : BitVec 4) (s' : BitVec 6) (s : State) : Host.Outcome State Fault Refusal :=
  execSlot s (vectorStore s t v p c s' false true)

/-- STVSM_W (R277). Strided masked vector store. -/
def execStvsmW (t : BitVec 3) (v : BitVec 9) (p : BitVec 1) (c : BitVec 4) (s' : BitVec 6) (s : State) : Host.Outcome State Fault Refusal :=
  execSlot s (vectorStore s t v p c s' true true)

/-- QPUSH (R279). Pushes a queue head into a queue of a window-1 push region, relaxed. -/
def execQpush (t : BitVec 3) (v : BitVec 9) (p : BitVec 1) (c : BitVec 4) (s' : BitVec 6) (s : State) : Host.Outcome State Fault Refusal :=
  execSlot s (queuePush s t v p c s' none)

/-- QPUSH_REL (R279). Pushes a queue head into a remote queue as a release at the scope in FN. -/
def execQpushRel (t : BitVec 3) (v : BitVec 9) (p : BitVec 1) (c : BitVec 4) (s' : BitVec 6) (k : BitVec 3) (s : State) : Host.Outcome State Fault Refusal :=
  execSlot s (queuePush s t v p c s' (some k.toNat))

/-- CLD (R286). Loads a capability and its tag from memory. -/
def execCld (t : BitVec 3) (d : BitVec 4) (a : BitVec 4) (s' : BitVec 6) (s : State) : Host.Outcome State Fault Refusal :=
  execSlot s (capMove s t d a s' false)

/-- CST (R286). Stores a capability and its tag to memory. -/
def execCst (t : BitVec 3) (d : BitVec 4) (a : BitVec 4) (s' : BitVec 6) (s : State) : Host.Outcome State Fault Refusal :=
  execSlot s (capMove s t d a s' true)

/-- CBASE (R286). Derives a capability with its base moved up and length reduced. -/
def execCbase (t : BitVec 3) (d : BitVec 4) (a : BitVec 4) (s' : BitVec 6) (s : State) : Host.Outcome State Fault Refusal :=
  let ca := s.rc a
  let x := (s.rs s').toNat
  execSlot s (deriveSlot s t d a s' [(ca.length < x, 0x09, 5)]
    ((ca.withField 0 64 (ca.base + x)).withField 64 40 (ca.length - x)))

/-- CLEN (R286). Derives a capability with a narrower length. -/
def execClen (t : BitVec 3) (d : BitVec 4) (a : BitVec 4) (s' : BitVec 6) (s : State) : Host.Outcome State Fault Refusal :=
  let ca := s.rc a
  let x := (s.rs s').toNat
  execSlot s (deriveSlot s t d a s' [(ca.length < x, 0x09, 5)] (ca.withField 64 40 x))

/-- CPERMS (R286). Derives a capability with permissions cleared by a mask. -/
def execCperms (t : BitVec 3) (d : BitVec 4) (a : BitVec 4) (s' : BitVec 6) (s : State) : Host.Outcome State Fault Refusal :=
  let ca := s.rc a
  execSlot s (deriveSlot s t d a s' [] (ca.withField 104 8 (ca.perm &&& (s.rs s').toNat % 256)))

/-- CSPACE (R286). Derives a capability with a new space kind. -/
def execCspace (t : BitVec 3) (d : BitVec 4) (a : BitVec 4) (s' : BitVec 6) (s : State) : Host.Outcome State Fault Refusal :=
  let ca := s.rc a
  let k := (s.rs s').toNat % 16
  execSlot s (deriveSlot s t d a s' [((8 ≤ k && k ≤ 14) || (ca.space != 15 && k != ca.space), 0x09, 6)]
    (ca.withField 112 4 k))

/-- CGETB (R286). Reads a capability's base into a scalar. -/
def execCgetb (t : BitVec 3) (a : BitVec 4) (s' : BitVec 6) (s : State) : Host.Outcome State Fault Refusal :=
  execSlot s (capGet s t a s' Cap.base)

/-- CGETH (R286). Reads a capability's high 64 bits into a scalar. -/
def execCgeth (t : BitVec 3) (a : BitVec 4) (s' : BitVec 6) (s : State) : Host.Outcome State Fault Refusal :=
  execSlot s (capGet s t a s' (fun c => c.bits.toNat >>> 64))

/-- CGETT (R286). Reads a capability's tag into a scalar. -/
def execCgett (t : BitVec 3) (a : BitVec 4) (s' : BitVec 6) (s : State) : Host.Outcome State Fault Refusal :=
  execSlot s (capGet s t a s' (fun c => if c.tag then 1 else 0))

/-- CMOVC (R286). Copies a capability register with its tag. -/
def execCmovc (t : BitVec 3) (d : BitVec 4) (a : BitVec 4) (s : State) : Host.Outcome State Fault Refusal :=
  execSlot s { SlotOut.empty 2 t.toNat with reads := [.cap a.toNat], lands := landCap d (s.rc a) }

/-- CCLR (R286). Clears a capability register's tag. -/
def execCclr (t : BitVec 3) (d : BitVec 4) (s : State) : Host.Outcome State Fault Refusal :=
  execSlot s { SlotOut.empty 2 t.toNat with
    reads := [.cap d.toNat], lands := landCap d { s.rc d with tag := false } }

/-- CSEAL (R286). Seals a capability with an object type taken from the sealing capability. -/
def execCseal (t : BitVec 3) (d : BitVec 4) (a : BitVec 4) (s' : BitVec 6) (s : State) : Host.Outcome State Fault Refusal :=
  execSlot s (sealSlot s t d a s' false)

/-- CUNSEAL (R286). Unseals a capability whose object type matches. -/
def execCunseal (t : BitVec 3) (d : BitVec 4) (a : BitVec 4) (s' : BitVec 6) (s : State) : Host.Outcome State Fault Refusal :=
  execSlot s (sealSlot s t d a s' true)

/-- ASWAP_D (R281). Atomic swap of a 64-bit word. -/
def execAswapD (t : BitVec 3) (d : BitVec 6) (c : BitVec 4) (s' : BitVec 6) (k : BitVec 3) (o : BitVec 2) (s : State) : Host.Outcome State Fault Refusal :=
  execSlot s (atomicSlot s t d c s' k o .swap)

/-- ACAS_D (R281). Atomic compare-and-swap of a 64-bit word. -/
def execAcasD (t : BitVec 3) (d : BitVec 6) (c : BitVec 4) (s' : BitVec 6) (k : BitVec 3) (o : BitVec 2) (s : State) : Host.Outcome State Fault Refusal :=
  execSlot s (atomicSlot s t d c s' k o .cas)

/-- AADD_D (R281). Atomic add to a 64-bit word. -/
def execAaddD (t : BitVec 3) (d : BitVec 6) (c : BitVec 4) (s' : BitVec 6) (k : BitVec 3) (o : BitVec 2) (s : State) : Host.Outcome State Fault Refusal :=
  execSlot s (atomicSlot s t d c s' k o .add)

/-- AMIN_D (R281). Atomic signed minimum. -/
def execAminD (t : BitVec 3) (d : BitVec 6) (c : BitVec 4) (s' : BitVec 6) (k : BitVec 3) (o : BitVec 2) (s : State) : Host.Outcome State Fault Refusal :=
  execSlot s (atomicSlot s t d c s' k o .min)

/-- AMAX_D (R281). Atomic signed maximum. -/
def execAmaxD (t : BitVec 3) (d : BitVec 6) (c : BitVec 4) (s' : BitVec 6) (k : BitVec 3) (o : BitVec 2) (s : State) : Host.Outcome State Fault Refusal :=
  execSlot s (atomicSlot s t d c s' k o .max)

/-- AAND_D (R281). Atomic AND. -/
def execAandD (t : BitVec 3) (d : BitVec 6) (c : BitVec 4) (s' : BitVec 6) (k : BitVec 3) (o : BitVec 2) (s : State) : Host.Outcome State Fault Refusal :=
  execSlot s (atomicSlot s t d c s' k o .and)

/-- AOR_D (R281). Atomic OR. -/
def execAorD (t : BitVec 3) (d : BitVec 6) (c : BitVec 4) (s' : BitVec 6) (k : BitVec 3) (o : BitVec 2) (s : State) : Host.Outcome State Fault Refusal :=
  execSlot s (atomicSlot s t d c s' k o .or)

/-- AXOR_D (R281). Atomic XOR. -/
def execAxorD (t : BitVec 3) (d : BitVec 6) (c : BitVec 4) (s' : BitVec 6) (k : BitVec 3) (o : BitVec 2) (s : State) : Host.Outcome State Fault Refusal :=
  execSlot s (atomicSlot s t d c s' k o .xor)

/-- LDX_D (R280). Ordered 8-byte load, relaxed or acquire, at any window the capability covers. -/
def execLdxD (t : BitVec 3) (d : BitVec 6) (c : BitVec 4) (s' : BitVec 6) (k : BitVec 3) (o : BitVec 2) (s : State) : Host.Outcome State Fault Refusal :=
  execSlot s (accessSlot s { SlotOut.empty 2 t.toNat with reads := [.cap c.toNat, .scalar s'.toNat] }
    { wordRequest (s.rc c) (s.rs s') [0] 8 with reply := true }
    { kinds := 1, write := false, parts := [(0, 8, 0)], data := 0, capTag := none, dest := .scalar d.toNat 8,
      acq := ordAcquire o k })

/-- STX_D (R280). Ordered 8-byte store, relaxed or release. -/
def execStxD (t : BitVec 3) (d : BitVec 6) (c : BitVec 4) (s' : BitVec 6) (k : BitVec 3) (o : BitVec 2) (s : State) : Host.Outcome State Fault Refusal :=
  execSlot s (accessSlot s
    { SlotOut.empty 2 t.toNat with
      reads := [.cap c.toNat, .scalar s'.toNat, .scalar d.toNat], release := ordRelease o k }
    { wordRequest (s.rc c) (s.rs s') [1] 8 with groupAllowed := true }
    { kinds := 2, write := true, parts := [(0, 8, 0)], data := (s.rs d).toNat, capTag := none, dest := .nowhere,
      acq := none })

/-- FENCE (R285). Holds later bundles of the successor kinds until earlier predecessor operations in scope complete. -/
def execFence (t : BitVec 3) (p : BitVec 6) (s' : BitVec 6) (k : BitVec 3) (s : State) : Host.Outcome State Fault Refusal :=
  execSlot s { SlotOut.empty 2 t.toNat with
    effs := [.fence { seq := s.seq, pred := p.toNat, succ := s'.toNat, scope := k.toNat }] }

end Sys2Proof.Machine
end

