-- ==== Sys2Proof/Machine/Matrix.lean ====
section
/-! DEFINITION. The matrix unit: the M slot (R211 to R222), the K slot (R208 to R210), and the steps and combines of a
multiply-accumulate (R216). -/

namespace Sys2Proof.Machine

/-! ## Tile loads and stores (R213, R214) -/

/-- The chunks of a range of `size` bytes: number, first byte and length; `fuel` bounds their count. -/
def chunksOf : Nat → Nat → Nat → List (Nat × Nat × Nat)
  | 0, _, _ => []
  | fuel + 1, j, size =>
    if size ≤ 256 * j then [] else (j, 256 * j, min 256 (size - 256 * j)) :: chunksOf fuel (j + 1) size

/-- The access of one chunk of a tile load or store, at the ply p + 4 + j. -/
def chunkAccess (s : State) (home tile off : Nat) (store : Bool) (c : Nat × Nat × Nat) : Access :=
  { ident := slotIdent s 4 c.1, op := slotOp s 4, core := s.cur.core, rank := bundleRank s.cur.core,
    order := s.seq * 8 + 4, due := s.now + 4 + c.1, landAt := s.now + 4 + c.1, delayed := false, write := store,
    spans := [{ addr := home + c.2.1, len := c.2.2, off := 0 }], data := 0, capTag := none,
    dest := if store then .fromTile tile (off + c.2.1) else .tile tile (off + c.2.1) }

/-- TLD and TST with their forms: `off` is the first tile byte and `size` the byte count. -/
def tileMove (s : State) (t : BitVec 3) (u c : BitVec 4) (r : BitVec 6) (off size : Nat) (store : Bool) : SlotOut :=
  let n := s.cur.core
  let cap := s.rc c
  let addr : Int := (cap.base : Int) + (s.rs r).toNat
  let q : Request := { plainRequest cap addr size [if store then 1 else 0] with
    natural := addr % 64 = 0, shape := true, ownOnly := some size }
  let o : SlotOut := { SlotOut.empty 4 t.toNat with
    reads := [.cap c.toNat, .scalar r.toNat], hold := s.curCore.tileHeld s.now u.toNat !store }
  match checkAccess s n q with
  | some x => { o with causes := [x], starts := [(if store then 32 else 16, 0)] }
  | none =>
    let home := (homesOf s n q).headD 0
    let chunks := chunksOf 50 0 size
    let kinds := if store then 32 else 16
    let busy : BusyReg := if store then .tileRead u.toNat else .tileWrite u.toNat
    { o with
      starts := [(kinds, 0)],
      lands := if store then [] else landFlags (2 ^ u.toNat),
      effs := chunks.map (fun x => .access (chunkAccess s home u.toNat off store x)) ++
        [.busy busy (4 + chunks.length) false,
         .op (makeOp s 4 kinds 0 (s.now + 3 + chunks.length) none)] }

/-! ## Multiply-accumulate (R215, R216) -/

/-- The limits KL, ML and NL that the broadcast gives, 0 meaning the full extent. -/
def mmaLimits (bc : Option Nat) (ea eb : Nat) : Nat × Nat × Nat :=
  match bc with
  | none => (128, ea, eb)
  | some v =>
    (if field v 7 0 = 0 then 128 else field v 7 0, if field v 15 8 = 0 then ea else field v 15 8,
      if field v 23 16 = 0 then eb else field v 23 16)

/-- MMA and MMAZ. -/
def mmaSlot (s : State) (t : BitVec 3) (n : BitVec 1) (a b : BitVec 4) (f g : BitVec 2) (c : BitVec 1) (zero : Bool) : SlotOut :=
  let k := s.curCore
  let ea := mxEdge f.toNat
  let eb := mxEdge g.toNat
  let bv := s.bcast.toNat
  let lim := mmaLimits (if c = 1 then some bv else none) ea eb
  let ownWrite := k.busy.any (fun x => x.reg = .accWrite n.toNat && s.now < x.free && !x.byMma)
  { SlotOut.empty 4 t.toNat with
    bc := c = 1,
    hold := k.isBusy s.now .step || k.isBusy s.now (.tileWrite a.toNat) || k.isBusy s.now (.tileWrite b.toNat) ||
      k.isBusy s.now (.accRead n.toNat) || ownWrite,
    causes :=
      if k.tileKind a.toNat != f.toNat + 1 then [⟨0x10, 0x01, k.tconf.setWidth 64⟩]
      else if k.tileKind b.toNat != g.toNat + 1 then [⟨0x10, 0x02, k.tconf.setWidth 64⟩]
      else if c = 1 && (128 < field bv 7 0 || ea < field bv 15 8 || eb < field bv 23 16) then [⟨0x10, 0x03, s.bcast⟩]
      else [],
    lands := landFlags (2 ^ (16 + n.toNat)),
    effs := [.busy .step 128 true, .busy (.tileRead a.toNat) 129 true, .busy (.tileRead b.toNat) 129 true,
      .busy (.accWrite n.toNat) 131 true,
      .mma { issue := s.now, acc := n.toNat, ta := a.toNat, tb := b.toNat, fa := f.toNat, fb := g.toNat, kl := lim.1,
             ml := lim.2.1, nl := lim.2.2, zero := zero, colA := [], colB := [], nibA := [], nibB := [], done := 0 }] }

/-- Element k of every line of a tile of format f, packed with the width of the format (R162). -/
def sampleColumn (tile f k : Nat) : BitVec 768 :=
  let n := mxBits f
  BitVec.ofNat 768 (joinPieces n ((rangeFrom 0 (mxEdge f)).map (fun i => tile >>> (128 * n * i + n * k))))

/-- The index nibbles of block β of every line (R163). -/
def sampleNibbles (tile f beta : Nat) : BitVec 768 :=
  BitVec.ofNat 768 (joinPieces 4 ((rangeFrom 0 (mxEdge f)).map (fun i => tile >>> (8 * 12288 + 4 * (4 * i + beta)))))

/-- The samples that step k makes at the start of its ply (R216). -/
def Mma.sample (m : Mma) (c : Core) (k : Nat) : Mma :=
  let a := (c.tileOf m.ta).toNat
  let b := (c.tileOf m.tb).toNat
  let m1 := if k % 32 = 0 then
      { m with nibA := mapPut m.nibA (k / 32) (sampleNibbles a m.fa (k / 32)),
               nibB := mapPut m.nibB (k / 32) (sampleNibbles b m.fb (k / 32)) }
    else m
  if k < m.kl then
    { m1 with colA := mapPut m1.colA k (sampleColumn a m.fa k), colB := mapPut m1.colB k (sampleColumn b m.fb k) }
  else m1

/-- The step that a multiply-accumulate reads at ply `now`, if any. -/
def Mma.step (m : Mma) (now : Nat) : Option Nat :=
  if m.issue < now && now ≤ m.issue + 128 then some (now - m.issue - 1) else none

/-- The codes of one line over the K elements of a block. -/
def lineCodes (cols : Map (BitVec 768)) (n line : Nat) (ks : List Nat) : List Int :=
  ks.map (fun k => signedField (mapGet 0 cols k).toNat (n * line + n - 1) (n * line))

/-- An exact sum of products. -/
def dot (xs ys : List Int) : Int := (List.zipWith (fun x y => x * y) xs ys).foldl (fun a x => a + x) 0

/-- The scale that a side gives a line in a block (R208, R216). -/
def Core.blockScale (c : Core) (side : Nat) (uni : BitVec 5) (nibs : BitVec 768) (line : Nat) : Nat :=
  (c.scaleEntry side (if bit uni.toNat 4 then uni.toNat % 16 else field nibs.toNat (4 * line + 3) (4 * line))).toNat

/-- One row of an accumulator after the combine of a block: the first elements combined with their terms. -/
def combineRow (zero : Bool) : List Nat → List Nat → List Nat
  | acc :: accs, t :: ts => (if zero then t else f32Add acc t) :: combineRow zero accs ts
  | accs, _ => accs

/-- The combine of block β (R216): rows 0 to ML − 1 and columns 0 to NL − 1. -/
def Mma.combine (m : Mma) (c : Core) (beta : Nat) : Core :=
  let ks := (rangeFrom (32 * beta) 32).filter (fun k => k < m.kl)
  let nibA := mapGet 0 m.nibA beta
  let nibB := mapGet 0 m.nibB beta
  let colsB := (rangeFrom 0 m.nl).map (fun j =>
    (lineCodes m.colB (mxBits m.fb) j ks, c.blockScale 1 c.uniB nibB j))
  (rangeFrom 0 m.ml).foldl (fun c' i =>
    let la := lineCodes m.colA (mxBits m.fa) i ks
    let sa := c.blockScale 0 c.uniA nibA i
    let terms := colsB.map (fun x => blockTerm (dot la x.1) sa x.2)
    c'.setAccRow m.acc i (BitVec.ofNat 6144 (joinPieces 32
      (combineRow (m.zero && beta = 0) (splitPieces 32 192 (c.accRow m.acc i).toNat) terms)))) c

/-- Whether a combine of a multiply-accumulate falls at ply `now`: it is the block after the `done` ones (R216). -/
def Mma.combines (m : Mma) (now : Nat) : Bool := m.done < 4 && now = m.issue + 34 + 32 * m.done

/-- MATRIX_COMBINE for one multiply-accumulate; a block past KL changes nothing. -/
def combineOne (now : Nat) (c : Core) (m : Mma) : Core × Mma :=
  if m.combines now then (if 32 * m.done < m.kl then m.combine c m.done else c, { m with done := m.done + 1 }) else (c, m)

/-- The combines of a core at this ply; a multiply-accumulate whose four blocks are done leaves the unit. -/
def combineAll (now : Nat) : Core → List Mma → Core × List Mma
  | c, [] => (c, [])
  | c, m :: ms =>
    let x := combineOne now c m
    let y := combineAll now x.1 ms
    (y.1, if x.2.done = 4 then y.2 else x.2 :: y.2)

/-- MATRIX_COMBINE (R216). The block combines of a core that fall at this ply. -/
def execMatrixCombine (core : Nat) (s : State) : Host.Outcome State Fault Refusal :=
  let x := combineAll s.now (s.core core) (s.core core).mmas
  finishSame s (s.setCore core { x.1 with mmas := x.2 })

/-! ## Accumulator read-out (R217, R218) -/

/-- Columns `c0` to `c0 + n - 1` of accumulator row r as FP32 encodings. -/
def accRowElems (c : Core) (a r c0 n : Nat) : List Nat := (splitPieces 32 192 (c.accRow a r).toNat).drop c0 |>.take n

/-- The elements of a read-out row by row; `f` rounds element e. -/
def readOut (f : Nat → Num → Nat) (mul : Num) (rows : List (List Nat)) : List (List Nat) :=
  rows.mapIdx (fun i row => row.mapIdx (fun j x => f (row.length * i + j) (Num.mul (decodeF32 x) mul)))

/-- The rows of a read-out joined, each of `w` bits an element. -/
def joinRows (w : Nat) (rows : List (List Nat)) : Nat :=
  match rows with
  | [] => 0
  | r :: _ => joinPieces (w * r.length) (rows.map (joinPieces w))

/-- AOUT. `mx` is the MX format of the destination, none for the raw forms; `w` is the element width. -/
def aoutSlot (s : State) (t : BitVec 3) (n : BitVec 1) (u : BitVec 4) (r : BitVec 6) (rm : BitVec 3) (mx : Option Nat)
    (rows w : Nat) : SlotOut :=
  let c := s.curCore
  let v := (s.rs r).toNat
  let row := field v 31 24
  let mbz := field v 23 17 != 0 || field v 10 0 != 0 || (mx.isNone && field v 16 11 != 0)
  let kind := match mx with | some f => f + 1 | none => 0
  let mul := decodeF32 (field v 63 32)
  let mode := rm.toNat
  let data : Nat :=
    match mx with
    | none =>
      joinRows w (readOut (fun e x => x.round (w - 9) mode (s.ditherFor mode e)) mul
        ((rangeFrom row rows).map (fun i => accRowElems c n.toNat i 0 192)))
    | some f =>
      let sc := (c.scaleEntry (field v 11 11) (field v 15 12)).toNat
      joinRows w (readOut (fun e x => lowBits (mxCode x sc mode (s.ditherFor mode e) (mxBound f)) w) mul
        ((rangeFrom row rows).map (fun i => accRowElems c n.toNat i (64 * field v 16 16) 128))) +
      (joinPieces 4 ((rangeFrom 0 (4 * rows)).map (fun _ => field v 15 12))) <<< (8 * 12288)
  { SlotOut.empty 4 t.toNat with
    reads := [.scalar r.toNat],
    hold := c.accHeld s.now n.toNat false || c.tileHeld s.now u.toNat true,
    causes :=
      if mbz || 192 < row + rows then [⟨0x10, 0x04, s.rs r⟩]
      else if c.tileKind u.toNat != kind then [⟨0x10, 0x05, c.tconf.setWidth 64⟩] else [],
    draws := s.draws mode (rows * (if mx.isNone then 192 else 128)),
    lands := (8, .tile u.toNat 0 (12288 + if mx.isNone then 0 else 2 * rows) (BitVec.ofNat 101376 data)) ::
      landFlags (2 ^ u.toNat),
    effs := [.busy (.accRead n.toNat) 1 false, .busy (.tileWrite u.toNat) 9 false] }

/-! ## Transpose (R222) -/

/-- The transposed image of a tile: element k of line ρ is element ρ of row k of the source; the sidecar is kept. -/
def transposeTile (f tile : Nat) : Nat :=
  let n := mxBits f
  joinPieces (128 * n) ((rangeFrom 0 (mxEdge f)).map (fun i =>
    joinPieces n ((rangeFrom 0 128).map (fun k => tile >>> (768 * k + n * i))))) +
  (tile >>> (8 * 12288)) <<< (8 * 12288)

/-- TTR. -/
def ttrSlot (s : State) (t : BitVec 3) (u c : BitVec 4) (f : Nat) : SlotOut :=
  let k := s.curCore
  { SlotOut.empty 4 t.toNat with
    hold := k.tileHeld s.now c.toNat false || k.tileHeld s.now u.toNat true,
    causes := if k.tileKind u.toNat != f + 1 then [⟨0x10, 0x06, k.tconf.setWidth 64⟩] else [],
    lands := (16, .tile u.toNat 0 12672 (BitVec.ofNat 101376 (transposeTile f (k.tileOf c.toNat).toNat))) ::
      landFlags (2 ^ u.toNat),
    effs := [.busy (.tileRead c.toNat) 1 false, .busy (.tileWrite u.toNat) 17 false] }

/-! ## Configuration, release, zeroing (R219 to R221) -/

/-- A landing one ply on that zeroes tile t. -/
def zeroTile (t : Nat) : Nat × Land := (1, .tile t 0 12672 0)

/-- The registers that TREL names, tiles 0 to 15 and accumulators 0 and 1 at 16 and 17. -/
def releaseNames (v : Word) : List Nat := (rangeFrom 0 18).filter (fun i => bit v.toNat i)

/-- The subcode of TILE_LIVE: the lowest in-use tile (R219). -/
def lowestTile (flags : Nat) : Nat := trailingZeros 16 flags

/-! ## Meanings -/

/-- TLD (R213). Loads a tile's data from the own scratchpad. -/
def execTld (t : BitVec 3) (u : BitVec 4) (c : BitVec 4) (s' : BitVec 6) (s : State) : Host.Outcome State Fault Refusal :=
  execSlot s (tileMove s t u c s' 0 12288 false)

/-- TLD_X (R213). Loads a tile's data and sidecar. -/
def execTldX (t : BitVec 3) (u : BitVec 4) (c : BitVec 4) (s' : BitVec 6) (s : State) : Host.Outcome State Fault Refusal :=
  execSlot s (tileMove s t u c s' 0 12672 false)

/-- TLD_SC (R213). Loads a tile's sidecar only. -/
def execTldSc (t : BitVec 3) (u : BitVec 4) (c : BitVec 4) (s' : BitVec 6) (s : State) : Host.Outcome State Fault Refusal :=
  execSlot s (tileMove s t u c s' 12288 384 false)

/-- TST (R213). Stores a tile's data to the own scratchpad. -/
def execTst (t : BitVec 3) (u : BitVec 4) (c : BitVec 4) (s' : BitVec 6) (s : State) : Host.Outcome State Fault Refusal :=
  execSlot s (tileMove s t u c s' 0 12288 true)

/-- TST_X (R213). Stores a tile's data and sidecar. -/
def execTstX (t : BitVec 3) (u : BitVec 4) (c : BitVec 4) (s' : BitVec 6) (s : State) : Host.Outcome State Fault Refusal :=
  execSlot s (tileMove s t u c s' 0 12672 true)

/-- TST_SC (R213). Stores a tile's sidecar only. -/
def execTstSc (t : BitVec 3) (u : BitVec 4) (c : BitVec 4) (s' : BitVec 6) (s : State) : Host.Outcome State Fault Refusal :=
  execSlot s (tileMove s t u c s' 12288 384 true)

/-- MMA (R216). Multiply-accumulates two MX tiles into an accumulator over 128 plies. -/
def execMma (t : BitVec 3) (n : BitVec 1) (a : BitVec 4) (b : BitVec 4) (f : BitVec 2) (g : BitVec 2) (c : BitVec 1) (s : State) : Host.Outcome State Fault Refusal :=
  execSlot s (mmaSlot s t n a b f g c false)

/-- MMAZ (R216). Multiply-accumulate whose first block replaces the accumulator elements. -/
def execMmaz (t : BitVec 3) (n : BitVec 1) (a : BitVec 4) (b : BitVec 4) (f : BitVec 2) (g : BitVec 2) (c : BitVec 1) (s : State) : Host.Outcome State Fault Refusal :=
  execSlot s (mmaSlot s t n a b f g c true)

/-- AOUT_F32 (R218). Reads out 16 accumulator rows as FP32 into a raw tile. -/
def execAoutF32 (t : BitVec 3) (n : BitVec 1) (u : BitVec 4) (s' : BitVec 6) (r : BitVec 3) (s : State) : Host.Outcome State Fault Refusal :=
  execSlot s (aoutSlot s t n u s' r none 16 32)

/-- AOUT_BF16 (R218). Reads out 32 accumulator rows as BF16 into a raw tile. -/
def execAoutBf16 (t : BitVec 3) (n : BitVec 1) (u : BitVec 4) (s' : BitVec 6) (r : BitVec 3) (s : State) : Host.Outcome State Fault Refusal :=
  execSlot s (aoutSlot s t n u s' r none 32 16)

/-- AOUT_I8 (R218). Reads out 96 rows as MXINT8 codes into an MX tile. -/
def execAoutI8 (t : BitVec 3) (n : BitVec 1) (u : BitVec 4) (s' : BitVec 6) (r : BitVec 3) (s : State) : Host.Outcome State Fault Refusal :=
  execSlot s (aoutSlot s t n u s' r (some 0) 96 8)

/-- AOUT_I6 (R218). Reads out 128 rows as MXINT6 codes. -/
def execAoutI6 (t : BitVec 3) (n : BitVec 1) (u : BitVec 4) (s' : BitVec 6) (r : BitVec 3) (s : State) : Host.Outcome State Fault Refusal :=
  execSlot s (aoutSlot s t n u s' r (some 1) 128 6)

/-- AOUT_I4 (R218). Reads out 192 rows as MXINT4 codes. -/
def execAoutI4 (t : BitVec 3) (n : BitVec 1) (u : BitVec 4) (s' : BitVec 6) (r : BitVec 3) (s : State) : Host.Outcome State Fault Refusal :=
  execSlot s (aoutSlot s t n u s' r (some 2) 192 4)

/-- TCFG (R219). Writes the tile kinds when no tile is in use. -/
def execTcfg (t : BitVec 3) (s' : BitVec 6) (s : State) : Host.Outcome State Fault Refusal :=
  let c := s.curCore
  execSlot s { SlotOut.empty 4 t.toNat with
    reads := [.scalar s'.toNat],
    hold := (rangeFrom 0 16).any (fun i => c.tileHeld s.now i true),
    causes := if c.tinuse.toNat % 2 ^ 16 != 0 then
      [⟨0x0F, lowestTile (c.tinuse.toNat % 2 ^ 16), c.tinuse.setWidth 64⟩] else [],
    lands := [(1, .tconf ((s.rs s').setWidth 32))] }

/-- TREL (R220). Zeroes the named tiles and accumulators and clears their flags at the next ply, after every store of the issue ply
(log 120, DESIGN CHOICE). -/
def execTrel (t : BitVec 3) (s' : BitVec 6) (s : State) : Host.Outcome State Fault Refusal :=
  let c := s.curCore
  let names := releaseNames (s.rs s')
  execSlot s { SlotOut.empty 4 t.toNat with
    reads := [.scalar s'.toNat],
    hold := names.any (fun i => if i < 16 then c.tileHeld s.now i true else c.accHeld s.now (i - 16) true),
    lands := names.map (fun i => if i < 16 then zeroTile i else (1, .accZero (i - 16))) ++
      [(1, .flagsClear ((s.rs s').setWidth 18))],
    effs := names.map (fun i => .busy (if i < 16 then .tileWrite i else .accWrite (i - 16)) 2 false) }

/-- AZERO (R221). Sets every element of an accumulator to +0.0. -/
def execAzero (t : BitVec 3) (n : BitVec 1) (s : State) : Host.Outcome State Fault Refusal :=
  execSlot s { SlotOut.empty 4 t.toNat with
    hold := s.curCore.accHeld s.now n.toNat true,
    lands := (1, .accZero n.toNat) :: landFlags (2 ^ (16 + n.toNat)),
    effs := [.busy (.accWrite n.toNat) 2 false] }

/-- TZERO (R221). Zeroes a tile's data and sidecar. -/
def execTzero (t : BitVec 3) (u : BitVec 4) (s : State) : Host.Outcome State Fault Refusal :=
  execSlot s { SlotOut.empty 4 t.toNat with
    hold := s.curCore.tileHeld s.now u.toNat true,
    lands := zeroTile u.toNat :: landFlags (2 ^ u.toNat),
    effs := [.busy (.tileWrite u.toNat) 2 false] }

/-- TTR_I8 (R222). Transposes a K-major MXINT8 block into an operand tile. -/
def execTtrI8 (t : BitVec 3) (u : BitVec 4) (c : BitVec 4) (s : State) : Host.Outcome State Fault Refusal :=
  execSlot s (ttrSlot s t u c 0)

/-- TTR_I6 (R222). Transposes a K-major MXINT6 block. -/
def execTtrI6 (t : BitVec 3) (u : BitVec 4) (c : BitVec 4) (s : State) : Host.Outcome State Fault Refusal :=
  execSlot s (ttrSlot s t u c 1)

/-- TTR_I4 (R222). Transposes a K-major MXINT4 block. -/
def execTtrI4 (t : BitVec 3) (u : BitVec 4) (c : BitVec 4) (s : State) : Host.Outcome State Fault Refusal :=
  execSlot s (ttrSlot s t u c 2)

/-- SCLD_A (R210). Loads one A scale-table entry, in force six plies later. -/
def execScldA (e : BitVec 4) (s' : BitVec 6) (s : State) : Host.Outcome State Fault Refusal :=
  execSlot s { SlotOut.empty 5 0 with
    reads := [.scalar s'.toNat], lands := [(6, .scaleEntry 0 e.toNat ((s.rs s').setWidth 16))] }

/-- SCLDQ_A (R210). Loads four A scale-table entries from a scalar. -/
def execScldqA (s' : BitVec 6) (g : BitVec 2) (s : State) : Host.Outcome State Fault Refusal :=
  execSlot s { SlotOut.empty 5 0 with
    reads := [.scalar s'.toNat], lands := [(6, .scaleQuad 0 g.toNat (s.rs s'))] }

/-- SCRST_A (R210). Resets every A scale-table entry to 1.0. -/
def execScrstA (s : State) : Host.Outcome State Fault Refusal :=
  execSlot s { SlotOut.empty 5 0 with lands := [(6, .scaleReset 0)] }

/-- KUNI_A (R210). Sets the A uniform-scale field. -/
def execKuniA (s' : BitVec 6) (s : State) : Host.Outcome State Fault Refusal :=
  execSlot s { SlotOut.empty 5 0 with
    reads := [.scalar s'.toNat], lands := [(6, .scaleUni 0 ((s.rs s').setWidth 5))] }

/-- SCLD_B (R210). Loads one B scale-table entry. -/
def execScldB (e : BitVec 4) (s' : BitVec 6) (s : State) : Host.Outcome State Fault Refusal :=
  execSlot s { SlotOut.empty 5 0 with
    reads := [.scalar s'.toNat], lands := [(6, .scaleEntry 1 e.toNat ((s.rs s').setWidth 16))] }

/-- SCLDQ_B (R210). Loads four B scale-table entries from a scalar. -/
def execScldqB (s' : BitVec 6) (g : BitVec 2) (s : State) : Host.Outcome State Fault Refusal :=
  execSlot s { SlotOut.empty 5 0 with
    reads := [.scalar s'.toNat], lands := [(6, .scaleQuad 1 g.toNat (s.rs s'))] }

/-- SCRST_B (R210). Resets every B scale-table entry to 1.0. -/
def execScrstB (s : State) : Host.Outcome State Fault Refusal :=
  execSlot s { SlotOut.empty 5 0 with lands := [(6, .scaleReset 1)] }

/-- KUNI_B (R210). Sets the B uniform-scale field. -/
def execKuniB (s' : BitVec 6) (s : State) : Host.Outcome State Fault Refusal :=
  execSlot s { SlotOut.empty 5 0 with
    reads := [.scalar s'.toNat], lands := [(6, .scaleUni 1 ((s.rs s').setWidth 5))] }

end Sys2Proof.Machine
end

