-- ==== Sys2Proof/Machine/Memory.lean ====
section
/-! DEFINITION. Performing: landings, accesses at their homes, windows of registers, atomics and leases
(R139, R207, R238, R253 to R258, R266 to R270, R290 to R302). -/

namespace Sys2Proof.Machine

/-! ## Landings (R14, R27, R29, R207) -/

/-- Whether a landing is that of NEXT or NEXTT, which is applied last (R27). -/
def Land.isRing : Land → Bool
  | .ring _ _ => true
  | _ => false

/-- The order of landings of one ply: the ring last, else the issue order and then the slot order (R27, R29). -/
def Pending.before (a b : Pending) : Bool :=
  if a.what.isRing != b.what.isRing then b.what.isRing
  else a.seq < b.seq || (a.seq = b.seq && a.slot ≤ b.slot)

/-- The order of landings in tiles and accumulators: matrix landings before those of the V slot (R207). -/
def Pending.beforeLate (a b : Pending) : Bool :=
  if (a.slot = 3) != (b.slot = 3) then b.slot = 3
  else a.seq < b.seq || (a.seq = b.seq && a.slot ≤ b.slot)

/-- The landings of a core that are due, in registers or in tiles and accumulators. -/
def Core.dueLandings (c : Core) (now : Nat) (late : Bool) : List Pending :=
  c.pend.filter (fun p => p.due ≤ now && p.what.isLate = late)

/-- Applies the landings of a core that are due, those in registers or those in tiles and accumulators. -/
def landDue (s : State) (n : Nat) (late : Bool) : State :=
  let c := s.core n
  let due := sortBy (if late then Pending.beforeLate else Pending.before) (c.dueLandings s.now late)
  let s1 := s.setCore n { c with pend := c.pend.filter (fun p => !(p.due ≤ s.now && p.what.isLate = late)) }
  due.foldl (fun s p => applyLand s n p.what) s1

/-- Applies the landings of a core that are due: those in registers, else those in tiles and accumulators. -/
def landAll (s : State) (n : Nat) : State := landDue s n ((s.core n).dueLandings s.now false).isEmpty

/-- A core as a load from its register windows sees it, at the start of the ply: with the landings of the ply (R14, R254).
Log 15, DEDUCED. -/
def landedView (s : State) (n : Nat) : State :=
  if ((s.core n).dueLandings s.now false).isEmpty then s else landDue s n false

/-! ## Register windows (R252 to R254) -/

/-- Bytes of an accumulator image from byte `o` (R197). -/
def accBytes (c : Core) (n o len : Nat) : Nat :=
  joinPieces 6144 ((rangeFrom (o / 768) (len / 768 + 2)).map (fun r => (c.accRow n r).toNat)) >>> (8 * (o % 768))

/-- The 64-bit word of the window-5 image at an offset that is a multiple of 8 (R252, R254). -/
def windowWord (s : State) (n off : Nat) : Word :=
  let c := s.core n
  if off < 0x800 then csRead s n (off / 8)
  else if off < 0xA00 then c.sreg ((off - 0x800) / 8)
  else if off < 0xA80 then c.mreg ((off - 0xA00) / 8)
  else if 0x1000 ≤ off && off < 0x1100 then
    ((c.creg ((off - 0x1000) / 16)).bits >>> (64 * (off / 8 % 2))).setWidth 64
  else 0

/-- `len` bytes of a register window of a core, as they stand. -/
def readWindow (s : State) (a len : Nat) : Nat :=
  let n := addrCore a
  let c := s.core n
  let off := addrOff a
  let v : Nat :=
    match addrWin a with
    | 1 =>
      if off < 0x18000 then (if (c.queue (off / 256)).count = 0 then 0 else (c.headOf (off / 256)).toNat)
      else ((c.queue ((off - 0x20000) / 512)).slot (off / 256 % 2)).toNat >>> (8 * (off % 256))
    | 2 => (c.tileOf (off / 0x4000)).toNat >>> (8 * (off % 0x4000))
    | 3 => accBytes c (off / 0x40000) (off % 0x40000) len
    | 4 => ((c.breg (off / 8192)).toNat + (c.breg (off / 8192 + 1)).toNat <<< 65536) >>> (8 * (off % 8192))
    | 5 => joinPieces 64 ((rangeFrom 0 ((len + 7) / 8)).map (fun i => (windowWord s n (off + 8 * i)).toNat))
    | _ => 0
  v % 2 ^ (8 * len)

/-- A write of bytes of an accumulator image, row by row. -/
def writeAcc (c : Core) (n o len v : Nat) : Core :=
  (rangeFrom (o / 768) (len / 768 + 2)).foldl (fun c r =>
    let lo := max o (768 * r)
    let hi := min (o + len) (768 * r + 768)
    if hi ≤ lo then c
    else c.setAccRow n r (BitVec.ofNat 6144
      (putField (c.accRow n r).toNat (8 * (lo - 768 * r)) (8 * (hi - lo)) (v >>> (8 * (lo - o)))))) c

/-- A store of 8 or 16 bytes into window 5: as an MTC, or a write of a register; an 8-byte store into the cn region
clears the tag (R254, R258). -/
def writeWindow5 (s : State) (n off len v : Nat) (capTag : Option Bool) : State :=
  let c := s.core n
  if off < 0x800 then csWrite s n (off / 8) (BitVec.ofNat 64 v)
  else if off < 0xA00 then s.setCore n (c.setSreg ((off - 0x800) / 8) (BitVec.ofNat 64 v))
  else if off < 0xA80 then s.setCore n (c.setMreg ((off - 0xA00) / 8) (BitVec.ofNat 64 v))
  else if 0x1000 ≤ off && off < 0x1100 then
    let k := (off - 0x1000) / 16
    s.setCore n (c.setCreg k
      { tag := capTag.getD false && len = 16,
        bits := BitVec.ofNat 128 (putField (c.creg k).bits.toNat (8 * (off % 16)) (8 * len) v) })
  else s

/-- A push through window 1 (R139, R140): the slot is reserved and filled, or the entry is lost and the target is told. -/
def pushWindow (s : State) (n q : Nat) (v : Entry) (storer : Nat) : State :=
  let c := s.core n
  let u := c.queue q
  if 2 ≤ u.count.toNat then
    raiseDeferred s n { src := 0, ch := 0, due := s.now + 1, num := 0x06, sub := 2,
                        tval := BitVec.ofNat 64 (q + storer <<< 32) }
  else s.setCore n { (c.setQueue q ((u.setSlot u.pushSlot v).reserve)).markBank q with
    qown := mapSet 0 c.qown (2 * q + u.pushSlot) 0 }

/-- A store of `len` bytes into a register window of a core. -/
def writeWindow (s : State) (a len v : Nat) (capTag : Option Bool) (storer : Nat) : State :=
  let n := addrCore a
  let c := s.core n
  let off := addrOff a
  let flags (c : Core) (k : Nat) : Core :=
    { c with tinuse := c.tinuse ||| BitVec.ofNat 18 (2 ^ k), tdirty := c.tdirty ||| BitVec.ofNat 18 (2 ^ k) }
  match addrWin a with
  | 1 =>
    if off < 0x18000 then pushWindow s n (off / 256) (BitVec.ofNat 2048 v) storer
    else
      let q := (off - 0x20000) / 512
      let k := off / 256 % 2
      s.setCore n ((c.setQueue q ((c.queue q).setSlot k (BitVec.ofNat 2048
        (putField ((c.queue q).slot k).toNat (8 * (off % 256)) (8 * len) v)))).markBank q)
  | 2 => s.setCore n (flags (c.putTile (off / 0x4000) (off % 0x4000) len v) (off / 0x4000))
  | 3 => s.setCore n (flags (writeAcc c (off / 0x40000) (off % 0x40000) len v) (16 + off / 0x40000))
  | 4 =>
    let r := off / 8192
    let two := putField ((c.breg r).toNat + (c.breg (r + 1)).toNat <<< 65536) (8 * (off % 8192)) (8 * len) v
    let c1 := c.setBreg r (BitVec.ofNat 65536 two)
    let crosses := 8192 < off % 8192 + len
    let c2 := if crosses then c1.setBreg (r + 1) (BitVec.ofNat 65536 (two >>> 65536)) else c1
    s.setCore n (c2.markDirty (BitVec.ofNat 22 (2 ^ r + if crosses then 2 ^ (r + 1) else 0)))
  | 5 => writeWindow5 s n off len v capTag
  | _ => s

/-! ## Granules, tags and leases (R258, R269, R270) -/

/-- The units of `2 ^ k` bytes that a run of bytes touches, by number. -/
def unitsOf (k a len : Nat) : List Nat :=
  if len = 0 then [] else rangeFrom (a >>> k) ((a + len - 1) >>> k + 1 - a >>> k)

/-- The 64-byte granules that an access touches. -/
def Access.lines (x : Access) : List Nat := x.spans.flatMap (fun p => unitsOf 6 p.addr p.len)

/-- The bytes of an access. -/
def Access.size (x : Access) : Nat := x.spans.foldl (fun n p => n + p.len) 0

/-- Whether a granule is leased. -/
def State.leased (s : State) (line : Nat) : Bool := s.leases.any (fun l => l.line = line)

/-- Whether a byte's home is memory: a scratchpad or a link die. -/
def isMemory (a : Nat) : Bool := addrWin a = 0 || addrWin a = 6

/-- The hidden tags after a write of `len` bytes at `a`: cleared, but for a capability store, which writes its own. -/
def writeTags (t : Map Bool) (a len : Nat) (capTag : Option Bool) : Map Bool :=
  if addrWin a = 0 then (unitsOf 4 a len).foldl (fun t u => mapSet false t u (capTag.getD false)) t else t

/-- The write-back of leased lines: their bytes go home and the leases end. -/
def endLeases (s : State) (lines : List Nat) : Result :=
  { st := { s with leases := s.leases.filter (fun l => !lines.contains l.line) },
    writes := (s.leases.filter (fun l => lines.contains l.line)).flatMap
      (fun l => bytesOf (64 * l.line) l.data.toNat 64) }

/-- The 64 bytes of a granule as an atomic meets them: from its lease, else from home. -/
def State.lineData (s : State) (line : Nat) : Nat :=
  match s.leases.find? (fun l => l.line = line) with
  | some l => l.data.toNat
  | none => readNat s.mem (64 * line) 64

/-- A byte of memory as the last atomic left it: from its lease, else from home. -/
def readByteNow (s : State) (a : Nat) : Nat :=
  match s.leases.find? (fun l => l.line = a / 64) with
  | some l => l.data.toNat >>> (8 * (a % 64)) % 256
  | none => (readByte s.mem a).toNat

/-- `n` bytes of memory as the last atomics left them. -/
def readNow (s : State) (a n : Nat) : Nat := joinPieces 8 ((rangeFrom a n).map (fun x => readByteNow s x))

/-- The number of a die over the pod. -/
def dieKey (a : Nat) : Nat := (a >>> 48) * 24 + field a 47 43

/-- The lease that a full cache gives up: the oldest start, ties to the lowest address (R270). -/
def victim (leases : List Lease) : Option Lease :=
  leases.foldl (fun best l => match best with
    | none => some l
    | some b => if l.start < b.start || (l.start = b.start && l.line < b.line) then some l else best) none

/-- The state after an atomic has left `data` in its line: the lease starts anew, and a full cache evicts (R269, R270). -/
def putLease (s : State) (a data : Nat) : Result :=
  let die := dieKey a
  let line := a / 64
  let l : Lease := { die := die, line := line, start := s.now, data := BitVec.ofNat 512 data }
  if s.leased line then { st := { s with leases := s.leases.map (fun x => if x.line = line then l else x) }, writes := [] }
  else
    let mine := s.leases.filter (fun x => x.die = die)
    let r : Result := if 256 ≤ mine.length then
        (match victim mine with
         | some v => endLeases s [v.line]
         | none => { st := s, writes := [] })
      else { st := s, writes := [] }
    { r with st := { r.st with leases := r.st.leases ++ [l] } }

/-! ## Atomics (R268, R281, R341, R345) -/

/-- The new value of a word; none where nothing is written. -/
def AtomOp.apply (k : AtomOp) (old x y : Word) : Option Word :=
  match k with
  | .swap => some x
  | .cas => if old = x then some y else none
  | .add => some (old + x)
  | .min => some (if x.toInt < old.toInt then x else old)
  | .max => some (if old.toInt < x.toInt then x else old)
  | .and => some (old &&& x)
  | .or => some (old ||| x)
  | .xor => some (old ^^^ x)
  | .barrier => some (old + x)

/-- barrier_add on a 16-byte object: COUNT, TARGET and PHASE after an add of x (R341). -/
def barrierAdd (obj x : Nat) : Nat :=
  let c := field obj 63 0 + x
  let target := field obj 95 64
  if target != 0 && target ≤ c then
    putField (putField obj 0 64 (c - target)) 96 32 (field obj 127 96 + 1)
  else putField obj 0 64 c

/-- A word that an atomic has changed: its window-0 offset, its old and its new value. -/
structure Change where
  off : Nat
  old : Word
  new : Word

/-- The armed slots of a core that the changes of one atomic cross, in firing order (R345). -/
def crossedArms (c : Core) (xs : List Change) (now : Nat) : List Arm :=
  sortBy (fun a b => a.thr.toNat < b.thr.toNat || (a.thr.toNat = b.thr.toNat && a.since ≤ b.since))
    (c.arms.filter (fun a => a.since < now && (match a.ends with | none => true | some e => now ≤ e) &&
      xs.any (fun x => a.off = x.off && x.old.toNat < a.thr.toNat && a.thr.toNat ≤ x.new.toNat)))

/-- Slots that fire at one ply e act at e + 1, e + 2, … in their order. -/
def firedFrom : Nat → List Arm → List Fired
  | _, [] => []
  | k, a :: as => { arm := a, ply := k } :: firedFrom (k + 1) as

/-- The crossings of one atomic fire and disarm their slots. -/
def fireArms (s : State) (n : Nat) (xs : List Change) : State :=
  let c := s.core n
  let hit := crossedArms c xs s.now
  if hit.isEmpty then s
  else s.setCore n { c with arms := c.arms.filter (fun a => !hit.contains a), fired := c.fired ++ firedFrom (s.now + 1) hit }

/-- An atomic in the atomic cache of its home die: the state after it with the bytes an eviction writes home, and the old
value. -/
def runAtomic (s : State) (addr : Nat) (kind : AtomOp) (x y : Word) : Result × Word :=
  let line := s.lineData (addr / 64)
  let sh := 8 * (addr % 64)
  let old : Word := BitVec.ofNat 64 (line >>> sh)
  if kind = .barrier then
    let obj := (line >>> sh) % 2 ^ 128
    let new := barrierAdd obj x.toNat
    let r := putLease s addr (putField line sh 128 new)
    let s1 := { r.st with tags := writeTags r.st.tags addr 16 none }
    let words : List Change := [⟨addrOff addr, old, BitVec.ofNat 64 new⟩,
      ⟨addrOff addr + 8, BitVec.ofNat 64 (obj >>> 64), BitVec.ofNat 64 (new >>> 64)⟩]
    ({ r with st := fireArms s1 (addrCore addr) words }, old)
  else
    match kind.apply old x y with
    | none => (putLease s addr line, old)
    | some new =>
      let r := putLease s addr (putField line sh 64 new.toNat)
      let s1 := { r.st with tags := writeTags r.st.tags addr 8 none }
      ({ r with st := fireArms s1 (addrCore addr) [⟨addrOff addr, old, new⟩] }, old)

/-- The data of a remote access is kept for its reply (R444). -/
def keepReply (s : State) (ident v : Nat) : State :=
  if s.served.contains ident then { s with replies := mapPut s.replies ident (BitVec.ofNat 2056 v) } else s

/-- An atomic on its way executes (R268): its old value goes to its register. One for another chip is charged to the tag of its request
(R415). -/
def executeAtom (s : State) (a : Atom) : Result :=
  let s1 := { s with atoms := s.atoms.filter (fun x => x.ident != a.ident) }
  let (r0, old) := runAtomic s1 a.addr a.kind a.x a.y
  let r : Result := if !s.served.contains a.ident then r0 else
    { r0 with st := { keepReply r0.st a.ident old.toNat with
        charges := s.charges ++ [{ chip := a.addr >>> 48, ply := s.now, tag := a.atag, pj := 150 }] } }
  match a.dest with
  | none => r
  | some d =>
    { r with st := r.st.addPending a.core { due := a.landAt, seq := a.order / 8, slot := a.order % 8,
                                            what := .scalar d old } }

/-! ## Accesses (R266, R269, R277, R290 to R291, R334, R343) -/

/-- The bytes a home holds, memory or register window. -/
def readHome (s : State) (m : List Host.Cell) (a len : Nat) : Nat :=
  if isMemory a then readNat m a len else readWindow (landedView s (addrCore a)) a len

/-- The data of a read: the bytes of its spans at their places. -/
def gatherSpans (s : State) (m : List Host.Cell) : List Span → Nat
  | [] => 0
  | p :: ps => (readHome s m p.addr p.len) <<< (8 * p.off) ||| gatherSpans s m ps

/-- The hidden tag that a capability load finds; a register of window 5 as its bits are read (R254, R258). -/
def readTag (s : State) (a : Nat) : Bool :=
  if addrWin a = 0 then mapGet false s.tags (a / 16)
  else if addrWin a = 5 && 0x1000 ≤ addrOff a && addrOff a < 0x1100 then
    (((landedView s (addrCore a)).core (addrCore a)).creg ((addrOff a - 0x1000) / 16)).tag
  else false

/-- The writes of the spans of an access, in order: bytes of memory, or stores into register windows. An issuer that is no core, a
link engine or the host, counts as storing core 0xFFFFFFFF (R140). Log 107, DESIGN CHOICE. -/
def scatterSpans (x : Access) : State → List Span → Result
  | s, [] => { st := s, writes := [] }
  | s, p :: ps =>
    let v := x.data.toNat >>> (8 * p.off)
    if isMemory p.addr then
      let r := scatterSpans x { s with tags := writeTags s.tags p.addr p.len x.capTag } ps
      { r with writes := bytesOf p.addr v p.len ++ r.writes }
    else scatterSpans x (writeWindow s p.addr p.len (v % 2 ^ (8 * p.len)) x.capTag (if 2 ^ 34 ≤ x.rank then 0xFFFFFFFF else x.core)) ps

/-- The operation of an access completes no earlier than the access (R273). -/
def delayOp (c : Core) (op due : Nat) : Core :=
  { c with ops := c.ops.map (fun o => if o.ident = op then { o with due := max o.due due } else o) }

/-- Whether an OPC is that of a collective (R358). -/
def isCollective (opc : Nat) : Bool := 0x0B ≤ opc && opc ≤ 0x0E

/-- The distance class of a submitted record of level 4, known from its bytes: another chip's for a collective (R272).
Log 108, DEDUCED. -/
def Core.opClass (c : Core) (op dist : Nat) : Core :=
  { c with ops := c.ops.map (fun o => if o.ident = op then { o with dist := dist } else o) }

/-- The next read of a wait, one ply on (R343). -/
def nextPoll (s : State) (x : Access) : State :=
  { s with accs := s.accs ++ [{ x with ident := 2 * s.nextId + 1, due := s.now + 1, landAt := s.now + 1, delayed := false }],
           nextId := s.nextId + 1 }

/-- An access that meets a leased granule performs, and lands, eight plies later (R269). Log 19, DEDUCED. -/
def delayAccess (s : State) (x : Access) : State :=
  let dest : Dest := match x.dest with
    | .copy ch row ts => .copy ch row (ts.map (fun (t : Nat × Nat) => (t.1, t.2 + 8)))
    | d => d
  let y : Access := { x with due := x.due + 8, landAt := x.landAt + 8, delayed := true, dest := dest }
  let s1 : State := { s with accs := s.accs.map (fun z => if z.ident = x.ident then y else z) }
  let done := match dest with
    | .copy _ _ ts => ts.foldl (fun m t => max m t.2) y.due
    | _ => if x.write then y.due else y.landAt
  let s2 := if !(s1.core x.core).ops.any (fun o => o.ident = x.op) then s1 else s1.setCore x.core (delayOp (s1.core x.core) x.op done)
  match x.dest with
  | .poll _ => nextPoll s2 x
  | .counter _ => nextPoll s2 x
  | _ => s2

/-- Whether a value read ends the wait (R343, R380). -/
def Wait.met (w : Wait) (v : Nat) : Bool :=
  match w.kind with
  | .counter => w.cmp.toNat ≤ v % 2 ^ 64
  | .barrier => field v 127 96 != w.cmp.toNat % 2 ^ 32
  | .report => v % 256 = 0xFE || v % 256 = 0xFD

/-- A read of a wait: it ends the wait, or the next read follows one ply on. While a read that a lease delayed is on its way, no read
after it ends the wait (R382), and one that met the condition and was held back ends it no more. Log 137, DESIGN CHOICE. -/
def pollRead (s : State) (x : Access) (v : Nat) : State :=
  let c := s.core x.core
  match c.wait with
  | some w =>
    if w.ident != x.op || w.ready.isSome then s
    else if w.met v && !s.accs.any (fun y => y.delayed && y.op = x.op && y.ident != x.ident &&
        y.due < x.due + if x.delayed then 0 else 8) then
      s.setCore x.core { c with wait := some { w with ready := some (s.now + w.lag) } }
    else if x.delayed then s
    else nextPoll s x
  | none => s

/-- Whether a home lies in the push region of a window 1. -/
def isPushHome (a : Nat) : Bool := addrWin a = 1 && addrOff a < 0x18000

/-- Whether a read in flight will still write a granule of the same 256 bytes of the row (R330). -/
def partExpected (s : State) (x : Access) (row block : Nat) : Bool :=
  s.accs.any (fun y => y.core = x.core && y.op = x.op && y.ident != x.ident &&
    (match y.dest with | .copy _ q ts => q = row && ts.any (fun t => t.1 / 256 = block) | _ => false))

/-- A granule on its way to a push region: the push follows when the 256 bytes of its row are there (R330). Log 24, DESIGN CHOICE. -/
def copyPart (s : State) (x : Access) (ch row home due v : Nat) : State :=
  let c := s.core x.core
  let k := c.chan ch
  let block := home / 256
  let parts := k.parts ++ [{ op := x.op, row := row, home := home, due := due, data := BitVec.ofNat 512 v }]
  let here (p : PushPart) : Bool := p.op = x.op && p.row = row && p.home / 256 = block
  let mine := parts.filter here
  let full := mine.length = 4 || (mine.any (fun p => p.home % 256 = 192) && !partExpected s x row block)
  if full then
    let piece (i : Nat) : Nat := match mine.find? (fun p => p.home = 256 * block + 64 * i) with
      | some p => p.data.toNat
      | none => (Config.missingGranule (s.freeCtr + i)).toNat
    let a : Access := { x with
      ident := 2 * s.nextId + 1, order := s.nextId, due := mine.foldl (fun m p => max m p.due) due, landAt := due,
      delayed := false, write := true, spans := [{ addr := 256 * block, len := 256, off := 0 }],
      data := BitVec.ofNat 2048 (joinPieces 512 ((rangeFrom 0 4).map piece)), dest := .nowhere }
    { s.setCore x.core (c.setChan ch { k with parts := parts.filter (fun p => !here p) }) with
      accs := s.accs ++ [a], nextId := s.nextId + 1, freeCtr := s.freeCtr + 4 }
  else s.setCore x.core (c.setChan ch { k with parts := parts })

/-- A granule that a channel has read goes on to its destinations (R334). -/
def copyWrites (s : State) (x : Access) (ch row v : Nat) : List (Nat × Nat) → State
  | [] => s
  | (home, due) :: ts =>
    let s1 := if isPushHome home then copyPart s x ch row home due v
      else
        { s with
          accs := s.accs ++ [{ x with
            ident := 2 * s.nextId + 1, order := s.nextId, due := due, landAt := due, delayed := false, write := true,
            spans := [{ addr := home, len := 64, off := 0 }], data := BitVec.ofNat 2048 v, dest := .nowhere }],
          nextId := s.nextId + 1 }
    copyWrites s1 x ch row v ts

/-- A read of the counter of a GCWAIT record: it completes the record, or the next read follows one ply on (R365). -/
def countRead (s : State) (x : Access) (k v : Nat) : State :=
  let arg (r : GtsRun) : Nat := match r.raw with | some w => field w.toNat 255 192 | none => 0
  let waiting (r : GtsRun) : Bool := r.ident = k && r.stop.isNone
  let met (r : GtsRun) : Bool := waiting r && arg r ≤ v % 2 ^ 64
  if s.recs.any met then
    { s with recs := s.recs.map (fun r => if met r then { r with stop := some 0, latest := max r.latest s.now } else r) }
  else if s.recs.any waiting && !x.delayed then nextPoll s x
  else s

/-! ## Granules of a restore (R398) -/

/-- A control state register as a restore writes it: in full, but for PC, PLY, the derived registers, those that the
placement map fixes, and those of the pre-emption. HCTL reads with ACT 0. -/
def restoreControl (s : State) (n idx : Nat) (v : Word) : State :=
  let c := s.core n
  if idx ≤ 1 || (0x41 ≤ idx && idx ≤ 0x4D) || idx = 0x53 || (0x70 ≤ idx && idx ≤ 0x72) || idx = 0x74 ||
      (0x80 ≤ idx && idx ≤ 0x87) || idx = 0x90 || idx = 0xA0 || idx = 0xA1 || idx = 0xA3 || idx = 0xA4 || idx = 0xA8 ||
      idx = 0xAC then s
  else if idx = 0x50 then s.setCore n { c with tconf := v.setWidth 32 }
  else if idx = 0x51 then s.setCore n { c with tinuse := v.setWidth 18 }
  else if 0x54 ≤ idx && idx ≤ 0x5B then
    s.setCore n ((rangeFrom 0 4).foldl (fun c i =>
      c.setScale ((idx - 0x54) / 4) (4 * ((idx - 0x54) % 4) + i) ((v >>> (16 * i)).setWidth 16)) c)
  else if idx = 0x5C then s.setCore n { c with uniA := v.setWidth 5, uniB := (v >>> 8).setWidth 5 }
  else csWrite s n idx v

/-- One 64-bit word of the window-5 image at an offset. `tag` is the tag of its 16-byte unit. -/
def restoreWord (s : State) (n off : Nat) (v : Word) (tag : Bool) : State :=
  let c := s.core n
  if off < 0x800 then restoreControl s n (off / 8) v
  else if off < 0xA00 then s.setCore n (c.setSreg ((off - 0x800) / 8) v)
  else if off < 0xA80 then s.setCore n (c.setMreg ((off - 0xA00) / 8) v)
  else if 0x1000 ≤ off && off < 0x1100 then
    let k := (off - 0x1000) / 16
    s.setCore n (c.setCreg k
      { tag := tag, bits := BitVec.ofNat 128 (putField (c.creg k).bits.toNat (64 * (off / 8 % 2)) 64 v.toNat) })
  else s

/-- The saved state of a channel: CHREC, CHSTAT, its offset, and its capability. -/
def restoreChannel (s : State) (n ch v : Nat) (tag : Bool) : State :=
  let c := s.core n
  let rec0 := field v 63 0
  let stat := field v 127 64
  let k : Chan := { Chan.reset with
    state := BitVec.ofNat 2 stat, sub := BitVec.ofNat 8 (stat >>> 8), mode := bit stat 2,
    recOff := BitVec.ofNat 22 rec0, next := BitVec.ofNat 32 (rec0 >>> 32),
    cap := { tag := tag, bits := BitVec.ofNat 128 (v >>> 256) } }
  let s1 := s.setCore n (c.setChan ch k)
  match c.restoring with
  | some r =>
    if k.state = 2 then
      s1.setCore n { s1.core n with restoring := some { r with offs := r.offs ++ [(ch, BitVec.ofNat 64 (v >>> 128))] } }
    else s1
  | none => s1

/-- Queue state of 64 queues from queue `q`. -/
def restoreHeads (c : Core) (q v : Nat) : Core :=
  (rangeFrom 0 64).foldl (fun c i =>
    let b := field v (8 * i + 2) (8 * i)
    c.setQueue (q + i) { c.queue (q + i) with
      head := BitVec.ofNat 1 (b / 4), count := if b % 4 = 3 then 2 else BitVec.ofNat 2 b }) c

/-- One granule of the save area, read at an offset, goes to the state it was saved from. `tagAt` gives the hidden tags of
its four units. -/
def restoreGranule (s : State) (n off v : Nat) (tagAt : Nat → Bool) : State :=
  let c := s.core n
  if off < 0x80 then
    match c.restoring with
    | some r =>
      let r1 : Restore := if off < 0x40 then { r with header := BitVec.ofNat 512 v } else { r with tvals := BitVec.ofNat 512 v }
      s.setCore n { c with restoring := some r1 }
    | none => s
  else if off < 0x200 then s.setCore n (restoreHeads c (off - 0x80) v)
  else if off < 0x300 then
    s.setCore n ((rangeFrom 0 4).foldl (fun c i =>
      c.setPan ((off - 0x200) / 16 + i)
        { seed := BitVec.ofNat 64 (v >>> (128 * i)), ph := BitVec.ofNat 16 (v >>> (128 * i + 64)),
          scr := BitVec.ofNat 10 (v >>> (128 * i + 80)) }) c)
  else if off < 0x400 then restoreChannel s n ((off - 0x300) / 64) v (tagAt 2)
  else if off < 0x4000 then
    (rangeFrom 0 8).foldl (fun s i =>
      restoreWord s n (off - 0x2000 + 8 * i) (BitVec.ofNat 64 (v >>> (64 * i))) (tagAt (i / 2))) s
  else if off < 0x34000 then
    let o := off - 0x4000
    let u := c.queue (o / 512)
    s.setCore n (c.setQueue (o / 512) (u.setSlot (o / 256 % 2)
      (BitVec.ofNat 2048 (putField (u.slot (o / 256 % 2)).toNat (8 * (o % 256)) 512 v))))
  else if off < 0x54000 then
    let o := off - 0x34000
    s.setCore n (c.setBreg (o / 8192) (BitVec.ofNat 65536 (putField (c.breg (o / 8192)).toNat (8 * (o % 8192)) 512 v)))
  else if off < 0x94000 then s.setCore n (c.putTile ((off - 0x54000) / 0x4000) ((off - 0x54000) % 0x4000) 64 v)
  else s.setCore n (writeAcc c ((off - 0x94000) / 0x24000) ((off - 0x94000) % 0x24000) 64 v)

/-- The data of a read goes where the access sends it. A record that was read late, for a lease, is accepted no earlier than it was read
(log 124, DESIGN CHOICE). -/
def landRead (s0 : State) (x : Access) (v : Nat) : State :=
  let tagged : Bool := match x.dest with | .cap _ => readTag s0 ((x.spans.map Span.addr).headD 0) | _ => false
  let s := keepReply s0 x.ident (v + if tagged then 2 ^ 128 else 0)
  let pend (l : Land) : State :=
    s.addPending x.core { due := x.landAt, seq := x.order / 8, slot := x.order % 8, what := l }
  match x.dest with
  | .nowhere => s
  | .fromTile _ _ => s
  | .scalar r size => if r = 0 then s else pend (.scalar r (toBits 64 (sext v (8 * size))))
  | .ring r => pend (.ring r (BitVec.ofNat 64 v))
  | .queue q slot _ => pend (.queue q slot (BitVec.ofNat 2048 v))
  | .cap c => pend (.cap c { tag := tagged, bits := BitVec.ofNat 128 v })
  | .tile t off => pend (.tile t off ((x.spans.map Span.len).headD 0) (BitVec.ofNat 101376 v))
  | .poll _ => pollRead s x v
  | .copy ch row ts => copyWrites s x ch row v ts
  | .nibble _ => s
  | .record k =>
    let s1 : State := { s with recs := s.recs.map (fun r =>
        if r.ident = k then { r with raw := some (BitVec.ofNat 256 v), readyAt := max r.readyAt s.now } else r) }
    let opc := v % 256
    match s.recs.find? (fun r => r.ident = k) with
    | some r => if r.lvl = 4 then s1.setCore r.who ((s1.core r.who).opClass r.op (if isCollective opc then 4 else 3)) else s1
    | none => s1
  | .forward home lag =>
    { s with
      accs := s.accs ++ [{ x with
        ident := 2 * s.nextId + 1, due := s.now + lag, landAt := s.now + lag, delayed := false, write := true,
        spans := [{ addr := home, len := 64, off := 0 }], data := BitVec.ofNat 2048 v, dest := .nowhere }],
      nextId := s.nextId + 1 }
  | .staging chip off =>
    let c := mapGet Chip.reset s.chips chip
    { s with chips := mapPut s.chips chip { c with bar2 := writeBytes c.bar2 (bytesOf off v x.size) } }
  | .fromStaging _ _ => s
  | .counter k => countRead s x k v
  | .report _ _ => s
  | .restore off =>
    let a := (x.spans.map Span.addr).headD 0
    restoreGranule s x.core off v (fun i => readTag s (a + 16 * i))

/-- A write as it performs: one nibble is a write of its byte, whose other nibble is as it stands (R372); the bytes of host
staging are read now. -/
def Access.merged (x : Access) (s : State) (old : Nat) : Access :=
  match x.dest with
  | .fromStaging chip off =>
    { x with data := BitVec.ofNat 2048 (readNat (mapGet Chip.reset s.chips chip).bar2 off x.size) }
  | .nibble true => { x with data := BitVec.ofNat 2048 (old % 16 + (x.data.toNat % 16) <<< 4) }
  | .nibble false => { x with data := BitVec.ofNat 2048 (old / 16 * 16 + x.data.toNat % 16) }
  | _ => x

/-- What a write brings with it as it performs: a faulted report raises TILESET_REPORT at its submitter from the next ply on
(R378). -/
def Access.announce (x : Access) (s : State) : State :=
  match x.dest with
  | .report sub tval => raiseDeferred s x.core { src := 2, ch := 0, due := s.now + 1, num := 0x15, sub := sub, tval := tval }
  | _ => s

/-- Whether an access of a bundle to another chip still waits for its request to reach that chip (R444). -/
def awaitsRequest (s : State) (core rank addr ident : Nat) : Bool :=
  rank = bundleRank core && addr >>> 48 != chipOf core && !s.served.contains ident

/-- Whether an access, or an atomic, performs at this ply. -/
def Access.dueNow (s : State) (x : Access) : Bool :=
  x.due ≤ s.now && !awaitsRequest s x.core x.rank ((x.spans.map Span.addr).headD 0) x.ident
def Atom.dueNow (s : State) (a : Atom) : Bool := a.due ≤ s.now && !awaitsRequest s a.core a.rank a.addr a.ident

/-! ## The atomics of a ply (R268) -/

/-- The home of an address on this chip that a validation has let pass. -/
def ownHome (s : State) (n : Nat) (a : Int) : Nat :=
  match chipName s n (lowBits a 64) with
  | .own l => (match resolveOn (s.pmap (chipOf n)) l (chipOf n) (lowBits a 64) 1 with | .ok h => h | .error _ => 0)
  | _ => 0

/-- The rank of the accesses of a channel (R291). Log 91, DEDUCED. -/
def channelRank (n ch : Nat) : Nat := 16 * n + 1 + ch

/-- Whether the operations that a core started are complete. Log 31, DEDUCED. -/
def Core.quiet (c : Core) (now : Nat) : Bool := c.ops.all (fun o => !o.waits now)

/-- Whether the adds of a core's yields are due: from the ply after the yield, once its operations are complete (R349). -/
def Core.addsDue (c : Core) (now : Nat) : Bool := !c.yieldAdds.isEmpty && c.idleFrom ≤ now && c.quiet now

/-- Whether a core issues a bundle at this ply: none while a restore is in progress (R398). -/
def Core.issues (c : Core) (now : Nat) : Bool := c.run = .running && c.nextIssue ≤ now && c.restoring.isNone

/-- The counted records of a channel that are due for their add. -/
def Chan.addsNow (k : Chan) (now : Nat) : List CopyTail := k.tails.filter (fun t => plyDue t.addAt now)

/-- The adds of counted records that are due: core and channel. -/
def dueAdds (s : State) : List (Nat × Nat) :=
  s.cores.flatMap (fun e => (e.2.chans.filter (fun k => !(k.2.addsNow s.now).isEmpty)).map (fun k => (e.1, k.1)))

/-- The add of a counted record as an atomic (R336). -/
def tailAtom (s : State) (n ch : Nat) (t : CopyTail) : Atom :=
  { ident := 0, op := t.op, core := n, rank := channelRank n ch, order := 0, due := s.now, landAt := s.now,
    addr := ownHome s n t.ctr.toNat, kind := if bit t.ctl.toNat 2 then .barrier else .add, x := t.add, y := 0, dest := none }

/-- Whether a core has yet to start, at this ply, the atomics that were foreseen for it: its bundle has not issued, or the add of its
yield is still to be made. -/
def Core.mayStart (c : Core) (now : Nat) : Bool := c.issues now || c.addsDue now

/-- The atomics that have yet to execute at this ply, by issuer: those that are due, the adds of counted records, and those on their own
scratchpads that the bundles of the ply, or the adds of yields, are foreseen to start. Log 18, DEDUCED. -/
def dueAtomics (s : State) : List Atom :=
  sortBy (fun a b => a.rank < b.rank || (a.rank = b.rank && a.order ≤ b.order))
    (s.atoms.filter (fun a => a.dueNow s) ++
      (dueAdds s).flatMap (fun e => (((s.core e.1).chan e.2).addsNow s.now).map (tailAtom s e.1 e.2)) ++
      (s.foreseen.getD []).filter (fun a => (s.core a.core).mayStart s.now))

/-- The state as an access finds it after the atomics of its ply: they have executed, and their lines are home (R268, R269). -/
def afterAtomics (s : State) (xs : List Atom) : State :=
  xs.foldl (fun s a =>
    let r := (runAtomic s a.addr a.kind a.x a.y).1
    let back := endLeases r.st [a.addr / 64]
    { back.st with mem := writeBytes s.mem (r.writes ++ back.writes) }) s

/-- A delayed read that was made before the atomics of its ply on its lines have executed leaves a read that no one awaits, which ends
their leases once they have (R268, R269). Log 18, DEDUCED. -/
def leaveRead (s : State) (core rank : Nat) (spans : List Span) : State :=
  { s with
    nextId := s.nextId + 1,
    accs := s.accs ++ [{ ident := 2 * s.nextId + 1, op := 0, core := core, rank := rank, order := s.nextId, due := s.now, landAt := s.now,
                         delayed := true, write := false, spans := spans, data := 0, capTag := none, dest := .nowhere }] }

/-- The granules that spans touch. -/
def linesOf (spans : List Span) : List Nat := spans.flatMap (fun p => unitsOf 6 p.addr p.len)

/-- Whether an access to some granules meets a lease at this ply (R269): one that stands, or that of an atomic of the ply, also of one
that a bundle of the ply is foreseen to start. Log 18, DEDUCED. -/
def metLease (s : State) (lines : List Nat) : Bool :=
  lines.any (fun l => s.leased l || (dueAtomics s).any (fun a => a.addr / 64 = l))

/-- A read of some spans that no lease delays any more: the state as the read sees it, with their granules home, and the state that it
leaves (R269). Before atomics of its ply on those granules have executed it sees what they will leave. Log 18, DEDUCED. -/
def settledRead (s : State) (core rank : Nat) (spans : List Span) : State × Result :=
  let lines := linesOf spans
  let later := (dueAtomics s).filter (fun a => lines.contains (a.addr / 64))
  if later.isEmpty then
    let back := endLeases s (lines.filter s.leased)
    ({ back.st with mem := writeBytes s.mem back.writes }, back)
  else
    let v := afterAtomics s later
    ({ v with mem := writeBytes v.mem (endLeases v (lines.filter v.leased)).writes }, { st := leaveRead s core rank spans, writes := [] })

/-- A delayed read that performs before atomics of its ply on its lines execute returns what they will leave (R268, R269).
Log 18, DEDUCED. -/
def readBefore (s : State) (x : Access) (later : List Atom) : State :=
  let v := afterAtomics s later
  let m := (endLeases v (x.lines.filter v.leased)).writes
  let t := landRead { s with accs := s.accs.filter (fun y => y.ident != x.ident), tags := v.tags } x
    (gatherSpans s (writeBytes v.mem m) x.spans)
  leaveRead { t with tags := s.tags } x.core x.rank x.spans

/-- An access at its perform ply: delayed by a lease it meets, else performed, after the write-back that a delayed access
forces (R269). -/
def performAccess (s : State) (x : Access) : Result :=
  let leasedLines := x.lines.filter s.leased
  if !x.delayed && !leasedLines.isEmpty then { st := delayAccess s x, writes := [] }
  else
    let later := if x.delayed && !x.write then (dueAtomics s).filter (fun a => x.lines.contains (a.addr / 64)) else []
    let back := endLeases s leasedLines
    let s1 := { back.st with accs := back.st.accs.filter (fun y => y.ident != x.ident) }
    if !later.isEmpty then { st := readBefore s x later, writes := [] }
    else if x.write then
      let r := scatterSpans (x.merged s (readNat (writeBytes s.mem back.writes) ((x.spans.map Span.addr).headD 0) 1)) s1 x.spans
      { r with st := x.announce r.st, writes := back.writes ++ r.writes }
    else
      let m := writeBytes s.mem back.writes
      { st := landRead s1 x (gatherSpans s1 m x.spans), writes := back.writes }

/-! ## Meanings of the events -/

/-- RESULT_LANDING (R14). The results of a core that are due land. -/
def execResultLanding (core : Nat) (s : State) : Host.Outcome State Fault Refusal := finishSame s (landAll s core)

/-- MEMORY_ACCESS_PERFORM (R290). An access that is due performs at its home. -/
def execMemoryAccessPerform (ident : Nat) (s : State) : Host.Outcome State Fault Refusal :=
  match s.accs.find? (fun x => x.ident = ident && x.dueNow s) with
  | some x => finish s (performAccess s x)
  | none => .next s

/-- ATOMIC_EXECUTE (R268). An atomic that is due executes in the atomic cache of its home die. -/
def execAtomicExecute (ident : Nat) (s : State) : Host.Outcome State Fault Refusal :=
  match s.atoms.find? (fun x => x.ident = ident && x.dueNow s) with
  | some a => finish s (executeAtom s a)
  | none => .next s

/-- Whether a lease is over at this ply: 512 plies after its last atomic, or with a delayed access to its line (R269).
Log 19, DEDUCED. -/
def leaseOver (s : State) (l : Lease) : Bool :=
  l.start + 512 ≤ s.now ||
    (l.start < s.now && s.accs.any (fun x => x.delayed && x.due ≤ s.now && x.lines.contains l.line))

/-- LEASE_EXPIRY (R269). A lease ends 512 plies after its last atomic, or at the ply of the access it delayed, and its line
goes home. -/
def execLeaseExpiry (die line : Nat) (s : State) : Host.Outcome State Fault Refusal :=
  if s.leases.any (fun l => l.die = die && l.line = line && leaseOver s l) then finish s (endLeases s [line])
  else .next s

/-- Whether an access is a chunk of a tile load, or of a tile store (R214). -/
def Access.isTileLoad (x : Access) : Bool := match x.dest with | .tile _ _ => true | _ => false
def Access.isTileStore (x : Access) : Bool := match x.dest with | .fromTile _ _ => true | _ => false

/-- TILE_CHUNK_MOVE (R214). The earliest chunk of a core's tile loads that is due, else of its tile stores, moves. -/
def execTileChunkMove (core : Nat) (s : State) : Host.Outcome State Fault Refusal :=
  let due := s.accs.filter (fun x => x.core = core && x.due ≤ s.now)
  match minBy Access.order (due.filter Access.isTileLoad), minBy Access.order (due.filter Access.isTileStore) with
  | some x, _ => finish s (performAccess s x)
  | none, some x => finish s (performAccess s x)
  | none, none => .next s

end Sys2Proof.Machine
end

