-- ==== Sys2Proof/Machine/Engine.lean ====
section
/-! DEFINITION. The E slot but for the tile set, copy channels, thresholds, launches by SPAWN and the yield counter
(R325 to R351). -/

namespace Sys2Proof.Machine

/-! ## E slot forms (R66, R325) -/

/-- An E slot that reads s[X] and c[Y]. -/
def engineForm (t : BitVec 3) (x : BitVec 6) (y : BitVec 4) : SlotOut :=
  { SlotOut.empty 6 t.toNat with reads := [.scalar x.toNat, .cap y.toNat] }

/-- A condition that raises a cause. -/
def causeIf (b : Bool) (num sub : Nat) (tval : Word) : List Cause := if b then [⟨num, sub, tval⟩] else []

/-- CHSTART (R333). -/
def channelStart (s : State) (t : BitVec 3) (x : BitVec 6) (y : BitVec 4) (ch : BitVec 2) : SlotOut :=
  let v := s.rs x
  let cap := s.rc y
  { engineForm t x y with
    hold := (s.curCore.chan ch.toNat).state = 1,
    causes := causeIf (!cap.tag) 0x08 0 v ++ causeIf (!bit cap.perm 6) 0x0A 6 v ++ causeIf (cap.otype != 0) 0x0B 0 v,
    starts := [(12, 0)],
    effs := [.chStart ch.toNat (v.toNat % 2 ^ 22) (v.toNat >>> 32) cap] }

/-- The first read of a wait, at p0 + T, and the wait itself (R343). -/
def startWait (s : State) (kind : WaitKind) (cmp : Word) (home size : Nat) : Wait × Access :=
  let n := s.cur.core
  let d := distance n home
  ({ kind := kind, cmp := cmp, ident := 0, lag := landLag d - performLag d, ready := none },
   { ident := 0, op := 0, core := n, rank := bundleRank n, order := s.seq * 8 + 6, due := s.now + performLag d,
     landAt := s.now + performLag d, delayed := false, write := false, spans := [{ addr := home, len := size, off := 0 }],
     data := 0, capTag := none, dest := .poll size })

/-- Whether the scoreboard checks the bundle being issued (R30). -/
def State.checked (s : State) : Bool := s.curCore.chksb || bit s.cur.w 23

/-- CWAIT, BWAIT and GWAIT: held from the first issue until a read has met the condition, whatever the path tag (R325, R343,
R380). Its operands are sampled and checked when the bundle first reaches issue. -/
def waitSlot (s : State) (t : BitVec 3) (x : BitVec 6) (y : BitVec 4) (kind : WaitKind) (addr : Int) (size : Nat) : SlotOut :=
  match s.curCore.wait with
  | some w => { SlotOut.empty 6 t.toNat with hold := (match w.ready with | some z => s.now < z | none => true) }
  | none =>
    let n := s.cur.core
    let q := { plainRequest (s.rc y) addr size [0] with stays := true, atomic := true }
    let bad := (checkAccess s n q).toList
    let taken := tagTaken (treeOf s.cur.outs) t.toNat
    let short := taken && s.checked && (readPending s n (.scalar x.toNat) || readPending s n (.cap y.toNat))
    let home := (homesOf s n q).headD 0
    { engineForm t x y with
      causes := bad, hold := bad.isEmpty && !short, prompt := taken && (!bad.isEmpty || short),
      wait := if bad.isEmpty && !short then some (startWait s kind (s.rs x) home size) else none }

/-- CADD and BADD (R342): an atomic add that returns nothing, a release at scope pod. Log 35, DEDUCED. -/
def counterAdd (s : State) (t : BitVec 3) (x : BitVec 6) (y : BitVec 4) (addr : Int) (size : Nat) (kind : AtomOp) : SlotOut :=
  let n := s.cur.core
  let q := { plainRequest (s.rc y) addr size [0, 1, 3] with atomic := true }
  let o := { engineForm t x y with release := some 4 }
  match checkAccess s n q with
  | some c => { o with causes := [c], starts := [(3, startClass s q)] }
  | none =>
    let home := (homesOf s n q).headD 0
    let plies := accessPlies s n home false
    let d := distance n home
    { o with
      starts := [(3, d)],
      effs := [.atom { ident := slotIdent s 6 0, op := slotOp s 6, core := n, rank := bundleRank n, order := s.seq * 8 + 6,
                       due := plies.1 - 4, landAt := plies.1 - 4, addr := home, kind := kind, x := s.rs x, y := 0,
                       dest := none }] ++
        (plies.2.2.map (fun i => Eff.takeSlot i (slotIdent s 6 0))).toList ++ [.op (makeOp s 6 3 d (plies.1 - 4) none)] }

/-! ## SPAWN (R347, R348) -/

/-- Whether a core is idle for a launch (R114, R347, R374, R387), also with a start that a restore has left with it.
Log 143, DESIGN CHOICE. -/
def Core.isFree (c : Core) (now : Nat) : Bool := c.isIdle now && c.saving.isNone && c.restoring.isNone && c.reserved.isNone

/-- The request that checks an entry address. -/
def entryRequest (cap : Cap) (entry : Word) : Request :=
  { plainRequest cap entry.toNat 1 [2] with shape := true, stays := true }

/-- The core that an entry address names. -/
def entryCore (s : State) (n : Nat) (cap : Cap) (entry : Word) : Nat :=
  addrCore ((homesOf s n (entryRequest cap entry)).headD 0)

/-- The causes of an entry address (R347). -/
def entryCauses (s : State) (n : Nat) (cap : Cap) (entry : Word) : List Cause :=
  let bad := checkAccess s n (entryRequest cap entry)
  bad.toList ++ causeIf (field entry.toNat 36 32 != 0) 0x0D 3 entry ++
    causeIf (bad.isNone && entryCore s n cap entry = n) 0x14 0x03 entry

/-- SPAWN: held while the core that its entry names is not idle, and until the operations within its scope are complete, whether
its checks pass or not (R274, R347). Log 29, DEDUCED. -/
def spawnSlot (s : State) (t : BitVec 3) (x : BitVec 6) (y : BitVec 4) (delay : Nat) : SlotOut :=
  let n := s.cur.core
  let entry := s.rs x
  let bad := entryCauses s n (s.rc y) entry
  let k := entryCore s n (s.rc y) entry
  let d := distance n (coreBase k)
  let child : Bool := match resolveRequest s n (entryRequest (s.rc y) entry) with
    | .ok _ => field entry.toNat 36 32 = 0
    | .error _ => false
  { engineForm t x y with
    causes := bad, hold := child && k != n && !(s.core k).isFree s.now, release := if child then some d else none,
    effs := if bad.isEmpty then [.spawn k (field entry.toNat 21 0) (s.now + performLag d + 2 + delay)] else [] }

/-! ## ARM (R344) -/

/-- The request that checks a store action: an STX.D of 8 bytes. -/
def storeRequest (cap : Cap) (target : Word) : Request :=
  { plainRequest cap target.toNat 8 [1] with stays := true, atomic := true }

/-- ARM. -/
def armSlot (s : State) (t : BitVec 3) (v : BitVec 9) (p : BitVec 1) (x : BitVec 4) (n : BitVec 3) : SlotOut :=
  let core := s.cur.core
  let d := elems 32 (s.rq v.toNat)
  let lane (i : Nat) : Nat := d.getD i 0
  let wide (i : Nat) : Word := BitVec.ofNat 64 (lane i + lane (i + 1) <<< 32)
  let kind := lane 4 % 4
  let bad := lane 0 % 8 != 0 || 0x400000 ≤ lane 0 || kind = 3 || 4 ≤ lane 4 || (kind = 2 && x != 0)
  { SlotOut.empty 6 t.toNat with
    qreads := [(v.toNat, p = 0)],
    reads := if kind ≤ 1 then [.cap x.toNat] else [],
    causes :=
      causeIf bad 0x14 0x10 (BitVec.ofNat 64 (lane 4)) ++
      (if kind = 0 then entryCauses s core (s.rc x) (wide 6)
       else if kind = 1 then (checkAccess s core (storeRequest (s.rc x) (wide 6))).toList else []),
    effs := [.arm { slot := n.toNat, off := lane 0, thr := wide 2, kind := kind, target := wide 6, value := wide 8,
                    code := BitVec.ofNat 16 (lane 8), since := s.now, ends := none }] }

/-! ## Next tiles (R350, R351) -/

/-- The null tile word. -/
def nullTile : Word := 0x8000000000000000

/-- A word on its way to the next-tile ring, and the ring pointer moved on at commit. Log 45, DEDUCED. -/
def ringLands (c : Core) (v : Word) : List (Nat × Land) :=
  [(8, .ring (60 + c.ntrp.toNat) v), (0, .control 0x8C ((c.ntrp + 1).setWidth 64))]

/-! ## Transfer records (R327 to R332) -/

/-- The fields of a transfer record of 512 bits. -/
def parseRecord (off : Nat) (v : Nat) : CopyRun :=
  let rbytes := field v 255 224
  let rows := field v 207 192
  { off := off, op := 0, ctl := BitVec.ofNat 8 v, nextOff := field v 63 32, src := field v 127 64, dst := field v 191 128,
    rows := rows, rbytes := rbytes, sstride := sext (field v 287 256) 32, dstride := sext (field v 319 288) 32,
    ctr := BitVec.ofNat 64 (field v 383 320), add := BitVec.ofNat 64 (field v 447 384), mcast := field v 511 448,
    n := rows * (rbytes / 64), issueAt := 0 }

/-- The mode and the barrier bit of a record. -/
def CopyRun.counted (r : CopyRun) : Bool := bit r.ctl.toNat 1

/-- Addresses of the rows from a base with a stride. -/
def rowStarts (base : Nat) (stride : Int) (rows : Nat) : List Int :=
  (rangeFrom 0 rows).map (fun (i : Nat) => (base : Int) + (i : Int) * stride)

/-- The destinations of an address under MCAST (R329). -/
def multicast (mcast : Nat) (a : Int) : List Int :=
  if mcast = 0 then [a]
  else
    let v := lowBits a 64
    (((rangeFrom 0 24).filter (fun d => bit mcast (16 + d))).flatMap (fun d =>
      ((rangeFrom 0 16).filter (fun j => bit mcast j)).map (fun j =>
        ((putField (putField v 43 5 d) 37 6 (field v 42 37 + j) : Nat) : Int))))

/-- The destination addresses of the rows of a record. -/
def CopyRun.dstRows (r : CopyRun) : List Int := (rowStarts r.dst r.dstride r.rows).flatMap (multicast r.mcast)
def CopyRun.srcRows (r : CopyRun) : List Int := rowStarts r.src r.sstride r.rows

/-- Whether a row lies in a capability with a permission (sub 0x05). Log 87, DEDUCED. -/
def rowCovered (cap : Cap) (len : Nat) (perm : Nat) (a : Int) : Bool :=
  cap.tag && (cap.base : Int) ≤ a && a + len ≤ (cap.base : Int) + cap.length && bit cap.perm perm &&
    spaceCovers cap.space (field (lowBits a 64) 36 32)

/-- Whether a row resolves on this chip to a window that a record may name there (sub 0x06). -/
def rowResolves (s : State) (n len : Nat) (source : Bool) (a : Int) : Bool :=
  let v := lowBits a 64
  let win := field v 36 32
  let push := win = 1 && v % 2 ^ 32 < 0x18000
  0 ≤ a && a < 2 ^ 64 && win != 5 && !(source && push) &&
    (match chipName s n v with
     | .own l => (match resolveOn (s.pmap (chipOf n)) l (chipOf n) v len with | .ok _ => true | .error _ => false)
     | _ => false)

/-- The lowest subcode of ENGINE_RECORD that a record meets, if any (R332). `head` is the mode of the head record, if this
is a later one, and `g0` the start granule. Log 27, DEDUCED. -/
def recordFault (s : State) (n : Nat) (cap : Cap) (raw : Nat) (r : CopyRun) (head : Option Bool) (g0 : Nat) : Option Nat :=
  let push (a : Int) : Bool := field (lowBits a 64) 36 32 = 1 && lowBits a 32 < 0x18000
  let ctr := r.ctr.toNat
  let size := if bit raw 2 then 16 else 8
  if !bit raw 0 then some 0x01
  else if field raw 31 3 != 0 || field raw 223 208 != 0 || (match head with | some m => m != r.counted | none => false) then
    some 0x02
  else if r.rows = 0 || r.rbytes = 0 || r.rbytes % 64 != 0 || 4194304 < r.rbytes || r.sstride % 64 != 0 ||
      r.dstride % 64 != 0 || r.src % 64 != 0 || r.dst % 64 != 0 ||
      (r.dstRows.any push && (r.dst % 256 != 0 || r.dstride % 256 != 0 || r.rbytes % 256 != 0)) || r.n ≤ g0 then some 0x03
  else if r.counted != (r.ctr != 0) then some 0x04
  else if r.srcRows.any (fun a => !rowCovered cap r.rbytes 0 a) || r.dstRows.any (fun a => !rowCovered cap r.rbytes 1 a) ||
      (r.mcast != 0 && !bit cap.perm 5) then some 0x05
  else if r.srcRows.any (fun a => !rowResolves s n r.rbytes true a) ||
      r.dstRows.any (fun a => !rowResolves s n r.rbytes false a) ||
      (r.counted && !rowResolves s n size false ctr) then some 0x06
  else if (r.srcRows ++ r.dstRows).any (fun a => a / 2 ^ 32 != (a + r.rbytes - 1) / 2 ^ 32) then some 0x07
  else if r.counted && (ctr % size != 0 || !(field ctr 36 32 = 0 || field ctr 36 32 = 7) || !rowCovered cap size 3 ctr) then
    some 0x08
  else if field r.mcast 63 40 != 0 || (r.mcast != 0 && (field r.dst 47 43 != 0 || field r.dst 40 37 != 0)) then some 0x09
  else none

/-! ## Channels (R331 to R340) -/

/-- The extra plies of a counted event, and the counter moved on. -/
def countedLag (s : State) (counted : Bool) : Nat := if counted then Config.countedDelay s.freeCtr else 0

/-- The record that was read is the next to run, or its fault stops the channel (R331). It is of the class of the farthest of its sources
and destinations, under MCAST too (R272). Log 27, DEDUCED. Log 133, DESIGN CHOICE. -/
def acceptRecord (s : State) (n ch : Nat) (raw : Nat) : State :=
  let c := s.core n
  let k := c.chan ch
  let r := parseRecord k.fetchOff raw
  let g0 := k.head.getD 0
  let bad := if k.fetchOff % 64 != 0 || 0x3FFFC0 < k.fetchOff then some 0x00
    else recordFault s n k.cap raw r (if k.head.isSome then none else some k.mode) g0
  let dropChain := c.ops.filter (fun o => o.ident != k.chain)
  match bad with
  | some sub =>
    s.setCore n { c.setChan ch { k with fetchAt := none, fault := some sub, recOff := BitVec.ofNat 22 k.fetchOff, mode := if sub = 0 then k.mode else r.counted } with
                  ops := dropChain }
  | none =>
    let op := 2 * s.nextId + 1
    let far := (r.srcRows ++ r.dstRows).foldl (fun m a => max m (distance n (ownHome s n a))) 0
    let ops := (if r.nextOff = 0 then dropChain else c.ops) ++
      [{ ident := op, seq := k.seq, kinds := 12, dist := far, isOpen := true, due := 0, acq := none }]
    { s.setCore n { c.setChan ch { k with
          fetchAt := none, fetchDelayed := false, head := none, mode := r.counted, recOff := BitVec.ofNat 22 k.fetchOff,
          next := BitVec.ofNat 32 g0,
          cur := some { r with op := op, issueAt := s.now + 2 + countedLag s r.counted } } with ops := ops } with
      nextId := s.nextId + 1, freeCtr := s.freeCtr + 1 }

/-- The fetch of a record: one granule of the own window 0, delayed as any access by a lease, also by that of an atomic of its ply
(R268, R269, R331). Log 26, DEDUCED. -/
def fetchRecord (s : State) (n ch : Nat) : Result :=
  let c := s.core n
  let k := c.chan ch
  let a := coreBase n + k.fetchOff
  if k.fetchOff % 64 != 0 || 0x3FFFC0 < k.fetchOff then { st := acceptRecord s n ch 0, writes := [] }
  else if metLease s [a / 64] && !k.fetchDelayed then
    { st := s.setCore n (c.setChan ch { k with fetchAt := some (s.now + 8), fetchDelayed := true }), writes := [] }
  else
    let got := settledRead s n (channelRank n ch) [{ addr := a, len := 64, off := 0 }]
    { got.2 with st := acceptRecord got.2.st n ch (readNat got.1.mem a 64) }

/-- The granule that a channel is about to issue: its source and its destinations (R328). -/
def CopyRun.granule (r : CopyRun) (g : Nat) : Int × List Int :=
  let per := r.rbytes / 64
  let row : Int := (g / per : Nat)
  let j : Int := (64 * (g % per) : Nat)
  ((r.src : Int) + row * r.sstride + j, multicast r.mcast ((r.dst : Int) + row * r.dstride + j))

/-- The channel after a granule has issued: with the last one the record joins those that wait for their writes, and a
timed chain fetches the next record one ply on (R334). -/
def Chan.advance (k : Chan) (r : CopyRun) (now lag : Nat) : Chan :=
  let g := k.next.toNat + 1
  if g < r.n then { k with next := BitVec.ofNat 32 g, cur := some { r with issueAt := now + 1 + lag } }
  else
    { k with
      next := BitVec.ofNat 32 g, cur := none,
      tails := k.tails ++ [{ off := r.off, op := r.op, ctl := r.ctl, ctr := r.ctr, add := r.add, addAt := none,
                             last := r.nextOff = 0 }],
      fetchOff := r.nextOff,
      fetchAt := if r.nextOff = 0 || r.counted then none else some (now + 1) }

/-- One granule read issues (R334, R336). A counted write performs at any ply after its read, each copy at one of its own. A timed
record's operation is complete with the last of its writes (R273). Log 9, DESIGN CHOICE. Log 34, DEDUCED. -/
def issueGranule (s : State) (n ch : Nat) (r : CopyRun) : State :=
  let c := s.core n
  let k := c.chan ch
  let (sa, ds) := r.granule k.next.toNat
  let src := ownHome s n sa
  let lag := countedLag s r.counted
  let t := performLag (distance n src)
  let u := landLag (distance n src)
  let x : Access :=
    { ident := 2 * s.nextId + 1, op := r.op, core := n, rank := channelRank n ch, order := s.nextId,
      due := s.now + t + lag, landAt := s.now + t + lag, delayed := false, write := false,
      spans := [{ addr := src, len := 64, off := 0 }], data := 0, capTag := none,
      dest := .copy ch (k.next.toNat / (r.rbytes / 64)) (ds.mapIdx (fun i d =>
        let h := ownHome s n d
        (h, if r.counted then s.now + t + lag + 1 + Config.countedDelay (s.freeCtr + 2 + i)
            else s.now + u + performLag (distance n h)))) }
  let done := match x.dest with
    | .copy _ _ ts => ts.foldl (fun m t => max m t.2) x.due
    | _ => x.due
  let c1 := c.setChan ch (k.advance r s.now (countedLag { s with freeCtr := s.freeCtr + 1 } r.counted))
  let ops := if r.counted then c.ops
    else c.ops.map (fun o => if o.ident = r.op then { o with due := max o.due done, isOpen := k.next.toNat + 1 < r.n } else o)
  { s.setCore n { c1 with ops := ops } with
    accs := s.accs ++ [x], nextId := s.nextId + 1, freeCtr := s.freeCtr + 2 + ds.length }

/-- The write that clears OWN of a record: byte 0 without its bit 0 (R334, R336). The record is complete already, so its operation waits
for nothing of it (R273). -/
def clearOwn (s : State) (n ch : Nat) (t : CopyTail) (due : Nat) : Access :=
  { ident := 2 * s.nextId + 1, op := 0, core := n, rank := channelRank n ch, order := s.nextId, due := due, landAt := due,
    delayed := false, write := true, spans := [{ addr := coreBase n + t.off, len := 1, off := 0 }],
    data := BitVec.ofNat 2048 (t.ctl.toNat / 2 * 2), capTag := none, dest := .nowhere }

/-- A record is complete at this ply: its operation ends, its OWN bit is cleared at `clear`, and it leaves the list (R273). -/
def completeRecord (s : State) (n ch : Nat) (t : CopyTail) (clear : Nat) : State :=
  let c := s.core n
  let k := c.chan ch
  { s.setCore n { c.setChan ch { k with tails := dropFirst (fun x => x.op = t.op) k.tails } with
      ops := c.ops.map (fun o => if o.ident = t.op then { o with isOpen := false, due := s.now } else o) } with
    accs := s.accs ++ [clearOwn s n ch t clear], nextId := s.nextId + 1 }

/-- The add of a counted record, executed in the atomic cache (R299, R336); then the next record may be fetched. -/
def addCounted (s : State) (n ch : Nat) (t : CopyTail) : Result :=
  let (r, _) := runAtomic s (ownHome s n t.ctr.toNat) (if bit t.ctl.toNat 2 then .barrier else .add) t.add 0
  let s1 := completeRecord r.st n ch t s.now
  let k := (s1.core n).chan ch
  { r with st := { s1.setCore n ((s1.core n).setChan ch
      { k with fetchAt := if t.last || k.stopAt.isSome then k.fetchAt else some (s.now + 1 + countedLag s true) }) with
    freeCtr := s1.freeCtr + 1 } }

/-- Whether accesses of an operation are in flight. -/
def State.inFlight (s : State) (op : Nat) : Bool := s.accs.any (fun x => x.op = op)

/-- Records of a channel whose last write has performed: a timed one is complete, a counted one learns the ply of its add.
Log 34, DEDUCED. -/
def settleTails (s : State) (n ch : Nat) : List CopyTail → State
  | [] => s
  | t :: ts =>
    let s1 :=
      if s.inFlight t.op || t.addAt.isSome then s
      else if bit t.ctl.toNat 1 then
        let c := s.core n
        let k := c.chan ch
        let z := s.now + 1 + countedLag s true
        let c1 := c.setChan ch { k with tails := k.tails.map (fun x => if x.op = t.op then { x with addAt := some z } else x) }
        { s.setCore n { c1 with ops := c1.ops.map (fun o => if o.ident = t.op then { o with isOpen := false, due := z } else o) } with
          freeCtr := s.freeCtr + 1 }
      else completeRecord s n ch t (s.now + 1)
    settleTails s1 n ch ts

/-- A CHSTOP of this ply or an earlier one: no granule read issues from the next ply on, and no record is fetched (R337).
Log 85, DEDUCED. -/
def Chan.halted (k : Chan) (now : Nat) : Chan :=
  match k.stopAt with
  | none => k
  | some p =>
    if now < p then k
    else match k.fetchAt with
      | some _ =>
        { k with fetchAt := none, recOff := BitVec.ofNat 22 k.fetchOff, next := BitVec.ofNat 32 (k.head.getD 0) }
      | none => k

/-- The accesses of a channel. -/
def channelAccs (s : State) (n ch : Nat) : List Access := s.accs.filter (fun x => x.core = n && x.rank = channelRank n ch)

/-- Whether all that a channel has yet to do are clears of OWN that perform at this ply. -/
def clearsNow (s : State) (n ch : Nat) : Bool :=
  let k := (s.core n).chan ch
  k.tails.isEmpty && k.fetchAt.isNone && k.fault.isNone && k.cur.isNone && !(channelAccs s n ch).isEmpty &&
    (channelAccs s n ch).all (fun x => x.write && x.dueNow s && (x.spans.map Span.len) = [1])

/-- The end of a channel's work: idle or stopped, from the ply at which its last OWN bits are cleared on, or, at the end of a ply with
nothing more to do, idle, stopped or faulted from the next ply on (R331, R335, R337). The operations of its chain and of a record
that CHSTOP has stopped, or whose fetch failed, are complete then (log 116, DESIGN CHOICE). Log 25, DEDUCED. Log 85, DEDUCED. -/
def endChannel (s : State) (n ch : Nat) : State :=
  let c := s.core n
  let k := (c.chan ch).halted s.now
  let mine := channelAccs s n ch
  let closed (ops : List Op) : List Op :=
    ops.filter (fun o => o.ident != k.chain && !(match k.cur with | some r => o.ident = r.op | none => false))
  if !k.tails.isEmpty || k.fetchAt.isSome then s.setCore n (c.setChan ch k)
  else match k.fault, k.cur, k.stopAt with
    | some sub, _, _ =>
      if !mine.isEmpty then s.setCore n (c.setChan ch k)
      else
        raiseDeferred (s.setCore n { c.setChan ch { k with state := 3, sub := BitVec.ofNat 8 sub, fault := none, stopAt := none } with
            ops := closed c.ops }) n
          { src := 1, ch := ch, due := s.now + 1, num := 0x14, sub := sub,
            tval := BitVec.ofNat 64 (k.recOff.toNat + ch <<< 32) }
    | none, some _, none => s
    | none, some _, some _ =>
      if !mine.isEmpty then s.setCore n (c.setChan ch k)
      else s.setCore n { c.setChan ch { k with state := 2, cur := none } with ops := closed c.ops }
    | none, none, _ =>
      if !mine.isEmpty && !clearsNow s n ch then s.setCore n (c.setChan ch k)
      else
        let stopped := k.stopAt.isSome && c.ops.any (fun o => o.ident = k.chain)
        s.setCore n { c.setChan ch (if stopped then
            { k with state := 2, recOff := BitVec.ofNat 22 k.fetchOff, next := BitVec.ofNat 32 (k.head.getD 0) }
          else { k with state := 0 }) with ops := closed c.ops }

/-- What happens to the channels of a core at the end of a ply. Log 25, DEDUCED. -/
def settleChannels (s : State) (n : Nat) : State :=
  (rangeFrom 0 4).foldl (fun s ch =>
    if ((s.core n).chan ch).state = 1 then endChannel (settleTails s n ch ((s.core n).chan ch).tails) n ch else s) s

/-! ## Thresholds (R344, R345) -/

/-- The reads that armed slots make four plies after they were armed: a slot whose counter is at its threshold fires as if
an atomic of this ply had crossed it. Log 28, DEDUCED. -/
def readArms (s : State) (n : Nat) : State :=
  let c := s.core n
  let word (off : Nat) : Nat :=
    let a := coreBase n + off
    (s.lineData (a / 64) >>> (8 * (a % 64))) % 2 ^ 64
  let hit := c.arms.filter (fun a => a.since + 4 = s.now && (match a.ends with | none => true | some e => s.now ≤ e) &&
    a.thr.toNat ≤ word a.off)
  if hit.isEmpty then s
  else s.setCore n { c with arms := c.arms.filter (fun a => !hit.contains a), fired := c.fired ++ firedFrom (s.now + 1) hit }

/-- The logical pod address of a window-0 byte of a core on its own chip. Log 32, DEDUCED. -/
def ownAddress (s : State) (n off : Nat) : Nat :=
  let k := (s.pmap (chipOf n)).logicalCore (ownLogicalChip s n) (n % 1536)
  0xFFFE <<< 48 + (k / 64) <<< 43 + (k % 64) <<< 37 + off

/-- An event becomes due for the host (R485). -/
def State.post (s : State) (e : HostEvent) : State := { s with posted := s.posted ++ [e] }

/-- The action of a fired slot (R345): a spawn whose target is not idle waits a ply. Log 32, DEDUCED. -/
def takeAction (s : State) (n : Nat) (f : Fired) : State :=
  let c := s.core n
  let rest := dropFirst (fun x => x = f) c.fired
  let s1 := s.setCore n { c with fired := rest }
  let home := ownHome s n f.arm.target.toNat
  let d := distance n home
  match f.arm.kind with
  | 0 =>
    if !(s.core (addrCore home)).isFree s.now then
      s.setCore n { c with fired := rest ++ [{ f with ply := s.now + 1 }] }
    else launchCore s1 (addrCore home) (field f.arm.target.toNat 21 0) (s.now + performLag d + 2)
  | 1 =>
    { s1 with
      accs := s1.accs ++ [{ ident := 2 * s.nextId + 1, op := 2 * s.nextId + 1, core := n, rank := bundleRank n,
                            order := s.seq * 8, due := s.now + performLag d, landAt := s.now + performLag d,
                            delayed := false, write := true, spans := [{ addr := home, len := 8, off := 0 }],
                            data := f.arm.value.setWidth 2048, capTag := none, dest := .nowhere }],
      nextId := s.nextId + 1 }
  | _ => s1.post { chip := chipOf n, src := 0x1000 + n % 1536, code := f.arm.code.toNat,
                   data := BitVec.ofNat 320 (ownAddress s n f.arm.off) }

/-! ## The yield counter (R349) -/

/-- The add of 1 to the word that YCTR named at a yield, if it names one. Log 31, DEDUCED. -/
def addYield (s1 : State) (n : Nat) (ctr : Word) : State :=
  let c := s1.core n
  let w := field ctr.toNat 36 32
  if ctr.toNat % 8 != 0 || !(w = 0 || w = 7) || !rowResolves s1 n 8 false ctr.toNat then s1
  else
    let home := ownHome s1 n ctr.toNat
    let d := distance n home
    let k := 2 * s1.nextId + 1
    let o : Op := { ident := k, seq := s1.seq, kinds := 3, dist := d, isOpen := false, due := s1.now + performLag d - 4, acq := none }
    { s1.setCore n { c with ops := c.ops ++ [o] } with
      atoms := s1.atoms ++ [{ ident := k, op := k, core := n, rank := bundleRank n, order := s1.seq * 8,
                              due := s1.now + performLag d - 4, landAt := s1.now + performLag d - 4, addr := home, kind := .add,
                              x := 1, y := 0, dest := none }],
      nextId := s1.nextId + 1 }

/-- The adds of the yields that still await theirs, in the order of the yields (R349). -/
def addYields (s : State) (n : Nat) : State :=
  (s.core n).yieldAdds.foldl (fun s ctr => addYield s n ctr) (s.setCore n { s.core n with yieldAdds := [] })

/-! ## Meanings -/

/-- CHSTART (R333). Starts a copy channel on a record chain with a copied channel capability. -/
def execChstart (t : BitVec 3) (x : BitVec 6) (y : BitVec 4) (ch : BitVec 2) (s : State) : Host.Outcome State Fault Refusal :=
  execSlot s (channelStart s t x y ch)

/-- CHSTOP (R337). Stops a channel's granule reads; the channel becomes stopped after its last write. -/
def execChstop (t : BitVec 3) (ch : BitVec 2) (s : State) : Host.Outcome State Fault Refusal :=
  execSlot s { SlotOut.empty 6 t.toNat with effs := [.chStop ch.toNat] }

/-- CHWAIT (R338). Holds until a channel is not running. -/
def execChwait (t : BitVec 3) (ch : BitVec 2) (s : State) : Host.Outcome State Fault Refusal :=
  execSlot s { SlotOut.empty 6 t.toNat with hold := (s.curCore.chan ch.toNat).state = 1 }

/-- CWAIT (R343). Holds until a counter reaches a value, observing it as an acquire. -/
def execCwait (t : BitVec 3) (x : BitVec 6) (y : BitVec 4) (i : BitVec 25) (s : State) : Host.Outcome State Fault Refusal :=
  execSlot s (waitSlot s t x y .counter (((s.rc y).base : Int) + 8 * i.toNat) 8)

/-- BWAIT (R343). Holds until a barrier object's phase differs from a value. -/
def execBwait (t : BitVec 3) (x : BitVec 6) (y : BitVec 4) (i : BitVec 25) (s : State) : Host.Outcome State Fault Refusal :=
  execSlot s (waitSlot s t x y .barrier (((s.rc y).base : Int) + 16 * i.toNat) 16)

/-- CADD (R342). Atomically adds to a counter as a release at scope pod. -/
def execCadd (t : BitVec 3) (x : BitVec 6) (y : BitVec 4) (i : BitVec 25) (s : State) : Host.Outcome State Fault Refusal :=
  execSlot s (counterAdd s t x y (((s.rc y).base : Int) + 8 * i.toNat) 8 .add)

/-- BADD (R342). Makes a barrier add to a barrier object as a release. -/
def execBadd (t : BitVec 3) (x : BitVec 6) (y : BitVec 4) (i : BitVec 25) (s : State) : Host.Outcome State Fault Refusal :=
  execSlot s (counterAdd s t x y (((s.rc y).base : Int) + 16 * i.toNat) 16 .barrier)

/-- ARM (R344). Arms a threshold slot with a descriptor from a queue head. -/
def execArm (t : BitVec 3) (v : BitVec 9) (p : BitVec 1) (x : BitVec 4) (n : BitVec 3) (s : State) : Host.Outcome State Fault Refusal :=
  execSlot s (armSlot s t v p x n)

/-- DISARM (R346). Disarms a threshold slot. -/
def execDisarm (t : BitVec 3) (n : BitVec 3) (s : State) : Host.Outcome State Fault Refusal :=
  execSlot s { SlotOut.empty 6 t.toNat with effs := [.disarm n.toNat] }

/-- SPAWN (R347). Starts a program on another idle core of the chip by a resuming launch. -/
def execSpawn (t : BitVec 3) (x : BitVec 6) (y : BitVec 4) (i : BitVec 25) (s : State) : Host.Outcome State Fault Refusal :=
  execSlot s (spawnSlot s t x y i.toNat)

/-- NEXT (R350). Forms the next tile word and lands it in the ring eight plies later. -/
def execNext (t : BitVec 3) (s : State) : Host.Outcome State Fault Refusal :=
  let c := s.curCore
  let i := c.ntcur.toNat
  execSlot s { SlotOut.empty 6 t.toNat with
    lands :=
      if i < c.ntend.toNat && c.ntw != 0 then
        ringLands c (BitVec.ofNat 64 ((i / c.ntw.toNat % 2 ^ 20) <<< 20 ||| i % c.ntw.toNat)) ++
          [(0, .control 0x88 (c.ntcur + c.ntstep))]
      else ringLands c nullTile }

/-- NEXTT (R351). Reads the next schedule-table entry into the ring. Log 45, DEDUCED. -/
def execNextt (t : BitVec 3) (s : State) : Host.Outcome State Fault Refusal :=
  let c := s.curCore
  let off := c.schbase.toNat + 8 * c.schcur.toNat
  let tval := BitVec.ofNat 64 off
  let o := SlotOut.empty 6 t.toNat
  execSlot s (
    if c.schlen.toNat ≤ c.schcur.toNat then { o with lands := ringLands c nullTile }
    else
      { o with
        causes := causeIf (0x400000 ≤ off) 0x09 3 tval ++ causeIf (off % 8 != 0) 0x0C 0 tval,
        lands := [(0, .control 0x8C ((c.ntrp + 1).setWidth 64)), (0, .control 0x8F ((c.schcur + 1).setWidth 64))],
        effs := [.access { ident := slotIdent s 6 0, op := slotOp s 6, core := s.cur.core, rank := bundleRank s.cur.core,
                           order := s.seq * 8 + 6, due := s.now + 4, landAt := s.now + 8, delayed := false, write := false,
                           spans := [{ addr := coreBase s.cur.core + off, len := 8, off := 0 }], data := 0, capTag := none,
                           dest := .ring (60 + c.ntrp.toNat) }] })

/-- RECORD_FETCH (R331). A copy channel reads and validates a transfer record. -/
def execRecordFetch (core : Nat) (ch : Nat) (s : State) : Host.Outcome State Fault Refusal :=
  match ((s.core core).chan ch).fetchAt with
  | some f => if f ≤ s.now && ((s.core core).chan ch).state = 1 then finish s (fetchRecord s core ch) else .next s
  | none => .next s

/-- GRANULE_TRANSFER (R334). A channel issues one granule read and writes it to every destination. -/
def execGranuleTransfer (core : Nat) (ch : Nat) (s : State) : Host.Outcome State Fault Refusal :=
  let k := (s.core core).chan ch
  match k.cur with
  | some r =>
    if r.issueAt ≤ s.now && (match k.stopAt with | some p => s.now ≤ p | none => true) then
      finishSame s (issueGranule s core ch r)
    else .next s
  | none => .next s

/-- COUNTED_RECORD_ADD (R336). After every write of a counted record performs, the engine adds to its counter and clears OWN. -/
def execCountedRecordAdd (core : Nat) (ch : Nat) (s : State) : Host.Outcome State Fault Refusal :=
  match ((s.core core).chan ch).tails.find? (fun t => match t.addAt with | some p => p ≤ s.now | none => false) with
  | some t => finish s (addCounted s core ch t)
  | none => .next s

/-- THRESHOLD_ACTION (R345). A fired threshold slot takes its spawn, store or host-event action at its ply. -/
def execThresholdAction (core : Nat) (ch : Nat) (s : State) : Host.Outcome State Fault Refusal :=
  match (s.core core).fired.find? (fun f => f.arm.slot = ch && f.ply ≤ s.now) with
  | some f => finishSame s (takeAction s core f)
  | none => .next s

/-- YIELD_COUNTER_ADD (R349). After a yield, once the core's operations complete, the engine adds 1 to the word at YCTR. -/
def execYieldCounterAdd (core : Nat) (s : State) : Host.Outcome State Fault Refusal :=
  if (s.core core).addsDue s.now then finishSame s (addYields s core) else .next s

end Sys2Proof.Machine
end

