-- ==== Sys2Proof/Machine/Fetch.lean ====
section
/-! DEFINITION. The fetch of a bundle: idle bytes passed over, its bytes and its slots (R13, R17, R42 to R46, R122, R123). -/

namespace Sys2Proof.Machine

/-- Whether a byte of window 0 may be fetched. -/
def Core.inCode (c : Core) (a : Nat) : Bool := c.codeLo.toNat ≤ a && a < c.codeHi.toNat

/-- The core before its bundle issues: idle bytes passed over (R13), as memory stands at the ply of the fetch. Log 14, DEDUCED. -/
def atFetch (s : State) (n : Nat) : State :=
  s.setCore n { s.core n with pc := BitVec.ofNat 22 (skipIdle s n (s.core n).pc.toNat) }

/-- `len` bytes of the bundle at window-0 offset `a` from its byte `k` on; those past the end of its fetch line are zero (R54).
Log 16, DEDUCED. Log 39, DEDUCED. -/
def lineNat (m : List Host.Cell) (base a k len : Nat) : Nat := readNat m (base + a + k) (min len (64 - a % 64 - k))

/-- The bundle at the fetch address of a core, before its slots are decoded. Byte 0 outside the code range is not decoded (R46).
Log 16, DEDUCED. Log 39, DEDUCED. -/
def fetchCur (s : State) (n : Nat) : Cur :=
  let c := s.core n
  let a := c.pc.toNat
  let h := if c.inCode a then (readByte (s.code n) (coreBase n + a)).toNat else 0
  let w := if h = 0 then 0 else lineNat (s.code n) (coreBase n) a 1 4
  let len := bundleLength h (lineNat (s.code n) (coreBase n) a 5 38)
  { core := n, header := h, w := w, len := len, bytes := BitVec.ofNat 64 (lineNat (s.code n) (coreBase n) a 0 8),
    fetchFault := (rangeFrom a len).find? (fun y => !c.inCode y), left := 1, outs := [] }

/-- The bundle at the fetch address of a core, and its slots. -/
noncomputable def fetchBundle (s : State) (n : Nat) : Cur × List Instr :=
  let u := fetchCur s n
  let is := if u.header = 0 then [.idle] else decodeSlots u.header (lineNat (s.code n) (coreBase n) (s.core n).pc.toNat 5 38)
  ({ u with left := is.length }, is)

end Sys2Proof.Machine
end

