-- ==== Sys2Proof/Machine/Context.lean ====
section
/-! DEFINITION. Watchdogs, pre-emption, the saving and restoring of a core's context, and writes of control state
(R383 to R400). -/

namespace Sys2Proof.Machine

/-! ## Deferred events (R384, R385) -/

/-- WATCHDOG subcode 0, PREEMPT, and what else a core meets from outside: an event of a source that is due now.
Log 71, DEDUCED. -/
def raiseNow (s : State) (n src num sub : Nat) (tval : Word) : State :=
  raiseDeferred s n { src := src, ch := 0, due := s.now, num := num, sub := sub, tval := tval }

/-- WDCNT has reached WDLIM at this ply (R389). Log 21, DEDUCED. -/
def Core.watchdogDue (c : Core) : Bool := c.run = .running && c.wdlim != 0 && c.wdcnt = c.wdlim

/-- WATCHDOG subcode 0 becomes due and WDCNT restarts. -/
def fireWatchdog (s : State) (n : Nat) : State :=
  let c := s.core n
  raiseNow (s.setCore n { c with wdcnt := 0 }) n 3 0x16 0 (c.wdcnt.setWidth 64)

/-! ## Pre-emption (R391 to R395) -/

/-- Whether a pre-emption has been announced to a core. -/
def Core.announced (c : Core) : Bool := c.prply != BitVec.allOnes 64

/-- Whether a core is idle or halted at the announced ply and has not yet asked for its save. Log 93, DEDUCED. -/
def Core.asksAtP (c : Core) (now : Nat) : Bool :=
  c.announced && c.prply.toNat ≤ now && !c.preDone && c.run != .running && c.idleFrom ≤ now && !c.diverted

/-- The cores of a chip that its placement map gives to its job (R259). Log 55, DESIGN CHOICE. -/
def jobCores (s : State) (chip : Nat) : List Nat :=
  let m := s.pmap chip
  let l := m.logicalChip chip
  (rangeFrom 0 1536).filterMap (fun k => if m.state l k = 0 then some (1536 * chip + m.physCore l k) else none)

/-- At ply P the cores of the job that are idle or halted ask for their saves, after one that HCTL asked for. Log 93, DEDUCED. -/
def askSaves (s : State) (chip : Nat) : State :=
  (jobCores s chip).foldl (fun s n =>
    let c := s.core n
    let kind : BitVec 2 := if c.run = .halted then 2 else 0
    if c.announced && c.prply.toNat = s.now && c.asksAtP s.now then
      s.setCore n { c with preDone := true, saving := some (match c.saving with
        | some v => { v with again := some kind }
        | none => Save.ask true kind) }
    else s) s

/-- P + PRWAIT has come and the core has neither diverted nor yielded (R392), as the ply begins. Log 20, DEDUCED. Log 141, DESIGN CHOICE.
Log 142, DESIGN CHOICE. -/
def Core.tooLate (c : Core) (now : Nat) : Bool :=
  c.announced && c.prply.toNat + c.prwait.toNat ≤ now && !c.diverted && !c.preDone && !c.preLate

/-- PREEMPT subcode 0 becomes due. Log 92, DEDUCED. -/
def firePreempt (s : State) (n : Nat) : State :=
  let c := s.core n
  raiseNow (s.setCore n { c with preLate := true }) n 4 0x17 0 c.prply

/-! ## Save (R395 to R397) -/

/-- Rank of the accesses of a save or a restore: after the core's channels (R291, R396). -/
def saverRank (n : Nat) : Nat := 16 * n + 5

/-- Whether a core is drained (R395), with no restore in progress. -/
def drained (s : State) (n : Nat) : Bool :=
  let c := s.core n
  (c.run != .running || c.starting s.now) && c.restoring.isNone && c.idleFrom ≤ s.now && c.pend.isEmpty && c.busy.all (fun b => b.free ≤ s.now) && c.mmas.isEmpty &&
    c.chans.all (fun k => k.2.state != 1) &&
    s.accs.all (fun x => x.core != n || x.rank != bundleRank n) && s.atoms.all (fun x => x.core != n || x.rank != bundleRank n)

/-- The event that TPEND shows at a bit: of the channels, the lowest. -/
def pendingAt (c : Core) (now i : Nat) : Option Deferred :=
  minBy (fun d => d.ch) (c.dev.filter (fun d => d.due ≤ now && d.src = i))

/-- The header of a save (R396). -/
def saveHeader (s : State) (n : Nat) (v : Save) : Nat :=
  let c := s.core n
  let subs := (rangeFrom 0 8).map (fun i => match pendingAt c s.now i with | some d => d.sub | none => 0)
  let ones : Nat := 2 ^ 64 - 1
  (1 + (if c.csmode then 2 else 0) + (if v.pre then 4 else 0) + v.kind.toNat <<< 3) +
    ((if v.kind = 1 then c.drpc.toNat else c.pc.toNat) <<< 32) +
    ((if v.pre then c.prply.toNat else ones) <<< 64) +
    ((if v.kind = 1 then c.droff.toNat else 0) <<< 128) +
    (v.tsaved.toNat <<< 192) + (v.bsaved.toNat <<< 224) + ((tpendWord c s.now).toNat <<< 256) + ((joinPieces 8 subs) <<< 320)

/-- The channel block of a save: CHREC, CHSTAT, the offset of a stopped channel, and its capability (R396). -/
def saveChannel (c : Core) (v : Save) (ch : Nat) : Nat :=
  let k := c.chan ch
  let p : Word := if v.pre then c.prply else BitVec.allOnes 64
  let off : Word := match k.stopAt with
    | some at0 => if k.state = 2 then BitVec.ofNat 64 (at0 + 1) - p else 0
    | none => 0
  (chrecWord k).toNat + (chstatWord k).toNat <<< 64 + off.toNat <<< 128 + k.cap.bits.toNat <<< 256

/-- The 64 bytes that a save writes at an offset of its area. -/
def saveBytes (s : State) (n : Nat) (v : Save) (off : Nat) : Nat :=
  let c := s.core n
  if off < 0x40 then saveHeader s n v
  else if off < 0x80 then
    joinPieces 64 ((rangeFrom 0 8).map (fun i => match pendingAt c s.now i with | some d => d.tval.toNat | none => 0))
  else if off < 0x200 then
    joinPieces 8 ((rangeFrom (off - 0x80) 64).map (fun q => (c.queue q).head.toNat * 4 + (c.queue q).count.toNat))
  else if off < 0x300 then
    joinPieces 128 ((rangeFrom ((off - 0x200) / 16) 4).map (fun p =>
      (c.panOf p).seed.toNat + (c.panOf p).ph.toNat <<< 64 + (c.panOf p).scr.toNat <<< 80))
  else if off < 0x400 then saveChannel c v ((off - 0x300) / 64)
  else if off < 0x4000 then
    joinPieces 64 ((rangeFrom 0 8).map (fun i => (windowWord s n (off - 0x2000 + 8 * i)).toNat))
  else if off < 0x34000 then
    ((c.queue ((off - 0x4000) / 512)).slot ((off - 0x4000) / 256 % 2)).toNat >>> (8 * (off % 256)) % 2 ^ 512
  else if off < 0x54000 then (c.breg ((off - 0x34000) / 8192)).toNat >>> (8 * (off % 8192)) % 2 ^ 512
  else if off < 0x94000 then
    (c.tileOf ((off - 0x54000) / 0x4000)).toNat >>> (8 * ((off - 0x54000) % 0x4000)) % 2 ^ 512
  else accBytes c ((off - 0x94000) / 0x24000) ((off - 0x94000) % 0x24000) 64 % 2 ^ 512

/-- The tag of a 16-byte unit of the area, for the capability registers and the channel capabilities. -/
def saveTag (c : Core) (off : Nat) : Bool :=
  if 0x300 ≤ off && off < 0x400 && off % 64 = 32 then (c.chan ((off - 0x300) / 64)).cap.tag
  else if 0x3000 ≤ off && off < 0x3100 then (c.creg ((off - 0x3000) / 16)).tag
  else false

/-- A write of a save: `len` bytes at an offset of the area, due at this ply. -/
def saveWrite (s : State) (n off len v : Nat) (tag : Option Bool) : State :=
  { s with
    accs := s.accs ++ [{ ident := 2 * s.nextId + 1, op := 0, core := n, rank := saverRank n, order := s.nextId, due := s.now,
                         landAt := s.now, delayed := false, write := true,
                         spans := [{ addr := coreBase n + (s.core n).csbase.toNat + off, len := len, off := 0 }],
                         data := BitVec.ofNat 2048 v, capTag := tag, dest := .nowhere }],
    nextId := s.nextId + 1 }

/-- One granule of a save: its bytes, and again each unit that carries a tag. -/
def saveGranule (s : State) (n : Nat) (v : Save) (off : Nat) : State :=
  let b := saveBytes s n v off
  (rangeFrom 0 4).foldl (fun st i =>
    if saveTag (s.core n) (off + 16 * i) then saveWrite st n (off + 16 * i) 16 (field b (128 * i + 127) (128 * i)) (some true)
    else st) (saveWrite s n off 64 b none)

/-- The first run of granules without its first granule. -/
def nextRun : List (Nat × Nat) → Option (Nat × List (Nat × Nat))
  | [] => none
  | (o, k) :: rs => if k ≤ 1 then some (o, rs) else some (o, (o + 64, k - 1) :: rs)

/-- A save that begins: what it writes, and the order of its granules. -/
def beginSave (c : Core) (v : Save) : Save :=
  let full := !c.csmode || !c.ckv
  let t := if full then c.tinuse ||| c.tdirty else c.tdirty
  let b : BitVec 22 := if full then BitVec.allOnes 22 else c.csdirty
  { v with begun := true, tsaved := t, bsaved := b,
           todo := [(0, 16), (0x2000, 128)] ++ bankRuns b.toNat ++ brineRuns b.toNat ++ tileRuns t.toNat }

/-- One ply of a save. -/
def stepSave (s : State) (n : Nat) (v0 : Save) : State :=
  let c := s.core n
  let v := if v0.begun then v0 else beginSave c v0
  match nextRun v.todo with
  | some (off, rest) => saveGranule (s.setCore n { c with saving := some { v with todo := rest, next := s.now + 1 } }) n v off
  | none => s

/-- The end of a save, with the last granule written: thresholds disarmed, flags and CKV of the incremental mode, the core
idle. Log 22, DEDUCED. -/
def endSave (s : State) (n : Nat) : State :=
  let c := s.core n
  match c.saving with
  | some v =>
    if !v.begun || !v.todo.isEmpty || s.accs.any (fun x => x.core = n && x.rank = saverRank n) then s
    else
      let c1 := { c with saving := v.again.map (Save.ask true), run := .idle, arms := [] }
      s.setCore n (if c.csmode then { c1 with ckv := true, tdirty := 0, csdirty := 0 } else c1)
  | none => s

/-! ## Restore and resume (R398, R399) -/

/-- One ply of a restore: the next granule is read, the first at the ply at which RESTORE takes effect (R387). Log 23, DEDUCED. -/
def stepRestore (s : State) (n : Nat) (v : Restore) : State :=
  let c := s.core n
  match nextRun v.todo with
  | none => s
  | some (off, rest) =>
    let s1 := s.setCore n { c with restoring := some { v with todo := rest, next := s.now + 1 } }
    { s1 with
      accs := s1.accs ++ [{ ident := 2 * s.nextId + 1, op := 0, core := n, rank := saverRank n, order := s.nextId,
                            due := s.now, landAt := s.now, delayed := false, write := false,
                            spans := [{ addr := coreBase n + v.base.toNat + off, len := 64, off := 0 }],
                            data := 0, capTag := none, dest := .restore off }],
      nextId := s.nextId + 1 }

/-- The end of a restore: PC and the sequencer state from the header, and the start of a diverted core kept (R399). -/
def endRestore (s : State) (n : Nat) : State :=
  let c := s.core n
  match c.restoring with
  | some v =>
    if !v.todo.isEmpty || s.accs.any (fun x => x.core = n && x.rank = saverRank n) then s
    else
      let h := v.header.toNat
      let kind := field h 4 3
      let r : Resume := { rpc := BitVec.ofNat 32 (field h 63 32), o := BitVec.ofNat 64 (field h 191 128),
                          pend := BitVec.ofNat 64 (field h 319 256), psub := BitVec.ofNat 64 (field h 383 320),
                          tvals := v.tvals, chans := v.offs, doneAt := s.now, started := false }
      s.setCore n { c with restoring := none, pc := BitVec.ofNat 22 (field h 63 32), run := if kind = 2 then .halted else .idle,
                           diverted := false, resume := if kind = 1 then some r else none }
  | none => s

/-- The ply Q + O of the start. -/
def Core.resumePly (c : Core) (r : Resume) : Nat := (c.rsply + r.o).toNat

/-- The ply of the start: Q + O, or the ply after the restore where that was too late. -/
def Core.startPly (c : Core) (r : Resume) : Nat :=
  if c.resumePly r ≤ r.doneAt then r.doneAt + 1 else c.resumePly r

/-- The ply at which a channel with a saved offset restarts: a CHSTART at Q + offset - 6, or now where that has passed. -/
def Core.restartPly (c : Core) (off : Word) : Nat := (c.rsply + off - 6).toNat

/-- Whether something of a resume is due. -/
def Core.resumeDue (c : Core) (now : Nat) : Bool :=
  match c.resume with
  | some r =>
    c.restoring.isNone && c.rsply != BitVec.allOnes 64 && ((c.startPly r ≤ now && !r.started) || r.chans.any (fun k => c.restartPly k.2 ≤ now))
  | none => false

/-- A stopped channel runs on at its saved place (R399): its head record is fetched four plies later (R334). -/
def restartChannel (s : State) (n ch : Nat) : State :=
  let k := (s.core n).chan ch
  startChannel s n ch k.recOff.toNat k.next.toNat k.cap (s.now + 4)

/-- The saved events of a core become due (R399). -/
def raiseSaved (s : State) (n : Nat) (r : Resume) : State :=
  (rangeFrom 0 8).foldl (fun s i =>
    if r.pend.getLsbD i then
      let tval := BitVec.ofNat 64 (field r.tvals.toNat (64 * i + 63) (64 * i))
      let num := [0x06, 0x14, 0x15, 0x16, 0x17, 0x18, 0x19, 0x1A].getD i 0
      raiseDeferred s n { src := i, ch := if i = 1 then field tval.toNat 33 32 else 0, due := s.now, num := num,
                          sub := field r.psub.toNat (8 * i + 7) (8 * i), tval := tval }
    else s) s

/-- A core counts its ply for the watchdog at the start of a ply at which it runs (R389). Log 21, DEDUCED. -/
def countPly (s : State) (n : Nat) : State :=
  let c := s.core n
  if c.run = .running && c.wdlim != 0 then s.setCore n { c with wdcnt := c.wdcnt + 1 } else s

/-- What of a resume is due: the channels whose ply has come, then the core's own start, whose ply counts for the watchdog. When nothing of the resume is left,
RSPLY reads all ones again, "none" (R386). Log 13, DEDUCED. -/
def stepResume (s : State) (n : Nat) (r : Resume) : State :=
  let c := s.core n
  let due := r.chans.filter (fun k => c.restartPly k.2 ≤ s.now)
  let r1 : Resume := { r with chans := r.chans.filter (fun k => !(c.restartPly k.2 ≤ s.now)) }
  let s1 := due.foldl (fun s k => restartChannel s n k.1) (s.setCore n { c with resume := some r1 })
  if c.startPly r ≤ s.now && !r.started then
    let c1 := s1.core n
    let late := c.resumePly r ≤ r.doneAt
    let s2 := s1.setCore n { c1 with resume := if r1.chans.isEmpty then none else some { r1 with started := true },
                                     rsply := if r1.chans.isEmpty then BitVec.allOnes 64 else c1.rsply, run := .running,
                                     pc := BitVec.ofNat 22 r.rpc.toNat, nextIssue := s.now, held := 0, wait := none }
    let s3 := raiseSaved (countPly s2 n) n r
    if late then raiseNow s3 n 4 0x17 2 (c.rsply + r.o) else s3
  else if r1.started && r1.chans.isEmpty then s1.setCore n { s1.core n with resume := none, rsply := BitVec.allOnes 64 }
  else s1

/-- The address at which a core that stops would go on: that of the bundle it holds, else its next fetch address (R387). -/
def stopAddress (s : State) (n : Nat) : Nat :=
  let c := s.core n
  if 0 < c.held then c.pc.toNat else skipIdle s n c.pc.toNat

/-- STOP at the end of its ply (R387): a running core halts with TPC at its next fetch address, one that has yielded at this ply
too. Log 100, DESIGN CHOICE. -/
def endStop (s : State) (n : Nat) : State :=
  let c := s.core n
  if !c.stopping then s
  else if c.run = .running || s.now < c.idleFrom then
    let a := stopAddress s n
    s.setCore n { c with stopping := false, run := .halted, idleFrom := 0, pc := BitVec.ofNat 22 a, tpc := BitVec.ofNat 32 a, held := 0,
                         wait := none }
  else s.setCore n { c with stopping := false }

/-! ## Meanings -/

/-- DEFERRED_EVENT_TAKEN (R384). A pending deferred event is taken on the next bundle the core issues, which then commits nothing. Every slot
of the bundle is known, and a lower cause of its own is reported in place of the event (R10). -/
def execDeferredEventTaken (core : Nat) (s : State) : Host.Outcome State Fault Refusal :=
  if s.undecided core && !((s.core core).takeable s.now).isEmpty then finishSame s (reportUndecided s []) else .next s

/-- WATCHDOG (R389). WDCNT reaches WDLIM and WATCHDOG subcode 0 becomes due. -/
def execWatchdog (core : Nat) (s : State) : Host.Outcome State Fault Refusal :=
  if (s.core core).watchdogDue then finishSame s (fireWatchdog s core) else .next s

/-- WAIT_WATCHDOG (R390). A bundle held for WAITLIM plies raises WATCHDOG subcode 1, one of its causes (R10); with an event that it may
take it is not held (R384). -/
def execWaitWatchdog (core : Nat) (s : State) : Host.Outcome State Fault Refusal :=
  let c := s.core core
  if s.undecided core && c.waitOver && (c.takeable s.now).isEmpty then finishSame s (reportUndecided s [waitCause c]) else .next s

/-- PREEMPT_TIMEOUT (R392). A core that has neither diverted nor yielded by P + PRWAIT gets PREEMPT subcode 0 due. -/
def execPreemptTimeout (core : Nat) (s : State) : Host.Outcome State Fault Refusal :=
  if (s.core core).tooLate s.now then finishSame s (firePreempt s core) else .next s

/-- CONTEXT_SAVE (R396). A drained core writes its save area one granule per ply, disarms thresholds and is left idle. -/
def execContextSave (core : Nat) (s : State) : Host.Outcome State Fault Refusal :=
  match (s.core core).saving with
  | some v => if v.next ≤ s.now && (v.begun || drained s core) then finishSame s (stepSave s core v) else .next s
  | none => .next s

/-- RESUME_START (R399). A restored diverted core issues its first bundle at Q + O, restarts stopped channels and re-raises saved events. -/
def execResumeStart (core : Nat) (s : State) : Host.Outcome State Fault Refusal :=
  match (s.core core).resume with
  | some r => if (s.core core).resumeDue s.now then finishSame s (stepResume s core r) else .next s
  | none => .next s

/-- GO (R387). HCTL action that resumes a halted core at TPC or at the trap vector. -/
def execGo (core : Nat) (vec : Bool) (s : State) : Host.Outcome State Fault Refusal :=
  finishSame s (goCore s core vec)

/-- STOP (R387). HCTL action that halts a running core after the bundle of its ply. -/
def execStop (core : Nat) (s : State) : Host.Outcome State Fault Refusal :=
  finishSame s (stopCore s core)

/-- SAVE (R387). HCTL action that requests a context save of an idle or halted core. -/
def execSave (core : Nat) (s : State) : Host.Outcome State Fault Refusal :=
  finishSame s (saveCore s core)

/-- RESTORE (R398). HCTL action that reads the save area back into an idle core. -/
def execRestore (core : Nat) (s : State) : Host.Outcome State Fault Refusal :=
  match (s.core core).restoring with
  | some v => if v.next ≤ s.now then finishSame s (stepRestore s core v) else .next s
  | none => finishSame s (restoreCore s core)

/-- QSTAT_WRITE (R142). A write to QSTAT sets the selected queue's HEAD and COUNT unless landings are pending. -/
def execQstatWrite (core : Nat) (v : BitVec 64) (s : State) : Host.Outcome State Fault Refusal :=
  finishSame s (writeQstat s core v)

/-- CSBASE_WRITE (R386). A write to CSBASE is ignored if unaligned or too high, and clears CKV when it changes the base. -/
def execCsbaseWrite (core : Nat) (v : BitVec 64) (s : State) : Host.Outcome State Fault Refusal :=
  finishSame s (writeCsbase s core v)

end Sys2Proof.Machine
end

