-- ==== Sys2Proof/Machine/Tensor.lean ====
section
/-! DEFINITION. The tile set: records, descriptors, acceptance checks, the cut into leaves (R352 to R369). -/

namespace Sys2Proof.Machine

/-! ## Records (R354) -/

def recOpc (w : Nat) : Nat := field w 7 0
def recLvl (w : Nat) : Nat := field w 10 8
def recOpf (w : Nat) : Nat := field w 31 24
def recBar (w : Nat) : Bool := bit w 21
def recUnits (w : Nat) : Nat := field w 20 16
def recIndex (w k : Nat) : Nat := field w (39 + 8 * k) (32 + 8 * k)
def recDtab (w : Nat) : Nat := field w 127 64
def recCtr (w : Nat) : Nat := field w 191 128
def recArg (w : Nat) : Nat := field w 255 192

/-- The bits of the record of a run. -/
def GtsRun.word (r : GtsRun) : Nat := match r.raw with | some w => w.toNat | none => 0

/-- The operands that an operation takes: IX0 (d), IX1 (a), IX2 (b) (R358). -/
def opOperands (opc : Nat) : List Nat :=
  match opc with
  | 0x00 => []
  | 0x03 => [0]
  | 0x11 => [1]
  | 0x04 => [0, 1, 2]
  | 0x06 => [0, 1, 2]
  | 0x07 => [0, 1, 2]
  | 0x0A => [0, 1, 2]
  | 0x0F => [0, 1, 2]
  | _ => [0, 1]

/-- The levels that accept an operation (R358). -/
def opLevels (opc : Nat) : List Nat :=
  if opc ≤ 0x05 then [0, 1, 2, 3, 4]
  else if opc ≤ 0x0A then [1, 2, 3, 4]
  else if opc ≤ 0x0E then [4]
  else if opc ≤ 0x10 then [1, 2, 3, 4]
  else if opc = 0x11 then [2, 3, 4]
  else []

/-- The OPF bits that an operation uses, as a mask (R358). -/
def opfMask (opc : Nat) : Nat :=
  match opc with
  | 0x02 => 0x07
  | 0x04 => 0x0F
  | 0x05 => 0x0F
  | 0x08 => 0x01
  | 0x09 => 0x01
  | 0x0C => 0x01
  | 0x0D => 0x01
  | 0x0F => 0x07
  | _ => 0

/-- The largest UNITS of a level, which is also its number of units (R368). -/
def unitLimit (lvl : Nat) : Nat := if lvl = 4 then 24 else if lvl = 3 then 4 else if lvl = 2 then 16 else 0

/-! ## Descriptors (R355, R356) -/

/-- Bits of an element of a format code; 0 for a reserved code. -/
def formatBits (f : Nat) : Nat := [32, 16, 32, 16, 8, 8, 16, 32, 8, 6, 4, 64].getD f 0

def Tensor.bits (t : Tensor) : Nat := formatBits t.fmt
def Tensor.isMx (t : Tensor) : Bool := 8 ≤ t.fmt && t.fmt ≤ 10
def Tensor.isUni (t : Tensor) : Bool := bit t.scl 7
def Tensor.extent (t : Tensor) (d : Nat) : Nat := t.ext.getD d 0

/-- The stride in bytes that a stride field gives. -/
def strideOf (x : Nat) : Nat := (x % 2 ^ 26) <<< (x >>> 26)

/-- The descriptor of 256 bits, with the fields that must be 0 still in place. -/
def parseTensor (w : Nat) : Tensor :=
  { cap := field w 7 0, fmt := field w 15 8, rank := field w 23 16, scl := field w 31 24,
    ext := [field w 47 32, field w 63 48, field w 79 64, field w 95 80],
    s1 := field w 127 96, s2 := field w 159 128, s3 := field w 191 160, off := field w 255 192 }

/-- Whether a descriptor is well formed (subcode 0x23 of R357). -/
def Tensor.ok (t : Tensor) : Bool :=
  t.cap < 16 && t.fmt ≤ 11 && 1 ≤ t.rank && t.rank ≤ 4 &&
    (t.ext.take t.rank).all (fun e => e != 0) && (t.ext.drop t.rank).all (fun e => e = 0) &&
    (if t.isMx then
      t.rank = 2 && t.extent 0 % 32 = 0 && field t.scl 6 4 = 0 && !(t.isUni && t.s3 != 0)
    else t.scl = 0 && ([t.s1, t.s2, t.s3].drop (t.rank - 1)).all (fun x => x = 0))

/-- Rows: dimension 1, or 1 at rank 1. -/
def Tensor.rows (t : Tensor) : Nat := if t.rank = 1 then 1 else t.extent 1

/-- The planes (i2, i3), i3 slowest (R366). -/
def Tensor.planes (t : Tensor) : List (Nat × Nat) :=
  (rangeFrom 0 (max 1 (t.extent 3))).flatMap (fun i3 => (rangeFrom 0 (max 1 (t.extent 2))).map (fun i2 => (i2, i3)))

/-- The address of the byte that holds the first bit of an element (R356). -/
def Tensor.elem (t : Tensor) (i0 i1 : Nat) (pl : Nat × Nat) : Nat :=
  if t.isMx then t.off + i1 * strideOf t.s1 + t.bits * i0 / 8
  else t.off + i0 * (t.bits / 8) + i1 * strideOf t.s1 + pl.1 * strideOf t.s2 + pl.2 * strideOf t.s3

/-- The bytes of `w` elements of a row. -/
def Tensor.span (t : Tensor) (w : Nat) : Nat := (t.bits * w + 7) / 8

/-- The runs of bytes of some rows, columns c0 to c0 + w - 1, of a plane: their elements, and for an MX format the scale
table and the index nibbles of their blocks. -/
def Tensor.region (t : Tensor) (rows : List Nat) (c0 w : Nat) (pl : Nat × Nat) : List (Nat × Nat) :=
  rows.map (fun i => (t.elem c0 i pl, t.span w)) ++
  (if t.isMx then
    (t.off + t.s2, 32) ::
    (if t.isUni then []
     else rows.map (fun i =>
      let b0 := i * (t.extent 0 / 32) + c0 / 32
      let b1 := i * (t.extent 0 / 32) + (c0 + w - 1) / 32
      (t.off + t.s3 + b0 / 2, b1 / 2 + 1 - b0 / 2)))
   else [])

/-- The footprint of a whole tensor as runs of bytes. -/
def Tensor.footprint (t : Tensor) : List (Nat × Nat) :=
  t.planes.flatMap (fun pl => t.region (rangeFrom 0 t.rows) 0 (t.extent 0) pl)

/-- The number of bytes that some runs cover, each byte once. -/
def coveredBytes (runs : List (Nat × Nat)) : Nat :=
  ((sortBy (fun (a b : Nat × Nat) => a.1 ≤ b.1) runs).foldl (fun (acc : Nat × Nat) r =>
    let lo := max acc.2 r.1
    if r.1 + r.2 ≤ lo then acc else (acc.1 + (r.1 + r.2 - lo), r.1 + r.2)) (0, 0)).1

/-- Numbers in rising order without repeats. -/
def sortNat (l : List Nat) : List Nat := sortBy (fun a b => a ≤ b) (distinct l)

/-- The granules that some runs of bytes touch, in rising order. -/
def granulesOf (runs : List (Nat × Nat)) : List Nat := sortNat (runs.flatMap (fun r => unitsOf 6 r.1 r.2))

/-! ## Acceptance checks (R357) -/

/-- A failed check: cause, subcode, FADDR. -/
abbrev Failed := Nat × Nat × Nat

/-- The homes of a byte of an operand: one, or one for each member of a group (R264). -/
def operandHomes (s : State) (n a : Nat) : List Nat :=
  match resolve s n (lowBits a 64) 1 true with
  | .ok hs => hs
  | .error _ => []

/-- The home of a byte of an operand that is read. -/
def operandHome (s : State) (n a : Nat) : Nat := (operandHomes s n a).headD 0

/-- The checks of one operand's footprint: capability with the permissions of another chip or a group, request slots, alignment,
placement, windows, rows. Log 53, DEDUCED. -/
def operandChecks (s : State) (n : Nat) (cap : Cap) (t : Tensor) (perms : List Nat) : List Failed :=
  let runs := t.footprint
  let lo := ((minBy (fun r => r.1) runs).map Prod.fst).getD 0
  let hi := runs.foldl (fun m r => max m (r.1 + r.2)) 0
  let reads := perms.contains 0
  let q : Request := { plainRequest cap lo (hi - lo) perms with shape := true, natural := true }
  let capBad : List Failed :=
    if !cap.tag then [(0x08, 0, lo)]
    else if lo < cap.base || cap.base + cap.length < hi then [(0x09, 0, lo)]
    else if !spaceCovers cap.space (field lo 36 32) then [(0x09, 4, lo)]
    else match (neededPerms s n (lowBits lo 64) q).find? (fun b => !bit cap.perm b) with
      | some b => [(0x0A, b, lo)]
      | none =>
        if !slotsListed s n (lowBits lo 64) reads then [(0x0A, 8, lo)]
        else if cap.otype != 0 then [(0x0B, 0, lo)] else []
  let step := if t.isMx then 2 * t.bits else t.bits / 8
  let unaligned :=
    if t.isMx then t.off % (16 * t.bits) != 0 || strideOf t.s1 % (16 * t.bits) != 0 || t.s2 % 32 != 0
    else t.off % step != 0 || strideOf t.s1 % step != 0 || strideOf t.s2 % step != 0 || strideOf t.s3 % step != 0
  let placed (r : Nat × Nat) : List Failed :=
    match resolve s n (lowBits r.1 64) r.2 (!reads) with
    | .error sub => [(0x0D, sub, r.1)]
    | .ok hs => if hs.all (fun h => addrWin h = 0) then [] else [(0x0D, 3, r.1)]
  let crosses := runs.filter (fun r => r.1 >>> 32 != (r.1 + r.2 - 1) >>> 32)
  capBad ++ (if unaligned then [(0x0C, 0, t.off)] else []) ++ runs.flatMap placed ++
    crosses.map (fun r => (0x0E, 0, r.1))

/-- Whether two tensors have one shape. -/
def sameShape (a b : Tensor) : Bool := a.rank = b.rank && a.ext = b.ext

/-- The group that a collective names (R363), by its members. -/
def groupMembers (s : State) (chip w : Nat) : Option (List Nat) :=
  match (s.pmap chip).groups.find? (fun g => g.1 = recArg w % 4096) with
  | some g => some g.2
  | none => none

/-- Subcode 0x24: the shapes disagree with the operation's entry (R358 to R365). A GGATHER of rank 3 or 4 needs equal outer extents
(log 123, DESIGN CHOICE). -/
def shapesBad (s : State) (chip w : Nat) (d a b : Option Tensor) : Bool :=
  let opc := recOpc w
  match d, a, b with
  | some _, none, none => opc != 0x03
  | none, some a, none => opc = 0x11 && (a.rank != 1 || a.extent 0 != 1)
  | some d, some a, none =>
    if opc = 0x01 || opc = 0x02 || opc = 0x05 || opc = 0x08 then !sameShape d a
    else if opc = 0x09 then !(d.rank = a.rank && d.ext = 1 :: a.ext.drop 1)
    else if opc = 0x10 then !(d.rank = a.rank && a.extent 0 = 16 * d.extent 0 && d.ext.drop 1 = a.ext.drop 1)
    else
      match groupMembers s chip w with
      | none => (opc = 0x0D || opc = 0x0E) && !sameShape d a
      | some g =>
        if opc = 0x0B then d.extent 1 != g.length * a.extent 1
        else if opc = 0x0C then a.extent 1 != g.length * d.extent 1
        else !sameShape d a || (opc = 0x0E && a.extent 1 % g.length != 0)
  | some d, some a, some b =>
    if opc = 0x04 || opc = 0x0F then !sameShape d a || !sameShape d b
    else if opc = 0x06 || opc = 0x07 then
      d.rank != 2 || a.extent 0 != b.extent 0 || d.extent 1 != a.extent 1 || d.extent 0 != b.extent 1
    else b.rank != 1 || b.extent 0 != d.rows || a.extent 0 != d.extent 0 || d.ext.drop 2 != a.ext.drop 2
  | _, _, _ => false

/-- Subcode 0x25: a format or an OPF value that the operation does not allow (R358 to R365). The formats of a collective are
judged at its dispatch (R452). -/
def formatsBad (w : Nat) (d a b : Option Tensor) : Bool :=
  let opc := recOpc w
  let opf := recOpf w
  let fmts := [d, a, b].filterMap (fun x => x.map Tensor.fmt)
  let used := opfMask opc
  (255 - used) &&& opf != 0 || fmts.any (fun f => (f = 11) != (opc = 0x11)) ||
  (match opc with
   | 0x01 => (d.map Tensor.fmt) != (a.map Tensor.fmt)
   | 0x02 => 3 < opf % 8 || (match d with | some t => t.isMx && !t.isUni | none => false)
   | 0x03 => (match d with | some t => t.isMx | none => false)
   | 0x06 => !(fmts.head? = some 0 && (fmts.drop 1).all (fun f => 8 ≤ f && f ≤ 10))
   | 0x07 => !(fmts.head? = some 0 && (fmts.drop 1).all (fun f => 8 ≤ f && f ≤ 10))
   | 0x0A => !((d.map Tensor.fmt) = (a.map Tensor.fmt) && (b.map Tensor.fmt) = some 2)
   | 0x0F => 5 ≤ opf % 8 || fmts.any (fun f => f != 6)
   | 0x10 => !((d.map Tensor.fmt) = some 2 && (a.map Tensor.fmt) = some 7)
   | 0x11 => false
   | 0x00 => false
   | _ =>
     let f := fmts.headD 0
     (if isCollective opc then false
      else if opc = 0x08 || opc = 0x09 then (distinct fmts).length != 1 || (f != 0 && f != 2) || (f = 2 && bit opf 0)
      else
        (distinct fmts).length != 1 || 2 < f || (if f = 2 then 4 else 5) < opf % 8 || (bit opf 3 && (f != 2 || 1 < opf % 8))))

/-! ## The cut (R366 to R369) -/

/-- Pieces of an extent: full edges first, the remainder last. -/
def cutExtent (extent edge : Nat) : List (Nat × Nat) :=
  (rangeFrom 0 (extent / edge)).map (fun (i : Nat) => (i * edge, edge)) ++
    (if extent % edge = 0 then [] else [(extent / edge * edge, extent % edge)])

/-- The native tile edges (R367). -/
def nativeEdges (opc : Nat) (d a b : Option Tensor) : Nat × Nat :=
  let edge (t : Option Tensor) : Nat := match t with | some x => mxEdge (x.fmt - 8) | none => 64
  let mxOut := match d with | some x => x.isMx | none => false
  if opc = 0x06 || opc = 0x07 then (edge a, edge b)
  else if (opc = 0x01 || opc = 0x02) && mxOut then (64, 128)
  else if opc = 0x10 then (64, 4)
  else (64, 64)

/-- A part of the output: planes, first row and rows, first column and columns. -/
structure Part where
  planes : List (Nat × Nat)
  row0 : Nat
  rows : Nat
  col0 : Nat
  cols : Nat

/-- The children of a part under a cut with `m` native edges (R366), in emission order. -/
def Part.children (p : Part) (m : Nat) (edges : Nat × Nat) : List Part :=
  p.planes.flatMap (fun pl =>
    (cutExtent p.rows (m * edges.1)).flatMap (fun r =>
      (cutExtent p.cols (m * edges.2)).map (fun c =>
        { planes := [pl], row0 := p.row0 + r.1, rows := r.2, col0 := p.col0 + c.1, cols := c.2 })))

/-- A leaf from its part, its logical core and the reporter's child that holds it. -/
def Part.leaf (p : Part) (s : State) (chip core child : Nat) : Leaf :=
  let m := s.pmap chip
  { row0 := p.row0, rows := p.rows, col0 := p.col0, cols := p.cols, planes := p.planes,
    core := 1536 * chip + m.physCore (m.logicalChip chip) core, child := child, prev := none, phase := .planned,
    dispatched := 0, computeAt := 0, computed := 0, ends := 0, index := [], carry := [] }

/-- The logical cores of the leaves of a part at a level (4, 3 or 2), with their parts and the child of the part that holds
each, in depth-first order (R366, R368, R371). `u` is the number of units, `base` the first logical core of the unit. -/
def leafParts (lvl u base : Nat) (edges : Nat × Nat) (p : Part) : List (Nat × Part × Nat) :=
  let two (u base : Nat) (p : Part) : List (Nat × Part × Nat) :=
    (p.children 1 edges).mapIdx (fun j q => (base + j % u, q, j))
  let three (u base : Nat) (p : Part) : List (Nat × Part × Nat) :=
    ((p.children 4 edges).mapIdx (fun j q => (two 16 (base + 16 * (j % u)) q).map (fun x => (x.1, x.2.1, j)))).flatten
  match lvl with
  | 2 => two u base p
  | 3 => three u base p
  | _ => ((p.children 8 edges).mapIdx (fun j q => (three 4 (64 * (j % u)) q).map (fun x => (x.1, x.2.1, j)))).flatten

/-- The leaf whose carry a GSCAN or GRED leaf takes (R373). -/
def linkCarry (leaves : List Leaf) (l : Leaf) : Leaf :=
  let before (x : Leaf) : Bool := x.row0 = l.row0 && x.planes = l.planes && x.col0 + x.cols = l.col0
  if l.col0 = 0 then l else { l with prev := leaves.findIdx? before }

/-- The leaves of a record, and the number of the reporter's children (R366, R377). -/
def planLeaves (s : State) (r : GtsRun) (ts : List (Option Tensor)) : List Leaf × Nat :=
  let w := r.word
  let opc := recOpc w
  let t (k : Nat) : Option Tensor := (ts.getD k none)
  let shape := if opc = 0x08 || opc = 0x09 then t 1 else t 0
  match shape with
  | none => ([], 0)
  | some o =>
    if isCollective opc then ([], 0)
    else
      let chip := chipOf r.unit
      let whole : Part := { planes := o.planes, row0 := 0, rows := o.rows, col0 := 0, cols := o.extent 0 }
      let base := (s.pmap chip).logicalCore ((s.pmap chip).logicalChip chip) (r.unit % 1536)
      let u := if recUnits w = 0 then unitLimit r.lvl else recUnits w
      let parts := if r.lvl ≤ 1 then [(base, whole, 0)] else leafParts r.lvl u base (nativeEdges opc (t 0) (t 1) (t 2)) whole
      let ls := parts.map (fun x => x.2.1.leaf s chip x.1 x.2.2)
      let linked := if opc = 0x08 || opc = 0x09 then ls.map (linkCarry ls) else ls
      (linked, (distinct (ls.map Leaf.child)).length)

/-! ## Inputs of a leaf (R372, R375) -/

/-- The input regions of a leaf of operand k (1 to 3) as runs of bytes. -/
def leafRegion (opc k : Nat) (t : Tensor) (l : Leaf) : List (Nat × Nat) :=
  let rows := rangeFrom l.row0 l.rows
  if opc = 0x06 || opc = 0x07 then
    t.region (if k = 1 then rows else rangeFrom l.col0 l.cols) 0 (t.extent 0) (0, 0)
  else if opc = 0x0A then
    (if k = 1 then l.planes.flatMap (fun pl => t.region l.index l.col0 l.cols pl) else t.region [0] l.row0 l.rows (0, 0))
  else if opc = 0x10 then l.planes.flatMap (fun pl => t.region rows (16 * l.col0) (16 * l.cols) pl)
  else l.planes.flatMap (fun pl => t.region rows l.col0 l.cols pl)

/-- The output region of a leaf as runs of bytes: the elements it writes with their scale table and index nibbles (R356, R372). -/
def outputRegion (opc : Nat) (ts : List (Option Tensor)) (l : Leaf) : List (Nat × Nat) :=
  match ts.getD 0 none with
  | some d =>
    let rows := rangeFrom l.row0 l.rows
    if opc != 0x09 then l.planes.flatMap (fun pl => d.region rows l.col0 l.cols pl)
    else match ts.getD 1 none with
      | some a => if l.col0 + l.cols = a.extent 0 then l.planes.flatMap (fun pl => d.region rows 0 1 pl) else []
      | none => []
  | none => []

/-- The input granules of a leaf in staging order: operand and granule (R375). -/
def leafInputs (w : Nat) (ts : List (Option Tensor)) (l : Leaf) : List (Nat × Nat) :=
  [1, 2, 3].flatMap (fun k => match ts.getD k none with
    | some t => (granulesOf (leafRegion (recOpc w) k t l)).map (fun g => (k, g))
    | none => [])

/-- The input granules that acceptance counts: operand a of a gather by its widest row, once for each output row (R357). -/
def countedInputs (w : Nat) (ts : List (Option Tensor)) (l : Leaf) : Nat :=
  if recOpc w != 0x0A then (leafInputs w ts l).length
  else match ts.getD 1 none, ts.getD 2 none with
    | some a, some b =>
      let widest := l.planes.foldl (fun m pl => (rangeFrom 0 a.rows).foldl
        (fun m i => max m (granulesOf (a.region [i] l.col0 l.cols pl)).length) m) 0
      l.rows * l.planes.length * widest + (granulesOf (b.region [0] l.row0 l.rows (0, 0))).length
    | _, _ => 0

/-! ## The checks together -/

/-- Whether d is read as well as written (R358, R359): its elements, or the scale table of an MX output of GCONV. -/
def readsOutput (w : Nat) (d : Tensor) : Bool :=
  recOpc w = 0x06 || ((recOpc w = 0x04 || recOpc w = 0x05) && recOpf w % 8 = 5) || (recOpc w = 0x02 && d.isMx)

/-- Whether DTAB is unaligned or not on this chip (subcode 0x22). -/
def tableBad (s : State) (n w : Nat) : Bool :=
  recDtab w % 32 != 0 || (match chipName s n (recDtab w) with | .own _ => false | _ => true)

/-- The request that reads an operand's descriptor. -/
def descriptorRequest (r : GtsRun) (k : Nat) : Request :=
  { plainRequest r.cap (recDtab r.word + 32 * recIndex r.word k) 32 [0] with stays := true }

/-- The bytes of the descriptors that acceptance reads, at their homes. -/
def descriptorSpans (s : State) (r : GtsRun) : List Span :=
  if 0x11 < recOpc r.word || tableBad s r.who r.word then []
  else (rangeFrom 0 4).filterMap (fun k =>
    if (opOperands (recOpc r.word)).contains k && recIndex r.word k != 0xFF && (checkAccess s r.who (descriptorRequest r k)).isNone then
      some { addr := (homesOf s r.who (descriptorRequest r k)).headD 0, len := 32, off := 0 }
    else none)

/-- Each operand's descriptor, read at the home of its bytes at acceptance, and what fails in reading it: nothing is read through a
DTAB that subcode 0x22 refuses, whose place and alignment count for nothing else. An operand that the operation needs but the record
does not name is subcode 0x23 (log 121, DESIGN CHOICE). -/
def readTensor (s : State) (r : GtsRun) (k : Nat) : Option Tensor × List Failed :=
  let w := r.word
  let ix := recIndex w k
  let a := recDtab w + 32 * ix
  if (opOperands (recOpc w)).contains k != (ix != 0xFF) then (none, [(0x14, 0x23, a)])
  else if ix = 0xFF then (none, [])
  else
    let q := descriptorRequest r k
    match checkAccess s r.who q with
    | some c => (none, if tableBad s r.who w && 0x0C ≤ c.num then [(0x14, 0x22, r.addr)] else [(c.num, c.sub, c.tval.toNat)])
    | none =>
      let home := (homesOf s r.who q).headD 0
      let t := parseTensor (readHome s s.mem home 32)
      if tableBad s r.who w then (none, [(0x14, 0x22, r.addr)])
      else if t.ok then (some t, []) else (none, [(0x14, 0x23, a)])

/-- Every check of R357 on a record with its bytes read: the descriptors, the leaves with the number of children, and the
checks that fail. Log 53, DEDUCED. -/
def acceptChecks (s : State) (r : GtsRun) : List (Option Tensor) × (List Leaf × Nat) × List Failed :=
  let w := r.word
  let opc := recOpc w
  let known := opc ≤ 0x11
  let size := if recBar w then 16 else 8
  let ctr := recCtr w
  let fieldsBad := field w 15 11 != 0 || field w 23 22 != 0 || unitLimit r.lvl < recUnits w || tableBad s r.who w ||
    (isCollective opc && recArg w >>> 12 != 0)
  let base : List Failed :=
    (if known then [] else [(0x14, 0x20, r.addr)]) ++
    (if known && (!(opLevels opc).contains (recLvl w) || recLvl w != r.lvl) then [(0x14, 0x21, r.addr)] else []) ++
    (if fieldsBad then [(0x14, 0x22, r.addr)] else []) ++
    (if ctr != 0 && (ctr % size != 0 || !(field ctr 36 32 = 0 || field ctr 36 32 = 7) ||
        !rowCovered r.cap size 3 ctr || !rowResolves s r.who size false ctr) then [(0x14, 0x08, ctr)] else [])
  if !known then ([], ([], 0), base)
  else
    let got := (rangeFrom 0 4).map (readTensor s r)
    let ts := got.map Prod.fst
    let operand (k : Nat) : List Failed := match ts.getD k none with
      | some t => operandChecks s r.who (r.caps.getD t.cap Cap.null) t
          (if k != 0 then [0] else if readsOutput w t then [0, 1] else [1])
      | none => []
    let read := base ++ got.flatMap Prod.snd ++ [0, 1, 2].flatMap operand
    if got.any (fun g => !g.2.isEmpty) then (ts, ([], 0), read)
    else
      let t (k : Nat) := ts.getD k none
      let badShape := shapesBad s (chipOf r.unit) w (t 0) (t 1) (t 2)
      let badFormat := formatsBad w (t 0) (t 1) (t 2)
      let shape : List Failed :=
        (if badShape then [(0x14, 0x24, r.addr)] else []) ++ (if badFormat then [(0x14, 0x25, r.addr)] else [])
      if !shape.isEmpty then (ts, ([], 0), read ++ shape)
      else
        let plan := planLeaves s r ts
        let large := (match t 0 with
          | some d => (r.lvl = 1 && (256 < d.extent 0 || 256 < d.rows)) || (r.lvl = 0 && 16 < d.extent 0)
          | none => false) || plan.1.any (fun l => 8192 < countedInputs w ts l)
        (ts, plan, read ++ (if large then [(0x14, 0x26, r.addr)] else []))


end Sys2Proof.Machine
end

