-- ==== Sys2Proof/Machine/Gts.lean ====
section
/-! DEFINITION. The tile set: the arithmetic of a leaf, the phases of records and leaves, reports, GSUB and GWAIT
(R358 to R380). -/

namespace Sys2Proof.Machine

/-! ## Elements (R161, R168, R356) -/

/-- What a leaf reads: operand, address, number of bytes. -/
abbrev Reader := Nat → Nat → Nat → Nat

/-- The raw encodings of `w` elements of a row from column c0. -/
def rowOf (rd : Reader) (k : Nat) (t : Tensor) (i c0 w : Nat) (pl : Nat × Nat) : List Nat :=
  splitPieces t.bits w (rd k (t.elem c0 i pl) (t.span w))

/-- The BF16 scale of a block of a row of an MX tensor (R356). -/
def scaleOf (rd : Reader) (k : Nat) (t : Tensor) (i block : Nat) : Nat :=
  let nib := i * (t.extent 0 / 32) + block
  let e := if t.isUni then field t.scl 3 0
    else field (rd k (t.off + t.s3 + nib / 2) 1) (4 * (nib % 2) + 3) (4 * (nib % 2))
  rd k (t.off + t.s2 + 2 * e) 2

/-- Whether a format holds signed integers. -/
def formatSigned (f : Nat) : Bool := f = 2 || f = 3 || f = 4

/-- The exact value of an element (R151, R165). -/
def valueOf (f x scale : Nat) : Num :=
  match f with
  | 0 => decodeF32 x
  | 1 => decodeBf16 x
  | _ =>
    if 8 ≤ f && f ≤ 10 then mxExact (sext x (formatBits f)) scale
    else if formatSigned f then Num.ofInt (sext x (formatBits f))
    else Num.ofInt x

/-- Whether a format holds integers. -/
def formatInt (f : Nat) : Bool := 2 ≤ f && f ≤ 7

/-- A value rounded into a format (R168). An integer beyond the bounds of an integer format of its own width or less is taken to
them (R150, R358). Log 109, DEDUCED. -/
def encodeValue (f mode scale : Nat) (v : Num) : Nat :=
  let n := formatBits f
  match f with
  | 0 => v.round 23 mode 0
  | 1 => v.round 7 mode 0
  | _ =>
    if 8 ≤ f && f ≤ 10 then lowBits (mxCode v scale mode 0 (mxBound (f - 8))) n
    else if formatSigned f then
      lowBits (v.toInteger mode 0 (-((2 ^ (n - 1) : Nat) : Int)) ((2 ^ (n - 1) : Nat) - 1)) n
    else lowBits (v.toInteger mode 0 0 ((2 ^ n : Nat) - 1)) n

/-- A piece of output: address, bytes, value; for an index nibble which half of its byte it is. -/
structure Piece where
  addr : Nat
  len : Nat
  value : Nat
  nibble : Option Bool

/-- The piece that writes `w` elements of a row of d from column c0. -/
def putRow (d : Tensor) (i c0 : Nat) (xs : List Nat) (pl : Nat × Nat) : Piece :=
  { addr := d.elem c0 i pl, len := d.span xs.length, value := joinPieces d.bits xs, nibble := none }

/-- The leaf at hand: record bits, tensors, reader, leaf, its rank, and the carries that it takes. -/
structure LeafJob where
  word : Nat
  d : Tensor
  a : Tensor
  b : Tensor
  hasB : Bool
  rd : Reader
  leaf : Leaf
  rank : Nat
  carry : List Nat
  /-- the lane group of a level-0 record -/
  group : Option Nat

/-- The rows and planes of a leaf, each with its place in the leaf. -/
def LeafJob.rowList (j : LeafJob) : List (Nat × Nat × (Nat × Nat)) :=
  (j.leaf.planes.flatMap (fun pl => (rangeFrom j.leaf.row0 j.leaf.rows).map (fun i => (i, pl)))).mapIdx
    (fun n x => (n, x.1, x.2))

/-- The result of a leaf: its pieces, the last results of its rows, the lengths of phases of p14 and p15. -/
structure LeafResult where
  pieces : List Piece
  carry : List Nat

/-- An entry of 64 lanes with some values in the lanes of group g, the other 48 lanes as in `first` (R128). -/
def groupEntry (g : Nat) (first xs : List Nat) : List Nat :=
  (rangeFrom 0 64).map (fun i => if i / 16 = g then xs.getD (i % 16) 0 else first.getD i 0)

/-- The entry that a row of operand a makes at level 0: its elements in the lanes of the record's group (R369). Log 52, DEDUCED. -/
def LeafJob.firstEntry (j : LeafJob) (g i : Nat) (pl : Nat × Nat) : List Nat :=
  if (opOperands (recOpc j.word)).contains 1 then groupEntry g [] (rowOf j.rd 1 j.a i j.leaf.col0 j.leaf.cols pl) else []

/-- What a row of a leaf writes of its results: at level 0 the lanes of the record's group, of an entry whose other lanes keep what
the first source holds there (R128, R369). Log 52, DEDUCED. -/
def LeafJob.rowOut (j : LeafJob) (i : Nat) (pl : Nat × Nat) (xs : List Nat) : List Nat :=
  match j.group with
  | none => xs
  | some g => ((groupEntry g (j.firstEntry g i pl) xs).drop (16 * g)).take xs.length

/-- A leaf whose rows are computed one by one. -/
def LeafJob.eachRow (j : LeafJob) (f : Nat → (Nat × Nat) → List Nat) : LeafResult :=
  { pieces := j.rowList.map (fun x => putRow j.d x.2.1 j.leaf.col0 (j.rowOut x.2.1 x.2.2 (f x.2.1 x.2.2)) x.2.2), carry := [] }

/-- Row i of the leaf's columns of operand a, and of b. -/
def LeafJob.rowA (j : LeafJob) (i : Nat) (pl : Nat × Nat) : List Nat := rowOf j.rd 1 j.a i j.leaf.col0 j.leaf.cols pl
def LeafJob.rowB (j : LeafJob) (i : Nat) (pl : Nat × Nat) : List Nat := rowOf j.rd 2 j.b i j.leaf.col0 j.leaf.cols pl
def LeafJob.rowD (j : LeafJob) (i : Nat) (pl : Nat × Nat) : List Nat := rowOf j.rd 0 j.d i j.leaf.col0 j.leaf.cols pl

/-- The index nibbles of a row's blocks (R356, R358), as pieces of d copied from a. -/
def LeafJob.nibbles (j : LeafJob) (i : Nat) : List Piece :=
  (rangeFrom (j.leaf.col0 / 32) ((j.leaf.cols + 31) / 32)).map (fun blk =>
    let na := i * (j.a.extent 0 / 32) + blk
    let nd := i * (j.d.extent 0 / 32) + blk
    { addr := j.d.off + j.d.s3 + nd / 2, len := 1,
      value := field (j.rd 1 (j.a.off + j.a.s3 + na / 2) 1) (4 * (na % 2) + 3) (4 * (na % 2)), nibble := some (nd % 2 = 1) })

/-- GCOPY: elements, and the nibbles where both tensors have their own (R358). -/
def leafCopy (j : LeafJob) : LeafResult :=
  let r := j.eachRow j.rowA
  if j.d.isMx && !j.d.isUni && !j.a.isUni then
    { r with pieces := r.pieces ++ j.rowList.flatMap (fun x => j.nibbles x.2.1) }
  else r

/-- An element of GCONV: an integer in a wider integer format is exact (R150), any other value is rounded or taken to the bounds
once. Between formats for which R168 has no row, the exact value is converted the same way. Log 109, DEDUCED. -/
def convertElement (fd fa mode scaleD x scaleA : Nat) : Nat :=
  if formatInt fa && formatInt fd && formatBits fa < formatBits fd then
    lowBits (if formatSigned fa then sext x (formatBits fa) else x) (formatBits fd)
  else encodeValue fd mode scaleD (valueOf fa x scaleA)

/-- GCONV (R358). The rounding to FP32 from an MX format is rne (R168). Log 109, DEDUCED. -/
def leafConvert (j : LeafJob) : LeafResult :=
  let mode := if j.a.isMx && j.d.fmt = 0 then 0 else recOpf j.word % 8
  let sd := if j.d.isMx then scaleOf j.rd 0 j.d 0 0 else 0
  j.eachRow (fun i pl =>
    (j.rowA i pl).mapIdx (fun c x =>
      convertElement j.d.fmt j.a.fmt mode sd x (if j.a.isMx then scaleOf j.rd 1 j.a i ((j.leaf.col0 + c) / 32) else 0)))

/-- GFILL (R358). -/
def leafFill (j : LeafJob) : LeafResult :=
  j.eachRow (fun _ _ => List.replicate j.leaf.cols (recArg j.word % 2 ^ j.d.bits))

/-- The element function of GELT and GELTS (R359). -/
def elementOp (f op : Nat) (sat : Bool) (a b d : Nat) : Nat :=
  match f, op with
  | 0, 0 => f32Add a b
  | 0, 1 => f32Sub a b
  | 0, 2 => f32Mul a b
  | 0, 3 => f32Max a b
  | 0, 4 => f32Min a b
  | 0, _ => f32Fma a b d
  | 1, 0 => bf16Add a b
  | 1, 1 => bf16Sub a b
  | 1, 2 => bf16Mul a b
  | 1, 3 => f32Max (a * 65536) (b * 65536) / 65536
  | 1, 4 => f32Min (a * 65536) (b * 65536) / 65536
  | 1, _ => bf16Fma a b d
  | _, 0 => onBits 32 (if sat then aluAdds else aluAdd) a b
  | _, 1 => onBits 32 (if sat then aluSubs else aluSub) a b
  | _, 2 => onBits 32 aluMul a b
  | _, 3 => onBits 32 aluMax a b
  | _, _ => onBits 32 aluMin a b

/-- Elementwise, with operand b given row by row. -/
def leafElements (j : LeafJob) (second : Nat → (Nat × Nat) → List Nat) : LeafResult :=
  let opf := recOpf j.word
  j.eachRow (fun i pl =>
    let ds := if opf % 8 = 5 then j.rowD i pl else List.replicate j.leaf.cols 0
    List.zipWith (fun (x : Nat × Nat) d => elementOp j.d.fmt (opf % 8) (bit opf 3) x.1 x.2 d)
      (List.zip (j.rowA i pl) (second i pl)) ds)

/-- GELT. -/
def leafElt (j : LeafJob) : LeafResult := leafElements j j.rowB

/-- GELTS: b is ARG (R359). -/
def leafElts (j : LeafJob) : LeafResult :=
  leafElements j (fun _ _ => List.replicate j.leaf.cols (recArg j.word % 2 ^ j.d.bits))

/-- One output element of a product: blocks of 32 in ascending order, each term rounded and added (R167, R360). -/
def productElement (start : Option Nat) (terms : List Nat) : Nat :=
  match start, terms with
  | some x, ts => ts.foldl f32Add x
  | none, [] => 0
  | none, t :: ts => ts.foldl f32Add t

/-- The codes of a row of an MX tensor, in blocks of 32 with their scales. -/
def blocksOf (rd : Reader) (k : Nat) (t : Tensor) (i : Nat) : List (List Int × Nat) :=
  let codes := (rowOf rd k t i 0 (t.extent 0) (0, 0)).map (fun x => sext x t.bits)
  (rangeFrom 0 (t.extent 0 / 32)).map (fun b => ((codes.drop (32 * b)).take 32, scaleOf rd k t i b))

/-- The terms of one row of a and one row of b (R167). -/
def productTerms (x y : List (List Int × Nat)) : List Nat :=
  List.zipWith (fun (p q : List Int × Nat) => blockTerm (List.zipWith (fun (u v : Int) => u * v) p.1 q.1).sum p.2 q.2) x y

/-- GMMA and GMMAZ (R360). -/
def leafProduct (fromD : Bool) (j : LeafJob) : LeafResult :=
  let bs := (rangeFrom j.leaf.col0 j.leaf.cols).map (fun c => blocksOf j.rd 2 j.b c)
  j.eachRow (fun i pl =>
    let ra := blocksOf j.rd 1 j.a i
    let ds : List (Option Nat) := if fromD then (j.rowD i pl).map some else List.replicate j.leaf.cols none
    List.zipWith (fun d b => productElement d (productTerms ra b)) ds bs)

/-- The combination of GSCAN and GRED and its identity (R187, R361). -/
def scanOp (j : LeafJob) : (Nat → Nat → Nat) × Nat :=
  if bit (recOpf j.word) 0 then (f32Max, 0xFF800000)
  else if j.a.fmt = 2 then (onBits 32 aluAdd, 0)
  else (f32Add, 0x80000000)

/-- The chunks of 64 of a row, the last filled with the identity. -/
def scanChunks (identity : Nat) (xs : List Nat) : List (List Nat) :=
  (rangeFrom 0 ((xs.length + 63) / 64)).map (fun q =>
    let c := (xs.drop (64 * q)).take 64
    c ++ List.replicate (64 - c.length) identity)

/-- A row scanned in chunks of 64 from a carry: the results and the last of them (R361). -/
def scanRow (f : Nat → Nat → Nat) (identity : Nat) (carry : Nat) (xs : List Nat) : List Nat × Nat :=
  let r := (scanChunks identity xs).foldl (fun (acc : List Nat × Nat) c =>
    let h := scanAll f c
    (acc.1 ++ h.map (f acc.2), f acc.2 (h.getD 63 0))) ([], carry)
  (r.1.take xs.length, r.2)

/-- GSCAN and GRED (R361): `reduce` keeps the last result alone, which the last leaf of a row writes. -/
def leafScan (reduce : Bool) (j : LeafJob) : LeafResult :=
  let (f, identity) := scanOp j
  let rows := j.rowList.map (fun x => (x, scanRow f identity (j.carry.getD x.1 identity) (j.rowA x.2.1 x.2.2)))
  let lastLeaf := j.leaf.col0 + j.leaf.cols = j.a.extent 0
  { carry := rows.map (fun x => x.2.2),
    pieces :=
      if !reduce then rows.map (fun x => putRow j.d x.1.2.1 j.leaf.col0 x.2.1 x.1.2.2)
      else if lastLeaf then rows.map (fun x => putRow j.d x.1.2.1 0 [x.2.2] x.1.2.2)
      else [] }

/-- GGATHER: row r of d is row b[r] of a (R362). The index nibbles of an MX tensor stay where they are (log 122, DESIGN CHOICE). -/
def leafGather (j : LeafJob) : LeafResult :=
  j.eachRow (fun i pl => rowOf j.rd 1 j.a (j.leaf.index.getD (i - j.leaf.row0) 0) j.leaf.col0 j.leaf.cols pl)

/-- The pan of a leaf with a seed (R364). Log 94, DEDUCED. -/
def leafPan (seed : Nat) : Pan := { seed := BitVec.ofNat 64 seed, scr := 0, ph := 0 }

/-- The stream length of GBPROD. -/
def productLength (w : Nat) : Nat := 64 <<< (recOpf w % 8)

/-- GBPROD: the counts of a stochastic product (R364). -/
def leafStochastic (j : LeafJob) : LeafResult :=
  let l := productLength j.word
  let s14 := leafPan (recArg j.word + 2 * j.rank)
  let s15 := leafPan (recArg j.word + 2 * j.rank + 1)
  { carry := [],
    pieces := j.rowList.map (fun x =>
      putRow j.d x.2.1 j.leaf.col0
        ((List.zip (j.rowA x.2.1 x.2.2) (j.rowB x.2.1 x.2.2)).mapIdx (fun c ab =>
          ((rangeFrom 0 l).filter (fun k =>
            panValue 14 s14 (l * x.1 + k) (c % 64) < min ab.1 1024 &&
              panValue 15 s15 (l * x.1 + k) (c % 64) < min ab.2 1024)).length)) x.2.2) }

/-- The lane that a draw chooses from weights, −1 where they sum to 0 (R247, R364). -/
def drawCategory (ws : List Nat) (u : Nat) : Int :=
  let total := ws.sum
  if total = 0 then -1
  else
    let t := u * total / 1024
    ((rangeFrom 0 ws.length).filter (fun i => (ws.take (i + 1)).sum ≤ t)).length

/-- GBDRAW: a category for each sixteen weights (R364). -/
def leafDraw (j : LeafJob) : LeafResult :=
  let s15 := leafPan (recArg j.word + j.rank)
  { carry := [],
    pieces := j.rowList.map (fun x =>
      let ws := rowOf j.rd 1 j.a x.2.1 (16 * j.leaf.col0) (16 * j.leaf.cols) x.2.2
      putRow j.d x.2.1 j.leaf.col0
        ((rangeFrom 0 j.leaf.cols).map (fun g =>
          lowBits (drawCategory ((ws.drop (16 * g)).take 16) (panValue 15 s15 x.1 (16 * g % 64))) 32)) x.2.2) }

/-! ## Records and leaves in the state -/

def State.record (s : State) (k : Nat) : Option GtsRun := s.recs.find? (fun r => r.ident = k)
def State.setRecord (s : State) (r : GtsRun) : State :=
  { s with recs := s.recs.map (fun x => if x.ident = r.ident then r else x) }
def GtsRun.setLeaf (r : GtsRun) (i : Nat) (l : Leaf) : GtsRun :=
  { r with leaves := r.leaves.mapIdx (fun j x => if j = i then l else x) }

/-- A record that its unit runs: accepted and not complete. -/
def GtsRun.running (r : GtsRun) : Bool := r.accepted.isSome && r.done.isNone

/-- Records that a unit of level 2 to 4 holds (R370, R379). -/
def unitRecords (s : State) (lvl unit : Nat) : List GtsRun := s.recs.filter (fun r => r.lvl = lvl && r.unit = unit)

/-! ## Acceptance (R370) -/

/-- Whether a record may be accepted now: its unit runs no other, and no earlier arrival waits there. A record of the host is
accepted as it is consumed. Log 76, DEDUCED. -/
def canAccept (s : State) (r : GtsRun) : Bool :=
  r.accepted.isNone && r.raw.isSome && r.readyAt ≤ s.now && r.late.all (fun p => p ≤ s.now) &&
    (r.lvl ≤ 1 || r.host.isSome ||
      (unitRecords s r.lvl r.unit).all (fun x => x.ident = r.ident ||
        (x.accepted.isNone &&
          (x.readyAt > r.readyAt || x.host.isSome || (x.readyAt = r.readyAt && r.who ≤ x.who) || x.raw.isNone))))

/-- The lowest failed check (R10). -/
def firstFailed (l : List Failed) : Option Failed := minBy (fun f => f.1 * 256 + f.2.1) l

/-- A record as its acceptance leaves it, in a state as its reads see it: its leaves, or its failure. Log 54, DEDUCED. -/
def acceptedRun (s : State) (r : GtsRun) : GtsRun :=
  let (ts, plan, bad) := acceptChecks s r
  let r1 : GtsRun := { r with accepted := some s.now, latest := s.now, tensors := ts }
  match firstFailed bad with
  | some f => { r1 with stop := some 0, fault := some { lvl := r.lvl, cause := f.1, sub := f.2.1, addr := f.2.2, child := 2 ^ 32 - 1 } }
  | none => { r1 with leaves := plan.1, children := plan.2 }

/-- Acceptance of a record. One whose descriptors a lease holds is accepted eight plies later, with them (R269; log 129,
DESIGN CHOICE). -/
def acceptRecordAt (s : State) (r : GtsRun) : Result :=
  let spans := descriptorSpans s r
  if metLease s (linesOf spans) && r.late.isNone then { st := s.setRecord { r with late := some (s.now + 8) }, writes := [] }
  else
    let got := settledRead s r.who (bundleRank r.who + 6) spans
    { got.2 with st := got.2.st.setRecord (acceptedRun got.1 r) }

/-! ## Dispatch (R371) -/

/-- H of a level. -/
def dispatchLag (lvl : Nat) : Nat := if lvl ≤ 1 then 4 else if lvl = 2 then 12 else if lvl = 3 then 20 else 28

/-- The dispatch ply of the leaf of a rank. -/
def GtsRun.dispatchPly (r : GtsRun) (rank : Nat) : Nat := r.accepted.getD 0 + dispatchLag r.lvl + rank / 16

/-- The next leaf to dispatch, with its rank. -/
def GtsRun.nextPlanned (r : GtsRun) : Option (Nat × Leaf) :=
  if r.stop.isSome then none
  else (r.leaves.mapIdx (fun i l => (i, l))).find? (fun x => x.2.phase = .planned)

/-- Whether a leaf of a record is due for dispatch. -/
def GtsRun.dispatchDue (r : GtsRun) (now : Nat) : Bool :=
  r.running && (match r.nextPlanned with | some (i, l) => l.late.getD (r.dispatchPly i) ≤ now | none => false)

/-- The checks of the first leaf that goes to a core. -/
def coreChecks (s : State) (r : GtsRun) (n : Nat) : Option Failed :=
  let c := s.core n
  let m := s.pmap (chipOf n)
  let l := m.logicalChip (chipOf n)
  let k := m.logicalCore l (n % 1536)
  let base := 0xFFFE <<< 48 + (k / 64) <<< 43 + (k % 64) <<< 37 + 5 <<< 32
  if r.held.any (fun e => e.1 = n) then none
  else if m.state l k != 0 then some (0x0D, m.state l k, base)
  else if !c.isFree s.now then some (0x0F, 0x20, base)
  else if field c.tinuse.toNat 15 0 != 0 then some (0x0F, trailingZeros 16 c.tinuse.toNat, base)
  else if field c.tinuse.toNat 17 16 != 0 then some (0x0F, 0x10 + trailingZeros 2 (c.tinuse.toNat >>> 16), base)
  else none

/-- The bytes of the index values of a gather leaf, at their homes (R371). -/
def indexSpans (s : State) (r : GtsRun) (l : Leaf) : List Span :=
  if recOpc r.word != 0x0A then []
  else match r.tensors.getD 2 none with
    | some b => (rangeFrom l.row0 l.rows).map (fun i => { addr := operandHome s r.who (b.elem i 0 (0, 0)), len := 4, off := 0 })
    | none => []

/-- The index values of a gather leaf, or the check that fails (R362). -/
def readIndices (s : State) (r : GtsRun) (l : Leaf) : Except Failed (List Nat) :=
  if recOpc r.word != 0x0A then .ok []
  else match r.tensors.getD 1 none, r.tensors.getD 2 none with
    | some a, some b =>
      (rangeFrom l.row0 l.rows).foldr (fun i acc =>
        let x := b.elem i 0 (0, 0)
        let home := operandHome s r.who x
        let v := sext (readNat s.mem home 4) 32
        if v < 0 || (a.rows : Int) ≤ v then .error (0x09, 8, x)
        else acc.map (fun vs => v.toNat :: vs)) (.ok [])
    | _, _ => .ok []

/-- A leaf that is dispatched with its index values read, or the failure that ends the dispatching; `seen` is the state as the reads of
the indices see it. -/
def dispatchNext (s seen : State) (r : GtsRun) (i : Nat) (l : Leaf) : State :=
  let fail (f : Failed) : State :=
    s.setRecord { r with stop := some i, latest := max r.latest s.now,
                         fault := some { lvl := if r.lvl = 0 then 0 else 1, cause := f.1, sub := f.2.1, addr := f.2.2,
                                         child := l.child } }
  match coreChecks s r l.core, readIndices seen r l with
  | some f, .error g => fail (if f.1 * 256 + f.2.1 ≤ g.1 * 256 + g.2.1 then f else g)
  | some f, .ok _ => fail f
  | none, .error g => fail g
  | none, .ok vs =>
    let r1 := r.setLeaf i { l with phase := .queued, dispatched := s.now, index := vs, late := none }
    let held := mapPut r1.held l.core (mapGet 0 r1.held l.core)
    let stop := if i + 1 = r.leaves.length then some (i + 1) else none
    (s.setRecord { r1 with held := held, stop := stop }).setCore l.core { s.core l.core with reserved := some r.ident }

/-- The next leaf of a record at its dispatch ply. One whose index values a lease holds is dispatched eight plies later, with them, and
the leaves after it no earlier (R269; log 129, DESIGN CHOICE). -/
def dispatchLeaf (s : State) (r : GtsRun) : Result :=
  match r.nextPlanned with
  | none => { st := s, writes := [] }
  | some (i, l) =>
    let spans := indexSpans s r l
    if metLease s (linesOf spans) && l.late.isNone then
      { st := s.setRecord (r.setLeaf i { l with late := some (s.now + 8) }), writes := [] }
    else
      let got := settledRead s r.who (bundleRank r.who + 6) spans
      { got.2 with st := dispatchNext got.2.st got.1 r i l }

/-! ## Staging (R372, R375) -/

/-- The core's next leaf: dispatched, with no other leaf of the record in work there. -/
def GtsRun.startable (r : GtsRun) (n now : Nat) : Option (Nat × Leaf) :=
  let ls := (r.leaves.mapIdx (fun i l => (i, l))).filter (fun x => x.2.core = n)
  if ls.any (fun x => x.2.phase = .staging || x.2.phase = .writing) then none
  else match ls.find? (fun x => x.2.phase = .queued) with
    | some (i, l) => if l.dispatched + 8 ≤ now then some (i, l) else none
    | none => none

/-- The plies of a granule that a leaf moves at ply p (R266, R372): by its distance, or on another chip by the request slot that it
takes; none where no slot is listed for the leaf's core. Log 110, DEDUCED. -/
def granulePlies (s : State) (n home p : Nat) (reply : Bool) : Option (Nat × Nat × Option Nat) :=
  if distance n home = 4 then
    (freeSlot { s with now := p } n (home >>> 48) reply).map (fun e => (e.2.arr + 30, e.2.rarr + 30, some e.1))
  else some (p + performLag (distance n home), p + landLag (distance n home), none)

/-- The access that a leaf makes for a granule, added with the request slot it takes. -/
def addGranule (s : State) (x : Access) (slot : Option Nat) : State :=
  let t : State := { s with accs := s.accs ++ [{ x with ident := 2 * s.nextId + 1, order := s.nextId }], nextId := s.nextId + 1 }
  match slot with
  | some i => t.takeSlot i (2 * s.nextId + 1)
  | none => t

/-- The staging of one input granule: it is read at its home, and written to window 7 as it lands; a granule of another chip for
which no slot is listed brings a free value. The state, and the plies from the read's issue to its landing.
Log 110, DEDUCED. -/
def stageGranule (s : State) (op n home j : Nat) : State × Nat :=
  let p := s.now + j / 4
  let stage := coreBase n + 0x380000 + 64 * j
  let x : Access := { ident := 0, op := op, core := n, rank := bundleRank n, order := 0, due := p, landAt := p, delayed := false,
                      write := true, spans := [{ addr := stage, len := 64, off := 0 }], data := 0, capTag := none, dest := .nowhere }
  match granulePlies s n home p true with
  | some (d, l, slot) =>
    (addGranule s { x with due := d, landAt := l, write := false, spans := [{ addr := home, len := 64, off := 0 }],
                           dest := .forward stage (l - d) } slot, l - p)
  | none => ({ addGranule s { x with data := (Config.missingGranule s.freeCtr).setWidth 2048 } none with freeCtr := s.freeCtr + 1 }, 0)

/-- The beginning of a leaf: its input granules are read, and the ply at which it may compute, which waits for no read that a lease
delays (log 125, DESIGN CHOICE). Log 52, DEDUCED. -/
def startLeaf (s : State) (r : GtsRun) (n i : Nat) (l : Leaf) : State :=
  let grans := leafInputs r.word r.tensors l
  let homes := grans.map (fun g => operandHome s r.who (64 * g.2))
  let staged := (homes.mapIdx (fun j h => (j, h))).foldl (fun (acc : State × Nat) x =>
    let y := stageGranule acc.1 r.op n x.2 x.1
    (y.1, max acc.2 y.2)) (s, 0)
  let r1 := r.setLeaf i { l with phase := .staging, computeAt := s.now + staged.2 + (grans.length + 3) / 4 }
  staged.1.setRecord { r1 with held := mapPut r1.held n (max (mapGet 0 r1.held n) grans.length) }

/-! ## Compute and write-out (R372, R373) -/

/-- The compute length of a leaf: the sum over its native tiles. -/
def computeLength (w : Nat) (ts : List (Option Tensor)) (l : Leaf) : Nat :=
  let opc := recOpc w
  let t (k : Nat) := ts.getD k none
  let (er, ec) := nativeEdges opc (t 0) (t 1) (t 2)
  let k := match t 1 with | some a => a.extent 0 | none => 0
  let one (h : Nat) : Nat :=
    if opc = 0x06 || opc = 0x07 then 56 + 128 * ((k + 127) / 128)
    else if opc = 0x08 || opc = 0x09 then h + 12
    else if opc = 0x0F then 4 * h + 8
    else if opc = 0x10 then h + 8
    else h + 4
  l.planes.length * (cutExtent l.cols ec).length * ((cutExtent l.rows er).map (fun x => one x.2)).sum

/-- The ply from which a leaf may compute: its staging, and for a later part of a row the carry before it (R373); eight plies later where
a lease holds what it reads of d. -/
def GtsRun.computePly (r : GtsRun) (l : Leaf) : Option Nat :=
  match l.late, l.prev with
  | some p, _ => some p
  | none, none => some l.computeAt
  | none, some p => match r.leaves[p]? with
    | some x => if x.phase = .writing || x.phase = .ended then some (max l.computeAt (x.computed + 24)) else none
    | none => some l.computeAt

/-- The leaf of a record that computes now, with its rank. -/
def GtsRun.computing (r : GtsRun) (now : Nat) : Option (Nat × Leaf) :=
  if !r.running then none
  else (r.leaves.mapIdx (fun i l => (i, l))).find? (fun x =>
    x.2.phase = .staging && (match r.computePly x.2 with | some p => p ≤ now | none => false))

/-- The granules of d that a leaf reads, at their homes: its elements, or the scale that GCONV takes from its table (R358 to R360). They
are read as the leaf computes. Log 52, DEDUCED. -/
def outputSpans (s : State) (r : GtsRun) (l : Leaf) : List Span :=
  match r.tensors.getD 0 none with
  | some d =>
    if !readsOutput r.word d then []
    else
      let grans := if recOpc r.word = 0x02 then
          unitsOf 6 (d.off + d.s2) 32 ++ (if d.isUni then [] else unitsOf 6 (d.off + d.s3) 1)
        else granulesOf (outputRegion (recOpc r.word) r.tensors l)
      grans.map (fun g => { addr := operandHome s r.who (64 * g), len := 64, off := 0 })
  | none => []

/-- What a leaf reads: staged bytes from window 7 of its core, other bytes, those of d, at their homes; in a leased line as the last
atomic left them. Log 52, DEDUCED. -/
def leafReader (s : State) (r : GtsRun) (l : Leaf) : Reader :=
  let grans := leafInputs r.word r.tensors l
  fun k a len =>
    joinPieces 8 ((rangeFrom a len).map (fun x =>
      match grans.findIdx? (fun g => g.1 = k && g.2 = x / 64) with
      | some j => readByteNow s (coreBase l.core + 0x380000 + 64 * j + x % 64)
      | none => readByteNow s (operandHome s r.who x)))

/-- A piece cut at the granules that it touches. -/
def Piece.split (p : Piece) : List Piece :=
  (unitsOf 6 p.addr p.len).map (fun g =>
    let lo := max p.addr (64 * g)
    let hi := min (p.addr + p.len) (64 * g + 64)
    { p with addr := lo, len := hi - lo, value := p.value >>> (8 * (lo - p.addr)) % 2 ^ (8 * (hi - lo)) })

/-- One write of a leaf to each home of its bytes, issued at ply p: it performs after the leaf's T, and on another chip as the slot it
takes says; without a listed slot it is not sent. Log 110, DEDUCED. -/
def leafWrite (s : State) (r : GtsRun) (n p far : Nat) (x : Piece) : State :=
  (operandHomes s r.who x.addr).foldl (fun t h =>
    match granulePlies t n h p false with
    | some (d, _, slot) =>
      let due := if slot.isSome then d else p + far
      addGranule t { ident := 0, op := r.op, core := n, rank := bundleRank n, order := 0, due := due, landAt := due,
                     delayed := false, write := true, spans := [{ addr := h, len := x.len, off := 0 }], data := BitVec.ofNat 2048 x.value,
                     capTag := none, dest := match x.nibble with | some g => .nibble g | none => .nowhere } slot
    | none => t) s

/-- The writes of a leaf, each piece at the ply of its granule. -/
def leafWrites (s : State) (r : GtsRun) (n start far : Nat) (pieces : List Piece) (grans : List Nat) : State :=
  pieces.foldl (fun t x => leafWrite t r n (start + ((grans.findIdx? (fun g => g = x.addr / 64)).getD 0) / 4) far x) s

/-- The largest T of the homes of a leaf's output granules, each as it issues, with the request slots taken that the pieces before it
take (R372). Log 110, DEDUCED. -/
def writeLag (s : State) (r : GtsRun) (n start : Nat) (pieces : List Piece) (grans : List Nat) : Nat :=
  let ply (a : Nat) : Nat := start + ((grans.findIdx? (fun g => g = a / 64)).getD 0) / 4
  (pieces.foldl (fun acc x =>
    (operandHomes s r.who x.addr).foldl (fun (acc : State × Nat) h =>
      match granulePlies acc.1 n h (ply x.addr) false with
      | some (d, _, slot) =>
        (match slot with | some i => acc.1.takeSlot i 0 | none => acc.1, max acc.2 (d - ply x.addr))
      | none => acc) acc) (s, 0)).2

/-- The pans that a leaf leaves (R364). Log 94, DEDUCED. Log 134, DESIGN CHOICE. -/
def leavePans (c : Core) (w rank rows : Nat) : Core :=
  let arg := recArg w
  let ph (k : Nat) : BitVec 16 := BitVec.ofNat 16 k
  if recOpc w = 0x0F then
    let k := productLength w * rows
    (c.setPan 14 { leafPan (arg + 2 * rank) with ph := ph k }).setPan 15 { leafPan (arg + 2 * rank + 1) with ph := ph k }
  else if recOpc w = 0x10 then c.setPan 15 { leafPan (arg + rank) with ph := ph rows }
  else c

/-- A leaf that computes: its results, the plies of its write-out, its end, and the pans that it leaves, from now on (log 134, DESIGN CHOICE); `seen` is
the state as its reads see it. -/
def computeNext (s seen : State) (r : GtsRun) (i : Nat) (l : Leaf) (f : LeafJob → LeafResult) : State :=
  let none0 : Tensor := parseTensor 0
  let t (k : Nat) : Tensor := (r.tensors.getD k none).getD none0
  let job : LeafJob :=
    { word := r.word, d := t 0, a := t 1, b := t 2, hasB := (r.tensors.getD 2 none).isSome, rd := leafReader seen r l, leaf := l,
      rank := i,
      carry := match l.prev with
        | some p => (match r.leaves[p]? with | some x => x.carry | none => [])
        | none => [],
      group := if r.lvl = 0 then some r.group else none }
  let out := f job
  let pieces := out.pieces.flatMap Piece.split
  let grans := granulesOf (outputRegion (recOpc r.word) r.tensors l)
  let start := s.now + computeLength r.word r.tensors l
  let far := writeLag s r l.core start pieces grans
  let r1 := r.setLeaf i { l with phase := .writing, computed := start, ends := start + far + (grans.length + 3) / 4, late := none, carry := out.carry }
  let s1 := (s.setRecord r1).setCore l.core (leavePans (s.core l.core) r.word i (l.rows * l.planes.length))
  leafWrites s1 r l.core start far pieces grans

/-- The compute phase of a leaf. One that reads granules of d that a lease holds computes eight plies later, with them (R269; log 129,
DESIGN CHOICE). -/
def computeLeaf (s : State) (r : GtsRun) (i : Nat) (l : Leaf) (f : LeafJob → LeafResult) : Result :=
  let spans := outputSpans s r l
  if metLease s (linesOf spans) && l.late.isNone then
    { st := s.setRecord (r.setLeaf i { l with late := some (s.now + 8) }), writes := [] }
  else
    let got := settledRead s r.who (bundleRank r.who + 6) spans
    { got.2 with st := computeNext got.2.st got.1 r i l f }

/-- The step of an operation's leaf: the first leaf of such a record that computes now. -/
def stepLeaf (s : State) (opc : Nat) (q : GtsRec) (f : LeafJob → LeafResult) : Host.Outcome State Fault Refusal :=
  match s.recs.find? (fun r => r.word = recordBits opc q && (r.computing s.now).isSome) with
  | some r => (match r.computing s.now with
    | some (i, l) => finish s (computeLeaf s r i l f)
    | none => .next s)
  | none => .next s

/-! ## The end of a leaf and of a record (R372, R374) -/

/-- The bytes of output elements that a leaf writes (R372). -/
def leafBytes (r : GtsRun) (l : Leaf) : Nat :=
  match r.tensors.getD 0 none with
  | some d =>
    if recOpc r.word = 0x09 then
      (match r.tensors.getD 1 none with
       | some a => if l.col0 + l.cols = a.extent 0 then l.rows * l.planes.length * (d.bits / 8) else 0
       | none => 0)
    else l.rows * l.cols * l.planes.length * d.bits / 8
  | none => 0

/-- The leaf of a core that ends now. -/
def GtsRun.ending (r : GtsRun) (n now : Nat) : Option (Nat × Leaf) :=
  (r.leaves.mapIdx (fun i l => (i, l))).find? (fun x => x.2.core = n && x.2.phase = .writing && x.2.ends ≤ now)

/-- The ply from which the writes of a leaf that a lease has delayed have performed (R269, R299). -/
def writesOver (s : State) (r : GtsRun) (l : Leaf) : Nat :=
  (s.accs.filter (fun x => x.write && x.core = l.core && x.op = r.op)).foldl (fun m x => max m (x.due + 1)) 0

/-- The end of a leaf, with its add to the record's counter, made after every write of the leaf has performed (R299). -/
def endLeaf (s : State) (r : GtsRun) (i : Nat) (l : Leaf) : State :=
  let ctr := recCtr r.word
  let r1 := r.setLeaf i { l with phase := .ended }
  if ctr = 0 then s.setRecord { r1 with latest := max r.latest s.now }
  else
    let home := ownHome s r.who ctr
    let due := max (s.now + performLag (distance l.core home) - 4) (writesOver s r l)
    let s1 := s.setRecord { r1 with latest := max r.latest due }
    { s1 with
      atoms := s1.atoms ++ [{ ident := 2 * s.nextId + 1, op := r.op, core := l.core, rank := bundleRank l.core,
                              order := s.nextId, due := due, landAt := due, addr := home,
                              kind := if recBar r.word then .barrier else .add, x := BitVec.ofNat 64 (leafBytes r l), y := 0,
                              dest := none }],
      nextId := s1.nextId + 1 }

/-- Whether nothing of a record is still to run. -/
def GtsRun.settled (r : GtsRun) : Bool :=
  r.running && r.stop.isSome &&
    r.leaves.all (fun l => l.phase = .planned || l.phase = .ended)

/-- A core as a record leaves it (R374). -/
def Core.cleared (c : Core) : Core :=
  { c with reserved := none, run := .idle, q := [], m := [], s := [], tile := [], acc := [], scale := [], uniA := 0, uniB := 0,
           tconf := 0, tinuse := 0, tdirty := 0 }

/-- Whether every leaf of a child has ended. -/
def GtsRun.childDone (r : GtsRun) (j : Nat) : Bool := r.leaves.all (fun l => l.child != j || l.phase = .ended)

/-- The 32 bytes of a report (R376). -/
def reportBytes (r : GtsRun) : Nat :=
  let fulls := (rangeFrom 0 r.children).filter r.childDone
  let mask := (fulls.filter (fun j => j < 64)).foldl (fun m j => m + 2 ^ j) 0
  let tail := mask <<< 128 + fulls.length <<< 224
  match r.fault with
  | none => 0xFE + r.lvl <<< 8 + (2 ^ 32 - 1) <<< 192 + tail
  | some f =>
    0xFD + r.lvl <<< 8 + f.lvl <<< 16 + f.cause <<< 24 + f.sub <<< 32 + (f.addr % 2 ^ 64) <<< 64 + f.child <<< 192 + tail

/-- The report of a record: over the record itself, performed four plies after completion as one unit, and for a fault the
event at its submitter; a host record is reported by an event, at its completion ply (R376, R378, R484). Log 136, DESIGN CHOICE. -/
def report (s : State) (r : GtsRun) : State :=
  match r.host with
  | some chip => s.post { chip := chip, src := 0x40, code := (Config.eventCode 0x40).toNat, data := BitVec.ofNat 320 (reportBytes r) }
  | none =>
    { s with
      accs := s.accs ++ [{ ident := 2 * s.nextId + 1, op := 0, core := r.who, rank := bundleRank r.who + 6, order := s.nextId,
                           due := s.now + 4, landAt := s.now + 4, delayed := false, write := true,
                           spans := [{ addr := r.home, len := 32, off := 0 }],
                           data := BitVec.ofNat 2048 (reportBytes r), capTag := none,
                           dest := match r.fault with | some f => .report f.lvl (BitVec.ofNat 64 r.addr) | none => .nowhere }],
      nextId := s.nextId + 1 }

/-- The rest of granules that become zero: their hidden tags are clear (R258), and no lease holds other bytes of them.
Log 52, DEDUCED. -/
def State.zeroed (s : State) (a grans : Nat) : State :=
  { s with tags := writeTags s.tags a (64 * grans) none,
           leases := s.leases.filter (fun l => !(a / 64 ≤ l.line && l.line < a / 64 + grans)) }

/-- The completion of a record: its operation is complete, its cores are released and cleared with the bytes of window 7
that its leaves staged into, and its report is on its way. -/
def completeGts (s : State) (r : GtsRun) : Result :=
  let r1 : GtsRun := { r with done := some s.now }
  let s1 := s.setRecord r1
  let s2 := r.held.foldl (fun s e => s.setCore e.1 (s.core e.1).cleared) s1
  let c := s2.core r.who
  let s3 := s2.setCore r.who { c with ops := c.ops.map (fun o => if o.ident = r.op then { o with isOpen := false, due := s.now } else o) }
  let s4 := r.held.foldl (fun s e => s.zeroed (coreBase e.1 + 0x380000) e.2) (report s3 r1)
  { st := s4, writes := r.held.flatMap (fun e => bytesOf (coreBase e.1 + 0x380000) 0 (64 * e.2)) }

/-! ## GSUB (R379) -/

/-- The unit that a GSUB of a core targets, by its first physical core. -/
def targetUnit (s : State) (n lvl imm : Nat) : Nat :=
  let m := s.pmap (chipOf n)
  let l := m.logicalChip (chipOf n)
  let k := m.logicalCore l (n % 1536)
  let chip := 1536 * chipOf n
  match lvl with
  | 4 => chip + m.physCore l 0
  | 3 => chip + m.physCore l (k / 64 * 64)
  | 2 => chip + m.physCore l (k / 16 * 16)
  | _ => chip + m.physCore l (k / 16 * 16 + imm % 16)

/-- A of a level (R370), and the scope of a GSUB (R379). -/
def acceptLag (lvl : Nat) : Nat := if lvl = 4 then 40 else if lvl = 3 then 16 else 8
def submitScope (lvl : Nat) : Nat := if lvl = 4 then 3 else if lvl = 3 then 2 else 1

/-- GSUB. Whether the record has a counter, so that its capability must let it add, and whether it is a collective, are read from its bytes
as they stand at issue (log 126, DESIGN CHOICE). -/
def submitSlot (s : State) (t lvl : BitVec 3) (x : BitVec 6) (y : BitVec 4) (imm : BitVec 24) : SlotOut :=
  let n := s.cur.core
  let cap := s.rc y
  let addr : Int := (cap.base : Int) + (s.rs x).toNat
  let a := lowBits addr 64
  let k := lvl.toNat
  let home := ownHome s n a
  let mine := namesOwnCore s n addr && (field a 36 32 = 0 || field a 36 32 = 7)
  let now := readNow s home 32
  let hasCtr := mine && field now 191 128 != 0
  let q := { plainRequest cap addr 32 (if hasCtr then [0, 1, 3] else [0, 1]) with stays := true }
  let unit := targetUnit s n k imm.toNat
  let tval := BitVec.ofNat 64 a
  let scope := submitScope k
  let op := slotOp s 6
  let dist := if k = 4 && isCollective (now % 256) then 4 else scope
  let r : GtsRun :=
    { ident := slotIdent s 6 0, lvl := k, unit := unit, group := imm.toNat / 16 % 4, addr := a, home := home, who := n, cap := cap,
      caps := (rangeFrom 0 16).map s.curCore.creg, host := none, raw := none, readyAt := s.now + acceptLag k, accepted := none,
      tensors := [], leaves := [], children := 0, stop := none, fault := none, held := [], latest := 0, done := none, op := op }
  let read : Access :=
    { ident := slotIdent s 6 1, op := 0, core := n, rank := bundleRank n, order := s.seq * 8 + 6, due := s.now + 4,
      landAt := s.now + 4, delayed := false, write := false, spans := [{ addr := home, len := 32, off := 0 }], data := 0,
      capTag := none, dest := .record (slotIdent s 6 0) }
  { engineForm t x y with
    causes := (checkAccess s n q).toList ++ causeIf (!mine) 0x09 3 tval ++ causeIf (k ≤ 1 && unit = n) 0x14 0x03 tval,
    hold := 2 ≤ k && 4 ≤ ((unitRecords s k unit).filter (fun r => r.done.isNone)).length,
    release := some scope, starts := [(12, dist)],
    effs := [.submit r read, .op { ident := op, seq := s.seq, kinds := 12, dist := dist, isOpen := true, due := 0, acq := none }] }

/-- The first read of the counter of a GCWAIT record (R365). -/
def startCounter (s : State) (r : GtsRun) : State :=
  let off := match r.tensors.getD 1 none with | some a => a.off | none => 0
  { s with
    accs := s.accs ++ [{ ident := 2 * s.nextId + 1, op := r.op, core := r.who, rank := bundleRank r.who + 6, order := s.nextId,
                         due := s.now, landAt := s.now, delayed := false, write := false,
                         spans := [{ addr := operandHome s r.who off, len := 8, off := 0 }], data := 0, capTag := none,
                         dest := .counter r.ident }],
    nextId := s.nextId + 1 }

/-! ## Meanings -/

/-- GSUB (R379). Submits a GTS record to a level's unit as a release. -/
def execGsub (t : BitVec 3) (lvl : BitVec 3) (x : BitVec 6) (y : BitVec 4) (i : BitVec 24) (s : State) : Host.Outcome State Fault Refusal :=
  execSlot s (submitSlot s t lvl x y i)

/-- GWAIT (R380). Holds until a record's report has been written over it. -/
def execGwait (t : BitVec 3) (x : BitVec 6) (y : BitVec 4) (s : State) : Host.Outcome State Fault Refusal :=
  execSlot s (waitSlot s t x y .report (((s.rc y).base : Int) + (s.rs x).toNat) 32)

/-- GNOP (R365). A GTS record that does nothing and completes at acceptance. -/
def execGnop (r : GtsRec) (s : State) : Host.Outcome State Fault Refusal :=
  match s.recs.find? (fun x => x.word = recordBits 0x00 r && x.running && x.stop.isNone) with
  | some x => finishSame s (s.setRecord { x with stop := some 0 })
  | none => .next s

/-- GCOPY (R358). GTS record that copies one tensor to another. -/
def execGcopy (r : GtsRec) (s : State) : Host.Outcome State Fault Refusal :=
  stepLeaf s 0x01 r leafCopy

/-- GCONV (R358). GTS record that converts a tensor between formats. -/
def execGconv (r : GtsRec) (s : State) : Host.Outcome State Fault Refusal :=
  stepLeaf s 0x02 r leafConvert

/-- GFILL (R358). GTS record that fills a tensor with a constant. -/
def execGfill (r : GtsRec) (s : State) : Host.Outcome State Fault Refusal :=
  stepLeaf s 0x03 r leafFill

/-- GELT (R359). GTS elementwise operation on two tensors. -/
def execGelt (r : GtsRec) (s : State) : Host.Outcome State Fault Refusal :=
  stepLeaf s 0x04 r leafElt

/-- GELTS (R359). GTS elementwise operation with a scalar argument. -/
def execGelts (r : GtsRec) (s : State) : Host.Outcome State Fault Refusal :=
  stepLeaf s 0x05 r leafElts

/-- GMMA (R360). GTS matrix product accumulated into d. -/
def execGmma (r : GtsRec) (s : State) : Host.Outcome State Fault Refusal :=
  stepLeaf s 0x06 r (leafProduct true)

/-- GMMAZ (R360). GTS matrix product replacing d. -/
def execGmmaz (r : GtsRec) (s : State) : Host.Outcome State Fault Refusal :=
  stepLeaf s 0x07 r (leafProduct false)

/-- GSCAN (R361). GTS inclusive scan along dimension 0. -/
def execGscan (r : GtsRec) (s : State) : Host.Outcome State Fault Refusal :=
  stepLeaf s 0x08 r (leafScan false)

/-- GRED (R361). GTS reduction along dimension 0. -/
def execGred (r : GtsRec) (s : State) : Host.Outcome State Fault Refusal :=
  stepLeaf s 0x09 r (leafScan true)

/-- GGATHER (R362). GTS gather of rows by an index tensor. -/
def execGgather (r : GtsRec) (s : State) : Host.Outcome State Fault Refusal :=
  stepLeaf s 0x0A r leafGather

/-- GBPROD (R364). GTS stochastic product counts on the brine unit. -/
def execGbprod (r : GtsRec) (s : State) : Host.Outcome State Fault Refusal :=
  stepLeaf s 0x0F r leafStochastic

/-- GBDRAW (R364). GTS categorical draws on the brine unit. -/
def execGbdraw (r : GtsRec) (s : State) : Host.Outcome State Fault Refusal :=
  stepLeaf s 0x10 r leafDraw

/-- GCWAIT (R365). GTS record that completes when a counter reaches a threshold. -/
def execGcwait (r : GtsRec) (s : State) : Host.Outcome State Fault Refusal :=
  match s.recs.find? (fun x => x.word = recordBits 0x11 r && x.running && x.stop.isNone &&
      !s.accs.any (fun a => a.dest = .counter x.ident)) with
  | some x => finishSame s (startCounter s x)
  | none => .next s

/-- RECORD_ACCEPTANCE (R370). A unit accepts a GTS record at a = max(p + A, c + 1), reads its descriptors, checks it under R357 and cuts it into children. -/
def execRecordAcceptance (ident : Nat) (s : State) : Host.Outcome State Fault Refusal :=
  match s.record ident with
  | some r => if canAccept s r then finish s (acceptRecordAt s r) else .next s
  | none => .next s

/-- LEAF_DISPATCH (R371). A leaf of a record is checked against its core and dispatched at its dispatch ply. -/
def execLeafDispatch (ident : Nat) (s : State) : Host.Outcome State Fault Refusal :=
  match s.record ident with
  | some r => if r.dispatchDue s.now then finish s (dispatchLeaf s r) else .next s
  | none => .next s

/-- LEAF_START (R372). A dispatched leaf begins staging, compute and write-out on its core. -/
def execLeafStart (core : Nat) (s : State) : Host.Outcome State Fault Refusal :=
  match s.recs.findSome? (fun r => if r.running then (r.startable core s.now).map (fun x => (r, x)) else none) with
  | some (r, i, l) => finishSame s (startLeaf s r core i l)
  | none => .next s

/-- LEAF_END (R372). A leaf ends its write-out and adds its byte count to the record's counter. -/
def execLeafEnd (core : Nat) (s : State) : Host.Outcome State Fault Refusal :=
  match s.recs.findSome? (fun r => if r.running then (r.ending core s.now).map (fun x => (r, x)) else none) with
  | some (r, i, l) => finishSame s (endLeaf s r i l)
  | none => .next s

/-- RECORD_COMPLETION (R374). A record completes, its cores are released and cleared, and its report is written. -/
def execRecordCompletion (ident : Nat) (s : State) : Host.Outcome State Fault Refusal :=
  match s.record ident with
  | some r => if r.settled && r.latest ≤ s.now then finish s (completeGts s r) else .next s
  | none => .next s

end Sys2Proof.Machine
end

