-- ==== Sys2Proof/Machine/Fabric.lean ====
section
/-! DEFINITION. Links: topology, plies on the wire, flits and their checks, messages, failures, the time base
(R403, R404, R413 to R431). -/

namespace Sys2Proof.Machine

/-! ## Packages and ports in the state -/

def State.chip (s : State) (k : Nat) : Chip := mapGet Chip.reset s.chips k
def State.setChip (s : State) (k : Nat) (c : Chip) : State := { s with chips := mapPut s.chips k c }
def State.port (s : State) (p : Nat) : Port := mapGet Port.reset s.ports p
def State.setPort (s : State) (p : Nat) (v : Port) : State := { s with ports := mapPut s.ports p v }
def State.engine (s : State) (p : Nat) : LinkEngine := (s.port p).engine
def State.setEngine (s : State) (p : Nat) (e : LinkEngine) : State := s.setPort p { s.port p with engine := e }

/-- The ports of a package that the state lists. -/
def portsOf (s : State) (chip : Nat) : List Nat := (s.ports.map Prod.fst).filter (fun p => p / 12 = chip)

/-! ## Topology (R403, R404, R416) -/

/-- The coordinate of a chip in a dimension (R251). -/
def coord (chip d : Nat) : Nat := chip / 16 ^ d % 16

/-- The chip with another coordinate in one dimension. -/
def withCoord (chip d v : Nat) : Nat := chip - coord chip d * 16 ^ d + v * 16 ^ d

/-- The dimension of a pod port, and its ring size. -/
def portDim (q : Nat) : Nat := if q < 8 then q / 2 else q - 8
def portRing (s : State) (q : Nat) : Nat := s.rings.getD (portDim q) 1

/-- The receiving port that a port transmits to. -/
def peerPort (s : State) (p : Nat) : Option Nat :=
  let chip := p / 12
  let q := p % 12
  let d := portDim q
  let k := portRing s q
  if k ≤ 1 then none
  else if 8 ≤ q then some (withCoord chip d ((coord chip d + k / 2) % k) * 12 + q)
  else if q % 2 = 0 then some (withCoord chip d ((coord chip d + 1) % k) * 12 + q + 1)
  else some (withCoord chip d ((coord chip d + k - 1) % k) * 12 + q - 1)

/-- The port that transmits to a receiving port. Log 59, DEDUCED. -/
def senderPort (s : State) (p : Nat) : Option Nat :=
  let chip := p / 12
  let q := p % 12
  let d := portDim q
  let k := portRing s q
  if 8 ≤ q && 1 < k then some (withCoord chip d ((coord chip d + k - k / 2) % k) * 12 + q) else peerPort s p

/-- The two compute dies of a link die. -/
def attachedDies (l : Nat) : Nat × Nat := if l ≤ 2 then (2 * l, 2 * l + 1) else (18 + 2 * (l - 3), 19 + 2 * (l - 3))

/-- The difference of two numbers. -/
def absDiff (a b : Nat) : Nat := if a ≤ b then b - a else a - b

/-- Bridges between two compute dies, along the row and along the column (R404). -/
def gridLength (a b : Nat) : Nat := absDiff (a % 6) (b % 6) + absDiff (a / 6) (b / 6)

/-- The die of a link die in the column nearest to one of some dies; of two, the lower number (R404). -/
def nearDie (l : Nat) (ends : List Nat) : Nat :=
  let (a, b) := attachedDies l
  let gap (d : Nat) : Nat := (minBy id (ends.map (fun e => absDiff (d % 6) (e % 6)))).getD 0
  if gap b < gap a then b else a

/-- Bridges on the route between a link die and a compute die (R404). -/
def routeLength (l die : Nat) : Nat := 1 + gridLength (nearDie l [die]) die

/-- Bridges on the route between two link dies (R404): each side goes over its die in the column nearer to the other one's dies.
Log 56, DEDUCED. -/
def linkRoute (l m : Nat) : Nat :=
  let dies (k : Nat) : List Nat := [(attachedDies k).1, (attachedDies k).2]
  if l = m then 0 else 2 + gridLength (nearDie l (dies m)) (nearDie m (dies l))

/-- Bridges between a link die and a home: a compute die, or the link die of window 6. -/
def homeRoute (l home : Nat) : Nat :=
  if addrWin home = 6 then linkRoute l (field home 42 37) else routeLength l (field home 47 43)

/-! ## Plies on the wire (R417, R418, R429) -/

/-- Whether PW holds a legal W. -/
def Port.legal (v : Port) : Bool := 4 ≤ v.w.toNat && v.w.toNat ≤ 80

/-- The wire budget of the link that a port receives on, if both ends hold one legal W. -/
def linkW (s : State) (p : Nat) : Option Nat :=
  let v := s.port p
  match senderPort s p with
  | some t => if v.legal && (s.port t).w = v.w then some v.w.toNat else none
  | none => none

/-- HD of a wire budget. -/
def wireHd (w : Nat) : Nat := 3 * w + 4

/-- FD between two ports of one package. -/
def forwardLag (p oq : Nat) : Nat := if p % 12 / 2 = oq / 2 then 2 else 36

/-- Whether a ply lies in a guard interval. -/
def inGuard (ply : Nat) : Bool := 65536 ≤ ply && ply % 65536 < 96

/-! ## Charges (R413 to R415) -/

/-- An accounting slot as ACTAGn reads: slot 63 is bound to 0xFFFF. Log 79, DEDUCED. -/
def Chip.actagOf (c : Chip) (n : Nat) : BitVec 17 := if n = 63 then 0x1FFFF else mapGet 0 c.actag n

/-- The slot that takes the charges of a tag. -/
def Chip.slotFor (c : Chip) (tag : BitVec 16) : Nat :=
  ((rangeFrom 0 63).find? (fun n => c.actagOf n = 0x10000 ||| tag.setWidth 17)).getD 63

/-- A charge of this ply, or of a later one. -/
def charge (s : State) (chip ply : Nat) (tag : BitVec 16) (pj : Nat) : State :=
  if pj = 0 then s else { s with charges := s.charges ++ [{ chip := chip, ply := ply, tag := tag, pj := pj }] }

/-- One charge on its slot. -/
def takeCharge (s : State) (x : Charge) : State :=
  let c := s.chip x.chip
  let n := c.slotFor x.tag
  s.setChip x.chip { c with acnj := mapSet 0 c.acnj n (mapGet 0 c.acnj n + x.pj) }

/-- The charges of a ply, on the slots of their tags. -/
def takeCharges (s : State) : State :=
  (s.charges.filter (fun x => x.ply ≤ s.now)).foldl takeCharge
    { s with charges := s.charges.filter (fun x => s.now < x.ply) }

/-- ACNJn: whole nJ and the remainder in pJ. -/
def Chip.acnjWord (c : Chip) (n : Nat) : Word :=
  BitVec.ofNat 64 ((mapGet 0 c.acnj n / 1000) <<< 10 + mapGet 0 c.acnj n % 1000)

/-! ## Link-die memory (R256, R433, R436) -/

/-- A granule of the chunk buffers of the link die of a port. -/
def bufAddr (p g : Nat) : Nat := linkAddr (p / 12) (p % 12 / 2) (64 * g)

/-- A byte of the link-program memory of a port. -/
def progAddr (p off : Nat) : Nat := linkAddr (p / 12) (p % 12 / 2) (0x2000000 + 0x40000 * (p % 2) + off)

/-- The rank of the accesses of a port, and of the units of a link die after its ports (R291, R436, R458). -/
def linkRank (p : Nat) : Nat := 2 ^ 32 + 2 * p
def unitRank (chip die : Nat) : Nat := 2 ^ 32 + 2 * (12 * chip + 2 * die + 1) + 1
def hostRank (chip : Nat) : Nat := 2 ^ 34 + chip

/-- An access that a link die, a sequencer or the host makes, as the one with a number `order` of its issuer. -/
def orderedAccess (s : State) (chip rank order due op : Nat) (write : Bool) (addr len : Nat) (data : Nat) (dest : Dest) : State :=
  { s with
    accs := s.accs ++ [{ ident := 2 * s.nextId + 1, op := op, core := 1536 * chip, rank := rank, order := order, due := due,
                         landAt := due, delayed := false, write := write, spans := [{ addr := addr, len := len, off := 0 }],
                         data := BitVec.ofNat 2048 data, capTag := none, dest := dest }],
    nextId := s.nextId + 1 }

/-- An access in the order of its making; no core's operation. -/
def unitAccess (s : State) (chip rank due : Nat) (write : Bool) (addr len : Nat) (data : Nat) (dest : Dest) : State :=
  orderedAccess s chip rank s.nextId due 0 write addr len data dest

/-- A write of a port into memory of its link die, in the place `order` of its program order (R436). -/
def portWrite (s : State) (p order due addr len data : Nat) : State :=
  orderedAccess s (p / 12) (linkRank p) order due 0 true addr len data .nowhere

/-! ## Flits (R419, R420) -/

/-- The header of a flit. -/
def flitHeader (sent pos kind hops : Nat) (atag : BitVec 16) : Nat :=
  pos % 32 + (sent % 2 ^ 19) <<< 5 + (hops % 16) <<< 24 + (kind % 16) <<< 28 + atag.toNat <<< 32

/-- The IV of a tag: departure ply, position, sending port. -/
def flitIv (sent pos port : Nat) : BitVec 96 := BitVec.ofNat 96 (sent % 2 ^ 64 + pos <<< 64 + (port % 12) <<< 72)

/-- Bytes 0 to 69 of a flit. -/
def flitBody (sent pos kind hops : Nat) (atag : BitVec 16) (pay : BitVec 512) : Nat :=
  flitHeader sent pos kind hops atag + pay.toNat <<< 48

/-- The CRC of 80 bytes of a flit: over bytes 0 to 69 and then 72 to 79 (R420). -/
def flitCrc (v : Nat) : Nat := crc16 0xFFFF (splitPieces 8 70 v ++ splitPieces 8 8 (v >>> 576))

/-- The 80 bytes of a flit as sent, and as they stand at the receiver (R419, R420). -/
def Flit.whole (f : Flit) : Nat :=
  let v := flitBody f.sent f.pos f.kind f.hops f.atag f.pay + f.tag.toNat <<< 576
  v + flitCrc v <<< 560
def Flit.received (f : Flit) : Nat := f.whole ^^^ f.mask.toNat

/-- Whether the CRC of a flit fails. -/
def Flit.crcFails (f : Flit) : Bool := flitCrc f.received != field f.received 575 560

/-- What a received flit says: kind, hops, tag, payload. -/
def Flit.kindSeen (f : Flit) : Nat := field f.received 31 28
def Flit.hopsSeen (f : Flit) : Nat := field f.received 27 24
def Flit.atagSeen (f : Flit) : BitVec 16 := BitVec.ofNat 16 (field f.received 47 32)
def Flit.paySeen (f : Flit) : BitVec 512 := BitVec.ofNat 512 (field f.received 559 48)

/-- The bits that the wire changes in a flit from a port, at a ply and position. -/
def wireMask (s : State) (p ply pos : Nat) : BitVec 640 :=
  s.inputs.foldl (fun m x => match x.2 with
    | .damage p' ply' pos' k => if p' = p && ply' = ply && pos' = pos then m ^^^ k else m
    | _ => m) 0

/-- The bits that the wire changes in the control word that reaches a port at a ply. -/
def wordMask (s : State) (p ply : Nat) : BitVec 224 :=
  s.inputs.foldl (fun m x => match x.2 with
    | .word p' ply' k => if p' = p && ply' = ply then m ^^^ k else m
    | _ => m) 0

/-- The 28 bytes of a control word (R421): repair kind and position, parity symbols, message, CCRC. -/
def ctrlWord (rep pos par : Nat) (msg : BitVec 128) : Nat :=
  let v := rep % 16 + (pos % 32) <<< 4 + (par % 2 ^ 64) <<< 16 + msg.toNat <<< 80
  v + crc16 0xFFFF (splitPieces 8 26 v) <<< 208

/-- A control word whose CCRC passes at the receiver, with what the wire has changed in it; the others lose both their fields. -/
def wordSeen (s : State) (p ply rep pos par : Nat) (msg : BitVec 128) : Option Nat :=
  let v := ctrlWord rep pos par msg ^^^ (wordMask s p ply).toNat
  if crc16 0xFFFF (splitPieces 8 26 v) = field v 223 208 then some v else none

/-- The parity symbols that a repair field brings to a port at a ply, if it comes as it was sent. A NAK and a parity of one ply
on one link both go. Log 113, DESIGN CHOICE. -/
def repSeen (s : State) (p ply rep pos par : Nat) : Option Nat :=
  (wordSeen s p ply rep pos par 0).bind (fun v => if field v 8 0 = rep + pos <<< 4 then some (field v 79 16) else none)

/-- The message that a control word brings to a port at a ply. -/
def messageSeen (s : State) (p ply : Nat) (msg : BitVec 128) : Option (BitVec 128) :=
  (wordSeen s p ply 0 0 0 msg).map (fun v => BitVec.ofNat 128 (v >>> 80))

/-- Whether a port transmits flits: up, or failed in its receiving direction; a locked port and a halted package do not. -/
def transmits (s : State) (p : Nat) : Bool :=
  ((s.port p).state = 1 || (s.port p).state = 2) && (s.chip (p / 12)).crit.isNone

/-- A flit departs from a port at this ply, with its charge (R415). -/
def transmit (s : State) (x : OutFlit) : State :=
  match peerPort s x.port with
  | none => s
  | some r =>
    if !transmits s x.port then s
    else
      let tag := gmac (s.port x.port).txKey (flitIv s.now x.pos x.port)
        (BitVec.ofNat 560 (flitBody s.now x.pos x.kind x.hops x.atag x.pay))
      let f : Flit := { ident := s.nextId, port := r, sent := s.now, pos := x.pos, kind := x.kind, hops := x.hops, atag := x.atag,
                        pay := x.pay, tag := tag, mask := wireMask s x.port s.now x.pos, phase := .flying, token := x.token }
      charge { s with flits := s.flits ++ [f], nextId := s.nextId + 1 } (x.port / 12) s.now x.atag 480

/-! ## Messages (R421, R431) -/

/-- The fields of a message. -/
def msgKind (b : BitVec 128) : Nat := field b.toNat 7 0
def msgArg8 (b : BitVec 128) : Nat := field b.toNat 15 8
def msgOrigin (b : BitVec 128) : Nat := field b.toNat 31 16
def msgArg32 (b : BitVec 128) : Nat := field b.toNat 63 32
def msgPly (b : BitVec 128) : Nat := field b.toNat 127 64

/-- A message from its fields. -/
def makeMsg (kind arg8 origin arg32 ply : Nat) : BitVec 128 :=
  BitVec.ofNat 128 (kind % 256 + (arg8 % 256) <<< 8 + (origin % 65536) <<< 16 + (arg32 % 2 ^ 32) <<< 32 + (ply % 2 ^ 64) <<< 64)

/-- A message from a port, or the chip's own (12), waits for the message field of a port. -/
def queueMsg (s : State) (p src ready : Nat) (down : Bool) (bits : BitVec 128) : State :=
  { s with outMsgs := s.outMsgs ++ [{ port := p, src := src, ready := ready, down := down, bits := bits }] }

/-- A message down the tree from a chip: to every port that is the parent end of a tree link. The root spaces its messages. -/
def sendDown (s : State) (chip ready : Nat) (bits : BitVec 128) : State :=
  let c := s.chip chip
  let at0 := if chip = s.root then (match c.lastDown with | some l => max ready (l + 64) | none => ready) else ready
  let s1 := if chip = s.root then s.setChip chip { c with lastDown := some at0 } else s
  ((portsOf s chip).filter (fun p => (s.port p).role = 1)).foldl (fun s p => queueMsg s p 12 at0 true bits) s1

/-- A message up the tree from a chip, over the port that is its child end; it came from a pod port, or is the chip's own. -/
def sendUp (s : State) (chip src ready : Nat) (bits : BitVec 128) : State :=
  match (portsOf s chip).find? (fun p => (s.port p).role = 2) with
  | some p => queueMsg s p src ready false bits
  | none => s

/-- A message is handed to a chip at a ply. Log 74, DEDUCED. -/
def receiveMsg (s : State) (chip ply : Nat) (port : Option Nat) (bits : BitVec 128) : State :=
  { s with inMsgs := s.inMsgs ++ [{ chip := chip, ply := ply, port := port, bits := bits }] }

/-- The next message of a kind that a chip has received. -/
def nextMsg (s : State) (kind : Nat) (here : InMsg → Bool) : Option InMsg :=
  s.inMsgs.find? (fun m => m.ply ≤ s.now && msgKind m.bits = kind && here m)
def dropMsg (s : State) (m : InMsg) : State := { s with inMsgs := dropFirst (fun x => x = m) s.inMsgs }

/-- The message that takes the message field of a port: a downward one first, upward ones in order of receipt, ties going to the
lower pod port (R431). Log 74, DEDUCED. -/
def nextOut (s : State) (p : Nat) : Option OutMsg :=
  let mine := s.outMsgs.filter (fun m => m.port = p && m.ready ≤ s.now)
  match minBy (fun m : OutMsg => m.ready) (mine.filter (fun m => m.down)) with
  | some m => some m
  | none => minBy (fun m : OutMsg => m.ready * 16 + m.src) mine

/-- The message that takes the message field of a port at this ply: one, in two consecutive control words (R421). A package halted
at CRIT transmits nothing (R412). -/
def sendWord (s : State) (p : Nat) : State :=
  let port := s.port p
  if s.now < port.busyTo || (s.chip (p / 12)).crit.isSome then s
  else match nextOut s p with
    | none => s
    | some m =>
      let s1 : State := { s with outMsgs := dropFirst (fun x => x = m) s.outMsgs }
      match peerPort s p with
      | none => s1
      | some r =>
        match linkW s r with
        | none => s1
        | some w =>
          let s2 := s1.setPort p { port with busyTo := s.now + 2 }
          { s2 with ctrls := s2.ctrls ++ [{ port := r, ply := s.now + w, second := false, bits := m.bits, seen := none }] }

/-- Whether a package had halted at CRIT at a ply: nothing leaves it then (R412). -/
def silent (s : State) (chip ply : Nat) : Bool := plyDue (s.chip chip).crit ply

/-- A copy of a message at its port (R421): the first good one is taken, and an identical one in the next word is dropped.
A message whose two copies are lost stays for its event (R424); a copy whose ply the sender's halt at CRIT met was never sent (R412). -/
def takeWord (s : State) (c : Ctrl) : State :=
  let seen := messageSeen s c.port c.ply c.bits
  let unsent := silent s ((senderPort s c.port).getD 0 / 12) (c.ply - (linkW s c.port).getD 0)
  let rest (d : Ctrl) : State := { s with ctrls := s.ctrls ++ [d] }
  let take (s : State) (b : BitVec 128) : State := receiveMsg s (c.port / 12) s.now (some c.port) b
  match c.second, seen with
  | false, none => rest { c with ply := c.ply + 1, second := true }
  | false, some b => take (rest { c with ply := c.ply + 1, second := true, seen := some b }) b
  | true, none => if c.seen.isSome || unsent then s else rest c
  | true, some b => if c.seen = some b || unsent then s else take s b

/-- Messages that reach their ports at this ply. -/
def takeWords (s : State) : State :=
  (s.ctrls.filter (fun c => c.ply ≤ s.now)).foldl takeWord { s with ctrls := s.ctrls.filter (fun c => s.now < c.ply) }

/-! ## Failures (R424, R425, R461) -/

/-- TVAL of a detection. -/
def detectionWord (p ply : Nat) : Word := BitVec.ofNat 64 (ply % 2 ^ 40 + (p / 12) <<< 40 + (p % 12) <<< 56)

/-- A fault notice goes up from a chip that has detected an event at a ply; the root receives its own (R462). -/
def sendNotice (s : State) (p ev t : Nat) : State :=
  let chip := p / 12
  let bits := makeMsg 4 ev chip ((s.chip chip).tag.toNat <<< 16 + (p % 12) <<< 12) t
  if chip = s.root then receiveMsg s chip (t + 1) none bits else sendUp s chip 12 (t + 1) bits

/-- A link is declared failed, or its port locked: PSTATE, PDET, the host event, the notice; the link delivers nothing.
Log 33, DESIGN CHOICE. Log 37, DEDUCED. -/
def failPort (s : State) (p sub : Nat) (locked : Bool) : State :=
  let v := s.port p
  if v.state = 2 || v.state = 3 then s
  else
    let det := detectionWord p s.now
    let s1 := s.setPort p { v with state := if locked then 3 else 2, raise := false, lockedAt := if locked then some s.now else v.lockedAt, lastSub := BitVec.ofNat 8 (if locked then p % 12 else sub), det := det }
    let s2 : State := { s1 with flits := s1.flits.filter (fun f => f.port != p) }
    let s3 := s2.post { chip := p / 12, src := 0x10 + p % 12, code := (Config.eventCode (0x10 + p % 12)).toNat,
                        data := det.setWidth 320 }
    sendNotice s3 p (if locked then 0x20 else sub) s.now

/-- A tag failure is detected (R425). -/
def failTag (s : State) (p : Nat) : State :=
  let v := s.port p
  let s1 := s.setPort p { v with tfail := v.tfail + 1 }
  failPort s1 p 0x05 (v.tfail != 0)

/-! ## Claims (R422, R436, R445) -/

/-- The kinds that a claim accepts. -/
def ClaimUse.accepts (u : ClaimUse) (kind : Nat) : Bool :=
  match u with
  | .land _ => kind ≤ 1
  | .fwd _ => true
  | .red _ _ => kind = 0
  | .guard _ => kind = 1
  | .request _ _ => kind = 2 || kind = 4
  | .reply _ _ => kind = 3 || kind = 4

/-- The place of an arrival ply and position in a claim. -/
def Claim.place (c : Claim) (ply pos : Nat) : Option Nat :=
  let k := (ply - c.ply) * 32 + pos
  if c.ply ≤ ply && c.pos ≤ k && k - c.pos < c.n then some (k - c.pos) else none

/-- The ply from which an engine issues nothing: for a pause, a halt, or its own stop (R434, R447, R464). -/
def stopPly (s : State) (p : Nat) : Option Nat :=
  let e := s.engine p
  let c := s.chip (p / 12)
  let h := match c.recovery with | some r => [r.t + 12800] | none => []
  minBy id (e.stopAt.toList ++ (if e.run = 1 then c.preempt.toList else []) ++ h.filter (fun x => s.now ≤ x))

/-- Whether the instruction of a claim has issued or will issue. -/
def Claim.live (s : State) (c : Claim) : Bool :=
  c.issued || (match stopPly s c.port with | some x => c.ply < x | none => true)

/-- The claim on a position of a receiver at an arrival ply, with the place in it. -/
def claimAt (s : State) (p ply pos : Nat) : Option (Claim × Nat) :=
  s.claims.findSome? (fun c => if c.port = p && c.live s then (c.place ply pos).map (fun k => (c, k)) else none)

/-- P where a flit that arrives unclaimed at a ply is kept (R447). -/
def keptFrom (s : State) (p ply : Nat) : Option Nat :=
  let e := s.engine p
  if e.run = 2 then (if e.pausedAt ≤ ply then some e.pausedAt else none)
  else if e.run = 1 then
    (match e.stopAt, (s.chip (p / 12)).preempt with
     | some x, _ => if e.pausedAt = x && x ≤ ply then some x else none
     | none, some x => if x ≤ ply then some x else none
     | none, none => none)
  else none

/-! ## Checks (R422, R423) -/

def State.setFlit (s : State) (f : Flit) : State :=
  { s with flits := s.flits.map (fun x => if x.ident = f.ident then f else x) }
def State.dropFlit (s : State) (f : Flit) : State := { s with flits := s.flits.filter (fun x => x.ident != f.ident) }

/-- A flit is discarded at an unclaimed position, and counted. -/
def discardFlit (s : State) (f : Flit) : State :=
  let v := s.port f.port
  (s.dropFlit f).setPort f.port { v with uncl := v.uncl + 1 }

/-- Whether a tag passes under the receiver's key. -/
def tagPasses (s : State) (f : Flit) : Bool :=
  let t := (senderPort s f.port).getD 0
  gmac (s.port f.port).rxKey (flitIv f.sent f.pos t) (BitVec.ofNat 560 f.received) = BitVec.ofNat 64 (field f.received 639 576)

/-- Header and tag of a flit whose CRC passes: its phase. -/
def headerAndTag (s : State) (f : Flit) (c : Claim) : FlitPhase :=
  if field f.received 23 0 != field (flitHeader f.sent f.pos 0 0 0) 23 0 || !c.use.accepts f.kindSeen then .misplaced
  else if tagPasses s f then .good
  else .forged

/-- The check of a flit at s + W. -/
def checkFlit (s : State) (f : Flit) (w : Nat) : State :=
  let t := f.sent + wireHd w
  if (s.port f.port).state != 1 then s.dropFlit f
  else match claimAt s f.port t f.pos with
    | none =>
      if (keptFrom s f.port t).isSome then s.setFlit { f with phase := .kept } else discardFlit s f
    | some (c, _) =>
      if f.crcFails then
        if s.flits.any (fun x => x.port = f.port && x.sent = f.sent && x.ident != f.ident && x.phase = .damaged) then
          failPort s f.port 0x02 false
        else s.setFlit { f with phase := .damaged }
      else
        let ph := headerAndTag s f c
        if ph = .misplaced then failPort s f.port 0x04 false else s.setFlit { f with phase := ph }

/-- The flit of a receiving port whose check is due. -/
def checkDue (s : State) (p : Nat) : Option (Flit × Nat) :=
  match linkW s p with
  | some w => (s.flits.find? (fun f => f.port = p && f.phase = .flying && f.sent + w ≤ s.now)).map (fun f => (f, w))
  | none => none

/-- The NAK of a damaged flit has reached the sender, or was lost with its control word; the parity follows, with its charge
(R415, R423). Log 59, DEDUCED. -/
def takeNak (s : State) (f : Flit) (w : Nat) : State :=
  let t := (senderPort s f.port).getD 0
  if (repSeen s t (f.sent + 2 * w + 1) 1 f.pos 0).isNone || silent s (f.port / 12) (f.sent + w + 1) ||
      silent s (t / 12) (f.sent + 2 * w + 2) then s.setFlit { f with phase := .lost }
  else charge (s.setFlit { f with phase := .asked }) (t / 12) (s.now + 1) f.atag 48

/-- The parity symbols of a flit, as the PAR field packs them: the highest degree first (R421, R423). Log 51, DEDUCED. -/
def Flit.parity (f : Flit) : Nat := joinPieces 8 (rsParity (splitPieces 8 80 f.whole))

/-- A damaged flit as the decoder corrects it with the parity symbols that came, if it can (R423). Log 51, DEDUCED. -/
def Flit.repaired (f : Flit) (par : Nat) : Option Flit :=
  (rsErrors (splitPieces 8 80 f.received ++ splitPieces 8 8 par)).map (fun e =>
    { f with mask := f.mask ^^^ BitVec.ofNat 640 (joinPieces 8 (e.take 80)) })

/-- The parity of a damaged flit arrives, unless its sender halted at CRIT before it left (R412), and the decoder corrects the flit; CRC,
header and tag follow. -/
def takeParity (s : State) (f : Flit) (w : Nat) : State :=
  if silent s ((senderPort s f.port).getD 0 / 12) (f.sent + 2 * w + 2) then s.setFlit { f with phase := .lost }
  else match (repSeen s f.port (f.sent + 3 * w + 2) 2 f.pos f.parity).bind f.repaired with
  | none => s.setFlit { f with phase := .lost }
  | some g =>
    if g.crcFails then s.setFlit { f with phase := .lost }
    else match claimAt s f.port (f.sent + wireHd w) f.pos with
      | some (c, _) =>
        let v := s.port f.port
        (s.setFlit { g with phase := headerAndTag s g c }).setPort f.port { v with repaired := v.repaired + 1 }
      | none => discardFlit s g

/-- Damaged flits whose NAK, or whose parity, is due. The sender is told of flits by their receiving port. -/
def nakDue (s : State) (p : Nat) : Option (Flit × Nat) :=
  s.flits.findSome? (fun f => match linkW s f.port with
    | some w => if senderPort s f.port = some p && f.phase = .damaged && f.sent + 2 * w + 1 ≤ s.now then some (f, w) else none
    | none => none)
def parityDue (s : State) (p : Nat) : Option (Flit × Nat) :=
  match linkW s p with
  | some w => (s.flits.find? (fun f => f.port = p && f.phase = .asked && f.sent + 3 * w + 2 ≤ s.now)).map (fun f => (f, w))
  | none => none

/-! ## Missing flits (R422, R424) -/

/-- The positions that issued claims of a port name at a ply. -/
def claimedNow (s : State) (p : Nat) : List Nat :=
  let mine := s.claims.filter (fun c => c.port = p && c.issued && c.ply ≤ s.now)
  if mine.isEmpty then [] else (rangeFrom 0 32).filter (fun j => mine.any (fun c => (c.place s.now j).isSome))

/-- The subcode of what a port finds wrong with the flits of its delivery ply, the lowest of them. -/
def arrivalFault (s : State) (p : Nat) : Option Nat :=
  let w := (linkW s p).getD 0
  let fs := s.flits.filter (fun f => f.port = p && f.sent + wireHd w = s.now)
  let st := (s.port p).state
  if !(st = 0 || st = 1) then none
  else
    minBy id ((claimedNow s p).filterMap (fun j =>
      match fs.find? (fun f => f.pos = j) with
      | none => some 0x00
      | some f => match f.phase with
        | .good => none
        | .misplaced => some 0x04
        | .forged => some 0x05
        | .delivered => none
        | .flying => some 0x00
        | .kept => some 0x00
        | .damaged => some 0x01
        | .asked => some 0x01
        | .lost => some 0x01))

/-! ## The exchange of a guard interval (R427 to R430) -/

/-- The guard interval that a ply lies in or follows. -/
def guardOf (ply : Nat) : Nat := ply / 65536 * 65536

/-- Whether a port takes part in exchanges: its own PW is legal, and its chip is in local service or beyond (R429). -/
def exchanges (s : State) (p : Nat) : Bool := (s.port p).legal && 2 ≤ (s.chip (p / 12)).bstate.toNat

/-- What a port does for the guard interval at this ply: its message at G, re-centring at G + W, coming up at G + 95. A port that made
no exchange at G does nothing more in the interval. -/
def guardDue (s : State) (p : Nat) : Bool :=
  let v := s.port p
  let k := s.now % 65536
  65536 ≤ s.now && exchanges s p && v.guardStep < s.now &&
    (k = 0 || (guardOf s.now ≤ v.guardStep && (k = v.w.toNat || k = 95)))

/-- A port at the end of a guard interval, or when its exchange of it passes later: a port that is down comes up, a failed one when
management brings it up, a locked one when it has been attested again; none in local service (R417, R424, R426, R487).
Log 57, DEDUCED. -/
def comeUp (s : State) (p g : Nat) : State :=
  let v := s.port p
  let asked : Bool := v.state = 0 || (v.state = 2 && v.raise) || (v.state = 3 && v.tfail = 0)
  if v.passed = some g && asked && 3 ≤ (s.chip (p / 12)).bstate.toNat then s.setPort p { v with state := 1, raise := false } else s

/-- One step of a guard interval. Log 58, DEDUCED. -/
def guardStepOf (s : State) (p : Nat) : State :=
  let v : Port := { s.port p with guardStep := s.now }
  let g := guardOf s.now
  if s.now = g then queueMsg (s.setPort p { v with heard := none }) p 12 g true (makeMsg 7 0 (p / 12) 0 g)
  else if s.now = g + 95 then comeUp (s.setPort p v) p g
  else s.setPort p { v with dist := 32, delayLine := v.w.toNat - (v.tbdel.toNat + 255) / 256 - 1 }

/-- Half of a difference of times, rounded toward zero. -/
def halfTime (x : Int) : Int := x.tdiv 2

/-- The far end's exchange message arrives, and is timed; its receipt time goes back at G + W + 2. Log 58, DEDUCED. -/
def timeExchange (s : State) (p : Nat) (arrival : BitVec 72) : State :=
  let g := guardOf s.now
  let v := s.port p
  queueMsg (s.setPort p { v with heard := some (arrival.toNat, g) }) p 12 (g + v.w.toNat + 2) true
    (makeMsg 8 (arrival.toNat % 256) (p / 12) 0 (arrival.toNat / 256))

/-- The receipt time arrives: delay and offset of the link, or failure 0x06; the child end owes a phase shift. -/
def timeReceipt (s : State) (p : Nat) (m : InMsg) : State :=
  let v := s.port p
  match v.heard with
  | none => s
  | some (t2, g) =>
    let t1 : Int := 256 * g
    let t4 : Int := 256 * msgPly m.bits + msgArg8 m.bits
    let delta := halfTime (((t2 : Int) - t1) + (t4 - t1))
    let theta := halfTime (((t2 : Int) - t1) - (t4 - t1))
    if 64 ≤ theta.natAbs || ((v.w.toNat : Int) - 2) * 256 < delta then
      failPort (s.setPort p { v with failed := some g }) p 0x06 false
    else
      let s1 := s.setPort p { v with
        tbdel := toBits 64 delta, tboff := toBits 64 theta, passed := some g,
        shifts := if v.role = 2 then v.shifts ++ [(g + 65536 + 95, -theta)] else v.shifts }
      if g + 95 < s.now then comeUp s1 p g else s1

/-! ## Meanings -/

/-- NAK_RECEIPT (R423). A NAK reaching the sender makes it send the flit's parity symbols. -/
def execNakReceipt (port : Nat) (s : State) : Host.Outcome State Fault Refusal :=
  match nakDue s port with
  | some (f, w) => finishSame s (takeNak s f w)
  | none => .next s

/-- PARITY_ARRIVAL (R423). Parity arrives, the receiver decodes and the repaired flit is checked and delivered. -/
def execParityArrival (port : Nat) (s : State) : Host.Outcome State Fault Refusal :=
  match parityDue s port with
  | some (f, w) => finishSame s (takeParity s f w)
  | none => .next s

/-- MISSING_FLIT_DETECTION (R424). At s + HD, no flit or a failed repair at a claimed position declares the link failed. -/
def execMissingFlitDetection (port : Nat) (s : State) : Host.Outcome State Fault Refusal :=
  match arrivalFault s port with
  | some sub => finishSame s (if sub = 0x05 then failTag s port else failPort s port sub false)
  | none => .next s

/-- ELASTIC_BUFFER_DRIFT (R427). The elastic buffer leaving its range declares failure 0x03. -/
def execElasticBufferDrift (port : Nat) (distance : Nat) (s : State) : Host.Outcome State Fault Refusal :=
  let s1 := s.setPort port { s.port port with dist := distance }
  finishSame s (if distance < 16 || 48 < distance then failPort s1 port 0x03 false else s1)

/-- GUARD_INTERVAL (R429). At each guard interval every port sends its exchange message and re-centres its elastic buffer. -/
def execGuardInterval (port : Nat) (s : State) : Host.Outcome State Fault Refusal :=
  if guardDue s port then finishSame s (guardStepOf s port) else .next s

/-- EXCHANGE_SEND_TIME (R430). Message kind 7 carrying the sender's send time is received and timed. -/
def execExchangeSendTime (port : Nat) (arrival : BitVec 72) (s : State) : Host.Outcome State Fault Refusal :=
  match nextMsg s 7 (fun m => m.port = some port) with
  | some m => finishSame s { timeExchange (dropMsg s m) port arrival with freeCtr := s.freeCtr + 1 }
  | none => .next s

/-- EXCHANGE_RECEIPT_TIME (R430). Message kind 8 lets the child compute delta and theta, or declare failure 0x06. -/
def execExchangeReceiptTime (port : Nat) (s : State) : Host.Outcome State Fault Refusal :=
  match nextMsg s 8 (fun m => m.port = some port) with
  | some m => finishSame s (timeReceipt (dropMsg s m) port m)
  | none => .next s

/-- PHASE_CORRECTION (R430). The child shifts its clock phase by -theta at the end of the next guard interval. -/
def execPhaseCorrection (port : Nat) (s : State) : Host.Outcome State Fault Refusal :=
  match (s.port port).shifts.find? (fun x => x.1 ≤ s.now) with
  | some x =>
    let v := s.port port
    let s1 := s.setPort port { v with shifts := dropFirst (fun y => y = x) v.shifts }
    let c := s1.chip (port / 12)
    finishSame s (s1.setChip (port / 12) { c with phase := c.phase + x.2 })
  | none => .next s

/-- DAMAGED_MESSAGE (R424). Both copies of a control-word message fail their CCRC and the link is declared failed with subcode 0x07. -/
def execDamagedMessage (port : Nat) (s : State) : Host.Outcome State Fault Refusal :=
  match s.ctrls.find? (fun c => c.port = port && c.second && c.ply ≤ s.now) with
  | some c => finishSame s (failPort { s with ctrls := dropFirst (fun x => x = c) s.ctrls } port 0x07 false)
  | none => .next s

/-- Whether the package of a port and those at the far ends of its links have been attested, after the last lock of the port if it has
been locked (R426, R488). Log 114, DEDUCED. -/
def bothAttested (s : State) (p : Nat) : Bool :=
  (p :: (peerPort s p).toList ++ (senderPort s p).toList).all (fun q => match (s.chip (q / 12)).attested with
    | some t => (match (s.port p).lockedAt with | some k => decide (k < t) | none => true)
    | none => false)

/-- LINK_KEY_INSTALL (R426). Management writes the write-only key registers of a port, installing new link keys and clearing TFAIL so that a locked port can come up again. Both ends have been attested (R488). -/
def execLinkKeyInstall (port : Nat) (tx : BitVec 256) (rx : BitVec 256) (s : State) : Host.Outcome State Fault Refusal :=
  let v := s.port port
  finishSame s (if bothAttested s port then s.setPort port { v with txKey := tx, rxKey := rx, tfail := 0, raise := true } else s)

end Sys2Proof.Machine
end

