-- ==== Sys2Proof/Machine/Link.lean ====
section
/-! DEFINITION. Link engines: reading and issuing instructions, transfers, claims and deliveries, request slots, pause and
resume (R433 to R449). -/

namespace Sys2Proof.Machine

/-! ## Reading a link program (R433 to R435, R441) -/

/-- Whether a pod port is connected (R416). -/
def connected (s : State) (q : Nat) : Bool := q ≤ 11 && 1 < portRing s q

/-- Memory as a read of a link program at this ply finds it: with the stores into window 6 that have yet to perform at this ply (R433). -/
def progMem (s : State) : List Host.Cell :=
  let due := s.accs.filter (fun x => x.write && x.dueNow s && x.spans.any (fun p => addrWin p.addr = 6))
  (sortBy (fun a b => a.rank < b.rank || (a.rank = b.rank && a.order ≤ b.order)) due).foldl (fun m x =>
    let v := (x.merged s (readNat m ((x.spans.map Span.addr).headD 0) 1)).data.toNat
    x.spans.foldl (fun m p => if addrWin p.addr = 6 then writeBytes m (bytesOf p.addr (v >>> (8 * p.off)) p.len) else m) m) s.mem

/-- The instruction at an index of a port's program, in memory as its read finds it. -/
def linkInstr (m : List Host.Cell) (p k : Nat) : Instr := decodeLink (readNat m (progAddr p (16 * (k % 16384))) 16)

/-- Whether an instruction issues at no ply. -/
def isLoop (i : Instr) : Bool :=
  match i with
  | .linkLoop _ _ => true
  | .endl => true
  | _ => false

/-- The place after the instruction at a place; none where the loop stack is too deep or empty (R441). -/
def placeAfter (c : LinkPlace) (i : Instr) : Option LinkPlace :=
  let k := (c.index + 1) % 16384
  match i with
  | .linkLoop count period =>
    if 4 ≤ c.loops.length then none
    else some { c with index := k, loops := { count := count.toNat + 1, start := k, iter := 0, period := period.toNat,
                                               outer := c.base } :: c.loops }
  | .endl =>
    match c.loops with
    | [] => none
    | e :: es =>
      if 1 < e.count then
        some { index := e.start, base := e.outer + (e.iter + 1) * e.period,
               loops := { e with count := e.count - 1, iter := e.iter + 1 } :: es }
      else some { index := k, base := e.outer, loops := es }
  | _ => some { c with index := k }

/-- Whether an engine reads nothing after an instruction. -/
def endsProgram (i : Instr) : Bool :=
  match i with
  | .halt _ => true
  | .reservedOpc _ => true
  | _ => false

/-- The subcode of an instruction with a field outside its limits (R435, R436, R443, R444). -/
def linkIllegal (s : State) (p : Nat) (i : Instr) : Option Nat :=
  let range (buf : BitVec 19) (n : BitVec 11) : Option Nat := if 524288 < buf.toNat + n.toNat + 1 then some 0x14 else none
  match i with
  | .send _ buf n _ => range buf n
  | .sendSig _ buf n _ => range buf n
  | .land _ buf n _ => range buf n
  | .redAddF32 _ buf n _ => range buf n
  | .redAddBf16 _ buf n _ => range buf n
  | .redAddI32 _ buf n _ => range buf n
  | .redMaxF32 _ buf n _ => range buf n
  | .redMaxBf16 _ buf n _ => range buf n
  | .redMaxI32 _ buf n _ => range buf n
  | .fill _ buf n _ => range buf n
  | .delv _ buf n _ => range buf n
  | .fwd _ _ _ oq => if connected s oq.toNat && oq.toNat != p % 12 then none else some 0x11
  | .slot _ _ _ _ _ _ rport => if connected s rport.toNat then none else some 0x11
  | .serve _ rdep rport => if connected s rport.toNat && 60 ≤ rdep.toNat then none else some 0x11
  | .reservedOpc _ => some 0x11
  | _ => none

/-- A claim of an instruction that has been read. -/
def planClaim (s : State) (p order ply pos n : Nat) (use : ClaimUse) : State :=
  { s with claims := s.claims ++ [{ order := order, port := p, ply := ply, pos := pos, n := n, use := use, issued := false }] }

/-- A transfer of a SEND that has been read. -/
def planSend (s : State) (p order ply : Nat) (buf : BitVec 19) (n : BitVec 11) (pos : BitVec 5) (kind : Nat) : State :=
  { s with sends := s.sends ++ [{ ident := order, port := p, ply := ply, pos := pos.toNat, n := n.toNat + 1, kind := kind,
                                  buf := buf.toNat, issued := false, data := [] }] }

/-- A request slot that has been read: its logical core and chip in physical numbers (R443, R445). -/
def planSlot (s : State) (p d : Nat) (core : BitVec 11) (chip : BitVec 16) (arr rdep rarr : BitVec 18) (rport : BitVec 4) : State :=
  let m := s.pmap (p / 12)
  { s with slots := s.slots ++ [{
      port := p, rport := 12 * (p / 12) + rport.toNat,
      core := 1536 * (p / 12) + m.physCore (m.logicalChip (p / 12)) core.toNat, chip := (m.chip chip.toNat).1,
      dep := d, arr := d + arr.toNat, rdep := d + rdep.toNat, rarr := d + rarr.toNat, taken := false }] }

/-- What an instruction that has been read, and that issues at a ply, announces: claims, departures, a request slot. -/
def planLink (s : State) (p order ply : Nat) (i : Instr) : State :=
  if (linkIllegal s p i).isSome then s
  else
    let red (op : Nat) (buf : BitVec 19) (n : BitVec 11) (pos : BitVec 5) : State :=
      planClaim s p order ply pos.toNat (n.toNat + 1) (.red op buf.toNat)
    match i with
    | .send _ buf n pos => planSend s p order ply buf n pos 0
    | .sendSig _ buf n pos => planSend s p order ply buf n pos 1
    | .land _ buf n pos => planClaim s p order ply pos.toNat (n.toNat + 1) (.land buf.toNat)
    | .fwd _ n pos oq => planClaim s p order ply pos.toNat (n.toNat + 1) (.fwd oq.toNat)
    | .redAddF32 _ buf n pos => red 0 buf n pos
    | .redAddBf16 _ buf n pos => red 1 buf n pos
    | .redAddI32 _ buf n pos => red 2 buf n pos
    | .redMaxF32 _ buf n pos => red 3 buf n pos
    | .redMaxBf16 _ buf n pos => red 4 buf n pos
    | .redMaxI32 _ buf n pos => red 5 buf n pos
    | .guard _ buf pos => planClaim s p order ply pos.toNat 1 (.guard buf.toNat)
    | .serve _ rdep rport =>
      planClaim s p order ply 27 5 (.request (ply + rdep.toNat) (12 * (p / 12) + rport.toNat))
    | .slot _ core chip arr rdep rarr rport => planSlot s p ply core chip arr rdep rarr rport
    | _ => s

/-- The stamp of an instruction. -/
def linkStamp (m : List Host.Cell) (p k : Nat) : Nat := readNat m (progAddr p (16 * (k % 16384))) 4

/-- An engine reads its next instruction, if that issues no later than ply `lim`. Log 63, DEDUCED. -/
def readLink (s : State) (p lim : Nat) : Option State :=
  let e := s.engine p
  if e.readAll then none
  else
    let m := progMem s
    let i := linkInstr m p e.cursor.index
    let ply := if isLoop i then e.lastPly else e.cursor.base + linkStamp m p e.cursor.index
    if lim < ply then none
    else
      let bad := !isLoop i && (ply < e.lastPly || (ply = e.lastPly && 8 ≤ e.lastCount))
      let dst := (placeAfter e.cursor i).getD e.cursor
      let entry : LinkEntry := { ident := s.nextId, ply := ply, index := e.cursor.index, instr := i, next := dst, broken := bad }
      let e1 : LinkEngine := { e with
        ahead := e.ahead ++ [entry], cursor := dst, lastPly := ply,
        lastCount := if isLoop i then e.lastCount else if ply = e.lastPly then e.lastCount + 1 else 1,
        readAll := bad || endsProgram i || (placeAfter e.cursor i).isNone }
      let s1 : State := { s.setEngine p e1 with nextId := s.nextId + 1 }
      some (if bad then s1 else planLink s1 p s.nextId ply i)

/-- An engine reads on, at most so many instructions. Log 63, DEDUCED. -/
def readAhead : Nat → State → Nat → Nat → State
  | 0, s, _, _ => s
  | n + 1, s, p, lim =>
    match readLink s p lim with
    | some t => readAhead n t p lim
    | none => s

/-- Instructions that an engine reads in one ply, at most. -/
def readLimit : Nat := 65536

/-- An engine reads what is due to be read at this ply: the instructions that issue up to 1,024 plies on (R433). Log 63, DEDUCED. -/
def readDue (s : State) (p : Nat) : State := readAhead readLimit s p (s.now + 1024)

/-! ## Engine faults (R446) -/

/-- What an engine has announced and not issued is void. Log 65, DEDUCED. -/
def dropPlanned (s : State) (p : Nat) : State :=
  { s with claims := s.claims.filter (fun c => c.port != p || c.issued), sends := s.sends.filter (fun r => r.port != p || r.issued),
           slots := s.slots.filter (fun x => x.port != p) }

/-- An engine stops at this ply: it reads and issues nothing more, and waits for no Q. Log 65, DEDUCED. -/
def stopEngine (s : State) (p : Nat) (run : BitVec 2) : State :=
  let e := s.engine p
  (dropPlanned s p).setEngine p { e with run := run, ahead := [], readAll := true, stopAt := some s.now, idleAt := none, armed := false }

/-- A link-engine fault: the engine stops and the port is declared failed. -/
def engineFault (s : State) (p sub : Nat) : State :=
  let s1 := stopEngine s p 3
  failPort (s1.setEngine p { s1.engine p with fcode := BitVec.ofNat 8 sub }) p sub false

/-! ## Issue (R434) -/

/-- The instruction that an engine issues now. -/
def headDue (s : State) (p : Nat) : Option LinkEntry :=
  let e := s.engine p
  match e.ahead with
  | x :: _ => if e.run = 1 && x.ply ≤ s.now && (match stopPly s p with | some h => s.now < h | none => true) then some x else none
  | [] => none

/-- The first port whose engine issues an instruction now. -/
def issuingPort (s : State) (i : Instr) : Option (Nat × LinkEntry) :=
  s.ports.findSome? (fun e => (headDue s e.1).bind (fun x => if x.instr = i then some (e.1, x) else none))

/-- The issue of the instruction at the head of an engine: `f` gives the state after it, or the subcode of its fault.
Log 66, DEDUCED. -/
def issueEntry (s : State) (p : Nat) (x : LinkEntry) (f : State → Nat → LinkEntry → Except Nat State) : State :=
  let e := s.engine p
  let s1 := s.setEngine p { e with ahead := e.ahead.drop 1, at0 := x.next, lpc := BitVec.ofNat 14 x.next.index }
  match (if x.broken then Except.error 0x10 else match linkIllegal s p x.instr with
    | some sub => Except.error sub
    | none => f s1 p x) with
  | .ok t => t
  | .error sub => engineFault s p sub

/-- The issue of an instruction at the first port where it is due. -/
def linkStep (s : State) (i : Instr) (f : State → Nat → LinkEntry → Except Nat State) : Host.Outcome State Fault Refusal :=
  match issuingPort s i with
  | none => .next s
  | some (p, x) => finishSame s (issueEntry s p x f)

/-- LOOP and ENDL (R441) from the state `s` before their issue to `t`: on a stack that is too deep or empty, fault 0x15. -/
def turnLoop (s t : State) (p : Nat) (x : LinkEntry) : Except Nat State :=
  if (placeAfter (s.engine p).at0 x.instr).isNone then .error 0x15 else .ok t

/-- LOOPs and ENDLs that stand first in a program act at the start ply, as soon as they are read (R441), at most so many. -/
def actLoops : Nat → State → Nat → State
  | 0, s, _ => s
  | n + 1, s, p =>
    match headDue s p with
    | some x => if isLoop x.instr then actLoops n (issueEntry s p x (turnLoop s)) p else s
    | none => s

/-- The first element that meets `q`, changed by `f`. -/
def changeFirst {α : Type} (q : α → Bool) (f : α → α) : List α → List α
  | [] => []
  | x :: xs => if q x then f x :: xs else x :: changeFirst q f xs

/-- The claim of an instruction is issued with it. -/
def issueClaim (s : State) (p : Nat) (x : LinkEntry) : State :=
  { s with claims := changeFirst (fun c => c.port = p && c.order = x.ident) (fun c => { c with issued := true }) s.claims }

/-- The departures of a SEND are issued with it. -/
def issueSend (s : State) (p : Nat) (x : LinkEntry) : State :=
  { s with sends := changeFirst (fun r => r.port = p && r.ident = x.ident) (fun r => { r with issued := true }) s.sends }

/-! ## FILL, DELV and MARK (R439, R440) -/

/-- The home of a range of a compute die of a package; none where a rule of R439 or R440 fails. -/
def dieRange (s : State) (p : Nat) (addr : BitVec 48) (len align : Nat) (wins : List Nat) : Option Nat :=
  let chip := p / 12
  let m := s.pmap chip
  if addr.toNat % align != 0 || !wins.contains (field addr.toNat 36 32) then none
  else match resolveOn m (m.logicalChip chip) chip addr.toNat len with
    | .ok h => some h
    | .error _ => none

/-- The granules of a FILL or a DELV, each an access of `read` made at its ply and written on later. -/
def moveGranules (s : State) (p order op n lag : Nat) (src : Nat → Nat) (dest : Nat → Dest) : State :=
  (rangeFrom 0 n).foldl (fun s j =>
    orderedAccess s (p / 12) (linkRank p) order (s.now + j / 4 + lag) op false (src j) 64 0 (dest j)) s

/-- The windows of a compute die that FILL and DELV reach. -/
def dieWindows : List Nat := [0, 2, 3, 4, 7]

/-- FILL. -/
def fillStep (s : State) (p : Nat) (x : LinkEntry) (buf : BitVec 19) (n : BitVec 11) (addr : BitVec 48) : Except Nat State :=
  match dieRange s p addr (64 * (n.toNat + 1)) 64 dieWindows with
  | some h =>
    .ok (moveGranules s p x.ident 0 (n.toNat + 1) 34 (fun j => h + 64 * j) (fun j => .forward (bufAddr p (buf.toNat + j)) 30))
  | none => .error 0x14

/-- DELV. -/
def delvStep (s : State) (p : Nat) (x : LinkEntry) (buf : BitVec 19) (n : BitVec 11) (addr : BitVec 48) : Except Nat State :=
  match dieRange s p addr (64 * (n.toNat + 1)) 64 dieWindows with
  | some h =>
    let e := s.engine p
    let op := 2 * s.nextId + 1
    if s.now < e.guardEnd then .error 0x14
    else .ok (moveGranules ({ s.setEngine p { e with delvs := e.delvs.filter (fun o => s.accs.any (fun a => a.op = o)) ++ [op] } with
                                nextId := s.nextId + 1 }) p x.ident op (n.toNat + 1) 0
                (fun j => bufAddr p (buf.toNat + j)) (fun j => .forward (h + 64 * j) 34))
  | none => .error 0x14

/-- MARK. -/
def markStep (s : State) (p : Nat) (buf : BitVec 19) (addr : BitVec 48) : Except Nat State :=
  match dieRange s p addr 8 8 [0, 7] with
  | some h =>
    if s.now < (s.engine p).guardEnd then .error 0x14
    else .ok { s with marks := s.marks ++ [{ port := p, ply := s.now + 30, addr := h,
                                             value := BitVec.ofNat 64 (readNat s.mem (bufAddr p buf.toNat) 8),
                                             ops := (s.engine p).delvs }] }
  | none => .error 0x14

/-- The adds of MARKs whose ply has come and whose DELVs have performed (R440). -/
def startMarks (s : State) : State :=
  let due (m : MarkRun) : Bool := m.ply ≤ s.now && !s.accs.any (fun a => m.ops.contains a.op)
  (s.marks.filter due).foldl (fun s m =>
    { s with
      atoms := s.atoms ++ [{ ident := 2 * s.nextId + 1, op := 0, core := 1536 * (m.port / 12), rank := linkRank m.port, order := s.nextId,
                             due := s.now, landAt := s.now, addr := m.addr, kind := .add, x := m.value, y := 0, dest := none }],
      nextId := s.nextId + 1 }) { s with marks := s.marks.filter (fun m => !due m) }

/-! ## CKPT and HALT (R442, R466) -/

/-- The recovery registers of a chip after a CKPT of its job. -/
def Chip.checkpoint (c : Chip) (stage : BitVec 16) (ply : Nat) : Chip :=
  if stage = c.curStage then c
  else { c with prvStage := c.curStage, rcPrv := c.rcCur, prvStart := c.curStart, curStage := stage, rcCur := BitVec.ofNat 64 ply,
                curStart := ply }

/-- CKPT. The restart point is kept with the start ply of its stage. Log 67, DEDUCED. -/
def ckptStep (s : State) (p : Nat) (x : LinkEntry) (stage : BitVec 16) : State :=
  let c := (s.chip (p / 12)).checkpoint stage s.now
  let e := s.engine p
  let points := (stage.toNat, c.curStart, x.next) :: (e.points.filter (fun y => y.1 != stage.toNat)).take 1
  (s.setEngine p { e with stage := stage, points := points }).setChip (p / 12) c

/-! ## Request slots (R443 to R445) -/

/-- A request that leaves in a slot: the access, its landing, its five payloads. -/
structure Request5 where
  ident : Nat
  core : Nat
  order : Nat
  pays : List Nat

/-- The first payload of a request. Log 60, DEDUCED. -/
def requestHead (addr kind fn size core x y mask stride : Nat) : Nat :=
  addr % 2 ^ 64 + kind <<< 64 + fn <<< 72 + size <<< 80 + core <<< 96 + (x % 2 ^ 64) <<< 128 + (y % 2 ^ 64) <<< 192 +
    mask <<< 256 + stride <<< 320

/-- The operation code of a request. -/
def requestKind (a : Access) : Nat :=
  if a.write then (if a.capTag.isSome then 5 else if a.spans.any (fun p => addrWin p.addr = 1 && addrOff p.addr < 0x18000) then 6 else 2)
  else match a.dest with
    | .cap _ => 4
    | _ => 1

/-- The function of an atomic: its major less 0x18. -/
def AtomOp.code (k : AtomOp) : Nat :=
  match k with
  | .swap => 0
  | .cas => 1
  | .add => 2
  | .min => 3
  | .max => 4
  | .and => 5
  | .or => 6
  | .xor => 7
  | .barrier => 2

/-- The request that took a slot. Log 60, DEDUCED. -/
def slotRequest (s : State) (x : ReqSlot) : Option Request5 :=
  if !x.taken then none
  else match s.accs.find? (fun a => a.ident = x.ident) with
    | some a =>
      let size := (a.spans.map Span.len).foldl (fun x y => x + y) 0
      let head := requestHead ((a.spans.map Span.addr).headD 0) (requestKind a) 0 size a.core 0 0 a.mask.toNat a.stride.toNat
      let data := if a.write then a.data.toNat + (if a.capTag = some true then 2 ^ 128 else 0) else 0
      some { ident := a.ident, core := a.core, order := a.order, pays := head :: splitPieces 512 4 data }
    | none =>
      match s.atoms.find? (fun a => a.ident = x.ident) with
      | some a =>
        some { ident := a.ident, core := a.core, order := a.order,
               pays := [requestHead a.addr 3 a.kind.code 8 a.core a.x.toNat a.y.toNat (2 ^ 64 - 1) 4, 0, 0, 0, 0] }
      | none => none

/-- A flit that departs later. -/
def addOut (s : State) (port ply pos kind hops : Nat) (atag : BitVec 16) (pay : Nat) (token : Option Nat) : State :=
  { s with outs := s.outs ++ [{ port := port, ply := ply, pos := pos, kind := kind, hops := hops, atag := atag,
                                pay := BitVec.ofNat 512 pay, token := token }] }

/-- Whether a departure at a ply from a port, or its delivery, falls in a guard interval. -/
def departsInGuard (s : State) (port ply : Nat) : Bool := inGuard ply || inGuard (ply + wireHd (s.port port).w.toNat)

/-- SLOT at its departure ply: it leaves the list, and its five flits depart. -/
def slotStep (s : State) (p : Nat) : Except Nat State :=
  match s.slots.find? (fun x => x.port = p && x.dep ≤ s.now) with
  | none => .ok s
  | some x =>
    let s1 : State := { s with slots := dropFirst (fun y => y = x) s.slots }
    if departsInGuard s p s.now then .error 0x12
    else
      let tag := (s.chip (p / 12)).tag
      match slotRequest s x with
      | some r =>
        let s2 : State := { s1 with claims := s1.claims ++ [{ order := s.nextId, port := x.rport, ply := x.rarr, pos := 28, n := 4,
                                                               use := .reply r.core r.order, issued := true }] }
        .ok ((r.pays.mapIdx (fun j v => (j, v))).foldl (fun s y => addOut s p s.now (27 + y.1) 2 0 tag y.2 (some r.ident)) s2)
      | none => .ok ((rangeFrom 27 5).foldl (fun s j => addOut s p s.now j 4 0 tag 0 none) s1)

/-- SERVE at the arrival ply: its four reply flits, empty until a request comes. -/
def serveStep (s : State) (p : Nat) (x : LinkEntry) (rdep : BitVec 18) (rport : BitVec 4) : Except Nat State :=
  let q := 12 * (p / 12) + rport.toNat
  if departsInGuard s q (s.now + rdep.toNat) then .error 0x12
  else .ok ((rangeFrom 28 4).foldl (fun s j => addOut s q (s.now + rdep.toNat) j 4 0 (s.chip (p / 12)).tag 0 none) (issueClaim s p x))

/-- The home of an access on its way, and whether its reply carries data. -/
def servedHome (s : State) (ident : Nat) : Option (Nat × Bool) :=
  match s.accs.find? (fun a => a.ident = ident) with
  | some a => some ((a.spans.map Span.addr).headD 0, !a.write)
  | none => (s.atoms.find? (fun a => a.ident = ident)).map (fun a => (a.addr, true))

/-- A flit of a request reaches its SERVE: the access performs 30 plies later, an atomic 26; bridges are charged; the reply
flits are that access's (R415, R444). Log 56, DEDUCED. -/
def serveRequest (s : State) (f : Flit) (rdep rport : Nat) : State :=
  match f.token with
  | none => s
  | some ident =>
    match servedHome s ident with
    | none => s
    | some (home, reads) =>
      let pj := 26 * homeRoute (f.port % 12 / 2) home
      let s1 := charge s (f.port / 12) s.now f.atagSeen pj
      if s1.served.contains ident then s1
      else
        let s2 : State := { s1 with
          served := ident :: s1.served,
          accs := s1.accs.map (fun a => if a.ident = ident then { a with due := s.now + 30 } else a),
          atoms := s1.atoms.map (fun a => if a.ident = ident then { a with due := s.now + 26, atag := f.atagSeen } else a),
          outs := s1.outs.map (fun o => if o.port = rport && o.ply = rdep && 28 ≤ o.pos && o.kind = 4 && o.token.isNone then
            { o with token := some ident, atag := f.atagSeen } else o) }
        if reads then charge s2 (f.port / 12) rdep f.atagSeen (4 * 26 * homeRoute (rport % 12 / 2) home) else s2

/-- A flit as it departs: a reply carries the data of its access. -/
def OutFlit.filled (s : State) (x : OutFlit) : OutFlit :=
  match x.token with
  | some ident =>
    if x.kind != 4 || !s.served.contains ident then x
    else match s.replies.find? (fun r => r.1 = ident) with
      | some r => { x with kind := 3, pay := BitVec.ofNat 512 (r.2.toNat >>> (512 * (x.pos - 28))) }
      | none => x
  | none => x

/-! ## Delivery (R436 to R438, R444, R445, R448) -/

/-- RED on payloads: the buffer's elements are the left operands (R437). -/
def redCombine (op old new : Nat) : Nat :=
  let w := if op % 3 = 1 then 16 else 32
  joinPieces w (List.zipWith (fun a b => elementOp (op % 3) (op / 3 * 3) false a b 0)
    (splitPieces w (512 / w) old) (splitPieces w (512 / w) new))

/-- A flit is kept in the pause store (R448). Log 61, DEDUCED. -/
def keepFlit (s : State) (f : Flit) (t p0 : Nat) : State :=
  let i := (t - p0) * 32 + f.pos
  if p0 + 512 ≤ t then failPort s f.port 0x17 false
  else
    let e := s.engine f.port
    let kept := e.kept ++ [(i, f.token)]
    let byte := kept.foldl (fun b k => if k.1 / 8 = i / 8 then b ||| 2 ^ (k.1 % 8) else b) 0
    let v := f.received
    let q := f.port % 2
    let s1 := (s.dropFlit f).setEngine f.port { e with kept := kept }
    let s2 := portWrite s1 f.port s.nextId s.now (linkAddr (f.port / 12) (f.port % 12 / 2) (0x1D80000 + 0x140000 * q + 80 * i)) 80 v
    portWrite s2 f.port s.nextId s.now (progAddr f.port (0x3F800 + i / 8)) 1 byte

/-- A flit that has passed its checks is delivered to the claim of its position. Log 56, DEDUCED. -/
def deliverFlit (s : State) (f : Flit) : State :=
  let t := s.now
  let p := f.port
  let s1 := s.setFlit { f with phase := .delivered }
  match claimAt s p t f.pos with
  | none => (match keptFrom s p t with | some p0 => keepFlit s f t p0 | none => discardFlit s f)
  | some (c, k) =>
    match c.use with
    | .land buf => portWrite s1 p c.order t (bufAddr p (buf + k)) 64 f.paySeen.toNat
    | .fwd oq =>
      let s2 := charge s1 (p / 12) t f.atagSeen (26 * linkRoute (p % 12 / 2) (oq / 2))
      addOut s2 (12 * (p / 12) + oq) (t + forwardLag p oq) f.pos f.kindSeen (min 15 (f.hopsSeen + 1)) f.atagSeen f.paySeen.toNat f.token
    | .red op buf =>
      let v := redCombine op (readNat s.mem (bufAddr p (buf + k)) 64) f.paySeen.toNat
      portWrite (charge s1 (p / 12) t f.atagSeen 90) p c.order (t + 2) (bufAddr p (buf + k)) 64 v
    | .guard buf =>
      if f.paySeen.toNat % 2 ^ 64 = readNat s.mem (bufAddr p buf) 8 then s1 else sendNotice s1 p 0x21 (t + 1)
    | .request rdep rport => serveRequest s1 f rdep rport
    | .reply _ _ => s1

/-- Whether a port has failed, or is locked: from its detection on it delivers nothing (R424). -/
def failed (s : State) (p : Nat) : Bool := (s.port p).state = 2 || (s.port p).state = 3

/-- The next flit of a port to deliver, of claims of replies or of others. -/
def deliveryDue (s : State) (p : Nat) (reply : Bool) : Option Flit :=
  let hd := wireHd ((linkW s p).getD 0)
  if failed s p then none else
  s.flits.find? (fun f => f.port = p && (f.phase = .good || f.phase = .kept) && f.sent + hd ≤ s.now &&
    (match claimAt s p s.now f.pos with
     | some (c, _) => f.phase = .good && (match c.use with | .reply _ _ => reply | _ => !reply)
     | none => !reply))

/-- Replies that have come: their flits and claims are done, and their data lands 30 plies later. -/
def takeReply (s : State) (p : Nat) : State :=
  let mine (c : Claim) : Bool := c.port = p && c.ply = s.now && (match c.use with | .reply _ _ => true | _ => false)
  { s with claims := s.claims.filter (fun c => !mine c),
           flits := s.flits.filter (fun f => !(f.port = p && f.phase = .good &&
             s.claims.any (fun c => mine c && (c.place s.now f.pos).isSome) && f.sent + wireHd ((linkW s p).getD 0) ≤ s.now)) }

/-- A reply that has not come: nothing lands, eight plies later for an access that a lease has delayed (R269). -/
def dropReply (s : State) (c : Claim) : State :=
  match c.use with
  | .reply n order =>
    let k := s.core n
    s.setCore n { k with pend := k.pend.filter (fun x => !(x.seq = order / 8 && x.slot = order % 8 && (x.due = c.ply + 30 || x.due = c.ply + 38))) }
  | _ => s

/-! ## Starting, pausing and resuming (R434, R447 to R449) -/

/-- An engine starts at this ply with a frame ply and a first instruction (R434, R453, R470). -/
def startEngine (s : State) (p frame index guardEnd : Nat) (at0 : LinkPlace) : State :=
  let e := s.engine p
  let c := s.chip (p / 12)
  let s1 := s.setEngine p { e with
    run := 1, lpc := BitVec.ofNat 14 index, frame := frame, at0 := at0, cursor := at0, readAll := false, ahead := [],
    lastPly := s.now, lastCount := 0, stopAt := none, idleAt := none, delvs := [], guardEnd := guardEnd, armed := false,
    resumeAt := none, job := some c.tag }
  s1.setChip (p / 12) { c with bstate := if c.bstate = 4 then 5 else c.bstate }

/-- The first place of a run. -/
def firstPlace (frame index : Nat) : LinkPlace := { index := index % 16384, base := frame, loops := [] }

/-- START: the frame ply must be congruent to 96 modulo 65,536 and 1,024 plies ahead. A LOOP or ENDL that stands first is read, and acts,
at this ply (R441). It ends a manual recovery (R465). Local service
offers no timed schedules (R487). Log 70, DEDUCED. Log 84, DEDUCED. Log 86, DEDUCED. -/
def startPort (s : State) (p : Nat) : State :=
  let f := (s.port p).frame.toNat
  if (s.engine p).run = 1 || (s.chip (p / 12)).bstate.toNat < 3 then s
  else if f % 65536 != 96 || f < s.now + 1024 then engineFault s p 0x11
  else
    let s1 := readDue (startEngine s p f 0 0 (firstPlace f 0)) p
    let c := s1.chip (p / 12)
    if c.rcState = 2 then s1.setChip (p / 12) { c with rcState := 0, recovery := none } else s1

/-- RESUME: the engine is armed for the resume ply. Local service offers no timed schedules (R487). Log 84, DEDUCED. -/
def armPort (s : State) (p : Nat) : State :=
  let e := s.engine p
  if e.run = 1 || (s.chip (p / 12)).bstate.toNat < 3 then s else s.setEngine p { e with armed := true }

/-- The pause record of an engine (R448). Log 73, DEDUCED. -/
def pauseRecord (e : LinkEngine) : Nat :=
  let entry (l : LinkLoop) : Nat := l.count % 2 ^ 32 + (l.start % 65536) <<< 32 + (l.iter % 2 ^ 32) <<< 64
  e.lpc.toNat + e.at0.loops.length <<< 16 + 1 <<< 24 + e.stage.toNat <<< 32 +
    (lowBits ((e.frame : Int) - e.pausedAt) 64) <<< 64 + (joinPieces 96 (e.at0.loops.reverse.map entry)) <<< 128

/-- Engines pause at ply P: nothing stamped P or later issues, and the bitmap of the pause store is cleared. A pause within 512 plies of
a resume gives up what the store still held. Log 61, DEDUCED. -/
def pauseEngine (s : State) (p ply : Nat) : State :=
  if (s.engine p).run != 1 then s
  else
    let s1 := stopEngine s p 1
    let s2 := s1.setEngine p { s1.engine p with stopAt := some ply, pausedAt := ply, kept := [], resumeAt := none }
    (rangeFrom 0 8).foldl (fun s j => portWrite s p s.nextId s.now (progAddr p (0x3F800 + 256 * j)) 256 0) s2

/-- The loop stack of a pause record, outermost entry first, on a frame: base and stack. The periods are those of the LOOPs.
Log 73, DEDUCED. -/
def recordedLoops (s : State) (p v : Nat) (frame : Nat) : Nat × List LinkLoop :=
  (rangeFrom 0 (field v 23 16)).foldl (fun (acc : Nat × List LinkLoop) j =>
    let x := field v (128 + 96 * j + 95) (128 + 96 * j)
    let start := field x 47 32
    let iter := field x 95 64
    let period := field (readNat s.mem (progAddr p (16 * ((start + 16383) % 16384))) 16) 93 62
    (acc.1 + iter * period,
      { count := x % 2 ^ 32, start := start, iter := iter, period := period, outer := acc.1 } :: acc.2)) (frame, [])

/-- An armed engine learns Q: its place from the pause record on the frame Q + (F - P), or fault 0x16. -/
def loadPause (s : State) (p q : Nat) : State :=
  let e := s.engine p
  let v := readNat s.mem (progAddr p 0x3F7C0) 64
  if field v 31 24 != 1 || 4 < field v 23 16 || (e.run = 2 && q % 65536 != e.pausedAt % 65536) then
    engineFault (s.setEngine p { e with armed := false }) p 0x16
  else
    let frame := ((q : Int) + sext (field v 127 64) 64).toNat
    let l := recordedLoops s p v frame
    let at0 : LinkPlace := { index := v % 16384, base := l.1, loops := l.2 }
    s.setEngine p { e with
      run := 2, lpc := BitVec.ofNat 14 v, stage := BitVec.ofNat 16 (v >>> 32), frame := frame, at0 := at0, cursor := at0,
      readAll := false, ahead := [], lastPly := q, lastCount := 0, stopAt := none, idleAt := none, armed := false, resumeAt := some q }

/-- What an engine becomes at the start of a ply: idle after a HALT, paused with its record, armed with its place, running.
Log 66, DEDUCED. -/
def turnEngine (s : State) (p : Nat) : State :=
  let e := s.engine p
  if plyDue e.idleAt s.now then s.setEngine p { e with run := 0, idleAt := none, job := none }
  else if e.run = 1 && e.stopAt = some e.pausedAt && e.pausedAt < s.now then
    (portWrite s p s.nextId s.now (progAddr p 0x3F7C0) 64 (pauseRecord e)).setEngine p { e with run := 2 }
  else match e.armed, (s.chip (p / 12)).resumeQ with
    | true, some q => loadPause s p q
    | _, _ => if e.run = 2 && plyDue e.resumeAt s.now then s.setEngine p { e with run := 1, job := some (s.chip (p / 12)).tag } else s

/-- The claimed positions of a port at this ply, of instructions that have issued or will. -/
def liveNow (s : State) (p : Nat) : List Nat :=
  let mine := s.claims.filter (fun c => c.port = p && c.live s && c.ply ≤ s.now)
  if mine.isEmpty then [] else (rangeFrom 0 32).filter (fun j => mine.any (fun c => (c.place s.now j).isSome))

/-- What the checks of R422 find of the 80 bytes of a kept flit, by its own departure: no repair restores one whose CRC fails. -/
def keptPhase (s : State) (p sent pos v : Nat) : FlitPhase :=
  let accepted := match claimAt s p s.now pos with | some (c, _) => c.use.accepts (field v 31 28) | none => false
  if flitCrc v != field v 575 560 then .lost
  else if field v 23 0 != field (flitHeader sent pos 0 0 0) 23 0 || !accepted then .misplaced
  else if gmac (s.port p).rxKey (flitIv sent pos ((senderPort s p).getD 0)) (BitVec.ofNat 560 v) = BitVec.ofNat 64 (field v 639 576) then .good
  else .forged

/-- A flit of the pause store, as a receiving instruction takes it (R449): its bytes as they are kept, checked as it is taken.
Log 131, DESIGN CHOICE. -/
def storedFlit (s : State) (p i pos : Nat) : Flit :=
  let v := readNat s.mem (linkAddr (p / 12) (p % 12 / 2) (0x1D80000 + 0x140000 * (p % 2) + 80 * i)) 80
  let hd := wireHd ((linkW s p).getD 0)
  let f : Flit :=
    { ident := s.nextId, port := p, sent := s.now - hd, pos := pos, kind := field v 31 28, hops := field v 27 24,
      atag := BitVec.ofNat 16 (field v 47 32), pay := BitVec.ofNat 512 (field v 559 48), tag := BitVec.ofNat 64 (field v 639 576), mask := 0,
      phase := keptPhase s p ((s.engine p).pausedAt + i / 32 - hd) pos v,
      token := ((s.engine p).kept.find? (fun k => k.1 = i)).bind Prod.snd }
  { f with mask := BitVec.ofNat 640 f.whole ^^^ BitVec.ofNat 640 v }

/-- The flits of the pause store that are due at a port at this ply, also for instructions of an engine that has halted since; a failed
port delivers none (R424, R449). -/
def addStored (s : State) (p : Nat) : State :=
  match (s.engine p).resumeAt with
  | some q =>
    if failed s p || s.now < q || q + 512 ≤ s.now then s
    else
      (liveNow s p).foldl (fun s pos =>
        let i := (s.now - q) * 32 + pos
        if bit (readNat s.mem (progAddr p (0x3F800 + i / 8)) 1) (i % 8) then
          let f := storedFlit s p i pos
          { s with flits := s.flits.filter (fun x => !(x.port = p && x.pos = pos && x.sent = f.sent)) ++ [f], nextId := s.nextId + 1 }
        else s) s
  | none => s

/-! ## Positions and guard intervals (R436) -/

/-- The positions from `lo` to below `hi` that a transfer takes at a ply. -/
def plyRange (ply pos n now : Nat) : Nat × Nat :=
  if now < ply then (0, 0)
  else
    let k := (now - ply) * 32
    (if now = ply then pos else 0, min 32 (pos + n - k))

/-- Whether two runs of positions meet. -/
def meets (a b : Nat × Nat) : Bool := max a.1 b.1 < min a.2 b.2

/-- The first element that has a subcode, given the elements before it. -/
def firstBad {α : Type} (f : List α → α → Option Nat) : List α → List α → Option (α × Nat)
  | _, [] => none
  | before, x :: xs =>
    match f before x with
    | some sub => some (x, sub)
    | none => firstBad f (before ++ [x]) xs

/-- A claim of a port that meets a guard interval, or another claim, with its flits of this ply. Log 64, DEDUCED. -/
def badClaim (s : State) (p : Nat) : Option (Claim × Nat) :=
  let hd := wireHd (s.port p).w.toNat
  let range (c : Claim) : Nat × Nat := plyRange c.ply c.pos c.n s.now
  let inGuards (c : Claim) : Bool :=
    inGuard s.now || inGuard (s.now - hd) ||
      (match c.use with | .fwd oq => departsInGuard s (12 * (p / 12) + oq) (s.now + forwardLag p oq) | _ => false)
  firstBad (fun before c => if inGuards c then some 0x12 else if before.any (fun d => meets (range d) (range c)) then some 0x13 else none)
    [] (s.claims.filter (fun c => c.port = p && c.live s && (range c).1 < (range c).2))

/-- Whether the instruction of a SEND has issued or will issue. -/
def SendRun.live (s : State) (r : SendRun) : Bool :=
  r.issued || (match stopPly s r.port with | some x => r.ply < x | none => true)

/-- The positions that a port gives at this ply to flits of FWDs, of each request slot, and of SERVEs. -/
def outRanges (s : State) (p : Nat) : List (Nat × Nat) :=
  (s.slots.filter (fun x => x.port = p && x.dep = s.now)).map (fun _ => (27, 32)) ++
    (s.outs.filter (fun x => x.port = p && x.ply = s.now)).map (fun x => (x.pos, x.pos + 1))

/-- A SEND of a port that meets a guard interval, or another transfer, with its flits of this ply. -/
def badSend (s : State) (p : Nat) : Option (SendRun × Nat) :=
  let range (r : SendRun) : Nat × Nat := plyRange r.ply r.pos r.n s.now
  firstBad (fun before r =>
      if departsInGuard s p s.now then some 0x12
      else if before.any (fun d => meets (range d) (range r)) || (outRanges s p).any (fun x => meets x (range r)) then some 0x13
      else none)
    [] (s.sends.filter (fun r => r.port = p && r.live s && (range r).1 < (range r).2))

/-- Whether flits of FWDs, request slots and SERVEs of a port take a position twice at this ply. -/
def outsMeet (s : State) (p : Nat) : Bool :=
  (firstBad (fun before x => if before.any (fun d => meets d x) then some 0x13 else none) [] (outRanges s p)).isSome

/-- The faults of the transfers of a port at this ply; nothing more of a transfer at fault departs or arrives.
Log 64, DEDUCED. -/
def checkPort (s : State) (p : Nat) : State :=
  let s1 := match badClaim s p with
    | some (c, sub) => engineFault { s with claims := dropFirst (fun x => x = c) s.claims } p sub
    | none => s
  let s2 := match badSend s1 p with
    | some (r, sub) => engineFault { s1 with sends := dropFirst (fun x => x = r) s1.sends } p sub
    | none => s1
  if outsMeet s2 p then engineFault s2 p 0x13 else s2

/-! ## Departures (R436) -/

/-- The place of a departure ply and position in the transfer of a SEND. -/
def SendRun.place (r : SendRun) (ply pos : Nat) : Option Nat :=
  let k := (ply - r.ply) * 32 + pos
  if r.ply ≤ ply && r.pos ≤ k && k - r.pos < r.n then some (k - r.pos) else none

/-- The granules that a SEND sends two plies on are read (R436). -/
def sampleSend (s : State) (r : SendRun) : SendRun :=
  if s.now + 2 < r.ply || !r.live s then r
  else
    { r with data := (rangeFrom 0 32).foldl (fun m pos =>
        match r.place (s.now + 2) pos with
        | some j => mapPut m j (BitVec.ofNat 512 (readNat s.mem (bufAddr r.port (r.buf + j)) 64))
        | none => m) r.data }

/-- The flits of SENDs that depart from a port at this ply. A granule that was not read before is read now. -/
def sendFlits (s : State) (p : Nat) : List OutFlit :=
  (s.sends.filter (fun r => r.port = p && r.issued)).flatMap (fun r =>
    (rangeFrom 0 32).filterMap (fun pos =>
      (r.place s.now pos).map (fun j =>
        { port := p, ply := s.now, pos := pos, kind := r.kind, hops := 0, atag := (s.chip (p / 12)).tag,
          pay := match r.data.find? (fun d => d.1 = j) with
            | some d => d.2
            | none => BitVec.ofNat 512 (readNat s.mem (bufAddr p (r.buf + j)) 64),
          token := none })))

/-- Everything that departs from a port at this ply, the first flit of each position. -/
def departures (s : State) (p : Nat) : List OutFlit :=
  (sendFlits s p ++ (s.outs.filter (fun x => x.port = p && x.ply = s.now)).map (fun x => x.filled s)).foldl
    (fun l x => if l.any (fun y => y.pos = x.pos) then l else l ++ [x]) []

/-- The departures of a port. -/
def departPort (s : State) (p : Nat) : State := (departures s p).foldl transmit s

/-! ## The start and the end of a ply for the links -/

/-- The ports of the state. -/
def State.allPorts (s : State) : List Nat := s.ports.map Prod.fst

/-- The start of a ply for the links: what engines become and read, what arrives, and the faults of transfers. The slots that are read
at a ply stand in the list for the bundles of that ply (R445). -/
def startPlyLinks (s : State) : State :=
  let ps := s.allPorts
  let s0 := ps.foldl turnEngine (takeWords s)
  let s1 := ps.foldl (fun s p => actLoops readLimit (readDue s p) p) s0
  let s2 := ps.foldl checkPort (ps.foldl addStored s1)
  startMarks { s2 with sends := s2.sends.map (sampleSend s2) }

/-- The end of a ply for the links: departures, messages, what is over. -/
def endPlyLinks (s : State) : State :=
  let ps := s.allPorts
  let s1 := ps.foldl sendWord (ps.foldl departPort s)
  let ended := s1.claims.filter (fun c => c.ply ≤ s.now)
  let s2 := ended.foldl dropReply s1
  let gone := (s1.outs.filter (fun x => x.ply ≤ s.now && s1.served.contains (x.token.getD 0))).filterMap (fun x => x.token)
  { s2 with
    claims := s2.claims.filter (fun c => s.now < c.ply || (c.issued && (s.now + 1 - c.ply) * 32 < c.pos + c.n)),
    sends := s2.sends.filter (fun r => s.now < r.ply || (r.issued && (s.now + 1 - r.ply) * 32 < r.pos + r.n)),
    outs := s2.outs.filter (fun x => s.now < x.ply),
    flits := s2.flits.filter (fun f => match linkW s2 f.port with | some w => s.now < f.sent + wireHd w | none => false),
    served := s2.served.filter (fun k => !gone.contains k), replies := s2.replies.filter (fun r => !gone.contains r.1) }

/-! ## Pre-emption (R391, R447) -/

/-- A resume ply that lies at or before a pre-emption ply is over for a core that has nothing of it left to start. Log 13, DEDUCED. -/
def forgetResume (s : State) (n p : Nat) : State :=
  let c := s.core n
  if c.resume.isNone && c.rsply.toNat ≤ p then s.setCore n { c with rsply := BitVec.allOnes 64 } else s

/-- Ply P has come at a chip: its engines pause, its idle and halted cores ask for their saves, and an earlier resume ply is over.
Log 13, DEDUCED. -/
def preemptChip (s : State) (chip p : Nat) : State :=
  let s1 := askSaves ((portsOf s chip).foldl (fun s q => pauseEngine s q p) s) chip
  let c := s1.chip chip
  let s2 := s1.setChip chip { c with preempt := none, resumeQ := c.resumeQ.filter (fun q => p < q) }
  (jobCores s chip).foldl (fun s n => forgetResume s n p) s2

/-! ## Meanings -/

/-- SEND (R436). Link instruction that transmits n chunk-buffer granules as data flits. -/
def execSend (stamp : BitVec 32) (buf : BitVec 19) (n : BitVec 11) (pos : BitVec 5) (s : State) : Host.Outcome State Fault Refusal :=
  linkStep s (.send stamp buf n pos) (fun t p x => .ok (issueSend t p x))

/-- SEND_SIG (R436). Link instruction that transmits granules as signature flits. -/
def execSendSig (stamp : BitVec 32) (buf : BitVec 19) (n : BitVec 11) (pos : BitVec 5) (s : State) : Host.Outcome State Fault Refusal :=
  linkStep s (.sendSig stamp buf n pos) (fun t p x => .ok (issueSend t p x))

/-- LAND (R436). Link instruction that claims arriving flits and writes their payloads to the chunk buffer. -/
def execLand (stamp : BitVec 32) (buf : BitVec 19) (n : BitVec 11) (pos : BitVec 5) (s : State) : Host.Outcome State Fault Refusal :=
  linkStep s (.land stamp buf n pos) (fun t p x => .ok (issueClaim t p x))

/-- FWD (R436). Link instruction that claims arriving flits and retransmits them on another port. -/
def execFwd (stamp : BitVec 32) (n : BitVec 11) (pos : BitVec 5) (oq : BitVec 4) (s : State) : Host.Outcome State Fault Refusal :=
  linkStep s (.fwd stamp n pos oq) (fun t p x => .ok (issueClaim t p x))

/-- RED_ADD_F32 (R437). Link instruction that combines arriving FP32 payloads into the buffer by addition. -/
def execRedAddF32 (stamp : BitVec 32) (buf : BitVec 19) (n : BitVec 11) (pos : BitVec 5) (s : State) : Host.Outcome State Fault Refusal :=
  linkStep s (.redAddF32 stamp buf n pos) (fun t p x => .ok (issueClaim t p x))

/-- RED_ADD_BF16 (R437). Combines arriving BF16 payloads by addition. -/
def execRedAddBf16 (stamp : BitVec 32) (buf : BitVec 19) (n : BitVec 11) (pos : BitVec 5) (s : State) : Host.Outcome State Fault Refusal :=
  linkStep s (.redAddBf16 stamp buf n pos) (fun t p x => .ok (issueClaim t p x))

/-- RED_ADD_I32 (R437). Combines arriving I32 payloads by wrapping addition. -/
def execRedAddI32 (stamp : BitVec 32) (buf : BitVec 19) (n : BitVec 11) (pos : BitVec 5) (s : State) : Host.Outcome State Fault Refusal :=
  linkStep s (.redAddI32 stamp buf n pos) (fun t p x => .ok (issueClaim t p x))

/-- RED_MAX_F32 (R437). Combines arriving FP32 payloads by maximum. -/
def execRedMaxF32 (stamp : BitVec 32) (buf : BitVec 19) (n : BitVec 11) (pos : BitVec 5) (s : State) : Host.Outcome State Fault Refusal :=
  linkStep s (.redMaxF32 stamp buf n pos) (fun t p x => .ok (issueClaim t p x))

/-- RED_MAX_BF16 (R437). Combines arriving BF16 payloads by maximum. -/
def execRedMaxBf16 (stamp : BitVec 32) (buf : BitVec 19) (n : BitVec 11) (pos : BitVec 5) (s : State) : Host.Outcome State Fault Refusal :=
  linkStep s (.redMaxBf16 stamp buf n pos) (fun t p x => .ok (issueClaim t p x))

/-- RED_MAX_I32 (R437). Combines arriving I32 payloads by signed maximum. -/
def execRedMaxI32 (stamp : BitVec 32) (buf : BitVec 19) (n : BitVec 11) (pos : BitVec 5) (s : State) : Host.Outcome State Fault Refusal :=
  linkStep s (.redMaxI32 stamp buf n pos) (fun t p x => .ok (issueClaim t p x))

/-- GUARD (R438). Link instruction that compares an arriving signature with the local one. -/
def execGuard (stamp : BitVec 32) (buf : BitVec 19) (pos : BitVec 5) (s : State) : Host.Outcome State Fault Refusal :=
  linkStep s (.guard stamp buf pos) (fun t p x => .ok (issueClaim t p x))

/-- LINK_LOOP (R441). Link instruction that pushes a loop entry with a count and period. -/
def execLinkLoop (count : BitVec 24) (period : BitVec 32) (s : State) : Host.Outcome State Fault Refusal :=
  linkStep s (.linkLoop count period) (turnLoop s)

/-- ENDL (R441). Link instruction that repeats or pops the innermost link loop. -/
def execEndl (s : State) : Host.Outcome State Fault Refusal :=
  linkStep s (.endl) (turnLoop s)

/-- MARK (R440). Link instruction that atomically adds a buffer value to a counter after earlier DELVs. -/
def execMark (stamp : BitVec 32) (buf : BitVec 19) (addr : BitVec 48) (s : State) : Host.Outcome State Fault Refusal :=
  linkStep s (.mark stamp buf addr) (fun t p _ => markStep t p buf addr)

/-- CKPT (R442). Link instruction that records the stage and restart point and updates stage registers. -/
def execCkpt (stamp : BitVec 32) (stage : BitVec 16) (s : State) : Host.Outcome State Fault Refusal :=
  linkStep s (.ckpt stamp stage) (fun t p x => .ok (ckptStep t p x stage))

/-- FILL (R439). Link instruction that copies granules from a compute die into the chunk buffer. -/
def execFill (stamp : BitVec 32) (buf : BitVec 19) (n : BitVec 11) (addr : BitVec 48) (s : State) : Host.Outcome State Fault Refusal :=
  linkStep s (.fill stamp buf n addr) (fun t p x => fillStep t p x buf n addr)

/-- DELV (R439). Link instruction that writes chunk-buffer granules to a compute die. -/
def execDelv (stamp : BitVec 32) (buf : BitVec 19) (n : BitVec 11) (addr : BitVec 48) (s : State) : Host.Outcome State Fault Refusal :=
  linkStep s (.delv stamp buf n addr) (fun t p x => delvStep t p x buf n addr)

/-- SLOT (R443). Link instruction that reserves a request slot and transmits its request or empty flits. -/
def execSlotEntry (stamp : BitVec 32) (core : BitVec 11) (chip : BitVec 16) (arr : BitVec 18) (rdep : BitVec 18) (rarr : BitVec 18)
    (rport : BitVec 4) (s : State) : Host.Outcome State Fault Refusal :=
  linkStep s (.slot stamp core chip arr rdep rarr rport) (fun t p _ => slotStep t p)

/-- SERVE (R444). Link instruction that receives a remote request, performs it and transmits the reply. -/
def execServe (stamp : BitVec 32) (rdep : BitVec 18) (rport : BitVec 4) (s : State) : Host.Outcome State Fault Refusal :=
  linkStep s (.serve stamp rdep rport) (fun t p x => serveStep t p x rdep rport)

/-- HALT (R442). Link instruction that makes the engine idle. -/
def execHalt (stamp : BitVec 32) (s : State) : Host.Outcome State Fault Refusal :=
  linkStep s (.halt stamp) (fun t p _ => .ok (t.setEngine p { t.engine p with idleAt := some (t.now + 1) }))

/-- RESERVED_OPC (R435). A link engine reaches an instruction with a reserved OPC, including zero memory, and faults with subcode 0x11. -/
def execReservedOpc (w : BitVec 128) (s : State) : Host.Outcome State Fault Refusal :=
  linkStep s (.reservedOpc w) (fun _ _ _ => .error 0x11)

/-- START (R434). LCTL action that starts a link engine at frame LFRAME. -/
def execStart (port : Nat) (s : State) : Host.Outcome State Fault Refusal :=
  finishSame s (startPort s port)

/-- RESUME (R449). LCTL action that arms a paused engine to resume at the resume ply. -/
def execResume (port : Nat) (s : State) : Host.Outcome State Fault Refusal :=
  finishSame s (armPort s port)

/-- FLIT_ARRIVAL (R422). A flit is checked at the receiver by CRC, header and tag. -/
def execFlitArrival (port : Nat) (s : State) : Host.Outcome State Fault Refusal :=
  match checkDue s port with
  | some (f, w) => finishSame s (checkFlit s f w)
  | none =>
    match deliveryDue s port false with
    | some f => finishSame s (deliverFlit s f)
    | none => .next s

/-- REPLY_ARRIVAL (R445). Reply flits arrive at a claimed reply slot and their data lands 30 plies later. -/
def execReplyArrival (port : Nat) (s : State) : Host.Outcome State Fault Refusal :=
  match deliveryDue s port true with
  | some _ => finishSame s (takeReply s port)
  | none => .next s

/-- PREEMPTION_PLY (R391). At ply P link engines stop issuing and pause, and cores begin to look for a divert. -/
def execPreemptionPly (chip : Nat) (s : State) : Host.Outcome State Fault Refusal :=
  match (s.chip chip).preempt with
  | some p => if p ≤ s.now then finishSame s (preemptChip s chip p) else .next s
  | none => .next s

/-- PAUSE_STORE_RELEASE (R449). At Q + 512 a port's pause store is released and unclaimed entries discarded. -/
def execPauseStoreRelease (port : Nat) (s : State) : Host.Outcome State Fault Refusal :=
  match (s.engine port).resumeAt with
  | some q =>
    if q + 512 ≤ s.now then finishSame s (s.setEngine port { s.engine port with resumeAt := none, kept := [] }) else .next s
  | none => .next s

end Sys2Proof.Machine
end

