-- ==== Sys2Proof/Machine/Package.lean ====
section
/-! DEFINITION. A package in its pod: tempo, detectors, notices, halt and replay, and the registers of BAR0
(R408 to R414, R461 to R477, R480, R481, R487 to R490). -/

namespace Sys2Proof.Machine

/-! ## Notices on the tree (R431) -/

/-- A message goes up the tree from a chip; the root receives its own. Log 74, DEDUCED. -/
def tellRoot (s : State) (chip ply : Nat) (bits : BitVec 128) : State :=
  if chip = s.root then receiveMsg s chip ply none bits else sendUp s chip 12 ply bits

/-- The message of a kind that a chip takes now. -/
def msgFor (s : State) (kind chip : Nat) : Option InMsg := nextMsg s kind (fun m => m.chip = chip)

/-- A downward message that a chip has taken goes on at its second ply after receipt; an upward one at another chip too. -/
def relayDown (s : State) (m : InMsg) : State := sendDown (dropMsg s m) m.chip (m.ply + 2) m.bits
def relayUp (s : State) (m : InMsg) : State :=
  sendUp (dropMsg s m) m.chip (match m.port with | some p => p % 12 | none => 12) (m.ply + 2) m.bits

/-! ## Tempo (R409, R410, R472 to R477) -/

/-- The converter ratio of a tempo: 0 4:9, 1 3:8, 2 1:3 (R408). -/
def ratioOf (tempo : BitVec 2) : BitVec 2 := if tempo = 3 then 2 else tempo

/-- TNOW and CAPSTAT (R476). -/
def Chip.tnow (c : Chip) : Word :=
  BitVec.ofNat 64 (c.tempo.toNat + c.split.toNat <<< 2 + c.lastTempo.toNat <<< 4)
def Chip.capstat (c : Chip) : Word :=
  BitVec.ofNat 64 (c.cap.toNat + (if c.lapsed then 4 else 0) + c.drop.toNat <<< 8)

/-- A tempo change that a chip has been told of; of two for one ply the later one stands (R410). -/
def Chip.hold (c : Chip) (z : Nat) (tempo split : BitVec 2) : Chip :=
  { c with held := c.held.filter (fun h => h.z != z) ++ [{ z := z, tempo := tempo, split := split }] }

/-- An event of the root's tempo logic for the host (R485). -/
def postTempo (s : State) (code : Nat) : State :=
  let c := s.chip s.root
  s.post { chip := s.root, src := 0x20, code := code, data := BitVec.ofNat 320 (c.tnow.toNat + c.tz.toNat <<< 64) }

/-- The slowest of the three limits (R472). -/
def Chip.slowest (c : Chip) : BitVec 2 :=
  let d : Nat := if c.dUntil.isSome then 3 else 0
  BitVec.ofNat 2 (max (max c.cap.toNat c.ceiling.toNat) d)

/-- The root announces a tempo change where its effective tempo has changed at this ply (R472). -/
def retune (s : State) : State :=
  let c := s.chip s.root
  if c.slowest = c.effective then s
  else
    let z := if c.tz = BitVec.allOnes 64 then s.now + 8194 else max (s.now + 8194) (c.tz.toNat + 2049)
    let c1 := { c.hold z c.slowest c.dsplit with
      effective := c.slowest, lastTempo := c.slowest, lastSplit := c.dsplit, tz := BitVec.ofNat 64 z }
    let bits := makeMsg 1 (c.slowest.toNat + c.dsplit.toNat <<< 2) s.root 0 z
    postTempo (sendDown (s.setChip s.root c1) s.root s.now bits) 1

/-- A message of the power cap: applied, or discarded and counted (R475). -/
def capMessage (s : State) (v : Word) : State :=
  let c := s.chip s.root
  let seq := v.toNat % 2 ^ 32
  if !c.capSeen || c.capMsg.toNat % 2 ^ 32 < seq then
    retune (s.setChip s.root { c with
      capMsg := BitVec.ofNat 64 (v.toNat % 2 ^ 34), capSeen := true, cap := BitVec.ofNat 2 (v.toNat >>> 32), lapsed := false,
      leaseEnd := some (c.mtime.toNat + 24000000000) })
  else s.setChip s.root { c with drop := if c.drop = 255 then 255 else c.drop + 1 }

/-- The lease of the power cap has ended. -/
def Chip.leaseOver (c : Chip) : Bool := plyDue c.leaseEnd c.mtime.toNat

/-- The ratio that a chip's converters switch to now: before a rise, after a fall (R409). Local service stays at tempo C (R487). -/
def Chip.nextRatio (c : Chip) (now : Nat) : Option (BitVec 2) :=
  let soon := c.held.filter (fun h => h.z ≤ now + 1024 && now < h.z)
  if c.bstate.toNat < 3 then none
  else match soon.find? (fun h => ratioOf h.tempo < c.ratio) with
    | some h => some (ratioOf h.tempo)
    | none => if soon.isEmpty && c.ratio < ratioOf c.tempo && c.changedAt + 1024 ≤ now then some (ratioOf c.tempo) else none

/-- The tempo change of a chip that is due. -/
def Chip.changeDue (c : Chip) (now : Nat) : Option TempoHeld := c.held.find? (fun h => h.z ≤ now)

/-! ## Detectors (R411, R412) -/

/-- The average current of a window, in mA, at the window's last ply: a tempo-D request where it is over the limit of the ratio in
force. -/
def currentWindow (s : State) (chip amps : Nat) : State :=
  let c := s.chip chip
  if s.now % 256 = 255 && (mapGet 0 c.limits c.ratio.toNat).toNat < amps && c.tempo != 3 && !c.held.any (fun h => h.tempo = 3) then
    tellRoot s chip s.now (makeMsg 5 0 chip 0 s.now)
  else s

/-- The cores of a chip that the state lists. -/
def coresOf (s : State) (chip : Nat) : List Nat := (s.cores.map Prod.fst).filter (fun n => chipOf n = chip)

/-- Every core of a package stops as HCTL.STOP stops it. -/
def stopCores (s : State) (chip : Nat) : State := (coresOf s chip).foldl stopCore s

/-- Whether a die's sensor is read at this ply: 4,096 plies after each reading (R412). Log 62, DESIGN CHOICE. -/
def sensorDue (s : State) (chip die : Nat) : Bool :=
  match (s.chip chip).tempAt.find? (fun x => x.1 = die) with
  | some x => (s.now - x.2) % 4096 = 0
  | none => true

/-- A temperature reading: WARN sends a slow-down notice, CRIT halts the package, and the parity of a repair that was to leave from this
ply on neither leaves nor is charged. -/
def readTemperature (s : State) (chip die : Nat) (t : BitVec 8) : State :=
  let c := s.chip chip
  let warn : Bool := c.twarn ≤ t && !c.warned.contains die
  let warned := if t.toNat + 5 < c.twarn.toNat then c.warned.filter (fun d => d != die) else if warn then die :: c.warned else c.warned
  let s1 := s.setChip chip { c with
    temps := mapPut c.temps die t, warned := warned,
    tempAt := if c.tempAt.any (fun x => x.1 = die) then c.tempAt else mapPut c.tempAt die s.now }
  let s2 := if warn then tellRoot s1 chip s.now (makeMsg 6 0 chip 0 s.now) else s1
  if c.tcrit ≤ t && c.crit.isNone then
    let s3 := (portsOf s chip).foldl (fun s p => stopEngine s p 0) (stopCores s2 chip)
    { s3.setChip chip { s3.chip chip with crit := some s.now } with
      charges := s.charges.filter (fun x => !(x.chip = chip && s.now ≤ x.ply && x.pj = 48)) }
  else s2

/-- A temperature reading at a ply; there is none at another. -/
def temperature (s : State) (chip die : Nat) (t : BitVec 8) : State :=
  if sensorDue s chip die then readTemperature s chip die t else s

/-! ## Recovery tables (R467) -/

/-- `n` bytes of the table region of link die 0. -/
def tableNat (s : State) (chip off n : Nat) : Nat := readNat s.mem (linkAddr chip 0 off) n

/-- The recovery header of a chip, where it is valid; its fields. -/
def recoveryHeader (s : State) (chip : Nat) : Option Nat :=
  let h := tableNat s chip 0x1C10000 64
  let nstage := field h 47 32
  let nvid := field h 63 48
  if bit h 0 && field h 31 2 = 0 && 1 ≤ nstage && nstage ≤ 4096 && 1 ≤ nvid && nvid ≤ 4096 && field h 79 64 ≤ 4095 &&
      1024 ≤ field h 159 128 && h >>> 160 = 0 && nvid * nstage ≤ 57344 then some h
  else none

def headerAuto (h : Nat) : Bool := bit h 1
def headerStages (h : Nat) : Nat := field h 47 32
def headerVars (h : Nat) : Nat := field h 79 64
def headerCw (h : Nat) : Nat := field h 127 96
def headerRb (h : Nat) : Nat := field h 159 128

/-- The link key of a chip and a pod port, as a variation-list entry packs it. -/
def linkKey (origin port : Nat) : Nat := origin % 65536 + (port % 16) <<< 16

/-- The VID of the first variation that a link key matches. -/
def variation (s : State) (chip h origin port : Nat) : Option Nat :=
  (rangeFrom 0 (headerVars h)).findSome? (fun i =>
    let e := tableNat s chip (0x1C10040 + 8 * i) 8
    if e % 2 ^ 32 = linkKey origin port && field e 63 48 = 0 then some (field e 47 32) else none)

/-! ## Halt and replay (R462 to R470) -/

/-- The target stage of a recovery and its start ply (R469). Log 68, DEDUCED. -/
def Chip.target (c : Chip) (cw t : Nat) : Option (Nat × Nat) :=
  let ok (start : Word) : Bool := start != BitVec.allOnes 64 && start.toNat + cw ≤ t
  if ok c.rcCur then some (c.curStage.toNat, c.curStart)
  else if ok c.rcPrv then some (c.prvStage.toNat, c.prvStart)
  else none

/-- The replay ply: the least ply from `lo` on that is congruent to the stage's start (R469). -/
def replayPly (lo start : Nat) : Nat := lo + (65536 - (lo - start) % 65536) % 65536

/-- A recovery that a chip begins with a notice: automatic with its VID, stage and replay ply, or manual (R463).
Log 68, DEDUCED. -/
def newRecovery (s : State) (chip origin port ev t : Nat) : Recovery :=
  let c := s.chip chip
  let manual : Recovery := { origin := origin, port := port, ev := ev, t := t, auto := false, vid := 0, stage := 0, start := 0,
                             replay := 0, halted := false, extra := 0, bounds := [] }
  match recoveryHeader s chip with
  | none => manual
  | some h =>
    let vid : Option Nat :=
      if ev = 0x05 then some c.vid.toNat
      else if c.vid = 0 then variation s chip h origin port else none
    match c.target (headerCw h) t, vid with
    | some (k, start), some v =>
      if headerAuto h && ev != 0x21 then
        { manual with auto := true, vid := v, stage := k, start := start,
                      replay := replayPly (t + 12800 + headerRb h) start }
      else manual
    | _, _ => manual

/-- The halt ply of a recovery. -/
def Recovery.haltPly (r : Recovery) : Nat := r.t + 12800

/-- TVAL of the cause that a recovery makes due, the cause, its subcode and its TPEND bit (R424, R425, R464). -/
def Recovery.tval (r : Recovery) : Word := BitVec.ofNat 64 (r.t % 2 ^ 40 + (r.origin % 65536) <<< 40 + r.port <<< 56)
def Recovery.cause (r : Recovery) : Nat := if r.ev = 0x20 then 0x1A else if r.ev = 0x21 then 0x18 else 0x19
def Recovery.sub (r : Recovery) : Nat := if r.ev = 0x20 then r.port else if r.ev = 0x21 then 0 else r.ev

/-- Causes that a pending recovery discards, counted in LOST of every core of the job (R465). -/
def countLost (s : State) (chip k : Nat) : State :=
  if k = 0 then s
  else (jobCores s chip).foldl (fun s n =>
    let c := s.core n
    s.setCore n { c with lost := BitVec.ofNat 8 (min 255 (c.lost.toNat + k)) }) s

/-- A recovery becomes manual, its halt ply unchanged. -/
def toManual (s : State) (chip : Nat) (r : Recovery) : State :=
  let c := s.chip chip
  s.setChip chip { c with recovery := some { r with auto := false }, rcState := if r.halted then 2 else c.rcState }

/-- Whether a chip runs link programs of the job of its tag (R462): an engine has started for that tag and has not come to a HALT, though
it may be paused, at fault or halted by a recovery. Log 69, DEDUCED. -/
def runsJob (s : State) (chip : Nat) : Bool := (portsOf s chip).any (fun p => (s.engine p).job = some (s.chip chip).tag)

/-- A notice that a chip applies (R462, R463, R465). Log 69, DEDUCED. Log 70, DEDUCED. -/
def applyNotice (s : State) (chip : Nat) (bits : BitVec 128) : State :=
  let c0 := s.chip chip
  let ev := msgArg8 bits % 64
  let origin := msgOrigin bits
  let port := field (msgArg32 bits) 15 12
  let t := msgPly bits
  if msgArg32 bits >>> 16 != c0.tag.toNat || (!runsJob s chip && c0.recovery.isNone) then s
  else
    let s1 := s.setChip chip { c0 with ev := BitVec.ofNat 6 ev }
    let begin0 : State := s1.setChip chip { s1.chip chip with recovery := some (newRecovery s chip origin port ev t) }
    match c0.recovery with
    | none => begin0
    | some r =>
      if r.origin = origin && r.port = port then
        if r.ev = 0x05 && ev = 0x20 then
          let q := newRecovery s chip origin port 0x20 r.t
          let r1 : Recovery := { r with ev := 0x20 }
          if !q.auto then toManual s1 chip r1
          else
            let c := s1.chip chip
            s1.setChip chip { c with recovery := some { r1 with vid := q.vid },
                                     vid := if r.auto && r.halted then BitVec.ofNat 16 q.vid else c.vid }
        else s1
      else if r.auto && r.replay ≤ t then begin0
      else
        let s2 := toManual s1 chip r
        if r.halted then countLost s2 chip 1
        else
          let c := s2.chip chip
          s2.setChip chip { c with recovery := c.recovery.map (fun x => { x with extra := x.extra + 1 }) }

/-- RCSTAT (R466). -/
def Chip.rcstat (c : Chip) : Word :=
  BitVec.ofNat 64 (c.rcState.toNat + c.ev.toNat <<< 10 + c.vid.toNat <<< 16 + c.curStage.toNat <<< 32 + c.prvStage.toNat <<< 48)

/-- The root returns an upward notice once, and applies it at the same ply (R462). -/
def returnNotice (s : State) (m : InMsg) : State :=
  let c := s.chip s.root
  let key := msgOrigin m.bits + (msgArg32 m.bits) <<< 16
  let ev := msgArg8 m.bits % 64
  let t := msgPly m.bits
  let s1 := dropMsg s m
  if c.returned.any (fun x => x.1 = key && x.2.1 = ev && absDiff x.2.2 t ≤ 65536) then s1
  else
    let down := m.bits ||| 0x8000
    let s2 := s1.setChip s.root { c with returned := (key, ev, t) :: c.returned }
    receiveMsg (sendDown s2 s.root (m.ply + 2) down) s.root (m.ply + 2) none down

/-- A fault notice at a chip: up the tree, returned by the root, or applied and passed down. -/
def takeNotice (s : State) (m : InMsg) : State :=
  if bit (msgArg8 m.bits) 7 then
    applyNotice (if m.chip = s.root then dropMsg s m else relayDown s m) m.chip m.bits
  else if m.chip = s.root then returnNotice s m
  else relayUp s m

/-- Whether a recovery has come to its halt ply, or to its replay ply. -/
def Chip.haltDue (c : Chip) (now : Nat) : Bool := match c.recovery with | some r => !r.halted && r.haltPly ≤ now | none => false
def Chip.replayDue (c : Chip) (now : Nat) : Bool := match c.recovery with | some r => r.auto && r.halted && r.replay ≤ now | none => false

/-- The records of a chip that are not complete. -/
def openRecords (s : State) (chip : Nat) : List GtsRun := s.recs.filter (fun r => chipOf r.unit = chip && r.done.isNone)

/-- In automatic mode a core of the job becomes idle, its channels stop as a CHSTOP of the ply before stops them, and its
thresholds are disarmed (R464). A store or an event that has fired runs on (R346); a launch that waits, fired or held for a resume, is
dropped, since no bundle issues before the restart. Log 71, DEDUCED. -/
def haltCore (s : State) (n : Nat) : State :=
  let c := s.core n
  s.setCore n { c with
    run := .idle, held := 0, wait := none, arms := [], reserved := none, resume := none, fired := c.fired.filter (fun f => f.arm.kind != 0),
    chans := c.chans.map (fun k => (k.1, if k.2.state = 1 then Chan.halted { k.2 with stopAt := some (s.now - 1) } (s.now - 1) else k.2)) }

/-- The operation of an abandoned record is over. -/
def closeOp (s : State) (r : GtsRun) : State :=
  let c := s.core r.who
  s.setCore r.who { c with ops := c.ops.map (fun o => if o.ident = r.op then { o with isOpen := false, due := s.now } else o) }

/-- The states and byte writes of a list of steps, one after another. -/
def chainResults {α : Type} (f : State → α → Result) (s : State) (xs : List α) : Result :=
  xs.foldl (fun r x =>
    let q := f r.st x
    { st := q.st, writes := r.writes ++ q.writes }) { st := s, writes := [] }

/-- A record that a manual recovery abandons: its report is that of a fault at level 4 (R464). Log 72, DEDUCED. -/
def abandonRecord (s : State) (r : GtsRun) (q : Recovery) : Result :=
  completeGts s { r with fault := some { lvl := 4, cause := q.cause, sub := q.sub, addr := r.addr, child := 2 ^ 32 - 1 } }

/-- An engine at the halt ply: it is idle, and one that waits for a resume ply waits no more (R464). Log 65, DEDUCED. -/
def haltPort (s : State) (p : Nat) : State :=
  if (s.engine p).run = 1 || (s.engine p).run = 2 then stopEngine s p 0 else s.setEngine p { s.engine p with armed := false }

/-- The halt ply of a chip (R464). Log 71, DEDUCED. -/
def haltChip (s : State) (chip : Nat) (r : Recovery) : Result :=
  let h := s.now
  let bounds := (coresOf s chip).map (fun n =>
    let c := s.core n
    (n, [c.codeLo.toNat, c.codeHi.toNat, c.dtbase.toNat, c.dtlen.toNat]))
  let src := match r.cause with | 0x18 => 5 | 0x19 => 6 | _ => 7
  let s1 := (portsOf s chip).foldl haltPort s
  let recs := openRecords s chip
  let s2 : State := { s1 with
    colls := s1.colls.filter (fun x => x.chip != chip),
    accs := s1.accs.filter (fun a => !(recs.any (fun x => x.op != 0 && x.op = a.op))),
    atoms := s1.atoms.filter (fun a => !(recs.any (fun x => x.op != 0 && x.op = a.op))) }
  let s3 := (jobCores s chip).foldl (fun s n => raiseNow (if r.auto then haltCore s n else s) n src r.cause r.sub r.tval) s2
  let q : Result :=
    if r.auto then
      { st := { recs.foldl closeOp s3 with recs := s3.recs.filter (fun x => !(recs.any (fun y => y.ident = x.ident))) }, writes := [] }
    else chainResults (fun s x => abandonRecord s x r) (countLost s3 chip r.extra) recs
  let c := q.st.chip chip
  let c1 : Chip := { c with
    recovery := some { r with halted := true, extra := 0, bounds := bounds },
    rcState := if r.auto then 1 else 2, rcHalt := BitVec.ofNat 64 h,
    rcReplay := if r.auto then BitVec.ofNat 64 r.replay else c.rcReplay, vid := if r.auto then BitVec.ofNat 16 r.vid else c.vid }
  let e : HostEvent := { chip := chip, src := 0x30, code := 1,
                         data := BitVec.ofNat 320 (c1.rcstat.toNat + c1.rcHalt.toNat <<< 64 + c1.rcReplay.toNat <<< 128) }
  { q with st := (q.st.setChip chip c1).post e }

/-- A place moved by some plies. -/
def LinkPlace.shift (p : LinkPlace) (d : Int) : LinkPlace :=
  { p with base := ((p.base : Int) + d).toNat, loops := p.loops.map (fun l => { l with outer := ((l.outer : Int) + d).toNat }) }

/-- A port at the replay ply: by its start value it starts, resumes at its restart point, or stays idle (R470).
Log 67, DEDUCED. -/
def replayPort (s : State) (p value stage : Nat) : State :=
  let s1 :=
    if value < 0xFFFE then startEngine s p s.now value 0 (firstPlace s.now value)
    else if value = 0xFFFE then
      let e := s.engine p
      match e.points.find? (fun x => x.1 = stage) with
      | some (_, start, at0) =>
        let d : Int := (s.now : Int) - start
        let dst := at0.shift d
        let s1 := startEngine s p ((e.frame : Int) + d).toNat dst.index 0 dst
        s1.setEngine p { s1.engine p with points := e.points.map (fun x => if x.1 = stage then (stage, s.now, dst) else x) }
      | none => s
    else s
  readDue s1 p

/-- A core at the replay ply: a launch at its restart address (R470). -/
def replayCore (s : State) (chip k : Nat) (r : Recovery) : State :=
  let m := s.pmap chip
  let e := tableNat s chip (0x1C20000 + 4 * k) 4
  if !bit e 31 || field e 30 22 != 0 then s
  else
    let n := 1536 * chip + m.physCore (m.logicalChip chip) k
    let b := mapGet [0, 0, 0, 0] r.bounds n
    let regs : Map Word := (([(1, r.stage), (2, r.stage % 2), (3, r.vid), (4, linkKey r.origin r.port)] : List (Nat × Nat)).filter
      (fun x => x.2 != 0)).map (fun x => (x.1, BitVec.ofNat 64 x.2))
    fullLaunch s n { entry := e % 2 ^ 22, codeLo := b.getD 0 0, codeHi := b.getD 1 0, regs := regs, caps := [],
                     dtbase := b.getD 2 0, dtlen := b.getD 3 0 } s.now

/-- The replay ply of a chip (R470). -/
def replayChip (s : State) (chip : Nat) (r : Recovery) : State :=
  let h := (recoveryHeader s chip).getD 0
  let c := s.chip chip
  let s1 := s.setChip chip { c with
    recovery := none, rcState := 0, curStage := BitVec.ofNat 16 r.stage, rcCur := BitVec.ofNat 64 (s.now - headerCw h), curStart := s.now,
    prvStage := 0xFFFF, rcPrv := BitVec.allOnes 64 }
  let s0 := (portsOf s1 chip).foldl (fun s p => s.setEngine p { s.engine p with job := none }) s1
  let s2 := (rangeFrom (12 * chip) 12).foldl (fun s p =>
    replayPort s p (tableNat s chip (0x1C30000 + 2 * ((r.vid * headerStages h + r.stage) * 12 + p % 12)) 2) r.stage) s0
  (rangeFrom 0 1536).foldl (fun s k => replayCore s chip k r) s2

/-! ## Pre-emption and resume notices (R391, R399) -/

/-- A pre-emption ply is announced to a chip, and to the cores of its job, whichever job that is. Log 11, DEDUCED.
Log 140, DESIGN CHOICE. -/
def announcePreempt (s : State) (chip p : Nat) : State :=
  let s1 := s.setChip chip { s.chip chip with preempt := some p }
  (jobCores s chip).foldl (fun s n =>
    s.setCore n { s.core n with prply := BitVec.ofNat 64 p, diverted := false, preDone := false, preLate := false }) s1

/-- A resume ply is announced to a chip, and to the cores of its job. -/
def announceResume (s : State) (chip q : Nat) : State :=
  let s1 := s.setChip chip { s.chip chip with resumeQ := some q }
  (jobCores s chip).foldl (fun s n => s.setCore n { s.core n with rsply := BitVec.ofNat 64 q }) s1

/-! ## Bring-up (R487 to R489) -/

/-- A write of PODJOIN. Log 80, DEDUCED. -/
def askJoin (s : State) (chip : Nat) : State :=
  s.setChip chip { s.chip chip with joinAsked := some s.now }

/-- From the end of a guard interval on, a chip whose tree ports have all passed the exchange of it joins the pod, if it was asked
before the interval began. Log 80, DEDUCED. -/
def joinPod (s : State) (chip : Nat) : State :=
  let c := s.chip chip
  let g := guardOf s.now
  let passed (p : Nat) : Bool := (s.port p).role = 0 || (s.port p).passed = some g
  if g + 96 ≤ s.now && 65536 ≤ g && c.bstate = 3 && (match c.joinAsked with | some j => decide (j ≤ g) | none => false) &&
      (portsOf s chip).all passed then s.setChip chip { c with bstate := 4 }
  else s

/-- Whether MWDCNT has reached a limit that is not zero. -/
def Chip.overTime (c : Chip) : Bool := c.mwdlim != 0 && c.mwdlim ≤ c.mwdcnt && !c.mwdFired

/-- The management watchdog expires. -/
def expireWatchdog (s : State) (chip : Nat) : State :=
  let c := s.chip chip
  let s1 := (s.setChip chip { c with mwdFired := true }).post { chip := chip, src := 0x50, code := 1, data := 0 }
  if c.mwdact then stopCores s1 chip else s1

/-- What a reset leaves of the list of accesses and the like: nothing of the chip. -/
def clearChip (s : State) (chip : Nat) : State :=
  let off (p : Nat) : Bool := p / 12 != chip
  { s with
    cores := s.cores.filter (fun e => chipOf e.1 != chip), accs := s.accs.filter (fun a => chipOf a.core != chip),
    atoms := s.atoms.filter (fun a => chipOf a.core != chip), leases := s.leases.filter (fun l => l.die / 24 != chip),
    pmaps := mapDel s.pmaps chip, slots := s.slots.filter (fun x => off x.port), recs := s.recs.filter (fun r => chipOf r.unit != chip),
    ports := s.ports.filter (fun e => off e.1), claims := s.claims.filter (fun c => off c.port),
    sends := s.sends.filter (fun r => off r.port), outs := s.outs.filter (fun x => off x.port),
    flits := s.flits.filter (fun f => off f.port), ctrls := s.ctrls.filter (fun c => off c.port),
    outMsgs := s.outMsgs.filter (fun m => off m.port), inMsgs := s.inMsgs.filter (fun m => m.chip != chip),
    charges := s.charges.filter (fun x => x.chip != chip), colls := s.colls.filter (fun x => x.chip != chip),
    xfers := s.xfers.filter (fun x => x.chip != chip), marks := s.marks.filter (fun m => off m.port),
    posted := s.posted.filter (fun e => e.chip != chip) }

/-- A reset of a package: every register of it at its reset value, nothing of it in flight. Log 84, DEDUCED. -/
def resetChip (s : State) (chip : Nat) : State := (clearChip s chip).setChip chip Chip.reset

/-- Self-test has passed: the state of the cores and the scratchpads are zero, and the part offers local service.
Log 84, DEDUCED. -/
def passSelfTest (s : State) (chip : Nat) : Result :=
  let mine (a : Nat) : Bool := a >>> 48 = chip && addrWin a = 0
  let c := s.chip chip
  { st := { s.setChip chip { c with bstate := 2 } with
              cores := s.cores.filter (fun e => chipOf e.1 != chip), tags := s.tags.filter (fun t => (16 * t.1) >>> 48 != chip) },
    writes := (s.mem.filter (fun x => mine x.1)).map (fun x => (x.1, 0)) }

/-- The firmware check ends with a result. -/
def endFirmwareCheck (s : State) (chip : Nat) (result : BitVec 2) : State :=
  let c := s.chip chip
  if c.bstate = 2 && c.fwstat = 0 then
    s.setChip chip { c with fwstat := result, bstate := if result = 1 then 3 else 2 }
  else s

/-! ## BAR0 (R480, R481, R483, R489, R490) -/

/-- A register of a port block as it reads. -/
def portRead (v : Port) (off : Nat) : Word :=
  let n (x : Nat) : Word := BitVec.ofNat 64 x
  match off with
  | 0x00 => n v.w.toNat
  | 0x08 => n (v.state.toNat + v.tfail.toNat <<< 8 + v.lastSub.toNat <<< 16)
  | 0x10 => v.det
  | 0x18 => v.uncl
  | 0x20 => v.repaired
  | 0x28 => v.tboff
  | 0x30 => v.tbdel
  | 0x38 => n v.role.toNat
  | 0x48 => v.frame
  | 0x50 => n (v.engine.run.toNat + v.engine.fcode.toNat <<< 8)
  | 0x58 => n v.engine.lpc.toNat
  | 0x60 => n v.engine.stage.toNat
  | _ => 0

/-- A register of the root's tempo block as it reads. -/
def tempoRead (c : Chip) (off : Nat) : Word :=
  match off with
  | 0x00 => c.tnow
  | 0x08 => c.tz
  | 0x10 => c.capMsg
  | 0x18 => c.capstat
  | 0x20 => c.ceiling.setWidth 64
  | 0x28 => c.dsplit.setWidth 64
  | 0x30 => c.dhold.setWidth 64
  | 0x38 => c.thold.setWidth 64
  | _ => 0

/-- A BAR0 register of a package as it reads. -/
def barRead (s : State) (chip off : Nat) : Word :=
  let c := s.chip chip
  match off with
  | 0x000 => 0x000000015A444624
  | 0x008 => c.bstate.setWidth 64
  | 0x010 => c.fwstat.setWidth 64
  | 0x020 => c.dsplit.setWidth 64
  | 0x028 => Config.identityKey chip
  | 0x100 => c.mtime
  | 0x108 => c.mwdlim
  | 0x110 => c.mwdcnt
  | 0x118 => if c.mwdact then 1 else 0
  | 0x200 => mapGet 0 c.curlim 0
  | 0x208 => mapGet 0 c.curlim 1
  | 0x210 => mapGet 0 c.curlim 2
  | 0x218 => c.twarn.setWidth 64
  | 0x220 => c.tcrit.setWidth 64
  | 0xC00 => Config.energyMeter chip s.now
  | 0x1800 => c.rcstat
  | 0x1808 => c.rcCur
  | 0x1810 => c.rcPrv
  | 0x1818 => c.rcHalt
  | 0x1820 => c.rcReplay
  | 0x2000 => c.cmdCons.setWidth 64
  | 0x2008 => c.evProd.setWidth 64
  | 0x2010 => c.evAck.setWidth 64
  | 0x2018 => c.evLost.setWidth 64
  | _ =>
    if 0x240 ≤ off && off < 0x330 && off % 8 = 0 then (mapGet 0 c.temps ((off - 0x240) / 8)).setWidth 64
    else if 0x800 ≤ off && off < 0xC00 && off % 16 = 0 then (c.actagOf ((off - 0x800) / 16)).setWidth 64
    else if 0x800 ≤ off && off < 0xC00 && off % 16 = 8 then c.acnjWord ((off - 0x800) / 16)
    else if 0x1000 ≤ off && off < 0x1600 then portRead (s.port (12 * chip + (off - 0x1000) / 0x80)) (off % 0x80)
    else if 0x1900 ≤ off && off < 0x1940 && chip = s.root then tempoRead c (off - 0x1900)
    else 0

/-- A write of ACTAGn: the slot is bound, and its charges are cleared (R414). Slot 63 ignores it. Log 79, DEDUCED. -/
def writeActag (s : State) (chip n : Nat) (v : Word) : State :=
  let c := s.chip chip
  if 63 ≤ n then s
  else s.setChip chip { c with actag := mapSet 0 c.actag n (v.setWidth 17), acnj := mapDel c.acnj n }

/-- A write of a register of a port block. One of PW brings a failed port up again (R424). Log 57, DEDUCED. -/
def portRegWrite (s : State) (p off : Nat) (v : Word) : State :=
  let x := s.port p
  match off with
  | 0x00 => s.setPort p { x with w := v.setWidth 7, raise := true }
  | 0x38 => s.setPort p { x with role := v.setWidth 2 }
  | 0x40 =>
    let s1 := if v.getLsbD 0 then startPort s p else s
    if v.getLsbD 1 then armPort s1 p else s1
  | 0x48 => s.setPort p { x with frame := v }
  | _ => s

/-- A write of a BAR0 register of a package, at the ply at which it takes effect. -/
def barWrite (s : State) (chip off : Nat) (v : Word) : State :=
  let c := s.chip chip
  match off with
  | 0x018 => if v = 1 then askJoin s chip else s
  | 0x020 => s.setChip chip { c with dsplit := v.setWidth 2 }
  | 0x108 => s.setChip chip { c with mwdlim := v, mwdFired := false }
  | 0x110 => s.setChip chip { c with mwdcnt := 0, mwdFired := false }
  | 0x118 => s.setChip chip { c with mwdact := v.getLsbD 0 }
  | 0x200 => s.setChip chip { c with curlim := mapPut c.curlim 0 v }
  | 0x208 => s.setChip chip { c with curlim := mapPut c.curlim 1 v }
  | 0x210 => s.setChip chip { c with curlim := mapPut c.curlim 2 v }
  | 0x218 => s.setChip chip { c with twarn := v.setWidth 8 }
  | 0x220 => s.setChip chip { c with tcrit := v.setWidth 8 }
  | 0x2010 => s.setChip chip { c with evAck := v.setWidth 32 }
  | _ =>
    if 0x800 ≤ off && off < 0xC00 && off % 16 = 0 then writeActag s chip ((off - 0x800) / 16) v
    else if 0x1000 ≤ off && off < 0x1600 then portRegWrite s (12 * chip + (off - 0x1000) / 0x80) (off % 0x80) v
    else if chip != s.root then s
    else match off with
      | 0x1910 => capMessage s v
      | 0x1928 => s.setChip chip { c with dsplit := v.setWidth 2 }
      | 0x1930 => s.setChip chip { c with dhold := v.setWidth 32 }
      | 0x1938 => s.setChip chip { c with thold := v.setWidth 32 }
      | _ => s

/-! ## The plies of the packages -/

/-- What one ply adds to MTIME (R489). -/
def plyTime (tempo : BitVec 2) : Nat := [16, 20, 25, 50].getD tempo.toNat 0

/-- The end of a ply for a package: its time base. -/
def endPlyChip (s : State) (chip : Nat) : State :=
  let c := s.chip chip
  let d := BitVec.ofNat 64 (plyTime c.tempo)
  s.setChip chip { c with mtime := c.mtime + d, mwdcnt := c.mwdcnt + d }

/-- The start of a ply for a package: the limits of a window, and joining. -/
def startPlyChip (s : State) (chip : Nat) : State :=
  let c := s.chip chip
  joinPod (if s.now % 256 = 0 then s.setChip chip { c with limits := c.curlim } else s) chip

/-! ## Meanings -/

/-- ACTAG_WRITE (R414). A write to ACTAGn binds the slot and clears ACNJn. -/
def execActagWrite (chip : Nat) (index : Nat) (v : BitVec 64) (s : State) : Host.Outcome State Fault Refusal :=
  finishSame s (writeActag s chip index v)

/-- REGISTER_WRITE (R33). A write to a control state or BAR0 register without behaviour of its own updates its writable fields. -/
def execRegisterWrite (bar : Bool) (unit : Nat) (index : Nat) (v : BitVec 64) (s : State) : Host.Outcome State Fault Refusal :=
  finishSame s (if bar then barWrite s unit index v else csWrite s unit index v)

/-- TEMPO_NOTICE (R409). Message kind 1 announcing a tempo change at ply Z is received, relayed and held. -/
def execTempoNotice (chip : Nat) (s : State) : Host.Outcome State Fault Refusal :=
  match msgFor s 1 chip with
  | some m =>
    let s1 := relayDown s m
    let arg := msgArg8 m.bits
    finishSame s (s1.setChip chip ((s1.chip chip).hold (msgPly m.bits) (BitVec.ofNat 2 arg) (BitVec.ofNat 2 (arg >>> 2))))
  | none => .next s

/-- PREEMPTION_NOTICE (R391). Message kind 2 announcing a pre-emption ply is received; PRPLY is set. -/
def execPreemptionNotice (chip : Nat) (s : State) : Host.Outcome State Fault Refusal :=
  match msgFor s 2 chip with
  | some m => finishSame s (announcePreempt (relayDown s m) chip (msgPly m.bits))
  | none => .next s

/-- RESUME_NOTICE (R399). Message kind 3 announcing the resume ply is received; RSPLY is set. -/
def execResumeNotice (chip : Nat) (s : State) : Host.Outcome State Fault Refusal :=
  match msgFor s 3 chip with
  | some m => finishSame s (announceResume (relayDown s m) chip (msgPly m.bits))
  | none => .next s

/-- FAULT_NOTICE (R462). Message kind 4 is relayed up, returned by the root, and applied to choose the recovery mode and halt ply. -/
def execFaultNotice (chip : Nat) (s : State) : Host.Outcome State Fault Refusal :=
  match msgFor s 4 chip with
  | some m => finishSame s (takeNotice s m)
  | none => .next s

/-- TEMPO_D_REQUEST (R473). Message kind 5 received at the root starts or extends a D hold. -/
def execTempoDRequest (chip : Nat) (s : State) : Host.Outcome State Fault Refusal :=
  match msgFor s 5 chip with
  | some m =>
    if chip = s.root then
      let s1 := dropMsg s m
      let c := s1.chip chip
      finishSame s (retune (s1.setChip chip { c with dUntil := some (s.now + c.dhold.toNat) }))
    else finishSame s (relayUp s m)
  | none => .next s

/-- SLOW_DOWN_NOTICE (R474). Message kind 6 lowers the root's thermal ceiling one step. -/
def execSlowDownNotice (chip : Nat) (s : State) : Host.Outcome State Fault Refusal :=
  match msgFor s 6 chip with
  | some m =>
    if chip = s.root then
      let s1 := dropMsg s m
      let c := s1.chip chip
      finishSame s (retune (s1.setChip chip { c with ceiling := if c.ceiling = 0 then 1 else 2, calmFrom := s.now }))
    else finishSame s (relayUp s m)
  | none => .next s

/-- D_HOLD_END (R473). A D hold expires and tempo D ceases to count. -/
def execDHoldEnd (s : State) : Host.Outcome State Fault Refusal :=
  if plyDue (s.chip s.root).dUntil s.now then
    finishSame s (retune (s.setChip s.root { s.chip s.root with dUntil := none }))
  else .next s

/-- THERMAL_STEP_UP (R474). After THOLD plies without a slow-down notice the thermal ceiling rises one step. -/
def execThermalStepUp (s : State) : Host.Outcome State Fault Refusal :=
  let c := s.chip s.root
  if c.ceiling != 0 && c.calmFrom + c.thold.toNat ≤ s.now then
    finishSame s (retune (s.setChip s.root { c with ceiling := c.ceiling - 1, calmFrom := s.now }))
  else .next s

/-- POWER_CAP_MESSAGE (R475). A write of CAPMSG is applied as a new cap or dropped as stale. -/
def execPowerCapMessage (v : BitVec 64) (s : State) : Host.Outcome State Fault Refusal :=
  finishSame s (capMessage s v)

/-- CAP_LEASE_EXPIRY (R475). The cap lease expires and the cap becomes C with LAPSED set. -/
def execCapLeaseExpiry (s : State) : Host.Outcome State Fault Refusal :=
  let c := s.chip s.root
  if c.leaseOver then
    let s1 := s.setChip s.root { c with leaseEnd := none, cap := 2, lapsed := true }
    finishSame s (retune (postTempo s1 2))
  else .next s

/-- CONVERTER_SWITCH (R409). Converters switch ratio 1,024 plies before or after a tempo change. -/
def execConverterSwitch (chip : Nat) (s : State) : Host.Outcome State Fault Refusal :=
  match (s.chip chip).nextRatio s.now with
  | some r => finishSame s (s.setChip chip { s.chip chip with ratio := r })
  | none => .next s

/-- TEMPO_CHANGE (R409). At ply Z the clock takes the new tempo and split code; local service stays at tempo C (R487). -/
def execTempoChange (chip : Nat) (s : State) : Host.Outcome State Fault Refusal :=
  let c := s.chip chip
  match c.changeDue s.now with
  | some h =>
    let c1 : Chip := { c with held := c.held.filter (fun x => x != h) }
    finishSame s (s.setChip chip
      (if c.bstate.toNat < 3 then c1 else { c1 with tempo := h.tempo, split := h.split, changedAt := s.now }))
  | none => .next s

/-- CURRENT_WINDOW_END (R411). At the end of a 256-ply window an over-limit average sends a tempo-D request. -/
def execCurrentWindowEnd (chip : Nat) (amps : Nat) (s : State) : Host.Outcome State Fault Refusal :=
  finishSame s (currentWindow s chip amps)

/-- TEMPERATURE_READING (R412). A periodic temperature reading sends a slow-down notice at WARN or halts the package at CRIT. -/
def execTemperatureReading (chip : Nat) (die : Nat) (temp : BitVec 8) (s : State) : Host.Outcome State Fault Refusal :=
  finishSame s (temperature s chip die temp)

/-- HALT_PLY (R464). At H every chip of the job stops its engines and either idles the cores or makes the cause due. -/
def execHaltPly (chip : Nat) (s : State) : Host.Outcome State Fault Refusal :=
  match (s.chip chip).recovery with
  | some r => if (s.chip chip).haltDue s.now then finish s (haltChip s chip r) else .next s
  | none => .next s

/-- REPLAY_PLY (R470). At Y ports and cores of the job restart from the target stage on the chosen VID. -/
def execReplayPly (chip : Nat) (s : State) : Host.Outcome State Fault Refusal :=
  match (s.chip chip).recovery with
  | some r => if (s.chip chip).replayDue s.now then finishSame s (replayChip s chip r) else .next s
  | none => .next s

/-- POD_JOIN (R487). A write of 1 to PODJOIN requests the move from package ready to pod joined. -/
def execPodJoin (chip : Nat) (s : State) : Host.Outcome State Fault Refusal :=
  finishSame s (askJoin s chip)

/-- MANAGEMENT_WATCHDOG (R489). MWDCNT reaches MWDLIM; an event is posted and cores may be stopped. -/
def execManagementWatchdog (chip : Nat) (s : State) : Host.Outcome State Fault Refusal :=
  if (s.chip chip).overTime then finishSame s (expireWatchdog s chip) else .next s

/-- RESET (R487). Reset returns the part to the power-on state. -/
def execReset (chip : Nat) (s : State) : Host.Outcome State Fault Refusal :=
  finishSame s (resetChip s chip)

/-- POWER_ON (R487). Supplies become stable and the part enters self-test. -/
def execPowerOn (chip : Nat) (s : State) : Host.Outcome State Fault Refusal :=
  let c := s.chip chip
  finishSame s (if c.bstate = 0 then s.setChip chip { c with bstate := 1 } else s)

/-- SELF_TEST (R487). Every die passes self-test, state and scratchpads are zeroed, and the part enters local service. -/
def execSelfTest (chip : Nat) (s : State) : Host.Outcome State Fault Refusal :=
  if (s.chip chip).bstate = 1 then finish s (passSelfTest s chip) else .next s

/-- FIRMWARE_CHECK (R488). The firmware signature check ends, setting FWSTAT and moving to package ready on success. -/
def execFirmwareCheck (chip : Nat) (result : BitVec 2) (s : State) : Host.Outcome State Fault Refusal :=
  finishSame s (endFirmwareCheck s chip result)

/-- ATTESTATION (R488). The device signs the host's nonce, the firmware digest and BSTATE with its identity key. -/
def execAttestation (chip : Nat) (nonce : BitVec 256) (s : State) : Host.Outcome State Fault Refusal :=
  let c := s.chip chip
  finishSame s (s.setChip chip { c with
    quote := Config.signature chip nonce (Config.firmwareDigest chip) c.bstate, attested := some s.now })

end Sys2Proof.Machine
end

