-- ==== Sys2Proof/Machine/Collective.lean ====
section
/-! DEFINITION. Collectives: the table entries, acceptance, signatures, completion, and the compression steps
(R363, R450 to R460). -/

namespace Sys2Proof.Machine

/-! ## Handing over (R363, R407) -/

/-- A collective record that its sequencer has accepted passes to the collective sequencers. -/
def handOver (s : State) (opc : Nat) (q : GtsRec) : Host.Outcome State Fault Refusal :=
  match s.recs.find? (fun r => r.word = recordBits opc q && r.running && r.stop.isNone && !s.colls.any (fun c => c.record = r.ident)) with
  | some r =>
    finishSame s { s with colls := s.colls ++ [{ record := r.ident, started := false, chip := chipOf r.unit, die := 0, frame := 0,
                                                 sigEnd := 0, done := 0, steps := [] }] }
  | none => .next s

/-! ## Table entries (R451, R452) -/

/-- The OP code of a collective record. -/
def collectiveOp (w : Nat) : Nat :=
  let b := if bit (recOpf w) 0 then 1 else 0
  match recOpc w with
  | 0x0B => 0
  | 0x0C => 1 + b
  | 0x0D => 3 + b
  | _ => 5

/-- The number of elements of a tensor. -/
def Tensor.count (t : Tensor) : Nat := (t.ext.take t.rank).foldl (fun n e => n * e) 1

/-- An entry of the collective table of a link die; its fields. -/
def collEntry (s : State) (chip l i : Nat) : Nat := readNat s.mem (linkAddr chip l (0x1C00000 + 64 * i)) 64
def entryTid (e : Nat) : Nat := field e 27 16
def entryOrder (e : Nat) : Nat := field e 39 32
def entryMode (e : Nat) : Nat := field e 47 40
def entryPorts (e : Nat) : Nat := field e 55 48
def entryLead (e : Nat) : Nat := field e 95 64
def entrySigEnd (e : Nat) : Nat := field e 127 96
def entryDone (e : Nat) : Nat := field e 159 128
def entryStart (e q : Nat) : Nat := field e (175 + 16 * q) (160 + 16 * q)
def entrySigBuf (e : Nat) : Nat := field e 223 192
def entryStepBuf (e : Nat) : Nat := field e 255 224
def entrySteps (e : Nat) : Nat := field e 271 256
def entryCount (e : Nat) : Nat := field e 319 288

/-- The first entry of a link die that a record matches. -/
def matchEntry (s : State) (chip l w count : Nat) : Option Nat :=
  (rangeFrom 0 1024).findSome? (fun i =>
    let e := collEntry s chip l i
    if bit e 15 && field e 14 12 = collectiveOp w && field e 11 0 = recArg w % 4096 && entryCount e = count % 2 ^ 32 then some e
    else none)

/-- The ports of a link die that an entry names. -/
def entryPortList (chip l e : Nat) : List Nat :=
  ((rangeFrom 0 2).filter (fun q => bit (entryPorts e) q)).map (fun q => 12 * chip + 2 * l + q)

/-! ## The step list (R458) -/

def stepStamp (w : Nat) : Nat := w % 2 ^ 32
def stepOpc (w : Nat) : Nat := field w 35 32
def stepK (w : Nat) : Nat := field w 39 36
def stepSrc (w : Nat) : Nat := 64 * field w 58 40
def stepDst (w : Nat) : Nat := 64 * field w 77 59
def stepEf (w : Nat) : Nat := 64 * field w 96 78
def stepBlocks (w : Nat) : Nat := field w 112 97 + 1

/-- The bytes of a block record. -/
def recordSize (w : Nat) : Nat := if stepOpc w ≤ 2 then 4 + 4 * stepK w else 18

/-- Whether a range of a chunk buffer is one that a step may use. -/
def stepRangeOk (at0 len : Nat) : Bool := at0 + len ≤ 0x2000000 && (at0 + len ≤ 0x1C00000 || 0x1D80000 ≤ at0)

/-- Whether one step keeps the layout and its ranges. -/
def stepOk (w : Nat) : Bool :=
  let o := stepOpc w
  let n := stepBlocks w
  let packs := o = 1 || o = 3
  field w 127 113 = 0 && 1 ≤ o && o ≤ 4 && (o = 3 || stepEf w = 0) && (if o ≤ 2 then 1 ≤ stepK w else stepK w = 0) &&
    stepRangeOk (stepSrc w) (if packs then 128 * n else recordSize w * n) &&
    stepRangeOk (stepDst w) (if packs then recordSize w * n else 128 * n) && (o != 3 || stepRangeOk (stepEf w) (128 * n))

/-- Whether a list of steps keeps its order: each from the stamp of the one before plus ⌈NB/2⌉, NB being its blocks less 1. -/
def stepsInOrder : List Nat → Bool
  | a :: b :: ws => stepStamp a + stepBlocks a / 2 ≤ stepStamp b && stepsInOrder (b :: ws)
  | _ => true

/-- The steps of an entry. -/
def entryStepList (s : State) (chip l e : Nat) : List Nat :=
  (rangeFrom 0 (entrySteps e)).map (fun i => readNat s.mem (linkAddr chip l (64 * entryStepBuf e + 16 * i)) 16)

/-- Whether a matching entry fails the checks of R452. -/
def entryBad (s : State) (chip l w fmt e : Nat) : Bool :=
  let steps := entryStepList s chip l e
  field e 31 28 != 0 || 1 < entryOrder e || 2 < entryMode e || field e 55 50 != 0 || field e 63 56 != 0 ||
    entryLead e < 1024 || 2 ^ 24 < entryLead e || field e 287 272 != 0 || e >>> 320 != 0 || 4096 < entrySteps e ||
    entryDone e ≤ entrySigEnd e + 12801 ||
    (entryMode e != 0 && !((collectiveOp w = 1 || collectiveOp w = 3) && fmt = 0 && entryOrder e = 0)) ||
    !steps.all stepOk || !stepsInOrder steps || (entryPortList chip l e).any (fun p => (s.engine p).run != 0)

/-! ## Start (R452, R453, R455) -/

/-- The signature of a collective on a link die. -/
def signature (w fmt e : Nat) : Nat :=
  entryTid e + (recArg w % 4096) <<< 12 + (entryOrder e % 2) <<< 24 + collectiveOp w <<< 25 + (fmt % 16) <<< 28 +
    entryCount e <<< 32

/-- One link die takes part: the signature is written, its engines start, its steps are set. A frame less than 1,024 plies ahead is a bad
start, as for START (R434, R453); local service starts no engine (R487). Log 84, DEDUCED. -/
def startDie (s : State) (r : GtsRun) (chip fmt : Nat) (x : Nat × Nat) : State :=
  let (l, e) := x
  let f := r.accepted.getD 0 + entryLead e
  let s1 := unitAccess s chip (unitRank chip l) s.now true (linkAddr chip l (64 * entrySigBuf e)) 64 (signature r.word fmt e) .nowhere
  let s2 := (entryPortList chip l e).foldl (fun s p =>
    if (s.chip chip).bstate.toNat < 3 then s
    else if f < s.now + 1024 then engineFault s p 0x11
    else readDue (startEngine s p f (entryStart e (p % 2)) (f + entrySigEnd e + 12801) (firstPlace f (entryStart e (p % 2)))) p) s1
  let steps := (entryStepList s chip l e).map (fun w => (f + stepStamp w, 0, BitVec.ofNat 128 w))
  { s2 with colls := s2.colls ++ [{ record := r.ident, started := true, chip := chip, die := l, frame := f, sigEnd := entrySigEnd e,
                                    done := f + entryDone e, steps := steps }] }

/-- The collective of a chip whose dispatch ply has come, with its record. -/
def startable (s : State) (chip : Nat) : Option (Coll × GtsRun) :=
  s.colls.findSome? (fun c =>
    if c.chip = chip && !c.started then
      (s.record c.record).bind (fun r => if r.accepted.getD 0 + 28 ≤ s.now then some (c, r) else none)
    else none)

/-- The dispatch of a collective: its checks, and its start on every link die that holds a match. -/
def startCollective (s : State) (c : Coll) (r : GtsRun) : State :=
  let chip := c.chip
  let w := r.word
  let m := s.pmap chip
  let a := (r.tensors.getD 1 none).getD (parseTensor 0)
  let member : Bool := match groupMembers s chip w with
    | some ls => ls.contains (m.logicalChip chip)
    | none => false
  let dies := (rangeFrom 0 6).filterMap (fun l => (matchEntry s chip l w a.count).map (fun e => (l, e)))
  let bad : List Failed :=
    (if member then [] else [(0x0D, 2, r.addr)]) ++ (if bit r.cap.perm 5 then [] else [(0x0A, 5, r.addr)]) ++
    (if (recOpc w = 0x0C || recOpc w = 0x0D) && [0, 1].any (fun k => (r.tensors.getD k none).any (fun t => 2 < t.fmt)) then [(0x14, 0x25, r.addr)] else []) ++
    (if dies.isEmpty || dies.any (fun x => entryBad s chip x.1 w a.fmt x.2) then [(0x14, 0x27, r.addr)] else [])
  let s1 : State := { s with colls := s.colls.filter (fun x => x != c) }
  match firstFailed bad with
  | some f =>
    s1.setRecord { r with stop := some 0, latest := max r.latest s.now,
                          fault := some { lvl := r.lvl, cause := f.1, sub := f.2.1, addr := f.2.2, child := 2 ^ 32 - 1 } }
  | none => dies.foldl (fun s x => startDie s r chip a.fmt x) s1

/-! ## Completion (R453) -/

/-- The record of a chip whose collective is done on every link die that took part. Log 77, DEDUCED. -/
def finishable (s : State) (chip : Nat) : Option GtsRun :=
  s.recs.find? (fun r =>
    let mine := s.colls.filter (fun c => c.record = r.ident && c.chip = chip)
    r.running && !mine.isEmpty && mine.all (fun c => c.started && c.done ≤ s.now))

/-- The completion of a collective: the add of the byte count of d's footprint on this chip, and the record's completion ply.
Log 77, DEDUCED. -/
def completeCollective (s : State) (chip : Nat) (r : GtsRun) : State :=
  let ctr := recCtr r.word
  let bytes := match r.tensors.getD 0 none with
    | some d => coveredBytes (d.footprint.filter (fun x => match chipName s r.who (lowBits x.1 64) with | .own _ => true | _ => false))
    | none => 0
  let s1 : State := { s with colls := s.colls.filter (fun c => !(c.record = r.ident && c.chip = chip)) }
  if ctr = 0 then s1.setRecord { r with stop := some 0, latest := max r.latest s.now }
  else
    let s2 := s1.setRecord { r with stop := some 0, latest := max r.latest (s.now + 30) }
    { s2 with
      atoms := s2.atoms ++ [{ ident := 2 * s.nextId + 1, op := r.op, core := r.who, rank := unitRank chip 0, order := s.nextId,
                              due := s.now + 30, landAt := s.now + 30, addr := ownHome s r.who ctr,
                              kind := if recBar r.word then .barrier else .add, x := BitVec.ofNat 64 bytes, y := 0, dest := none }],
      nextId := s2.nextId + 1 }

/-! ## Compression steps (R459, R460) -/

/-- The 32 elements of a block at an offset of a chunk buffer. -/
def blockAt (s : State) (chip l off : Nat) : List Nat := splitPieces 32 32 (readNat s.mem (linkAddr chip l off) 128)

/-- What a step writes for a block: offset, bytes, value. -/
abbrev StepWrite := Nat × Nat × Nat

/-- The elements that TOPK chooses: those with fewer than k elements before them in magnitude, ties to the lower index. -/
def chosen (k : Nat) (xs : List Nat) : List Bool :=
  let keys := xs.map (fun x => x % 2 ^ 31)
  keys.mapIdx (fun i a => ((keys.mapIdx (fun j b => (j, b))).filter (fun y => a < y.2 || (y.2 = a && y.1 < i))).length < k)

/-- A mask of 32 bits. -/
def chosenMask (bs : List Bool) : Nat := joinPieces 1 (bs.map (fun b => if b then 1 else 0))

/-- TOPK on block b. -/
def topkBlock (s : State) (chip l w b : Nat) : List StepWrite :=
  let xs := blockAt s chip l (stepSrc w + 128 * b)
  let ch := chosen (stepK w) xs
  let vs := ((List.zip ch xs).filter Prod.fst).map Prod.snd
  [(stepDst w + b * recordSize w, recordSize w, chosenMask ch + joinPieces 32 vs <<< 32)]

/-- SCADD on block b: the elements that the mask chooses, and no others, are written. -/
def scaddBlock (s : State) (chip l w b : Nat) : List StepWrite :=
  let rec0 := readNat s.mem (linkAddr chip l (stepSrc w + b * recordSize w)) (recordSize w)
  let ys := (blockAt s chip l (stepDst w + 128 * b)).mapIdx (fun i y => (i, y))
  (ys.filter (fun x => bit rec0 x.1)).map (fun x =>
    let k := popCount x.1 rec0
    (stepDst w + 128 * b + 4 * x.1, 4, f32Add x.2 (field rec0 (32 * k + 63) (32 * k + 32))))

/-- mx / 7 rounded to BF16 (R460). -/
def seventh (mx : Nat) : Nat :=
  match decodeF32 mx with
  | .fin _ m e => roundMag 7 0 false ((m <<< 40) / 7) (e - 40) ((m <<< 40) % 7 != 0) 0
  | _ => 0

/-- The value of a code under a scale (R165). -/
def codeValue (q : Int) (scale : Nat) : Nat := (mxExact q scale).f32

/-- Q4 on block b. -/
def q4Block (s : State) (chip l w b : Nat) : List StepWrite :=
  let vs := List.zipWith f32Add (blockAt s chip l (stepSrc w + 128 * b)) (blockAt s chip l (stepEf w + 128 * b))
  let mx := vs.foldl (fun m v => max m (v % 2 ^ 31)) 0
  let scale := if mx < 0x7F800000 && mx != 0 then seventh mx else 0
  let qs := vs.map (fun v => mxCode (decodeF32 v) scale 0 0 7)
  let es := List.zipWith (fun v q => if scale = 0 then v else f32Sub v (codeValue q scale)) vs qs
  [(stepDst w + 18 * b, 18, scale + (joinPieces 4 (qs.map (fun q => lowBits q 4))) <<< 16),
   (stepEf w + 128 * b, 128, joinPieces 32 es)]

/-- DQ4ADD on block b. -/
def dq4Block (s : State) (chip l w b : Nat) : List StepWrite :=
  let rec0 := readNat s.mem (linkAddr chip l (stepSrc w + 18 * b)) 18
  let ys := (blockAt s chip l (stepDst w + 128 * b)).mapIdx (fun i y =>
    f32Add y (codeValue (sext (field rec0 (4 * i + 19) (4 * i + 16)) 4) (rec0 % 65536)))
  [(stepDst w + 128 * b, 128, joinPieces 32 ys)]

/-- The step of a link die that is due, with its next block. -/
def stepDue (s : State) (chip l : Nat) (w : BitVec 128) : Option (Coll × Nat) :=
  s.colls.findSome? (fun c =>
    if c.chip = chip && c.die = l && c.started then
      (c.steps.find? (fun x => x.1 ≤ s.now && x.2.2 = w)).map (fun x => (c, x.2.1))
    else none)

/-- The collective after two blocks of a step. -/
def Coll.advance (c : Coll) (now : Nat) (w : BitVec 128) (b : Nat) : Coll :=
  { c with steps := c.steps.flatMap (fun x =>
      if x.1 ≤ now && x.2.2 = w && x.2.1 = b then (if b + 2 < stepBlocks w.toNat then [(now + 1, b + 2, w)] else []) else [x]) }

/-- The blocks of a step that are handled at this ply: read now, and written two plies on. -/
def collStep (s : State) (chip l : Nat) (w : BitVec 128) (f : Nat → List StepWrite) : Host.Outcome State Fault Refusal :=
  match stepDue s chip l w with
  | none => .next s
  | some (c, b) =>
    let ws := f b ++ (if b + 1 < stepBlocks w.toNat then f (b + 1) else [])
    let s1 := ws.foldl (fun s x =>
      unitAccess s chip (unitRank chip l) (s.now + 2) true (linkAddr chip l x.1) x.2.1 x.2.2 .nowhere) s
    finishSame s { s1 with colls := s1.colls.map (fun x => if x = c then c.advance s.now w b else x) }

/-! ## Meanings -/

/-- GAGATHER (R363). GTS all-gather collective over a multicast group. -/
def execGagather (r : GtsRec) (s : State) : Host.Outcome State Fault Refusal :=
  handOver s 0x0B r

/-- GRSCAT (R363). GTS reduce-scatter collective. -/
def execGrscat (r : GtsRec) (s : State) : Host.Outcome State Fault Refusal :=
  handOver s 0x0C r

/-- GARED (R363). GTS all-reduce collective. -/
def execGared (r : GtsRec) (s : State) : Host.Outcome State Fault Refusal :=
  handOver s 0x0D r

/-- GA2A (R363). GTS all-to-all collective. -/
def execGa2a (r : GtsRec) (s : State) : Host.Outcome State Fault Refusal :=
  handOver s 0x0E r

/-- COLLECTIVE_START (R453). At dispatch a collective is checked, its signature written and its engines started. -/
def execCollectiveStart (chip : Nat) (s : State) : Host.Outcome State Fault Refusal :=
  match startable s chip with
  | some (c, r) => finishSame s (startCollective s c r)
  | none => .next s

/-- COLLECTIVE_COMPLETION (R453). At F + DONE the collective adds its byte count to its counter and completes. -/
def execCollectiveCompletion (chip : Nat) (s : State) : Host.Outcome State Fault Refusal :=
  match finishable s chip with
  | some r => finishSame s (completeCollective s chip r)
  | none => .next s

/-- TOPK (R459). Compression step that keeps the K largest elements of each block. -/
def execTopk (chip : Nat) (die : Nat) (w : BitVec 128) (s : State) : Host.Outcome State Fault Refusal :=
  collStep s chip die w (topkBlock s chip die w.toNat)

/-- SCADD (R459). Compression step that adds sparse top-k values into a destination. -/
def execScadd (chip : Nat) (die : Nat) (w : BitVec 128) (s : State) : Host.Outcome State Fault Refusal :=
  collStep s chip die w (scaddBlock s chip die w.toNat)

/-- Q4 (R460). Compression step that quantises blocks to 4-bit codes with error feedback. -/
def execQ4 (chip : Nat) (die : Nat) (w : BitVec 128) (s : State) : Host.Outcome State Fault Refusal :=
  collStep s chip die w (q4Block s chip die w.toNat)

/-- DQ4ADD (R460). Compression step that adds decoded 4-bit blocks into a destination. -/
def execDq4add (chip : Nat) (die : Nat) (w : BitVec 128) (s : State) : Host.Outcome State Fault Refusal :=
  collStep s chip die w (dq4Block s chip die w.toNat)

end Sys2Proof.Machine
end

