-- ==== Sys2Proof/Machine/HostSide.lean ====
section
/-! DEFINITION. The host's side: the command window, host transfers, launches, and the event ring (R482 to R486). -/

namespace Sys2Proof.Machine

/-! ## The command at the head of the ring (R482, R484) -/

/-- The slot of the next command of a package, if it is complete and may be consumed at this ply. -/
def hostCommand (s : State) (chip : Nat) : Option Nat :=
  let c := s.chip chip
  let seq := (c.cmdCons + 1).toNat
  let w := readNat c.bar2 (64 * (seq % 4096)) 64
  if 2 ≤ c.bstate.toNat && c.cmdAt != some s.now && field w 287 256 = seq then some w else none

/-- The kind of a command, and the fields of its body. -/
def commandKind (w : Nat) : Nat := field w 295 288
def xferTarget (w : Nat) : Nat := field w 63 0
def xferOffset (w : Nat) : Nat := field w 95 64
def xferLength (w : Nat) : Nat := field w 127 96
def xferCounter (w : Nat) : Nat := field w 191 128
def launchCoreNumber (w : Nat) : Nat := field w 15 0
def launchEntry (w : Nat) : Nat := field w 63 32
def launchOffset (w : Nat) : Nat := field w 95 64
def imageOffset (w : Nat) : Nat := field w 31 0
def imageLength (w : Nat) : Nat := field w 63 32

/-- The home of an address of this chip that the host names. -/
def hostHome (s : State) (chip addr len : Nat) : Option Nat :=
  match chipName s (1536 * chip) addr with
  | .own l => (match resolveOn (s.pmap chip) l chip addr len with | .ok h => some h | .error _ => none)
  | _ => none

/-- Whether a range touches the push region of a window 1. -/
def touchesPush (addr : Nat) : Bool := field addr 36 32 = 1 && addr % 2 ^ 32 < 0x18000

/-- Whether the operands of a transfer are in range. -/
def xferOk (s : State) (chip w : Nat) : Bool :=
  let len := xferLength w
  let t := xferTarget w
  let ctr := xferCounter w
  len % 64 = 0 && xferOffset w + len ≤ 0x80000 && (hostHome s chip t len).isSome &&
    (ctr = 0 || (ctr % 8 = 0 && (match hostHome s chip ctr 8 with | some h => addrWin h = 0 | none => false))) &&
    (!touchesPush t || (t % 256 = 0 && len % 256 = 0))

/-- Whether a command has a reserved kind, or operands out of range. -/
def commandBad (s : State) (chip w : Nat) : Bool :=
  match commandKind w with
  | 0 => false
  | 1 => !xferOk s chip w
  | 2 => !xferOk s chip w
  | 3 => 16 ≤ field w 7 0
  | 4 => !(launchCoreNumber w < 1536 && launchEntry w < 0x400000 && launchOffset w + 0x310 ≤ 0x400000 &&
      (s.pmap chip).state ((s.pmap chip).logicalChip chip) (launchCoreNumber w) = 0)
  | 5 => 0x80000 < imageOffset w + imageLength w
  | _ => true

/-- The die that a command acts on. -/
def commandDie (w : Nat) : Nat :=
  if commandKind w = 4 then launchCoreNumber w / 64
  else if field (xferTarget w) 36 32 = 6 then 24 else field (xferTarget w) 47 43

/-- Whether a transfer or a launch is refused: below package ready, outside die 0. -/
def commandRefused (s : State) (chip w : Nat) : Bool := (s.chip chip).bstate.toNat < 3 && commandDie w != 0

/-- A command is consumed. -/
def consume (s : State) (chip : Nat) : State :=
  let c := s.chip chip
  s.setChip chip { c with cmdCons := c.cmdCons + 1, cmdAt := some s.now }

/-- An event of the command processor about a command. -/
def answer (s : State) (chip code seq : Nat) : State :=
  s.post { chip := chip, src := 0, code := code, data := BitVec.ofNat 320 seq }

/-- The number of a command. -/
def commandSeq (w : Nat) : Nat := field w 287 256

/-- The command of a kind that a package consumes now, if it is in range: `f` is its effect. -/
def commandStep (s : State) (chip kind : Nat) (f : State → Nat → State) : Host.Outcome State Fault Refusal :=
  match hostCommand s chip with
  | some w =>
    if commandKind w = kind && !commandBad s chip w then finishSame s (f (consume s chip) w) else .next s
  | none => .next s

/-! ## Host transfers (R293, R484) -/

/-- The spans of a granule: register words one by one, other bytes as one run. Log 81, DEDUCED. -/
def hostSpans (home len : Nat) : List Span :=
  if addrWin home = 5 then (rangeFrom 0 (len / 8)).map (fun i => { addr := home + 8 * i, len := 8, off := 8 * i })
  else [{ addr := home, len := len, off := 0 }]

/-- One access of a host transfer. -/
def hostAccess (s : State) (chip op home len due : Nat) (write : Bool) (off : Nat) : State :=
  { s with
    accs := s.accs ++ [{ ident := 2 * s.nextId + 1, op := op, core := 1536 * chip, rank := hostRank chip, order := s.nextId, due := due,
                         landAt := due, delayed := false, write := write, spans := hostSpans home len, data := 0, capTag := none,
                         dest := if write then .fromStaging chip off else .staging chip off }],
    nextId := s.nextId + 1 }

/-- The latest of the free plies of some granules, each after the ply at which the command is consumed. Log 9, DESIGN CHOICE. -/
def hostPly (s : State) (first n : Nat) : Nat :=
  (rangeFrom first n).foldl (fun m j => max m (s.now + 1 + Config.hostDelay (s.freeCtr + j))) s.now

/-- WRITE and READ: the granules of the range, each at a ply that nothing fixes. Log 81, DEDUCED. -/
def startTransfer (s : State) (chip w : Nat) (write : Bool) : State :=
  if commandRefused s chip w then answer s chip 3 (commandSeq w)
  else
    let len := xferLength w
    let home := (hostHome s chip (xferTarget w) len).getD 0
    let unit := if touchesPush (xferTarget w) then 256 else 64
    let op := 2 * s.nextId + 1
    let x : Xfer := { op := op, chip := chip, seq := commandSeq w, len := len, ctr := xferCounter w }
    let s1 : State := { s with xfers := s.xfers ++ [x], nextId := s.nextId + 1 }
    let s2 := (rangeFrom 0 (len / unit)).foldl (fun t j =>
      hostAccess t chip op (home + unit * j) unit (hostPly s (unit / 64 * j) (unit / 64)) write (0x80000 + xferOffset w + unit * j)) s1
    { s2 with freeCtr := s2.freeCtr + len / 64 }

/-- A host transfer all of whose accesses have performed. -/
def xferDone (s : State) (chip : Nat) : Option Xfer :=
  s.xfers.find? (fun x => x.chip = chip && !s.accs.any (fun a => a.op = x.op))

/-- The completion of a host transfer; its add executes at a later ply that nothing fixes (R268, R293, R299).
Log 81, DEDUCED. -/
def endTransfer (s : State) (x : Xfer) : State :=
  let s1 : State := { s with xfers := dropFirst (fun y => y = x) s.xfers }
  if x.ctr = 0 then answer s1 x.chip 2 x.seq
  else
    { s1 with
      atoms := s1.atoms ++ [{ ident := 2 * s.nextId + 1, op := 0, core := 1536 * x.chip, rank := hostRank x.chip, order := s.nextId,
                              due := s.now + 1 + Config.hostDelay s.freeCtr, landAt := s.now + 1 + Config.hostDelay s.freeCtr,
                              addr := (hostHome s x.chip x.ctr 8).getD 0, kind := .add,
                              x := BitVec.ofNat 64 x.len, y := 0, dest := none }],
      nextId := s1.nextId + 1, freeCtr := s1.freeCtr + 1 }

/-! ## Host records (R370, R484) -/

/-- The package sequencer of a chip, by the first physical core that it holds. -/
def packageUnit (s : State) (chip : Nat) : Nat :=
  1536 * chip + (s.pmap chip).physCore ((s.pmap chip).logicalChip chip) 0

/-- Whether a host record may be consumed: the sequencer holds fewer than four records. Log 76, DEDUCED. -/
def packageFree (s : State) (chip : Nat) : Bool :=
  ((unitRecords s 4 (packageUnit s chip)).filter (fun r => r.done.isNone)).length < 4

/-- A host record, with the capability table of its context; entry 0 stands for the capability that a GSUB names.
Log 76, DEDUCED. -/
def submitHost (s : State) (chip w : Nat) : State :=
  let c := s.chip chip
  let unit := packageUnit s chip
  let r : GtsRun :=
    { ident := 2 * s.nextId + 1, lvl := 4, unit := unit, group := 0, addr := 0, home := 0, who := unit, cap := mapGet Cap.null c.caps 0,
      caps := (rangeFrom 0 16).map (mapGet Cap.null c.caps), host := some chip, raw := some (BitVec.ofNat 256 w), readyAt := s.now,
      accepted := none, tensors := [], leaves := [], children := 0, stop := none, fault := none, held := [], latest := 0,
      done := none, op := 2 * s.nextId + 1 }
  { s with recs := s.recs ++ [r], nextId := s.nextId + 1 }

/-! ## CAPSET, LAUNCH, MAPSET (R484) -/

/-- CAPSET: an entry of the context's capability table. -/
def setHostCap (s : State) (chip w : Nat) : State :=
  let c := s.chip chip
  s.setChip chip { c with caps := mapSet Cap.null c.caps (field w 7 0) { tag := bit w 8, bits := BitVec.ofNat 128 (field w 255 128) } }

/-- LAUNCH: a full launch from the block in the core's window 0. Log 75, DEDUCED. -/
def launchHost (s : State) (chip w : Nat) : State :=
  if commandRefused s chip w then answer s chip 3 (commandSeq w)
  else
    let m := s.pmap chip
    let n := 1536 * chip + m.physCore (m.logicalChip chip) (launchCoreNumber w)
    let b := coreBase n + launchOffset w
    let regs := (rangeFrom 1 63).foldl (fun t k => mapSet 0 t k (BitVec.ofNat 64 (readNow s (b + 8 * k - 8) 8))) ([] : Map Word)
    let cap (k : Nat) : Cap :=
      { tag := mapGet false s.tags ((b + 0x200 + 16 * k) / 16), bits := BitVec.ofNat 128 (readNow s (b + 0x200 + 16 * k) 16) }
    let s1 := fullLaunch s n { entry := launchEntry w, codeLo := readNow s (b + 0x300) 8, codeHi := readNow s (b + 0x308) 8, regs := regs,
                               caps := [], dtbase := 0, dtlen := 0 } (s.now + 1)
    s1.setCore n ((rangeFrom 0 16).foldl (fun c k => c.setCreg k (cap k)) (s1.core n))

/-- MAPSET: the placement map of an image in host staging. Log 10, DESIGN CHOICE. -/
def setMap (s : State) (chip w : Nat) : State :=
  if (coresOf s chip).any (fun n => (s.core n).run = .running) then answer s chip 3 (commandSeq w)
  else
    let c := s.chip chip
    let v : BitVec 4194304 := BitVec.ofNat 4194304 (readNat c.bar2 (0x80000 + imageOffset w) (imageLength w))
    let m : PlaceMap := { n := Config.imageChips v, chips := Config.imageChip v, cores := Config.imageCores v,
                          status := Config.imageStatus v, groups := Config.imageGroups v }
    { s.setChip chip { c with tag := Config.imageTag v } with pmaps := mapPut s.pmaps chip m }

/-! ## The event ring (R485, R486) -/

/-- The 64 bytes of an event slot. -/
def eventSlot (seq src code sseq ply : Nat) (data : BitVec 320) : Nat :=
  seq % 2 ^ 32 + (src % 65536) <<< 32 + (code % 65536) <<< 48 + (sseq % 2 ^ 32) <<< 64 + (ply % 2 ^ 64) <<< 128 + data.toNat <<< 192

/-- One event takes its number, and its slot if there is room. Log 78, DEDUCED. -/
def produce (s : State) (e : HostEvent) : State :=
  let c := s.chip e.chip
  let seq := c.evProd + 1
  let sseq := mapGet 0 c.sources e.src + 1
  let c1 : Chip := { c with evProd := seq, sources := mapPut c.sources e.src sseq }
  if 4096 ≤ (c.evProd - c.evAck).toNat then
    s.setChip e.chip { c1 with evLost := if c.evLost = BitVec.allOnes 32 then c.evLost else c.evLost + 1 }
  else
    s.setChip e.chip { c1 with
      bar2 := writeBytes c.bar2 (bytesOf (0x40000 + 64 * (seq.toNat % 4096)) (eventSlot seq.toNat e.src e.code sseq s.now e.data) 64) }

/-- The events of a ply, in ascending source. -/
def flushEvents (s : State) : State :=
  (sortBy (fun a b => a.src ≤ b.src) s.posted).foldl produce { s with posted := [] }

/-- What the host writes in BAR2 at this ply lands at its end. -/
def landHostWrites (s : State) : State :=
  s.inputs.foldl (fun s x => match x.2 with
    | .bar2 chip off len v =>
      if x.1 ≤ s.now then
        let c := s.chip chip
        s.setChip chip { c with bar2 := writeBytes c.bar2 (bytesOf off v.toNat len) }
      else s
    | _ => s) s

/-! ## Meanings -/

/-- HOST_GTS_RECORD (R484). Command KIND 0 submits a level-4 GTS record to the package sequencer. -/
def execHostGtsRecord (chip : Nat) (s : State) : Host.Outcome State Fault Refusal :=
  if packageFree s chip then commandStep s chip 0 (fun t w => submitHost t chip w) else .next s

/-- WRITE (R484). Command that copies host staging into a pod address as a counted host transfer. -/
def execWrite (chip : Nat) (s : State) : Host.Outcome State Fault Refusal :=
  commandStep s chip 1 (fun t w => startTransfer t chip w true)

/-- READ (R484). Command that copies a target range into host staging. -/
def execRead (chip : Nat) (s : State) : Host.Outcome State Fault Refusal :=
  commandStep s chip 2 (fun t w => startTransfer t chip w false)

/-- CAPSET (R484). Command that sets an entry of the context's capability table. -/
def execCapset (chip : Nat) (s : State) : Host.Outcome State Fault Refusal :=
  commandStep s chip 3 (fun t w => setHostCap t chip w)

/-- LAUNCH (R484). Command that starts a core under R12 from a launch block. -/
def execLaunch (chip : Nat) (s : State) : Host.Outcome State Fault Refusal :=
  commandStep s chip 4 (fun t w => launchHost t chip w)

/-- MAPSET (R484). Command that installs the placement map for the next context. -/
def execMapset (chip : Nat) (s : State) : Host.Outcome State Fault Refusal :=
  commandStep s chip 5 (fun t w => setMap t chip w)

/-- BAD_COMMAND (R484). A reserved KIND or out-of-range body is consumed and answered with event CODE 1. -/
def execBadCommand (chip : Nat) (s : State) : Host.Outcome State Fault Refusal :=
  match hostCommand s chip with
  | some w =>
    if commandBad s chip w then finishSame s (answer (consume s chip) chip 1 (commandSeq w)) else .next s
  | none => .next s

/-- HOST_TRANSFER_COMPLETION (R484). A host WRITE or READ completes by a counter add or an event. -/
def execHostTransferCompletion (chip : Nat) (s : State) : Host.Outcome State Fault Refusal :=
  match xferDone s chip with
  | some x => finishSame s (endTransfer s x)
  | none => .next s

end Sys2Proof.Machine
end

