-- ==== Sys2Proof/Machine/Dispatch.lean ====
section
/-! DEFINITION. The dispatch of an instruction or event to its meaning: one arm for each row of the opcode table. -/

namespace Sys2Proof.Machine

/-- The meaning of an instruction or event in a state. -/
def exec (i : Instr) (s : State) : Host.Outcome State Fault Refusal :=
  match i with
  | .idle => Sys2Proof.Machine.execIdle s
  | .tree nt st t0 t1 t2 t3 o1 o2 o3 o4 g z1 z0 => Sys2Proof.Machine.execTree nt st t0 t1 t2 t3 o1 o2 o3 o4 g z1 z0 s
  | .addI64 t d a b => Sys2Proof.Machine.execAddI64 t d a b s
  | .subI64 t d a b => Sys2Proof.Machine.execSubI64 t d a b s
  | .andI64 t d a b => Sys2Proof.Machine.execAndI64 t d a b s
  | .orI64 t d a b => Sys2Proof.Machine.execOrI64 t d a b s
  | .xorI64 t d a b => Sys2Proof.Machine.execXorI64 t d a b s
  | .andnI64 t d a b => Sys2Proof.Machine.execAndnI64 t d a b s
  | .sllI64 t d a b => Sys2Proof.Machine.execSllI64 t d a b s
  | .srlI64 t d a b => Sys2Proof.Machine.execSrlI64 t d a b s
  | .sraI64 t d a b => Sys2Proof.Machine.execSraI64 t d a b s
  | .mulI64 t d a b => Sys2Proof.Machine.execMulI64 t d a b s
  | .mulhI64 t d a b => Sys2Proof.Machine.execMulhI64 t d a b s
  | .mulhuI64 t d a b => Sys2Proof.Machine.execMulhuI64 t d a b s
  | .addsI64 t d a b => Sys2Proof.Machine.execAddsI64 t d a b s
  | .subsI64 t d a b => Sys2Proof.Machine.execSubsI64 t d a b s
  | .addsuI64 t d a b => Sys2Proof.Machine.execAddsuI64 t d a b s
  | .subsuI64 t d a b => Sys2Proof.Machine.execSubsuI64 t d a b s
  | .minI64 t d a b => Sys2Proof.Machine.execMinI64 t d a b s
  | .maxI64 t d a b => Sys2Proof.Machine.execMaxI64 t d a b s
  | .minuI64 t d a b => Sys2Proof.Machine.execMinuI64 t d a b s
  | .maxuI64 t d a b => Sys2Proof.Machine.execMaxuI64 t d a b s
  | .clzI64 t d a => Sys2Proof.Machine.execClzI64 t d a s
  | .ctzI64 t d a => Sys2Proof.Machine.execCtzI64 t d a s
  | .popcI64 t d a => Sys2Proof.Machine.execPopcI64 t d a s
  | .addI32 t d a b => Sys2Proof.Machine.execAddI32 t d a b s
  | .subI32 t d a b => Sys2Proof.Machine.execSubI32 t d a b s
  | .andI32 t d a b => Sys2Proof.Machine.execAndI32 t d a b s
  | .orI32 t d a b => Sys2Proof.Machine.execOrI32 t d a b s
  | .xorI32 t d a b => Sys2Proof.Machine.execXorI32 t d a b s
  | .andnI32 t d a b => Sys2Proof.Machine.execAndnI32 t d a b s
  | .sllI32 t d a b => Sys2Proof.Machine.execSllI32 t d a b s
  | .srlI32 t d a b => Sys2Proof.Machine.execSrlI32 t d a b s
  | .sraI32 t d a b => Sys2Proof.Machine.execSraI32 t d a b s
  | .mulI32 t d a b => Sys2Proof.Machine.execMulI32 t d a b s
  | .mulhI32 t d a b => Sys2Proof.Machine.execMulhI32 t d a b s
  | .mulhuI32 t d a b => Sys2Proof.Machine.execMulhuI32 t d a b s
  | .addsI32 t d a b => Sys2Proof.Machine.execAddsI32 t d a b s
  | .subsI32 t d a b => Sys2Proof.Machine.execSubsI32 t d a b s
  | .addsuI32 t d a b => Sys2Proof.Machine.execAddsuI32 t d a b s
  | .subsuI32 t d a b => Sys2Proof.Machine.execSubsuI32 t d a b s
  | .minI32 t d a b => Sys2Proof.Machine.execMinI32 t d a b s
  | .maxI32 t d a b => Sys2Proof.Machine.execMaxI32 t d a b s
  | .minuI32 t d a b => Sys2Proof.Machine.execMinuI32 t d a b s
  | .maxuI32 t d a b => Sys2Proof.Machine.execMaxuI32 t d a b s
  | .clzI32 t d a => Sys2Proof.Machine.execClzI32 t d a s
  | .ctzI32 t d a => Sys2Proof.Machine.execCtzI32 t d a s
  | .popcI32 t d a => Sys2Proof.Machine.execPopcI32 t d a s
  | .addiI64 t d a im => Sys2Proof.Machine.execAddiI64 t d a im s
  | .addiI32 t d a im => Sys2Proof.Machine.execAddiI32 t d a im s
  | .andiI64 t d a im => Sys2Proof.Machine.execAndiI64 t d a im s
  | .oriI64 t d a im => Sys2Proof.Machine.execOriI64 t d a im s
  | .xoriI64 t d a im => Sys2Proof.Machine.execXoriI64 t d a im s
  | .slliI64 t d a im => Sys2Proof.Machine.execSlliI64 t d a im s
  | .srliI64 t d a im => Sys2Proof.Machine.execSrliI64 t d a im s
  | .sraiI64 t d a im => Sys2Proof.Machine.execSraiI64 t d a im s
  | .addsiI64 t d a im => Sys2Proof.Machine.execAddsiI64 t d a im s
  | .cmpEq t d a b => Sys2Proof.Machine.execCmpEq t d a b s
  | .cmpNe t d a b => Sys2Proof.Machine.execCmpNe t d a b s
  | .cmpLt t d a b => Sys2Proof.Machine.execCmpLt t d a b s
  | .cmpGe t d a b => Sys2Proof.Machine.execCmpGe t d a b s
  | .cmpLtu t d a b => Sys2Proof.Machine.execCmpLtu t d a b s
  | .cmpGeu t d a b => Sys2Proof.Machine.execCmpGeu t d a b s
  | .cmovNz t d a b => Sys2Proof.Machine.execCmovNz t d a b s
  | .cmovZ t d a b => Sys2Proof.Machine.execCmovZ t d a b s
  | .cmovLt t d a b => Sys2Proof.Machine.execCmovLt t d a b s
  | .cmovGe t d a b => Sys2Proof.Machine.execCmovGe t d a b s
  | .cmpiLt t d a im => Sys2Proof.Machine.execCmpiLt t d a im s
  | .cmpiEq t d a im => Sys2Proof.Machine.execCmpiEq t d a im s
  | .movi t d im => Sys2Proof.Machine.execMovi t d im s
  | .movsh t d im => Sys2Proof.Machine.execMovsh t d im s
  | .mfc t d x => Sys2Proof.Machine.execMfc t d x s
  | .mtc t a x => Sys2Proof.Machine.execMtc t a x s
  | .br t a c o => Sys2Proof.Machine.execBr t a c o s
  | .jmp t o => Sys2Proof.Machine.execJmp t o s
  | .call t o => Sys2Proof.Machine.execCall t o s
  | .jr t a => Sys2Proof.Machine.execJr t a s
  | .callr t d a => Sys2Proof.Machine.execCallr t d a s
  | .loop t a o => Sys2Proof.Machine.execLoop t a o s
  | .loopi t n o => Sys2Proof.Machine.execLoopi t n o s
  | .endloop t => Sys2Proof.Machine.execEndloop t s
  | .lpop t => Sys2Proof.Machine.execLpop t s
  | .tret t => Sys2Proof.Machine.execTret t s
  | .yield t => Sys2Proof.Machine.execYield t s
  | .trap t a n => Sys2Proof.Machine.execTrap t a n s
  | .fenceSeq t => Sys2Proof.Machine.execFenceSeq t s
  | .wstep w => Sys2Proof.Machine.execWstep w s
  | .wstep1 w => Sys2Proof.Machine.execWstep1 w s
  | .wback w => Sys2Proof.Machine.execWback w s
  | .wstepL w l => Sys2Proof.Machine.execWstepL w l s
  | .wget w sr => Sys2Proof.Machine.execWget w sr s
  | .wset w sr => Sys2Proof.Machine.execWset w sr s
  | .wtake w sr => Sys2Proof.Machine.execWtake w sr s
  | .wtake1 w sr => Sys2Proof.Machine.execWtake1 w sr s
  | .wtakeL w sr => Sys2Proof.Machine.execWtakeL w sr s
  | .ldB t sr c o => Sys2Proof.Machine.execLdB t sr c o s
  | .ldH t sr c o => Sys2Proof.Machine.execLdH t sr c o s
  | .ldW t sr c o => Sys2Proof.Machine.execLdW t sr c o s
  | .ldD t sr c o => Sys2Proof.Machine.execLdD t sr c o s
  | .stB t sr c o => Sys2Proof.Machine.execStB t sr c o s
  | .stH t sr c o => Sys2Proof.Machine.execStH t sr c o s
  | .stW t sr c o => Sys2Proof.Machine.execStW t sr c o s
  | .stD t sr c o => Sys2Proof.Machine.execStD t sr c o s
  | .ldvW t v c sr => Sys2Proof.Machine.execLdvW t v c sr s
  | .ldvsW t v c sr => Sys2Proof.Machine.execLdvsW t v c sr s
  | .ldvmW t v c sr => Sys2Proof.Machine.execLdvmW t v c sr s
  | .ldvsmW t v c sr => Sys2Proof.Machine.execLdvsmW t v c sr s
  | .stvW t v p c sr => Sys2Proof.Machine.execStvW t v p c sr s
  | .stvsW t v p c sr => Sys2Proof.Machine.execStvsW t v p c sr s
  | .stvmW t v p c sr => Sys2Proof.Machine.execStvmW t v p c sr s
  | .stvsmW t v p c sr => Sys2Proof.Machine.execStvsmW t v p c sr s
  | .qpush t v p c sr => Sys2Proof.Machine.execQpush t v p c sr s
  | .qpushRel t v p c sr k => Sys2Proof.Machine.execQpushRel t v p c sr k s
  | .cld t d a sr => Sys2Proof.Machine.execCld t d a sr s
  | .cst t d a sr => Sys2Proof.Machine.execCst t d a sr s
  | .cbase t d a sr => Sys2Proof.Machine.execCbase t d a sr s
  | .clen t d a sr => Sys2Proof.Machine.execClen t d a sr s
  | .cperms t d a sr => Sys2Proof.Machine.execCperms t d a sr s
  | .cspace t d a sr => Sys2Proof.Machine.execCspace t d a sr s
  | .cgetb t a sr => Sys2Proof.Machine.execCgetb t a sr s
  | .cgeth t a sr => Sys2Proof.Machine.execCgeth t a sr s
  | .cgett t a sr => Sys2Proof.Machine.execCgett t a sr s
  | .cmovc t d a => Sys2Proof.Machine.execCmovc t d a s
  | .cclr t d => Sys2Proof.Machine.execCclr t d s
  | .cseal t d a sr => Sys2Proof.Machine.execCseal t d a sr s
  | .cunseal t d a sr => Sys2Proof.Machine.execCunseal t d a sr s
  | .aswapD t d c sr k o => Sys2Proof.Machine.execAswapD t d c sr k o s
  | .acasD t d c sr k o => Sys2Proof.Machine.execAcasD t d c sr k o s
  | .aaddD t d c sr k o => Sys2Proof.Machine.execAaddD t d c sr k o s
  | .aminD t d c sr k o => Sys2Proof.Machine.execAminD t d c sr k o s
  | .amaxD t d c sr k o => Sys2Proof.Machine.execAmaxD t d c sr k o s
  | .aandD t d c sr k o => Sys2Proof.Machine.execAandD t d c sr k o s
  | .aorD t d c sr k o => Sys2Proof.Machine.execAorD t d c sr k o s
  | .axorD t d c sr k o => Sys2Proof.Machine.execAxorD t d c sr k o s
  | .ldxD t d c sr k o => Sys2Proof.Machine.execLdxD t d c sr k o s
  | .stxD t d c sr k o => Sys2Proof.Machine.execStxD t d c sr k o s
  | .fence t p sr k => Sys2Proof.Machine.execFence t p sr k s
  | .vaddI32 t g p q d a b => Sys2Proof.Machine.execVaddI32 t g p q d a b s
  | .vsubI32 t g p q d a b => Sys2Proof.Machine.execVsubI32 t g p q d a b s
  | .vaddI16 t g p q d a b => Sys2Proof.Machine.execVaddI16 t g p q d a b s
  | .vsubI16 t g p q d a b => Sys2Proof.Machine.execVsubI16 t g p q d a b s
  | .vaddI8 t g p q d a b => Sys2Proof.Machine.execVaddI8 t g p q d a b s
  | .vaddsI32 t g p q d a b => Sys2Proof.Machine.execVaddsI32 t g p q d a b s
  | .vaddsI16 t g p q d a b => Sys2Proof.Machine.execVaddsI16 t g p q d a b s
  | .vaddsI8 t g p q d a b => Sys2Proof.Machine.execVaddsI8 t g p q d a b s
  | .vsubsI32 t g p q d a b => Sys2Proof.Machine.execVsubsI32 t g p q d a b s
  | .vmulI32 t g p q d a b => Sys2Proof.Machine.execVmulI32 t g p q d a b s
  | .vmulhI32 t g p q d a b => Sys2Proof.Machine.execVmulhI32 t g p q d a b s
  | .vminI32 t g p q d a b => Sys2Proof.Machine.execVminI32 t g p q d a b s
  | .vmaxI32 t g p q d a b => Sys2Proof.Machine.execVmaxI32 t g p q d a b s
  | .vaddI32Bc t d a p m => Sys2Proof.Machine.execVaddI32Bc t d a p m s
  | .vmulI32Bc t d a p m => Sys2Proof.Machine.execVmulI32Bc t d a p m s
  | .vaddiI32 t d a im => Sys2Proof.Machine.execVaddiI32 t d a im s
  | .vandU32 t g p q d a b => Sys2Proof.Machine.execVandU32 t g p q d a b s
  | .vorU32 t g p q d a b => Sys2Proof.Machine.execVorU32 t g p q d a b s
  | .vxorU32 t g p q d a b => Sys2Proof.Machine.execVxorU32 t g p q d a b s
  | .vandU32Bc t d a p m => Sys2Proof.Machine.execVandU32Bc t d a p m s
  | .vxorU32Bc t d a p m => Sys2Proof.Machine.execVxorU32Bc t d a p m s
  | .vsllI32 t d a im => Sys2Proof.Machine.execVsllI32 t d a im s
  | .vsrlI32 t d a im => Sys2Proof.Machine.execVsrlI32 t d a im s
  | .vsraI32 t d a im => Sys2Proof.Machine.execVsraI32 t d a im s
  | .vaddF32 t g p q d a b => Sys2Proof.Machine.execVaddF32 t g p q d a b s
  | .vsubF32 t g p q d a b => Sys2Proof.Machine.execVsubF32 t g p q d a b s
  | .vmulF32 t g p q d a b => Sys2Proof.Machine.execVmulF32 t g p q d a b s
  | .vfmaF32 t g p q d a b => Sys2Proof.Machine.execVfmaF32 t g p q d a b s
  | .vmaxF32 t g p q d a b => Sys2Proof.Machine.execVmaxF32 t g p q d a b s
  | .vminF32 t g p q d a b => Sys2Proof.Machine.execVminF32 t g p q d a b s
  | .vaddBf16 t g p q d a b => Sys2Proof.Machine.execVaddBf16 t g p q d a b s
  | .vsubBf16 t g p q d a b => Sys2Proof.Machine.execVsubBf16 t g p q d a b s
  | .vmulBf16 t g p q d a b => Sys2Proof.Machine.execVmulBf16 t g p q d a b s
  | .vfmaBf16 t g p q d a b => Sys2Proof.Machine.execVfmaBf16 t g p q d a b s
  | .vaddF32Bc t d a p m => Sys2Proof.Machine.execVaddF32Bc t d a p m s
  | .vmulF32Bc t d a p m => Sys2Proof.Machine.execVmulF32Bc t d a p m s
  | .vcmpltI32 t d a b p => Sys2Proof.Machine.execVcmpltI32 t d a b p s
  | .vcmpeqI32 t d a b p => Sys2Proof.Machine.execVcmpeqI32 t d a b p s
  | .vcmpleF32 t d a b p => Sys2Proof.Machine.execVcmpleF32 t d a b p s
  | .vmergeU32 t d a p m => Sys2Proof.Machine.execVmergeU32 t d a p m s
  | .vcvtF32I32 t d a r => Sys2Proof.Machine.execVcvtF32I32 t d a r s
  | .vcvtF32U32 t d a r => Sys2Proof.Machine.execVcvtF32U32 t d a r s
  | .vcvtI32F32 t d a r => Sys2Proof.Machine.execVcvtI32F32 t d a r s
  | .vcvtU32F32 t d a r => Sys2Proof.Machine.execVcvtU32F32 t d a r s
  | .vcvtBf16F32 t d a h r => Sys2Proof.Machine.execVcvtBf16F32 t d a h r s
  | .vcvtF32Bf16 t d a h => Sys2Proof.Machine.execVcvtF32Bf16 t d a h s
  | .vpacksI16I32 t d a p => Sys2Proof.Machine.execVpacksI16I32 t d a p s
  | .vpacksI8I32 t d a p => Sys2Proof.Machine.execVpacksI8I32 t d a p s
  | .vpacksU8I32 t d a p => Sys2Proof.Machine.execVpacksU8I32 t d a p s
  | .vrotg t d a k => Sys2Proof.Machine.execVrotg t d a k s
  | .vrot t d a p m => Sys2Proof.Machine.execVrot t d a p m s
  | .vperm t d a p m => Sys2Proof.Machine.execVperm t d a p m s
  | .vbcast t d a p m => Sys2Proof.Machine.execVbcast t d a p m s
  | .vredaddI32 t d a p m => Sys2Proof.Machine.execVredaddI32 t d a p m s
  | .vredaddF32 t d a p m => Sys2Proof.Machine.execVredaddF32 t d a p m s
  | .vredmaxF32 t d a p m => Sys2Proof.Machine.execVredmaxF32 t d a p m s
  | .vscanaddF32 t d a p m => Sys2Proof.Machine.execVscanaddF32 t d a p m s
  | .vmand t d a b => Sys2Proof.Machine.execVmand t d a b s
  | .vmor t d a b => Sys2Proof.Machine.execVmor t d a b s
  | .vmxor t d a b => Sys2Proof.Machine.execVmxor t d a b s
  | .vmandn t d a b => Sys2Proof.Machine.execVmandn t d a b s
  | .vmnot t d a => Sys2Proof.Machine.execVmnot t d a s
  | .vmget t sr m => Sys2Proof.Machine.execVmget t sr m s
  | .vmset t sr m => Sys2Proof.Machine.execVmset t sr m s
  | .vmcnt t sr m => Sys2Proof.Machine.execVmcnt t sr m s
  | .vmfirst t sr m => Sys2Proof.Machine.execVmfirst t sr m s
  | .vmfromq t v p m => Sys2Proof.Machine.execVmfromq t v p m s
  | .vmtoq t v m => Sys2Proof.Machine.execVmtoq t v m s
  | .vlaneU32 t v p sr l h => Sys2Proof.Machine.execVlaneU32 t v p sr l h s
  | .vlaneI32 t v p sr l h => Sys2Proof.Machine.execVlaneI32 t v p sr l h s
  | .vsplatU32 t v sr => Sys2Proof.Machine.execVsplatU32 t v sr s
  | .vsplatU16 t v sr => Sys2Proof.Machine.execVsplatU16 t v sr s
  | .vsplatU8 t v sr => Sys2Proof.Machine.execVsplatU8 t v sr s
  | .vtrd t v sr u => Sys2Proof.Machine.execVtrd t v sr u s
  | .vtwr t v p sr u => Sys2Proof.Machine.execVtwr t v p sr u s
  | .tld t u c sr => Sys2Proof.Machine.execTld t u c sr s
  | .tldX t u c sr => Sys2Proof.Machine.execTldX t u c sr s
  | .tldSc t u c sr => Sys2Proof.Machine.execTldSc t u c sr s
  | .tst t u c sr => Sys2Proof.Machine.execTst t u c sr s
  | .tstX t u c sr => Sys2Proof.Machine.execTstX t u c sr s
  | .tstSc t u c sr => Sys2Proof.Machine.execTstSc t u c sr s
  | .tileChunkMove core => Sys2Proof.Machine.execTileChunkMove core s
  | .mma t n a b f g c => Sys2Proof.Machine.execMma t n a b f g c s
  | .mmaz t n a b f g c => Sys2Proof.Machine.execMmaz t n a b f g c s
  | .matrixCombine core => Sys2Proof.Machine.execMatrixCombine core s
  | .aoutF32 t n u sr r => Sys2Proof.Machine.execAoutF32 t n u sr r s
  | .aoutBf16 t n u sr r => Sys2Proof.Machine.execAoutBf16 t n u sr r s
  | .aoutI8 t n u sr r => Sys2Proof.Machine.execAoutI8 t n u sr r s
  | .aoutI6 t n u sr r => Sys2Proof.Machine.execAoutI6 t n u sr r s
  | .aoutI4 t n u sr r => Sys2Proof.Machine.execAoutI4 t n u sr r s
  | .tcfg t sr => Sys2Proof.Machine.execTcfg t sr s
  | .trel t sr => Sys2Proof.Machine.execTrel t sr s
  | .azero t n => Sys2Proof.Machine.execAzero t n s
  | .tzero t u => Sys2Proof.Machine.execTzero t u s
  | .ttrI8 t u c => Sys2Proof.Machine.execTtrI8 t u c s
  | .ttrI6 t u c => Sys2Proof.Machine.execTtrI6 t u c s
  | .ttrI4 t u c => Sys2Proof.Machine.execTtrI4 t u c s
  | .scldA e sr => Sys2Proof.Machine.execScldA e sr s
  | .scldB e sr => Sys2Proof.Machine.execScldB e sr s
  | .scldqA sr g => Sys2Proof.Machine.execScldqA sr g s
  | .scldqB sr g => Sys2Proof.Machine.execScldqB sr g s
  | .scrstA => Sys2Proof.Machine.execScrstA s
  | .scrstB => Sys2Proof.Machine.execScrstB s
  | .kuniA sr => Sys2Proof.Machine.execKuniA sr s
  | .kuniB sr => Sys2Proof.Machine.execKuniB sr s
  | .pseed t n sr => Sys2Proof.Machine.execPseed t n sr s
  | .paux t n sr => Sys2Proof.Machine.execPaux t n sr s
  | .pgets t n sr => Sys2Proof.Machine.execPgets t n sr s
  | .pgeta t n sr => Sys2Proof.Machine.execPgeta t n sr s
  | .bsetlen t l => Sys2Proof.Machine.execBsetlen t l s
  | .bdither t n => Sys2Proof.Machine.execBdither t n s
  | .bdslv t d v p n k => Sys2Proof.Machine.execBdslv t d v p n k s
  | .bdslvBi t d v p n k => Sys2Proof.Machine.execBdslvBi t d v p n k s
  | .bcryst t a v => Sys2Proof.Machine.execBcryst t a v s
  | .bcrysta t a v => Sys2Proof.Machine.execBcrysta t a v s
  | .bcrystp t a v k => Sys2Proof.Machine.execBcrystp t a v k s
  | .bcrystpa t a v k => Sys2Proof.Machine.execBcrystpa t a v k s
  | .bresalt t d a n => Sys2Proof.Machine.execBresalt t d a n s
  | .band t d a b => Sys2Proof.Machine.execBand t d a b s
  | .bxnor t d a b => Sys2Proof.Machine.execBxnor t d a b s
  | .bmux t d a b sr => Sys2Proof.Machine.execBmux t d a b sr s
  | .bmin t d a b => Sys2Proof.Machine.execBmin t d a b s
  | .bmax t d a b => Sys2Proof.Machine.execBmax t d a b s
  | .bnot t d a => Sys2Proof.Machine.execBnot t d a s
  | .bmov t d a => Sys2Proof.Machine.execBmov t d a s
  | .bbern t m v p n => Sys2Proof.Machine.execBbern t m v p n s
  | .bcat t m v p n => Sys2Proof.Machine.execBcat t m v p n s
  | .chstart t x y ch => Sys2Proof.Machine.execChstart t x y ch s
  | .chstop t ch => Sys2Proof.Machine.execChstop t ch s
  | .chwait t ch => Sys2Proof.Machine.execChwait t ch s
  | .cwait t x y im => Sys2Proof.Machine.execCwait t x y im s
  | .bwait t x y im => Sys2Proof.Machine.execBwait t x y im s
  | .cadd t x y im => Sys2Proof.Machine.execCadd t x y im s
  | .badd t x y im => Sys2Proof.Machine.execBadd t x y im s
  | .arm t v p x n => Sys2Proof.Machine.execArm t v p x n s
  | .disarm t n => Sys2Proof.Machine.execDisarm t n s
  | .next t => Sys2Proof.Machine.execNext t s
  | .nextt t => Sys2Proof.Machine.execNextt t s
  | .spawn t x y im => Sys2Proof.Machine.execSpawn t x y im s
  | .gsub t lvl x y im => Sys2Proof.Machine.execGsub t lvl x y im s
  | .gwait t x y => Sys2Proof.Machine.execGwait t x y s
  | .resultLanding core => Sys2Proof.Machine.execResultLanding core s
  | .memoryAccessPerform ident => Sys2Proof.Machine.execMemoryAccessPerform ident s
  | .atomicExecute ident => Sys2Proof.Machine.execAtomicExecute ident s
  | .leaseExpiry die line => Sys2Proof.Machine.execLeaseExpiry die line s
  | .thresholdAction core ch => Sys2Proof.Machine.execThresholdAction core ch s
  | .recordFetch core ch => Sys2Proof.Machine.execRecordFetch core ch s
  | .granuleTransfer core ch => Sys2Proof.Machine.execGranuleTransfer core ch s
  | .countedRecordAdd core ch => Sys2Proof.Machine.execCountedRecordAdd core ch s
  | .yieldCounterAdd core => Sys2Proof.Machine.execYieldCounterAdd core s
  | .deferredEventTaken core => Sys2Proof.Machine.execDeferredEventTaken core s
  | .watchdog core => Sys2Proof.Machine.execWatchdog core s
  | .waitWatchdog core => Sys2Proof.Machine.execWaitWatchdog core s
  | .preemptionPly chip => Sys2Proof.Machine.execPreemptionPly chip s
  | .preemptTimeout core => Sys2Proof.Machine.execPreemptTimeout core s
  | .contextSave core => Sys2Proof.Machine.execContextSave core s
  | .resumeStart core => Sys2Proof.Machine.execResumeStart core s
  | .pauseStoreRelease port => Sys2Proof.Machine.execPauseStoreRelease port s
  | .go core vec => Sys2Proof.Machine.execGo core vec s
  | .stop core => Sys2Proof.Machine.execStop core s
  | .save core => Sys2Proof.Machine.execSave core s
  | .restore core => Sys2Proof.Machine.execRestore core s
  | .qstatWrite core v => Sys2Proof.Machine.execQstatWrite core v s
  | .csbaseWrite core v => Sys2Proof.Machine.execCsbaseWrite core v s
  | .actagWrite chip index v => Sys2Proof.Machine.execActagWrite chip index v s
  | .registerWrite bar unit index v => Sys2Proof.Machine.execRegisterWrite bar unit index v s
  | .gnop r => Sys2Proof.Machine.execGnop r s
  | .gcopy r => Sys2Proof.Machine.execGcopy r s
  | .gconv r => Sys2Proof.Machine.execGconv r s
  | .gfill r => Sys2Proof.Machine.execGfill r s
  | .gelt r => Sys2Proof.Machine.execGelt r s
  | .gelts r => Sys2Proof.Machine.execGelts r s
  | .gmma r => Sys2Proof.Machine.execGmma r s
  | .gmmaz r => Sys2Proof.Machine.execGmmaz r s
  | .gscan r => Sys2Proof.Machine.execGscan r s
  | .gred r => Sys2Proof.Machine.execGred r s
  | .ggather r => Sys2Proof.Machine.execGgather r s
  | .gagather r => Sys2Proof.Machine.execGagather r s
  | .grscat r => Sys2Proof.Machine.execGrscat r s
  | .gared r => Sys2Proof.Machine.execGared r s
  | .ga2a r => Sys2Proof.Machine.execGa2a r s
  | .gbprod r => Sys2Proof.Machine.execGbprod r s
  | .gbdraw r => Sys2Proof.Machine.execGbdraw r s
  | .gcwait r => Sys2Proof.Machine.execGcwait r s
  | .leafDispatch ident => Sys2Proof.Machine.execLeafDispatch ident s
  | .leafStart core => Sys2Proof.Machine.execLeafStart core s
  | .leafEnd core => Sys2Proof.Machine.execLeafEnd core s
  | .recordCompletion ident => Sys2Proof.Machine.execRecordCompletion ident s
  | .collectiveStart chip => Sys2Proof.Machine.execCollectiveStart chip s
  | .collectiveCompletion chip => Sys2Proof.Machine.execCollectiveCompletion chip s
  | .send stamp buf n pos => Sys2Proof.Machine.execSend stamp buf n pos s
  | .sendSig stamp buf n pos => Sys2Proof.Machine.execSendSig stamp buf n pos s
  | .land stamp buf n pos => Sys2Proof.Machine.execLand stamp buf n pos s
  | .fwd stamp n pos oq => Sys2Proof.Machine.execFwd stamp n pos oq s
  | .redAddF32 stamp buf n pos => Sys2Proof.Machine.execRedAddF32 stamp buf n pos s
  | .redAddBf16 stamp buf n pos => Sys2Proof.Machine.execRedAddBf16 stamp buf n pos s
  | .redAddI32 stamp buf n pos => Sys2Proof.Machine.execRedAddI32 stamp buf n pos s
  | .redMaxF32 stamp buf n pos => Sys2Proof.Machine.execRedMaxF32 stamp buf n pos s
  | .redMaxBf16 stamp buf n pos => Sys2Proof.Machine.execRedMaxBf16 stamp buf n pos s
  | .redMaxI32 stamp buf n pos => Sys2Proof.Machine.execRedMaxI32 stamp buf n pos s
  | .guard stamp buf pos => Sys2Proof.Machine.execGuard stamp buf pos s
  | .linkLoop count period => Sys2Proof.Machine.execLinkLoop count period s
  | .endl => Sys2Proof.Machine.execEndl s
  | .mark stamp buf addr => Sys2Proof.Machine.execMark stamp buf addr s
  | .ckpt stamp stage => Sys2Proof.Machine.execCkpt stamp stage s
  | .fill stamp buf n addr => Sys2Proof.Machine.execFill stamp buf n addr s
  | .delv stamp buf n addr => Sys2Proof.Machine.execDelv stamp buf n addr s
  | .slot stamp core chip arr rdep rarr rport => Sys2Proof.Machine.execSlotEntry stamp core chip arr rdep rarr rport s
  | .serve stamp rdep rport => Sys2Proof.Machine.execServe stamp rdep rport s
  | .halt stamp => Sys2Proof.Machine.execHalt stamp s
  | .start port => Sys2Proof.Machine.execStart port s
  | .resume port => Sys2Proof.Machine.execResume port s
  | .topk chip die w => Sys2Proof.Machine.execTopk chip die w s
  | .scadd chip die w => Sys2Proof.Machine.execScadd chip die w s
  | .q4 chip die w => Sys2Proof.Machine.execQ4 chip die w s
  | .dq4add chip die w => Sys2Proof.Machine.execDq4add chip die w s
  | .replyArrival port => Sys2Proof.Machine.execReplyArrival port s
  | .flitArrival port => Sys2Proof.Machine.execFlitArrival port s
  | .nakReceipt port => Sys2Proof.Machine.execNakReceipt port s
  | .parityArrival port => Sys2Proof.Machine.execParityArrival port s
  | .missingFlitDetection port => Sys2Proof.Machine.execMissingFlitDetection port s
  | .elasticBufferDrift port distance => Sys2Proof.Machine.execElasticBufferDrift port distance s
  | .guardInterval port => Sys2Proof.Machine.execGuardInterval port s
  | .exchangeSendTime port arrival => Sys2Proof.Machine.execExchangeSendTime port arrival s
  | .exchangeReceiptTime port => Sys2Proof.Machine.execExchangeReceiptTime port s
  | .phaseCorrection port => Sys2Proof.Machine.execPhaseCorrection port s
  | .tempoNotice chip => Sys2Proof.Machine.execTempoNotice chip s
  | .preemptionNotice chip => Sys2Proof.Machine.execPreemptionNotice chip s
  | .resumeNotice chip => Sys2Proof.Machine.execResumeNotice chip s
  | .faultNotice chip => Sys2Proof.Machine.execFaultNotice chip s
  | .tempoDRequest chip => Sys2Proof.Machine.execTempoDRequest chip s
  | .slowDownNotice chip => Sys2Proof.Machine.execSlowDownNotice chip s
  | .dHoldEnd => Sys2Proof.Machine.execDHoldEnd s
  | .thermalStepUp => Sys2Proof.Machine.execThermalStepUp s
  | .powerCapMessage v => Sys2Proof.Machine.execPowerCapMessage v s
  | .capLeaseExpiry => Sys2Proof.Machine.execCapLeaseExpiry s
  | .converterSwitch chip => Sys2Proof.Machine.execConverterSwitch chip s
  | .tempoChange chip => Sys2Proof.Machine.execTempoChange chip s
  | .currentWindowEnd chip amps => Sys2Proof.Machine.execCurrentWindowEnd chip amps s
  | .temperatureReading chip die temp => Sys2Proof.Machine.execTemperatureReading chip die temp s
  | .haltPly chip => Sys2Proof.Machine.execHaltPly chip s
  | .replayPly chip => Sys2Proof.Machine.execReplayPly chip s
  | .hostGtsRecord chip => Sys2Proof.Machine.execHostGtsRecord chip s
  | .write chip => Sys2Proof.Machine.execWrite chip s
  | .read chip => Sys2Proof.Machine.execRead chip s
  | .capset chip => Sys2Proof.Machine.execCapset chip s
  | .launch chip => Sys2Proof.Machine.execLaunch chip s
  | .mapset chip => Sys2Proof.Machine.execMapset chip s
  | .badCommand chip => Sys2Proof.Machine.execBadCommand chip s
  | .hostTransferCompletion chip => Sys2Proof.Machine.execHostTransferCompletion chip s
  | .podJoin chip => Sys2Proof.Machine.execPodJoin chip s
  | .managementWatchdog chip => Sys2Proof.Machine.execManagementWatchdog chip s
  | .reset chip => Sys2Proof.Machine.execReset chip s
  | .powerOn chip => Sys2Proof.Machine.execPowerOn chip s
  | .selfTest chip => Sys2Proof.Machine.execSelfTest chip s
  | .firmwareCheck chip result => Sys2Proof.Machine.execFirmwareCheck chip result s
  | .illegalOpcode cls sub word => Sys2Proof.Machine.execIllegalOpcode cls sub word s
  | .reservedOpc w => Sys2Proof.Machine.execReservedOpc w s
  | .recordAcceptance ident => Sys2Proof.Machine.execRecordAcceptance ident s
  | .damagedMessage port => Sys2Proof.Machine.execDamagedMessage port s
  | .attestation chip nonce => Sys2Proof.Machine.execAttestation chip nonce s
  | .linkKeyInstall port tx rx => Sys2Proof.Machine.execLinkKeyInstall port tx rx s

end Sys2Proof.Machine
end

