-- ==== Sys2Proof/Machine/Schedule.lean ====
section
/-! DEFINITION. What happens next: the order of the events of a ply, the fetch of a bundle, and the end of a ply
(R13, R14, R268, R290 to R292). -/

namespace Sys2Proof.Machine

noncomputable section

/-! ## Issuing a bundle (R13, R14) -/

/-- The slots of a bundle, in order. -/
def runSlots : List Instr → State → Host.Outcome State Fault Refusal
  | [], s => .next s
  | i :: is, s =>
    match exec i s with
    | .next t => runSlots is t
    | o => o

/-- A core issues the bundle at its fetch address. -/
def issueBundle (s : State) (n : Nat) : Host.Outcome State Fault Refusal :=
  let s1 := atFetch s n
  let f := fetchBundle s1 n
  runSlots f.2 { s1 with cur := f.1 }

/-! ## What is due -/

/-- What the model does next: an event, the foresight of the atomics of the ply, the delay of an access by a lease, the end of a channel,
the bundle of a core, what the outside world does, or the end of the ply. -/
inductive Act where
  | event (i : Instr)
  | foresee
  | delay (ident : Nat)
  | settle (n ch : Nat)
  | issue (n : Nat)
  | input
  | tick
  deriving DecidableEq, Repr

/-- Whether the state of a core's package lets the core work: every core from package ready on, those of die 0 in local service
(R487). Log 84, DEDUCED. -/
def State.inService (s : State) (n : Nat) : Bool :=
  let b := (s.chip (chipOf n)).bstate.toNat
  3 ≤ b || (b = 2 && n % 1536 / 64 = 0)

/-- Accesses that are due, reads or writes. -/
def State.dueAccs (s : State) (write : Bool) : List Access := s.accs.filter (fun x => x.write = write && x.dueNow s)

/-- Whether a read performs before the bundles of its ply: a load that lands as it performs, and a load from a register
window, which sees the start of the ply (R139, R207, R238, R254). Log 15, DEDUCED. -/
def Access.early (x : Access) : Bool :=
  x.spans.any (fun p => !isMemory p.addr) ||
    (x.rank = bundleRank x.core && x.spans.all (fun p => addrWin p.addr = 0 && addrCore p.addr = x.core) &&
      (match x.dest with
       | .scalar _ _ => true
       | .queue _ _ _ => true
       | .cap _ => true
       | .ring _ => true
       | .poll _ => true
       | _ => false))

/-- Whether an access that is due meets a lease at this ply (R269): one that stands, also where an atomic of the ply evicts it (log 115,
DESIGN CHOICE), or that of an atomic of the ply, also of one that a bundle of the ply is foreseen to start. Log 18, DEDUCED. -/
def meetsLease (s : State) (x : Access) : Bool :=
  !x.delayed && isMemory ((x.spans.map Span.addr).headD 0) && metLease s x.lines

/-- The first of a list of choices that is there. -/
def firstOf {α : Type} : List (Option α) → Option α
  | [] => none
  | some x :: _ => some x
  | none :: xs => firstOf xs

/-! ## Phases of a ply -/

/-- Whether an input is an act of its ply: an event, or a message of management. -/
def Input.acts : Input → Bool
  | .row _ => true
  | .message _ _ => true
  | _ => false

/-- What the world outside the pod does at this ply. Log 62, DESIGN CHOICE. -/
def dueInput (s : State) : Option (Nat × Input) := s.inputs.find? (fun x => x.1 ≤ s.now && x.2.acts)

/-- The packages of the pod. -/
def podChips (s : State) : List Nat :=
  (rangeFrom 0 4).foldl (fun ks d => (rangeFrom 0 (s.rings.getD d 1)).flatMap (fun v => ks.map (fun k => k + v * 16 ^ d))) [0]

/-- The event of the first message that has come, by its kind (R431). Log 50, DESIGN CHOICE. -/
def messageEvent (s : State) : Option Instr :=
  s.inMsgs.findSome? (fun m =>
    if s.now < m.ply then none
    else match msgKind m.bits, m.port with
      | 1, _ => some (.tempoNotice m.chip)
      | 2, _ => some (.preemptionNotice m.chip)
      | 3, _ => some (.resumeNotice m.chip)
      | 4, _ => some (.faultNotice m.chip)
      | 5, _ => some (.tempoDRequest m.chip)
      | 6, _ => some (.slowDownNotice m.chip)
      | 7, some p => some (.exchangeSendTime p (Config.arrivalTime s.freeCtr))
      | 8, some p => some (.exchangeReceiptTime p)
      | _, _ => none)

/-- Events of the pod's ports at the start of a ply. -/
def portStart (s : State) : Option Instr :=
  match s.ctrls.find? (fun c => c.second && c.ply ≤ s.now) with
  | some c => some (.damagedMessage c.port)
  | none =>
    s.ports.findSome? (fun e =>
      if plyDue (e.2.engine.resumeAt.map (fun q => q + 512)) s.now then some (.pauseStoreRelease e.1)
      else if guardDue s e.1 then some (.guardInterval e.1)
      else if e.2.shifts.any (fun x => x.1 ≤ s.now) then some (.phaseCorrection e.1)
      else none)

/-- Events of the packages at the start of a ply. -/
def chipStart (s : State) : Option Instr :=
  s.chips.findSome? (fun e =>
    if e.2.haltDue s.now then some (.haltPly e.1)
    else if e.2.replayDue s.now then some (.replayPly e.1)
    else if plyDue e.2.preempt s.now then some (.preemptionPly e.1)
    else if e.2.overTime then some (.managementWatchdog e.1)
    else if (e.2.changeDue s.now).isSome then some (.tempoChange e.1)
    else if (e.2.nextRatio s.now).isSome then some (.converterSwitch e.1)
    else none)

/-- Events of the root's tempo logic at the start of a ply. -/
def rootStart (s : State) : Option Instr :=
  let c := s.chip s.root
  if plyDue c.dUntil s.now then some .dHoldEnd
  else if c.ceiling != 0 && c.calmFrom + c.thold.toNat ≤ s.now then some .thermalStepUp
  else if c.leaseOver then some .capLeaseExpiry
  else none

/-- An element of a list with the least rank, and of one rank the least order. -/
def leastRank {α : Type} (rank order : α → Nat) (l : List α) : Option α :=
  minBy (fun x => rank x * 2 ^ 80 + order x) l

/-- Events of cores at the start of a ply. -/
def coreStart (s : State) : Option Instr :=
  s.cores.findSome? (fun e =>
    if e.2.watchdogDue then some (.watchdog e.1)
    else if e.2.tooLate s.now then some (.preemptTimeout e.1)
    else if e.2.resumeDue s.now then some (.resumeStart e.1)
    else none)

/-- The ends of leases. -/
def leaseStart (s : State) : Option Instr :=
  (s.leases.find? (leaseOver s)).map (fun l => .leaseExpiry l.die l.line)

/-- The ends of leaves, and then of records. -/
def recordEnds (s : State) : Option Instr :=
  match s.recs.findSome? (fun r => if r.running then
      (r.leaves.find? (fun l => l.phase = .writing && l.ends ≤ s.now)).map (fun l => l.core) else none) with
  | some n => some (.leafEnd n)
  | none => (s.recs.find? (fun r => r.settled && r.latest ≤ s.now)).map (fun r => .recordCompletion r.ident)

/-- The place of a read among those before the bundles of its ply: memory, then the register windows of its own core, then those
of others, so that a window shows what lands at this ply (R14, R254). -/
def Access.turn (x : Access) : Nat :=
  if x.spans.all (fun p => isMemory p.addr) then 0 else if x.spans.all (fun p => addrCore p.addr = x.core) then 1 else 2

/-- Whether an access that is due may meet an atomic that the core of its home starts at this ply (R268). -/
def mayMeet (s : State) (x : Access) : Bool :=
  x.dueNow s && x.lines.any (fun l => addrWin (64 * l) = 0 &&
    ((s.core (addrCore (64 * l))).mayStart s.now && s.inService (addrCore (64 * l))))

/-- Whether a channel fetches a record at this ply. -/
def Chan.fetchesNow (k : Chan) (now : Nat) : Bool := k.state = 1 && plyDue k.fetchAt now

/-- Whether the record that a channel of a core fetches may meet one. -/
def mayFetch (s : State) (n : Nat) (c : Core) : Bool :=
  c.chans.any (fun k => k.2.fetchesNow s.now) && c.mayStart s.now && s.inService n

/-- Foresight of the atomics of the ply, and the delays of the accesses that meet a lease. They come before the bundles, which may
wait for what a lease delays. Log 18, DEDUCED. -/
def leaseActs (s : State) : Option Act :=
  if s.foreseen.isNone && (s.accs.any (mayMeet s) || s.cores.any (fun e => mayFetch s e.1 e.2)) then some .foresee
  else (s.accs.find? (fun x => x.dueNow s && meetsLease s x)).map (fun x => .delay x.ident)

/-- A channel whose last OWN clears perform at this ply: it is idle, or stopped, from this ply on (R335). Log 25, DEDUCED. -/
def channelEnd (s : State) : Option Act :=
  s.cores.findSome? (fun e => (e.2.chans.find? (fun k => k.2.state = 1 && clearsNow s e.1 k.1)).map (fun k => .settle e.1 k.1))

/-- Reads before the bundles of the ply. -/
def earlyReads (s : State) : Option Instr :=
  (minBy Access.turn ((s.dueAccs false).filter Access.early)).map (fun x => .memoryAccessPerform x.ident)

/-- Results that land in registers, actions of thresholds, yield counters. -/
def landings (s : State) : Option Instr :=
  s.cores.findSome? (fun e =>
    if !(e.2.dueLandings s.now false).isEmpty then some (.resultLanding e.1)
    else match e.2.fired.find? (fun f => f.ply ≤ s.now) with
      | some f => some (.thresholdAction e.1 f.arm.slot)
      | none => if e.2.addsDue s.now then some (.yieldCounterAdd e.1) else none)

/-- The core that issues next. -/
def issuer (s : State) : Option Nat := (s.cores.find? (fun e => e.2.issues s.now && s.inService e.1)).map Prod.fst

/-- The atomics of the ply, in the order of their issuers (R268). -/
def nextAtomic (s : State) : Option Instr :=
  let xs : List (Nat × Nat × Instr) :=
    (s.atoms.filter (fun a => a.dueNow s)).map (fun a => (a.rank, a.order, .atomicExecute a.ident)) ++
      (dueAdds s).map (fun e => (channelRank e.1 e.2, 0, .countedRecordAdd e.1 e.2))
  (leastRank (fun x => x.1) (fun x => x.2.1) xs).map (fun x => x.2.2)

/-- The channel that fetches a record next: before the bundles of the ply, which know the record from then on (R272). Log 26, DEDUCED. -/
def earlyFetch (s : State) : Option Instr :=
  s.cores.findSome? (fun e => (e.2.chans.find? (fun k => k.2.fetchesNow s.now)).map (fun k => .recordFetch e.1 k.1))

/-- A channel that issues a granule. -/
def channelEvent (s : State) : Option Instr :=
  s.cores.findSome? (fun e => e.2.chans.findSome? (fun k =>
    if k.2.state != 1 then none
    else if plyDue (k.2.cur.map CopyRun.issueAt) s.now &&
        (k.2.stopAt.isNone || !plyDue (k.2.stopAt.map (fun p => p + 1)) s.now) then some (.granuleTransfer e.1 k.1)
    else none))

/-- A save or a restore whose next granule is due; a save that ply P has asked for waits for the restore in progress (R395). -/
def contextEvent (s : State) : Option Instr :=
  s.cores.findSome? (fun e =>
    match e.2.restoring, e.2.saving with
    | some v, _ => if v.next ≤ s.now && !v.todo.isEmpty then some (.restore e.1) else none
    | none, some v =>
      if v.next ≤ s.now && (if v.begun then !v.todo.isEmpty else drained s e.1) then some (.contextSave e.1) else none
    | none, none => none)

/-- Whether the operation of a running record has a step now. -/
def GtsRun.stepsNow (s : State) (r : GtsRun) : Bool :=
  r.running && r.stop.isNone &&
    (recOpc r.word = 0x00 || (isCollective (recOpc r.word) && !s.colls.any (fun c => c.record = r.ident)) ||
      (recOpc r.word = 0x11 && !s.accs.any (fun a => a.dest = .counter r.ident)))

/-- What the tile set does at this ply. Log 54, DEDUCED. -/
def recordEvent (s : State) : Option Instr :=
  match s.recs.find? (canAccept s) with
  | some r => some (.recordAcceptance r.ident)
  | none =>
    match s.recs.find? (fun r => r.dispatchDue s.now) with
    | some r => some (.leafDispatch r.ident)
    | none =>
      match s.recs.findSome? (fun r => if r.running then
          r.leaves.findSome? (fun l => if (r.startable l.core s.now).isSome && s.inService l.core then some l.core else none) else none) with
      | some n => some (.leafStart n)
      | none =>
        (s.recs.find? (fun r => r.stepsNow s || (r.computing s.now).isSome)).bind (fun r => decodeRecord r.word)

/-- What the links do at a ply: repairs, checks, the instructions of the engines, missing flits, deliveries. -/
def linkEvent (s : State) : Option Instr :=
  let first (f : Nat → Option Instr) : Option Instr := s.ports.findSome? (fun e => f e.1)
  firstOf
    [first (fun p => if (nakDue s p).isSome then some (.nakReceipt p) else none),
     first (fun p => if (parityDue s p).isSome then some (.parityArrival p) else none),
     first (fun p => if (checkDue s p).isSome then some (.flitArrival p) else none),
     first (fun p => (headDue s p).map LinkEntry.instr),
     first (fun p => if (arrivalFault s p).isSome then some (.missingFlitDetection p) else none),
     first (fun p => if (deliveryDue s p false).isSome then some (.flitArrival p) else none),
     first (fun p => if (deliveryDue s p true).isSome then some (.replyArrival p) else none)]

/-- The row of a compression step. -/
def stepRow (chip die : Nat) (w : BitVec 128) : Instr :=
  match stepOpc w.toNat with
  | 1 => .topk chip die w
  | 2 => .scadd chip die w
  | 3 => .q4 chip die w
  | _ => .dq4add chip die w

/-- Starts of collectives come before what the links deliver at the ply: a fault of a start withholds it (R424). -/
def collectiveStarts (s : State) : Option Instr :=
  s.colls.findSome? (fun c => if (startable s c.chip).isSome then some (.collectiveStart c.chip) else none)

/-- What the collective sequencers do at a ply. -/
def collectiveEvent (s : State) : Option Instr :=
  s.colls.findSome? (fun c =>
    match c.steps.find? (fun x => c.started && x.1 ≤ s.now) with
    | some x => some (stepRow c.chip c.die x.2.2)
    | none =>
      if (startable s c.chip).isSome then some (.collectiveStart c.chip)
      else if (finishable s c.chip).isSome then some (.collectiveCompletion c.chip)
      else none)

/-- The command that a package consumes at a ply. -/
def commandRow (s : State) (chip : Nat) : Option Instr :=
  (hostCommand s chip).bind (fun w =>
    if commandBad s chip w then some (.badCommand chip)
    else match commandKind w with
      | 0 => if packageFree s chip then some (.hostGtsRecord chip) else none
      | 1 => some (.write chip)
      | 2 => some (.read chip)
      | 3 => some (.capset chip)
      | 4 => some (.launch chip)
      | _ => some (.mapset chip))

/-- What the command processors do at a ply. -/
def hostEvent (s : State) : Option Instr :=
  s.chips.findSome? (fun e => if (xferDone s e.1).isSome then some (.hostTransferCompletion e.1) else commandRow s e.1)

/-- The event that decides a bundle whose slots are all known: it comes before anything else. -/
def undecidedBundle (s : State) : Option Instr :=
  let c := s.core s.cur.core
  if s.cur.left != 0 then none
  else if !(c.takeable s.now).isEmpty then some (.deferredEventTaken s.cur.core)
  else if c.waitOver then some (.waitWatchdog s.cur.core)
  else none

/-- The reads of the ply. -/
def nextRead (s : State) : Option Instr :=
  match leastRank Access.rank Access.order (s.dueAccs false) with
  | some x => some (if x.isTileLoad then .tileChunkMove x.core else .memoryAccessPerform x.ident)
  | none => none

/-- Combines of the matrix unit, and landings in tiles and accumulators. -/
def lateLandings (s : State) : Option Instr :=
  match s.cores.find? (fun e => e.2.mmas.any (fun m => m.combines s.now)) with
  | some e => some (.matrixCombine e.1)
  | none => (s.cores.find? (fun e => !(e.2.dueLandings s.now true).isEmpty)).map (fun e => .resultLanding e.1)

/-- Whether a write is a store to TDIRTY (0x52) of a core. -/
def Access.toDirty (x : Access) : Bool :=
  x.spans.any (fun p => addrWin p.addr = 5 && addrOff p.addr < 0x298 && 0x290 < addrOff p.addr + p.len)

/-- The writes of the ply, in ascending rank whatever their homes (R267, R291); the stores to TDIRTY come first, so that a flag that
another store of the ply sets stays set (R200). Log 30, DEDUCED. -/
def nextWrite (s : State) : Option Instr :=
  let xs := s.dueAccs true
  match leastRank Access.rank Access.order (if xs.any Access.toDirty then xs.filter Access.toDirty else xs) with
  | some x => some (if x.isTileStore then .tileChunkMove x.core else .memoryAccessPerform x.ident)
  | none => none

/-- The next act of this ply for a record that may complete with it: its acceptance, its dispatch, its own step, the read of its counter,
or what its collective does. -/
def recordAct (s : State) (r : GtsRun) : Option Instr :=
  if canAccept s r then some (.recordAcceptance r.ident)
  else if r.dispatchDue s.now then some (.leafDispatch r.ident)
  else if r.stepsNow s then decodeRecord r.word
  else match s.accs.find? (fun a => a.dest = .counter r.ident && !a.write && a.dueNow s) with
    | some a => some (.memoryAccessPerform a.ident)
    | none =>
      (s.colls.find? (fun c => c.record = r.ident)).bind (fun c =>
        if (startable s c.chip).any (fun x => x.2.ident = r.ident) then some (.collectiveStart c.chip)
        else if (finishable s c.chip).any (fun x => x.ident = r.ident) then some (.collectiveCompletion c.chip)
        else none)

/-- Whether a record completes at this ply after an act, and at most so many more. -/
def completesNow : Nat → State → Instr → Nat → Bool
  | 0, _, _, _ => false
  | n + 1, s, i, k =>
    match exec i s with
    | .next t =>
      (match t.record k with
       | some r => (r.settled && r.latest ≤ s.now) ||
           (match recordAct t r with | some j => completesNow n t j k | none => false)
       | none => false)
    | _ => false

/-- An act of the tile set that completes a record at this ply: it comes before the bundles, which may wait for that completion
(R273, R274). Log 54, DEDUCED. -/
def earlyRecord (s : State) : Option Instr :=
  s.recs.findSome? (fun r =>
    if r.done.isSome then none
    else (recordAct s r).bind (fun i => if completesNow 4 s i r.ident then some i else none))

/-- What happens at this ply up to its bundles. Log 1, DESIGN CHOICE. Log 2, DEDUCED. -/
def earlyActs (s : State) : Option Act :=
  let ev (o : Option Instr) : Option Act := o.map Act.event
  firstOf [ev (undecidedBundle s), (dueInput s).map (fun _ => Act.input), ev (chipStart s), ev (portStart s), ev (messageEvent s), ev (rootStart s),
    ev (coreStart s), ev (leaseStart s), ev (recordEnds s), leaseActs s, channelEnd s, ev (earlyReads s), ev (landings s),
    ev (earlyFetch s), ev (earlyRecord s), ev (collectiveStarts s), (issuer s).map Act.issue]

/-- What happens next at this ply. Log 1, DESIGN CHOICE. Log 2, DEDUCED. -/
def nextAct (s : State) : Act :=
  let ev (o : Option Instr) : Option Act := o.map Act.event
  (firstOf [earlyActs s, ev (nextAtomic s), ev (channelEvent s), ev (contextEvent s),
    ev (linkEvent s), ev (collectiveEvent s), ev (hostEvent s), ev (nextRead s), ev (recordEvent s), ev (lateLandings s), ev (nextWrite s)]).getD .tick

/-! ## The end of a ply -/

/-- What a core forgets: what was complete before the next ply. An operation complete at that very ply stays, because a
lease may still delay it. -/
def Core.prune (c : Core) (now : Nat) : Core :=
  let ops := c.ops.filter (fun o => o.isOpen || now ≤ o.due)
  { c with ops := ops, csfresh := 0, busy := c.busy.filter (fun b => now < b.free),
           fences := c.fences.filter (fun f => f.waits ops (now - 1)),
           arms := c.arms.filter (fun a => match a.ends with | none => true | some e => now ≤ e) }

/-- The tile columns that multiply-accumulates read at the start of a ply (R216). -/
def sampleSteps (s : State) (n : Nat) : State :=
  let c := s.core n
  s.setCore n { c with mmas := c.mmas.map (fun m => match m.step s.now with | some k => m.sample c k | none => m) }

/-- The tile bytes that tile stores of this ply write (R214). Log 38, DEDUCED. -/
def sampleStores (s : State) : State :=
  { s with accs := s.accs.map (fun x => match x.dest with
    | .fromTile t off =>
      if x.due = s.now && !x.delayed then
        { x with data := BitVec.ofNat 2048 (((s.core x.core).tileOf t).toNat >>> (8 * off)) }
      else x
    | _ => x) }

/-- The end of a ply for one core. -/
def endPlyCore (s : State) (n : Nat) : State := endRestore (endSave (endStop (settleChannels s n) n) n) n

/-- The start of a ply for one core. -/
def startPlyCore (s : State) (n : Nat) : State := countPly (readArms (sampleSteps s n) n) n

/-- The end of a ply: cores, links, what the host writes, charges, events for the host, time bases. -/
def endPly (s : State) : State :=
  let s1 := endPlyLinks ((s.cores.map Prod.fst).foldl endPlyCore s)
  (podChips s).foldl endPlyChip (flushEvents (takeCharges (landHostWrites s1)))

/-- Whether an input is over at a ply. -/
def inputOver (now : Nat) (x : Nat × Input) : Bool :=
  match x.2 with
  | .damage _ ply _ _ => ply < now
  | .word _ ply _ => ply < now
  | _ => x.1 < now

/-- The next ply: what is over is forgotten. -/
def nextPly (s : State) : State :=
  let now := s.now + 1
  { s with
    now := now, foreseen := none, cores := s.cores.map (fun e => (e.1, e.2.prune now)),
    recs := s.recs.filter (fun r => match r.done with | some c => now ≤ c | none => true),
    inMsgs := s.inMsgs.filter (fun m => now ≤ m.ply), inputs := s.inputs.filter (fun x => !inputOver now x) }

/-- The start of a ply: cores, links, packages, and what tile stores write. -/
def startPly (s : State) : State :=
  sampleStores ((podChips s).foldl startPlyChip (startPlyLinks ((s.cores.map Prod.fst).foldl startPlyCore s)))

/-- The end of a ply, and the start of the next one. -/
def tick (s : State) : State := startPly (nextPly (endPly s))

/-! ## Placing one instruction -/

/-- The slot class of a bare word (R42): the class of its size that decodes it. Log 3, DESIGN CHOICE. -/
def wordClass (nbits w : Nat) : Nat :=
  match nbits with
  | 16 => if isIllegal (decodeA w) && !isIllegal (decodeK w) then 5 else 1
  | 48 => 6
  | 96 => 0
  | _ =>
    if !isIllegal (decodeC w) then 0
    else if !isIllegal (decodeL w) then 2
    else if !isIllegal (decodeV w) then 3
    else if !isIllegal (decodeM w) then 4
    else if !isIllegal (decodeB w) then 7
    else 0

/-- The control word of a bundle with one slot: the broadcast scalar s0, and every read port given to the slot. -/
def soloControl (cls : Nat) : Nat :=
  let c := portCode cls
  2 ^ 22 + c <<< 4 + c <<< 7 + c <<< 10 + c <<< 13

/-- The bytes of a bundle whose only slot is a bare word, and their number; a word of 8 bits is the bundle itself. -/
def soloBundle (nbits w : Nat) : Nat × Nat :=
  if nbits = 8 then (w % 256, 1)
  else
    let cls := wordClass nbits w
    (2 ^ cls + soloControl cls <<< 8 + (w % 2 ^ nbits) <<< 40, 5 + nbits / 8)

/-- A bundle with one slot at window-0 offset 0 of core 0, and a full launch of that core there, to issue at this ply; package 0 is
past its bring-up (R487). Log 4, DESIGN CHOICE. -/
def placeWord (s : State) (nbits w : Nat) : State :=
  let b := soloBundle nbits w
  let s0 := s.setChip 0 { s.chip 0 with bstate := 5 }
  let s1 := fullLaunch s0 0 { entry := 0, codeLo := 0, codeHi := b.2, regs := [], caps := [], dtbase := 0, dtlen := 0 } s.now
  { s1 with mem := writeBytes s1.mem (bytesOf (coreBase 0) b.1 b.2), cur := Cur.reset }

/-! ## One step -/

/-- An act that comes before the atomics of its ply, once they are foreseen; any other changes nothing here. -/
def earlyAct (s : State) : Act → Host.Outcome State Fault Refusal
  | .event i => exec i s
  | .delay k =>
    match s.accs.find? (fun x => x.ident = k) with
    | some x => finishSame s (delayAccess s x)
    | none => .next s
  | .settle n ch => finishSame s (endChannel s n ch)
  | .issue n => issueBundle s n
  | .input =>
    match dueInput s with
    | some x =>
      let s1 : State := { s with inputs := dropFirst (fun y => y = x) s.inputs }
      match x.2 with
      | .row i => exec i s1
      | .message chip bits => .next (receiveMsg s1 chip s.now none bits)
      | _ => .next s1
    | none => .next s
  | .foresee => .next s
  | .tick => .next s

/-- The ply as it goes up to its atomics, in at most so many acts. -/
def rehearse : Nat → State → State
  | 0, s => s
  | k + 1, s =>
    match (earlyActs s).map (earlyAct s) with
    | some (.next t) => rehearse k t
    | _ => s

/-- The acts of a ply up to its atomics are fewer than this. -/
def earlyBound (s : State) : Nat :=
  (s.cores.foldl (fun k e => k + 9 + e.2.pend.length + e.2.fired.length + e.2.chans.length) 64) + 3 * s.accs.length + 16 * s.recs.length + s.colls.length

/-- The atomics that the cores start at this ply on their own scratchpads, if certain ones are foreseen. -/
def startedUnder (s : State) (xs : List Atom) : List Atom :=
  (rehearse (earlyBound s) { s with foreseen := some xs }).atoms.filter (fun a =>
    a.due ≤ s.now && addrWin a.addr = 0 && addrCore a.addr = a.core && a.rank = bundleRank a.core && !s.atoms.any (fun b => b.ident = a.ident))

/-- The atomics foreseen for the ply: those that the ply starts if they are foreseen. Found in rounds from none on; where the rules are
circular, so that no round repeats, what the last one gives. Log 18, DEDUCED. -/
def foreseenIn (s : State) : Nat → List Atom → List Atom
  | 0, xs => xs
  | k + 1, xs =>
    let ys := startedUnder s xs
    if ys = xs then xs else foreseenIn s k ys

/-- One step of the machine: one event, one bundle, or the passing of a ply. Log 1, DESIGN CHOICE. -/
def advance (s : State) : Host.Outcome State Fault Refusal :=
  match nextAct s with
  | .foresee => .next { s with foreseen := some (foreseenIn s (s.cores.length + 2) []) }
  | .tick => finishSame s (tick s)
  | a => earlyAct s a

end

end Sys2Proof.Machine
end

