-- ==== Sys2Proof/Machine/Step.lean ====
section
/-! DEFINITION. One step of the machine, and the placing of one instruction where the next step fetches it. -/

namespace Sys2Proof.Machine

noncomputable section

/-- One step. -/
def step (s : State) : Host.Outcome State Fault Refusal := advance s

/-- A state in which core 0 is launched at window-0 offset 0, with a bundle there whose only slot is the given word.
Log 4, DESIGN CHOICE. -/
def State.withFetchWord (s : State) (nbits w : Nat) : State := placeWord s nbits w

end

end Sys2Proof.Machine
end

