-- ==== Sys2Proof/WellFormed.lean ====
section
/-! DEFINITION. Which instructions are well formed: those whose operands the manual lets their fields hold. The tables that
the decoder also reads (the assigned control state indices, the targets of GSUB) are the decoder's own. -/

noncomputable section

namespace Sys2Proof

/-- A queue number names one of v0 to v383 (R59). -/
def queueOk (v : BitVec 9) : Bool := v.toNat < 384

/-- A scope code is one of R62, 0 to 4. -/
def scopeOk (k : BitVec 3) : Bool := k.toNat < 5

/-- A rounding mode code is one of R156, 0 to 4. -/
def roundOk (r : BitVec 3) : Bool := r.toNat < 5

/-- A tile format code is one of MXINT8, MXINT6 and MXINT4 (R64). -/
def formatOk (f : BitVec 2) : Bool := f.toNat < 3

/-- Well-formed instructions. An event is well formed whatever it names. -/
def Instr.wf (i : Instr) : Bool :=
  match i with
  | .idle => true
  | .tree _ _ _ _ _ _ _ _ _ _ _ z1 z0 => (z1.toNat = 0) && (z0.toNat = 0)
  | .addI64 _ _ _ _ => true
  | .subI64 _ _ _ _ => true
  | .send _ _ _ _ => true
  | .sendSig _ _ _ _ => true
  | .land _ _ _ _ => true
  | .fwd _ _ _ _ => true
  | .redAddF32 _ _ _ _ => true
  | .redAddBf16 _ _ _ _ => true
  | .redAddI32 _ _ _ _ => true
  | .redMaxF32 _ _ _ _ => true
  | .redMaxBf16 _ _ _ _ => true
  | .redMaxI32 _ _ _ _ => true
  | .guard _ _ _ => true
  | .linkLoop _ _ => true
  | .endl => true
  | .mark _ _ _ => true
  | .ckpt _ _ => true
  | .fill _ _ _ _ => true
  | .delv _ _ _ _ => true
  | .slot _ _ _ _ _ _ _ => true
  | .serve _ _ _ => true
  | .halt _ => true
  | .reservedOpc w => decodeLink w.toNat = .reservedOpc w
  | .andI64 _ _ _ _ => true
  | .orI64 _ _ _ _ => true
  | .xorI64 _ _ _ _ => true
  | .andnI64 _ _ _ _ => true
  | .sllI64 _ _ _ _ => true
  | .srlI64 _ _ _ _ => true
  | .sraI64 _ _ _ _ => true
  | .mulI64 _ _ _ _ => true
  | .mulhI64 _ _ _ _ => true
  | .mulhuI64 _ _ _ _ => true
  | .addsI64 _ _ _ _ => true
  | .subsI64 _ _ _ _ => true
  | .addsuI64 _ _ _ _ => true
  | .subsuI64 _ _ _ _ => true
  | .minI64 _ _ _ _ => true
  | .maxI64 _ _ _ _ => true
  | .minuI64 _ _ _ _ => true
  | .maxuI64 _ _ _ _ => true
  | .clzI64 _ _ _ => true
  | .ctzI64 _ _ _ => true
  | .popcI64 _ _ _ => true
  | .addI32 _ _ _ _ => true
  | .subI32 _ _ _ _ => true
  | .andI32 _ _ _ _ => true
  | .orI32 _ _ _ _ => true
  | .xorI32 _ _ _ _ => true
  | .andnI32 _ _ _ _ => true
  | .sllI32 _ _ _ _ => true
  | .srlI32 _ _ _ _ => true
  | .sraI32 _ _ _ _ => true
  | .mulI32 _ _ _ _ => true
  | .mulhI32 _ _ _ _ => true
  | .mulhuI32 _ _ _ _ => true
  | .addsI32 _ _ _ _ => true
  | .subsI32 _ _ _ _ => true
  | .addsuI32 _ _ _ _ => true
  | .subsuI32 _ _ _ _ => true
  | .minI32 _ _ _ _ => true
  | .maxI32 _ _ _ _ => true
  | .minuI32 _ _ _ _ => true
  | .maxuI32 _ _ _ _ => true
  | .clzI32 _ _ _ => true
  | .ctzI32 _ _ _ => true
  | .popcI32 _ _ _ => true
  | .addiI64 _ _ _ _ => true
  | .addiI32 _ _ _ _ => true
  | .andiI64 _ _ _ _ => true
  | .oriI64 _ _ _ _ => true
  | .xoriI64 _ _ _ _ => true
  | .slliI64 _ _ _ i => i.toNat < 64
  | .srliI64 _ _ _ i => i.toNat < 64
  | .sraiI64 _ _ _ i => i.toNat < 64
  | .addsiI64 _ _ _ _ => true
  | .cmpEq _ _ _ _ => true
  | .cmpNe _ _ _ _ => true
  | .cmpLt _ _ _ _ => true
  | .cmpGe _ _ _ _ => true
  | .cmpLtu _ _ _ _ => true
  | .cmpGeu _ _ _ _ => true
  | .cmovNz _ _ _ _ => true
  | .cmovZ _ _ _ _ => true
  | .cmovLt _ _ _ _ => true
  | .cmovGe _ _ _ _ => true
  | .cmpiLt _ _ _ _ => true
  | .cmpiEq _ _ _ _ => true
  | .movi _ _ _ => true
  | .movsh _ _ _ => true
  | .mfc _ _ x => assignedIndex x.toNat
  | .mtc _ _ x => assignedIndex x.toNat
  | .br _ _ _ _ => true
  | .jmp _ _ => true
  | .call _ _ => true
  | .jr _ _ => true
  | .callr _ _ _ => true
  | .loop _ _ _ => true
  | .loopi _ _ _ => true
  | .endloop _ => true
  | .lpop _ => true
  | .tret _ => true
  | .yield _ => true
  | .trap _ _ _ => true
  | .fenceSeq _ => true
  | .wstep _ => true
  | .wstep1 _ => true
  | .wback _ => true
  | .wstepL _ l => l.toNat < 6
  | .wget _ _ => true
  | .wset _ _ => true
  | .wtake _ _ => true
  | .wtake1 _ _ => true
  | .wtakeL _ _ => true
  | .ldB _ _ _ _ => true
  | .ldH _ _ _ _ => true
  | .ldW _ _ _ _ => true
  | .ldD _ _ _ _ => true
  | .stB _ _ _ _ => true
  | .stH _ _ _ _ => true
  | .stW _ _ _ _ => true
  | .stD _ _ _ _ => true
  | .ldvW _ v _ _ => queueOk v
  | .ldvsW _ v _ _ => queueOk v
  | .ldvmW _ v _ _ => queueOk v
  | .ldvsmW _ v _ _ => queueOk v
  | .stvW _ v _ _ _ => queueOk v
  | .stvsW _ v _ _ _ => queueOk v
  | .stvmW _ v _ _ _ => queueOk v
  | .stvsmW _ v _ _ _ => queueOk v
  | .qpush _ v _ _ _ => queueOk v
  | .qpushRel _ v _ _ _ k => queueOk v && scopeOk k
  | .cld _ _ _ _ => true
  | .cst _ _ _ _ => true
  | .cbase _ _ _ _ => true
  | .clen _ _ _ _ => true
  | .cperms _ _ _ _ => true
  | .cspace _ _ _ _ => true
  | .cgetb _ _ _ => true
  | .cgeth _ _ _ => true
  | .cgett _ _ _ => true
  | .cmovc _ _ _ => true
  | .cclr _ _ => true
  | .cseal _ _ _ _ => true
  | .cunseal _ _ _ _ => true
  | .aswapD _ _ _ _ k _ => scopeOk k
  | .acasD _ d _ _ k _ => scopeOk k && (d.toNat % 2 = 0)
  | .aaddD _ _ _ _ k _ => scopeOk k
  | .aminD _ _ _ _ k _ => scopeOk k
  | .amaxD _ _ _ _ k _ => scopeOk k
  | .aandD _ _ _ _ k _ => scopeOk k
  | .aorD _ _ _ _ k _ => scopeOk k
  | .axorD _ _ _ _ k _ => scopeOk k
  | .ldxD _ _ _ _ k o => scopeOk k && (o.toNat < 2)
  | .stxD _ _ _ _ k o => scopeOk k && (o.toNat % 2 = 0)
  | .fence _ _ _ k => scopeOk k
  | .vaddI32 _ g _ _ _ _ _ => g.toNat < 6
  | .vsubI32 _ g _ _ _ _ _ => g.toNat < 6
  | .vaddI16 _ g _ _ _ _ _ => g.toNat < 6
  | .vsubI16 _ g _ _ _ _ _ => g.toNat < 6
  | .vaddI8 _ g _ _ _ _ _ => g.toNat < 6
  | .vaddsI32 _ g _ _ _ _ _ => g.toNat < 6
  | .vaddsI16 _ g _ _ _ _ _ => g.toNat < 6
  | .vaddsI8 _ g _ _ _ _ _ => g.toNat < 6
  | .vsubsI32 _ g _ _ _ _ _ => g.toNat < 6
  | .vmulI32 _ g _ _ _ _ _ => g.toNat < 6
  | .vmulhI32 _ g _ _ _ _ _ => g.toNat < 6
  | .vminI32 _ g _ _ _ _ _ => g.toNat < 6
  | .vmaxI32 _ g _ _ _ _ _ => g.toNat < 6
  | .vaddI32Bc _ d a _ _ => queueOk d && queueOk a
  | .vmulI32Bc _ d a _ _ => queueOk d && queueOk a
  | .vaddiI32 _ d a _ => queueOk d && queueOk a
  | .vandU32 _ g _ _ _ _ _ => g.toNat < 6
  | .vorU32 _ g _ _ _ _ _ => g.toNat < 6
  | .vxorU32 _ g _ _ _ _ _ => g.toNat < 6
  | .vandU32Bc _ d a _ _ => queueOk d && queueOk a
  | .vxorU32Bc _ d a _ _ => queueOk d && queueOk a
  | .vsllI32 _ d a _ => queueOk d && queueOk a
  | .vsrlI32 _ d a _ => queueOk d && queueOk a
  | .vsraI32 _ d a _ => queueOk d && queueOk a
  | .vaddF32 _ g _ _ _ _ _ => g.toNat < 6
  | .vsubF32 _ g _ _ _ _ _ => g.toNat < 6
  | .vmulF32 _ g _ _ _ _ _ => g.toNat < 6
  | .vfmaF32 _ g _ _ _ _ _ => g.toNat < 6
  | .vmaxF32 _ g _ _ _ _ _ => g.toNat < 6
  | .vminF32 _ g _ _ _ _ _ => g.toNat < 6
  | .vaddBf16 _ g _ _ _ _ _ => g.toNat < 6
  | .vsubBf16 _ g _ _ _ _ _ => g.toNat < 6
  | .vmulBf16 _ g _ _ _ _ _ => g.toNat < 6
  | .vfmaBf16 _ g _ _ _ _ _ => g.toNat < 6
  | .vaddF32Bc _ d a _ _ => queueOk d && queueOk a
  | .vmulF32Bc _ d a _ _ => queueOk d && queueOk a
  | .vcmpltI32 _ _ a b _ => queueOk a && queueOk b
  | .vcmpeqI32 _ _ a b _ => queueOk a && queueOk b
  | .vcmpleF32 _ _ a b _ => queueOk a && queueOk b
  | .vmergeU32 _ d a _ _ => queueOk d && queueOk a
  | .vcvtF32I32 _ d a r => queueOk d && queueOk a && roundOk r
  | .vcvtF32U32 _ d a r => queueOk d && queueOk a && roundOk r
  | .vcvtI32F32 _ d a r => queueOk d && queueOk a && roundOk r
  | .vcvtU32F32 _ d a r => queueOk d && queueOk a && roundOk r
  | .vcvtBf16F32 _ d a _ r => queueOk d && queueOk a && roundOk r
  | .vcvtF32Bf16 _ d a _ => queueOk d && queueOk a
  | .vpacksI16I32 _ d a p => queueOk d && queueOk a && (p.toNat < 2)
  | .vpacksI8I32 _ d a p => queueOk d && queueOk a && (p.toNat < 4)
  | .vpacksU8I32 _ d a p => queueOk d && queueOk a && (p.toNat < 4)
  | .vrotg _ d a _ => queueOk d && queueOk a
  | .vrot _ d a _ _ => queueOk d && queueOk a
  | .vperm _ d a _ _ => queueOk d && queueOk a
  | .vbcast _ d a _ _ => queueOk d && queueOk a
  | .vredaddI32 _ d a _ _ => queueOk d && queueOk a
  | .vredaddF32 _ d a _ _ => queueOk d && queueOk a
  | .vredmaxF32 _ d a _ _ => queueOk d && queueOk a
  | .vscanaddF32 _ d a _ _ => queueOk d && queueOk a
  | .vmand _ _ _ _ => true
  | .vmor _ _ _ _ => true
  | .vmxor _ _ _ _ => true
  | .vmandn _ _ _ _ => true
  | .vmnot _ _ _ => true
  | .vmget _ _ _ => true
  | .vmset _ _ _ => true
  | .vmcnt _ _ _ => true
  | .vmfirst _ _ _ => true
  | .vmfromq _ v _ _ => queueOk v
  | .vmtoq _ v _ => queueOk v
  | .vlaneU32 _ v _ _ _ _ => queueOk v
  | .vlaneI32 _ v _ _ _ _ => queueOk v
  | .vsplatU32 _ v _ => queueOk v
  | .vsplatU16 _ v _ => queueOk v
  | .vsplatU8 _ v _ => queueOk v
  | .vtrd _ v _ _ => queueOk v
  | .vtwr _ v _ _ _ => queueOk v
  | .tld _ _ _ _ => true
  | .tldX _ _ _ _ => true
  | .tldSc _ _ _ _ => true
  | .tst _ _ _ _ => true
  | .tstX _ _ _ _ => true
  | .tstSc _ _ _ _ => true
  | .tileChunkMove _ => true
  | .mma _ _ _ _ f g _ => formatOk f && formatOk g
  | .mmaz _ _ _ _ f g _ => formatOk f && formatOk g
  | .matrixCombine _ => true
  | .aoutF32 _ _ _ _ r => roundOk r
  | .aoutBf16 _ _ _ _ r => roundOk r
  | .aoutI8 _ _ _ _ r => roundOk r
  | .aoutI6 _ _ _ _ r => roundOk r
  | .aoutI4 _ _ _ _ r => roundOk r
  | .tcfg _ _ => true
  | .trel _ _ => true
  | .azero _ _ => true
  | .tzero _ _ => true
  | .ttrI8 _ _ _ => true
  | .ttrI6 _ _ _ => true
  | .ttrI4 _ _ _ => true
  | .scldA _ _ => true
  | .scldB _ _ => true
  | .scldqA _ _ => true
  | .scldqB _ _ => true
  | .scrstA => true
  | .scrstB => true
  | .kuniA _ => true
  | .kuniB _ => true
  | .pseed _ _ _ => true
  | .paux _ _ _ => true
  | .pgets _ _ _ => true
  | .pgeta _ _ _ => true
  | .bsetlen _ l => l.toNat < 5
  | .bdither _ _ => true
  | .bdslv _ _ v _ _ _ => queueOk v
  | .bdslvBi _ _ v _ _ _ => queueOk v
  | .bcryst _ _ v => queueOk v
  | .bcrysta _ _ v => queueOk v
  | .bcrystp _ _ v _ => queueOk v
  | .bcrystpa _ _ v _ => queueOk v
  | .bresalt _ _ _ _ => true
  | .band _ _ _ _ => true
  | .bxnor _ _ _ _ => true
  | .bmux _ _ _ _ _ => true
  | .bmin _ _ _ _ => true
  | .bmax _ _ _ _ => true
  | .bnot _ _ _ => true
  | .bmov _ _ _ => true
  | .bbern _ _ v _ _ => queueOk v
  | .bcat _ _ v _ _ => queueOk v
  | .chstart _ _ _ _ => true
  | .chstop _ _ => true
  | .chwait _ _ => true
  | .cwait _ _ _ i => i.toNat < 2 ^ 24
  | .bwait _ _ _ i => i.toNat < 2 ^ 24
  | .cadd _ _ _ i => i.toNat < 2 ^ 24
  | .badd _ _ _ i => i.toNat < 2 ^ 24
  | .arm _ v _ _ _ => queueOk v
  | .disarm _ _ => true
  | .next _ => true
  | .nextt _ => true
  | .spawn _ _ _ i => i.toNat < 2 ^ 24
  | .gsub _ lvl _ _ i => (lvl.toNat < 5) && !gsubTargetBad lvl.toNat i.toNat
  | .gwait _ _ _ => true
  | .resultLanding _ => true
  | .memoryAccessPerform _ => true
  | .atomicExecute _ => true
  | .leaseExpiry _ _ => true
  | .thresholdAction _ _ => true
  | .recordFetch _ _ => true
  | .granuleTransfer _ _ => true
  | .countedRecordAdd _ _ => true
  | .yieldCounterAdd _ => true
  | .deferredEventTaken _ => true
  | .watchdog _ => true
  | .waitWatchdog _ => true
  | .preemptionPly _ => true
  | .preemptTimeout _ => true
  | .contextSave _ => true
  | .resumeStart _ => true
  | .pauseStoreRelease _ => true
  | .go _ _ => true
  | .stop _ => true
  | .save _ => true
  | .restore _ => true
  | .qstatWrite _ _ => true
  | .csbaseWrite _ _ => true
  | .actagWrite _ _ _ => true
  | .registerWrite _ _ _ _ => true
  | .gnop _ => true
  | .gcopy _ => true
  | .gconv _ => true
  | .gfill _ => true
  | .gelt _ => true
  | .gelts _ => true
  | .gmma _ => true
  | .gmmaz _ => true
  | .gscan _ => true
  | .gred _ => true
  | .ggather _ => true
  | .gagather _ => true
  | .grscat _ => true
  | .gared _ => true
  | .ga2a _ => true
  | .gbprod _ => true
  | .gbdraw _ => true
  | .gcwait _ => true
  | .leafDispatch _ => true
  | .leafStart _ => true
  | .leafEnd _ => true
  | .recordCompletion _ => true
  | .collectiveStart _ => true
  | .collectiveCompletion _ => true
  | .start _ => true
  | .resume _ => true
  | .topk _ _ _ => true
  | .scadd _ _ _ => true
  | .q4 _ _ _ => true
  | .dq4add _ _ _ => true
  | .replyArrival _ => true
  | .flitArrival _ => true
  | .nakReceipt _ => true
  | .parityArrival _ => true
  | .missingFlitDetection _ => true
  | .elasticBufferDrift _ _ => true
  | .guardInterval _ => true
  | .exchangeSendTime _ _ => true
  | .exchangeReceiptTime _ => true
  | .phaseCorrection _ => true
  | .tempoNotice _ => true
  | .preemptionNotice _ => true
  | .resumeNotice _ => true
  | .faultNotice _ => true
  | .tempoDRequest _ => true
  | .slowDownNotice _ => true
  | .dHoldEnd => true
  | .thermalStepUp => true
  | .powerCapMessage _ => true
  | .capLeaseExpiry => true
  | .converterSwitch _ => true
  | .tempoChange _ => true
  | .currentWindowEnd _ _ => true
  | .temperatureReading _ _ _ => true
  | .haltPly _ => true
  | .replayPly _ => true
  | .hostGtsRecord _ => true
  | .write _ => true
  | .read _ => true
  | .capset _ => true
  | .launch _ => true
  | .mapset _ => true
  | .badCommand _ => true
  | .hostTransferCompletion _ => true
  | .podJoin _ => true
  | .managementWatchdog _ => true
  | .reset _ => true
  | .powerOn _ => true
  | .selfTest _ => true
  | .firmwareCheck _ _ => true
  | .illegalOpcode cls sub word => decodeSlot cls word.toNat = .illegalOpcode cls sub word
  | .recordAcceptance _ => true
  | .damagedMessage _ => true
  | .attestation _ _ => true
  | .linkKeyInstall _ _ _ => true

end Sys2Proof

end
end

