-- ==== Sys2Proof/Safety.lean ====
section
/-! DEFINITION. What counts as a safe run, and the words that the statements use: bundles of one slot, and what a commit
leaves. -/

namespace Sys2Proof.Safety

open Sys2Proof.Machine

/-- A step that neither faults nor refuses. -/
def Runs (s : State) : Prop := ∃ t, step s = .next t

/-- `k` steps from a state that neither fault nor refuse. -/
def RunsFor : Nat → State → Prop
  | 0, _ => True
  | k + 1, s => ∃ t, step s = .next t ∧ RunsFor k t

/-- The invariant of memory: its list is in canonical form. -/
def MemoryCanonical (s : State) : Prop := Memory.wf s.mem = true

/-! ## A bundle of one slot -/

/-- Nothing that the scoreboard of R30 or R138 watches is in flight for a core. -/
def NothingInFlight (s : State) (n : Nat) : Prop :=
  (s.core n).pend = [] ∧ (∀ x ∈ s.accs, x.core ≠ n) ∧ (∀ a ∈ s.atoms, a.core ≠ n)

/-- The bundle being issued has one slot, it passes every check that does not depend on the slot (R45, R47, R51 to R54, R17),
no deferred event may be taken (R384), and if the bundle is checked (R30) nothing is in flight. -/
structure Alone (s : State) : Prop where
  last : s.cur.left = 1
  first : s.cur.outs = []
  header : s.cur.header ≠ 0
  reserved : field s.cur.w 30 28 = 0
  extension : bit s.cur.w 31 = false
  line : crossesLine s.bundleAddr s.cur.len = false
  allotment : (portFields s.cur.w).all (fun c => c < 5 && portSlotPresent s.cur.header c) = true
  fetched : s.cur.fetchFault = none
  quiet : s.curCore.takeable s.now = []
  unchecked : (s.curCore.chksb = false ∧ bit s.cur.w 23 = false) ∨ NothingInFlight s s.cur.core

/-- A path tag that takes effect in a bundle without a tree (R23). -/
abbrev TagTaken (t : BitVec 3) : Prop := t.toNat ≤ 1

/-- At least `k` read ports are allotted to a slot class (R48). -/
abbrev PortsFor (s : State) (cls k : Nat) : Prop :=
  k ≤ ((portFields s.cur.w).filter (fun c => c = portCode cls && c != 0)).length

/-- The address of the byte after the bundle being issued (row 3 of R18): the sequencer passes over idle bytes there when it fetches
(R13, R122). -/
def after (s : State) : Nat := s.bundleAddr + s.cur.len

/-- That address with idle bytes passed over already, where an instruction keeps it. Log 14. -/
def kept (s : State) : Nat := skipIdle s s.cur.core (after s)

/-- What a result that takes effect with its bundle leaves in the core (R228, R237, R350): the tags of a brine register, a pan, BCTL,
and the control state of the brine unit and of the next-tile ring. -/
def effective (c : Core) : Land → Core
  | .brineTags b len mask => { c with blen := mapSet 4 c.blen b len, bmask := mapSet 0 c.bmask b mask }
  | .panSeed p v => c.setPan p { c.panOf p with seed := v, ph := 0 }
  | .panAux p scr ph => c.setPan p { c.panOf p with scr := scr, ph := ph }
  | .panPhase p ph => c.setPan p { c.panOf p with ph := ph }
  | .blen v => { c with blenc := v }
  | .dpan v => { c with dpan := v }
  | .control i v =>
    let p := c.psel.toNat
    if i = 0x60 then { c with blenc := if 5 ≤ v.toNat % 8 then c.blenc else v.setWidth 3, dpan := (v >>> 8).setWidth 4 }
    else if 0x61 ≤ i ∧ i ≤ 0x64 then writePanMasks c (i - 0x61) v.toNat
    else if i = 0x65 then writeLenTags c v.toNat
    else if i = 0x66 then { c with psel := v.setWidth 4 }
    else if i = 0x67 then c.setPan p { c.panOf p with seed := v }
    else if i = 0x68 then c.setPan p { c.panOf p with scr := (v >>> 16).setWidth 10, ph := v.setWidth 16 }
    else if i = 0x88 then { c with ntcur := v }
    else if i = 0x8C then { c with ntrp := v.setWidth 2 }
    else if i = 0x8F then { c with schcur := v.setWidth 32 }
    else c
  | _ => c

/-- The core with the results of the bundle being issued (R14): those of latency 0 in effect, the others on their way. -/
def landing (s : State) (cls : Nat) (ls : List (Nat × Land)) (c : Core) : Core :=
  ls.foldl (fun c l =>
    if l.1 = 0 then effective c l.2
    else { c with pend := c.pend ++ [{ due := s.now + l.1, seq := s.seq, slot := cls, what := l.2 }] }) c

/-- The state after a bundle of one slot has committed with the core `c`, which goes on at `target` (R14, R18): nothing else
changes. -/
def committed (s : State) (c : Core) (target : Nat) : State :=
  { s.setCore s.cur.core
      { c with pc := BitVec.ofNat 22 target, held := 0, wait := none, nextIssue := s.now + 1 + field s.cur.w 3 0 } with
    seq := s.seq + 1 }

/-- The core with the heads of queues popped (R133), their banks marked (R397). -/
def popped (qs : List Nat) (c : Core) : Core :=
  qs.foldl (fun c q => (c.setQueue q (c.queue q).pop).markBank q) c

/-- The core with a place in a queue reserved for an entry that lands after `lat` plies (R133). -/
def pushing (s : State) (cls q lat : Nat) (v : Entry) (c : Core) : Core :=
  { (c.setQueue q (c.queue q).reserve).markBank q with
    qown := mapSet 0 c.qown (2 * q + (c.queue q).pushSlot) (8 * s.seq + cls + 1),
    pend := c.pend ++ [{ due := s.now + lat, seq := s.seq, slot := cls, what := .queue q (c.queue q).pushSlot v }] }

/-- The core with the phase of a pan moved on by `n` values with the commit (R159, R235). -/
def drawing (s : State) (p n : Nat) (c : Core) : Core :=
  c.setPan p { c.panOf p with ph := (s.curCore.panOf p).ph + BitVec.ofNat 16 n }

/-- A queue has an entry to read, and no more than its two slots hold (R130, R136). -/
abbrev Holds (s : State) (q : Nat) : Prop := 1 ≤ (s.curCore.queue q).count.toNat ∧ (s.curCore.queue q).count.toNat ≤ 2

/-- What the manual gives a slot that only reads and writes registers and queues. -/
structure Does where
  cls : Nat
  tag : BitVec 3
  /-- the queues it reads, each with whether the read pops -/
  reads : List (Nat × Bool) := []
  /-- whether it takes the broadcast of the control word (R32) -/
  bc : Bool := false
  /-- the pan it draws from and the number of values (R159, R235) -/
  draw : Option (Nat × Nat) := none
  /-- the queue it pushes into, the latency and the entry -/
  push : Option (Nat × Nat × Entry) := none
  /-- the registers it writes, each with its latency -/
  lands : List (Nat × Land) := []

/-- The queues that a slot pops, each once (R135). -/
def Does.pops (d : Does) : List Nat := distinct ((d.reads.filter Prod.snd).map Prod.fst)

/-- When such a slot executes: its tag is taken (R23), the broadcast is there (R51), it has its read ports (R48), every queue
it reads holds an entry, and the queue it pushes into has room after its pops (R136). -/
abbrev Does.ready (d : Does) (s : State) : Prop :=
  TagTaken d.tag ∧ (d.bc = true → bit s.cur.w 22 = true) ∧ PortsFor s d.cls (distinct (d.reads.map Prod.fst)).length ∧
    (∀ r ∈ d.reads, Holds s r.1) ∧
    (∀ p ∈ d.push,
      (s.curCore.queue p.1).count.toNat - (if d.pops.contains p.1 then 1 else 0) + 1 ≤ 2)

/-- The core after such a slot: the pops, then the push, then its registers, then the values drawn. -/
def Does.core (d : Does) (s : State) : Core :=
  let c1 := popped d.pops s.curCore
  let c2 := match d.push with
    | some (q, lat, v) => pushing s d.cls q lat v c1
    | none => c1
  let c3 := landing s d.cls d.lands c2
  match d.draw with
  | some (p, n) => drawing s p n c3
  | none => c3

/-- The state after such a slot, alone in its bundle. -/
def Does.done (d : Does) (s : State) : State := committed s (d.core s) (after s)

end Sys2Proof.Safety
end

