-- ==== Sys2Proof/Safety/Cores.lean ====
section
/-! DEFINITION. What the manual gives the events of a core, its engines and its accesses, row by row, for the statements: each
row gives the whole state after the event, so that it also says what the event leaves alone. -/

noncomputable section

namespace Sys2Proof.Safety

open Sys2Proof.Machine

/-- The state with a change of one core, and nothing else changed. -/
def onCore (s : State) (n : Nat) (f : Core → Core) : State := s.setCore n (f (s.core n))

/-- The state with one more access, numbered next; nothing else changed. -/
def withAccess (s : State) (x : Access) : State :=
  { s with accs := s.accs ++ [{ x with ident := 2 * s.nextId + 1, order := s.nextId }], nextId := s.nextId + 1 }

/-! ## Traps and deferred events (R35, R38, R39, R384, R385) -/

/-- TCAUSE of R35. -/
def causeWord (dbl : Bool) (leaf : Nat) (slot : Option Nat) (sub num : Nat) : BitVec 32 :=
  BitVec.ofNat 32 (num % 256 + sub % 256 * 2 ^ 8 +
    (match slot with | some k => k % 8 * 2 ^ 20 + 2 ^ 23 | none => 0) + leaf % 8 * 2 ^ 24 + (if dbl then 2 ^ 31 else 0))

/-- The core after a trap (R38): in a handler it halts with DBL set; without a valid handler it halts; else its handler's first
bundle issues at the next ply, and TVAL and INTRAP are set. -/
def trapped (s : State) (num sub : Nat) (slot : Option Nat) (leaf : Nat) (tval : Word) (addr : Nat) (c : Core) : Core :=
  if c.intrap then
    { c with tcause := causeWord true leaf slot sub num, pc := BitVec.ofNat 22 addr, run := .halted, held := 0, wait := none }
  else if c.tvec.getLsbD 0 then
    { c with tcause := causeWord false leaf slot sub num, tpc := BitVec.ofNat 32 addr, tval := tval, intrap := true,
             pc := BitVec.ofNat 22 (c.tvec.toNat / 64 * 64), nextIssue := s.now + 1, held := 0, wait := none }
  else
    { c with tcause := causeWord false leaf slot sub num, tpc := BitVec.ofNat 32 addr, pc := BitVec.ofNat 22 addr,
             run := .halted, held := 0, wait := none }

/-- The core with an event that a source raises; one that the source already holds makes it lost, and LOST counts to 255. -/
def raising (src ch due num sub : Nat) (tval : Word) (c : Core) : Core :=
  if ∃ e ∈ c.dev, e.src = src ∧ e.ch = ch then { c with lost := BitVec.ofNat 8 (min 255 (c.lost.toNat + 1)) }
  else { c with dev := c.dev ++ [{ src := src, ch := ch, due := due, num := num, sub := sub, tval := tval }] }

/-- The events that a core may take now: of causes other than WATCHDOG and PREEMPT only outside a handler. -/
def mayTake (s : State) (c : Core) : List Deferred :=
  c.dev.filter (fun d => d.due ≤ s.now ∧ (c.intrap = false ∨ d.num = 0x16 ∨ d.num = 0x17))

/-- The core after an event was taken: it no longer stands, and LOST clears when none is pending. -/
def taking (s : State) (d : Deferred) (c : Core) : Core :=
  { c with dev := c.dev.erase d, lost := if ∃ e ∈ c.dev.erase d, e.due ≤ s.now then c.lost else 0 }

/-! ## Commands and watches of a core (R142, R386 to R399) -/

/-- Whether an HCTL action finds a core running, one that has yielded at this ply among them and one that a SPAWN has launched at this ply
not (R114, R347, R387). -/
abbrev foundRunning (s : State) (c : Core) : Prop := (c.run = .running ∧ c.runFrom ≤ s.now) ∨ s.now < c.idleFrom

/-- Whether an HCTL action finds a core idle. -/
abbrev foundIdle (s : State) (c : Core) : Prop := (c.run = .idle ∧ c.idleFrom ≤ s.now) ∨ (c.run = .running ∧ s.now < c.runFrom)

/-- A save asked for. -/
def asked (pre : Bool) (kind : BitVec 2) : Save :=
  { pre := pre, kind := kind, begun := false, todo := [], next := 0, tsaved := 0, bsaved := 0 }

/-- The runs of 64-byte granules, first offset and number, of the brine registers, the queue banks, the tiles and the
accumulators of a set (R396). -/
def brineArea (b : Nat) : List (Nat × Nat) :=
  ((List.range 16).filter (fun i => b.testBit i)).map (fun i => (0x34000 + 8192 * i, 128))
def bankArea (b : Nat) : List (Nat × Nat) :=
  ((List.range 6).filter (fun i => b.testBit (16 + i))).map (fun i => (0x4000 + 32768 * i, 512))
def tileArea (t : Nat) : List (Nat × Nat) :=
  ((List.range 16).filter (fun i => t.testBit i)).map (fun i => (0x54000 + 0x4000 * i, 198))
def accArea (t : Nat) : List (Nat × Nat) :=
  ((List.range 2).filter (fun i => t.testBit (16 + i))).map (fun i => (0x94000 + 0x24000 * i, 2304))

/-- The address of a byte of the save area of a core. -/
def areaByte (s : State) (n off : Nat) : Nat := coreBase n + (s.core n).csbase.toNat + off

/-- The tiles and accumulators that a restore does not read are zeroed. -/
def zeroedBut (t : Nat) (c : Core) : Core :=
  (List.range 2).foldl (fun c i => if t.testBit (16 + i) then c else c.zeroAcc i)
    ((List.range 16).foldl (fun c i => if t.testBit i then c else c.setTile i 0) c)

/-- The order of a restore (R398). -/
def restoreOrder (t b : Nat) : List (Nat × Nat) :=
  brineArea b ++ bankArea b ++ tileArea t ++ accArea t ++ [(0x200, 4), (0x80, 6), (0x2000, 128), (0x300, 4), (0, 2)]

/-- The tiles and accumulators that a save writes, and the brine registers and banks: what is in use or dirty and all of
them, or in the incremental mode after its first save what is dirty (R396, R397). -/
def savedTiles (c : Core) : BitVec 18 := if c.csmode ∧ c.ckv then c.tdirty else c.tinuse ||| c.tdirty
def savedBanks (c : Core) : BitVec 22 := if c.csmode ∧ c.ckv then c.csdirty else BitVec.allOnes 22

/-- The granules of an area after the first one. -/
def afterFirst (off k : Nat) (rest : List (Nat × Nat)) : List (Nat × Nat) := if k ≤ 1 then rest else (off + 64, k - 1) :: rest

/-- A write of a granule of the save area, at its ply (R396). -/
def savingWrite (s : State) (n off : Nat) (v : Nat) : Access :=
  { ident := 0, op := 0, core := n, rank := 16 * n + 5, order := 0, due := s.now, landAt := s.now, delayed := false, write := true,
    spans := [{ addr := areaByte s n off, len := 64, off := 0 }], data := BitVec.ofNat 2048 v, capTag := none, dest := .nowhere }

/-- The header of a save with nothing pending (R396): FLAGS, RPC, P, O, TSAVED, BSAVED. -/
def headerWord (c : Core) (v : Save) : Nat :=
  1 + (if c.csmode then 2 else 0) + (if v.pre then 4 else 0) + v.kind.toNat * 2 ^ 3 +
    (if v.kind = 1 then c.drpc.toNat else c.pc.toNat) * 2 ^ 32 + (if v.pre then c.prply.toNat else 2 ^ 64 - 1) * 2 ^ 64 +
    (if v.kind = 1 then c.droff.toNat else 0) * 2 ^ 128 + (savedTiles c).toNat * 2 ^ 192 + (savedBanks c).toNat * 2 ^ 224

/-- The cores of the job of a chip: those that its placement map has present. -/
def jobOf (s : State) (chip : Nat) : List Nat :=
  ((List.range 1536).filter (fun k => (s.pmap chip).state ((s.pmap chip).logicalChip chip) k = 0)).map
    (fun k => 1536 * chip + (s.pmap chip).physCore ((s.pmap chip).logicalChip chip) k)

/-- An undecided bundle as it stood at its last slot. -/
def asIssued (s : State) : State := { s with cur := { s.cur with left := 1, outs := [] } }

/-- The causes of an undecided bundle, from all its slots (R10). -/
def causesOf (s : State) : List Raised := bundleCauses (asIssued s) (asIssued s).cur s.bundleAddr s.cur.outs

/-- The cause that is reported of several (R10): the first of those with the lowest number. -/
def lowestOf (l : List Raised) : Option Raised := l.find? (fun r => l.all (fun x => r.key ≤ x.key))

/-- A core that traps on its undecided bundle. -/
def trapsAt (s : State) (r : Raised) : State :=
  onCore (asIssued s) s.cur.core (trapped s r.what.num r.what.sub r.slot (leafOf s.cur.outs) r.what.tval s.bundleAddr)

/-- Events and commands of the sequencer of a core. -/
def rowCore (s : State) : Instr → Option State
  | .deferredEventTaken n =>
    let c := s.core n
    match (mayTake s c).find? (fun d => (mayTake s c).all (fun e => d.num < e.num || (d.num = e.num && d.ch ≤ e.ch))) with
    | some d =>
      if s.cur.left = 0 ∧ s.cur.core = n ∧ ∀ e ∈ c.dev, e.ch < 4 ∧ (e.src = d.src → e.ch = d.ch → e = d) then
        let event := onCore (asIssued s) n (fun c => trapped s d.num d.sub none (leafOf s.cur.outs) d.tval s.bundleAddr (taking s d c))
        match lowestOf (causesOf s) with
        | some r => if r.what.num < d.num then some (trapsAt s r) else some event
        | none => some event
      else none
    | none => none
  | .watchdog n =>
    let c := s.core n
    if c.run = .running ∧ c.wdlim ≠ 0 ∧ c.wdcnt = c.wdlim then
      some (onCore s n (fun c => raising 3 0 s.now 0x16 0 (c.wdcnt.setWidth 64) { c with wdcnt := 0 }))
    else none
  | .waitWatchdog n =>
    let c := s.core n
    if s.cur.left = 0 ∧ s.cur.core = n ∧ c.waitlim ≠ 0 ∧ c.waitlim.toNat ≤ c.held + 1 ∧ mayTake s c = [] then
      (lowestOf (causesOf s ++ [⟨none, ⟨0x16, 1, c.waitlim.setWidth 64⟩⟩])).map (trapsAt s)
    else none
  | .preemptTimeout n =>
    let c := s.core n
    if c.prply ≠ BitVec.allOnes 64 ∧ c.prply.toNat + c.prwait.toNat ≤ s.now ∧ c.diverted = false ∧ c.preDone = false ∧
        c.preLate = false then
      some (onCore s n (fun c => raising 4 0 s.now 0x17 0 c.prply { c with preLate := true }))
    else none
  | .go n vec =>
    let c := s.core n
    if c.run ≠ .halted ∨ (vec = false ∧ 2 ^ 22 ≤ c.tpc.toNat) then some { s with mem := s.mem }
    else
      some (onCore s n (fun c => { c with
        run := .running, intrap := vec, pc := BitVec.ofNat 22 (if vec then c.tvec.toNat / 64 * 64 else c.tpc.toNat),
        nextIssue := s.now + 1, held := 0, wait := none }))
  | .stop n => if foundRunning s (s.core n) then some (onCore s n (fun c => { c with stopping := true })) else some s
  | .save n =>
    let c := s.core n
    if ¬(foundIdle s c ∨ c.run = .halted) ∨ c.saving ≠ none ∨ c.restoring ≠ none then some s
    else some (onCore s n (fun c => { c with saving := some (asked false (if c.run = .halted then 2 else 0)) }))
  | .restore n =>
    let c := s.core n
    match c.restoring with
    | some v =>
      (match v.todo with
       | (off, k) :: rest =>
         if v.next ≤ s.now then
           some (withAccess (onCore s n (fun c => { c with
                restoring := some { v with todo := afterFirst off k rest, next := s.now + 1 } }))
             { ident := 0, op := 0, core := n, rank := 16 * n + 5, order := 0, due := s.now, landAt := s.now, delayed := false,
               write := false, spans := [{ addr := coreBase n + v.base.toNat + off, len := 64, off := 0 }], data := 0,
               capTag := none, dest := .restore off })
         else none
       | [] => none)
    | none =>
      if ¬foundIdle s c ∨ c.saving ≠ none then some s
      else
        let m := s.code n
        let mode := (readNat m (areaByte s n 0) 4).testBit 1
        let t := if mode then readNat m (areaByte s n 0x2288) 4 ||| readNat m (areaByte s n 0x2290) 4
          else readNat m (areaByte s n 0x18) 4
        let b := if mode then 2 ^ 22 - 1 else readNat m (areaByte s n 0x1C) 4
        some (onCore s n (fun c => { zeroedBut t c with
          resume := none
          restoring := some { todo := restoreOrder t b, next := s.now, base := c.csbase, header := 0, tvals := 0, offs := [] } }))
  | .qstatWrite n v =>
    let c := s.core n
    if 384 ≤ c.qsel.toNat ∨ queuePend s n c.qsel.toNat ≠ 0 then some s
    else
      some (onCore s n (fun c => c.setQueue c.qsel.toNat { c.queue c.qsel.toNat with
        head := BitVec.ofNat 1 (v.toNat / 4), count := BitVec.ofNat 2 (min 2 (v.toNat % 4)) }))
  | .csbaseWrite n v =>
    let b := v.toNat % 2 ^ 22
    if b % 0x2000 ≠ 0 ∨ 0x400000 < b + 0xDC000 then some s
    else some (onCore s n (fun c => { c with csbase := BitVec.ofNat 22 b, ckv := c.ckv && b == c.csbase.toNat }))
  | .contextSave n =>
    let c := s.core n
    match c.saving with
    | some v =>
      if v.next ≤ s.now ∧ v.begun then
        (match v.todo with
         | (off, k) :: rest =>
           let saved := onCore s n (fun c => { c with saving := some { v with todo := afterFirst off k rest, next := s.now + 1 } })
           if 0x4000 ≤ off ∧ off < 0x34000 then
             some (withAccess saved (savingWrite s n off
               (((c.queue ((off - 0x4000) / 512)).slot ((off - 0x4000) / 256 % 2)).toNat / 2 ^ (8 * (off % 256)) % 2 ^ 512)))
           else if 0x34000 ≤ off ∧ off < 0x54000 then
             some (withAccess saved (savingWrite s n off
               ((c.breg ((off - 0x34000) / 8192)).toNat / 2 ^ (8 * (off % 8192)) % 2 ^ 512)))
           else if 0x54000 ≤ off ∧ off < 0x94000 then
             some (withAccess saved (savingWrite s n off
               ((c.tileOf ((off - 0x54000) / 0x4000)).toNat / 2 ^ (8 * ((off - 0x54000) % 0x4000)) % 2 ^ 512)))
           else none
         | [] => none)
      else if v.next ≤ s.now ∧ v.begun = false ∧ drained s n ∧ c.dev = [] ∧ c.lost = 0 then
        some (withAccess
          (onCore s n (fun c => { c with
            saving := some { v with begun := true, next := s.now + 1, tsaved := savedTiles c, bsaved := savedBanks c,
                                    todo := [(64, 15), (0x2000, 128)] ++ bankArea (savedBanks c).toNat ++ brineArea (savedBanks c).toNat ++
                                      tileArea (savedTiles c).toNat ++ accArea (savedTiles c).toNat } }))
          (savingWrite s n 0 (headerWord c v)))
      else none
    | none => none
  | .resumeStart n =>
    let c := s.core n
    match c.resume with
    | some r =>
      if c.restoring = none ∧ c.rsply ≠ BitVec.allOnes 64 ∧ r.started = false ∧ r.chans = [] ∧ r.pend.toNat % 256 = 0 ∧ r.doneAt < (c.rsply + r.o).toNat ∧
          (c.rsply + r.o).toNat ≤ s.now then
        some (onCore s n (fun c => { c with
          resume := none, rsply := BitVec.allOnes 64, run := .running, pc := BitVec.ofNat 22 r.rpc.toNat, nextIssue := s.now, held := 0,
          wait := none, wdcnt := if c.wdlim = 0 then c.wdcnt else c.wdcnt + 1 }))
      else none
    | none => none
  | .actagWrite chip k v =>
    let c := s.chip chip
    if 63 ≤ k then some s
    else some (s.setChip chip { c with actag := mapSet 0 c.actag k (v.setWidth 17), acnj := mapDel c.acnj k })
  | _ => none

/-- The control state registers that a write sets, with the bits that it sets; the others read as zero (R33, R106). -/
def plainRegisters : List (Nat × Word) :=
  [(0x02, 1), (0x03, 7), (0x04, 0xFFFFFFFF), (0x05, 0xFFFFFFFF), (0x10, 0x87F0FFFF), (0x11, 0xFFFFFFFF), (0x12, BitVec.allOnes 64),
   (0x13, 0xFFFFFFC1), (0x14, 1), (0x40, 0x1FF), (0x4E, 0xF), (0x52, 0x3FFFF), (0x66, 0xF), (0x67, BitVec.allOnes 64),
   (0x68, 0x3FFFFFF), (0x73, BitVec.allOnes 64), (0x88, BitVec.allOnes 64), (0x89, BitVec.allOnes 64),
   (0x8A, BitVec.allOnes 64), (0x8B, 0xFFFFF), (0x8C, 3), (0x8D, 0x3FFFFF), (0x8E, 0xFFFFFFFF), (0x8F, 0xFFFFFFFF),
   (0x91, BitVec.allOnes 64), (0xA2, 0xFFFFFFFF), (0xA5, 0xFFFFFFFF), (0xA6, 0xFFFFFFFF), (0xA7, 0xFFFFFFFF), (0xAB, 0x3FFFFF),
   (0xAD, 0x3FFFFF), (0xAE, 0xFFFF)] ++
    (List.range 6).flatMap (fun i => [(0x20 + i, 0xFFFFFFFF), (0x28 + i, 0xFFFFFFFF)]) ++
    (List.range 16).map (fun i => (0x30 + i, BitVec.allOnes 64))

/-- The indices that ignore a write: the read-only registers and those that no chapter assigns (R33). -/
def readOnly (i : Nat) : Prop :=
  i ∈ [0x00, 0x01, 0x26, 0x27, 0x2E, 0x2F, 0x50, 0x51, 0x90, 0xA0, 0xA1, 0xA3, 0xA4, 0xAC] ∨
    (0x07 ≤ i ∧ i ≤ 0x0F) ∨ (0x15 ≤ i ∧ i ≤ 0x1F) ∨ (0x42 ≤ i ∧ i ≤ 0x4D) ∨ (0x53 ≤ i ∧ i ≤ 0x5F) ∨ (0x69 ≤ i ∧ i ≤ 0x72) ∨
    (0x74 ≤ i ∧ i ≤ 0x87) ∨ (0x92 ≤ i ∧ i ≤ 0x9F) ∨ (0xAF ≤ i ∧ i ≤ 0xFF)

/-! ## Accesses, atomics and leases (R4, R258, R268 to R270, R281, R290, R341) -/

/-- `len` bytes of a number as writes of bytes from an address, the lowest byte first (R4). -/
def bytesAt (a len v : Nat) : List (Nat × Byte) := (List.range len).map (fun i => (a + i, BitVec.ofNat 8 (v / 2 ^ (8 * i))))

/-- The number that `len` bytes of memory from an address make (R4). -/
def numberAt (s : State) (a len : Nat) : Nat := ((List.range len).map (fun i => (readByte s.mem (a + i)).toNat * 2 ^ (8 * i))).sum

/-- The new word of an atomic (R281). -/
def atomicWord (k : AtomOp) (old x y : Word) : Word :=
  match k with
  | .swap => x
  | .cas => if old = x then y else old
  | .add => old + x
  | .min => if x.toInt < old.toInt then x else old
  | .max => if old.toInt < x.toInt then x else old
  | .and => old &&& x
  | .or => old ||| x
  | .xor => old ^^^ x
  | .barrier => old

/-- A barrier object after an add (R341): COUNT in bits 63 to 0, TARGET in 95 to 64, PHASE in 127 to 96. -/
def afterBarrier (obj x : Nat) : Nat :=
  let count := obj % 2 ^ 64 + x
  let target := obj / 2 ^ 64 % 2 ^ 32
  let phase := obj / 2 ^ 96
  if target ≠ 0 ∧ target ≤ count then (count - target) % 2 ^ 64 + target * 2 ^ 64 + (phase + 1) % 2 ^ 32 * 2 ^ 96
  else count % 2 ^ 64 + target * 2 ^ 64 + phase * 2 ^ 96

/-- The 64 bytes of a line as an atomic finds them: of its lease, else of home (R268). -/
def lineBytes (s : State) (line : Nat) : Nat :=
  match s.leases.find? (fun l => l.line = line) with
  | some l => l.data.toNat
  | none => numberAt s (64 * line) 64

/-- The state without the lease of a line, its bytes gone home (R269). -/
def broughtHome (s : State) (line : Nat) : State :=
  { s with
    leases := s.leases.filter (fun l => l.line ≠ line)
    mem := writeBytes s.mem ((s.leases.filter (fun l => l.line = line)).flatMap (fun l => bytesAt (64 * line) 64 l.data.toNat)) }

/-- An atomic has left `data` in a line: its lease starts now; a die that holds 256 others gives up the one that started first, the
lowest line of several (R269, R270). -/
def leasing (s : State) (die line data : Nat) : State :=
  let new : Lease := { die := die, line := line, start := s.now, data := BitVec.ofNat 512 data }
  if ∃ l ∈ s.leases, l.line = line then { s with leases := s.leases.map (fun l => if l.line = line then new else l) }
  else
    let mine := s.leases.filter (fun l => l.die = die)
    let t := if 256 ≤ mine.length then
        (match mine.find? (fun l => mine.all (fun m => l.start < m.start || (l.start = m.start && l.line ≤ m.line))) with
         | some l => broughtHome s l.line
         | none => s)
      else s
    { t with leases := t.leases ++ [new] }

/-- The armed slots of a core that a word crosses: armed before this ply, at its offset, with a threshold above the old value and at or
below the new one; they fire in the order of their thresholds, then of their arming (R344, R345). -/
def crossing (s : State) (c : Core) (words : List (Nat × Nat × Nat)) : List Arm :=
  sortBy (fun a b => a.thr.toNat < b.thr.toNat || (a.thr.toNat = b.thr.toNat && a.since ≤ b.since))
    (c.arms.filter (fun a => a.since < s.now ∧ (∀ e ∈ a.ends, s.now ≤ e) ∧
      ∃ w ∈ words, a.off = w.1 ∧ w.2.1 < a.thr.toNat ∧ a.thr.toNat ≤ w.2.2))

/-- Those slots fire and are disarmed; their actions follow at the next plies, one a ply. -/
def firing (s : State) (n : Nat) (words : List (Nat × Nat × Nat)) : State :=
  let hit := crossing s (s.core n) words
  if hit = [] then s
  else onCore s n (fun c => { c with
    arms := c.arms.filter (fun a => a ∉ hit), fired := c.fired ++ hit.mapIdx (fun i a => { arm := a, ply := s.now + 1 + i }) })

/-- The bytes of a line after an atomic on the word, or the barrier object, at bit `low` (R281, R341). -/
def lineAfter (k : AtomOp) (low data : Nat) (x y : Word) : Nat :=
  let old := data / 2 ^ low % 2 ^ 64
  let obj := data / 2 ^ low % 2 ^ 128
  if k = .barrier then data - obj * 2 ^ low + afterBarrier obj x.toNat * 2 ^ low
  else data - old * 2 ^ low + (atomicWord k (BitVec.ofNat 64 old) x y).toNat * 2 ^ low

/-- An atomic in the cache of its home die (R268, R281, R341, R345): a compare that fails writes nothing; any other writes its word, or
its two words of a barrier object, clears the tag of its 16 bytes and crosses thresholds. -/
def afterAtomic (s : State) (a : Nat) (k : AtomOp) (x y : Word) : State :=
  let low := 8 * (a % 64)
  let data := lineBytes s (a / 64)
  let new := lineAfter k low data x y
  let word (v i : Nat) : Nat := v / 2 ^ (low + 64 * i) % 2 ^ 64
  if k = .cas ∧ BitVec.ofNat 64 (word data 0) ≠ x then leasing s (dieKey a) (a / 64) data
  else
    let t := leasing s (dieKey a) (a / 64) new
    firing { t with tags := if addrWin a = 0 then mapSet false t.tags (a / 16) false else t.tags } (addrCore a)
      ((addrOff a, word data 0, word new 0) :: if k = .barrier then [(addrOff a + 8, word data 1, word new 1)] else [])

/-! ## Copy channels, thresholds, the yield counter (R327 to R349) -/

/-- The plies that the manual leaves open for an event of a counted record (R336). -/
def openPlies (counted : Bool) (place : Nat) : Nat := if counted then Config.countedDelay place else 0

/-- The record at an offset of the own scratchpad (R327). -/
def recordAt (raw off : Nat) : CopyRun :=
  { off := off, op := 0, ctl := BitVec.ofNat 8 raw, nextOff := raw / 2 ^ 32 % 2 ^ 32, src := raw / 2 ^ 64 % 2 ^ 64,
    dst := raw / 2 ^ 128 % 2 ^ 64, rows := raw / 2 ^ 192 % 2 ^ 16, rbytes := raw / 2 ^ 224 % 2 ^ 32,
    sstride := (BitVec.ofNat 32 (raw / 2 ^ 256)).toInt, dstride := (BitVec.ofNat 32 (raw / 2 ^ 288)).toInt,
    ctr := BitVec.ofNat 64 (raw / 2 ^ 320), add := BitVec.ofNat 64 (raw / 2 ^ 384), mcast := raw / 2 ^ 448 % 2 ^ 64,
    n := raw / 2 ^ 192 % 2 ^ 16 * (raw / 2 ^ 224 % 2 ^ 32 / 64), issueAt := 0 }

/-- A record is counted when bit 1 of its first byte is set; a barrier add when bit 2 is (R327). -/
def isCounted (r : CopyRun) : Bool := r.ctl.getLsbD 1

/-- The furthest distance class of the rows of a record. -/
def furthest (s : State) (n : Nat) (r : CopyRun) : Nat :=
  ((r.srcRows ++ r.dstRows).map (fun a => distance n (ownHome s n a))).foldl max 0

/-- A channel of a core changed, and the operations of the core. -/
def onChannel (s : State) (n ch : Nat) (f : Chan → Chan) (g : List Op → List Op) : State :=
  onCore s n (fun c => { c.setChan ch (f (c.chan ch)) with ops := g c.ops })

/-- The granules of a record that a channel reads: row g / (RBYTES / 64), 64 bytes each (R328). -/
def granuleFrom (r : CopyRun) (base : Nat) (stride : Int) (g : Nat) : Int :=
  base + (g / (r.rbytes / 64) : Nat) * stride + (64 * (g % (r.rbytes / 64)) : Nat)

/-- The read of granule g, with the plies at which its writes perform (R334). -/
def granuleRead (s : State) (n ch : Nat) (r : CopyRun) (g : Nat) : Access :=
  let src := ownHome s n (granuleFrom r r.src r.sstride g)
  let late := openPlies (isCounted r) s.freeCtr
  { ident := 2 * s.nextId + 1, op := r.op, core := n, rank := 16 * n + 1 + ch, order := s.nextId,
    due := s.now + performLag (distance n src) + late, landAt := s.now + performLag (distance n src) + late, delayed := false,
    write := false, spans := [{ addr := src, len := 64, off := 0 }], data := 0, capTag := none,
    dest := .copy ch (64 * g / r.rbytes) ((multicast r.mcast (granuleFrom r r.dst r.dstride g)).mapIdx (fun i d =>
      (ownHome s n d,
        if isCounted r then s.now + performLag (distance n src) + late + 1 + Config.countedDelay (s.freeCtr + 2 + i)
        else s.now + landLag (distance n src) + performLag (distance n (ownHome s n d))))) }

/-- Where a read goes on to, and when. -/
def copyPlies (x : Access) : List Nat := match x.dest with | .copy _ _ ts => ts.map Prod.snd | _ => []

/-- The channel after a granule of a record: the next one a ply later, or the record left to its writes (R334, R336). -/
def afterGranule (s : State) (r : CopyRun) (k : Chan) : Chan :=
  let g := k.next.toNat + 1
  if g < r.n then
    { k with next := BitVec.ofNat 32 g, cur := some { r with issueAt := s.now + 1 + openPlies (isCounted r) (s.freeCtr + 1) } }
  else
    { k with
      next := BitVec.ofNat 32 g, cur := none, fetchOff := r.nextOff,
      fetchAt := if r.nextOff = 0 ∨ isCounted r = true then none else some (s.now + 1),
      tails := k.tails ++ [{ off := r.off, op := r.op, ctl := r.ctl, ctr := r.ctr, add := r.add, addAt := none,
                             last := decide (r.nextOff = 0) }] }

/-- The add of 1 to the word that a yield named, where it is an aligned word of window 0 or 7 of this chip (R349). -/
def addsOne (s : State) (n : Nat) (ctr : Word) : State :=
  let w := ctr.toNat / 2 ^ 32 % 32
  let home := ownHome s n ctr.toNat
  let ply := s.now + performLag (distance n home) - 4
  if ctr.toNat % 8 ≠ 0 ∨ ¬(w = 0 ∨ w = 7) ∨ rowResolves s n 8 false ctr.toNat = false then s
  else
    { onCore s n (fun c => { c with ops := c.ops ++
        [{ ident := 2 * s.nextId + 1, seq := s.seq, kinds := 3, dist := distance n home, isOpen := false, due := ply, acq := none }] }) with
      atoms := s.atoms ++ [{ ident := 2 * s.nextId + 1, op := 2 * s.nextId + 1, core := n, rank := 16 * n, order := s.seq * 8,
                             due := ply, landAt := ply, addr := home, kind := .add, x := 1, y := 0, dest := none }],
      nextId := s.nextId + 1 }

/-- Fetches, granules and adds of channels; actions of thresholds; the add of a yield. -/
def rowChannel (s : State) : Instr → Option State
  | .recordFetch n ch =>
    let k := (s.core n).chan ch
    let raw := numberAt s (coreBase n + k.fetchOff) 64
    let r := recordAt raw k.fetchOff
    let g0 := k.head.getD 0
    if plyDue k.fetchAt s.now ∧ k.state = 1 then
      if k.fetchOff % 64 ≠ 0 ∨ 0x3FFFC0 < k.fetchOff then
        some (onChannel s n ch (fun k => { k with fetchAt := none, fault := some 0x00, recOff := BitVec.ofNat 22 k.fetchOff })
          (fun l => l.filter (fun o => o.ident ≠ k.chain)))
      else if (∃ l ∈ s.leases, l.line = (coreBase n + k.fetchOff) / 64) ∨
          ∃ a ∈ dueAtomics s, a.addr / 64 = (coreBase n + k.fetchOff) / 64 then
        (if k.fetchDelayed then none
         else some (onChannel s n ch (fun k => { k with fetchAt := some (s.now + 8), fetchDelayed := true }) id))
      else if raw % 2 = 0 then
        some (onChannel s n ch (fun k => { k with
            fetchAt := none, fault := some 0x01, recOff := BitVec.ofNat 22 k.fetchOff, mode := isCounted r })
          (fun l => l.filter (fun o => o.ident ≠ k.chain)))
      else match recordFault s n k.cap raw r (if k.head = none then some k.mode else none) g0 with
      | some sub =>
        some (onChannel s n ch (fun k => { k with
            fetchAt := none, fault := some sub, recOff := BitVec.ofNat 22 k.fetchOff, mode := isCounted r })
          (fun l => l.filter (fun o => o.ident ≠ k.chain)))
      | none =>
        some { onChannel s n ch
            (fun k => { k with
              fetchAt := none, fetchDelayed := false, head := none, mode := isCounted r, recOff := BitVec.ofNat 22 k.fetchOff,
              next := BitVec.ofNat 32 g0,
              cur := some { r with op := 2 * s.nextId + 1, issueAt := s.now + 2 + openPlies (isCounted r) s.freeCtr } })
            (fun l => (if r.nextOff = 0 then l.filter (fun o => o.ident ≠ k.chain) else l) ++
              [{ ident := 2 * s.nextId + 1, seq := k.seq, kinds := 12, dist := furthest s n r, isOpen := true, due := 0, acq := none }])
          with nextId := s.nextId + 1, freeCtr := s.freeCtr + 1 }
    else none
  | .granuleTransfer n ch =>
    let k := (s.core n).chan ch
    match k.cur with
    | some r =>
      if r.issueAt ≤ s.now ∧ (∀ p ∈ k.stopAt, s.now ≤ p) then
        let x := granuleRead s n ch r k.next.toNat
        some { onChannel s n ch (afterGranule s r)
            (fun l => if isCounted r then l
              else l.map (fun o => if o.ident = r.op then
                { o with due := max o.due ((copyPlies x).foldl max x.due), isOpen := k.next.toNat + 1 < r.n } else o))
          with accs := s.accs ++ [x], nextId := s.nextId + 1, freeCtr := s.freeCtr + 2 + (copyPlies x).length }
      else none
    | none => none
  | .countedRecordAdd n ch =>
    let k := (s.core n).chan ch
    match k.tails.find? (fun t => plyDue t.addAt s.now) with
    | some t =>
      let h := ownHome s n t.ctr.toNat
      if h % (if t.ctl.getLsbD 2 then 16 else 8) = 0 then
        some { onChannel (afterAtomic s h (if t.ctl.getLsbD 2 then .barrier else .add) t.add 0) n ch
            (fun k => { k with
              tails := k.tails.eraseP (fun u => u.op = t.op),
              fetchAt := if t.last = true ∨ k.stopAt ≠ none then k.fetchAt else some (s.now + 1 + openPlies true s.freeCtr) })
            (fun l => l.map (fun o => if o.ident = t.op then { o with isOpen := false, due := s.now } else o))
          with
          accs := s.accs ++ [{ ident := 2 * s.nextId + 1, op := 0, core := n, rank := 16 * n + 1 + ch, order := s.nextId,
                               due := s.now, landAt := s.now, delayed := false, write := true,
                               spans := [{ addr := coreBase n + t.off, len := 1, off := 0 }],
                               data := BitVec.ofNat 2048 (t.ctl.toNat - t.ctl.toNat % 2), capTag := none, dest := .nowhere }],
          nextId := s.nextId + 1, freeCtr := s.freeCtr + 1 }
      else none
    | none => none
  | .thresholdAction n k =>
    match (s.core n).fired.find? (fun f => f.arm.slot = k ∧ f.ply ≤ s.now) with
    | some f =>
      let home := ownHome s n f.arm.target.toNat
      let lag := performLag (distance n home)
      let gone := onCore s n (fun c => { c with fired := c.fired.erase f })
      if f.arm.kind = 0 then
        if (s.core (addrCore home)).isFree s.now then
          some (onCore gone (addrCore home) (fun c => { c with
            run := .running, runFrom := s.now + 1, pc := BitVec.ofNat 22 f.arm.target.toNat, depth := 0, leaf := 0, nextIssue := s.now + lag + 2, held := 0,
            wait := none }))
        else some (onCore s n (fun c => { c with fired := c.fired.erase f ++ [{ f with ply := s.now + 1 }] }))
      else if f.arm.kind = 1 then
        some { gone with
          accs := s.accs ++ [{ ident := 2 * s.nextId + 1, op := 2 * s.nextId + 1, core := n, rank := 16 * n, order := s.seq * 8,
                               due := s.now + lag, landAt := s.now + lag, delayed := false, write := true,
                               spans := [{ addr := home, len := 8, off := 0 }], data := f.arm.value.setWidth 2048, capTag := none,
                               dest := .nowhere }],
          nextId := s.nextId + 1 }
      else
        some { gone with
          posted := s.posted ++ [{ chip := n / 1536, src := 0x1000 + n % 1536, code := f.arm.code.toNat,
                                   data := BitVec.ofNat 320 (ownAddress s n f.arm.off) }] }
    | none => none
  | .yieldCounterAdd n =>
    let c := s.core n
    if c.yieldAdds ≠ [] ∧ c.idleFrom ≤ s.now ∧ ∀ o ∈ c.ops, o.waits s.now = false then
      some (c.yieldAdds.foldl (fun s ctr => addsOne s n ctr) (onCore s n (fun c => { c with yieldAdds := [] })))
    else none
  | .pauseStoreRelease p =>
    match (s.port p).engine.resumeAt with
    | some q =>
      if q + 512 ≤ s.now then some (s.setPort p { s.port p with engine := { (s.port p).engine with resumeAt := none, kept := [] } })
      else none
    | none => none
  | _ => none

end Sys2Proof.Safety

end
end

