-- ==== Sys2Proof/Safety/Rows.lean ====
section
/-! DEFINITION. What the manual's tables give the slots that only read and write registers and queues, row by row, for the
statements: each value is written out as its rule writes it. -/

noncomputable section

namespace Sys2Proof.Safety

open Sys2Proof.Machine

/-- The n bits b(0), b(1), … of a vector, bit 0 first. -/
def bitsWhere (n : Nat) (b : Nat → Bool) : BitVec n := BitVec.ofNat n (joinPieces 1 ((List.range n).map (fun i => (b i).toNat)))

/-! ## Words -/

/-- A scalar operand read as signed(64), and as unsigned(64). -/
def sw (s : State) (r : BitVec 6) : Int := (s.rs r).toInt
def uw (s : State) (r : BitVec 6) : Nat := (s.rs r).toNat

/-- Bits 31 to 0 of a scalar operand read as signed(32), and as unsigned(32). -/
def sw32 (s : State) (r : BitVec 6) : Int := ((s.rs r).setWidth 32).toInt
def uw32 (s : State) (r : BitVec 6) : Nat := ((s.rs r).setWidth 32).toNat

/-- The clamping of R8: to signed(n), and to unsigned(n). -/
def clampS (n : Nat) (v : Int) : Int := max (-(2 ^ (n - 1))) (min v (2 ^ (n - 1) - 1))
def clampU (n : Nat) (v : Int) : Int := max 0 (min v (2 ^ n - 1))

/-- The leading zeros, the trailing zeros and the ones of the low n bits of a number (R100). -/
def clzOf (n x : Nat) : Nat := (List.range n).countP (fun i => x < 2 ^ i)
def ctzOf (n x : Nat) : Nat := (List.range n).countP (fun i => x % 2 ^ (i + 1) = 0)
def onesOf (n x : Nat) : Nat := (List.range n).countP (fun i => x.testBit i)

/-- A slot that writes a scalar register; a write of s0 is discarded (R26). -/
def writes (cls : Nat) (t : BitVec 3) (d : BitVec 6) (lat : Nat) (v : Word) : Does :=
  { cls := cls, tag := t, lands := if d = 0 then [] else [(lat, .scalar d.toNat v)] }

/-- A C slot that writes the low 64 bits of a value, and one that writes the low 32 bits of a value sign-extended (R100). -/
def word (t : BitVec 3) (d : BitVec 6) (lat : Nat) (v : Int) : Does := writes 0 t d lat (BitVec.ofInt 64 v)
def half (t : BitVec 3) (d : BitVec 6) (lat : Nat) (v : Int) : Does :=
  writes 0 t d lat ((BitVec.ofInt 32 v).signExtend 64)

/-- A truth value in a scalar (R102). -/
def truth (t : BitVec 3) (d : BitVec 6) (b : Bool) : Does := writes 0 t d 1 (if b then 1 else 0)

/-- The register forms of 64 bits (R100). -/
def row64 (s : State) : Instr → Option Does
  | .addI64 t d a b => some (word t d 1 (sw s a + sw s b))
  | .subI64 t d a b => some (word t d 1 (sw s a - sw s b))
  | .andI64 t d a b => some (writes 0 t d 1 (s.rs a &&& s.rs b))
  | .orI64 t d a b => some (writes 0 t d 1 (s.rs a ||| s.rs b))
  | .xorI64 t d a b => some (writes 0 t d 1 (s.rs a ^^^ s.rs b))
  | .andnI64 t d a b => some (writes 0 t d 1 (s.rs a &&& ~~~(s.rs b)))
  | .sllI64 t d a b => some (word t d 1 (sw s a * 2 ^ (uw s b % 64)))
  | .srlI64 t d a b => some (word t d 1 (uw s a / 2 ^ (uw s b % 64)))
  | .sraI64 t d a b => some (word t d 1 (sw s a / 2 ^ (uw s b % 64)))
  | .mulI64 t d a b => some (word t d 3 (sw s a * sw s b))
  | .mulhI64 t d a b => some (word t d 3 (sw s a * sw s b / 2 ^ 64))
  | .mulhuI64 t d a b => some (word t d 3 (uw s a * uw s b / 2 ^ 64))
  | .addsI64 t d a b => some (word t d 1 (clampS 64 (sw s a + sw s b)))
  | .subsI64 t d a b => some (word t d 1 (clampS 64 (sw s a - sw s b)))
  | .addsuI64 t d a b => some (word t d 1 (clampU 64 (uw s a + uw s b)))
  | .subsuI64 t d a b => some (word t d 1 (clampU 64 ((uw s a : Int) - uw s b)))
  | .minI64 t d a b => some (word t d 1 (min (sw s a) (sw s b)))
  | .maxI64 t d a b => some (word t d 1 (max (sw s a) (sw s b)))
  | .minuI64 t d a b => some (word t d 1 (min (uw s a) (uw s b)))
  | .maxuI64 t d a b => some (word t d 1 (max (uw s a) (uw s b)))
  | .clzI64 t d a => some (word t d 1 (clzOf 64 (uw s a)))
  | .ctzI64 t d a => some (word t d 1 (ctzOf 64 (uw s a)))
  | .popcI64 t d a => some (word t d 1 (onesOf 64 (uw s a)))
  | _ => none

/-- The register forms of 32 bits (R100). -/
def row32 (s : State) : Instr → Option Does
  | .addI32 t d a b => some (half t d 1 (sw32 s a + sw32 s b))
  | .subI32 t d a b => some (half t d 1 (sw32 s a - sw32 s b))
  | .andI32 t d a b => some (writes 0 t d 1 (((s.rs a &&& s.rs b).setWidth 32).signExtend 64))
  | .orI32 t d a b => some (writes 0 t d 1 (((s.rs a ||| s.rs b).setWidth 32).signExtend 64))
  | .xorI32 t d a b => some (writes 0 t d 1 (((s.rs a ^^^ s.rs b).setWidth 32).signExtend 64))
  | .andnI32 t d a b => some (writes 0 t d 1 (((s.rs a &&& ~~~(s.rs b)).setWidth 32).signExtend 64))
  | .sllI32 t d a b => some (half t d 1 (sw32 s a * 2 ^ (uw32 s b % 32)))
  | .srlI32 t d a b => some (half t d 1 (uw32 s a / 2 ^ (uw32 s b % 32)))
  | .sraI32 t d a b => some (half t d 1 (sw32 s a / 2 ^ (uw32 s b % 32)))
  | .mulI32 t d a b => some (half t d 3 (sw32 s a * sw32 s b))
  | .mulhI32 t d a b => some (half t d 3 (sw32 s a * sw32 s b / 2 ^ 32))
  | .mulhuI32 t d a b => some (half t d 3 (uw32 s a * uw32 s b / 2 ^ 32))
  | .addsI32 t d a b => some (half t d 1 (clampS 32 (sw32 s a + sw32 s b)))
  | .subsI32 t d a b => some (half t d 1 (clampS 32 (sw32 s a - sw32 s b)))
  | .addsuI32 t d a b => some (half t d 1 (clampU 32 (uw32 s a + uw32 s b)))
  | .subsuI32 t d a b => some (half t d 1 (clampU 32 ((uw32 s a : Int) - uw32 s b)))
  | .minI32 t d a b => some (half t d 1 (min (sw32 s a) (sw32 s b)))
  | .maxI32 t d a b => some (half t d 1 (max (sw32 s a) (sw32 s b)))
  | .minuI32 t d a b => some (half t d 1 (min (uw32 s a) (uw32 s b)))
  | .maxuI32 t d a b => some (half t d 1 (max (uw32 s a) (uw32 s b)))
  | .clzI32 t d a => some (half t d 1 (clzOf 32 (uw32 s a)))
  | .ctzI32 t d a => some (half t d 1 (ctzOf 32 (uw32 s a)))
  | .popcI32 t d a => some (half t d 1 (onesOf 32 (uw32 s a)))
  | _ => none

/-- Immediate forms, compares, conditional moves and constants (R101 to R105). An immediate shift is by 0 to 63. -/
def rowConst (s : State) : Instr → Option Does
  | .addiI64 t d a i => some (word t d 1 (sw s a + i.toInt))
  | .addiI32 t d a i => some (half t d 1 (sw s a + i.toInt))
  | .andiI64 t d a i => some (writes 0 t d 1 (s.rs a &&& BitVec.ofInt 64 i.toInt))
  | .oriI64 t d a i => some (writes 0 t d 1 (s.rs a ||| BitVec.ofInt 64 i.toInt))
  | .xoriI64 t d a i => some (writes 0 t d 1 (s.rs a ^^^ BitVec.ofInt 64 i.toInt))
  | .slliI64 t d a i => some (word t d 1 (sw s a * 2 ^ i.toNat))
  | .srliI64 t d a i => some (word t d 1 (uw s a / 2 ^ i.toNat))
  | .sraiI64 t d a i => some (word t d 1 (sw s a / 2 ^ i.toNat))
  | .addsiI64 t d a i => some (word t d 1 (clampS 64 (sw s a + i.toInt)))
  | .cmpEq t d a b => some (truth t d (s.rs a = s.rs b))
  | .cmpNe t d a b => some (truth t d (s.rs a ≠ s.rs b))
  | .cmpLt t d a b => some (truth t d (sw s a < sw s b))
  | .cmpGe t d a b => some (truth t d (sw s b ≤ sw s a))
  | .cmpLtu t d a b => some (truth t d (uw s a < uw s b))
  | .cmpGeu t d a b => some (truth t d (uw s b ≤ uw s a))
  | .cmpiLt t d a i => some (truth t d (sw s a < i.toInt))
  | .cmpiEq t d a i => some (truth t d (sw s a = i.toInt))
  | .cmovNz t d a b => some (writes 0 t d 1 (if uw s a = 0 then s.rs d else s.rs b))
  | .cmovZ t d a b => some (writes 0 t d 1 (if uw s a = 0 then s.rs b else s.rs d))
  | .cmovLt t d a b => some (writes 0 t d 1 (if sw s a < 0 then s.rs b else s.rs d))
  | .cmovGe t d a b => some (writes 0 t d 1 (if sw s a < 0 then s.rs d else s.rs b))
  | .movi t d i => some (word t d 1 i.toNat)
  | .movsh t d i => some (word t d 1 (sw s d * 2 ^ 17 + i.toNat))
  | .mfc t d x => some (writes 0 t d 1 (csRead s s.cur.core x.toNat))
  | _ => none

/-! ## Walk registers (R124, R125) -/

/-- BASE of a walk register, and its two steps read as signed(32). -/
def baseOf (s : State) (w : BitVec 3) : Word := (s.curCore.walk w.toNat).base
def firstStep (s : State) (w : BitVec 3) : Int := ((s.curCore.walk w.toNat).step.setWidth 32).toInt
def secondStep (s : State) (w : BitVec 3) : Int := (((s.curCore.walk w.toNat).step >>> 32).setWidth 32).toInt

/-- The step of a loop-indexed form: STEP1 where the count of the loop entry is 1, else STEP0. -/
def indexedStep (s : State) (w : BitVec 3) (entry : Nat) : Int :=
  if (s.curCore.loopEntry entry).count = 1 then secondStep s w else firstStep s w

/-- An A slot that moves BASE by a step, with the old BASE written to a scalar where the form names one. -/
def walked (s : State) (w : BitVec 3) (step : Int) (d : BitVec 6) : Does :=
  { cls := 1, tag := 0,
    lands := (1, .control (0x30 + 2 * w.toNat) (baseOf s w + BitVec.ofInt 64 step)) ::
      (if d = 0 then [] else [(1, .scalar d.toNat (baseOf s w))]) }

/-- The A slot (R125). The loop-indexed forms name an open loop entry. -/
def rowWalk (s : State) : Instr → Option Does
  | .wstep w => some (walked s w (firstStep s w) 0)
  | .wstep1 w => some (walked s w (secondStep s w) 0)
  | .wback w => some (walked s w (-(firstStep s w)) 0)
  | .wstepL w l => if l.toNat < s.curCore.depth.toNat then some (walked s w (indexedStep s w l.toNat) 0) else none
  | .wget w d => some (writes 1 0 d 1 (baseOf s w))
  | .wset w a => some { cls := 1, tag := 0, lands := [(1, .control (0x30 + 2 * w.toNat) (s.rs a))] }
  | .wtake w d => some (walked s w (firstStep s w) d)
  | .wtake1 w d => some (walked s w (secondStep s w) d)
  | .wtakeL w d =>
    if s.curCore.depth = 0 then none else some (walked s w (indexedStep s w (s.curCore.depth.toNat - 1)) d)
  | _ => none

/-! ## Capabilities (R286 to R288) -/

/-- A slot of class L that writes a capability register. -/
def gives (t : BitVec 3) (d : BitVec 4) (v : Cap) : Does := { cls := 2, tag := t, lands := [(1, .cap d.toNat v)] }

/-- The capability of the given fields, with a set tag. -/
def capOf (base length perm space otype : Nat) : Cap := Cap.make true base length perm space otype

/-- The capability instructions, each where its checks pass (R286, R288). -/
def rowCap (s : State) : Instr → Option Does
  | .cbase t d a r =>
    let c := s.rc a
    if c.tag && uw s r ≤ c.length && c.otype = 0 then
      some (gives t d (capOf (c.base + uw s r) (c.length - uw s r) c.perm c.space 0))
    else none
  | .clen t d a r =>
    let c := s.rc a
    if c.tag && uw s r ≤ c.length && c.otype = 0 then some (gives t d (capOf c.base (uw s r) c.perm c.space 0)) else none
  | .cperms t d a r =>
    let c := s.rc a
    if c.tag && c.otype = 0 then some (gives t d (capOf c.base c.length (c.perm &&& uw s r % 256) c.space 0)) else none
  | .cspace t d a r =>
    let c := s.rc a
    let k := uw s r % 16
    if c.tag && (k ≤ 7 || k = 15) && (c.space = 15 || k = c.space) && c.otype = 0 then
      some (gives t d (capOf c.base c.length c.perm k 0))
    else none
  | .cgetb t a d => some (writes 2 t d 1 (BitVec.ofNat 64 (s.rc a).base))
  | .cgeth t a d => some (writes 2 t d 1 ((s.rc a).bits.extractLsb' 64 64))
  | .cgett t a d => some (writes 2 t d 1 (if (s.rc a).tag then 1 else 0))
  | .cmovc t d a => some (gives t d (s.rc a))
  | .cclr t d => some (gives t d { s.rc d with tag := false })
  | .cseal t d a r =>
    let c := s.rc a
    let v := c.base + uw s r
    let k := s.rc d
    if c.tag && k.tag && v < c.base + c.length && 1 ≤ v && v ≤ 4095 && bit c.perm 7 && c.otype = 0 && k.otype = 0 then
      some (gives t d (capOf k.base k.length k.perm k.space v))
    else none
  | .cunseal t d a r =>
    let c := s.rc a
    let v := c.base + uw s r
    let k := s.rc d
    if c.tag && k.tag && v < c.base + c.length && 1 ≤ v && v ≤ 4095 && bit c.perm 7 && c.otype = 0 && k.otype = v then
      some (gives t d (capOf k.base k.length k.perm k.space 0))
    else none
  | _ => none

/-! ## Vectors (R171 to R192) -/

/-- Elements of `w` bits of the head entry of a queue. -/
def heads (s : State) (w q : Nat) : List Nat := elems w (s.rq q)

/-- A V slot that reads queues and pushes an entry. -/
def pushes (t : BitVec 3) (reads : List (Nat × Bool)) (q lat : Nat) (v : Entry) : Does :=
  { cls := 3, tag := t, reads := reads, push := some (q, lat, v) }

/-- Format VG: both heads, an element function, the push into D; a P bit that is set leaves its head where it is (R63, R171). -/
def vg (s : State) (t g : BitVec 3) (p q : BitVec 1) (d a b : BitVec 6) (lat w : Nat) (f : Nat → Nat → Nat) : Does :=
  pushes t [(64 * g.toNat + a.toNat, p = 0), (64 * g.toNat + b.toNat, q = 0)] (64 * g.toNat + d.toNat) lat
    (entryOf w (List.zipWith f (heads s w (64 * g.toNat + a.toNat)) (heads s w (64 * g.toNat + b.toNat))))

/-- Format VG with the popped head of D as the addend. -/
def vgd (s : State) (t g : BitVec 3) (p q : BitVec 1) (d a b : BitVec 6) (w : Nat) (f : Nat → Nat → Nat → Nat) : Does :=
  pushes t [(64 * g.toNat + a.toNat, p = 0), (64 * g.toNat + b.toNat, q = 0), (64 * g.toNat + d.toNat, true)]
    (64 * g.toNat + d.toNat) 4
    (entryOf w (List.zipWith (fun (h : Nat → Nat) x => h x)
      (List.zipWith f (heads s w (64 * g.toNat + a.toNat)) (heads s w (64 * g.toNat + b.toNat)))
      (heads s w (64 * g.toNat + d.toNat))))

/-- Exact values kept to the low w bits: of two elements read as signed, of two elements read as unsigned. -/
def onSigned (w : Nat) (f : Int → Int → Int) (x y : Nat) : Nat := lowBits (f (sext x w) (sext y w)) w

/-- The integer, logic and FP instructions of format VG (R176 to R179). -/
def rowVg (s : State) : Instr → Option Does
  | .vaddI32 t g p q d a b => some (vg s t g p q d a b 1 32 (onSigned 32 (fun x y => x + y)))
  | .vsubI32 t g p q d a b => some (vg s t g p q d a b 1 32 (onSigned 32 (fun x y => x - y)))
  | .vaddI16 t g p q d a b => some (vg s t g p q d a b 1 16 (onSigned 16 (fun x y => x + y)))
  | .vsubI16 t g p q d a b => some (vg s t g p q d a b 1 16 (onSigned 16 (fun x y => x - y)))
  | .vaddI8 t g p q d a b => some (vg s t g p q d a b 1 8 (onSigned 8 (fun x y => x + y)))
  | .vaddsI32 t g p q d a b => some (vg s t g p q d a b 1 32 (onSigned 32 (fun x y => clampS 32 (x + y))))
  | .vaddsI16 t g p q d a b => some (vg s t g p q d a b 1 16 (onSigned 16 (fun x y => clampS 16 (x + y))))
  | .vaddsI8 t g p q d a b => some (vg s t g p q d a b 1 8 (onSigned 8 (fun x y => clampS 8 (x + y))))
  | .vsubsI32 t g p q d a b => some (vg s t g p q d a b 1 32 (onSigned 32 (fun x y => clampS 32 (x - y))))
  | .vmulI32 t g p q d a b => some (vg s t g p q d a b 3 32 (onSigned 32 (fun x y => x * y)))
  | .vmulhI32 t g p q d a b => some (vg s t g p q d a b 3 32 (onSigned 32 (fun x y => x * y / 2 ^ 32)))
  | .vminI32 t g p q d a b => some (vg s t g p q d a b 1 32 (onSigned 32 min))
  | .vmaxI32 t g p q d a b => some (vg s t g p q d a b 1 32 (onSigned 32 max))
  | .vandU32 t g p q d a b => some (vg s t g p q d a b 1 32 (fun x y => x &&& y))
  | .vorU32 t g p q d a b => some (vg s t g p q d a b 1 32 (fun x y => x ||| y))
  | .vxorU32 t g p q d a b => some (vg s t g p q d a b 1 32 (fun x y => x ^^^ y))
  | .vaddF32 t g p q d a b => some (vg s t g p q d a b 4 32 f32Add)
  | .vsubF32 t g p q d a b => some (vg s t g p q d a b 4 32 f32Sub)
  | .vmulF32 t g p q d a b => some (vg s t g p q d a b 4 32 f32Mul)
  | .vfmaF32 t g p q d a b => some (vgd s t g p q d a b 32 f32Fma)
  | .vmaxF32 t g p q d a b => some (vg s t g p q d a b 1 32 f32Max)
  | .vminF32 t g p q d a b => some (vg s t g p q d a b 1 32 f32Min)
  | .vaddBf16 t g p q d a b => some (vg s t g p q d a b 4 16 bf16Add)
  | .vsubBf16 t g p q d a b => some (vg s t g p q d a b 4 16 bf16Sub)
  | .vmulBf16 t g p q d a b => some (vg s t g p q d a b 4 16 bf16Mul)
  | .vfmaBf16 t g p q d a b => some (vgd s t g p q d a b 16 bf16Fma)
  | _ => none

/-- The low 32 bits of the broadcast scalar (R145). -/
def bc32 (s : State) : Nat := s.bcast.toNat % 2 ^ 32

/-- Format VM: a lane that m[M] selects takes its result, any other its lane of A; m0 selects every lane (R143, R144). -/
def vm (s : State) (t : BitVec 3) (d a : BitVec 9) (p : BitVec 1) (m : BitVec 4) (lat : Nat) (r : Nat → Nat) : Does :=
  { pushes t [(a.toNat, p = 0)] d.toNat lat
      (entryOf 32 ((List.range 64).map (fun i =>
        if (s.rm m).getLsbD i then r i else (heads s 32 a.toNat).getD i 0))) with bc := true }

/-- Format VM with a function of the lane of A and the broadcast. -/
def vmEach (s : State) (t : BitVec 3) (d a : BitVec 9) (p : BitVec 1) (m : BitVec 4) (lat : Nat)
    (f : Nat → Nat → Nat) : Does :=
  vm s t d a p m lat (fun i => f ((heads s 32 a.toNat).getD i 0) (bc32 s))

/-- Format VI: A is popped, and every lane takes a function of its lane of A. -/
def vi (s : State) (t : BitVec 3) (d a : BitVec 9) (f : Nat → Nat) : Does :=
  pushes t [(a.toNat, true)] d.toNat 1 (entryOf 32 ((heads s 32 a.toNat).map f))

/-- The contributions of a reduction, in the order of R187: what every lane holds after the steps 1, 2, 4, … 32. -/
def reduced (s : State) (a : BitVec 9) (m : BitVec 4) (identity : Nat) (f : Nat → Nat → Nat) : List Nat :=
  [1, 2, 4, 8, 16, 32].foldl
    (fun h d => (List.range 64).map (fun i => if d ≤ i then f (h.getD (i - d) 0) (h.getD i 0) else h.getD i 0))
    ((List.range 64).map (fun i => if (s.rm m).getLsbD i then (heads s 32 a.toNat).getD i 0 else identity))

/-- The instructions of formats VM and VI on lanes (R176 to R178, R181, R186, R187). -/
def rowVm (s : State) : Instr → Option Does
  | .vaddI32Bc t d a p m => some (vmEach s t d a p m 1 (onSigned 32 (fun x y => x + y)))
  | .vmulI32Bc t d a p m => some (vmEach s t d a p m 3 (onSigned 32 (fun x y => x * y)))
  | .vaddiI32 t d a i => some (vi s t d a (fun x => lowBits (sext x 32 + i.toInt) 32))
  | .vandU32Bc t d a p m => some (vmEach s t d a p m 1 (fun x y => x &&& y))
  | .vxorU32Bc t d a p m => some (vmEach s t d a p m 1 (fun x y => x ^^^ y))
  | .vsllI32 t d a i => some (vi s t d a (fun x => x * 2 ^ i.toNat % 2 ^ 32))
  | .vsrlI32 t d a i => some (vi s t d a (fun x => x / 2 ^ i.toNat))
  | .vsraI32 t d a i => some (vi s t d a (fun x => lowBits (sext x 32 / 2 ^ i.toNat) 32))
  | .vaddF32Bc t d a p m => some (vmEach s t d a p m 4 f32Add)
  | .vmulF32Bc t d a p m => some (vmEach s t d a p m 4 f32Mul)
  | .vmergeU32 t d a p m =>
    some (pushes t [(a.toNat, p = 0), (d.toNat, true)] d.toNat 1
      (entryOf 32 ((List.range 64).map (fun i =>
        (heads s 32 (if (s.rm m).getLsbD i then a.toNat else d.toNat)).getD i 0))))
  | .vrotg t d a k =>
    some (pushes t [(a.toNat, true)] d.toNat 2
      (entryOf 32 ((List.range 64).map (fun (i : Nat) =>
        (heads s 32 a.toNat).getD (16 * (i / 16) + Int.toNat (((i : Int) - k.toNat) % 16)) 0))))
  | .vrot t d a p m =>
    some (vm s t d a p m 3 (fun i => (heads s 32 a.toNat).getD (((i : Int) - field (bc32 s) 5 0) % 64).toNat 0))
  | .vbcast t d a p m => some (vm s t d a p m 2 (fun _ => (heads s 32 a.toNat).getD (field (bc32 s) 5 0) 0))
  | .vperm t d a p m =>
    some (pushes t [(a.toNat, p = 0), (d.toNat, true)] d.toNat 3
      (entryOf 32 ((List.range 64).map (fun i => (heads s 32 a.toNat).getD
        (if (s.rm m).getLsbD i then field ((heads s 32 d.toNat).getD i 0) 5 0 else i) 0))))
  | .vredaddI32 t d a p m =>
    some (vm s t d a p m 6 (fun _ => (bc32 s + (reduced s a m 0 (fun x y => (x + y) % 2 ^ 32)).getD 63 0) % 2 ^ 32))
  | .vredaddF32 t d a p m =>
    some (vm s t d a p m 12 (fun _ => f32Add (bc32 s) ((reduced s a m 0x80000000 f32Add).getD 63 0)))
  | .vredmaxF32 t d a p m =>
    some (vm s t d a p m 12 (fun _ => f32Max (bc32 s) ((reduced s a m 0xFF800000 f32Max).getD 63 0)))
  | .vscanaddF32 t d a p m =>
    some (vm s t d a p m 12 (fun i => f32Add (bc32 s) ((reduced s a m 0x80000000 f32Add).getD i 0)))
  | _ => none

/-- The dither value of element e under mode stoch: the value of the dither pan e places after its phase (R158, R159); 0 under
any other mode. The bundle has one slot, so no slot before it has drawn. -/
def ditherOf (s : State) (mode : BitVec 3) (e : Nat) : Nat :=
  if mode = 4 then panValue s.curCore.dpan.toNat (s.curCore.panOf s.curCore.dpan.toNat)
    ((s.curCore.panOf s.curCore.dpan.toNat).ph.toNat + e) 0 else 0

/-- The draw of a conversion of n elements: mode stoch takes n values of the dither pan (R159). -/
def ditherDraw (s : State) (mode : BitVec 3) (n : Nat) : Option (Nat × Nat) :=
  if mode = 4 then some (s.curCore.dpan.toNat, n) else none

/-- A conversion of the lanes of the popped head of A (R182, R185). -/
def convert (s : State) (t : BitVec 3) (d a : BitVec 9) (r : BitVec 3) (f : Nat → Nat → Nat) : Does :=
  { pushes t [(a.toNat, true)] d.toNat 2
      (entryOf 32 ((List.range 64).map (fun i => f (ditherOf s r i) ((heads s 32 a.toNat).getD i 0)))) with
    draw := ditherDraw s r 64 }

/-- The elements of `w` bits of an entry with elements 64 P to 64 P + 63 replaced (R183, R184). -/
def partOf (w part : Nat) (old : List Nat) (f : Nat → Nat) : Entry :=
  entryOf w ((List.range (2048 / w)).map (fun j => if j / 64 = part then f (j % 64) else old.getD j 0))

/-- What a part is written into: all zero for part 0, else the popped head of D. -/
def oldPart (s : State) (w part : Nat) (d : BitVec 9) : List Nat :=
  if part = 0 then elems w 0 else heads s w d.toNat

/-- A narrowing into one part of D, which is read and popped for every part but 0 (R183, R184). -/
def narrow (s : State) (t : BitVec 3) (d a : BitVec 9) (w part : Nat) (f : Nat → Nat → Nat) : Does :=
  pushes t ((a.toNat, true) :: (if part = 0 then [] else [(d.toNat, true)])) d.toNat 2
    (partOf w part (oldPart s w part d) (fun i => f i ((heads s 32 a.toNat).getD i 0)))

/-- Conversions and narrowings (R182 to R185). -/
def rowConvert (s : State) : Instr → Option Does
  | .vcvtF32I32 t d a r => some (convert s t d a r (fun g x => (Machine.Num.ofInt (sext x 32)).round 23 r.toNat g))
  | .vcvtF32U32 t d a r => some (convert s t d a r (fun g x => (Machine.Num.ofInt x).round 23 r.toNat g))
  | .vcvtI32F32 t d a r =>
    some (convert s t d a r (fun g x => lowBits ((decodeF32 x).toInteger r.toNat g (-(2 ^ 31)) (2 ^ 31 - 1)) 32))
  | .vcvtU32F32 t d a r =>
    some (convert s t d a r (fun g x => lowBits ((decodeF32 x).toInteger r.toNat g 0 (2 ^ 32 - 1)) 32))
  | .vcvtBf16F32 t d a h r =>
    some { narrow s t d a 16 h.toNat (fun i x => (decodeF32 x).round 7 r.toNat (ditherOf s r i)) with draw := ditherDraw s r 64 }
  | .vcvtF32Bf16 t d a h =>
    some (pushes t [(a.toNat, true)] d.toNat 2
      (entryOf 32 ((List.range 64).map (fun i => (decodeBf16 ((heads s 16 a.toNat).getD (64 * h.toNat + i) 0)).f32))))
  | .vpacksI16I32 t d a p => some (narrow s t d a 16 p.toNat (fun _ x => lowBits (clampS 16 (sext x 32)) 16))
  | .vpacksI8I32 t d a p => some (narrow s t d a 8 p.toNat (fun _ x => lowBits (clampS 8 (sext x 32)) 8))
  | .vpacksU8I32 t d a p => some (narrow s t d a 8 p.toNat (fun _ x => lowBits (clampU 8 (sext x 32)) 8))
  | _ => none

/-- The mask whose bit i is b(i). -/
def maskWhere (b : Nat → Bool) : Word := bitsWhere 64 b

/-- A V slot that writes a lane mask after a latency; a write of m0 is discarded (R143). -/
def mask (t : BitVec 3) (reads : List (Nat × Bool)) (m : BitVec 4) (lat : Nat) (v : Word) : Does :=
  { cls := 3, tag := t, reads := reads, lands := if m = 0 then [] else [(lat, .mask m.toNat v)] }

/-- A compare of two heads into a mask: B is popped, A as its P bit says (R173, R180). -/
def compareHeads (s : State) (t : BitVec 3) (d : BitVec 4) (a b : BitVec 9) (p : BitVec 1) (f : Nat → Nat → Bool) : Does :=
  mask t [(a.toNat, p = 0), (b.toNat, true)] d 1
    (maskWhere (fun i => f ((heads s 32 a.toNat).getD i 0) ((heads s 32 b.toNat).getD i 0)))

/-- Compares, mask operations, and moves between masks, queues and scalars (R180, R188 to R191). -/
def rowMask (s : State) : Instr → Option Does
  | .vcmpltI32 t d a b p => some (compareHeads s t d a b p (fun x y => sext x 32 < sext y 32))
  | .vcmpeqI32 t d a b p => some (compareHeads s t d a b p (fun x y => x = y))
  | .vcmpleF32 t d a b p => some (compareHeads s t d a b p f32Le)
  | .vmand t d a b => some (mask t [] d 1 (s.rm a &&& s.rm b))
  | .vmor t d a b => some (mask t [] d 1 (s.rm a ||| s.rm b))
  | .vmxor t d a b => some (mask t [] d 1 (s.rm a ^^^ s.rm b))
  | .vmandn t d a b => some (mask t [] d 1 (s.rm a &&& ~~~(s.rm b)))
  | .vmnot t d a => some (mask t [] d 1 (~~~(s.rm a)))
  | .vmget t r m => some (writes 3 t r 1 (s.rm m))
  | .vmset t r m => some (mask t [] m 1 (s.rs r))
  | .vmcnt t r m => some (writes 3 t r 1 (BitVec.ofNat 64 (onesOf 64 (s.rm m).toNat)))
  | .vmfirst t r m => some (writes 3 t r 1 (BitVec.ofNat 64 (ctzOf 64 (s.rm m).toNat)))
  | .vmfromq t v p m =>
    some (mask t [(v.toNat, p = 0)] m 1 (maskWhere (fun i => (heads s 32 v.toNat).getD i 0 != 0)))
  | .vmtoq t v m =>
    some (pushes t [] v.toNat 1 (entryOf 32 ((List.range 64).map (fun i => if (s.rm m).getLsbD i then 2 ^ 32 - 1 else 0))))
  | .vlaneU32 t v p r l h =>
    some { writes 3 t r 2 (BitVec.ofNat 64 ((heads s 32 v.toNat).getD (16 * h.toNat + l.toNat) 0)) with
           reads := [(v.toNat, p = 0)] }
  | .vlaneI32 t v p r l h =>
    some { writes 3 t r 2 (BitVec.ofInt 64 (sext ((heads s 32 v.toNat).getD (16 * h.toNat + l.toNat) 0) 32)) with
           reads := [(v.toNat, p = 0)] }
  | .vsplatU32 t v r => some (pushes t [] v.toNat 1 (entryOf 32 (List.replicate 64 (uw s r % 2 ^ 32))))
  | .vsplatU16 t v r => some (pushes t [] v.toNat 1 (entryOf 16 (List.replicate 128 (uw s r % 2 ^ 16))))
  | .vsplatU8 t v r => some (pushes t [] v.toNat 1 (entryOf 8 (List.replicate 256 (uw s r % 2 ^ 8))))
  | _ => none

/-! ## The brine unit (R225 to R247) -/

/-- The stream length that a length code names (R226). -/
def lengthOf (code : BitVec 3) : Nat := 64 * 2 ^ code.toNat

/-- The value of a pan `k` places after its phase, for a lane (R231). -/
def panNext (s : State) (p : BitVec 4) (k i : Nat) : Nat :=
  panValue p.toNat (s.curCore.panOf p.toNat) ((s.curCore.panOf p.toNat).ph.toNat + k) i

/-- A B slot that writes a brine register: the data after a latency, its length tag and pan mask at commit (R228, R237). -/
def brine (t : BitVec 3) (d : BitVec 4) (lat : Nat) (v : BitVec 65536) (len : BitVec 3) (pans : BitVec 16) : Does :=
  { cls := 7, tag := t, lands := [(lat, .brine d.toNat v), (0, .brineTags d.toNat len pans)] }

/-- The length tag and the pan mask of a brine register. -/
def tagOf (s : State) (r : BitVec 4) : BitVec 3 := s.curCore.lenTag r.toNat
def pansOf (s : State) (r : BitVec 4) : BitVec 16 := s.curCore.panMask r.toNat

/-- Settings of the brine unit, and the bitwise operations on streams where their checks pass (R236, R241, R243). -/
def rowStream (s : State) : Instr → Option Does
  | .pseed t n r => some { cls := 7, tag := t, lands := [(0, .panSeed n.toNat (s.rs r))] }
  | .paux t n r =>
    some { cls := 7, tag := t, lands := [(0, .panAux n.toNat ((s.rs r).extractLsb' 16 10) ((s.rs r).extractLsb' 0 16))] }
  | .pgets t n d => some (writes 7 t d 1 (s.curCore.panOf n.toNat).seed)
  | .pgeta t n d =>
    some (writes 7 t d 1 (BitVec.ofNat 64
      ((s.curCore.panOf n.toNat).scr.toNat * 2 ^ 16 + (s.curCore.panOf n.toNat).ph.toNat)))
  | .bsetlen t l => some { cls := 7, tag := t, lands := [(0, .blen l)] }
  | .bdither t n => some { cls := 7, tag := t, lands := [(0, .dpan n)] }
  | .band t d a b =>
    if tagOf s a = tagOf s b ∧ pansOf s a &&& pansOf s b = 0 then
      some (brine t d 1 (s.rb a &&& s.rb b) (tagOf s a) (pansOf s a ||| pansOf s b))
    else none
  | .bxnor t d a b =>
    if tagOf s a = tagOf s b ∧ pansOf s a &&& pansOf s b = 0 then
      some (brine t d 1 (~~~(s.rb a ^^^ s.rb b)) (tagOf s a) (pansOf s a ||| pansOf s b))
    else none
  | .bmux t d a b r =>
    if tagOf s a = tagOf s b ∧ tagOf s a = tagOf s r ∧ pansOf s r &&& (pansOf s a ||| pansOf s b) = 0 then
      some (brine t d 1 ((s.rb r &&& s.rb b) ||| (~~~(s.rb r) &&& s.rb a)) (tagOf s a)
        (pansOf s a ||| pansOf s b ||| pansOf s r))
    else none
  | .bmin t d a b =>
    if tagOf s a = tagOf s b ∧ pansOf s a = pansOf s b ∧ onesOf 16 (pansOf s a).toNat = 1 then
      some (brine t d 1 (s.rb a &&& s.rb b) (tagOf s a) (pansOf s a))
    else none
  | .bmax t d a b =>
    if tagOf s a = tagOf s b ∧ pansOf s a = pansOf s b ∧ onesOf 16 (pansOf s a).toNat = 1 then
      some (brine t d 1 (s.rb a ||| s.rb b) (tagOf s a) (pansOf s a))
    else none
  | .bnot t d a => some (brine t d 1 (~~~(s.rb a)) (tagOf s a) (pansOf s a))
  | .bmov t d a => some (brine t d 1 (s.rb a) (tagOf s a) (pansOf s a))
  | _ => none

/-- The 10-bit fraction of a 16-bit element, unipolar or bipolar (R242). -/
def fraction (bipolar : Bool) (e : Nat) : Nat := if bipolar then (max 0 (min (sext e 16 + 512) 1024)).toNat else min e 1024

/-- The number of parts of a stream length (R242). -/
def partsOf (code : BitVec 3) : Nat := if code = 4 then 1 else 512 / lengthOf code

/-- Bit b of lane i after a dissolve: in the sub-streams of part P, 1 where the pan value is below the fraction of the element of
that sub-stream; elsewhere the bit of the old data (R242). -/
def dissolved (s : State) (bipolar : Bool) (v : BitVec 9) (n : BitVec 4) (k : BitVec 3) (old : BitVec 65536) (i b : Nat) :
    Bool :=
  let len := lengthOf s.curCore.blenc
  let h := b / len - 2 * k.toNat
  if 2 * k.toNat ≤ b / len ∧ h < 2 then
    panNext s n (h * len + b % len) i < fraction bipolar ((heads s 16 v.toNat).getD (2 * i + h) 0)
  else old.getLsbD (1024 * i + b)

/-- BDSLV and BDSLV.BI where their checks pass: part 0 starts from zero, a later part needs the length tag BLEN (R242). -/
def dissolve (s : State) (t : BitVec 3) (d : BitVec 4) (v : BitVec 9) (p : BitVec 1) (n : BitVec 4) (k : BitVec 3)
    (bipolar : Bool) : Option Does :=
  let code := s.curCore.blenc
  if (k = 0 ∨ tagOf s d = code) ∧ k.toNat < partsOf code then
    some { brine t d 2
      (bitsWhere 65536 (fun j =>
        dissolved s bipolar v n k (if k = 0 then 0 else s.rb d) (j / 1024) (j % 1024)))
      code ((if k = 0 then 0 else pansOf s d) ||| BitVec.twoPow 16 n.toNat) with
      reads := [(v.toNat, p = 0)], draw := some (n.toNat, if code = 4 then 1024 else 2 * lengthOf code) }
  else none

/-- The ones of bits `lo` to `lo + n - 1` of lane i of a brine register. -/
def onesIn (b : BitVec 65536) (i lo n : Nat) : Nat := (List.range n).countP (fun j => b.getLsbD (1024 * i + lo + j))

/-- The count that element e of a part of a register takes: sub-stream 2 P + e mod 2 of lane e / 2; nothing for the second
element of a lane at the full length (R245). -/
def partOnes (s : State) (a : BitVec 4) (k : BitVec 3) (e : Nat) : Nat :=
  let len := lengthOf (tagOf s a)
  if tagOf s a = 4 ∧ e % 2 = 1 then 0 else onesIn (s.rb a) (e / 2) ((2 * k.toNat + e % 2) * len) len

/-- Bit b of lane i after a re-salt: every sub-stream keeps its share of ones, drawn anew from the pan (R244). -/
def resalted (s : State) (a n : BitVec 4) (i b : Nat) : Bool :=
  let len := lengthOf (tagOf s a)
  panNext s n b i < onesIn (s.rb a) i (b / len * len) len * (1024 / len)

/-- The category that a draw chooses in a lane group: the least lane whose weights up to it exceed the share u / 1024 of the
total; none where every weight is 0 (R247). -/
def chosen (s : State) (v : BitVec 9) (n : BitVec 4) (g : Nat) : Option Nat :=
  let w (j : Nat) : Nat := (heads s 32 v.toNat).getD (16 * g + j) 0
  let upTo (j : Nat) : Nat := ((List.range j).map w).sum
  if upTo 16 = 0 then none
  else (List.range 16).find? (fun j => panNext s n 0 (16 * g) * upTo 16 / 1024 < upTo (j + 1))

/-- A crystallize form: a count pushed, or added to the popped head of V (R245). -/
def crystal (t : BitVec 3) (v : BitVec 9) (readV : Bool) (r : Entry) : Does :=
  { cls := 7, tag := t, reads := if readV then [(v.toNat, true)] else [], push := some (v.toNat, 3, r) }

/-- Crystallizes and draws (R245 to R247). -/
def rowCrystal (s : State) : Instr → Option Does
  | .bcryst t a v => some (crystal t v false (entryOf 32 ((List.range 64).map (fun i => onesIn (s.rb a) i 0 1024))))
  | .bcrysta t a v =>
    some (crystal t v true (entryOf 32 ((List.range 64).map (fun i =>
      ((heads s 32 v.toNat).getD i 0 + onesIn (s.rb a) i 0 1024) % 2 ^ 32))))
  | .bcrystp t a v k =>
    if k.toNat < partsOf (tagOf s a) then
      some (crystal t v false (entryOf 16 ((List.range 128).map (partOnes s a k))))
    else none
  | .bcrystpa t a v k =>
    if k.toNat < partsOf (tagOf s a) then
      some (crystal t v true (entryOf 16 ((List.range 128).map (fun e =>
        ((heads s 16 v.toNat).getD e 0 + partOnes s a k e) % 2 ^ 16))))
    else none
  | .bbern t m v p n =>
    some { mask t [(v.toNat, p = 0)] m 2 (maskWhere (fun i =>
        panNext s n 0 i < min ((heads s 16 v.toNat).getD (2 * i) 0) 1024)) with cls := 7, draw := some (n.toNat, 1) }
  | .bcat t m v p n =>
    some { mask t [(v.toNat, p = 0)] m 4 (maskWhere (fun i => chosen s v n (i / 16) = some (i % 16))) with
           cls := 7, draw := some (n.toNat, 1) }
  | .bresalt t d a n =>
    some { brine t d 3 (bitsWhere 65536 (fun j => resalted s a n (j / 1024) (j % 1024))) (tagOf s a)
        (BitVec.twoPow 16 n.toNat) with draw := some (n.toNat, 1024) }
  | .bdslv t d v p n k => dissolve s t d v p n k false
  | .bdslvBi t d v p n k => dissolve s t d v p n k true
  | _ => none

/-! ## Scale tables (R208 to R210) -/

/-- A K slot, in force six plies later. -/
def scales (l : Land) : Does := { cls := 5, tag := 0, lands := [(6, l)] }

/-- The K slot (R210). -/
def rowScale (s : State) : Instr → Option Does
  | .scldA e r => some (scales (.scaleEntry 0 e.toNat ((s.rs r).extractLsb' 0 16)))
  | .scldB e r => some (scales (.scaleEntry 1 e.toNat ((s.rs r).extractLsb' 0 16)))
  | .scldqA r g => some (scales (.scaleQuad 0 g.toNat (s.rs r)))
  | .scldqB r g => some (scales (.scaleQuad 1 g.toNat (s.rs r)))
  | .scrstA => some (scales (.scaleReset 0))
  | .scrstB => some (scales (.scaleReset 1))
  | .kuniA r => some (scales (.scaleUni 0 ((s.rs r).extractLsb' 0 5)))
  | .kuniB r => some (scales (.scaleUni 1 ((s.rs r).extractLsb' 0 5)))
  | _ => none

end Sys2Proof.Safety

end
end

