-- ==== Sys2Proof/Safety/Slots.lean ====
section
/-! DEFINITION. What the manual gives the slots that jump, that start accesses and operations, or that set the core's own
units, row by row, for the statements. -/

noncomputable section

namespace Sys2Proof.Safety

open Sys2Proof.Machine

/-- A change of the core whose bundle is being issued. -/
def also (s : State) (f : Core → Core) (t : State) : State := t.setCore s.cur.core (f (t.core s.cur.core))

/-- What the manual gives a slot beside its reads and writes of registers and queues. -/
structure Acts where
  does : Does
  /-- the address after the bundle, where the slot gives one (R18) -/
  target : Option Nat := none
  /-- a queue that must have room for the entry that a load will bring (R133, R136) -/
  room : Option Nat := none
  /-- the kinds and the distance class of what it starts (R272), and the scope of the release that it is (R282) -/
  starts : Option (Nat × Nat) := none
  release : Option Nat := none
  /-- what it leaves beside, in the state after its commit -/
  more : State → State := id

/-- When the order rules let a slot issue: a release waits for the earlier operations in its scope (R282), an acquire in flight
holds operations in its scope (R283), and a fence holds the kinds that it names (R285). -/
abbrev Acts.inOrder (a : Acts) (s : State) : Prop :=
  (∀ k ∈ a.release, ∀ o ∈ s.curCore.ops, o.dist ≤ k → o.waits s.now = false) ∧
    ∀ st ∈ a.starts,
      (∀ o ∈ s.curCore.ops, ∀ k ∈ o.acq, st.2 ≤ k → o.waits s.now = false) ∧
      ∀ f ∈ s.curCore.fences, st.1 &&& f.succ ≠ 0 → st.2 ≤ f.scope → f.waits s.curCore.ops s.now = false

/-- When such a slot executes. -/
abbrev Acts.ready (a : Acts) (s : State) : Prop :=
  a.does.ready s ∧ a.inOrder s ∧ ∀ q ∈ a.room, (s.curCore.queue q).count.toNat + 1 ≤ 2

/-- The state after such a slot, alone in its bundle. -/
def Acts.done (a : Acts) (s : State) : State := a.more (committed s (a.does.core s) (a.target.getD (after s)))

/-! ## Jumps and loops (R19, R108 to R116) -/

/-- A C slot that goes on at a target, which must lie in 0 to 2^22 - 1 (R108). -/
def jumps (t : BitVec 3) (target : Int) (lands : List (Nat × Land)) : Option Acts :=
  if 0 ≤ target ∧ target < 2 ^ 22 then some { does := { cls := 0, tag := t, lands := lands }, target := some target.toNat }
  else none

/-- A C slot that changes the loop stack. -/
def loopsTo (s : State) (t : BitVec 3) (f : Core → Core) : Acts := { does := { cls := 0, tag := t }, more := also s f }

/-- The conditions of R21. -/
abbrev condition (code : BitVec 3) (x : Int) : Prop :=
  if code = 0 then x = 0
  else if code = 1 then x ≠ 0
  else if code = 2 then x < 0
  else if code = 3 then 0 ≤ x
  else if code = 4 then 0 < x
  else if code = 5 then x ≤ 0
  else if code = 6 then x = -1
  else x ≠ -1

/-- Whether FENCE.SEQ covers a register: every file but the brine registers (R116). -/
def covers : Reg → Bool
  | .brine _ => false
  | _ => true

/-- The control state that an MTC writes with its commit: that of the brine unit and of the next-tile ring (R237, R350, R351);
MTC writes the rest one ply on. Log 103. -/
def atCommit : List (BitVec 8) := [0x60, 0x61, 0x62, 0x63, 0x64, 0x65, 0x66, 0x67, 0x68, 0x88, 0x8C, 0x8F]

/-- Branches, jumps, loops and sequencer operations, where they redirect inside the code space and the loop stack allows
them. A loop close is given where no pre-emption is announced that could divert it (R392). -/
def rowJump (s : State) : Instr → Option Acts
  | .mtc t a x =>
    some { does := { cls := 0, tag := t,
                     lands := [(if x ∈ atCommit then 0 else 1, if x = 0x4F then .mask s.curCore.msel.toNat (s.rs a) else .control x.toNat (s.rs a))] } }
  | .br t a c o =>
    if condition c (sw s a) then jumps t (s.bundleAddr + o.toInt) [] else some { does := { cls := 0, tag := t } }
  | .jmp t o => jumps t (s.bundleAddr + o.toInt) []
  | .call t o => jumps t (s.bundleAddr + o.toInt) [(1, .scalar 59 (BitVec.ofNat 64 (kept s)))]
  | .jr t a => jumps t (uw s a) []
  | .callr t d a => jumps t (uw s a) (if d = 0 then [] else [(1, .scalar d.toNat (BitVec.ofNat 64 (kept s)))])
  | .loop t a o =>
    if uw s a % 2 ^ 32 = 0 then jumps t (s.bundleAddr + o.toInt) []
    else if s.curCore.depth.toNat < 6 then
      some (loopsTo s t (fun c =>
        { c.setLoopEntry s.curCore.depth.toNat
            { count := BitVec.ofNat 32 (uw s a), start := BitVec.ofNat 32 (kept s) } with depth := s.curCore.depth + 1 }))
    else none
  | .loopi t n o =>
    if n = 0 then jumps t (s.bundleAddr + o.toInt) []
    else if s.curCore.depth.toNat < 6 then
      some (loopsTo s t (fun c =>
        { c.setLoopEntry s.curCore.depth.toNat
            { count := BitVec.ofNat 32 n.toNat, start := BitVec.ofNat 32 (kept s) } with depth := s.curCore.depth + 1 }))
    else none
  | .endloop t =>
    let d := s.curCore.depth.toNat
    let e := s.curCore.loopEntry (d - 1)
    if d = 0 ∨ s.curCore.prply ≠ BitVec.allOnes 64 then none
    else if 1 < e.count.toNat then
      (jumps t e.start.toNat []).map (fun a =>
        { a with more := also s (fun c => c.setLoopEntry (d - 1) { e with count := e.count - 1 }) })
    else some (loopsTo s t (fun c => { c with depth := s.curCore.depth - 1 }))
  | .lpop t =>
    if s.curCore.depth = 0 then none else some (loopsTo s t (fun c => { c with depth := s.curCore.depth - 1 }))
  | .tret t => (jumps t s.curCore.tpc.toNat []).map (fun a => { a with more := also s (fun c => { c with intrap := false }) })
  | .fenceSeq t =>
    if (∀ p ∈ s.curCore.pend, (∃ r ∈ p.what.regs, covers r) → p.due ≤ s.now) ∧
        (∀ x ∈ s.accs, x.core = s.cur.core → (∃ r ∈ x.dest.reg, covers r) → x.landAt ≤ s.now) ∧
        (∀ x ∈ s.atoms, x.core = s.cur.core → x.dest.isSome → x.landAt ≤ s.now) ∧
        (∀ x ∈ s.accs, x.core = s.cur.core → x.write → x.isBundleStore →
          ∀ p ∈ x.spans, ¬ (addrWin p.addr = 0 ∧ addrCore p.addr = s.cur.core)) then
      some { does := { cls := 0, tag := t } }
    else none
  | _ => none

/-! ## Loads and stores (R118 to R121, R266, R275 to R280, R286) -/

/-- The operation that a slot starts (R273). -/
def operation (s : State) (cls kinds dist due : Nat) (acq : Option Nat) : Op :=
  { ident := slotOp s cls, seq := s.seq, kinds := kinds, dist := dist, isOpen := false, due := due, acq := acq }

/-- An operation joins those of the core. -/
def withOp (o : Op) (c : Core) : Core := { c with ops := c.ops ++ [o] }

/-- The request slots that accesses take, each with the access that took it (R266). -/
def takes (places : List (Nat × Nat)) (l : List ReqSlot) : List ReqSlot :=
  places.foldl (fun l x => l.mapIdx (fun j r => if j = x.1 then { r with taken := true, ident := x.2 } else r)) l

/-- Kinds of operations (R272). -/
def kindLoad : Nat := 1
def kindStore : Nat := 2

/-- A slot of class L that accesses each home of a request: loads of the scalar kind, and stores. The operation is complete with
the last landing of a load, or the last perform ply of a store. -/
def accesses (s : State) (d : Does) (q : Request) (mv : Move) (room release : Option Nat) : Option Acts :=
  if checkAccess s s.cur.core q = none then
    let homes := homesOf s s.cur.core q
    let timed := homes.map (fun h => (h, accessPlies s s.cur.core h q.reply))
    let dist := accessClass s q homes
    some { does := d, room := room, starts := some (mv.kinds, dist), release := release,
           more := fun t => also s (withOp (operation s d.cls mv.kinds dist
               (timed.foldl (fun m x => max m (if mv.write then x.2.1 else x.2.2.1)) 0) mv.acq))
             { t with accs := t.accs ++ timed.mapIdx (fun j x => makeAccess s d.cls j x.1 x.2 mv),
                      slots := takes
                        (timed.mapIdx (fun j x => x.2.2.2.toList.map (fun i => (i, slotIdent s d.cls j)))).flatten t.slots } }
  else none

/-- The address of a scalar access to the own scratchpad: BASE plus the element index times the size (R119). -/
def ownOffset (s : State) (c : BitVec 4) (off : BitVec 13) (size : Nat) : Int := ((s.rc c).base : Int) + off.toInt * size

/-- The one access of an LD or ST: at the home in window 0 of the own core, four plies after issue (R121). -/
def ownAccess (s : State) (addr : Int) (size : Nat) (write : Bool) (data : Nat) (dest : Dest) : Access :=
  { ident := slotIdent s 2 0, op := slotOp s 2, core := s.cur.core, rank := bundleRank s.cur.core, order := s.seq * 8 + 2,
    due := s.now + 4, landAt := s.now + 4, delayed := false, write := write,
    spans := [{ addr := coreBase s.cur.core + (addr % 2 ^ 32).toNat, len := size, off := 0 }],
    data := BitVec.ofNat 2048 data, capTag := none, dest := dest }

/-- LD and ST (R118, R119, R121). -/
def ownMove (s : State) (t : BitVec 3) (c : BitVec 4) (off : BitVec 13) (size : Nat) (write : Bool) (data : Nat) (dest : Dest) :
    Option Acts :=
  let kinds := if write then kindStore else kindLoad
  if checkAccess s s.cur.core (ownRequest (s.rc c) off size (if write then 1 else 0)) = none then
    some { does := { cls := 2, tag := t }, starts := some (kinds, 0),
           more := fun u => also s (withOp (operation s 2 kinds 0 (s.now + 4) none))
             { u with accs := u.accs ++ [ownAccess s (ownOffset s c off size) size write data dest] } }
  else none

/-- Scalar loads and stores, each where its checks pass. -/
def rowOwn (s : State) : Instr → Option Acts
  | .ldB t r c o => ownMove s t c o 1 false 0 (.scalar r.toNat 1)
  | .ldH t r c o => ownMove s t c o 2 false 0 (.scalar r.toNat 2)
  | .ldW t r c o => ownMove s t c o 4 false 0 (.scalar r.toNat 4)
  | .ldD t r c o => ownMove s t c o 8 false 0 (.scalar r.toNat 8)
  | .stB t r c o => ownMove s t c o 1 true (uw s r % 2 ^ 8) .nowhere
  | .stH t r c o => ownMove s t c o 2 true (uw s r % 2 ^ 16) .nowhere
  | .stW t r c o => ownMove s t c o 4 true (uw s r % 2 ^ 32) .nowhere
  | .stD t r c o => ownMove s t c o 8 true (uw s r) .nowhere
  | _ => none

/-- The lanes of a vector access: those of its mask, lane i at OFFSET + i times its stride from BASE (R276). -/
def lanesOf (s : State) (r : BitVec 6) (strided masked : Bool) : List (Nat × Int) :=
  let stride : Int := if strided then ((s.rs r).extractLsb' 40 20).toInt else 4
  let mask := if masked then s.curCore.mreg ((s.rs r).extractLsb' 60 4).toNat else BitVec.allOnes 64
  ((List.range 64).filter (fun i => mask.getLsbD i)).map
    (fun (i : Nat) => (i, (((s.rs r).extractLsb' 0 40).toNat : Int) + (i : Int) * stride))

/-- The lanes and the stride that the request flits of a vector access carry (R443). -/
def maskOfLanes (lanes : List (Nat × Int)) : BitVec 64 := lanes.foldl (fun m l => m ||| BitVec.twoPow 64 l.1) 0
def strideOf (s : State) (r : BitVec 6) (strided : Bool) : BitVec 32 :=
  if strided then (((s.rs r).extractLsb' 40 20).signExtend 32) else 4

/-- LDV and its forms: an entry is reserved now, and the load, which has one home, fills it (R277). With no active lane the entry
is zero. -/
def vectorIn (s : State) (t : BitVec 3) (v : BitVec 9) (c : BitVec 4) (r : BitVec 6) (strided masked : Bool) : Option Acts :=
  let lanes := lanesOf s r strided masked
  if lanes = [] then
    some { does := { cls := 2, tag := t, push := some (v.toNat, 4, 0) }, starts := some (kindLoad, 0),
           more := also s (withOp (operation s 2 kindLoad 0 (s.now + 4) none)) }
  else
    let q := vectorRequest (s.rc c) lanes 0 (!strided && !masked)
    let u := s.curCore.queue v.toNat
    let own := mapSet 0 s.curCore.qown (2 * v.toNat + u.pushSlot) (8 * s.seq + 3)
    if (homesOf s s.cur.core q.1).length ≠ 1 then none
    else (accesses s { cls := 2, tag := t } q.1
      { kinds := kindLoad, write := false, parts := q.2, data := 0, capTag := none,
        dest := .queue v.toNat u.pushSlot (lanes.map Prod.fst), acq := none, mask := maskOfLanes lanes,
        stride := strideOf s r strided } (some v.toNat) none).map
      (fun a => { a with more := fun st => also s (fun k => { (k.setQueue v.toNat u.reserve).markBank v.toNat with qown := own }) (a.more st) })

/-- STV and its forms (R278). With no active lane nothing is stored. -/
def vectorOut (s : State) (t : BitVec 3) (v : BitVec 9) (p : BitVec 1) (c : BitVec 4) (r : BitVec 6) (strided masked : Bool) :
    Option Acts :=
  let lanes := lanesOf s r strided masked
  let d : Does := { cls := 2, tag := t, reads := [(v.toNat, p = 0)] }
  if lanes = [] then some { does := d }
  else
    let q := vectorRequest (s.rc c) lanes 1 (!strided && !masked)
    accesses s d q.1
      { kinds := kindStore, write := true, parts := q.2, data := (s.rq v.toNat).toNat, capTag := none, dest := .nowhere,
        acq := none, mask := maskOfLanes lanes, stride := strideOf s r strided } none none

/-- QPUSH and QPUSH.REL: 256 bytes at BASE + 256 times a queue number (R279). -/
def pushOut (s : State) (t : BitVec 3) (v : BitVec 9) (p : BitVec 1) (c : BitVec 4) (r : BitVec 6) (release : Option Nat) :
    Option Acts :=
  accesses s { cls := 2, tag := t, reads := [(v.toNat, p = 0)] }
    { plainRequest (s.rc c) (((s.rc c).base : Int) + 256 * (uw s r % 512)) 256 [1] with groupAllowed := true }
    { kinds := kindStore, write := true, parts := [(0, 256, 0)], data := (s.rq v.toNat).toNat, capTag := none,
      dest := .nowhere, acq := none } none release

/-- Vector loads and stores and queue pushes, each where its checks pass. -/
def rowVector (s : State) : Instr → Option Acts
  | .ldvW t v c r => vectorIn s t v c r false false
  | .ldvsW t v c r => vectorIn s t v c r true false
  | .ldvmW t v c r => vectorIn s t v c r false true
  | .ldvsmW t v c r => vectorIn s t v c r true true
  | .stvW t v p c r => vectorOut s t v p c r false false
  | .stvsW t v p c r => vectorOut s t v p c r true false
  | .stvmW t v p c r => vectorOut s t v p c r false true
  | .stvsmW t v p c r => vectorOut s t v p c r true true
  | .qpush t v p c r => pushOut s t v p c r none
  | .qpushRel t v p c r k => pushOut s t v p c r (some k.toNat)
  | _ => none

/-! ## Ordered accesses, atomics, capability transfers, fences (R280 to R287) -/

/-- The scope of the release, and of the acquire, that ORD and SCOPE name (R280). -/
def releases (o : BitVec 2) (k : BitVec 3) : Option Nat := if o = 2 ∨ o = 3 then some k.toNat else none
def acquires (o : BitVec 2) (k : BitVec 3) : Option Nat := if o = 1 ∨ o = 3 then some k.toNat else none

/-- The request of an access of `size` bytes at BASE + s[S]. -/
def atScalar (s : State) (c : BitVec 4) (r : BitVec 6) (perms : List Nat) (size : Nat) : Request :=
  plainRequest (s.rc c) (((s.rc c).base : Int) + uw s r) size perms

/-- An atomic: it executes four plies before its perform ply, and its old value lands with it (R268, R281). -/
def atomic (s : State) (cls : Nat) (q : Request) (t : BitVec 3) (kind : AtomOp) (x y : Word) (dest : Option Nat)
    (returns : Bool) (release acq : Option Nat) : Option Acts :=
  if checkAccess s s.cur.core q = none then
    let home := (homesOf s s.cur.core q).headD 0
    let plies := accessPlies s s.cur.core home returns
    let ends := if returns then plies.2.1 else plies.1 - 4
    some { does := { cls := cls, tag := t }, starts := some (kindLoad + kindStore, distance s.cur.core home), release := release,
           more := fun t => also s (withOp (operation s cls (kindLoad + kindStore) (distance s.cur.core home) ends acq))
             { t with atoms := t.atoms ++ [{ ident := slotIdent s cls 0, op := slotOp s cls, core := s.cur.core,
                                             rank := bundleRank s.cur.core, order := s.seq * 8 + cls, due := plies.1 - 4,
                                             landAt := ends, addr := home, kind := kind, x := x, y := y, dest := dest }],
                      slots := takes (plies.2.2.toList.map (fun i => (i, slotIdent s cls 0))) t.slots } }
  else none

/-- An atomic of the L slot. -/
def atomicL (s : State) (t : BitVec 3) (d : BitVec 6) (c : BitVec 4) (r : BitVec 6) (k : BitVec 3) (o : BitVec 2) (kind : AtomOp) :
    Option Acts :=
  atomic s 2 { atScalar s c r [0, 1, 3] 8 with reply := true, atomic := true } t kind (s.rs d) (s.curCore.sreg (d.toNat + 1))
    (if d = 0 then none else some d.toNat) true (releases o k) (acquires o k)

/-- A counter add of the E slot: nothing returns, and it is a release at scope pod (R342). -/
def adds (s : State) (t : BitVec 3) (x : BitVec 6) (y : BitVec 4) (off size : Nat) (kind : AtomOp) : Option Acts :=
  atomic s 6 { plainRequest (s.rc y) (((s.rc y).base : Int) + off) size [0, 1, 3] with atomic := true } t kind (s.rs x) 0 none
    false (some 4) none

/-- Ordered loads and stores, atomics, counter adds, capability transfers and fences, each where its checks pass. -/
def rowOrdered (s : State) : Instr → Option Acts
  | .ldxD t d c r k o =>
    accesses s { cls := 2, tag := t } { atScalar s c r [0] 8 with reply := true }
      { kinds := kindLoad, write := false, parts := [(0, 8, 0)], data := 0, capTag := none, dest := .scalar d.toNat 8,
        acq := acquires o k } none none
  | .stxD t d c r k o =>
    accesses s { cls := 2, tag := t } { atScalar s c r [1] 8 with groupAllowed := true }
      { kinds := kindStore, write := true, parts := [(0, 8, 0)], data := uw s d, capTag := none, dest := .nowhere,
        acq := none } none (releases o k)
  | .cld t d a r =>
    accesses s { cls := 2, tag := t } { atScalar s a r [0] 16 with reply := true }
      { kinds := kindLoad, write := false, parts := [(0, 16, 0)], data := 0, capTag := none, dest := .cap d.toNat,
        acq := none } none none
  | .cst t d a r =>
    accesses s { cls := 2, tag := t } (atScalar s a r [1] 16)
      { kinds := kindStore, write := true, parts := [(0, 16, 0)], data := (s.rc d).bits.toNat, capTag := some (s.rc d).tag,
        dest := .nowhere, acq := none } none none
  | .aswapD t d c r k o => atomicL s t d c r k o .swap
  | .acasD t d c r k o => atomicL s t d c r k o .cas
  | .aaddD t d c r k o => atomicL s t d c r k o .add
  | .aminD t d c r k o => atomicL s t d c r k o .min
  | .amaxD t d c r k o => atomicL s t d c r k o .max
  | .aandD t d c r k o => atomicL s t d c r k o .and
  | .aorD t d c r k o => atomicL s t d c r k o .or
  | .axorD t d c r k o => atomicL s t d c r k o .xor
  | .cadd t x y i => adds s t x y (8 * i.toNat) 8 .add
  | .badd t x y i => adds s t x y (16 * i.toNat) 16 .barrier
  | .fence t p u k =>
    some { does := { cls := 2, tag := t },
           more := also s (fun c =>
             { c with fences := c.fences ++ [{ seq := s.seq, pred := p.toNat, succ := u.toNat, scope := k.toNat }] }) }
  | _ => none

/-! ## The matrix unit (R191, R204, R211 to R222) -/

/-- Whether a busy bit of TBUSY is set (R203). -/
abbrev IsBusy (s : State) (r : BusyReg) : Prop := ∃ b ∈ s.curCore.busy, b.reg = r ∧ s.now < b.free

/-- A tile is free for a bundle that reads it, and for one that writes it (R204); so is an accumulator. -/
abbrev TileReadable (s : State) (t : Nat) : Prop := ¬ IsBusy s (.tileWrite t)
abbrev TileWritable (s : State) (t : Nat) : Prop := ¬ IsBusy s (.tileWrite t) ∧ ¬ IsBusy s (.tileRead t)
abbrev AccReadable (s : State) (n : Nat) : Prop := ¬ IsBusy s (.accWrite n)
abbrev AccWritable (s : State) (n : Nat) : Prop := ¬ IsBusy s (.accWrite n) ∧ ¬ IsBusy s (.accRead n)

/-- Busy bits that clear at given plies after this one. -/
def withBusy (s : State) (bs : List (BusyReg × Nat × Bool)) (c : Core) : Core :=
  { c with busy := c.busy ++ bs.map (fun b => { reg := b.1, free := s.now + b.2.1, byMma := b.2.2 }) }

/-- The in-use and dirty flags of tiles and accumulators, set at commit (R200). -/
def flagged (bits : Nat) : Nat × Land := (1, .flagsSet (BitVec.ofNat 18 bits))

/-- TLD and TST: chunk j of 256 bytes moves at p + 4 + j (R213, R214). -/
def tileAccesses (s : State) (home tile off size : Nat) (store : Bool) : List Access :=
  (List.range ((size + 255) / 256)).map (fun j =>
    { ident := slotIdent s 4 j, op := slotOp s 4, core := s.cur.core, rank := bundleRank s.cur.core, order := s.seq * 8 + 4,
      due := s.now + 4 + j, landAt := s.now + 4 + j, delayed := false, write := store,
      spans := [{ addr := home + 256 * j, len := min 256 (size - 256 * j), off := 0 }], data := 0, capTag := none,
      dest := if store then .fromTile tile (off + 256 * j) else .tile tile (off + 256 * j) })

/-- TLD, TST and their forms, each where its checks pass and the tile is free. -/
def tileAct (s : State) (t : BitVec 3) (u c : BitVec 4) (r : BitVec 6) (off size : Nat) (store : Bool) : Option Acts :=
  let addr : Int := ((s.rc c).base : Int) + uw s r
  let q : Request := { plainRequest (s.rc c) addr size [if store then 1 else 0] with
    natural := addr % 64 = 0, shape := true, ownOnly := some size }
  let chunks := (size + 255) / 256
  let kinds := if store then 32 else 16
  if checkAccess s s.cur.core q = none ∧ (if store then TileReadable s u.toNat else TileWritable s u.toNat) then
    some { does := { cls := 4, tag := t, lands := if store then [] else [flagged (2 ^ u.toNat)] },
           starts := some (kinds, 0),
           more := fun x => also s (fun k => withOp (operation s 4 kinds 0 (s.now + 3 + chunks) none)
               (withBusy s [(if store then .tileRead u.toNat else .tileWrite u.toNat, 4 + chunks, false)] k))
             { x with accs := x.accs ++
                 tileAccesses s (coreBase s.cur.core + (addr % 2 ^ 32).toNat) u.toNat off size store } }
  else none

/-- The limits KL, ML and NL: the fields of the broadcast scalar, 0 meaning the full extent (R215). -/
def limitOf (given : Bool) (field full : Nat) : Nat := if given ∧ field ≠ 0 then field else full

/-- MMA and MMAZ, where both tiles have the kinds of the formats, the limits fit, and no hold of R216 applies. -/
def product (s : State) (t : BitVec 3) (n : BitVec 1) (a b : BitVec 4) (f g : BitVec 2) (c : BitVec 1) (zero : Bool) :
    Option Acts :=
  let v := s.bcast.toNat
  let limited : Bool := c = 1
  let ea := mxEdge f.toNat
  let eb := mxEdge g.toNat
  if ¬ IsBusy s .step ∧ TileReadable s a.toNat ∧ TileReadable s b.toNat ∧ ¬ IsBusy s (.accRead n.toNat) ∧
      (∀ x ∈ s.curCore.busy, x.reg = .accWrite n.toNat → s.now < x.free → x.byMma) ∧
      s.curCore.tileKind a.toNat = f.toNat + 1 ∧ s.curCore.tileKind b.toNat = g.toNat + 1 ∧
      (limited → v % 256 ≤ 128 ∧ v / 2 ^ 8 % 256 ≤ ea ∧ v / 2 ^ 16 % 256 ≤ eb) then
    some { does := { cls := 4, tag := t, bc := limited, lands := [flagged (2 ^ (16 + n.toNat))] },
           more := also s (fun k =>
             { withBusy s [(.step, 128, true), (.tileRead a.toNat, 129, true), (.tileRead b.toNat, 129, true),
                 (.accWrite n.toNat, 131, true)] k with
               mmas := k.mmas ++ [{ issue := s.now, acc := n.toNat, ta := a.toNat, tb := b.toNat, fa := f.toNat,
                                    fb := g.toNat, kl := limitOf limited (v % 256) 128,
                                    ml := limitOf limited (v / 2 ^ 8 % 256) ea, nl := limitOf limited (v / 2 ^ 16 % 256) eb,
                                    zero := zero, colA := [], colB := [], nibA := [], nibB := [], done := 0 }] }) }
  else none

/-- The registers that TREL names, tiles 0 to 15 and accumulators at 16 and 17 (R220). -/
def namedBy (v : Word) : List Nat := (List.range 18).filter (fun i => v.getLsbD i)

/-- Tile loads and stores, multiply-accumulates, the tile configuration, releases and zeroing, and the transfers between queues
and tiles, each where its checks pass and its tiles are free. -/
def rowTile (s : State) : Instr → Option Acts
  | .tld t u c r => tileAct s t u c r 0 12288 false
  | .tldX t u c r => tileAct s t u c r 0 12672 false
  | .tldSc t u c r => tileAct s t u c r 12288 384 false
  | .tst t u c r => tileAct s t u c r 0 12288 true
  | .tstX t u c r => tileAct s t u c r 0 12672 true
  | .tstSc t u c r => tileAct s t u c r 12288 384 true
  | .mma t n a b f g c => product s t n a b f g c false
  | .mmaz t n a b f g c => product s t n a b f g c true
  | .tcfg t r =>
    if (∀ i ∈ List.range 16, TileWritable s i) ∧ s.curCore.tinuse.toNat % 2 ^ 16 = 0 then
      some { does := { cls := 4, tag := t, lands := [(1, .tconf (BitVec.ofNat 32 (uw s r)))] } }
    else none
  | .trel t r =>
    if ∀ i ∈ namedBy (s.rs r), if i < 16 then TileWritable s i else AccWritable s (i - 16) then
      some { does := { cls := 4, tag := t,
                       lands := (namedBy (s.rs r)).map (fun i => if i < 16 then (1, .tile i 0 12672 0) else (1, .accZero (i - 16))) ++
                         [(1, .flagsClear (BitVec.ofNat 18 (uw s r)))] },
             more := also s (withBusy s ((namedBy (s.rs r)).map
               (fun i => (if i < 16 then .tileWrite i else .accWrite (i - 16), 2, false)))) }
    else none
  | .azero t n =>
    if AccWritable s n.toNat then
      some { does := { cls := 4, tag := t, lands := [(1, .accZero n.toNat), flagged (2 ^ (16 + n.toNat))] },
             more := also s (withBusy s [(.accWrite n.toNat, 2, false)]) }
    else none
  | .tzero t u =>
    if TileWritable s u.toNat then
      some { does := { cls := 4, tag := t, lands := [(1, .tile u.toNat 0 12672 0), flagged (2 ^ u.toNat)] },
             more := also s (withBusy s [(.tileWrite u.toNat, 2, false)]) }
    else none
  | .vtrd t v r u =>
    if uw s r < 48 ∧ TileReadable s u.toNat then
      some { does := { cls := 3, tag := t,
                       push := some (v.toNat, 4, (s.curCore.tileOf u.toNat).extractLsb' (2048 * uw s r) 2048) },
             more := also s (withBusy s [(.tileRead u.toNat, 1, false)]) }
    else none
  | .vtwr t v p r u =>
    if uw s r < 48 ∧ TileWritable s u.toNat then
      some { does := { cls := 3, tag := t, reads := [(v.toNat, p = 0)],
                       lands := [(4, .tile u.toNat (256 * uw s r) 256 (BitVec.ofNat 101376 (s.rq v.toNat).toNat)),
                         flagged (2 ^ u.toNat)] },
             more := also s (withBusy s [(.tileWrite u.toNat, 5, false)]) }
    else none
  | _ => none

/-! ## Accumulator read-out and transposes (R218, R222) -/

/-- The FP32 encoding in column j of row r of an accumulator. -/
def accElem (s : State) (n : BitVec 1) (r j : Nat) : Nat := (s.curCore.accRow n.toNat r).toNat / 2 ^ (32 * j) % 2 ^ 32

/-- A read-out of `rows` rows of `cols` columns from ROW and `col`: element e is the exact product of an accumulator element and
MUL, rounded by `f` (R218). -/
def readsOut (s : State) (t : BitVec 3) (n : BitVec 1) (u : BitVec 4) (r : BitVec 6) (rm : BitVec 3) (kind rows cols col w : Nat)
    (mbz : Bool) (f : Nat → Machine.Num → Nat) (tail : Nat) (bytes : Nat) : Option Acts :=
  let v := uw s r
  let row := v / 2 ^ 24 % 2 ^ 8
  if ¬ mbz ∧ v / 2 ^ 17 % 2 ^ 7 = 0 ∧ v % 2 ^ 11 = 0 ∧ row + rows ≤ 192 ∧ s.curCore.tileKind u.toNat = kind ∧
      AccReadable s n.toNat ∧ TileWritable s u.toNat then
    some { does := { cls := 4, tag := t,
                     draw := if rm = 4 then some (s.curCore.dpan.toNat, rows * cols) else none,
                     lands := [(8, .tile u.toNat 0 bytes (BitVec.ofNat 101376
                         (joinPieces w ((List.range (rows * cols)).map (fun e =>
                           f e (Machine.Num.mul (decodeF32 (accElem s n (row + e / cols) (col + e % cols))) (decodeF32 (v / 2 ^ 32))))) +
                          tail))),
                       flagged (2 ^ u.toNat)] },
           more := also s (withBusy s [(.accRead n.toNat, 1, false), (.tileWrite u.toNat, 9, false)]) }
  else none

/-- The raw read-outs: FP32 or BF16 encodings of whole rows. -/
def readsRaw (s : State) (t : BitVec 3) (n : BitVec 1) (u : BitVec 4) (r : BitVec 6) (rm : BitVec 3) (rows w frac : Nat) :
    Option Acts :=
  readsOut s t n u r rm 0 rows 192 0 w (uw s r / 2 ^ 11 % 2 ^ 6 != 0)
    (fun e x => x.round frac rm.toNat (s.ditherFor rm.toNat e)) 0 12288

/-- The MX read-outs: codes scaled by a table entry, and the index nibble of that entry for every block. -/
def readsMx (s : State) (t : BitVec 3) (n : BitVec 1) (u : BitVec 4) (r : BitVec 6) (rm : BitVec 3) (rows w fmt : Nat) :
    Option Acts :=
  let v := uw s r
  let entry := v / 2 ^ 12 % 16
  readsOut s t n u r rm (fmt + 1) rows 128 (64 * (v / 2 ^ 16 % 2)) w false
    (fun e x => lowBits (mxCode x (s.curCore.scaleEntry (v / 2 ^ 11 % 2) entry).toNat rm.toNat
      (s.ditherFor rm.toNat e) (mxBound fmt)) w)
    ((joinPieces 4 (List.replicate (4 * rows) entry)) * 2 ^ (8 * 12288)) (12288 + 2 * rows)

/-- Bit b of a transposed tile of elements of `w` bits: bit b mod w of element ρ of row k of the source, for line ρ and place k;
the sidecar is kept (R222). -/
def transposedBit (s : State) (c : BitVec 4) (w : Nat) (b : Nat) : Bool :=
  if b < 98304 then (s.curCore.tileOf c.toNat).getLsbD (768 * (b % (128 * w) / w) + w * (b / (128 * w)) + b % w)
  else (s.curCore.tileOf c.toNat).getLsbD b

/-- TTR. -/
def transposes (s : State) (t : BitVec 3) (u c : BitVec 4) (fmt w : Nat) : Option Acts :=
  if s.curCore.tileKind u.toNat = fmt + 1 ∧ TileReadable s c.toNat ∧ TileWritable s u.toNat then
    some { does := { cls := 4, tag := t,
                     lands := [(16, .tile u.toNat 0 12672 (bitsWhere 101376 (transposedBit s c w))), flagged (2 ^ u.toNat)] },
           more := also s (withBusy s [(.tileRead c.toNat, 1, false), (.tileWrite u.toNat, 17, false)]) }
  else none

/-- Read-outs and transposes, each where its checks pass and its tiles are free. -/
def rowReadOut (s : State) : Instr → Option Acts
  | .aoutF32 t n u r rm => readsRaw s t n u r rm 16 32 23
  | .aoutBf16 t n u r rm => readsRaw s t n u r rm 32 16 7
  | .aoutI8 t n u r rm => readsMx s t n u r rm 96 8 0
  | .aoutI6 t n u r rm => readsMx s t n u r rm 128 6 1
  | .aoutI4 t n u r rm => readsMx s t n u r rm 192 4 2
  | .ttrI8 t u c => transposes s t u c 0 8
  | .ttrI6 t u c => transposes s t u c 1 6
  | .ttrI4 t u c => transposes s t u c 2 4
  | _ => none

/-! ## The E slot (R325 to R351, R379) -/

/-- A slot of class E that changes only its core. -/
def engineAct (s : State) (t : BitVec 3) (lands : List (Nat × Land)) (f : Core → Core) : Acts :=
  { does := { cls := 6, tag := t, lands := lands }, more := also s f }

/-- The ring register of NEXT takes a word eight plies on, and the ring pointer moves on (R27, R350). -/
def ring (s : State) (v : Word) : List (Nat × Land) :=
  [(8, .ring (60 + s.curCore.ntrp.toNat) v), (0, .control 0x8C ((s.curCore.ntrp + 1).setWidth 64))]

/-- The arms in force of a slot end now (R344, R346). -/
def endsArms (s : State) (slot : Nat) (l : List Arm) : List Arm :=
  l.map (fun a => if a.slot = slot ∧ a.ends = none then { a with ends := some s.now } else a)

/-- A lane of a descriptor, and two lanes as one word (R344). -/
def laneOf (s : State) (v : BitVec 9) (i : Nat) : Nat := (heads s 32 v.toNat).getD i 0
def wordOf (s : State) (v : BitVec 9) (i : Nat) : Word := BitVec.ofNat 64 (laneOf s v i + laneOf s v (i + 1) * 2 ^ 32)

/-- A wait whose condition a read has met: the bundle issues at the ply that the read gives, or later (R343, R380). -/
def ended (s : State) (t : BitVec 3) : Option Acts :=
  match s.curCore.wait with
  | some w =>
    (match w.ready with
     | some z => if z ≤ s.now then some { does := { cls := 6, tag := t } } else none
     | none => none)
  | none => none

/-- The unit that a GSUB targets, by its first physical core: the chip, the die or the cluster of the issuer for the levels 4, 3
and 2, a core of its cluster for the levels 1 and 0 (R379). -/
def unitOf (s : State) (lvl : BitVec 3) (i : BitVec 24) : Nat :=
  let m := s.pmap (chipOf s.cur.core)
  let l := m.logicalChip (chipOf s.cur.core)
  let k := m.logicalCore l (s.cur.core % 1536)
  let first := if lvl = 4 then 0 else if lvl = 3 then k / 64 * 64 else if lvl = 2 then k / 16 * 16 else k / 16 * 16 + i.toNat % 16
  1536 * chipOf s.cur.core + m.physCore l first

/-- The scope of the release that a GSUB is, and the plies from its issue to the acceptance of its record (R370, R379). -/
def submitDistance (lvl : BitVec 3) : Nat := if lvl = 4 then 3 else if lvl = 3 then 2 else 1
def submitPlies (lvl : BitVec 3) : Nat := if lvl = 4 then 40 else if lvl = 3 then 16 else 8

/-- GSUB, where its checks pass and its sequencer has room: the record waits for its unit, and its bytes are read four plies
after issue (R379). -/
def submits (s : State) (t lvl : BitVec 3) (x : BitVec 6) (y : BitVec 4) (i : BitVec 24) : Option Acts :=
  let n := s.cur.core
  let addr : Int := ((s.rc y).base : Int) + uw s x
  let home := ownHome s n (lowBits addr 64)
  let ctr := readNat (s.code n) (home + 16) 8
  let opc := readNat (s.code n) home 1
  let ident := slotIdent s 6 0
  let scope := submitDistance lvl
  let far := if lvl = 4 ∧ 0x0B ≤ opc ∧ opc ≤ 0x0E then 4 else scope
  let q := { plainRequest (s.rc y) addr 32 (if ctr = 0 then [0, 1] else [0, 1, 3]) with stays := true }
  if checkAccess s n q = none ∧ namesOwnCore s n addr ∧ (field (lowBits addr 64) 36 32 = 0 ∨ field (lowBits addr 64) 36 32 = 7) ∧
      (lvl.toNat ≤ 1 → unitOf s lvl i ≠ n) ∧
      (2 ≤ lvl.toNat → ((unitRecords s lvl.toNat (unitOf s lvl i)).filter (fun r => r.done.isNone)).length < 4) then
    some { does := { cls := 6, tag := t }, starts := some (12, far), release := some scope,
           more := fun u => also s (withOp { operation s 6 12 far 0 none with isOpen := true })
             { u with
               recs := u.recs ++
                 [{ ident := ident, lvl := lvl.toNat, unit := unitOf s lvl i, group := i.toNat / 16 % 4, addr := lowBits addr 64, home := home, who := n,
                    cap := s.rc y, caps := (List.range 16).map s.curCore.creg, host := none, raw := none,
                    readyAt := s.now + submitPlies lvl, accepted := none, tensors := [], leaves := [], children := 0,
                    stop := none, fault := none, held := [], latest := 0, done := none, op := slotOp s 6 }],
               accs := u.accs ++
                 [{ ident := slotIdent s 6 1, op := 0, core := n, rank := bundleRank n, order := s.seq * 8 + 6,
                    due := s.now + 4, landAt := s.now + 4, delayed := false, write := false,
                    spans := [{ addr := home, len := 32, off := 0 }], data := 0, capTag := none, dest := .record ident }] } }
  else none

/-- The E slot where its checks pass and no hold applies. -/
def rowEngine (s : State) : Instr → Option Acts
  | .chstop t ch =>
    some (engineAct s t [] (fun c =>
      if (s.curCore.chan ch.toNat).state = 1 ∧ (s.curCore.chan ch.toNat).stopAt = none then
        c.setChan ch.toNat { c.chan ch.toNat with stopAt := some s.now } else c))
  | .chwait t ch => if (s.curCore.chan ch.toNat).state = 1 then none else some { does := { cls := 6, tag := t } }
  | .chstart t x y ch =>
    let cap := s.rc y
    if (s.curCore.chan ch.toNat).state ≠ 1 ∧ cap.tag ∧ bit cap.perm 6 ∧ cap.otype = 0 then
      some { does := { cls := 6, tag := t }, starts := some (12, 0),
             more := fun u =>
               { also s (fun c =>
                   { c.setChan ch.toNat { c.chan ch.toNat with
                       state := 1, cap := cap, recOff := BitVec.ofNat 22 (uw s x), next := BitVec.ofNat 32 (uw s x / 2 ^ 32),
                       chain := 2 * s.nextId + 1, seq := s.seq, fetchOff := uw s x % 2 ^ 22, fetchAt := some (s.now + 4),
                       fetchDelayed := false, head := some (uw s x / 2 ^ 32), cur := none, tails := [], fault := none,
                       stopAt := none } with
                     ops := c.ops ++ [{ ident := 2 * s.nextId + 1, seq := s.seq, kinds := 12, dist := 0, isOpen := true, due := 0,
                                        acq := none }] }) u with nextId := s.nextId + 1 } }
    else none
  | .disarm t n => some (engineAct s t [] (fun c => { c with arms := endsArms s n.toNat c.arms }))
  | .arm t v p x n =>
    let kind := laneOf s v 4
    if laneOf s v 0 % 8 = 0 ∧ laneOf s v 0 < 0x400000 ∧ kind ≤ 2 ∧ (kind = 2 → x = 0) ∧
        (kind = 0 → entryCauses s s.cur.core (s.rc x) (wordOf s v 6) = []) ∧
        (kind = 1 → checkAccess s s.cur.core (storeRequest (s.rc x) (wordOf s v 6)) = none) then
      some { does := { cls := 6, tag := t, reads := [(v.toNat, p = 0)] },
             more := also s (fun c => { c with arms := endsArms s n.toNat c.arms ++
               [{ slot := n.toNat, off := laneOf s v 0, thr := wordOf s v 2, kind := kind, target := wordOf s v 6,
                  value := wordOf s v 8, code := BitVec.ofNat 16 (laneOf s v 8), since := s.now, ends := none }] }) }
    else none
  | .next t =>
    let i := s.curCore.ntcur.toNat
    let w := s.curCore.ntw.toNat
    some (engineAct s t
      (if i < s.curCore.ntend.toNat ∧ w ≠ 0 then
        ring s (BitVec.ofNat 64 (i / w % 2 ^ 20 * 2 ^ 20 + i % w)) ++ [(0, .control 0x88 (s.curCore.ntcur + s.curCore.ntstep))]
       else ring s (BitVec.twoPow 64 63)) id)
  | .nextt t =>
    let off := s.curCore.schbase.toNat + 8 * s.curCore.schcur.toNat
    if s.curCore.schlen.toNat ≤ s.curCore.schcur.toNat then some (engineAct s t (ring s (BitVec.twoPow 64 63)) id)
    else if off + 8 ≤ 0x400000 ∧ off % 8 = 0 then
      some { does := { cls := 6, tag := t,
                       lands := [(0, .control 0x8C ((s.curCore.ntrp + 1).setWidth 64)),
                         (0, .control 0x8F ((s.curCore.schcur + 1).setWidth 64))] },
             more := fun u => { u with accs := u.accs ++
               [{ ident := slotIdent s 6 0, op := slotOp s 6, core := s.cur.core, rank := bundleRank s.cur.core,
                  order := s.seq * 8 + 6, due := s.now + 4, landAt := s.now + 8, delayed := false, write := false,
                  spans := [{ addr := coreBase s.cur.core + off, len := 8, off := 0 }], data := 0, capTag := none,
                  dest := .ring (60 + s.curCore.ntrp.toNat) }] } }
    else none
  | .spawn t x y i =>
    let k := entryCore s s.cur.core (s.rc y) (s.rs x)
    let d := distance s.cur.core (coreBase k)
    if entryCauses s s.cur.core (s.rc y) (s.rs x) = [] ∧ (s.core k).isFree s.now then
      some { does := { cls := 6, tag := t }, release := some d,
             more := fun u => u.setCore k { u.core k with
               run := .running, runFrom := s.now + 1, pc := BitVec.ofNat 22 (uw s x), depth := 0, leaf := 0,
               nextIssue := s.now + performLag d + 2 + i.toNat, held := 0, wait := none } }
    else none
  | .cwait t _ _ _ => ended s t
  | .bwait t _ _ _ => ended s t
  | .gwait t _ _ => ended s t
  | .gsub t lvl x y i => submits s t lvl x y i
  | _ => none

end Sys2Proof.Safety

end
end

