-- ==== Sys2Proof/Safety/Flow.lean ====
section
/-! DEFINITION. What the manual gives the bundles that end a loop, decide a tree, yield, trap, or hold an illegal opcode, row by row,
for the statements: each row gives the whole state after a bundle of that one slot. -/

noncomputable section

namespace Sys2Proof.Safety

open Sys2Proof.Machine

/-! ## Trees (R21, R22, R25, R56 to R58) -/

/-- The shape of a tree: leaves, and tests with the child that a false test leads to and the child that a true one leads to. -/
inductive Shape where
  | leaf
  | test (k : Nat) (no yes : Shape)

/-- The shape that STRUCT gives from test i on, tests numbered in preorder, and the number after its last test (R56). -/
def shapeFrom (st : Nat) : Nat → Nat → Nat → Shape × Nat
  | 0, _, next => (.leaf, next)
  | n + 1, i, next =>
    let left := if st.testBit (2 * i) then shapeFrom st n next (next + 1) else (.leaf, next)
    let right := if st.testBit (2 * i + 1) then shapeFrom st n left.2 (left.2 + 1) else (.leaf, left.2)
    (.test i left.1 right.1, right.2)

/-- The number of leaves of a shape, and the leaf that the tests reach, numbered from the left (R22). -/
def Shape.leaves : Shape → Nat
  | .leaf => 1
  | .test _ no yes => no.leaves + yes.leaves
def Shape.reached (holds : Nat → Bool) : Shape → Nat
  | .leaf => 0
  | .test k no yes => if holds k then no.leaves + yes.reached holds else no.reached holds

/-- The value that a test compares with zero: a scalar register or a lane mask (R21, R57). -/
def tested (s : State) (test : BitVec 10) : Int :=
  if test.getLsbD 9 then (s.curCore.mreg (test.toNat / 2 ^ 3 % 2 ^ 4)).toInt else (s.curCore.sreg (test.toNat / 2 ^ 3 % 2 ^ 6)).toInt

/-- A tree that passes the checks of R58. -/
abbrev Sound (nt : BitVec 2) (st : BitVec 8) (tests : List (BitVec 10)) (offs : List (BitVec 8)) : Prop :=
  (shapeFrom st.toNat 4 0 1).2 = nt.toNat + 1 ∧ (∀ k < 8, st.getLsbD k → k / 2 ≤ nt.toNat) ∧
    (∀ k < 4, nt.toNat < k → tests.getD k 0 = 0) ∧ (∀ k < 4, nt.toNat < k → offs.getD k 0 = 0) ∧
    ∀ x ∈ tests, x.getLsbD 9 → x.getLsbD 8 = false ∧ x.getLsbD 7 = false

/-! ## Loop closes and pre-emption (R19, R20, R307, R392, R393) -/

/-- The stub of the first drain-table entry whose range holds an address. -/
def stubFor (s : State) (n a : Nat) : Option Nat :=
  let entry (k : Nat) : Nat := coreBase n + (s.core n).dtbase.toNat + 12 * k
  ((List.range (s.core n).dtlen.toNat).find? (fun k => readNat s.mem (entry k) 4 ≤ a && a < readNat s.mem (entry k + 4) 4)).map
    (fun k => readNat s.mem (entry k + 8) 4)

/-- A core at an iteration boundary from which it goes on at `next`, with its next bundle due at `issue`: at or after an announced
pre-emption ply, outside a handler, it goes to the stub, and DRPC and DROFF keep where and when it was to go on. -/
def diverting (s : State) (n next issue : Nat) (c : Core) : Core :=
  if c.prply ≠ BitVec.allOnes 64 ∧ c.prply.toNat ≤ s.now ∧ c.intrap = false ∧ c.diverted = false ∧ c.preDone = false then
    match stubFor s n next with
    | some stub =>
      { c with
        pc := BitVec.ofNat 22 stub, drpc := BitVec.ofNat 32 next, diverted := true, droff := BitVec.ofNat 64 issue - c.prply }
    | none => c
  else c

/-- A core that yields (R114, R349, R395): it is idle from the next ply on, the counter of its yield is kept, and after an announced
pre-emption ply it asks for a save from the next ply on. -/
def yielding (s : State) (c : Core) : Core :=
  let asks := c.prply ≠ BitVec.allOnes 64 ∧ c.prply.toNat ≤ s.now ∧ c.preDone = false
  { c with
    run := .idle
    idleFrom := s.now + 1
    yieldAdds := if c.yctr = 0 then c.yieldAdds else c.yieldAdds ++ [c.yctr]
    preDone := if asks then true else c.preDone
    saving := if asks then some { asked true (if c.diverted then 1 else 0) with next := s.now + 1 } else c.saving }

/-! ## Illegal slots (R23, R24, R32, R50 to R52, R174) -/

/-- The path tag in the word of a slot (R50), whatever its MAJOR: bits 31 to 29, bits 47 to 45 of an E slot, none in A and K slots. -/
def tagIn (cls : Nat) (w : BitVec 48) : BitVec 3 :=
  if cls = 1 ∨ cls = 5 then 0 else if cls = 6 then w.extractLsb' 45 3 else w.extractLsb' 29 3

/-- Whether a slot with a reserved operand (subcode 2) names the broadcast all the same: a V slot of a MAJOR of format VM that takes one
(R174), or an MMA or MMAZ with its C bit set (R215). -/
abbrev namesBroadcast (cls sub : Nat) (w : BitVec 48) : Prop :=
  sub = 2 ∧ ((cls = 3 ∧ (w.extractLsb' 23 6).toNat ∈ [13, 14, 19, 20, 34, 35, 45, 47, 48, 49, 50, 51]) ∨
    (cls = 4 ∧ (w.extractLsb' 23 6).toNat = 4 ∧ (w.extractLsb' 0 9).toNat ≤ 1 ∧ w.getLsbD 9 = true))

/-- Loop closes, trees, yields, traps and illegal opcodes, alone in their bundle. -/
def rowFlow (s : State) : Instr → Option State
  | .endloop t =>
    let n := s.cur.core
    let c := s.curCore
    let d := c.depth.toNat
    let e := c.loopEntry (d - 1)
    let issue := s.now + 1 + field s.cur.w 3 0
    if ¬ TagTaken t ∨ d = 0 then none
    else if 1 < e.count.toNat then
      if e.start.toNat < 2 ^ 22 then
        some (onCore (committed s (c.setLoopEntry (d - 1) { e with count := e.count - 1 }) e.start.toNat) n
          (diverting s n e.start.toNat issue))
      else none
    else some (onCore (committed s { c with depth := c.depth - 1 } (after s)) n (diverting s n (kept s) issue))
  | .tree nt st t0 t1 t2 t3 o1 o2 o3 o4 g z1 z0 =>
    if g = 0 ∧ z1 = 0 ∧ z0 = 0 ∧ Sound nt st [t0, t1, t2, t3] [o1, o2, o3, o4] then
      let holds (k : Nat) : Bool :=
        condition (BitVec.ofNat 3 ([t0, t1, t2, t3].getD k 0).toNat) (tested s ([t0, t1, t2, t3].getD k 0))
      let leaf := (shapeFrom st.toNat 4 0 1).1.reached holds
      let target : Int := s.bundleAddr + ([o1, o2, o3, o4].getD (leaf - 1) 0).toInt
      if leaf = 0 then some (committed s { s.curCore with leaf := 0 } (after s))
      else if 0 ≤ target ∧ target < 2 ^ 22 then some (committed s { s.curCore with leaf := BitVec.ofNat 3 leaf } target.toNat)
      else none
    else some (onCore s s.cur.core (trapped s 0x01 8 (some 0) 0 s.cur.bytes s.bundleAddr))
  | .yield t =>
    if TagTaken t then
      some (onCore (committed s s.curCore (kept s)) s.cur.core (fun c => { yielding s c with nextIssue := s.now + 1 }))
    else none
  | .trap t a n =>
    if TagTaken t then
      some (onCore (committed s s.curCore (after s)) s.cur.core (trapped s 0x13 n.toNat (some 0) 0 (s.rs a) (kept s)))
    else none
  | .illegalOpcode cls sub w =>
    if TagTaken (tagIn cls w) ∧ (namesBroadcast cls sub w → bit s.cur.w 22 = true) then
      some (onCore s s.cur.core (trapped s 0x03 sub (some cls) 0 (w.setWidth 64) s.bundleAddr))
    else
      some (onCore s s.cur.core (trapped s 0x01 (if TagTaken (tagIn cls w) then 7 else 6) (some cls) 0 s.cur.bytes s.bundleAddr))
  | _ => none

end Sys2Proof.Safety

end
end

