-- ==== Sys2Proof/Safety/Traps.lean ====
section
/-! DEFINITION. When a bundle of one slot traps at issue, and with what, for the statements: bad targets, encoding causes, queue
causes, and the checks of an access to the own scratchpad. -/

noncomputable section

namespace Sys2Proof.Safety

open Sys2Proof.Machine

/-- The state after the trap of the bundle being issued (R38): nothing of the bundle commits, and only the core changes. -/
def trapsWith (s : State) (num sub : Nat) (slot : Option Nat) (leaf : Nat) (tval : Word) : State :=
  onCore s s.cur.core (trapped s num sub slot leaf tval s.bundleAddr)

/-! ## Targets (R19, R41, R58, R108 to R112) -/

/-- The target of a redirect that is taken, and the leaf that chose it (0 without a tree). A loop opens at its skip target only with
a count of 0. -/
def takenTarget (s : State) : Instr → Option (Int × Nat)
  | .br t a c o => if TagTaken t ∧ condition c (sw s a) then some (s.bundleAddr + o.toInt, 0) else none
  | .jmp t o => if TagTaken t then some (s.bundleAddr + o.toInt, 0) else none
  | .call t o => if TagTaken t then some (s.bundleAddr + o.toInt, 0) else none
  | .jr t a => if TagTaken t then some (uw s a, 0) else none
  | .callr t _ a => if TagTaken t then some (uw s a, 0) else none
  | .loop t a o => if TagTaken t ∧ uw s a % 2 ^ 32 = 0 then some (s.bundleAddr + o.toInt, 0) else none
  | .loopi t n o => if TagTaken t ∧ n = 0 then some (s.bundleAddr + o.toInt, 0) else none
  | .tret t => if TagTaken t then some (s.curCore.tpc.toNat, 0) else none
  | .tree nt st t0 t1 t2 t3 o1 o2 o3 o4 g z1 z0 =>
    if g = 0 ∧ z1 = 0 ∧ z0 = 0 ∧ Sound nt st [t0, t1, t2, t3] [o1, o2, o3, o4] then
      let holds (k : Nat) : Bool :=
        condition (BitVec.ofNat 3 ([t0, t1, t2, t3].getD k 0).toNat) (tested s ([t0, t1, t2, t3].getD k 0))
      let leaf := (shapeFrom st.toNat 4 0 1).1.reached holds
      if leaf = 0 then none else some (s.bundleAddr + ([o1, o2, o3, o4].getD (leaf - 1) 0).toInt, leaf)
    else none
  | _ => none

/-- A target outside the code space (R108). -/
abbrev OutsideCode (x : Int) : Prop := x < 0 ∨ 2 ^ 22 ≤ x

/-! ## Encoding and queue causes (R48, R51, R136) -/

/-- What a bundle of one slot raises for its read ports, its tag or the broadcast: the number, the subcode, the slot and TVAL. -/
def slotEncoding (d : Does) (s : State) : Option (Nat × Nat × Option Nat × Word) :=
  if ¬ PortsFor s d.cls (distinct (d.reads.map Prod.fst)).length then some (0x01, 4, none, s.cur.bytes)
  else if ¬ TagTaken d.tag then some (0x01, 6, some d.cls, s.cur.bytes)
  else if d.bc = true ∧ bit s.cur.w 22 = false then some (0x01, 7, some d.cls, s.cur.bytes)
  else none

/-- What it raises for its queues, checked in ascending number: the first that fails is named. -/
def slotQueues (d : Does) (s : State) : Option (Nat × Nat × Option Nat × Word) :=
  let count (q : Nat) : Nat := (s.curCore.queue q).count.toNat
  let pops (q : Nat) : Nat := if d.pops.contains q then 1 else 0
  let pushes (q : Nat) : Nat := if ∃ p ∈ d.push, p.1 = q then 1 else 0
  let reads (q : Nat) : Bool := (d.reads.map Prod.fst).contains q
  ((List.range 512).findSome? (fun q =>
    if reads q = true ∧ count q = 0 then some (0x05, 1 - pops q, q)
    else if (reads q = true ∨ pushes q = 1) ∧ 2 < count q - pops q + pushes q then some (0x06, pushes q - 1, q)
    else none)).map (fun x => (x.1, x.2.1, some d.cls, BitVec.ofNat 64 x.2.2))

/-- Both, the encoding first. -/
def slotTraps (d : Does) (s : State) : Option (Nat × Nat × Option Nat × Word) := (slotEncoding d s).or (slotQueues d s)

/-- The slots that only read and write registers and queues, from all the tables. -/
def rowDoes (s : State) (i : Instr) : Option Does :=
  [row64, row32, rowConst, rowWalk, rowCap, rowVg, rowVm, rowConvert, rowMask, rowStream, rowCrystal, rowScale].findSome?
    (fun f => f s i)

/-! ## Checks of an access to the own scratchpad (R119, R263) -/

/-- The first check that an access fails, lowest cause first and within a cause lowest subcode first: the number and the subcode.
`perm` is 0 for a load and 1 for a store. -/
def ownCheck (s : State) (c : Cap) (addr : Int) (size perm : Nat) : Option (Nat × Nat) :=
  if c.tag = false then some (0x08, 0)
  else if addr < c.base ∨ (c.base : Int) + c.length < addr + size then some (0x09, 0)
  else if inOwnWindow0 s s.cur.core addr 0 = false then some (0x09, 3)
  else if spaceCovers c.space (addr.toNat / 2 ^ 32 % 32) = false then some (0x09, 4)
  else if bit c.perm perm = false then some (0x0A, perm)
  else if c.otype ≠ 0 then some (0x0B, 0)
  else if addr % size ≠ 0 then some (0x0C, 0)
  else none

/-- The scalar loads and stores of the own scratchpad: capability register, address, size and permission. -/
def ownAccessOf (s : State) : Instr → Option (BitVec 3 × BitVec 4 × Int × Nat × Nat)
  | .ldB t _ c o => some (t, c, ownOffset s c o 1, 1, 0)
  | .ldH t _ c o => some (t, c, ownOffset s c o 2, 2, 0)
  | .ldW t _ c o => some (t, c, ownOffset s c o 4, 4, 0)
  | .ldD t _ c o => some (t, c, ownOffset s c o 8, 8, 0)
  | .stB t _ c o => some (t, c, ownOffset s c o 1, 1, 1)
  | .stH t _ c o => some (t, c, ownOffset s c o 2, 2, 1)
  | .stW t _ c o => some (t, c, ownOffset s c o 4, 4, 1)
  | .stD t _ c o => some (t, c, ownOffset s c o 8, 8, 1)
  | _ => none

/-- No fence stands, and no operation in flight is an acquire: the order rules hold nothing but releases. -/
def Unordered (s : State) : Prop := s.curCore.fences = [] ∧ ∀ o ∈ s.curCore.ops, o.acq = none

end Sys2Proof.Safety

end
end

