-- ==== Sys2Proof/Safety/Bundles.lean ====
section
/-! DEFINITION. What the manual gives a bundle of several slots, for the statements: which slots take effect under a tree, how they
commit together, and which cause the part reports. -/

noncomputable section

namespace Sys2Proof.Safety

open Sys2Proof.Machine

/-- The bundle being issued, as its last slot finds it. -/
def atLastSlot (s : State) : State := { s with cur := { s.cur with left := 1 } }

/-- The tree of a bundle as its tests go: their number, the leaf reached, whether that leaf lies in the left subtree of the root, and
the target of a leaf from 1 on (R22). -/
structure Reached where
  tests : Nat
  leaf : Nat
  left : Bool
  target : Option Int

/-- What a tree slot that passes the checks of R58 reaches. -/
def reachedBy (s : State) : Instr → Option Reached
  | .tree nt st t0 t1 t2 t3 o1 o2 o3 o4 g z1 z0 =>
    if g = 0 ∧ z1 = 0 ∧ z0 = 0 ∧ Sound nt st [t0, t1, t2, t3] [o1, o2, o3, o4] then
      let holds (k : Nat) : Bool :=
        condition (BitVec.ofNat 3 ([t0, t1, t2, t3].getD k 0).toNat) (tested s ([t0, t1, t2, t3].getD k 0))
      let leaf := (shapeFrom st.toNat 4 0 1).1.reached holds
      some { tests := nt.toNat + 1, leaf := leaf, left := !holds 0,
             target := if leaf = 0 then none else some (s.bundleAddr + ([o1, o2, o3, o4].getD (leaf - 1) 0).toInt) }
    else none
  | _ => none

/-- Whether a path tag is illegal: one that names no leaf of the tree, and without a tree any from 2 on (R23). -/
def tagWrong (r : Option Reached) (t : BitVec 3) : Bool :=
  match r with
  | none => 2 ≤ t.toNat
  | some r => t.toNat ≤ 5 && r.tests + 1 < t.toNat

/-- Whether a slot with a path tag takes effect (R23). -/
def takesEffect (r : Option Reached) (t : BitVec 3) : Bool :=
  match r with
  | none => t.toNat ≤ 1
  | some r => t = 0 || (t.toNat ≤ 5 && t.toNat = r.leaf + 1) || (t = 6 && r.left) || (t = 7 && !r.left)

/-- The slots of a bundle that take effect. -/
def inEffect (r : Option Reached) (ds : List Does) : List Does := ds.filter (fun d => takesEffect r d.tag)

/-- The first queue, in ascending number, that a bundle reads empty or pushes over, with the cause, the subcode and the first slot that
names it (R136). -/
def queueTrap (s : State) (on : List Does) : Option (Nat × Nat × Option Nat × Word) :=
  (List.range 512).findSome? (fun q =>
    let count := (s.curCore.queue q).count.toNat
    let pops := if ∃ d ∈ on, q ∈ d.pops then 1 else 0
    let pushes := on.countP (fun d => d.push.any (fun p => p.1 = q))
    let reads := on.any (fun d => (d.reads.map Prod.fst).contains q)
    let slot := (on.find? (fun d => (d.reads.map Prod.fst).contains q || d.push.any (fun p => p.1 = q))).map Does.cls
    if reads = true ∧ count = 0 then some (0x05, 1 - pops, slot, BitVec.ofNat 64 q)
    else if (reads = true ∨ 1 ≤ pushes) ∧ 2 < count - pops + pushes then some (0x06, pushes - 1, slot, BitVec.ofNat 64 q)
    else none)

/-- What a bundle of slots that read and write registers and queues reports, the lowest number first (R10): its read ports, its write
ports, the path tags and the broadcast of every present slot (R24, R48, R49, R51); the queues of the slots in effect; the target. -/
def bundleTrap (s : State) (r : Option Reached) (ds : List Does) : Option (Nat × Nat × Option Nat × Word) :=
  if ∃ d ∈ ds, ¬ PortsFor s d.cls (distinct (d.reads.map Prod.fst)).length then some (0x01, 4, none, s.cur.bytes)
  else if 2 < ds.countP (fun d => d.push.isSome) then some (0x01, 5, none, s.cur.bytes)
  else match ds.find? (fun d => tagWrong r d.tag), ds.find? (fun d => d.bc && !bit s.cur.w 22) with
    | some d, _ => some (0x01, 6, some d.cls, s.cur.bytes)
    | none, some d => some (0x01, 7, some d.cls, s.cur.bytes)
    | none, none =>
      match queueTrap s (inEffect r ds), r.bind Reached.target with
      | some x, _ => some x
      | none, some x => if OutsideCode x then some (0x09, 2, some 0, BitVec.ofInt 64 x) else none
      | none, none => none

/-- The core after the slots of a bundle that take effect: every pop, every push in slot order, then the registers of one slot after
another, so that of two results for one register that land together the later slot's stays (R14, R29, R133). -/
def coreTogether (s : State) (on : List Does) : Core :=
  let c1 := popped (distinct (on.flatMap (fun d => (d.reads.filter Prod.snd).map Prod.fst))) s.curCore
  let c2 := on.foldl (fun c d => match d.push with | some p => pushing s d.cls p.1 p.2.1 p.2.2 c | none => c) c1
  on.foldl (fun c d =>
    let c := landing s d.cls d.lands c
    match d.draw with | some x => drawing s x.1 x.2 c | none => c) c2

/-- The state after a bundle of several slots: the trap that it reports, with nothing of it committed and the leaf in TCAUSE, or the
effects of its slots, and the leaf in the last-leaf register (R25). -/
def together (s : State) (r : Option Reached) (ds : List Does) : State :=
  match bundleTrap s r ds with
  | some x => trapsWith s x.1 x.2.1 x.2.2.1 ((r.map Reached.leaf).getD 0) x.2.2.2
  | none =>
    let c := coreTogether s (inEffect r ds)
    committed s (match r with | some r => { c with leaf := BitVec.ofNat 3 r.leaf } | none => c)
      (match r.bind Reached.target with | some x => x.toNat | none => after s)

/-- The loads of a vector into a queue (R277). -/
def loadsVector : Instr → Bool
  | .ldvW _ _ _ _ => true
  | .ldvsW _ _ _ _ => true
  | .ldvmW _ _ _ _ => true
  | .ldvsmW _ _ _ _ => true
  | _ => false

/-- Slots that read and write registers and queues, behind a tree or not, in slot order: what each does, of which only the last draws
values. -/
structure Slots (s : State) (tree : Option Instr) (is : List Instr) (r : Option Reached) (ds : List Does) : Prop where
  rows : is.map (rowDoes (atLastSlot s)) = ds.map some
  order : (ds.map Does.cls).Pairwise (· < ·)
  draws : ∀ d ∈ ds.dropLast, d.draw = none
  reached : (tree = none ∧ r = none) ∨ ∃ t, tree = some t ∧ r.isSome ∧ reachedBy s t = r ∧ ∀ d ∈ ds, d.cls ≠ 0
  left : s.cur.left = (tree.toList ++ is).length
  some : tree.toList ++ is ≠ []
  first : s.cur.outs = []
  whole : Alone (atLastSlot s)

end Sys2Proof.Safety

end
end

