-- ==== Sys2Proof/Safety/Holds.lean ====
section
/-! DEFINITION. When a bundle of one slot is held, what its held plies leave, and the waits that begin with a held ply, for the
statements (R31, R116, R192, R204, R274, R338, R343, R347, R379, R380, R390). -/

noncomputable section

namespace Sys2Proof.Safety

open Sys2Proof.Machine

/-- The state after a ply in which the bundle being issued was held: it reaches issue again at the next ply. -/
def heldOver (s : State) : State :=
  onCore s s.cur.core (fun c => { c with held := c.held + 1, nextIssue := s.now + 1 })

/-- A hold of the bundle at this ply too reaches WAITLIM. -/
abbrev AtLimit (s : State) : Prop := s.curCore.waitlim ≠ 0 ∧ s.curCore.waitlim.toNat ≤ s.curCore.held + 1

/-- The same state with every unit at rest: no tile or accumulator is busy, no channel runs, the wait of the bundle is met, every other
core is idle, and no sequencer holds a record. -/
def atRest (s : State) : State :=
  { s with cores := [], recs := [] }.setCore s.cur.core
    { s.curCore with busy := [], chans := [], wait := s.curCore.wait.map (fun (w : Wait) => { w with ready := some 0 }) }

/-- The rules of order hold the slot (R274), or FENCE.SEQ waits (R116). -/
def OrderHolds (s : State) (i : Instr) : Prop :=
  (∃ a : Acts, (rowOwn s i = some a ∨ rowVector s i = some a ∨ rowOrdered s i = some a ∨ rowTile s i = some a ∨ rowReadOut s i = some a ∨
      rowEngine s i = some a) ∧ a.does.ready s ∧ ¬ a.inOrder s) ∨
    ∃ t, i = .fenceSeq t ∧ TagTaken t ∧ rowJump s i = none

/-- A unit holds the slot, which would issue were every unit at rest: a busy tile or accumulator (R192, R204), a running channel (R333,
R338), a wait that no read has met (R343, R380), a core that is not idle (R347), or a full sequencer (R379). -/
def UnitHolds (s : State) (i : Instr) : Prop :=
  ∃ f ∈ [rowTile, rowReadOut, rowEngine], f s i = none ∧ ∃ a, f (atRest s) i = some a ∧ a.does.ready s

/-- A bundle of the slot is held. -/
def Held (s : State) (i : Instr) : Prop := OrderHolds s i ∨ UnitHolds s i

/-- A load that fills a queue has room there. -/
def HasRoom (s : State) (i : Instr) : Prop := ∀ a, rowVector s i = some a → ∀ q ∈ a.room, (s.curCore.queue q).count.toNat + 1 ≤ 2

/-! ## Waits (R343, R380) -/

/-- A wait that begins: its operands are sampled, its first read performs at p0 + T, and the bundle is held. -/
def waits (s : State) (t : BitVec 3) (x : BitVec 6) (y : BitVec 4) (kind : WaitKind) (off size : Nat) : Option State :=
  let n := s.cur.core
  let q := { plainRequest (s.rc y) (((s.rc y).base : Int) + off) size [0] with stays := true, atomic := true }
  if TagTaken t ∧ s.curCore.wait = none ∧ checkAccess s n q = none then
    let home := (homesOf s n q).headD 0
    let d := distance n home
    let k := 2 * s.nextId + 1
    some { onCore s n (fun c =>
        { c with
          wait := some { kind := kind, cmp := s.rs x, ident := k, lag := landLag d - performLag d, ready := none }
          held := c.held + 1
          nextIssue := s.now + 1 }) with
      accs := s.accs ++ [{ ident := k, op := k, core := n, rank := bundleRank n, order := s.seq * 8 + 6, due := s.now + performLag d,
                           landAt := s.now + performLag d, delayed := false, write := false,
                           spans := [{ addr := home, len := size, off := 0 }], data := 0, capTag := none, dest := .poll size }],
      nextId := s.nextId + 1 }
  else none

/-- CWAIT, BWAIT and GWAIT as their bundle first reaches issue. -/
def rowWait (s : State) : Instr → Option State
  | .cwait t x y k => waits s t x y .counter (8 * k.toNat) 8
  | .bwait t x y k => waits s t x y .barrier (16 * k.toNat) 16
  | .gwait t x y => waits s t x y .report (uw s x) 32
  | _ => none

/-- A hold that has lasted for WAITLIM plies ends in WATCHDOG, subcode 1 (R390): the bundle's slots are known and it is left to the row
of the hold limit, which runs next and reports it. -/
def EndsHeld (s : State) (i : Instr) : Prop :=
  ∃ o, let u := { s with cur := { s.cur with left := 0, outs := [o] } }
    exec i s = .next u ∧ nextAct u = .event (.waitWatchdog s.cur.core) ∧
      exec (.waitWatchdog s.cur.core) u = .next (trapsWith s 0x16 1 none 0 (s.curCore.waitlim.setWidth 64))

end Sys2Proof.Safety

end
end

