-- ==== Sys2Proof/Safety/Checks.lean ====
section
/-! DEFINITION. The checks that a slot of every family makes at issue, for the statements: which cause it raises, with which subcode and
TVAL, where its bundle passes the checks before it. -/

noncomputable section

namespace Sys2Proof.Safety

open Sys2Proof.Machine

/-! ## Accesses (R263, R264) -/

/-- Whether the CHIP of an address names the issuing chip. -/
def onOwnChip (s : State) (addr : Int) : Bool :=
  match chipName s s.cur.core (lowBits addr 64) with
  | .own _ => true
  | _ => false

/-- Whether the CHIP of an address names a group. -/
abbrev NamesGroup (addr : Int) : Prop := 0xF000 ≤ lowBits addr 64 / 2 ^ 48 ∧ lowBits addr 64 / 2 ^ 48 ≤ 0xFFFD

/-- The permissions that an access needs, lowest bit first: those of its kind, remote off the chip, multicast for a group. One that can
never leave the chip needs those of its kind alone. -/
def permissions (s : State) (q : Request) : List Nat :=
  q.perms ++ (if q.stays ∨ onOwnChip s q.addr then [] else [4]) ++ (if q.stays ∨ ¬ NamesGroup q.addr then [] else [5])

/-- Where resolution fails, with which subcode of PEER_ABSENT: an access that can never leave the chip names another, the rows of the
table, and an atomic outside windows 0 and 7. -/
def unresolved (s : State) (q : Request) : Option Nat :=
  if q.stays ∧ ¬ onOwnChip s q.addr then some 3
  else match resolve s s.cur.core (lowBits q.addr 64) q.size q.groupAllowed with
    | .error sub => some sub
    | .ok homes => if q.atomic ∧ ∃ h ∈ homes, addrWin h ≠ 0 then some 3 else none

/-- The first check that an access fails: the cause and the subcode. -/
def accessFails (s : State) (q : Request) : Option (Nat × Nat) :=
  let a := lowBits q.addr 64
  if q.cap.tag = false then some (0x08, 0)
  else if q.addr < q.cap.base ∨ (q.cap.base : Int) + q.cap.length < q.addr + q.size then some (0x09, 0)
  else if ∃ len ∈ q.ownOnly, inOwnWindow0 s s.cur.core q.addr len = false then some (0x09, 3)
  else if spaceCovers q.cap.space (a / 2 ^ 32 % 2 ^ 5) = false then some (0x09, 4)
  else match (permissions s q).find? (fun b => !bit q.cap.perm b) with
    | some b => some (0x0A, b)
    | none =>
      if ¬ q.stays ∧ slotsListed s s.cur.core a q.reply = false then some (0x0A, 8)
      else if q.cap.otype ≠ 0 then some (0x0B, 0)
      else if q.natural = false then some (0x0C, 0)
      else if q.shape = false then some (0x0C, 1)
      else match unresolved s q with
        | some sub => some (0x0D, sub)
        | none => if a / 2 ^ 32 = lowBits (q.addr + q.size - 1) 64 / 2 ^ 32 then none else some (0x0E, 0)

/-! ## The checks of a slot -/

/-- A cause: its number, its subcode and TVAL. -/
abbrev Raises := Nat × Nat × Word

/-- What a slot asks of its bundle, and the cause that its own checks raise. -/
structure Failing where
  does : Does
  cause : Raises

/-- The first cause of a list whose condition holds. -/
def firstCause (l : List (Bool × Raises)) : Option Raises := (l.find? (fun x => x.1)).map Prod.snd

/-- The lowest of several causes, by number and then by subcode (R10). -/
def lowest (l : List Raises) : Option Raises :=
  l.find? (fun x => l.all (fun y => x.1 < y.1 || (x.1 = y.1 && x.2.1 ≤ y.2.1)))

/-- The cause of an access, with the low 64 bits of its address in TVAL. -/
def accessRaises (s : State) (q : Request) : Option Raises :=
  (accessFails s q).map (fun x => (x.1, x.2, BitVec.ofInt 64 q.addr))

/-- A slot that fails the check of its access. -/
def access (s : State) (d : Does) (q : Request) : Option Failing := (accessRaises s q).map (fun c => { does := d, cause := c })

/-- A slot that raises a cause of its own. -/
def raises (d : Does) (c : Option Raises) : Option Failing := c.map (fun c => { does := d, cause := c })

/-- A slot of a class with a path tag. -/
def plainSlot (cls : Nat) (t : BitVec 3) : Does := { cls := cls, tag := t }

/-- A vector load, which counts as its push, and a vector store; with no active lane nothing is checked (R277, R278). -/
def vectorFails (s : State) (t : BitVec 3) (v : BitVec 9) (c : BitVec 4) (r : BitVec 6) (strided masked : Bool)
    (store : Option (BitVec 1)) : Option Failing :=
  let lanes := lanesOf s r strided masked
  if lanes = [] then none
  else
    access s
      (match store with
       | none => { cls := 2, tag := t, push := some (v.toNat, 0, 0) }
       | some p => { cls := 2, tag := t, reads := [(v.toNat, p = 0)] })
      (vectorRequest (s.rc c) lanes (if store.isSome then 1 else 0) (!strided && !masked)).1

/-- QPUSH and QPUSH.REL (R279). -/
def pushFails (s : State) (t : BitVec 3) (v : BitVec 9) (p : BitVec 1) (c : BitVec 4) (r : BitVec 6) : Option Failing :=
  access s { cls := 2, tag := t, reads := [(v.toNat, p = 0)] }
    { plainRequest (s.rc c) (((s.rc c).base : Int) + 256 * (uw s r % 512)) 256 [1] with groupAllowed := true }

/-- An atomic of the L slot, and a counter add (R281, R342). -/
def atomicFails (s : State) (t : BitVec 3) (c : BitVec 4) (r : BitVec 6) : Option Failing :=
  access s (plainSlot 2 t) { atScalar s c r [0, 1, 3] 8 with reply := true, atomic := true }
def addFails (s : State) (t : BitVec 3) (y : BitVec 4) (off size : Nat) : Option Failing :=
  access s (plainSlot 6 t) { plainRequest (s.rc y) (((s.rc y).base : Int) + off) size [0, 1, 3] with atomic := true }

/-- The checks of a derivation, with TVAL := s[S] (R288). -/
def deriveFails (s : State) (t : BitVec 3) (a : BitVec 4) (r : BitVec 6) (bad : Bool) (sub : Nat) : Option Failing :=
  let v := s.rs r
  raises (plainSlot 2 t) (firstCause [(!(s.rc a).tag, (0x08, 0, v)), (bad, (0x09, sub, v)), ((s.rc a).otype != 0, (0x0B, 0, v))])

/-- The checks of CSEAL and CUNSEAL (R288). -/
def sealFails (s : State) (t : BitVec 3) (d a : BitVec 4) (r : BitVec 6) (undo : Bool) : Option Failing :=
  let c := s.rc a
  let k := s.rc d
  let x := s.rs r
  let v := c.base + uw s r
  raises (plainSlot 2 t) (firstCause
    [(!c.tag, (0x08, 0, x)), (!k.tag, (0x08, 1, x)), (c.base + c.length ≤ v || v = 0 || 4096 ≤ v, (0x09, 7, x)),
     (!bit c.perm 7, (0x0A, 7, x)), (c.otype != 0, (0x0B, 0, x)),
     (if undo then k.otype != v else k.otype != 0, (0x0B, if undo then 2 else 1, x))])

/-- The checks of a tile move whose tile is free (R213). -/
def tileFails (s : State) (t : BitVec 3) (u c : BitVec 4) (r : BitVec 6) (size : Nat) (store : Bool) : Option Failing :=
  let addr : Int := ((s.rc c).base : Int) + uw s r
  if if store then TileReadable s u.toNat else TileWritable s u.toNat then
    access s (plainSlot 4 t)
      { plainRequest (s.rc c) addr size [if store then 1 else 0] with natural := addr % 64 = 0, shape := true, ownOnly := some size }
  else none

/-- TCONF and TINUSE, as TVAL gets them. -/
def tconfWord (s : State) : Word := s.curCore.tconf.setWidth 64
def tinuseWord (s : State) : Word := s.curCore.tinuse.setWidth 64

/-- The checks of MMA and MMAZ where no hold of R216 applies (R215). -/
def productFails (s : State) (t : BitVec 3) (n : BitVec 1) (a b : BitVec 4) (f g : BitVec 2) (c : BitVec 1) : Option Failing :=
  let v := s.bcast.toNat
  if ¬ IsBusy s .step ∧ TileReadable s a.toNat ∧ TileReadable s b.toNat ∧ ¬ IsBusy s (.accRead n.toNat) ∧
      (∀ x ∈ s.curCore.busy, x.reg = .accWrite n.toNat → s.now < x.free → x.byMma) then
    raises { plainSlot 4 t with bc := c = 1 } (firstCause
      [(s.curCore.tileKind a.toNat != f.toNat + 1, (0x10, 1, tconfWord s)),
       (s.curCore.tileKind b.toNat != g.toNat + 1, (0x10, 2, tconfWord s)),
       (c = 1 && (128 < v % 256 || mxEdge f.toNat < v / 2 ^ 8 % 256 || mxEdge g.toNat < v / 2 ^ 16 % 256), (0x10, 3, s.bcast))])
  else none

/-- The checks of a read-out of `rows` rows into a tile of a kind (R218): the must-be-zero fields of s[S], its rows, the kind. -/
def readOutFails (s : State) (t : BitVec 3) (n : BitVec 1) (u : BitVec 4) (r : BitVec 6) (rows kind : Nat) : Option Failing :=
  let v := uw s r
  let zeros := v / 2 ^ 17 % 2 ^ 7 = 0 && v % 2 ^ 11 = 0 && (kind != 0 || v / 2 ^ 11 % 2 ^ 6 = 0)
  if AccReadable s n.toNat ∧ TileWritable s u.toNat then
    raises (plainSlot 4 t) (firstCause
      [(!zeros || 192 < v / 2 ^ 24 % 2 ^ 8 + rows, (0x10, 4, s.rs r)), (s.curCore.tileKind u.toNat != kind, (0x10, 5, tconfWord s))])
  else none

/-- The check of a transpose (R222). -/
def transposeFails (s : State) (t : BitVec 3) (u c : BitVec 4) (f : Nat) : Option Failing :=
  if TileReadable s c.toNat ∧ TileWritable s u.toNat then
    raises (plainSlot 4 t) (firstCause [(s.curCore.tileKind u.toNat != f + 1, (0x10, 6, tconfWord s))])
  else none

/-- Brine registers' length tags, 3 bits each, and their pan masks, 16 bits each, in the order A, B, S. -/
def tagsWord (s : State) (l : List (BitVec 4)) : Word := BitVec.ofNat 64 (joinPieces 3 (l.map (fun r => (tagOf s r).toNat)))
def masksWord (s : State) (l : List (BitVec 4)) : Word := BitVec.ofNat 64 (joinPieces 16 (l.map (fun r => (pansOf s r).toNat)))

/-- A bitwise stream operation: its registers must have one length tag, and their masks must meet a requirement (R236, R243). -/
def streamFails (s : State) (t : BitVec 3) (l : List (BitVec 4)) (met : Bool) (sub : Nat) : Option Failing :=
  raises (plainSlot 7 t) (firstCause
    [(l.any (fun r => l.any (fun x => tagOf s r != tagOf s x)), (0x11, 0, tagsWord s l)), (!met, (0x12, sub, masksWord s l))])

/-- BMIN and BMAX need one common pan. -/
def oneCommonPan (s : State) (a b : BitVec 4) : Bool := pansOf s a = pansOf s b && onesOf 16 (pansOf s a).toNat = 1

/-- BDSLV: the part must exist, and a later part must go into a register of the length BLEN (R242). -/
def dissolveFails (s : State) (t : BitVec 3) (d : BitVec 4) (v : BitVec 9) (p : BitVec 1) (k : BitVec 3) : Option Failing :=
  let code := s.curCore.blenc
  raises { plainSlot 7 t with reads := [(v.toNat, p = 0)] } (firstCause
    [(partsOf code ≤ k.toNat, (0x11, 2, BitVec.ofNat 64 (code.toNat + 2 ^ 8 * k.toNat))),
     (k != 0 && tagOf s d != code, (0x11, 1, BitVec.ofNat 64 (code.toNat + 2 ^ 3 * (tagOf s d).toNat + 2 ^ 8 * k.toNat)))])

/-- BCRYSTP and BCRYSTPA: the part must exist (R245). -/
def crystalFails (s : State) (t : BitVec 3) (a : BitVec 4) (v : BitVec 9) (k : BitVec 3) (readV : Bool) : Option Failing :=
  raises { plainSlot 7 t with reads := if readV then [(v.toNat, true)] else [], push := some (v.toNat, 3, 0) } (firstCause
    [(partsOf (tagOf s a) ≤ k.toNat, (0x11, 2, BitVec.ofNat 64 ((tagOf s a).toNat + 2 ^ 8 * k.toNat)))])

/-- The causes of the entry of a spawn: its access, its window, and a target that is the issuing core (R347). -/
def entryRaises (s : State) (c : Cap) (entry : Word) : List Raises :=
  let q := entryRequest c entry
  (accessRaises s q).toList ++ (if entry.toNat / 2 ^ 32 % 2 ^ 5 = 0 then [] else [(0x0D, 3, entry)]) ++
    (if accessRaises s q = none ∧ entryCore s s.cur.core c entry = s.cur.core then [(0x14, 3, entry)] else [])

/-- The causes of ARM: its descriptor, and the target of a spawn or of a store (R344). -/
def armRaises (s : State) (v : BitVec 9) (x : BitVec 4) : List Raises :=
  let lane := laneOf s v
  let bad := lane 0 % 8 ≠ 0 ∨ 0x400000 ≤ lane 0 ∨ lane 4 % 4 = 3 ∨ 4 ≤ lane 4 ∨ (lane 4 % 4 = 2 ∧ x ≠ 0)
  (if bad then [(0x14, 0x10, BitVec.ofNat 64 (lane 4))] else []) ++
    (if lane 4 % 4 = 0 then entryRaises s (s.rc x) (wordOf s v 6)
     else if lane 4 % 4 = 1 then (accessRaises s (storeRequest (s.rc x) (wordOf s v 6))).toList else [])

/-- The causes of GSUB where its sequencer has room: the access of 32 bytes, which adds where the record names a counter, the window of
the issuing core, and a target that is the issuer (R379). -/
def submitRaises (s : State) (lvl : BitVec 3) (x : BitVec 6) (y : BitVec 4) (i : BitVec 24) : List Raises :=
  let n := s.cur.core
  let addr : Int := ((s.rc y).base : Int) + uw s x
  let a := lowBits addr 64
  let mine := namesOwnCore s n addr ∧ (a / 2 ^ 32 % 2 ^ 5 = 0 ∨ a / 2 ^ 32 % 2 ^ 5 = 7)
  let perms := if mine ∧ readNat (s.code n) (ownHome s n a + 16) 8 ≠ 0 then [0, 1, 3] else [0, 1]
  (accessRaises s { plainRequest (s.rc y) addr 32 perms with stays := true }).toList ++
    (if mine then [] else [(0x09, 3, BitVec.ofInt 64 addr)]) ++
    (if lvl.toNat ≤ 1 ∧ unitOf s lvl i = n then [(0x14, 3, BitVec.ofInt 64 addr)] else [])

/-- A wait whose counter or report fails its checks as the bundle first reaches issue (R343, R380). -/
def waitFails (s : State) (t : BitVec 3) (y : BitVec 4) (off size : Nat) : Option Failing :=
  if s.curCore.wait = none then
    access s (plainSlot 6 t) { plainRequest (s.rc y) (((s.rc y).base : Int) + off) size [0] with stays := true, atomic := true }
  else none

/-- The slots of all families that fail a check of their own, and what they raise. A slot that a unit holds raises nothing yet. -/
def rowFails (s : State) : Instr → Option Failing
  | .lpop t => raises (plainSlot 0 t) (firstCause [(s.curCore.depth = 0, (0x07, 1, 0))])
  | .endloop t => raises (plainSlot 0 t) (firstCause [(s.curCore.depth = 0, (0x07, 1, 0))])
  | .wstepL _ l => raises (plainSlot 1 0) (firstCause [(s.curCore.depth.toNat ≤ l.toNat, (0x07, 2, 0))])
  | .wtakeL _ _ => raises (plainSlot 1 0) (firstCause [(s.curCore.depth = 0, (0x07, 2, 0))])
  | .ldvW t v c r => vectorFails s t v c r false false none
  | .ldvsW t v c r => vectorFails s t v c r true false none
  | .ldvmW t v c r => vectorFails s t v c r false true none
  | .ldvsmW t v c r => vectorFails s t v c r true true none
  | .stvW t v p c r => vectorFails s t v c r false false (some p)
  | .stvsW t v p c r => vectorFails s t v c r true false (some p)
  | .stvmW t v p c r => vectorFails s t v c r false true (some p)
  | .stvsmW t v p c r => vectorFails s t v c r true true (some p)
  | .qpush t v p c r => pushFails s t v p c r
  | .qpushRel t v p c r _ => pushFails s t v p c r
  | .ldxD t _ c r _ _ => access s (plainSlot 2 t) { atScalar s c r [0] 8 with reply := true }
  | .stxD t _ c r _ _ => access s (plainSlot 2 t) { atScalar s c r [1] 8 with groupAllowed := true }
  | .cld t _ a r => access s (plainSlot 2 t) { atScalar s a r [0] 16 with reply := true }
  | .cst t _ a r => access s (plainSlot 2 t) (atScalar s a r [1] 16)
  | .aswapD t _ c r _ _ => atomicFails s t c r
  | .acasD t _ c r _ _ => atomicFails s t c r
  | .aaddD t _ c r _ _ => atomicFails s t c r
  | .aminD t _ c r _ _ => atomicFails s t c r
  | .amaxD t _ c r _ _ => atomicFails s t c r
  | .aandD t _ c r _ _ => atomicFails s t c r
  | .aorD t _ c r _ _ => atomicFails s t c r
  | .axorD t _ c r _ _ => atomicFails s t c r
  | .cbase t _ a r => deriveFails s t a r ((s.rc a).length < uw s r) 5
  | .clen t _ a r => deriveFails s t a r ((s.rc a).length < uw s r) 5
  | .cperms t _ a r => deriveFails s t a r false 0
  | .cspace t _ a r =>
    deriveFails s t a r ((8 ≤ uw s r % 16 && uw s r % 16 ≤ 14) || ((s.rc a).space != 15 && uw s r % 16 != (s.rc a).space)) 6
  | .cseal t d a r => sealFails s t d a r false
  | .cunseal t d a r => sealFails s t d a r true
  | .vtrd t v r u =>
    if TileReadable s u.toNat then
      raises { plainSlot 3 t with push := some (v.toNat, 4, 0) } (firstCause [(47 < uw s r, (0x10, 0x40, s.rs r))])
    else none
  | .vtwr t v p r u =>
    if TileWritable s u.toNat then
      raises { plainSlot 3 t with reads := [(v.toNat, p = 0)] } (firstCause [(47 < uw s r, (0x10, 0x40, s.rs r))])
    else none
  | .tld t u c r => tileFails s t u c r 12288 false
  | .tldX t u c r => tileFails s t u c r 12672 false
  | .tldSc t u c r => tileFails s t u c r 384 false
  | .tst t u c r => tileFails s t u c r 12288 true
  | .tstX t u c r => tileFails s t u c r 12672 true
  | .tstSc t u c r => tileFails s t u c r 384 true
  | .mma t n a b f g c => productFails s t n a b f g c
  | .mmaz t n a b f g c => productFails s t n a b f g c
  | .aoutF32 t n u r _ => readOutFails s t n u r 16 0
  | .aoutBf16 t n u r _ => readOutFails s t n u r 32 0
  | .aoutI8 t n u r _ => readOutFails s t n u r 96 1
  | .aoutI6 t n u r _ => readOutFails s t n u r 128 2
  | .aoutI4 t n u r _ => readOutFails s t n u r 192 3
  | .ttrI8 t u c => transposeFails s t u c 0
  | .ttrI6 t u c => transposeFails s t u c 1
  | .ttrI4 t u c => transposeFails s t u c 2
  | .tcfg t _ =>
    if ∀ i ∈ List.range 16, TileWritable s i then
      raises (plainSlot 4 t)
        (((List.range 16).find? (fun i => s.curCore.tinuse.getLsbD i)).map (fun i => (0x0F, i, tinuseWord s)))
    else none
  | .band t _ a b => streamFails s t [a, b] (pansOf s a &&& pansOf s b = 0) 0
  | .bxnor t _ a b => streamFails s t [a, b] (pansOf s a &&& pansOf s b = 0) 1
  | .bmux t _ a b r => streamFails s t [a, b, r] (pansOf s r &&& (pansOf s a ||| pansOf s b) = 0) 2
  | .bmin t _ a b => streamFails s t [a, b] (oneCommonPan s a b) 3
  | .bmax t _ a b => streamFails s t [a, b] (oneCommonPan s a b) 3
  | .bdslv t d v p _ k => dissolveFails s t d v p k
  | .bdslvBi t d v p _ k => dissolveFails s t d v p k
  | .bcrystp t a v k => crystalFails s t a v k false
  | .bcrystpa t a v k => crystalFails s t a v k true
  | .chstart t x y ch =>
    let cap := s.rc y
    if (s.curCore.chan ch.toNat).state = 1 then none
    else raises (plainSlot 6 t)
      (firstCause [(!cap.tag, (0x08, 0, s.rs x)), (!bit cap.perm 6, (0x0A, 6, s.rs x)), (cap.otype != 0, (0x0B, 0, s.rs x))])
  | .cadd t _ y i => addFails s t y (8 * i.toNat) 8
  | .badd t _ y i => addFails s t y (16 * i.toNat) 16
  | .arm t v p x _ => raises { plainSlot 6 t with reads := [(v.toNat, p = 0)] } (lowest (armRaises s v x))
  | .nextt t =>
    let off := s.curCore.schbase.toNat + 8 * s.curCore.schcur.toNat
    if s.curCore.schlen.toNat ≤ s.curCore.schcur.toNat then none
    else raises (plainSlot 6 t)
      (firstCause [(0x400000 ≤ off, (0x09, 3, BitVec.ofNat 64 off)), (off % 8 != 0, (0x0C, 0, BitVec.ofNat 64 off))])
  | .spawn t x y _ =>
    if uw s x / 2 ^ 32 % 2 ^ 5 ≠ 0 ∨ (∀ h ∈ homesOf s s.cur.core (entryRequest (s.rc y) (s.rs x)),
        addrCore h ≠ s.cur.core → (s.core (addrCore h)).isFree s.now) then
      raises (plainSlot 6 t) (lowest (entryRaises s (s.rc y) (s.rs x)))
    else none
  | .gsub t lvl x y i =>
    if 2 ≤ lvl.toNat → ((unitRecords s lvl.toNat (unitOf s lvl i)).filter (fun r => r.done.isNone)).length < 4 then
      raises (plainSlot 6 t) (lowest (submitRaises s lvl x y i))
    else none
  | .cwait t _ y k => waitFails s t y (8 * k.toNat) 8
  | .bwait t _ y k => waitFails s t y (16 * k.toNat) 16
  | .gwait t x y => waitFails s t y (uw s x) 32
  | _ => none

/-- No order rule can hold a slot: no fence stands, and every operation of the core is complete. -/
def Calm (s : State) : Prop := s.curCore.fences = [] ∧ ∀ o ∈ s.curCore.ops, o.waits s.now = false

end Sys2Proof.Safety

end
end

