-- ==== Sys2Proof/Safety/Classes.lean ====
section
/-! DEFINITION. The slot class of every slot instruction, in the order of the slots of a bundle (R42): C, A, L, V, M, K, E, B. -/

namespace Sys2Proof.Safety

/-- The class of a slot instruction, from 0 for C to 7 for B; none for the rows that are no slot. -/
def slotClass : Instr → Option Nat
  | .tree _ _ _ _ _ _ _ _ _ _ _ _ _ => some 0
  | .addI64 _ _ _ _ => some 0
  | .subI64 _ _ _ _ => some 0
  | .andI64 _ _ _ _ => some 0
  | .orI64 _ _ _ _ => some 0
  | .xorI64 _ _ _ _ => some 0
  | .andnI64 _ _ _ _ => some 0
  | .sllI64 _ _ _ _ => some 0
  | .srlI64 _ _ _ _ => some 0
  | .sraI64 _ _ _ _ => some 0
  | .mulI64 _ _ _ _ => some 0
  | .mulhI64 _ _ _ _ => some 0
  | .mulhuI64 _ _ _ _ => some 0
  | .addsI64 _ _ _ _ => some 0
  | .subsI64 _ _ _ _ => some 0
  | .addsuI64 _ _ _ _ => some 0
  | .subsuI64 _ _ _ _ => some 0
  | .minI64 _ _ _ _ => some 0
  | .maxI64 _ _ _ _ => some 0
  | .minuI64 _ _ _ _ => some 0
  | .maxuI64 _ _ _ _ => some 0
  | .clzI64 _ _ _ => some 0
  | .ctzI64 _ _ _ => some 0
  | .popcI64 _ _ _ => some 0
  | .addI32 _ _ _ _ => some 0
  | .subI32 _ _ _ _ => some 0
  | .andI32 _ _ _ _ => some 0
  | .orI32 _ _ _ _ => some 0
  | .xorI32 _ _ _ _ => some 0
  | .andnI32 _ _ _ _ => some 0
  | .sllI32 _ _ _ _ => some 0
  | .srlI32 _ _ _ _ => some 0
  | .sraI32 _ _ _ _ => some 0
  | .mulI32 _ _ _ _ => some 0
  | .mulhI32 _ _ _ _ => some 0
  | .mulhuI32 _ _ _ _ => some 0
  | .addsI32 _ _ _ _ => some 0
  | .subsI32 _ _ _ _ => some 0
  | .addsuI32 _ _ _ _ => some 0
  | .subsuI32 _ _ _ _ => some 0
  | .minI32 _ _ _ _ => some 0
  | .maxI32 _ _ _ _ => some 0
  | .minuI32 _ _ _ _ => some 0
  | .maxuI32 _ _ _ _ => some 0
  | .clzI32 _ _ _ => some 0
  | .ctzI32 _ _ _ => some 0
  | .popcI32 _ _ _ => some 0
  | .addiI64 _ _ _ _ => some 0
  | .addiI32 _ _ _ _ => some 0
  | .andiI64 _ _ _ _ => some 0
  | .oriI64 _ _ _ _ => some 0
  | .xoriI64 _ _ _ _ => some 0
  | .slliI64 _ _ _ _ => some 0
  | .srliI64 _ _ _ _ => some 0
  | .sraiI64 _ _ _ _ => some 0
  | .addsiI64 _ _ _ _ => some 0
  | .cmpEq _ _ _ _ => some 0
  | .cmpNe _ _ _ _ => some 0
  | .cmpLt _ _ _ _ => some 0
  | .cmpGe _ _ _ _ => some 0
  | .cmpLtu _ _ _ _ => some 0
  | .cmpGeu _ _ _ _ => some 0
  | .cmovNz _ _ _ _ => some 0
  | .cmovZ _ _ _ _ => some 0
  | .cmovLt _ _ _ _ => some 0
  | .cmovGe _ _ _ _ => some 0
  | .cmpiLt _ _ _ _ => some 0
  | .cmpiEq _ _ _ _ => some 0
  | .movi _ _ _ => some 0
  | .movsh _ _ _ => some 0
  | .mfc _ _ _ => some 0
  | .mtc _ _ _ => some 0
  | .br _ _ _ _ => some 0
  | .jmp _ _ => some 0
  | .call _ _ => some 0
  | .jr _ _ => some 0
  | .callr _ _ _ => some 0
  | .loop _ _ _ => some 0
  | .loopi _ _ _ => some 0
  | .endloop _ => some 0
  | .lpop _ => some 0
  | .tret _ => some 0
  | .yield _ => some 0
  | .trap _ _ _ => some 0
  | .fenceSeq _ => some 0
  | .wstep _ => some 1
  | .wstep1 _ => some 1
  | .wback _ => some 1
  | .wstepL _ _ => some 1
  | .wget _ _ => some 1
  | .wset _ _ => some 1
  | .wtake _ _ => some 1
  | .wtake1 _ _ => some 1
  | .wtakeL _ _ => some 1
  | .ldB _ _ _ _ => some 2
  | .ldH _ _ _ _ => some 2
  | .ldW _ _ _ _ => some 2
  | .ldD _ _ _ _ => some 2
  | .stB _ _ _ _ => some 2
  | .stH _ _ _ _ => some 2
  | .stW _ _ _ _ => some 2
  | .stD _ _ _ _ => some 2
  | .ldvW _ _ _ _ => some 2
  | .ldvsW _ _ _ _ => some 2
  | .ldvmW _ _ _ _ => some 2
  | .ldvsmW _ _ _ _ => some 2
  | .stvW _ _ _ _ _ => some 2
  | .stvsW _ _ _ _ _ => some 2
  | .stvmW _ _ _ _ _ => some 2
  | .stvsmW _ _ _ _ _ => some 2
  | .qpush _ _ _ _ _ => some 2
  | .qpushRel _ _ _ _ _ _ => some 2
  | .cld _ _ _ _ => some 2
  | .cst _ _ _ _ => some 2
  | .cbase _ _ _ _ => some 2
  | .clen _ _ _ _ => some 2
  | .cperms _ _ _ _ => some 2
  | .cspace _ _ _ _ => some 2
  | .cgetb _ _ _ => some 2
  | .cgeth _ _ _ => some 2
  | .cgett _ _ _ => some 2
  | .cmovc _ _ _ => some 2
  | .cclr _ _ => some 2
  | .cseal _ _ _ _ => some 2
  | .cunseal _ _ _ _ => some 2
  | .aswapD _ _ _ _ _ _ => some 2
  | .acasD _ _ _ _ _ _ => some 2
  | .aaddD _ _ _ _ _ _ => some 2
  | .aminD _ _ _ _ _ _ => some 2
  | .amaxD _ _ _ _ _ _ => some 2
  | .aandD _ _ _ _ _ _ => some 2
  | .aorD _ _ _ _ _ _ => some 2
  | .axorD _ _ _ _ _ _ => some 2
  | .ldxD _ _ _ _ _ _ => some 2
  | .stxD _ _ _ _ _ _ => some 2
  | .fence _ _ _ _ => some 2
  | .vaddI32 _ _ _ _ _ _ _ => some 3
  | .vsubI32 _ _ _ _ _ _ _ => some 3
  | .vaddI16 _ _ _ _ _ _ _ => some 3
  | .vsubI16 _ _ _ _ _ _ _ => some 3
  | .vaddI8 _ _ _ _ _ _ _ => some 3
  | .vaddsI32 _ _ _ _ _ _ _ => some 3
  | .vaddsI16 _ _ _ _ _ _ _ => some 3
  | .vaddsI8 _ _ _ _ _ _ _ => some 3
  | .vsubsI32 _ _ _ _ _ _ _ => some 3
  | .vmulI32 _ _ _ _ _ _ _ => some 3
  | .vmulhI32 _ _ _ _ _ _ _ => some 3
  | .vminI32 _ _ _ _ _ _ _ => some 3
  | .vmaxI32 _ _ _ _ _ _ _ => some 3
  | .vaddI32Bc _ _ _ _ _ => some 3
  | .vmulI32Bc _ _ _ _ _ => some 3
  | .vaddiI32 _ _ _ _ => some 3
  | .vandU32 _ _ _ _ _ _ _ => some 3
  | .vorU32 _ _ _ _ _ _ _ => some 3
  | .vxorU32 _ _ _ _ _ _ _ => some 3
  | .vandU32Bc _ _ _ _ _ => some 3
  | .vxorU32Bc _ _ _ _ _ => some 3
  | .vsllI32 _ _ _ _ => some 3
  | .vsrlI32 _ _ _ _ => some 3
  | .vsraI32 _ _ _ _ => some 3
  | .vaddF32 _ _ _ _ _ _ _ => some 3
  | .vsubF32 _ _ _ _ _ _ _ => some 3
  | .vmulF32 _ _ _ _ _ _ _ => some 3
  | .vfmaF32 _ _ _ _ _ _ _ => some 3
  | .vmaxF32 _ _ _ _ _ _ _ => some 3
  | .vminF32 _ _ _ _ _ _ _ => some 3
  | .vaddBf16 _ _ _ _ _ _ _ => some 3
  | .vsubBf16 _ _ _ _ _ _ _ => some 3
  | .vmulBf16 _ _ _ _ _ _ _ => some 3
  | .vfmaBf16 _ _ _ _ _ _ _ => some 3
  | .vaddF32Bc _ _ _ _ _ => some 3
  | .vmulF32Bc _ _ _ _ _ => some 3
  | .vcmpltI32 _ _ _ _ _ => some 3
  | .vcmpeqI32 _ _ _ _ _ => some 3
  | .vcmpleF32 _ _ _ _ _ => some 3
  | .vmergeU32 _ _ _ _ _ => some 3
  | .vcvtF32I32 _ _ _ _ => some 3
  | .vcvtF32U32 _ _ _ _ => some 3
  | .vcvtI32F32 _ _ _ _ => some 3
  | .vcvtU32F32 _ _ _ _ => some 3
  | .vcvtBf16F32 _ _ _ _ _ => some 3
  | .vcvtF32Bf16 _ _ _ _ => some 3
  | .vpacksI16I32 _ _ _ _ => some 3
  | .vpacksI8I32 _ _ _ _ => some 3
  | .vpacksU8I32 _ _ _ _ => some 3
  | .vrotg _ _ _ _ => some 3
  | .vrot _ _ _ _ _ => some 3
  | .vperm _ _ _ _ _ => some 3
  | .vbcast _ _ _ _ _ => some 3
  | .vredaddI32 _ _ _ _ _ => some 3
  | .vredaddF32 _ _ _ _ _ => some 3
  | .vredmaxF32 _ _ _ _ _ => some 3
  | .vscanaddF32 _ _ _ _ _ => some 3
  | .vmand _ _ _ _ => some 3
  | .vmor _ _ _ _ => some 3
  | .vmxor _ _ _ _ => some 3
  | .vmandn _ _ _ _ => some 3
  | .vmnot _ _ _ => some 3
  | .vmget _ _ _ => some 3
  | .vmset _ _ _ => some 3
  | .vmcnt _ _ _ => some 3
  | .vmfirst _ _ _ => some 3
  | .vmfromq _ _ _ _ => some 3
  | .vmtoq _ _ _ => some 3
  | .vlaneU32 _ _ _ _ _ _ => some 3
  | .vlaneI32 _ _ _ _ _ _ => some 3
  | .vsplatU32 _ _ _ => some 3
  | .vsplatU16 _ _ _ => some 3
  | .vsplatU8 _ _ _ => some 3
  | .vtrd _ _ _ _ => some 3
  | .vtwr _ _ _ _ _ => some 3
  | .tld _ _ _ _ => some 4
  | .tldX _ _ _ _ => some 4
  | .tldSc _ _ _ _ => some 4
  | .tst _ _ _ _ => some 4
  | .tstX _ _ _ _ => some 4
  | .tstSc _ _ _ _ => some 4
  | .mma _ _ _ _ _ _ _ => some 4
  | .mmaz _ _ _ _ _ _ _ => some 4
  | .aoutF32 _ _ _ _ _ => some 4
  | .aoutBf16 _ _ _ _ _ => some 4
  | .aoutI8 _ _ _ _ _ => some 4
  | .aoutI6 _ _ _ _ _ => some 4
  | .aoutI4 _ _ _ _ _ => some 4
  | .tcfg _ _ => some 4
  | .trel _ _ => some 4
  | .azero _ _ => some 4
  | .tzero _ _ => some 4
  | .ttrI8 _ _ _ => some 4
  | .ttrI6 _ _ _ => some 4
  | .ttrI4 _ _ _ => some 4
  | .scldA _ _ => some 5
  | .scldB _ _ => some 5
  | .scldqA _ _ => some 5
  | .scldqB _ _ => some 5
  | .scrstA => some 5
  | .scrstB => some 5
  | .kuniA _ => some 5
  | .kuniB _ => some 5
  | .pseed _ _ _ => some 7
  | .paux _ _ _ => some 7
  | .pgets _ _ _ => some 7
  | .pgeta _ _ _ => some 7
  | .bsetlen _ _ => some 7
  | .bdither _ _ => some 7
  | .bdslv _ _ _ _ _ _ => some 7
  | .bdslvBi _ _ _ _ _ _ => some 7
  | .bcryst _ _ _ => some 7
  | .bcrysta _ _ _ => some 7
  | .bcrystp _ _ _ _ => some 7
  | .bcrystpa _ _ _ _ => some 7
  | .bresalt _ _ _ _ => some 7
  | .band _ _ _ _ => some 7
  | .bxnor _ _ _ _ => some 7
  | .bmux _ _ _ _ _ => some 7
  | .bmin _ _ _ _ => some 7
  | .bmax _ _ _ _ => some 7
  | .bnot _ _ _ => some 7
  | .bmov _ _ _ => some 7
  | .bbern _ _ _ _ _ => some 7
  | .bcat _ _ _ _ _ => some 7
  | .chstart _ _ _ _ => some 6
  | .chstop _ _ => some 6
  | .chwait _ _ => some 6
  | .cwait _ _ _ _ => some 6
  | .bwait _ _ _ _ => some 6
  | .cadd _ _ _ _ => some 6
  | .badd _ _ _ _ => some 6
  | .arm _ _ _ _ _ => some 6
  | .disarm _ _ => some 6
  | .next _ => some 6
  | .nextt _ => some 6
  | .spawn _ _ _ _ => some 6
  | .gsub _ _ _ _ _ => some 6
  | .gwait _ _ _ => some 6
  | _ => none

end Sys2Proof.Safety
end

