-- ==== Sys2Proof/Safety/Encoding.lean ====
section
/-! DEFINITION. When a bundle of one slot traps for its control word, its extension bit, the checking scoreboard or its queues, for
the statements. -/

noncomputable section

namespace Sys2Proof.Safety

open Sys2Proof.Machine

/-- The bundle being issued has one slot, and no deferred event may be taken (R384). -/
structure Single (s : State) : Prop where
  last : s.cur.left = 1
  first : s.cur.outs = []
  header : s.cur.header ≠ 0
  fetched : s.cur.fetchFault = none
  quiet : s.curCore.takeable s.now = []

/-- The subcodes of ILLEGAL_BUNDLE that the control word and the length give, whatever the slot (R45, R47, R51). -/
def headerSub (s : State) : Option Nat :=
  let ports := portFields s.cur.w
  if s.cur.w / 2 ^ 28 % 8 ≠ 0 then some 0
  else if 64 < s.bundleAddr % 64 + s.cur.len then some 1
  else if ∃ c ∈ ports, 5 ≤ c then some 2
  else if ∃ c ∈ ports, portSlotPresent s.cur.header c = false then some 3
  else none

/-! ## The checking scoreboard (R30, R138, R238) -/

/-- Whether the bundle is checked. -/
abbrev Checked (s : State) : Prop := s.curCore.chksb = true ∨ bit s.cur.w 23 = true

/-- The plies after this one at which results land in a register of the core; none in s0 and m0 (R26, R143). -/
def awaited (s : State) (r : Reg) : List Nat :=
  if r = .scalar 0 ∨ r = .mask 0 then []
  else
    (((s.curCore.pend.filter (fun p => r ∈ p.what.regs)).map Pending.due) ++
      (s.accs.filter (fun x => x.core = s.cur.core ∧ x.dest.reg = some r)).map Access.landAt ++
      (s.atoms.filter (fun x => x.core = s.cur.core ∧ x.dest.map Reg.scalar = some r)).map Atom.landAt).filter (fun z => s.now < z)

/-- The landings on their way to a physical slot of a queue, each by the slot whose push it brings, numbered through the bundles
issued (R133). -/
def fillers (s : State) (q slot : Nat) : List Nat :=
  (s.curCore.pend.filter (fun p => p.what.fills q slot)).map (fun p => 8 * p.seq + p.slot + 1) ++
    (s.accs.filter (fun x => x.fills s.cur.core q slot)).map (fun x => x.order + 1)

/-- The head of a queue is reserved, and the landing of its own push is still on its way (R138). -/
abbrev HeadAwaited (s : State) (q : Nat) : Prop :=
  let h := (s.curCore.queue q).head.toNat
  1 ≤ (s.curCore.queue q).count.toNat ∧ mapGet 0 s.curCore.qown (2 * q + h) ∈ fillers s q h

/-- A vector access that reads a lane mask reads the one that its control scalar names (R276). -/
def maskOfControl (s : State) (r : BitVec 6) : Reg := .mask ((s.rs r).extractLsb' 60 4).toNat

/-- The registers that a slot reads, queues and the broadcast apart. -/
def sources (s : State) : Instr → List Reg
  | .addI64 _ _ a b | .subI64 _ _ a b | .andI64 _ _ a b | .orI64 _ _ a b | .xorI64 _ _ a b | .andnI64 _ _ a b | .sllI64 _ _ a b
  | .srlI64 _ _ a b | .sraI64 _ _ a b | .mulI64 _ _ a b | .mulhI64 _ _ a b | .mulhuI64 _ _ a b | .addsI64 _ _ a b | .subsI64 _ _ a b
  | .addsuI64 _ _ a b | .subsuI64 _ _ a b | .minI64 _ _ a b | .maxI64 _ _ a b | .minuI64 _ _ a b | .maxuI64 _ _ a b
  | .addI32 _ _ a b | .subI32 _ _ a b | .andI32 _ _ a b | .orI32 _ _ a b | .xorI32 _ _ a b | .andnI32 _ _ a b | .sllI32 _ _ a b
  | .srlI32 _ _ a b | .sraI32 _ _ a b | .mulI32 _ _ a b | .mulhI32 _ _ a b | .mulhuI32 _ _ a b | .addsI32 _ _ a b | .subsI32 _ _ a b
  | .addsuI32 _ _ a b | .subsuI32 _ _ a b | .minI32 _ _ a b | .maxI32 _ _ a b | .minuI32 _ _ a b | .maxuI32 _ _ a b
  | .cmpEq _ _ a b | .cmpNe _ _ a b | .cmpLt _ _ a b | .cmpGe _ _ a b | .cmpLtu _ _ a b | .cmpGeu _ _ a b =>
    [.scalar a.toNat, .scalar b.toNat]
  | .clzI64 _ _ a | .ctzI64 _ _ a | .popcI64 _ _ a | .clzI32 _ _ a | .ctzI32 _ _ a | .popcI32 _ _ a | .mtc _ a _ | .jr _ a
  | .callr _ _ a | .br _ a _ _ | .loop _ a _ | .trap _ a _ | .addiI64 _ _ a _ | .addiI32 _ _ a _ | .andiI64 _ _ a _ | .oriI64 _ _ a _
  | .xoriI64 _ _ a _ | .slliI64 _ _ a _ | .srliI64 _ _ a _ | .sraiI64 _ _ a _ | .addsiI64 _ _ a _ | .cmpiLt _ _ a _ | .cmpiEq _ _ a _ =>
    [.scalar a.toNat]
  | .cmovNz _ d a b | .cmovZ _ d a b | .cmovLt _ d a b | .cmovGe _ d a b => [.scalar a.toNat, .scalar b.toNat, .scalar d.toNat]
  | .movsh _ d _ => [.scalar d.toNat]
  | .mfc _ _ x =>
    [if 0x30 ≤ x.toNat ∧ x.toNat ≤ 0x3F then .walk ((x.toNat - 0x30) / 2)
     else if x.toNat = 0x4F then .mask s.curCore.msel.toNat else .control x.toNat]
  | .wstep w | .wstep1 w | .wback w | .wstepL w _ | .wget w _ | .wtake w _ | .wtake1 w _ | .wtakeL w _ => [.walk w.toNat]
  | .wset _ r | .vmset _ r _ | .vsplatU32 _ _ r | .vsplatU16 _ _ r | .vsplatU8 _ _ r | .vtrd _ _ r _ | .vtwr _ _ _ r _
  | .aoutF32 _ _ _ r _ | .aoutBf16 _ _ _ r _ | .aoutI8 _ _ _ r _ | .aoutI6 _ _ _ r _ | .aoutI4 _ _ _ r _ | .tcfg _ r | .trel _ r
  | .scldA _ r | .scldB _ r | .scldqA r _ | .scldqB r _ | .kuniA r | .kuniB r | .pseed _ _ r | .paux _ _ r => [.scalar r.toNat]
  | .ldB _ _ c _ | .ldH _ _ c _ | .ldW _ _ c _ | .ldD _ _ c _ => [.cap c.toNat]
  | .stB _ r c _ | .stH _ r c _ | .stW _ r c _ | .stD _ r c _ | .ldvW _ _ c r | .ldvsW _ _ c r | .stvW _ _ _ c r | .stvsW _ _ _ c r
  | .qpush _ _ _ c r | .qpushRel _ _ _ c r _ | .ldxD _ _ c r _ _ | .cld _ _ c r | .cbase _ _ c r | .clen _ _ c r | .cperms _ _ c r
  | .cspace _ _ c r | .tld _ _ c r | .tldX _ _ c r | .tldSc _ _ c r | .tst _ _ c r | .tstX _ _ c r | .tstSc _ _ c r
  | .chstart _ r c _ | .cadd _ r c _ | .badd _ r c _ | .spawn _ r c _ | .gsub _ _ r c _ => [.cap c.toNat, .scalar r.toNat]
  | .ldvmW _ _ c r | .ldvsmW _ _ c r | .stvmW _ _ _ c r | .stvsmW _ _ _ c r => [.cap c.toNat, .scalar r.toNat, maskOfControl s r]
  | .stxD _ d c r _ _ | .aswapD _ d c r _ _ | .aaddD _ d c r _ _ | .aminD _ d c r _ _ | .amaxD _ d c r _ _ | .aandD _ d c r _ _
  | .aorD _ d c r _ _ | .axorD _ d c r _ _ => [.cap c.toNat, .scalar r.toNat, .scalar d.toNat]
  | .acasD _ d c r _ _ => [.cap c.toNat, .scalar r.toNat, .scalar d.toNat, .scalar (d.toNat + 1)]
  | .cst _ d a r | .cseal _ d a r | .cunseal _ d a r => [.cap a.toNat, .cap d.toNat, .scalar r.toNat]
  | .cgetb _ a _ | .cgeth _ a _ | .cgett _ a _ | .cmovc _ _ a => [.cap a.toNat]
  | .cclr _ d => [.cap d.toNat]
  | .arm _ v _ x _ => if laneOf s v 4 % 4 ≤ 1 then [.cap x.toNat] else []
  | .vaddI32Bc _ _ _ _ m | .vmulI32Bc _ _ _ _ m | .vandU32Bc _ _ _ _ m | .vxorU32Bc _ _ _ _ m | .vaddF32Bc _ _ _ _ m
  | .vmulF32Bc _ _ _ _ m | .vmergeU32 _ _ _ _ m | .vrot _ _ _ _ m | .vperm _ _ _ _ m | .vbcast _ _ _ _ m | .vredaddI32 _ _ _ _ m
  | .vredaddF32 _ _ _ _ m | .vredmaxF32 _ _ _ _ m | .vscanaddF32 _ _ _ _ m | .vmget _ _ m | .vmcnt _ _ m | .vmfirst _ _ m
  | .vmtoq _ _ m => [.mask m.toNat]
  | .vmand _ _ a b | .vmor _ _ a b | .vmxor _ _ a b | .vmandn _ _ a b => [.mask a.toNat, .mask b.toNat]
  | .vmnot _ _ a => [.mask a.toNat]
  | .bdslv _ d _ _ _ k | .bdslvBi _ d _ _ _ k => if k = 0 then [] else [.brine d.toNat]
  | .bcryst _ a _ | .bcrysta _ a _ | .bcrystp _ a _ _ | .bcrystpa _ a _ _ | .bresalt _ _ a _ | .bnot _ _ a | .bmov _ _ a =>
    [.brine a.toNat]
  | .band _ _ a b | .bxnor _ _ a b | .bmin _ _ a b | .bmax _ _ a b => [.brine a.toNat, .brine b.toNat]
  | .bmux _ _ a b r => [.brine a.toNat, .brine b.toNat, .brine r.toNat]
  | _ => []

/-- The registers that a load or an atomic names for its result, each with its landing ply (R121, R266, R281, R351). -/
def fetches (s : State) : Instr → List (Reg × Nat)
  | .ldB _ d _ _ | .ldH _ d _ _ | .ldW _ d _ _ | .ldD _ d _ _ => [(.scalar d.toNat, s.now + 4)]
  | .ldxD _ d c r _ _ => (homesOf s s.cur.core { atScalar s c r [0] 8 with reply := true }).map
      (fun h => (.scalar d.toNat, (accessPlies s s.cur.core h true).2.1))
  | .cld _ d a r => (homesOf s s.cur.core { atScalar s a r [0] 16 with reply := true }).map
      (fun h => (.cap d.toNat, (accessPlies s s.cur.core h true).2.1))
  | .aswapD _ d c r _ _ | .acasD _ d c r _ _ | .aaddD _ d c r _ _ | .aminD _ d c r _ _ | .amaxD _ d c r _ _ | .aandD _ d c r _ _
  | .aorD _ d c r _ _ | .axorD _ d c r _ _ => (homesOf s s.cur.core { atScalar s c r [0, 1, 3] 8 with reply := true, atomic := true }).map
      (fun h => (.scalar d.toNat, (accessPlies s s.cur.core h true).2.1))
  | .nextt _ =>
    if s.curCore.schlen.toNat ≤ s.curCore.schcur.toNat then [] else [(.scalar (60 + s.curCore.ntrp.toNat), s.now + 8)]
  | _ => []

/-- STALL_SHORT, subcode 0: a read of a register, of the broadcast or of a queue head whose result is still on its way. -/
abbrev ReadsTooSoon (s : State) (i : Instr) (d : Does) : Prop :=
  (∃ r ∈ d.reads, HeadAwaited s r.1) ∨
    ∃ r ∈ sources s i ++ (if d.bc then [.scalar (s.cur.w / 2 ^ 16 % 64)] else []), awaited s r ≠ []

/-- STALL_SHORT, subcode 1: a write that would land no later than a result still on its way to the register, or a push into a slot
that one is still on its way to. -/
abbrev WritesTooSoon (s : State) (i : Instr) (d : Does) : Prop :=
  (∃ w ∈ d.lands.flatMap (fun l => l.2.regs.map (fun r => (r, s.now + l.1))) ++ fetches s i, ∃ z ∈ awaited s w.1, w.2 ≤ z) ∨
    ∃ p ∈ d.push, fillers s p.1 (if d.pops.contains p.1 then (s.curCore.queue p.1).pop else s.curCore.queue p.1).pushSlot ≠ []

/-! ## The causes of one slot -/

/-- What a bundle of one slot raises before its own checks, the lowest number first (R10): ILLEGAL_BUNDLE, EXTENSION_ABSENT,
STALL_SHORT of a checked bundle, and the queues. -/
def loneTraps (s : State) (i : Instr) (d : Does) : Option (Nat × Nat × Option Nat × Word) :=
  match headerSub s, slotEncoding d s with
  | some k, _ => some (0x01, k, none, s.cur.bytes)
  | none, some x => some x
  | none, none =>
    if bit s.cur.w 31 = true then some (0x02, 0, none, s.cur.bytes)
    else if Checked s ∧ ReadsTooSoon s i d then some (0x04, 0, some d.cls, 0)
    else if Checked s ∧ WritesTooSoon s i d then some (0x04, 1, some d.cls, 0)
    else slotQueues d s

/-- The same of a bundle of one tree, and the leaf that TCAUSE gets: the control word, the checks of the tree (R58), EXT, and its tests,
which the scoreboard checks too. -/
def treeTraps (s : State) : Instr → Option (Nat × Nat × Option Nat × Word × Nat)
  | .tree nt st t0 t1 t2 t3 o1 o2 o3 o4 g z1 z0 =>
    let r := reachedBy s (.tree nt st t0 t1 t2 t3 o1 o2 o3 o4 g z1 z0)
    let leaf := (r.map Reached.leaf).getD 0
    let read (x : BitVec 10) : Reg := if x.getLsbD 9 then .mask (x.toNat / 2 ^ 3 % 2 ^ 4) else .scalar (x.toNat / 2 ^ 3 % 2 ^ 6)
    match headerSub s, r with
    | some k, _ => some (0x01, k, none, s.cur.bytes, leaf)
    | none, none => some (0x01, 8, some 0, s.cur.bytes, 0)
    | none, some _ =>
      if bit s.cur.w 31 = true then some (0x02, 0, none, s.cur.bytes, leaf)
      else if Checked s ∧ ∃ x ∈ [t0, t1, t2, t3].take (nt.toNat + 1), awaited s (read x) ≠ [] then
        some (0x04, 0, some 0, 0, leaf)
      else none
  | _ => none

/-- What the slots that end a loop, end a program, or trap ask of their bundle. -/
def flowDoes : Instr → Option Does
  | .endloop t | .yield t | .trap t _ _ => some { cls := 0, tag := t }
  | .illegalOpcode cls sub w => some { cls := cls, tag := tagIn cls w, bc := decide (namesBroadcast cls sub w) }
  | _ => none

/-- What a slot with further effects asks of its bundle: a load that fills a queue counts as its push (R277). -/
def Acts.asks (a : Acts) : Does := { a.does with push := (a.room.map (fun q => (q, 0, 0))).or a.does.push }

/-- A slot of the tables that no rule holds, and what it asks of its bundle. -/
inductive Asks (s : State) (i : Instr) : Does → Prop where
  | plain (d : Does) (h : rowDoes s i = some d) : Asks s i d
  | flow (d : Does) (h : flowDoes i = some d) : Asks s i d
  | acts (a : Acts) (h : a ∈ [rowJump, rowOwn, rowVector, rowOrdered, rowTile, rowReadOut, rowEngine].filterMap (fun f => f s i))
      (o : a.inOrder s) : Asks s i a.asks

end Sys2Proof.Safety

end
end

