-- ==== Sys2Proof/Safety/Performs.lean ====
section
/-! DEFINITION. What the manual gives landings, accesses as they perform, atomics, leases and combines, row by row, for the statements:
each row gives the whole state after the event, so that it also says what the event leaves alone. -/

noncomputable section

namespace Sys2Proof.Safety

open Sys2Proof.Machine

/-! ## Landings (R14, R27, R29, R207) -/

/-- Whether a landing is seen from the next ply on only: in a tile or an accumulator. -/
def landsLate : Land → Bool
  | .tile _ _ _ _ => true
  | .accZero _ => true
  | _ => false

/-- Whether a landing is that of NEXT or NEXTT. -/
def landsInRing : Land → Bool
  | .ring _ _ => true
  | _ => false

/-- The order of the landings of one ply (R27, R29): the ring last, else the earlier bundle first and then the lower slot. -/
def landsBefore (a b : Pending) : Bool :=
  if landsInRing a.what = landsInRing b.what then a.seq < b.seq || (a.seq = b.seq && a.slot ≤ b.slot) else landsInRing b.what

/-- The order of the landings in tiles and accumulators (R207): those of the V slot last, else as above. -/
def landsBeforeLate (a b : Pending) : Bool :=
  if (a.slot = 3) ↔ (b.slot = 3) then a.seq < b.seq || (a.seq = b.seq && a.slot ≤ b.slot) else b.slot = 3

/-- A number of `n` bytes at byte `off` of another. -/
def inserted (x off n v : Nat) : Nat := x - x / 2 ^ (8 * off) % 2 ^ (8 * n) * 2 ^ (8 * off) + v % 2 ^ (8 * n) * 2 ^ (8 * off)

/-- A core with bits of CSDIRTY set, which a write to CSDIRTY at this ply leaves set (R200, R397). -/
def dirtied (bits : Nat) (c : Core) : Core :=
  { c with csdirty := c.csdirty ||| BitVec.ofNat 22 bits, csfresh := c.csfresh ||| BitVec.ofNat 22 bits }

/-- A core with bytes of a tile replaced. -/
def tiled (t off len v : Nat) (c : Core) : Core :=
  { c with tile := mapSet 0 c.tile t (BitVec.ofNat 101376 (inserted (c.tileOf t).toNat off len v)) }

/-- One result as it lands. A write of control state is that of `ControlRegisterWrites`. -/
def landed (s : State) (n : Nat) (l : Land) : State :=
  match l with
  | .control i v => csWrite s n i v
  | l => onCore s n (fun c =>
    match l with
    | .scalar r v => { c with s := if r = 0 then c.s else mapSet 0 c.s r v }
    | .ring r v => { c with s := if r = 0 then c.s else mapSet 0 c.s r v }
    | .mask m v => { c with m := if m = 0 then c.m else mapSet 0 c.m m v }
    | .cap k v => { c with c := mapSet Cap.null c.c k v }
    | .queue q slot v =>
      { dirtied (2 ^ (16 + q / 64)) c with
        q := mapSet VQueue.empty c.q q (if slot = 0 then { c.queue q with slot0 := v } else { c.queue q with slot1 := v }) }
    | .brine b v => { dirtied (2 ^ b) c with b := mapSet 0 c.b b v }
    | .scaleEntry side e v => c.setScale side e v
    | .scaleQuad side g v => (List.range 4).foldl (fun c i => c.setScale side (4 * g + i) (BitVec.ofNat 16 (v.toNat / 2 ^ (16 * i)))) c
    | .scaleReset side => (List.range 16).foldl (fun c e => c.setScale side e 0x3F80) c
    | .scaleUni side v => if side = 0 then { c with uniA := v } else { c with uniB := v }
    | .tile t off len v => tiled t off len v.toNat c
    | .accZero k => c.zeroAcc k
    | .flagsSet x => { c with tinuse := c.tinuse ||| x, tdirty := c.tdirty ||| x }
    | .flagsClear x => { c with tinuse := c.tinuse &&& ~~~x, tdirty := c.tdirty &&& ~~~x }
    | .tconf v => { c with tconf := v }
    | l => effective c l)

/-! ## Homes (R4, R139, R140, R200, R207, R238, R252 to R254, R258) -/

/-- No lease holds a granule that an access touches (R269). -/
abbrev Unleased (s : State) (x : Access) : Prop := ∀ p ∈ x.spans, ∀ l ∈ s.leases, ¬ (64 * l.line < p.addr + p.len ∧ p.addr < 64 * l.line + 64)

/-- An access is one that the address rules let through: no empty span, at most 256 bytes of a register window, and whole words of
window 5 (R252, R253). -/
abbrev Regular (x : Access) : Prop :=
  ∀ p ∈ x.spans, 0 < p.len ∧ (isMemory p.addr = false → p.len ≤ 256) ∧ (addrWin p.addr = 5 → addrOff p.addr % 8 = 0)

/-- The access that is due under a number. -/
def dueAccess (s : State) (k : Nat) : Option Access := s.accs.find? (fun x => x.ident = k && x.dueNow s)

/-- The state without an access. -/
def without (s : State) (x : Access) : State := { s with accs := s.accs.filter (fun y => y.ident ≠ x.ident) }

/-- The word at a byte of the window 5 of a core: control state, scalar registers, lane masks and capability registers (R252). -/
def registerWord (s : State) (n off : Nat) : Nat :=
  let c := s.core n
  if off < 0x800 then (csRead s n (off / 8)).toNat
  else if off < 0xA00 then (c.sreg ((off - 0x800) / 8)).toNat
  else if off < 0xA80 then (c.mreg ((off - 0xA00) / 8)).toNat
  else if 0x1000 ≤ off ∧ off < 0x1100 then (c.creg ((off - 0x1000) / 16)).bits.toNat / 2 ^ (64 * (off / 8 % 2)) % 2 ^ 64
  else 0

/-- The byte at an offset of a register window, as a load finds it: with the results of the ply in place (R14, R254). In the push region
of window 1 a load reads the head of the queue, or zero where it is empty, whatever the offset in its 256 bytes (R139). -/
def windowByte (s : State) (n win off i : Nat) : Nat :=
  let u := landedView s n
  let c := u.core n
  let b := off + i
  if win = 1 then
    (if off < 0x18000 then (if (c.queue (off / 256)).count = 0 then 0 else (c.headOf (off / 256)).toNat / 2 ^ (8 * i))
     else ((c.queue ((off - 0x20000) / 512)).slot (off / 256 % 2)).toNat / 2 ^ (8 * (off % 256 + i))) % 256
  else if win = 2 then (c.tileOf (off / 0x4000)).toNat / 2 ^ (8 * (off % 0x4000 + i)) % 256
  else if win = 3 then
    (c.accRow (off / 0x40000) ((off % 0x40000 + i) / 768)).toNat / 2 ^ (8 * ((off % 0x40000 + i) % 768)) % 256
  else if win = 4 then (c.breg (b / 8192)).toNat / 2 ^ (8 * (b % 8192)) % 256
  else if win = 5 then registerWord u n (b / 8 * 8) / 2 ^ (8 * (b % 8)) % 256
  else 0

/-- The number that `len` bytes from a home make. -/
def loaded (s : State) (a len : Nat) : Nat :=
  if isMemory a then numberAt s a len
  else ((List.range len).map (fun i => windowByte s (addrCore a) (addrWin a) (addrOff a) i * 2 ^ (8 * i))).sum

/-- The data of a read: the bytes of each span at their place. -/
def gathered (s : State) (x : Access) : Nat := x.spans.foldr (fun p v => loaded s p.addr p.len * 2 ^ (8 * p.off) ||| v) 0

/-- The tag that a capability load finds: of the 16 bytes in window 0, of the register in window 5 (R258). -/
def loadedTag (s : State) (a : Nat) : Bool :=
  if addrWin a = 0 then mapGet false s.tags (a / 16)
  else if addrWin a = 5 ∧ 0x1000 ≤ addrOff a ∧ addrOff a < 0x1100 then
    (((landedView s (addrCore a)).core (addrCore a)).creg ((addrOff a - 0x1000) / 16)).tag
  else false

/-- A tile or an accumulator marked in use and dirty (R200). -/
def marked (k : Nat) (c : Core) : Core :=
  { c with tinuse := c.tinuse ||| BitVec.ofNat 18 (2 ^ k), tdirty := c.tdirty ||| BitVec.ofNat 18 (2 ^ k) }

/-- The rows of an accumulator that bytes `o` to `o + len - 1` of its image touch, with those bytes replaced (R197). -/
def rowsStored (n o len v : Nat) (c : Core) : Core :=
  (List.range (len / 768 + 2)).foldl (fun c i =>
    let r := o / 768 + i
    let lo := max o (768 * r)
    let hi := min (o + len) (768 * r + 768)
    if lo < hi then
      c.setAccRow n r (BitVec.ofNat 6144 (inserted (c.accRow n r).toNat (lo - 768 * r) (hi - lo) (v / 2 ^ (8 * (lo - o)))))
    else c) c

/-- The brine registers that `len` bytes touch, with those bytes replaced, and their dirty flags (R238, R397). -/
def brineStored (o len v : Nat) (c : Core) : Core :=
  let r := o / 8192
  let first := min len (8192 - o % 8192)
  let one : Core := { c with b := mapSet 0 c.b r (BitVec.ofNat 65536 (inserted (c.breg r).toNat (o % 8192) first v)) }
  if first < len then
    { dirtied (2 ^ r + 2 ^ (r + 1)) one with
      b := mapSet 0 one.b (r + 1) (BitVec.ofNat 65536 (inserted (c.breg (r + 1)).toNat 0 (len - first) (v / 2 ^ (8 * first)))) }
  else dirtied (2 ^ r) one

/-- A push through window 1 (R139, R140): the next slot is filled and reserved; with two entries there the push is lost, and
QUEUE_OVERFLOW with subcode 2 is raised for the queue and the storing core. -/
def pushed (s : State) (n q : Nat) (v : Entry) (who : Nat) : State :=
  let u := (s.core n).queue q
  if 2 ≤ u.count.toNat then onCore s n (raising 0 0 (s.now + 1) 0x06 2 (BitVec.ofNat 64 (q + who * 2 ^ 32)))
  else onCore s n (fun c =>
    { dirtied (2 ^ (16 + q / 64)) c with
      q := mapSet VQueue.empty c.q q { (u.setSlot u.pushSlot v) with count := u.count + 1 }
      qown := mapSet 0 c.qown (2 * q + u.pushSlot) 0 })

/-- A store of `len` bytes of a number at a home: into memory, whose hidden tags it clears or, as a capability, writes, or into a register
window. The bytes of memory are `bytesAt`. -/
def stored (s : State) (a len v : Nat) (tag : Option Bool) (who : Nat) : State :=
  let n := addrCore a
  let off := addrOff a
  let win := addrWin a
  let w := v % 2 ^ (8 * len)
  if isMemory a then
    { s with tags := if win ≠ 0 then s.tags
        else (List.range ((a + len - 1) / 16 + 1 - a / 16)).foldl (fun t i => mapSet false t (a / 16 + i) (tag = some true)) s.tags }
  else if win = 1 then
    (if off < 0x18000 then pushed s n (off / 256) (BitVec.ofNat 2048 w) who
     else onCore s n (fun c =>
       let q := (off - 0x20000) / 512
       { dirtied (2 ^ (16 + q / 64)) c with
         q := mapSet VQueue.empty c.q q ((c.queue q).setSlot (off / 256 % 2)
           (BitVec.ofNat 2048 (inserted ((c.queue q).slot (off / 256 % 2)).toNat (off % 256) len w))) }))
  else if win = 2 then onCore s n (fun c => marked (off / 0x4000) (tiled (off / 0x4000) (off % 0x4000) len w c))
  else if win = 3 then onCore s n (fun c => marked (16 + off / 0x40000) (rowsStored (off / 0x40000) (off % 0x40000) len w c))
  else if win = 4 then onCore s n (brineStored off len w)
  else if win = 5 then
    (if off < 0x800 then csWrite s n (off / 8) (BitVec.ofNat 64 w)
     else if off < 0xA00 then onCore s n (fun c => c.setSreg ((off - 0x800) / 8) (BitVec.ofNat 64 w))
     else if off < 0xA80 then onCore s n (fun c => c.setMreg ((off - 0xA00) / 8) (BitVec.ofNat 64 w))
     else if 0x1000 ≤ off ∧ off < 0x1100 then onCore s n (fun c => c.setCreg ((off - 0x1000) / 16)
       { tag := decide (tag = some true ∧ len = 16)
         bits := BitVec.ofNat 128 (inserted (c.creg ((off - 0x1000) / 16)).bits.toNat (off % 16) len w) })
     else s)
  else s

/-! ## Accesses as they perform -/

/-- The data that a write stores (R372, R484): one nibble of its byte, or the bytes of host staging, where it is such a write. -/
def writeData (s : State) (x : Access) : Nat :=
  let old := numberAt s ((x.spans.map Span.addr).headD 0) 1
  match x.dest with
  | .nibble high => if high then old % 16 + x.data.toNat % 16 * 16 else old / 16 * 16 + x.data.toNat % 16
  | .fromStaging chip off => readNat (s.chip chip).bar2 off ((x.spans.map Span.len).sum) % 2 ^ 2048
  | _ => x.data.toNat

/-- A write that performs: each span in its order; a faulted report is raised at its submitter from the next ply on (R378). A storing
issuer that is no core counts as core 0xFFFFFFFF (the model's choice, log 107). -/
def written (s : State) (x : Access) : State :=
  let v := writeData s x
  let who := if 2 ^ 34 ≤ x.rank then 0xFFFFFFFF else x.core
  let t := x.spans.foldl (fun t p => stored t p.addr p.len (v / 2 ^ (8 * p.off)) x.capTag who) (without s x)
  let u := match x.dest with
    | .report sub tval => onCore t x.core (raising 2 0 (s.now + 1) 0x15 sub tval)
    | _ => t
  { u with mem := writeBytes s.mem (x.spans.flatMap (fun p => if isMemory p.addr then bytesAt p.addr p.len (v / 2 ^ (8 * p.off)) else [])) }

/-- The next read of a wait, a ply on (R343). -/
def pollAgain (s : State) (x : Access) : State :=
  { s with
    accs := s.accs ++ [{ x with ident := 2 * s.nextId + 1, due := s.now + 1, landAt := s.now + 1, delayed := false }]
    nextId := s.nextId + 1 }

/-- Whether a value ends a wait: a counter has reached it, the phase of a barrier differs, a report stands (R343, R380). -/
def endsWait (w : Wait) (v : Nat) : Bool :=
  match w.kind with
  | .counter => w.cmp.toNat ≤ v % 2 ^ 64
  | .barrier => v / 2 ^ 96 % 2 ^ 32 != w.cmp.toNat % 2 ^ 32
  | .report => v % 256 = 0xFE || v % 256 = 0xFD

/-- A read of a wait (R343, R382): the wait ends `lag` plies later where the value ends it and no read of an earlier undelayed ply is
still to come, delayed by a lease; else the next read follows, which a delayed one has had already. -/
def polled (s : State) (x : Access) (v : Nat) : State :=
  match (s.core x.core).wait with
  | some w =>
    if w.ident ≠ x.op ∨ w.ready ≠ none then s
    else if endsWait w v ∧ ¬ ∃ y ∈ s.accs, y.delayed ∧ y.op = x.op ∧ y.ident ≠ x.ident ∧ y.due < (if x.delayed then x.due else x.due + 8) then
      onCore s x.core (fun c => { c with wait := some { w with ready := some (s.now + w.lag) } })
    else if x.delayed then s
    else pollAgain s x
  | none => s

/-- A result on its way to the core of an access. -/
def returning (s : State) (x : Access) (l : Land) : State :=
  onCore s x.core (fun c => { c with pend := c.pend ++ [{ due := x.landAt, seq := x.order / 8, slot := x.order % 8, what := l }] })

/-- A control state register as a restore writes it (R398): those that a program cannot set keep their value, but TCONF, TINUSE, and the
scale tables, which a restore writes. -/
def restoredControl (s : State) (n i : Nat) (v : Word) : State :=
  if i ∈ [0x00, 0x01, 0x53, 0x70, 0x71, 0x72, 0x74, 0x90, 0xA0, 0xA1, 0xA3, 0xA4, 0xA8, 0xAC] ∨ (0x41 ≤ i ∧ i ≤ 0x4D) ∨
      (0x80 ≤ i ∧ i ≤ 0x87) then s
  else if i = 0x50 then onCore s n (fun c => { c with tconf := v.setWidth 32 })
  else if i = 0x51 then onCore s n (fun c => { c with tinuse := v.setWidth 18 })
  else if 0x54 ≤ i ∧ i ≤ 0x5B then
    onCore s n (fun c => (List.range 4).foldl (fun c k =>
      c.setScale ((i - 0x54) / 4) (4 * ((i - 0x54) % 4) + k) (BitVec.ofNat 16 (v.toNat / 2 ^ (16 * k)))) c)
  else if i = 0x5C then onCore s n (fun c => { c with uniA := v.setWidth 5, uniB := BitVec.ofNat 5 (v.toNat / 2 ^ 8) })
  else csWrite s n i v

/-- One word of a core that a restore reads at an offset of the image of its window 5. -/
def restoredWord (s : State) (n off : Nat) (v : Word) (tag : Bool) : State :=
  if off < 0x800 then restoredControl s n (off / 8) v
  else if off < 0xA00 then onCore s n (fun c => c.setSreg ((off - 0x800) / 8) v)
  else if off < 0xA80 then onCore s n (fun c => c.setMreg ((off - 0xA00) / 8) v)
  else if 0x1000 ≤ off ∧ off < 0x1100 then
    onCore s n (fun c => c.setCreg ((off - 0x1000) / 16)
      { tag := tag
        bits := BitVec.ofNat 128 (inserted (c.creg ((off - 0x1000) / 16)).bits.toNat (8 * (off / 8 % 2)) 8 v.toNat) })
  else s

/-- A granule of the save area that a restore has read (R398): the header and the values of the saved events are kept for the start; the
rest goes to the queues, pans, channels, registers, banks, brine registers, tiles and accumulators from which a save takes it. -/
def restored (s : State) (n off v : Nat) (tagAt : Nat → Bool) : State :=
  let keep (f : Restore → Restore) : State :=
    match (s.core n).restoring with
    | some r => onCore s n (fun c => { c with restoring := some (f r) })
    | none => s
  if off < 0x40 then keep (fun r => { r with header := BitVec.ofNat 512 v })
  else if off < 0x80 then keep (fun r => { r with tvals := BitVec.ofNat 512 v })
  else if off < 0x200 then
    onCore s n (fun c => (List.range 64).foldl (fun c i =>
      let b := v / 2 ^ (8 * i) % 2 ^ 3
      c.setQueue (off - 0x80 + i) { c.queue (off - 0x80 + i) with
        head := BitVec.ofNat 1 (b / 4), count := BitVec.ofNat 2 (min 2 (b % 4)) }) c)
  else if off < 0x300 then
    onCore s n (fun c => (List.range 4).foldl (fun c i =>
      c.setPan ((off - 0x200) / 16 + i) { seed := BitVec.ofNat 64 (v / 2 ^ (128 * i)), ph := BitVec.ofNat 16 (v / 2 ^ (128 * i + 64)),
                                          scr := BitVec.ofNat 10 (v / 2 ^ (128 * i + 80)) }) c)
  else if off < 0x400 then
    let ch := (off - 0x300) / 64
    let state : BitVec 2 := BitVec.ofNat 2 (v / 2 ^ 64)
    let t := onCore s n (fun c => c.setChan ch { Chan.reset with
      state := state, sub := BitVec.ofNat 8 (v / 2 ^ 72), mode := (v / 2 ^ 64).testBit 2, recOff := BitVec.ofNat 22 v,
      next := BitVec.ofNat 32 (v / 2 ^ 32), cap := { tag := tagAt 2, bits := BitVec.ofNat 128 (v / 2 ^ 256) } })
    (match (s.core n).restoring with
     | some r =>
       if state = 2 then
         onCore t n (fun c => { c with restoring := some { r with offs := r.offs ++ [(ch, BitVec.ofNat 64 (v / 2 ^ 128))] } })
       else t
     | none => t)
  else if off < 0x4000 then
    (List.range 8).foldl (fun t i => restoredWord t n (off - 0x2000 + 8 * i) (BitVec.ofNat 64 (v / 2 ^ (64 * i))) (tagAt (i / 2))) s
  else if off < 0x34000 then
    let o := off - 0x4000
    onCore s n (fun c => c.setQueue (o / 512) ((c.queue (o / 512)).setSlot (o / 256 % 2)
      (BitVec.ofNat 2048 (inserted ((c.queue (o / 512)).slot (o / 256 % 2)).toNat (o % 256) 64 v))))
  else if off < 0x54000 then
    let o := off - 0x34000
    onCore s n (fun c => c.setBreg (o / 8192) (BitVec.ofNat 65536 (inserted (c.breg (o / 8192)).toNat (o % 8192) 64 v)))
  else if off < 0x94000 then onCore s n (tiled ((off - 0x54000) / 0x4000) ((off - 0x54000) % 0x4000) 64 v)
  else onCore s n (rowsStored ((off - 0x94000) / 0x24000) ((off - 0x94000) % 0x24000) 64 v)

/-- The data of a remote access is kept for its reply (R444). -/
def replyKept (s : State) (k v : Nat) : State :=
  if k ∈ s.served then { s with replies := mapPut s.replies k (BitVec.ofNat 2056 v) } else s

/-- A read that performs: its value goes where the access sends it. A copy is given where no destination is a push region. -/
def readBack (s : State) (x : Access) : Option State :=
  let t0 := without s x
  let v := gathered t0 x
  let first := (x.spans.map Span.addr).headD 0
  let tagged : Bool := (match x.dest with | .cap _ => true | _ => false) && loadedTag t0 first
  let t := replyKept t0 x.ident (v + if tagged then 2 ^ 128 else 0)
  match x.dest with
  | .nowhere => some t
  | .fromTile _ _ => some t
  | .scalar r size => some (if r = 0 then t else returning t x (.scalar r (BitVec.ofInt 64 (sext v (8 * size)))))
  | .ring r => some (returning t x (.ring r (BitVec.ofNat 64 v)))
  | .queue q slot _ => some (returning t x (.queue q slot (BitVec.ofNat 2048 v)))
  | .cap c => some (returning t x (.cap c { tag := tagged, bits := BitVec.ofNat 128 v }))
  | .tile u off => some (returning t x (.tile u off ((x.spans.map Span.len).headD 0) (BitVec.ofNat 101376 v)))
  | .poll _ => some (polled t x v)
  | .copy _ _ ts =>
    if ∀ d ∈ ts, ¬ (addrWin d.1 = 1 ∧ addrOff d.1 < 0x18000) then
      some { t with
        accs := t.accs ++ ts.mapIdx (fun j d => { x with
          ident := 2 * (s.nextId + j) + 1, order := s.nextId + j, due := d.2, landAt := d.2, delayed := false, write := true,
          spans := [{ addr := d.1, len := 64, off := 0 }], data := BitVec.ofNat 2048 v, dest := .nowhere })
        nextId := s.nextId + ts.length }
    else none
  | .restore off => some (restored t x.core off v (fun i => loadedTag t (first + 16 * i)))
  | .forward home lag =>
    some { t with
      accs := t.accs ++ [{ x with
        ident := 2 * s.nextId + 1, due := s.now + lag, landAt := s.now + lag, delayed := false, write := true,
        spans := [{ addr := home, len := 64, off := 0 }], data := BitVec.ofNat 2048 v, dest := .nowhere }]
      nextId := s.nextId + 1 }
  | _ => none

/-- An access that meets a leased granule performs, and lands, eight plies later, once; its operation is complete no earlier (R269, R273).
A wait reads on meanwhile (R382). -/
def postponed (s : State) (x : Access) : State :=
  let dest : Dest := match x.dest with | .copy ch row ts => .copy ch row (ts.map (fun d => (d.1, d.2 + 8))) | d => d
  let ends := match x.dest with
    | .copy _ _ ts => (ts.map (fun d => d.2 + 8)).foldl max (x.due + 8)
    | _ => if x.write then x.due + 8 else x.landAt + 8
  let t : State := { s with accs := s.accs.map (fun y =>
    if y.ident = x.ident then { x with due := x.due + 8, landAt := x.landAt + 8, delayed := true, dest := dest } else y) }
  let u := if ∃ o ∈ (s.core x.core).ops, o.ident = x.op then
      onCore t x.core (fun c => { c with ops := c.ops.map (fun o => if o.ident = x.op then { o with due := max o.due ends } else o) })
    else t
  match x.dest with
  | .poll _ => pollAgain u x
  | .counter _ => pollAgain u x
  | _ => u

/-- An access at its perform ply. A delayed read with atomics of its ply still to come on its lines (R268) is not given here. -/
def performs (s : State) (x : Access) : Option State :=
  if Regular x then
    if x.delayed = true ∧ ∃ a ∈ dueAtomics s, ∃ p ∈ x.spans, a.addr / 64 * 64 < p.addr + p.len ∧ p.addr < a.addr / 64 * 64 + 64 then none
    else if Unleased s x then (if x.write then some (written s x) else readBack s x)
    else if x.delayed = false then some (postponed s x)
    else none
  else none

/-- A signed code of `n` bits in line `i` of a sampled column. -/
def codeIn (col : BitVec 768) (n i : Nat) : Int := sext (col.toNat / 2 ^ (n * i)) n

/-- The exact sum of products that block β of a multiply-accumulate gives row i and column j (R216). -/
def blockSum (m : Mma) (i j : Nat) : Int :=
  (((List.range 32).map (fun k => 32 * m.done + k)).filter (fun k => k < m.kl)).foldl (fun v k =>
    v + codeIn (mapGet 0 m.colA k) (mxBits m.fa) i * codeIn (mapGet 0 m.colB k) (mxBits m.fb) j) 0

/-- The scale of a line: of the entry that its index nibble names, or of the uniform entry (R208). -/
def scaleIn (c : Core) (side : Nat) (uni : BitVec 5) (nibs : BitVec 768) (i : Nat) : Nat :=
  (c.scaleEntry side (if uni.getLsbD 4 then uni.toNat % 16 else nibs.toNat / 2 ^ (4 * i) % 16)).toNat

/-- The core after the combine of block `done` of a multiply-accumulate: each element of rows 0 to ML − 1 and columns 0 to NL − 1 is added its term, or in the
first block of MMAZ becomes it; past KL nothing changes. -/
def combined (m : Mma) (c : Core) : Core :=
  if m.kl ≤ 32 * m.done then c
  else (List.range m.ml).foldl (fun d i =>
    d.setAccRow m.acc i (BitVec.ofNat 6144 (joinPieces 32 ((List.range 192).map (fun j =>
      let old := (c.accRow m.acc i).toNat / 2 ^ (32 * j) % 2 ^ 32
      let term := blockTerm (blockSum m i j) (scaleIn c 0 c.uniA (mapGet 0 m.nibA m.done) i)
        (scaleIn c 1 c.uniB (mapGet 0 m.nibB m.done) j)
      if j < m.nl then (if m.zero = true ∧ m.done = 0 then term else f32Add old term) else old))))) c

/-- Whether a combine of a multiply-accumulate falls at this ply: its blocks combine 34, 66, 98 and 130 plies after its issue (R216). -/
abbrev Combines (s : State) (m : Mma) : Prop := m.done < 4 ∧ s.now = m.issue + 34 + 32 * m.done

/-- Landings, accesses, atomics, leases and combines. -/
def rowMemory (s : State) : Instr → Option State
  | .resultLanding n =>
    let due := (s.core n).pend.filter (fun p => p.due ≤ s.now)
    let early := due.filter (fun p => !landsLate p.what)
    let late := early.isEmpty
    let first := if late then sortBy landsBeforeLate (due.filter (fun p => landsLate p.what)) else sortBy landsBefore early
    some (first.foldl (fun t p => landed t n p.what)
      (onCore s n (fun c => { c with pend := c.pend.filter (fun p => ¬ (p.due ≤ s.now ∧ landsLate p.what = late)) })))
  | .memoryAccessPerform k =>
    match dueAccess s k with
    | some x => performs s x
    | none => none
  | .atomicExecute k =>
    match s.atoms.find? (fun x => x.ident = k && x.dueNow s) with
    | some a =>
      if a.addr % (if a.kind = .barrier then 16 else 8) = 0 then
        let old := lineBytes s (a.addr / 64) / 2 ^ (8 * (a.addr % 64)) % 2 ^ 64
        let t := afterAtomic { s with atoms := s.atoms.filter (fun x => x.ident ≠ k) } a.addr a.kind a.x a.y
        let u := if k ∈ s.served then
            { t with
              replies := mapPut t.replies k (BitVec.ofNat 2056 old)
              charges := s.charges ++ [{ chip := a.addr / 2 ^ 48, ply := s.now, tag := a.atag, pj := 150 }] }
          else t
        some (match a.dest with
          | some r => onCore u a.core (fun c => { c with pend := c.pend ++
              [{ due := a.landAt, seq := a.order / 8, slot := a.order % 8, what := .scalar r (BitVec.ofNat 64 old) }] })
          | none => u)
      else none
    | none => none
  | .leaseExpiry d line =>
    if ∃ l ∈ s.leases, l.die = d ∧ l.line = line ∧ (l.start + 512 ≤ s.now ∨
        (l.start < s.now ∧ ∃ x ∈ s.accs, x.delayed ∧ x.due ≤ s.now ∧ ∃ p ∈ x.spans, 0 < p.len ∧
          p.addr / 64 ≤ line ∧ line ≤ (p.addr + p.len - 1) / 64)) then
      some (broughtHome s line)
    else none
  | .tileChunkMove n =>
    let due := s.accs.filter (fun x => x.core = n ∧ x.due ≤ s.now)
    let loads := due.filter (fun x => match x.dest with | .tile _ _ => true | _ => false)
    let stores := due.filter (fun x => match x.dest with | .fromTile _ _ => true | _ => false)
    let now := if loads = [] then stores else loads
    match now.find? (fun x => now.all (fun y => x.order ≤ y.order)) with
    | some x => performs s x
    | none => none
  | .matrixCombine n =>
    some (onCore s n (fun c => { c.mmas.foldl (fun d m => if Combines s m then combined m d else d) c with
      mmas := (c.mmas.map (fun m => if Combines s m then { m with done := m.done + 1 } else m)).filter (fun m => m.done ≠ 4) }))
  | _ => none

end Sys2Proof.Safety

end
end

