-- ==== Sys2Proof/Safety/Pod.lean ====
section
/-! DEFINITION. What the manual gives the events of links, packages and the host, row by row, for the statements: each row gives
the whole state after the event. -/

noncomputable section

namespace Sys2Proof.Safety

open Sys2Proof.Machine

/-- The state with a change of one port, of its engine, or of one package, and nothing else changed. -/
def onPort (s : State) (p : Nat) (f : Port → Port) : State := s.setPort p (f (s.port p))
def onEngine (s : State) (p : Nat) (f : LinkEngine → LinkEngine) : State :=
  onPort s p (fun v => { v with engine := f v.engine })
def onChip (s : State) (k : Nat) (f : Chip → Chip) : State := s.setChip k (f (s.chip k))

/-! ## Messages (R421, R431) -/

/-- The fields of a message: MKIND, ARG8, ORIGIN, ARG32, PLY. -/
def kindIn (b : BitVec 128) : Nat := b.toNat % 2 ^ 8
def argIn (b : BitVec 128) : Nat := b.toNat / 2 ^ 8 % 2 ^ 8
def originIn (b : BitVec 128) : Nat := b.toNat / 2 ^ 16 % 2 ^ 16
def longArgIn (b : BitVec 128) : Nat := b.toNat / 2 ^ 32 % 2 ^ 32
def plyIn (b : BitVec 128) : Nat := b.toNat / 2 ^ 64

/-- A message of the given fields. -/
def messageOf (kind arg origin longArg ply : Nat) : BitVec 128 :=
  BitVec.ofNat 128 (kind % 2 ^ 8 + arg % 2 ^ 8 * 2 ^ 8 + origin % 2 ^ 16 * 2 ^ 16 + longArg % 2 ^ 32 * 2 ^ 32 + ply % 2 ^ 64 * 2 ^ 64)

/-- The first message of a kind that a package has received. -/
def received (s : State) (kind chip : Nat) : Option InMsg :=
  s.inMsgs.find? (fun m => m.ply ≤ s.now ∧ kindIn m.bits = kind ∧ m.chip = chip)

/-- The message taken from those received. -/
def takenOff (s : State) (m : InMsg) : State := { s with inMsgs := s.inMsgs.erase m }

/-- The ports of a package whose links have an end of the tree: 1 the parent end, 2 the child end (R428). -/
def treePorts (s : State) (chip : Nat) (role : BitVec 2) : List Nat :=
  ((s.ports.map Prod.fst).filter (fun p => p / 12 = chip)).filter (fun p => (s.port p).role = role)

/-- A message for the message field of a port, from a ply on; it came from a pod port, or is the chip's own (12). -/
def waiting (p src ready : Nat) (down : Bool) (bits : BitVec 128) : OutMsg :=
  { port := p, src := src, ready := ready, down := down, bits := bits }

/-- The pod port over which a chip has received a message; 12 for its own. -/
def sourceOf (m : InMsg) : Nat := match m.port with | some p => p % 12 | none => 12

/-- A message goes down the tree, to every child; the root sends downward messages at least 64 plies apart. -/
def sentDown (s : State) (chip ready : Nat) (bits : BitVec 128) : State :=
  let at0 := if chip = s.root then (match (s.chip chip).lastDown with | some l => max ready (l + 64) | none => ready) else ready
  { (if chip = s.root then onChip s chip (fun c => { c with lastDown := some at0 }) else s) with
    outMsgs := s.outMsgs ++ (treePorts s chip 1).map (fun p => waiting p 12 at0 true bits) }

/-- A message goes up the tree, to the parent. -/
def sentUp (s : State) (chip src ready : Nat) (bits : BitVec 128) : State :=
  { s with outMsgs := s.outMsgs ++ ((treePorts s chip 2).take 1).map (fun p => waiting p src ready false bits) }

/-- A message of a package goes to the root, which hands its own to itself. -/
def told (s : State) (chip ply : Nat) (bits : BitVec 128) : State :=
  if chip = s.root then { s with inMsgs := s.inMsgs ++ [{ chip := chip, ply := ply, port := none, bits := bits }] }
  else sentUp s chip 12 ply bits

/-! ## Tempo (R408 to R412, R472 to R476) -/

/-- A tempo change held for ply Z; of two for one ply the later stands (R410). -/
def holding (z : Nat) (tempo split : BitVec 2) (c : Chip) : Chip :=
  { c with held := c.held.filter (fun h => h.z ≠ z) ++ [{ z := z, tempo := tempo, split := split }] }

/-- The effective tempo: the slowest of cap, thermal ceiling and D hold (R472). -/
def slowestOf (c : Chip) : BitVec 2 :=
  if c.dUntil ≠ none then 3 else if c.ceiling.toNat ≤ c.cap.toNat then c.cap else c.ceiling

/-- The data of a tempo event: the current setting, the announced one and its ply. -/
def tempoData (c : Chip) (next : BitVec 2) (z : Nat) : BitVec 320 :=
  BitVec.ofNat 320 (c.tempo.toNat + c.split.toNat * 4 + next.toNat * 16 + z % 2 ^ 64 * 2 ^ 64)

/-- The root with new limits: where its effective tempo changes, the change is announced for a ply Z, 8,194 plies ahead or 2,049
after the one announced before, and an event tells the host (R472). -/
def retuned (s : State) (c : Chip) : State :=
  if slowestOf c = c.effective then s.setChip s.root c
  else
    let z := if c.tz = BitVec.allOnes 64 then s.now + 8194 else max (s.now + 8194) (c.tz.toNat + 2049)
    let c1 : Chip := { holding z (slowestOf c) c.dsplit c with
      effective := slowestOf c, lastTempo := slowestOf c, lastSplit := c.dsplit, tz := BitVec.ofNat 64 z }
    { sentDown (s.setChip s.root c1) s.root s.now (messageOf 1 ((slowestOf c).toNat + c.dsplit.toNat * 4) s.root 0 z) with
      posted := s.posted ++ [{ chip := s.root, src := 0x20, code := 1, data := tempoData c (slowestOf c) z }] }

/-- The converter ratio of a tempo: 4:9 for A, 3:8 for B, 1:3 for C and D (R408). -/
def ratioFor (tempo : BitVec 2) : BitVec 2 := if tempo = 0 then 0 else if tempo = 1 then 1 else 2

/-- The ports of a package that the state lists. -/
def portsAt (s : State) (chip : Nat) : List Nat := (s.ports.map Prod.fst).filter (fun p => p / 12 = chip)

/-- An engine stops at this ply: what it has announced and not issued is void, it reads and issues nothing more, and no longer waits
to resume. -/
def stilled (s : State) (p : Nat) (run : BitVec 2) : State :=
  { onEngine s p (fun e => { e with run := run, ahead := [], readAll := true, stopAt := some s.now, idleAt := none, armed := false }) with
    claims := s.claims.filter (fun c => c.port ≠ p ∨ c.issued = true)
    sends := s.sends.filter (fun r => r.port ≠ p ∨ r.issued = true)
    slots := s.slots.filter (fun x => x.port ≠ p) }

/-- Every core of a package that runs, or has yielded at this ply, stops (R412, R489). -/
def coresStopped (s : State) (chip : Nat) : State :=
  ((s.cores.map Prod.fst).filter (fun n => n / 1536 = chip)).foldl (fun s n =>
    if foundRunning s (s.core n) then onCore s n (fun c => { c with stopping := true }) else s) s

/-- Whether the sensor of a die is read now: every 4,096 plies from its first reading on (R412). -/
def readingDue (s : State) (chip die : Nat) : Bool :=
  match (s.chip chip).tempAt.find? (fun x => x.1 = die) with
  | some x => (s.now - x.2) % 4096 = 0
  | none => true

/-- Tempo notices, detectors and limits. -/
def rowTempo (s : State) : Instr → Option State
  | .tempoNotice chip =>
    match received s 1 chip with
    | some m =>
      some (onChip (sentDown (takenOff s m) chip (m.ply + 2) m.bits) chip
        (holding (plyIn m.bits) (BitVec.ofNat 2 (argIn m.bits)) (BitVec.ofNat 2 (argIn m.bits / 4))))
    | none => none
  | .tempoDRequest chip =>
    match received s 5 chip with
    | some m =>
      if chip = s.root then
        some (retuned (takenOff s m) { s.chip chip with dUntil := some (s.now + (s.chip chip).dhold.toNat) })
      else some (sentUp (takenOff s m) chip (sourceOf m) (m.ply + 2) m.bits)
    | none => none
  | .slowDownNotice chip =>
    match received s 6 chip with
    | some m =>
      if chip = s.root then
        some (retuned (takenOff s m) { s.chip chip with ceiling := if (s.chip chip).ceiling = 0 then 1 else 2, calmFrom := s.now })
      else some (sentUp (takenOff s m) chip (sourceOf m) (m.ply + 2) m.bits)
    | none => none
  | .dHoldEnd =>
    if plyDue (s.chip s.root).dUntil s.now then some (retuned s { s.chip s.root with dUntil := none }) else none
  | .thermalStepUp =>
    let c := s.chip s.root
    if c.ceiling ≠ 0 ∧ c.calmFrom + c.thold.toNat ≤ s.now then
      some (retuned s { c with ceiling := BitVec.ofNat 2 (c.ceiling.toNat - 1), calmFrom := s.now })
    else none
  | .powerCapMessage v =>
    let c := s.chip s.root
    if c.capSeen = true ∧ v.toNat % 2 ^ 32 ≤ c.capMsg.toNat % 2 ^ 32 then
      some (s.setChip s.root { c with drop := BitVec.ofNat 8 (min 255 (c.drop.toNat + 1)) })
    else
      some (retuned s { c with
        capMsg := BitVec.ofNat 64 (v.toNat % 2 ^ 34), capSeen := true, cap := BitVec.ofNat 2 (v.toNat / 2 ^ 32), lapsed := false,
        leaseEnd := some (c.mtime.toNat + 24000000000) })
  | .capLeaseExpiry =>
    let c := s.chip s.root
    if plyDue c.leaseEnd c.mtime.toNat then
      some (retuned
        { s with posted := s.posted ++ [{ chip := s.root, src := 0x20, code := 2, data := tempoData c c.lastTempo c.tz.toNat }] }
        { c with leaseEnd := none, cap := 2, lapsed := true })
    else none
  | .converterSwitch chip =>
    let c := s.chip chip
    let soon := c.held.filter (fun h => s.now < h.z ∧ h.z ≤ s.now + 1024)
    if c.bstate.toNat < 3 then none
    else
      match soon.find? (fun h => (ratioFor h.tempo).toNat < c.ratio.toNat) with
      | some h => some (onChip s chip (fun c => { c with ratio := ratioFor h.tempo }))
      | none =>
        if soon = [] ∧ c.ratio.toNat < (ratioFor c.tempo).toNat ∧ c.changedAt + 1024 ≤ s.now then
          some (onChip s chip (fun c => { c with ratio := ratioFor c.tempo }))
        else none
  | .tempoChange chip =>
    match (s.chip chip).held.find? (fun h => h.z ≤ s.now) with
    | some h =>
      some (onChip s chip (fun c => { c with
        held := c.held.filter (fun x => x ≠ h)
        tempo := if c.bstate.toNat < 3 then c.tempo else h.tempo
        split := if c.bstate.toNat < 3 then c.split else h.split
        changedAt := if c.bstate.toNat < 3 then c.changedAt else s.now }))
    | none => none
  | .currentWindowEnd chip amps =>
    let c := s.chip chip
    if s.now % 256 = 255 ∧ (mapGet 0 c.limits c.ratio.toNat).toNat < amps ∧ c.tempo ≠ 3 ∧ (∀ h ∈ c.held, h.tempo ≠ 3) then
      some (told s chip s.now (messageOf 5 0 chip 0 s.now))
    else some s
  | .temperatureReading chip die t =>
    let c := s.chip chip
    if readingDue s chip die then
      let warn : Bool := c.twarn.toNat ≤ t.toNat && !c.warned.contains die
      let u := onChip s chip (fun c => { c with
        temps := mapPut c.temps die t
        warned := if t.toNat + 5 < c.twarn.toNat then c.warned.filter (fun d => d ≠ die) else if warn then die :: c.warned else c.warned
        tempAt := if c.tempAt.any (fun x => x.1 = die) then c.tempAt else mapPut c.tempAt die s.now })
      let u := if warn then told u chip s.now (messageOf 6 0 chip 0 s.now) else u
      some (if c.tcrit.toNat ≤ t.toNat ∧ c.crit = none then
        { onChip ((portsAt u chip).foldl (fun u p => stilled u p 0) (coresStopped u chip)) chip (fun c => { c with crit := some s.now }) with
          charges := s.charges.filter (fun x => x.chip ≠ chip ∨ x.ply < s.now ∨ x.pj ≠ 48) }
      else u)
    else some s
  | _ => none

/-! ## Notices of pre-emption, resume and faults, and bring-up (R391, R399, R462 to R465, R487 to R489) -/

/-- The word of a notice without its direction: chip and port of the detection, as a link key with the tag (R462). -/
def noticeKey (b : BitVec 128) : Nat := originIn b + longArgIn b * 2 ^ 16

/-- A recovery that waits for management (R463). -/
def manualRecovery (b : BitVec 128) : Recovery :=
  { origin := originIn b, port := longArgIn b / 2 ^ 12 % 2 ^ 4, ev := argIn b % 64, t := plyIn b, auto := false, vid := 0, stage := 0,
    start := 0, replay := 0, halted := false, extra := 0, bounds := [] }

/-- Whether an engine of a package has started for the job of the package's tag and has not come to a HALT (R462). -/
abbrev hasEngines (s : State) (chip : Nat) : Prop := ∃ p ∈ portsAt s chip, (s.port p).engine.job = some (s.chip chip).tag

/-- Notices, and the states of a package. -/
def rowPackage (s : State) : Instr → Option State
  | .preemptionNotice chip =>
    match received s 2 chip with
    | some m =>
      let t := onChip (sentDown (takenOff s m) chip (m.ply + 2) m.bits) chip (fun c => { c with preempt := some (plyIn m.bits) })
      some ((jobOf t chip).foldl (fun t n => onCore t n (fun c =>
        { c with prply := BitVec.ofNat 64 (plyIn m.bits), diverted := false, preDone := false, preLate := false })) t)
    | none => none
  | .resumeNotice chip =>
    match received s 3 chip with
    | some m =>
      let t := onChip (sentDown (takenOff s m) chip (m.ply + 2) m.bits) chip (fun c => { c with resumeQ := some (plyIn m.bits) })
      some ((jobOf t chip).foldl (fun t n => onCore t n (fun c => { c with rsply := BitVec.ofNat 64 (plyIn m.bits) })) t)
    | none => none
  | .faultNotice chip =>
    match received s 4 chip with
    | some m =>
      if argIn m.bits < 128 then
        if chip ≠ s.root then some (sentUp (takenOff s m) chip (sourceOf m) (m.ply + 2) m.bits)
        else if ∃ x ∈ (s.chip chip).returned, x.1 = noticeKey m.bits ∧ x.2.1 = argIn m.bits % 64 ∧
            plyIn m.bits ≤ x.2.2 + 65536 ∧ x.2.2 ≤ plyIn m.bits + 65536 then
          some (takenOff s m)
        else
          let t := sentDown (onChip (takenOff s m) chip (fun c =>
            { c with returned := (noticeKey m.bits, argIn m.bits % 64, plyIn m.bits) :: c.returned })) chip (m.ply + 2)
              (m.bits ||| BitVec.twoPow 128 15)
          some { t with inMsgs := t.inMsgs ++ [{ chip := chip, ply := m.ply + 2, port := none, bits := m.bits ||| BitVec.twoPow 128 15 }] }
      else
        let t := if chip = s.root then takenOff s m else sentDown (takenOff s m) chip (m.ply + 2) m.bits
        if longArgIn m.bits / 2 ^ 16 ≠ (s.chip chip).tag.toNat ∨ (¬hasEngines s chip ∧ (s.chip chip).recovery = none) then some t
        else if (s.chip chip).recovery = none ∧ recoveryHeader s chip = none then
          some (onChip t chip (fun c => { c with ev := BitVec.ofNat 6 (argIn m.bits), recovery := some (manualRecovery m.bits) }))
        else none
    | none => none
  | .podJoin chip => some (onChip s chip (fun c => { c with joinAsked := some s.now }))
  | .managementWatchdog chip =>
    let c := s.chip chip
    if c.mwdlim ≠ 0 ∧ c.mwdlim.toNat ≤ c.mwdcnt.toNat ∧ c.mwdFired = false then
      let t : State := { onChip s chip (fun c => { c with mwdFired := true }) with
        posted := s.posted ++ [{ chip := chip, src := 0x50, code := 1, data := 0 }] }
      some (if c.mwdact then coresStopped t chip else t)
    else none
  | .powerOn chip => if (s.chip chip).bstate = 0 then some (onChip s chip (fun c => { c with bstate := 1 })) else some s
  | .selfTest chip =>
    if (s.chip chip).bstate = 1 then
      some { onChip s chip (fun c => { c with bstate := 2 }) with
        cores := s.cores.filter (fun e => e.1 / 1536 ≠ chip)
        tags := s.tags.filter (fun t => 16 * t.1 / 2 ^ 48 ≠ chip)
        mem := writeBytes s.mem ((s.mem.filter (fun x => x.1 / 2 ^ 48 = chip ∧ addrWin x.1 = 0)).map (fun x => (x.1, 0))) }
    else none
  | .firmwareCheck chip result =>
    if (s.chip chip).bstate = 2 ∧ (s.chip chip).fwstat = 0 then
      some (onChip s chip (fun c => { c with fwstat := result, bstate := if result = 1 then 3 else 2 }))
    else some s
  | .attestation chip nonce =>
    some (onChip s chip (fun c => { c with
      quote := Config.signature chip nonce (Config.firmwareDigest chip) c.bstate, attested := some s.now }))
  | _ => none

/-! ## Link instructions (R434 to R446) -/

/-- The engine of the port that issues an instruction goes on to the next one. -/
def movedOn (s : State) (p : Nat) (x : LinkEntry) : State :=
  onEngine s p (fun e => { e with ahead := e.ahead.drop 1, at0 := x.next, lpc := BitVec.ofNat 14 x.next.index })

/-- A claim, or a transfer, of an instruction that has issued. -/
def claimed (s : State) (p : Nat) (x : LinkEntry) : State :=
  { movedOn s p x with claims := changeFirst (fun c => c.port = p && c.order = x.ident) (fun c => { c with issued := true }) s.claims }
def departing (s : State) (p : Nat) (x : LinkEntry) : State :=
  { movedOn s p x with sends := changeFirst (fun r => r.port = p && r.ident = x.ident) (fun r => { r with issued := true }) s.sends }

/-- `n` granules that a port moves: each read at its ply, 4 a ply, and written on later (R439). -/
def moves (s : State) (p order op n lag : Nat) (src : Nat → Nat) (dest : Nat → Dest) : List Access :=
  (List.range n).map (fun j =>
    { ident := 2 * (s.nextId + j) + 1, op := op, core := 1536 * (p / 12), rank := 2 ^ 32 + 2 * p, order := order,
      due := s.now + j / 4 + lag, landAt := s.now + j / 4 + lag, delayed := false, write := false,
      spans := [{ addr := src j, len := 64, off := 0 }], data := 0, capTag := none, dest := dest j })

/-- A granule of the chunk buffer of the link die of a port (R256, R436). -/
def bufferByte (p g : Nat) : Nat := linkAddr (p / 12) (p % 12 / 2) (64 * g)

/-- The instruction that issues now, where it keeps its order and its limits. -/
def issuing (s : State) (i : Instr) : Option (Nat × LinkEntry) :=
  match issuingPort s i with
  | some (p, x) => if x.broken = false ∧ linkIllegal s p i = none then some (p, x) else none
  | none => none

/-- The recovery registers after a CKPT: a new stage takes the place of the current one (R442, R466). -/
def checkpointed (s : State) (stage : BitVec 16) (c : Chip) : Chip :=
  if c.curStage = stage then c
  else { c with prvStage := c.curStage, rcPrv := c.rcCur, prvStart := c.curStart, curStage := stage, rcCur := BitVec.ofNat 64 s.now,
                curStart := s.now }

/-- A link is declared failed with a subcode at this ply, or its port locked: what is in flight on it is withheld, the registers
record the detection, an event tells the host, and a notice goes to the root a ply later (R424, R425, R461). -/
def failing (s : State) (p : Nat) (sub : Nat) (locked : Bool) : State :=
  if (s.port p).state = 2 ∨ (s.port p).state = 3 then s
  else
    let det : Word := BitVec.ofNat 64 (s.now % 2 ^ 40 + p / 12 * 2 ^ 40 + p % 12 * 2 ^ 56)
    told
      { onPort s p (fun v => { v with
          state := if locked then 3 else 2, raise := false, lockedAt := if locked then some s.now else v.lockedAt, lastSub := BitVec.ofNat 8 (if locked then p % 12 else sub), det := det }) with
        flits := s.flits.filter (fun f => f.port ≠ p)
        posted := s.posted ++ [{ chip := p / 12, src := 0x10 + p % 12, code := (Config.eventCode (0x10 + p % 12)).toNat,
                                 data := det.setWidth 320 }] }
      (p / 12) (s.now + 1) (messageOf 4 (if locked then 0x20 else sub) (p / 12)
        ((s.chip (p / 12)).tag.toNat * 2 ^ 16 + p % 12 * 2 ^ 12) s.now)

/-- A link-engine fault: the engine stops with its subcode, and its port is declared failed (R446). -/
def engineStops (s : State) (p sub : Nat) : State :=
  failing (onEngine (stilled s p 3) p (fun e => { e with fcode := BitVec.ofNat 8 sub })) p sub false

/-- Link instructions. -/
def rowLink (s : State) (i : Instr) : Option State :=
  match issuing s i with
  | none => none
  | some (p, x) =>
    match i with
    | .send _ _ _ _ => some (departing s p x)
    | .sendSig _ _ _ _ => some (departing s p x)
    | .land _ _ _ _ => some (claimed s p x)
    | .fwd _ _ _ _ => some (claimed s p x)
    | .redAddF32 _ _ _ _ => some (claimed s p x)
    | .redAddBf16 _ _ _ _ => some (claimed s p x)
    | .redAddI32 _ _ _ _ => some (claimed s p x)
    | .redMaxF32 _ _ _ _ => some (claimed s p x)
    | .redMaxBf16 _ _ _ _ => some (claimed s p x)
    | .redMaxI32 _ _ _ _ => some (claimed s p x)
    | .guard _ _ _ => some (claimed s p x)
    | .linkLoop _ _ => some (if (s.engine p).at0.loops.length < 4 then movedOn s p x else engineStops s p 0x15)
    | .endl => some (if (s.engine p).at0.loops ≠ [] then movedOn s p x else engineStops s p 0x15)
    | .mark _ buf addr =>
      match dieRange s p addr 8 8 [0, 7] with
      | some h =>
        if (s.engine p).guardEnd ≤ s.now then
          some { movedOn s p x with
            marks := s.marks ++ [{ port := p, ply := s.now + 30, addr := h, value := BitVec.ofNat 64 (numberAt s (bufferByte p buf.toNat) 8),
                                   ops := (s.engine p).delvs }] }
        else some (engineStops s p 0x14)
      | none => some (engineStops s p 0x14)
    | .ckpt _ stage =>
      let c := checkpointed s stage (s.chip (p / 12))
      some (onChip (onEngine (movedOn s p x) p (fun e => { e with
          stage := stage,
          points := (stage.toNat, c.curStart, x.next) :: (e.points.filter (fun y => y.1 ≠ stage.toNat)).take 1 })) (p / 12)
        (checkpointed s stage))
    | .fill _ buf n addr =>
      match dieRange s p addr (64 * (n.toNat + 1)) 64 [0, 2, 3, 4, 7] with
      | some h =>
        some { movedOn s p x with
          accs := s.accs ++ moves s p x.ident 0 (n.toNat + 1) 34 (fun j => h + 64 * j) (fun j => .forward (bufferByte p (buf.toNat + j)) 30)
          nextId := s.nextId + (n.toNat + 1) }
      | none => some (engineStops s p 0x14)
    | .delv _ buf n addr =>
      match dieRange s p addr (64 * (n.toNat + 1)) 64 [0, 2, 3, 4, 7] with
      | some h =>
        if (s.engine p).guardEnd ≤ s.now then
          some { onEngine (movedOn s p x) p (fun e => { e with
              delvs := e.delvs.filter (fun o => s.accs.any (fun a => a.op = o)) ++ [2 * s.nextId + 1] }) with
            accs := s.accs ++ moves { s with nextId := s.nextId + 1 } p x.ident (2 * s.nextId + 1) (n.toNat + 1) 0
              (fun j => bufferByte p (buf.toNat + j)) (fun j => .forward (h + 64 * j) 34)
            nextId := s.nextId + 1 + (n.toNat + 1) }
        else some (engineStops s p 0x14)
      | none => some (engineStops s p 0x14)
    | .slot _ _ _ _ _ _ _ =>
      match s.slots.find? (fun y => y.port = p && y.dep ≤ s.now) with
      | some y =>
        if departsInGuard s p s.now = false then
          match slotRequest s y with
          | some r =>
            some { movedOn s p x with
              slots := s.slots.erase y
              claims := s.claims ++ [{ order := s.nextId, port := y.rport, ply := y.rarr, pos := 28, n := 4,
                                       use := .reply r.core r.order, issued := true }]
              outs := s.outs ++ (r.pays.mapIdx (fun j v => (j, v))).map (fun z =>
                { port := p, ply := s.now, pos := 27 + z.1, kind := 2, hops := 0, atag := (s.chip (p / 12)).tag,
                  pay := BitVec.ofNat 512 z.2, token := some r.ident }) }
          | none =>
            some { movedOn s p x with
              slots := s.slots.erase y
              outs := s.outs ++ (List.range 5).map (fun j =>
                { port := p, ply := s.now, pos := 27 + j, kind := 4, hops := 0, atag := (s.chip (p / 12)).tag, pay := 0, token := none }) }
        else some (engineStops s p 0x12)
      | none => some (movedOn s p x)
    | .serve _ rdep rport =>
      let q := p / 12 * 12 + rport.toNat
      if departsInGuard s q (s.now + rdep.toNat) = false then
        some { claimed s p x with
          outs := s.outs ++ (List.range 4).map (fun j =>
            { port := q, ply := s.now + rdep.toNat, pos := 28 + j, kind := 4, hops := 0, atag := (s.chip (p / 12)).tag, pay := 0,
              token := none }) }
      else some (engineStops s p 0x12)
    | .halt _ => some (onEngine (movedOn s p x) p (fun e => { e with idleAt := some (s.now + 1) }))
    | _ => none

/-! ## Ports (R421 to R431, R434, R448, R449) -/

/-- A flit at a position that nothing claims is discarded and counted (R422). -/
def unclaimed (s : State) (p : Nat) (f : Flit) : State :=
  { onPort s p (fun v => { v with uncl := v.uncl + 1 }) with flits := s.flits.filter (fun x => x.ident ≠ f.ident) }

/-- A flit in a phase of its own. -/
def inPhase (s : State) (f : Flit) (ph : FlitPhase) : State :=
  { s with flits := s.flits.map (fun x => if x.ident = f.ident then { f with phase := ph } else x) }

/-- A write of a granule of a chunk buffer at a ply, in the place of an instruction (R436). -/
def bufferWrite (s : State) (p order due g v : Nat) : State :=
  { s with
    accs := s.accs ++ [{ ident := 2 * s.nextId + 1, op := 0, core := 1536 * (p / 12), rank := 2 ^ 32 + 2 * p, order := order,
                         due := due, landAt := due, delayed := false, write := true,
                         spans := [{ addr := bufferByte p g, len := 64, off := 0 }], data := BitVec.ofNat 2048 v, capTag := none,
                         dest := .nowhere }]
    nextId := s.nextId + 1 }

/-- The reduction of a payload into a granule, lane by lane, the granule the left operand: an ADD or a MAX of F32, BF16 or I32
(R437). -/
def reducedInto (op old new : Nat) : Nat :=
  let w := if op % 3 = 1 then 16 else 32
  ((List.range (512 / w)).map (fun i =>
    elementOp (op % 3) (if op < 3 then 0 else 3) false (old / 2 ^ (w * i) % 2 ^ w) (new / 2 ^ (w * i) % 2 ^ w) 0 % 2 ^ w * 2 ^ (w * i))).sum

/-- The message of a kind that a port has received. -/
def atPort (s : State) (kind p : Nat) : Option InMsg :=
  s.inMsgs.find? (fun m => m.ply ≤ s.now ∧ kindIn m.bits = kind ∧ m.port = some p)

/-- Whether a package had halted at CRIT by a ply: nothing leaves it then (R412). -/
def quiet (s : State) (chip ply : Nat) : Bool := match (s.chip chip).crit with | some z => z ≤ ply | none => false

/-- A port whose exchange of the interval at `g` has passed comes up, if it is down, if management brings it up after a failure, or if
it was locked and has new keys; none does in local service (R417, R424, R426, R487). -/
def risen (s : State) (p g : Nat) : State :=
  let v := s.port p
  if v.passed = some g ∧ (v.state = 0 ∨ (v.state = 2 ∧ v.raise = true) ∨ (v.state = 3 ∧ v.tfail = 0)) ∧ 3 ≤ (s.chip (p / 12)).bstate.toNat then
    onPort s p (fun v => { v with state := 1, raise := false })
  else s

/-- The package of port `q` has been attested for keys of port `p`: if that was locked, after its last lock (R426). -/
abbrev attestedFor (s : State) (p q : Nat) : Prop := ∃ t ∈ (s.chip (q / 12)).attested, ∀ k ∈ (s.port p).lockedAt, k < t

/-- Half, rounded toward zero. -/
def halved (x : Int) : Int := if 0 ≤ x then x / 2 else -(-x / 2)

/-- Events of ports. -/
def rowPort (s : State) : Instr → Option State
  | .start p =>
    let f := (s.port p).frame.toNat
    let e := (s.port p).engine
    let c := s.chip (p / 12)
    if e.run = 1 ∨ c.bstate.toNat < 3 then some s
    else if f % 65536 = 96 ∧ s.now + 1024 ≤ f then
      some (onChip (readAhead readLimit (onChip (onEngine s p (fun e => { e with
          run := 1, lpc := 0, frame := f, at0 := { index := 0, base := f, loops := [] }, cursor := { index := 0, base := f, loops := [] },
          readAll := false, ahead := [], lastPly := s.now, lastCount := 0, stopAt := none, idleAt := none, delvs := [], guardEnd := 0,
          armed := false, resumeAt := none, job := some c.tag })) (p / 12) (fun c => { c with bstate := if c.bstate = 4 then 5 else c.bstate })) p
            (s.now + 1024)) (p / 12)
        (fun c => { c with
          rcState := if c.rcState = 2 then 0 else c.rcState
          recovery := if c.rcState = 2 then none else c.recovery }))
    else some (engineStops s p 0x11)
  | .resume p =>
    if (s.port p).engine.run = 1 ∨ (s.chip (p / 12)).bstate.toNat < 3 then some s
    else some (onEngine s p (fun e => { e with armed := true }))
  | .elasticBufferDrift p d =>
    let t := onPort s p (fun v => { v with dist := d })
    if 16 ≤ d ∧ d ≤ 48 then some t else some (failing t p 0x03 false)
  | .damagedMessage p =>
    match s.ctrls.find? (fun c => c.port = p && c.second && c.ply ≤ s.now) with
    | some c => some (failing { s with ctrls := s.ctrls.erase c } p 0x07 false)
    | none => none
  | .linkKeyInstall p tx rx =>
    if attestedFor s p p ∧ (∀ q ∈ peerPort s p, attestedFor s p q) ∧ (∀ q ∈ senderPort s p, attestedFor s p q) then
      some (onPort s p (fun v => { v with txKey := tx, rxKey := rx, tfail := 0, raise := true }))
    else some s
  | .phaseCorrection p =>
    match (s.port p).shifts.find? (fun x => x.1 ≤ s.now) with
    | some x =>
      some (onChip (onPort s p (fun v => { v with shifts := v.shifts.erase x })) (p / 12) (fun c => { c with phase := c.phase + x.2 }))
    | none => none
  | .guardInterval p =>
    let g := s.now / 65536 * 65536
    if guardDue s p then
      if s.now = g then
        some { onPort s p (fun v => { v with guardStep := s.now, heard := none }) with
          outMsgs := s.outMsgs ++ [waiting p 12 g true (messageOf 7 0 (p / 12) 0 g)] }
      else if s.now = g + 95 then some (risen (onPort s p (fun v => { v with guardStep := s.now })) p g)
      else
        some (onPort s p (fun v => { v with
          guardStep := s.now, dist := 32, delayLine := v.w.toNat - (v.tbdel.toNat + 255) / 256 - 1 }))
    else none
  | .exchangeSendTime p arrival =>
    match atPort s 7 p with
    | some m =>
      let g := s.now / 65536 * 65536
      some { onPort s p (fun v => { v with heard := some (arrival.toNat, g) }) with
        inMsgs := s.inMsgs.erase m, freeCtr := s.freeCtr + 1
        outMsgs := s.outMsgs ++ [waiting p 12 (g + (s.port p).w.toNat + 2) true
          (messageOf 8 arrival.toNat (p / 12) 0 (arrival.toNat / 256))] }
    | none => none
  | .exchangeReceiptTime p =>
    match atPort s 8 p with
    | some m =>
      let v := s.port p
      (match v.heard with
       | none => some (takenOff s m)
       | some (t2, g) =>
         let there : Int := (t2 : Int) - 256 * g
         let back : Int := 256 * plyIn m.bits + argIn m.bits - 256 * g
         let delta := halved (there + back)
         let theta := halved (there - back)
         if 64 ≤ theta ∨ theta ≤ -64 ∨ ((v.w.toNat : Int) - 2) * 256 < delta then
           some (failing (onPort (takenOff s m) p (fun v => { v with failed := some g })) p 0x06 false)
         else
           let t := onPort (takenOff s m) p (fun v => { v with
             tbdel := BitVec.ofInt 64 delta, tboff := BitVec.ofInt 64 theta, passed := some g
             shifts := if v.role = 2 then v.shifts ++ [(g + 65536 + 95, -theta)] else v.shifts })
           some (if g + 95 < s.now then risen t p g else t))
    | none => none
  | .nakReceipt p =>
    match nakDue s p with
    | some (f, w) =>
      if repSeen s p (f.sent + 2 * w + 1) 1 f.pos 0 = none ∨ quiet s (f.port / 12) (f.sent + w + 1) ∨
          quiet s (p / 12) (f.sent + 2 * w + 2) then some (inPhase s f .lost)
      else some { inPhase s f .asked with charges := s.charges ++ [{ chip := p / 12, ply := s.now + 1, tag := f.atag, pj := 48 }] }
    | none => none
  | .parityArrival p =>
    match parityDue s p with
    | some (f, w) =>
      if quiet s ((senderPort s p).getD 0 / 12) (f.sent + 2 * w + 2) then some (inPhase s f .lost)
      else match (repSeen s p (f.sent + 3 * w + 2) 2 f.pos f.parity).bind f.repaired with
      | none => some (inPhase s f .lost)
      | some g =>
        if g.crcFails then some (inPhase s f .lost)
        else
          (match claimAt s p (f.sent + (3 * w + 4)) f.pos with
           | some (c, _) => some (onPort (inPhase s g (headerAndTag s g c)) p (fun v => { v with repaired := v.repaired + 1 }))
           | none => some (unclaimed s p g))
    | none => none
  | .missingFlitDetection p =>
    match arrivalFault s p with
    | some sub =>
      if sub = 0x05 then some (failing (onPort s p (fun v => { v with tfail := v.tfail + 1 })) p sub ((s.port p).tfail != 0))
      else some (failing s p sub false)
    | none => none
  | .flitArrival p =>
    match checkDue s p with
    | some (f, w) =>
      if (s.port p).state ≠ 1 then some { s with flits := s.flits.filter (fun x => x.ident ≠ f.ident) }
      else
        (match claimAt s p (f.sent + (3 * w + 4)) f.pos with
         | none => if keptFrom s p (f.sent + (3 * w + 4)) = none then some (unclaimed s p f) else some (inPhase s f .kept)
         | some (c, _) =>
           if f.crcFails then
             (if ∃ x ∈ s.flits, x.port = p ∧ x.sent = f.sent ∧ x.ident ≠ f.ident ∧ x.phase = .damaged then some (failing s p 0x02 false)
              else some (inPhase s f .damaged))
           else if f.received % 2 ^ 24 ≠ (f.pos % 32 + f.sent % 2 ^ 19 * 2 ^ 5) ∨ c.use.accepts f.kindSeen = false then
             some (failing s p 0x04 false)
           else some (inPhase s f (if tagPasses s f then .good else .forged)))
    | none =>
      match deliveryDue s p false with
      | some f =>
        let seen : State := inPhase s f .delivered
        (match claimAt s p s.now f.pos with
         | some (c, k) =>
           (match c.use with
            | .land buf => some (bufferWrite seen p c.order s.now (buf + k) f.paySeen.toNat)
            | .red op buf =>
              some (bufferWrite
                { seen with charges := s.charges ++ [{ chip := p / 12, ply := s.now, tag := f.atagSeen, pj := 90 }] }
                p c.order (s.now + 2) (buf + k) (reducedInto op (numberAt s (bufferByte p (buf + k)) 64) f.paySeen.toNat))
            | .fwd oq =>
              some { seen with
                charges := s.charges ++
                  (if linkRoute (p % 12 / 2) (oq / 2) = 0 then []
                   else [{ chip := p / 12, ply := s.now, tag := f.atagSeen, pj := 26 * linkRoute (p % 12 / 2) (oq / 2) }])
                outs := s.outs ++ [{ port := p / 12 * 12 + oq, ply := s.now + (if p % 12 / 2 = oq / 2 then 2 else 36), pos := f.pos,
                                     kind := f.kindSeen, hops := min 15 (f.hopsSeen + 1), atag := f.atagSeen, pay := f.paySeen,
                                     token := f.token }] }
            | .guard buf =>
              some (if f.paySeen.toNat % 2 ^ 64 = numberAt s (bufferByte p buf) 8 then seen
                else told seen (p / 12) (s.now + 2) (messageOf 4 0x21 (p / 12)
                  ((s.chip (p / 12)).tag.toNat * 2 ^ 16 + p % 12 * 2 ^ 12) (s.now + 1)))
            | .request rdep rport => if f.token = none then some seen else some (serveRequest seen f rdep rport)
            | .reply _ _ => none)
         | none => if keptFrom s p s.now = none then some (unclaimed s p f) else none)
      | none => none
  | .replyArrival p =>
    match deliveryDue s p true with
    | some _ =>
      let mine (c : Claim) : Bool := c.port = p && c.ply = s.now && (match c.use with | .reply _ _ => true | _ => false)
      some { s with
        claims := s.claims.filter (fun c => !mine c)
        flits := s.flits.filter (fun f => !(f.port = p && f.phase = .good &&
          s.claims.any (fun c => mine c && (c.place s.now f.pos).isSome) && f.sent + (3 * (linkW s p).getD 0 + 4) ≤ s.now)) }
    | none => none
  | _ => none

/-! ## The host (R482 to R486) -/

/-- The command that a package consumes now, where it is in range: SEQ follows CMDCONS, and one is consumed at a ply. -/
def commandAt (s : State) (chip kind : Nat) : Option Nat :=
  let c := s.chip chip
  let seq := (c.cmdCons.toNat + 1) % 2 ^ 32
  let w := readNat c.bar2 (64 * (seq % 4096)) 64
  if 2 ≤ c.bstate.toNat ∧ c.cmdAt ≠ some s.now ∧ w / 2 ^ 256 % 2 ^ 32 = seq ∧ w / 2 ^ 288 % 2 ^ 8 = kind ∧ commandBad s chip w = false then
    some w
  else none

/-- The command is consumed. -/
def consumed (s : State) (chip : Nat) : State := onChip s chip (fun c => { c with cmdCons := c.cmdCons + 1, cmdAt := some s.now })

/-- An event of the command processor about the command with a number. -/
def answered (s : State) (chip code seq : Nat) : State :=
  { s with posted := s.posted ++ [{ chip := chip, src := 0, code := code, data := BitVec.ofNat 320 seq }] }

/-- WRITE and READ: an access for each granule of 64 bytes, or of 256 into a push region, at a ply that nothing fixes. -/
def transferring (s : State) (chip w : Nat) (write : Bool) : State :=
  let len := w / 2 ^ 96 % 2 ^ 32
  let target := w % 2 ^ 64
  let unit := if touchesPush target then 256 else 64
  let home := (hostHome s chip target len).getD 0
  { s with
    xfers := s.xfers ++ [{ op := 2 * s.nextId + 1, chip := chip, seq := w / 2 ^ 256 % 2 ^ 32, len := len, ctr := w / 2 ^ 128 % 2 ^ 64 }]
    accs := s.accs ++ (List.range (len / unit)).map (fun j =>
      let ply := hostPly s (unit / 64 * j) (unit / 64)
      let off := 0x80000 + w / 2 ^ 64 % 2 ^ 32 + unit * j
      { ident := 2 * (s.nextId + 1 + j) + 1, op := 2 * s.nextId + 1, core := 1536 * chip, rank := 2 ^ 34 + chip, order := s.nextId + 1 + j,
        due := ply, landAt := ply, delayed := false, write := write, spans := hostSpans (home + unit * j) unit, data := 0, capTag := none,
        dest := if write then .fromStaging chip off else .staging chip off })
    nextId := s.nextId + 1 + len / unit
    freeCtr := s.freeCtr + len / 64 }

/-- Commands of the host, and the end of its transfers. -/
def rowHost (s : State) : Instr → Option State
  | .hostGtsRecord chip =>
    match commandAt s chip 0 with
    | some w =>
      let c := s.chip chip
      let unit := 1536 * chip + (s.pmap chip).physCore ((s.pmap chip).logicalChip chip) 0
      if (s.recs.filter (fun r => r.lvl = 4 ∧ r.unit = unit ∧ r.done = none)).length < 4 then
        some { consumed s chip with
          recs := s.recs ++ [{
            ident := 2 * s.nextId + 1, lvl := 4, unit := unit, group := 0, addr := 0, home := 0, who := unit, cap := mapGet Cap.null c.caps 0,
            caps := (List.range 16).map (mapGet Cap.null c.caps), host := some chip, raw := some (BitVec.ofNat 256 w), readyAt := s.now,
            accepted := none, tensors := [], leaves := [], children := 0, stop := none, fault := none, held := [], latest := 0,
            done := none, op := 2 * s.nextId + 1 }]
          nextId := s.nextId + 1 }
      else none
    | none => none
  | .write chip =>
    match commandAt s chip 1 with
    | some w =>
      some (if commandRefused s chip w then answered (consumed s chip) chip 3 (w / 2 ^ 256 % 2 ^ 32)
        else transferring (consumed s chip) chip w true)
    | none => none
  | .read chip =>
    match commandAt s chip 2 with
    | some w =>
      some (if commandRefused s chip w then answered (consumed s chip) chip 3 (w / 2 ^ 256 % 2 ^ 32)
        else transferring (consumed s chip) chip w false)
    | none => none
  | .capset chip =>
    match commandAt s chip 3 with
    | some w =>
      some (onChip (consumed s chip) chip (fun c => { c with
        caps := mapSet Cap.null c.caps (w % 2 ^ 8) { tag := w.testBit 8, bits := BitVec.ofNat 128 (w / 2 ^ 128) } }))
    | none => none
  | .mapset chip =>
    match commandAt s chip 5 with
    | some w =>
      if ∃ e ∈ s.cores, e.1 / 1536 = chip ∧ (s.core e.1).run = .running then
        some (answered (consumed s chip) chip 3 (w / 2 ^ 256 % 2 ^ 32))
      else
        let v : BitVec 4194304 := BitVec.ofNat 4194304
          (readNat (s.chip chip).bar2 (0x80000 + w % 2 ^ 32) (w / 2 ^ 32 % 2 ^ 32))
        some { onChip (consumed s chip) chip (fun c => { c with tag := Config.imageTag v }) with
          pmaps := mapPut s.pmaps chip
            { n := Config.imageChips v, chips := Config.imageChip v, cores := Config.imageCores v, status := Config.imageStatus v,
              groups := Config.imageGroups v } }
    | none => none
  | .badCommand chip =>
    let c := s.chip chip
    let seq := (c.cmdCons.toNat + 1) % 2 ^ 32
    let w := readNat c.bar2 (64 * (seq % 4096)) 64
    if 2 ≤ c.bstate.toNat ∧ c.cmdAt ≠ some s.now ∧ w / 2 ^ 256 % 2 ^ 32 = seq ∧ commandBad s chip w = true then
      some (answered (consumed s chip) chip 1 seq)
    else none
  | .hostTransferCompletion chip =>
    match s.xfers.find? (fun x => x.chip = chip && !s.accs.any (fun a => a.op = x.op)) with
    | some x =>
      if x.ctr = 0 then some (answered { s with xfers := s.xfers.erase x } chip 2 x.seq)
      else
        some { s with
          xfers := s.xfers.erase x
          atoms := s.atoms ++ [{ ident := 2 * s.nextId + 1, op := 0, core := 1536 * chip, rank := 2 ^ 34 + chip, order := s.nextId,
                                 due := s.now + 1 + Config.hostDelay s.freeCtr, landAt := s.now + 1 + Config.hostDelay s.freeCtr,
                                 addr := (hostHome s chip x.ctr 8).getD 0, kind := .add,
                                 x := BitVec.ofNat 64 x.len, y := 0, dest := none }]
          nextId := s.nextId + 1
          freeCtr := s.freeCtr + 1 }
    | none => none
  | _ => none

end Sys2Proof.Safety

end
end

