-- ==== Sys2Proof/Safety/Tiles.lean ====
section
/-! DEFINITION. What the manual gives tile-set records, leaves and collectives, row by row, for the statements: each row gives the
whole state after the event. -/

noncomputable section

namespace Sys2Proof.Safety

open Sys2Proof.Machine

/-! ## Leaves (R358 to R364, R366 to R373) -/

/-- The leaf at hand: its record's words and operands, what it reads, its rank, and the carries that it takes (R373). -/
def jobAt (s : State) (r : GtsRun) (i : Nat) (l : Leaf) : LeafJob :=
  { word := r.word, d := (r.tensors.getD 0 none).getD (parseTensor 0), a := (r.tensors.getD 1 none).getD (parseTensor 0),
    b := (r.tensors.getD 2 none).getD (parseTensor 0), hasB := (r.tensors.getD 2 none).isSome, rd := leafReader s r l, leaf := l,
    rank := i, carry := (l.prev.bind (fun p => (r.leaves[p]?).map Leaf.carry)).getD [], group := if r.lvl = 0 then some r.group else none }

/-- The elements of a row of the leaf of operand d, a or b (0, 1 or 2), column by column. -/
def elementsAt (j : LeafJob) (k i : Nat) (pl : Nat × Nat) : Nat → Nat := fun c =>
  (rowOf j.rd k (if k = 0 then j.d else if k = 1 then j.a else j.b) i j.leaf.col0 j.leaf.cols pl).getD c 0

/-- What a leaf writes of a row: at level 0 the lanes of the record's group, of an entry of 64 lanes whose other lanes stay (R128). -/
def groupLanes (j : LeafJob) (xs : List Nat) : List Nat :=
  match j.group with
  | some g => (((List.range 64).map (fun i => if i / 16 = g then xs.getD (i % 16) 0 else 0)).drop (16 * g)).take xs.length
  | none => xs

/-- The pieces of a leaf that gives each element of its part of d by row, place of the row in the leaf, and column. -/
def each (j : LeafJob) (f : Nat → Nat → (Nat × Nat) → Nat → Nat) : List Piece :=
  j.rowList.map (fun x => putRow j.d x.2.1 j.leaf.col0 (groupLanes j ((List.range j.leaf.cols).map (f x.1 x.2.1 x.2.2))) x.2.2)

/-- The pieces of a leaf whose operation makes no lane-group entry: scans and those of the brine unit. -/
def eachWhole (j : LeafJob) (f : Nat → Nat → (Nat × Nat) → Nat → Nat) : List Piece :=
  j.rowList.map (fun x => putRow j.d x.2.1 j.leaf.col0 ((List.range j.leaf.cols).map (f x.1 x.2.1 x.2.2)) x.2.2)

/-- The plies that a leaf computes: over its native tiles, of the plies of a tile of h rows (R367, R372). -/
def computePlies (l : Leaf) (edges : Nat × Nat) (tile : Nat → Nat) : Nat :=
  l.planes.length * ((l.cols + edges.2 - 1) / edges.2) *
    (l.rows / edges.1 * tile edges.1 + if l.rows % edges.1 = 0 then 0 else tile (l.rows % edges.1))

/-- A leaf has computed: its compute phase ends, its pieces are written granule by granule of its part of d's footprint, four a ply,
each to every home of its bytes, and its end is set (R372). Nothing else changes but what `pans` makes of its core. -/
def leafDone (s : State) (r : GtsRun) (i : Nat) (l : Leaf) (plies : Nat) (pieces : List Piece) (carry : List Nat)
    (pans : Core → Core) : State :=
  let grans := granulesOf (outputRegion (recOpc r.word) r.tensors l)
  let start := s.now + plies
  let far := writeLag s r l.core start (pieces.flatMap Piece.split) grans
  let t : State := { onCore s l.core pans with
    recs := s.recs.map (fun x => if x.ident = r.ident then
      { r with leaves := r.leaves.mapIdx (fun k y => if k = i then
          { l with phase := .writing, computed := start, ends := start + far + (grans.length + 3) / 4, late := none,
                   carry := carry } else y) }
      else x) }
  (pieces.flatMap Piece.split).foldl (fun t p =>
    leafWrite t r l.core (start + ((grans.findIdx? (fun g => g = p.addr / 64)).getD 0) / 4) far p) t

/-- A read of granules of memory by a record that no lease delays any more: the state that it leaves, its leased granules home (R269), and
the state that it sees. -/
def readBy (s : State) (core : Nat) (spans : List Span) : State × State :=
  let got := settledRead s core (16 * core + 6) spans
  ({ got.2.st with mem := writeBytes s.mem got.2.writes }, got.1)

/-- Whether a lease delays a read of granules that has had no delay yet. -/
abbrev delays (s : State) (late : Option Nat) (spans : List Span) : Prop := metLease s (linesOf spans) = true ∧ late = none

/-- The leaf of an operation that computes now: eight plies later where a lease holds what it reads of d (R269; the model's choice, log
129), else with the state that its reads leave and the one that they see. -/
def leafRow (s : State) (opc : Nat) (q : GtsRec) (f : State → State → GtsRun → Nat → Leaf → Option State) : Option State :=
  match s.recs.find? (fun r => r.word = recordBits opc q ∧ (r.computing s.now).isSome) with
  | some r =>
    (match r.computing s.now with
     | some (i, l) =>
       let spans := outputSpans s r l
       if delays s l.late spans then
         some { s with recs := s.recs.map (fun x => if x.ident = r.ident then
           { r with leaves := r.leaves.mapIdx (fun k y => if k = i then { l with late := some (s.now + 8) } else y) } else x) }
       else f (readBy s r.who spans).1 (readBy s r.who spans).2 r i l
     | none => none)
  | none => none

/-- GELT and GELTS on F32, BF16 and I32 (R359): the element functions of VADD, VSUB, VMUL, VMAX, VMIN and VFMA. -/
def eltValue (fmt opf a b d : Nat) : Nat :=
  if fmt = 0 then
    [f32Add a b, f32Sub a b, f32Mul a b, f32Max a b, f32Min a b].getD (opf % 8) (f32Fma a b d)
  else if fmt = 1 then
    [bf16Add a b, bf16Sub a b, bf16Mul a b, f32Max (a * 2 ^ 16) (b * 2 ^ 16) / 2 ^ 16, f32Min (a * 2 ^ 16) (b * 2 ^ 16) / 2 ^ 16].getD
      (opf % 8) (bf16Fma a b d)
  else
    let x : BitVec 32 := BitVec.ofNat 32 a
    let y : BitVec 32 := BitVec.ofNat 32 b
    if opf.testBit 3 ∧ opf % 8 = 0 then (BitVec.ofInt 32 (max (-2 ^ 31) (min (2 ^ 31 - 1) (x.toInt + y.toInt)))).toNat
    else if opf.testBit 3 ∧ opf % 8 = 1 then (BitVec.ofInt 32 (max (-2 ^ 31) (min (2 ^ 31 - 1) (x.toInt - y.toInt)))).toNat
    else [(x + y).toNat, (x - y).toNat, (x * y).toNat, if x.toInt < y.toInt then y.toNat else x.toNat].getD (opf % 8)
      (if y.toInt < x.toInt then y.toNat else x.toNat)

/-- A product element: the terms of blocks of 32 in ascending order, from d or, where d is replaced, from the first term (R360). -/
def productAt (j : LeafJob) (fromD : Bool) (i : Nat) (pl : Nat × Nat) (c : Nat) : Nat :=
  let terms := productTerms (blocksOf j.rd 1 j.a i) (blocksOf j.rd 2 j.b (j.leaf.col0 + c))
  if fromD then terms.foldl f32Add (elementsAt j 0 i pl c) else (terms.drop 1).foldl f32Add (terms.headD 0)

/-- A chunk of 64 elements of a row of `n`, the missing ones the identity (R361). -/
def chunkOf (identity : Nat) (x : Nat → Nat) (n q : Nat) : List Nat :=
  (List.range 64).map (fun k => if 64 * q + k < n then x (64 * q + k) else identity)

/-- The carry into a chunk: for the first the row's own, then the last result of the chunk before (R361). -/
def carryInto (f : Nat → Nat → Nat) (identity first : Nat) (x : Nat → Nat) (n : Nat) : Nat → Nat
  | 0 => first
  | q + 1 => f (carryInto f identity first x n q) ((scanAll f (chunkOf identity x n q)).getD 63 0)

/-- The combination of GSCAN and GRED and its identity (R187, R361): the maximum and −∞ of F32, the wrapping sum and 0 of I32, the
sum and −0 of F32. -/
def combination (j : LeafJob) : (Nat → Nat → Nat) × Nat :=
  if recOpf j.word % 2 = 1 then (f32Max, 0xFF800000)
  else if j.a.fmt = 2 then (fun a b => (BitVec.ofNat 32 a + BitVec.ofNat 32 b).toNat, 0)
  else (f32Add, 0x80000000)

/-- The carry of the n-th row of a leaf, and its carry out. -/
def carryIn (j : LeafJob) (n : Nat) : Nat := j.carry.getD n (combination j).2
def carryOut (j : LeafJob) (n i : Nat) (pl : Nat × Nat) : Nat :=
  carryInto (combination j).1 (combination j).2 (carryIn j n) (elementsAt j 1 i pl) j.leaf.cols ((j.leaf.cols + 63) / 64)

/-- The pan that a leaf sets: a seed, SCR 0 and PH 0 (R364). -/
def panOf (seed ph : Nat) : Pan := { seed := BitVec.ofNat 64 seed, scr := 0, ph := BitVec.ofNat 16 ph }

/-- Leaves, operation by operation. -/
def rowLeaf (s : State) : Instr → Option State
  | .gcopy q =>
    leafRow s 0x01 q fun u v r i l =>
      let j := jobAt v r i l
      some (leafDone u r i l (computePlies l (if j.d.isMx ∧ (r.tensors.getD 0 none).isSome then (64, 128) else (64, 64)) (fun h => h + 4))
        (each j (fun _ i pl c => elementsAt j 1 i pl c) ++
          (if j.d.isMx ∧ j.d.isUni = false ∧ j.a.isUni = false then j.rowList.flatMap (fun x => j.nibbles x.2.1) else [])) [] id)
  | .gconv q =>
    leafRow s 0x02 q fun u v r i l =>
      let j := jobAt v r i l
      some (leafDone u r i l (computePlies l (if j.d.isMx ∧ (r.tensors.getD 0 none).isSome then (64, 128) else (64, 64)) (fun h => h + 4))
        (each j (fun _ i pl c =>
          let x := elementsAt j 1 i pl c
          if 2 ≤ j.a.fmt ∧ j.a.fmt ≤ 7 ∧ 2 ≤ j.d.fmt ∧ j.d.fmt ≤ 7 ∧ j.a.bits < j.d.bits then
            (if j.a.fmt ≤ 4 then (BitVec.ofInt j.d.bits (BitVec.ofNat j.a.bits x).toInt).toNat else x % 2 ^ j.d.bits)
          else
            encodeValue j.d.fmt (if j.a.isMx ∧ j.d.fmt = 0 then 0 else recOpf r.word % 8)
              (if j.d.isMx then scaleOf j.rd 0 j.d 0 0 else 0)
              (valueOf j.a.fmt x (if j.a.isMx then scaleOf j.rd 1 j.a i ((l.col0 + c) / 32) else 0)))) [] id)
  | .gfill q =>
    leafRow s 0x03 q fun u v r i l =>
      let j := jobAt v r i l
      some (leafDone u r i l (computePlies l (64, 64) (fun h => h + 4)) (each j (fun _ _ _ _ => recArg r.word % 2 ^ j.d.bits)) [] id)
  | .gelt q =>
    leafRow s 0x04 q fun u v r i l =>
      let j := jobAt v r i l
      if j.d.fmt ≤ 2 ∧ recOpf r.word % 8 ≤ (if j.d.fmt = 2 then 4 else 5) then
        some (leafDone u r i l (computePlies l (64, 64) (fun h => h + 4))
          (each j (fun _ i pl c =>
            eltValue j.d.fmt (recOpf r.word) (elementsAt j 1 i pl c) (elementsAt j 2 i pl c) (elementsAt j 0 i pl c))) [] id)
      else none
  | .gelts q =>
    leafRow s 0x05 q fun u v r i l =>
      let j := jobAt v r i l
      if j.d.fmt ≤ 2 ∧ recOpf r.word % 8 ≤ (if j.d.fmt = 2 then 4 else 5) then
        some (leafDone u r i l (computePlies l (64, 64) (fun h => h + 4))
          (each j (fun _ i pl c =>
            eltValue j.d.fmt (recOpf r.word) (elementsAt j 1 i pl c) (recArg r.word % 2 ^ j.d.bits) (elementsAt j 0 i pl c))) [] id)
      else none
  | .gmma q =>
    leafRow s 0x06 q fun u v r i l =>
      let j := jobAt v r i l
      match r.tensors.getD 1 none, r.tensors.getD 2 none with
      | some a, some b =>
        some (leafDone u r i l (computePlies l (mxEdge (a.fmt - 8), mxEdge (b.fmt - 8)) (fun _ => 56 + 128 * ((a.extent 0 + 127) / 128)))
          (each j (fun _ i pl c => productAt j true i pl c)) [] id)
      | _, _ => none
  | .gmmaz q =>
    leafRow s 0x07 q fun u v r i l =>
      let j := jobAt v r i l
      match r.tensors.getD 1 none, r.tensors.getD 2 none with
      | some a, some b =>
        some (leafDone u r i l (computePlies l (mxEdge (a.fmt - 8), mxEdge (b.fmt - 8)) (fun _ => 56 + 128 * ((a.extent 0 + 127) / 128)))
          (each j (fun _ i pl c => productAt j false i pl c)) [] id)
      | _, _ => none
  | .gscan q =>
    leafRow s 0x08 q fun u v r i l =>
      let j := jobAt v r i l
      let f := (combination j).1
      some (leafDone u r i l (computePlies l (64, 64) (fun h => h + 12))
        (eachWhole j (fun n i pl c =>
          f (carryInto f (combination j).2 (carryIn j n) (elementsAt j 1 i pl) l.cols (c / 64))
            ((scanAll f (chunkOf (combination j).2 (elementsAt j 1 i pl) l.cols (c / 64))).getD (c % 64) 0)))
        (j.rowList.map (fun x => carryOut j x.1 x.2.1 x.2.2)) id)
  | .gred q =>
    leafRow s 0x09 q fun u v r i l =>
      let j := jobAt v r i l
      some (leafDone u r i l (computePlies l (64, 64) (fun h => h + 12))
        (if l.col0 + l.cols = j.a.extent 0 then
          j.rowList.map (fun x => putRow j.d x.2.1 0 [carryOut j x.1 x.2.1 x.2.2] x.2.2) else [])
        (j.rowList.map (fun x => carryOut j x.1 x.2.1 x.2.2)) id)
  | .ggather q =>
    leafRow s 0x0A q fun u v r i l =>
      let j := jobAt v r i l
      some (leafDone u r i l (computePlies l (64, 64) (fun h => h + 4))
        (each j (fun _ i pl c => elementsAt j 1 (l.index.getD (i - l.row0) 0) pl c)) [] id)
  | .gbprod q =>
    leafRow s 0x0F q fun u v r i l =>
      let j := jobAt v r i l
      let n := 64 * 2 ^ (recOpf r.word % 8)
      let seed := recArg r.word + 2 * i
      some (leafDone u r i l (computePlies l (64, 64) (fun h => 4 * h + 8))
        (eachWhole j (fun row i pl c =>
          (List.range n).countP (fun k =>
            panValue 14 (panOf seed 0) (n * row + k) (c % 64) < min (elementsAt j 1 i pl c) 1024 &&
              panValue 15 (panOf (seed + 1) 0) (n * row + k) (c % 64) < min (elementsAt j 2 i pl c) 1024))) []
        (fun c => (c.setPan 14 (panOf seed (n * (l.rows * l.planes.length)))).setPan 15
          (panOf (seed + 1) (n * (l.rows * l.planes.length)))))
  | .gbdraw q =>
    leafRow s 0x10 q fun u v r i l =>
      let j := jobAt v r i l
      let seed := recArg r.word + i
      some (leafDone u r i l (computePlies l (64, 4) (fun h => h + 8))
        (eachWhole j (fun row i pl c =>
          let w (m : Nat) : Nat := (rowOf j.rd 1 j.a i (16 * l.col0) (16 * l.cols) pl).getD (16 * c + m) 0
          let upTo (m : Nat) : Nat := ((List.range m).map w).sum
          if upTo 16 = 0 then 2 ^ 32 - 1
          else (List.range 16).countP (fun m => upTo (m + 1) ≤ panValue 15 (panOf seed 0) row (16 * c % 64) * upTo 16 / 1024))) []
        (fun c => c.setPan 15 (panOf seed (l.rows * l.planes.length))))
  | _ => none

/-! ## Records and their cores (R365, R370 to R376) -/

/-- A record as it goes on. -/
def recordAs (s : State) (r : GtsRun) : State := { s with recs := s.recs.map (fun x => if x.ident = r.ident then r else x) }

/-- A record that runs no leaf because of a check, at this ply (R357, R376). -/
def refusedAt (r : GtsRun) (cause sub addr child : Nat) (lvl now at0 : Nat) : GtsRun :=
  { r with stop := some at0, latest := max r.latest now, fault := some { lvl := lvl, cause := cause, sub := sub, addr := addr, child := child } }

/-- What the first leaf of a record to go to a core finds wrong there: cause and subcode (R371). -/
def coreRefusal (s : State) (r : GtsRun) (n : Nat) : Option (Nat × Nat) :=
  let c := s.core n
  let m := s.pmap (n / 1536)
  let k := m.logicalCore (m.logicalChip (n / 1536)) (n % 1536)
  if ∃ e ∈ r.held, e.1 = n then none
  else if m.state (m.logicalChip (n / 1536)) k ≠ 0 then some (0x0D, m.state (m.logicalChip (n / 1536)) k)
  else if c.run ≠ .idle ∨ s.now < c.idleFrom ∨ c.saving ≠ none ∨ c.restoring ≠ none ∨ c.reserved ≠ none then some (0x0F, 0x20)
  else match (List.range 16).find? (fun b => c.tinuse.getLsbD b) with
    | some b => some (0x0F, b)
    | none => if c.tinuse.getLsbD 16 then some (0x0F, 0x10) else if c.tinuse.getLsbD 17 then some (0x0F, 0x11) else none

/-- The base of window 5 of a core, by its logical place on its chip (R252, R371). -/
def registerBase (s : State) (n : Nat) : Nat :=
  let m := s.pmap (n / 1536)
  let k := m.logicalCore (m.logicalChip (n / 1536)) (n % 1536)
  0xFFFE * 2 ^ 48 + k / 64 * 2 ^ 43 + k % 64 * 2 ^ 37 + 5 * 2 ^ 32

/-- A core that a completed record leaves (R374). -/
def leftBehind (c : Core) : Core :=
  { c with
    reserved := none, run := .idle, q := [], m := [], s := [], tile := [], acc := [], scale := [], uniA := 0, uniB := 0, tconf := 0,
    tinuse := 0, tdirty := 0 }

/-- The report of a record, lowest byte first (R376): KIND, RLVL, FLVL, CAUSE, SUB, FADDR, CMASK, FCHILD, NDONE. -/
def reportOf (r : GtsRun) : Nat :=
  let full := (List.range r.children).filter (fun k => r.leaves.all (fun l => l.child ≠ k ∨ l.phase = .ended))
  let common := ((full.filter (fun k => k < 64)).map (fun k => 2 ^ k)).sum * 2 ^ 128 + full.length * 2 ^ 224
  match r.fault with
  | none => 0xFE + r.lvl * 2 ^ 8 + (2 ^ 32 - 1) * 2 ^ 192 + common
  | some f => 0xFD + r.lvl * 2 ^ 8 + f.lvl * 2 ^ 16 + f.cause * 2 ^ 24 + f.sub * 2 ^ 32 + f.addr % 2 ^ 64 * 2 ^ 64 + f.child * 2 ^ 192 + common

/-- A record completes at this ply: its operation is complete, its cores are released and cleared with the bytes that its leaves
staged into, and its report is on its way; a faulted one will raise an event at the submitter as it performs (R374, R376, R378). -/
def completed (s : State) (r : GtsRun) : State :=
  let r1 : GtsRun := { r with done := some s.now }
  let t := r.held.foldl (fun t e => onCore t e.1 leftBehind) (recordAs s r1)
  let t := onCore t r.who (fun c => { c with
    ops := c.ops.map (fun o => if o.ident = r.op then { o with isOpen := false, due := s.now } else o) })
  let zeros := r.held.flatMap (fun e => bytesAt (coreBase e.1 + 0x380000) (64 * e.2) 0)
  let t : State := { t with
    tags := r.held.foldl (fun m e => (List.range (4 * e.2)).foldl (fun m i => mapSet false m ((coreBase e.1 + 0x380000) / 16 + i) false) m) s.tags
    leases := s.leases.filter (fun l => ¬∃ e ∈ r.held, (coreBase e.1 + 0x380000) / 64 ≤ l.line ∧ l.line < (coreBase e.1 + 0x380000) / 64 + e.2) }
  match r.host with
  | none =>
    let t : State := { t with
      mem := writeBytes s.mem zeros
      accs := s.accs ++ [{ ident := 2 * s.nextId + 1, op := 0, core := r.who, rank := 16 * r.who + 6, order := s.nextId,
                           due := s.now + 4, landAt := s.now + 4, delayed := false, write := true,
                           spans := [{ addr := r.home, len := 32, off := 0 }], data := BitVec.ofNat 2048 (reportOf r1),
                           capTag := none,
                           dest := match r.fault with | some f => .report f.lvl (BitVec.ofNat 64 r.addr) | none => .nowhere }]
      nextId := s.nextId + 1 }
    t
  | some chip =>
    { t with
      mem := writeBytes s.mem zeros
      posted := s.posted ++ [{ chip := chip, src := 0x40, code := (Config.eventCode 0x40).toNat, data := BitVec.ofNat 320 (reportOf r1) }] }

/-- The record of an operation that its unit runs and has not stopped. -/
def recordNow (s : State) (opc : Nat) (q : GtsRec) (more : GtsRun → Bool) : Option GtsRun :=
  s.recs.find? (fun r => r.word = recordBits opc q ∧ r.accepted ≠ none ∧ r.done = none ∧ r.stop = none ∧ more r)

/-- Records, and leaves on their way. -/
def rowRecord (s : State) : Instr → Option State
  | .gnop q => (recordNow s 0x00 q (fun _ => true)).map (fun r => recordAs s { r with stop := some 0 })
  | .gcwait q =>
    match recordNow s 0x11 q (fun r => !s.accs.any (fun a => a.dest = .counter r.ident)) with
    | some r =>
      let off := ((r.tensors.getD 1 none).map Tensor.off).getD 0
      some { s with
        accs := s.accs ++ [{ ident := 2 * s.nextId + 1, op := r.op, core := r.who, rank := 16 * r.who + 6, order := s.nextId, due := s.now,
                             landAt := s.now, delayed := false, write := false,
                             spans := [{ addr := operandHome s r.who off, len := 8, off := 0 }], data := 0, capTag := none,
                             dest := .counter r.ident }]
        nextId := s.nextId + 1 }
    | none => none
  | .recordAcceptance k =>
    match s.recs.find? (fun r => r.ident = k) with
    | some r =>
      let spans := descriptorSpans s r
      if canAccept s r = false then none
      else if delays s r.late spans then some (recordAs s { r with late := some (s.now + 8) })
      else
        let q := acceptChecks (readBy s r.who spans).2 r
        let r1 : GtsRun := { r with accepted := some s.now, latest := s.now, tensors := q.1 }
        some (recordAs (readBy s r.who spans).1 (match q.2.2 with
          | [] => { r1 with leaves := q.2.1.1, children := q.2.1.2 }
          | f :: fs =>
            let low := fs.foldl (fun f g => if g.1 * 256 + g.2.1 < f.1 * 256 + f.2.1 then g else f) f
            refusedAt r1 low.1 low.2.1 low.2.2 (2 ^ 32 - 1) r.lvl s.now 0))
    | none => none
  | .leafDispatch k =>
    match s.recs.find? (fun r => r.ident = k) with
    | some r =>
      if r.dispatchDue s.now then
        match r.nextPlanned with
        | some (i, l) =>
          let spans := indexSpans s r l
          let u := (readBy s r.who spans).1
          let refused (cause sub addr : Nat) : Option State :=
            some (recordAs u (refusedAt r cause sub addr l.child (if r.lvl = 0 then 0 else 1) s.now i))
          if delays s l.late spans then
            some (recordAs s { r with leaves := r.leaves.mapIdx (fun k y => if k = i then { l with late := some (s.now + 8) } else y) })
          else match coreRefusal u r l.core, readIndices (readBy s r.who spans).2 r l with
          | none, .ok vs =>
            some (onCore (recordAs u { r with
                leaves := r.leaves.mapIdx (fun k y => if k = i then
                  { l with phase := .queued, dispatched := s.now, index := vs, late := none } else y)
                held := mapPut r.held l.core (mapGet 0 r.held l.core)
                stop := if i + 1 = r.leaves.length then some (i + 1) else none }) l.core
              (fun c => { c with reserved := some r.ident }))
          | some f, .ok _ => refused f.1 f.2 (registerBase s l.core)
          | none, .error g => refused g.1 g.2.1 g.2.2
          | some f, .error g =>
            if f.1 * 256 + f.2 ≤ g.1 * 256 + g.2.1 then refused f.1 f.2 (registerBase s l.core) else refused g.1 g.2.1 g.2.2
        | none => none
      else none
    | none => none
  | .leafStart n =>
    match s.recs.findSome? (fun r => if r.running then (r.startable n s.now).map (fun x => (r, x)) else none) with
    | some (r, i, l) =>
      let grans := leafInputs r.word r.tensors l
      let staged := (grans.mapIdx (fun j g => (j, operandHome s r.who (64 * g.2)))).foldl (fun (acc : State × Nat) x =>
        ((stageGranule acc.1 r.op n x.2 x.1).1, max acc.2 (stageGranule acc.1 r.op n x.2 x.1).2)) (s, 0)
      some (recordAs staged.1 { r with
        leaves := r.leaves.mapIdx (fun k y => if k = i then
          { l with phase := .staging, computeAt := s.now + staged.2 + (grans.length + 3) / 4 } else y)
        held := mapPut r.held n (max (mapGet 0 r.held n) grans.length) })
    | none => none
  | .leafEnd n =>
    match s.recs.findSome? (fun r => if r.running then (r.ending n s.now).map (fun x => (r, x)) else none) with
    | some (r, i, l) =>
      let ended : GtsRun := { r with leaves := r.leaves.mapIdx (fun k y => if k = i then { l with phase := .ended } else y) }
      if recCtr r.word = 0 then some (recordAs s { ended with latest := max r.latest s.now })
      else
        let home := ownHome s r.who (recCtr r.word)
        let writes := s.accs.filter (fun x => x.write && x.core = n && x.op = r.op)
        let ply := max (s.now + performLag (distance n home) - 4) (writes.foldl (fun m x => max m (x.due + 1)) 0)
        some { recordAs s { ended with latest := max r.latest ply } with
          atoms := s.atoms ++ [{ ident := 2 * s.nextId + 1, op := r.op, core := n, rank := 16 * n, order := s.nextId, due := ply,
                                 landAt := ply, addr := home, kind := if recBar r.word then .barrier else .add,
                                 x := BitVec.ofNat 64 (leafBytes r l), y := 0, dest := none }]
          nextId := s.nextId + 1 }
    | none => none
  | .recordCompletion k =>
    match s.recs.find? (fun r => r.ident = k) with
    | some r =>
      if r.settled ∧ r.latest ≤ s.now then some (completed s r) else none
    | none => none
  | _ => none

/-! ## Collectives (R363, R407, R451 to R460) -/

/-- The collective record of an operation that goes to the collective sequencers. -/
def handed (s : State) (opc : Nat) (q : GtsRec) : Option State :=
  (recordNow s opc q (fun r => !s.colls.any (fun c => c.record = r.ident))).map (fun r =>
    { s with colls := s.colls ++ [{ record := r.ident, started := false, chip := r.unit / 1536, die := 0, frame := 0, sigEnd := 0, done := 0,
                                    steps := [] }] })

/-- An engine starts at this ply on a frame, at a place (R434); a package of a joined pod runs its job. -/
def begun (t : State) (p frame index guardEnd : Nat) (at0 : LinkPlace) : State :=
  onChip (onEngine t p (fun e => { e with
      run := 1, lpc := BitVec.ofNat 14 index, frame := frame, at0 := at0, cursor := at0, readAll := false, ahead := [],
      lastPly := t.now, lastCount := 0, stopAt := none, idleAt := none, delvs := [], guardEnd := guardEnd, armed := false,
      resumeAt := none, job := some (t.chip (p / 12)).tag }))
    (p / 12) (fun c => { c with bstate := if c.bstate = 4 then 5 else c.bstate })

/-- A link die takes part in a collective: its signature goes into its buffer, the engines of its ports start on the frame
F = a + LEAD, and its steps are set (R452, R453, R455). -/
def takingPart (r : GtsRun) (chip fmt : Nat) (s : State) (x : Nat × Nat) : State :=
  let f := r.accepted.getD 0 + entryLead x.2
  let word := entryTid x.2 + recArg r.word % 2 ^ 12 * 2 ^ 12 + entryOrder x.2 % 2 * 2 ^ 24 + collectiveOp r.word * 2 ^ 25 +
    fmt % 16 * 2 ^ 28 + entryCount x.2 * 2 ^ 32
  let t : State := { s with
    accs := s.accs ++ [{ ident := 2 * s.nextId + 1, op := 0, core := 1536 * chip, rank := 2 ^ 32 + 2 * (12 * chip + 2 * x.1 + 1) + 1,
                         order := s.nextId, due := s.now, landAt := s.now, delayed := false, write := true,
                         spans := [{ addr := linkAddr chip x.1 (64 * entrySigBuf x.2), len := 64, off := 0 }],
                         data := BitVec.ofNat 2048 word, capTag := none, dest := .nowhere }]
    nextId := s.nextId + 1 }
  let ports := ((List.range 2).filter (fun q => (entryPorts x.2).testBit q)).map (fun q => 12 * chip + 2 * x.1 + q)
  let t := ports.foldl (fun t p =>
    if (t.chip chip).bstate.toNat < 3 then t
    else if f < t.now + 1024 then engineStops t p 0x11
    else readAhead readLimit (begun t p f (entryStart x.2 (p % 2)) (f + entrySigEnd x.2 + 12801)
      { index := entryStart x.2 (p % 2) % 2 ^ 14, base := f, loops := [] }) p (t.now + 1024)) t
  { t with
    colls := t.colls ++ [{ record := r.ident, started := true, chip := chip, die := x.1, frame := f, sigEnd := entrySigEnd x.2,
                           done := f + entryDone x.2,
                           steps := (entryStepList s chip x.1 x.2).map (fun w => (f + stepStamp w, 0, BitVec.ofNat 128 w)) }] }

/-- A block of 32 elements of a chunk buffer, element by element. -/
def blockElement (s : State) (chip l off k : Nat) : Nat := numberAt s (linkAddr chip l (off + 4 * k)) 4

/-- The writes of a step at this ply: those of the next block, and of the one after it where the step has one, each two plies on
(R458). -/
def stepped (s : State) (chip l : Nat) (w : BitVec 128) (f : Nat → List (Nat × Nat × Nat)) : Option State :=
  match stepDue s chip l w with
  | none => none
  | some (c, b) =>
    let ws := f b ++ (if b + 1 < stepBlocks w.toNat then f (b + 1) else [])
    some { s with
      colls := s.colls.map (fun x => if x = c then
        { c with steps := c.steps.flatMap (fun x =>
            if x.1 ≤ s.now ∧ x.2.2 = w ∧ x.2.1 = b then (if b + 2 < stepBlocks w.toNat then [(s.now + 1, b + 2, w)] else []) else [x]) }
        else x)
      accs := s.accs ++ ws.mapIdx (fun j x =>
        { ident := 2 * (s.nextId + j) + 1, op := 0, core := 1536 * chip, rank := 2 ^ 32 + 2 * (12 * chip + 2 * l + 1) + 1,
          order := s.nextId + j, due := s.now + 2, landAt := s.now + 2, delayed := false, write := true,
          spans := [{ addr := linkAddr chip l x.1, len := x.2.1, off := 0 }], data := BitVec.ofNat 2048 x.2.2, capTag := none,
          dest := .nowhere })
      nextId := s.nextId + ws.length }

/-- Whether TOPK takes element i: fewer than k elements stand before it in magnitude, ties to the lower index (R459). -/
def topOf (k : Nat) (x : Nat → Nat) (i : Nat) : Bool :=
  (List.range 32).countP (fun j => x i % 2 ^ 31 < x j % 2 ^ 31 || (x j % 2 ^ 31 = x i % 2 ^ 31 && j < i)) < k

/-- 32 elements of 32 bits, the lowest first. -/
def packed (x : Nat → Nat) : Nat := ((List.range 32).map (fun i => x i % 2 ^ 32 * 2 ^ (32 * i))).sum

/-- The bytes of d's footprint, a set of bytes, on the chip of the submitter. -/
def ownBytes (s : State) (r : GtsRun) : Nat :=
  match r.tensors.getD 0 none with
  | some d =>
    coveredBytes (d.footprint.filter (fun x =>
      match chipName s r.who (BitVec.ofNat 64 x.1).toNat with
      | .own _ => true
      | _ => false))
  | none => 0

/-- Collectives, and the steps of their compression. -/
def rowCollective (s : State) : Instr → Option State
  | .gagather q => handed s 0x0B q
  | .grscat q => handed s 0x0C q
  | .gared q => handed s 0x0D q
  | .ga2a q => handed s 0x0E q
  | .collectiveStart chip =>
    match startable s chip with
    | some (c, r) =>
      let a := (r.tensors.getD 1 none).getD (parseTensor 0)
      let dies := (List.range 6).filterMap (fun l => (matchEntry s chip l r.word a.count).map (fun e => (l, e)))
      let stops (cause sub : Nat) : Option State :=
        some (recordAs { s with colls := s.colls.filter (fun x => x ≠ c) } (refusedAt r cause sub r.addr (2 ^ 32 - 1) r.lvl s.now 0))
      if r.cap.perm / 2 ^ 5 % 2 = 0 then stops 0x0A 5
      else if ¬∃ g, groupMembers s chip r.word = some g ∧ (s.pmap chip).logicalChip chip ∈ g then stops 0x0D 2
      else if (recOpc r.word = 0x0C ∨ recOpc r.word = 0x0D) ∧ [0, 1].any (fun k => (r.tensors.getD k none).any (fun t => 2 < t.fmt)) then stops 0x14 0x25
      else if dies = [] ∨ ∃ x ∈ dies, entryBad s chip x.1 r.word a.fmt x.2 then stops 0x14 0x27
      else some (dies.foldl (takingPart r chip a.fmt) { s with colls := s.colls.filter (fun x => x ≠ c) })
    | none => none
  | .collectiveCompletion chip =>
    match finishable s chip with
    | some r =>
      let t : State := { s with colls := s.colls.filter (fun c => ¬(c.record = r.ident ∧ c.chip = chip)) }
      if recCtr r.word = 0 then some (recordAs t { r with stop := some 0, latest := max r.latest s.now })
      else
        some { recordAs t { r with stop := some 0, latest := max r.latest (s.now + 30) } with
          atoms := s.atoms ++ [{ ident := 2 * s.nextId + 1, op := r.op, core := r.who, rank := 2 ^ 32 + 2 * (12 * chip + 1) + 1,
                                 order := s.nextId, due := s.now + 30, landAt := s.now + 30, addr := ownHome s r.who (recCtr r.word),
                                 kind := if recBar r.word then .barrier else .add,
                                 x := BitVec.ofNat 64 (ownBytes s r),
                                 y := 0, dest := none }]
          nextId := s.nextId + 1 }
    | none => none
  | .topk chip l w =>
    stepped s chip l w (fun b =>
      let x := blockElement s chip l (stepSrc w.toNat + 128 * b)
      let k := stepK w.toNat
      let taken := (List.range 32).filter (topOf k x)
      [(stepDst w.toNat + b * recordSize w.toNat, recordSize w.toNat,
        (taken.map (fun i => 2 ^ i)).sum + (taken.mapIdx (fun j i => x i * 2 ^ (32 * (j + 1)))).sum)])
  | .scadd chip l w =>
    stepped s chip l w (fun b =>
      let rec0 := numberAt s (linkAddr chip l (stepSrc w.toNat + b * recordSize w.toNat)) (recordSize w.toNat)
      ((List.range 32).filter (fun i => rec0.testBit i)).map (fun i =>
        (stepDst w.toNat + 128 * b + 4 * i, 4,
          f32Add (blockElement s chip l (stepDst w.toNat + 128 * b) i)
            (rec0 / 2 ^ (32 * ((List.range i).countP (fun m => rec0.testBit m) + 1)) % 2 ^ 32))))
  | .q4 chip l w =>
    stepped s chip l w (fun b =>
      let v (i : Nat) : Nat := f32Add (blockElement s chip l (stepSrc w.toNat + 128 * b) i) (blockElement s chip l (stepEf w.toNat + 128 * b) i)
      let mx := (List.range 32).foldl (fun m i => max m (v i % 2 ^ 31)) 0
      let scale := if mx = 0 ∨ 0x7F800000 ≤ mx then 0 else seventh mx
      let q (i : Nat) : Int := mxCode (decodeF32 (v i)) scale 0 0 7
      [(stepDst w.toNat + 18 * b, 18, scale + ((List.range 32).map (fun i => (BitVec.ofInt 4 (q i)).toNat * 2 ^ (16 + 4 * i))).sum),
       (stepEf w.toNat + 128 * b, 128, packed (fun i => if scale = 0 then v i else f32Sub (v i) (mxExact (q i) scale).f32))])
  | .dq4add chip l w =>
    stepped s chip l w (fun b =>
      let rec0 := numberAt s (linkAddr chip l (stepSrc w.toNat + 18 * b)) 18
      [(stepDst w.toNat + 128 * b, 128, packed (fun i =>
        f32Add (blockElement s chip l (stepDst w.toNat + 128 * b) i)
          (mxExact (BitVec.ofNat 4 (rec0 / 2 ^ (16 + 4 * i))).toInt (rec0 % 2 ^ 16)).f32))])
  | _ => none

end Sys2Proof.Safety

end
end

