-- ==== Sys2Proof/Safety/Recovery.lean ====
section
/-! DEFINITION. What the manual gives link-engine faults, pre-emption plies, halts, replays, host launches and resets, row by row, for
the statements: each row gives the whole state after the event. -/

noncomputable section

namespace Sys2Proof.Safety

open Sys2Proof.Machine

/-! ## Engines that stop (R446, R447) -/

/-- The subcode of a link instruction that may not issue: 0x10 for one out of order or the ninth of its ply, else that of a field
outside its limits (R434, R446). -/
def illSubcode (s : State) (p : Nat) (x : LinkEntry) (i : Instr) : Option Nat :=
  if x.broken then some 0x10 else linkIllegal s p i

/-- The instructions of link engines. -/
def isLink : Instr → Bool
  | .send _ _ _ _ => true
  | .sendSig _ _ _ _ => true
  | .land _ _ _ _ => true
  | .fwd _ _ _ _ => true
  | .redAddF32 _ _ _ _ => true
  | .redAddBf16 _ _ _ _ => true
  | .redAddI32 _ _ _ _ => true
  | .redMaxF32 _ _ _ _ => true
  | .redMaxBf16 _ _ _ _ => true
  | .redMaxI32 _ _ _ _ => true
  | .guard _ _ _ => true
  | .linkLoop _ _ => true
  | .endl => true
  | .mark _ _ _ => true
  | .ckpt _ _ => true
  | .fill _ _ _ _ => true
  | .delv _ _ _ _ => true
  | .slot _ _ _ _ _ _ _ => true
  | .serve _ _ _ => true
  | .halt _ => true
  | .reservedOpc _ => true
  | _ => false

/-- An engine pauses at ply P: it stops, and the bitmap of its pause store is cleared, 256 bytes a write (R447, R448). -/
def pausing (s : State) (p ply : Nat) : State :=
  if (s.port p).engine.run ≠ 1 then s
  else
    { onEngine (stilled s p 1) p (fun e => { e with stopAt := some ply, pausedAt := ply, kept := [], resumeAt := none }) with
      accs := s.accs ++ (List.range 8).map (fun j =>
        { ident := 2 * (s.nextId + j) + 1, op := 0, core := 1536 * (p / 12), rank := 2 ^ 32 + 2 * p, order := s.nextId + j, due := s.now,
          landAt := s.now, delayed := false, write := true,
          spans := [{ addr := linkAddr (p / 12) (p % 12 / 2) (0x2000000 + 0x40000 * (p % 2) + (0x3F800 + 256 * j)), len := 256, off := 0 }],
          data := 0, capTag := none, dest := .nowhere })
      nextId := s.nextId + 8 }

/-- A core of the job that is idle or halted at ply P asks for its save (R391, R393). -/
def askingAtP (s : State) (n : Nat) : State :=
  let c := s.core n
  if c.prply ≠ BitVec.allOnes 64 ∧ c.prply.toNat = s.now ∧ c.preDone = false ∧ c.run ≠ .running ∧ c.idleFrom ≤ s.now ∧ c.diverted = false then
    let kind : BitVec 2 := if c.run = .halted then 2 else 0
    onCore s n (fun c => { c with
      preDone := true
      saving := if c.saving = none then some (asked true kind) else c.saving.map (fun v => { v with again := some kind }) })
  else s

/-! ## Halt and replay (R464, R465, R469, R470) -/

/-- The cause of a recovery and its subcode: a locked port its number, a link failure its event. -/
def causeOf (r : Recovery) : Nat × Nat := if r.ev = 0x20 then (0x1A, r.port) else if r.ev = 0x21 then (0x18, 0) else (0x19, r.ev)

/-- Every core of the job meets the cause at the halt ply; in automatic mode it becomes idle first, its channels stop as a CHSTOP of
the ply before stops them, its thresholds are disarmed, and no launch that waits is left. -/
def haltingCore (r : Recovery) (s : State) (n : Nat) : State :=
  let src := if r.ev = 0x20 then 7 else if r.ev = 0x21 then 5 else 6
  onCore s n (fun c =>
    raising src 0 s.now (causeOf r).1 (causeOf r).2 (BitVec.ofNat 64 (r.t % 2 ^ 40 + r.origin % 2 ^ 16 * 2 ^ 40 + r.port * 2 ^ 56))
      (if r.auto then { c with
        run := .idle, held := 0, wait := none, arms := [], reserved := none, resume := none,
        fired := c.fired.filter (fun f => f.arm.kind ≠ 0)
        chans := c.chans.map (fun k => (k.1, if k.2.state ≠ 1 then k.2
          else if k.2.fetchAt = none then { k.2 with stopAt := some (s.now - 1) }
          else { k.2 with stopAt := some (s.now - 1), fetchAt := none, recOff := BitVec.ofNat 22 k.2.fetchOff,
                          next := BitVec.ofNat 32 (k.2.head.getD 0) })) } else c))

/-- The operation of a record that is dropped is over. -/
def closing (s : State) (r : GtsRun) : State :=
  onCore s r.who (fun c => { c with ops := c.ops.map (fun o => if o.ident = r.op then { o with isOpen := false, due := s.now } else o) })

/-- The halt ply of a package (R464): its engines stop, its collectives end, every core of the job meets the cause; automatic mode
drops the open records, manual mode completes them with a fault at level 4 and counts what a second failure cost (R465). -/
def halted (s : State) (chip : Nat) (r : Recovery) : State :=
  let opens := s.recs.filter (fun x => x.unit / 1536 = chip ∧ x.done = none)
  let bounds := ((s.cores.map Prod.fst).filter (fun n => n / 1536 = chip)).map (fun n =>
    let c := s.core n
    (n, [c.codeLo.toNat, c.codeHi.toNat, c.dtbase.toNat, c.dtlen.toNat]))
  let t := (portsAt s chip).foldl (fun s p => if (s.port p).engine.run = 1 ∨ (s.port p).engine.run = 2 then stilled s p 0
    else onEngine s p (fun e => { e with armed := false })) s
  let t := (jobOf s chip).foldl (haltingCore r) { t with
    colls := t.colls.filter (fun x => x.chip ≠ chip)
    accs := t.accs.filter (fun a => ¬∃ x ∈ opens, x.op ≠ 0 ∧ x.op = a.op)
    atoms := t.atoms.filter (fun a => ¬∃ x ∈ opens, x.op ≠ 0 ∧ x.op = a.op) }
  let t : State :=
    if r.auto then { opens.foldl closing t with recs := t.recs.filter (fun x => ∀ y ∈ opens, y.ident ≠ x.ident) }
    else
      opens.foldl (fun s x => completed s { x with
          fault := some { lvl := 4, cause := (causeOf r).1, sub := (causeOf r).2, addr := x.addr, child := 2 ^ 32 - 1 } })
        (if r.extra = 0 then t
         else (jobOf s chip).foldl (fun s n => onCore s n (fun c => { c with lost := BitVec.ofNat 8 (min 255 (c.lost.toNat + r.extra)) })) t)
  let c := t.chip chip
  let c : Chip := { c with
    recovery := some { r with halted := true, extra := 0, bounds := bounds }
    rcState := if r.auto then 1 else 2
    rcHalt := BitVec.ofNat 64 s.now
    rcReplay := if r.auto then BitVec.ofNat 64 r.replay else c.rcReplay
    vid := if r.auto then BitVec.ofNat 16 r.vid else c.vid }
  let data := c.rcstat.toNat + s.now % 2 ^ 64 * 2 ^ 64 + c.rcReplay.toNat * 2 ^ 128
  { t.setChip chip c with posted := t.posted ++ [{ chip := chip, src := 0x30, code := 1, data := BitVec.ofNat 320 data }] }

/-- A place of a link program some plies on, or back. -/
def shifted (d : Int) (at0 : LinkPlace) : LinkPlace :=
  { at0 with base := ((at0.base : Int) + d).toNat, loops := at0.loops.map (fun l => { l with outer := ((l.outer : Int) + d).toNat }) }

/-- A port at the replay ply, by its start value: a start at an index, a resumption at the restart point of the stage, or nothing
(R470). The engine then reads on. -/
def replaying (stage : Nat) (s : State) (p value : Nat) : State :=
  readAhead readLimit
    (if value < 0xFFFE then begun s p s.now value 0 { index := value % 2 ^ 14, base := s.now, loops := [] }
     else if value = 0xFFFE then
       (match (s.port p).engine.points.find? (fun x => x.1 = stage) with
        | some x =>
          let d : Int := (s.now : Int) - x.2.1
          let dst := shifted d x.2.2
          onEngine (begun s p (((s.port p).engine.frame : Int) + d).toNat dst.index 0 dst) p (fun e => { e with
            points := e.points.map (fun x => if x.1 = stage then (stage, s.now, dst) else x) })
        | none => s)
     else s) p (s.now + 1024)

/-- A core as a full launch sets it (R12, R120, R131): its registers at their reset values but those that the launch names; its
scratchpad, tiles, accumulators, brine registers and queue slots stay, with the queues empty, and so does what is in flight. -/
def launched (c : Core) (entry codeLo codeHi : Nat) (regs : Sys2Proof.Map Word) (caps : Sys2Proof.Map Cap) (dtbase dtlen first : Nat) : Core :=
  { Core.reset with
    pc := BitVec.ofNat 22 entry, run := .running, codeLo := BitVec.ofNat 32 codeLo, codeHi := BitVec.ofNat 32 codeHi, s := regs, c := caps,
    nextIssue := first, dtbase := BitVec.ofNat 22 dtbase, dtlen := BitVec.ofNat 16 dtlen,
    q := c.q.map (fun e => (e.1, { e.2 with head := 0, count := 0 })), tile := c.tile, acc := c.acc, b := c.b, pend := c.pend,
    busy := c.busy, mmas := c.mmas, ops := c.ops }

/-- A register file that holds some words, zero elsewhere. -/
def holding64 (l : List (Nat × Word)) : Sys2Proof.Map Word := l.foldl (fun m e => mapSet 0 m e.1 e.2) []

/-- A core of a package at the replay ply: where its restart entry is valid, a full launch there, with the stage, its parity, the VID
and the link key in s1 to s4 (R470). -/
def relaunching (chip : Nat) (r : Recovery) (s : State) (k : Nat) : State :=
  let m := s.pmap chip
  let e := numberAt s (linkAddr chip 0 (0x1C20000 + 4 * k)) 4
  if e.testBit 31 = false ∨ e / 2 ^ 22 % 2 ^ 9 ≠ 0 then s
  else
    let n := 1536 * chip + m.physCore (m.logicalChip chip) k
    let b := mapGet [0, 0, 0, 0] r.bounds n
    onCore s n (fun c => launched c (e % 2 ^ 22) (b.getD 0 0) (b.getD 1 0)
      (holding64 ([(1, r.stage), (2, r.stage % 2), (3, r.vid), (4, r.origin % 2 ^ 16 + r.port % 2 ^ 4 * 2 ^ 16)].map
        (fun x => (x.1, BitVec.ofNat 64 x.2))))
      (mapSet Cap.null [] 0 (defaultCap s n)) (b.getD 2 0) (b.getD 3 0) s.now)

/-- Faults of link engines, pre-emption plies, halts, replays, launches and resets. -/
def rowRecovery (s : State) : Instr → Option State
  | .preemptionPly chip =>
    match (s.chip chip).preempt with
    | some p =>
      if p ≤ s.now then
        let t := (portsAt s chip).foldl (fun s q => pausing s q p) s
        let t := onChip ((jobOf t chip).foldl askingAtP t) chip (fun c => { c with preempt := none, resumeQ := c.resumeQ.filter (fun q => p < q) })
        some ((jobOf s chip).foldl (fun t n =>
          if (t.core n).resume = none ∧ (t.core n).rsply.toNat ≤ p then onCore t n (fun c => { c with rsply := BitVec.allOnes 64 }) else t) t)
      else none
    | none => none
  | .haltPly chip =>
    match (s.chip chip).recovery with
    | some r => if r.halted = false ∧ r.t + 12800 ≤ s.now then some (halted s chip r) else none
    | none => none
  | .replayPly chip =>
    match (s.chip chip).recovery with
    | some r =>
      if r.auto = true ∧ r.halted = true ∧ r.replay ≤ s.now ∧ r.stage < 2 ^ 16 ∧ r.vid < 2 ^ 16 then
        let h := (recoveryHeader s chip).getD 0
        let t := onChip s chip (fun c => { c with
          recovery := none, rcState := 0, curStage := BitVec.ofNat 16 r.stage, rcCur := BitVec.ofNat 64 (s.now - headerCw h),
          curStart := s.now, prvStage := 0xFFFF, rcPrv := BitVec.allOnes 64 })
        let t := (portsAt t chip).foldl (fun t p => onEngine t p (fun e => { e with job := none })) t
        let t := ((List.range 12).map (fun q => 12 * chip + q)).foldl (fun t p =>
          replaying r.stage t p (numberAt s (linkAddr chip 0 (0x1C30000 + 2 * ((r.vid * headerStages h + r.stage) * 12 + p % 12))) 2)) t
        some ((List.range 1536).foldl (relaunching chip r) t)
      else none
    | none => none
  | .launch chip =>
    match commandAt s chip 4 with
    | some w =>
      if commandRefused s chip w then some (answered (consumed s chip) chip 3 (w / 2 ^ 256 % 2 ^ 32))
      else
        let m := s.pmap chip
        let n := 1536 * chip + m.physCore (m.logicalChip chip) (w % 2 ^ 16)
        let b := coreBase n + w / 2 ^ 64 % 2 ^ 32
        let caps := (List.range 16).foldl (fun l k =>
          mapSet Cap.null l k { tag := mapGet false s.tags ((b + 0x200 + 16 * k) / 16), bits := BitVec.ofNat 128 (readNow s (b + 0x200 + 16 * k) 16) }) []
        some (onCore (consumed s chip) n (fun c => launched c (w / 2 ^ 32 % 2 ^ 32) (readNow s (b + 0x300) 8) (readNow s (b + 0x308) 8)
          (holding64 ((List.range 63).map (fun k => (k + 1, BitVec.ofNat 64 (readNow s (b + 8 * k) 8))))) caps 0 0 (s.now + 1)))
    | none => none
  | .reset chip =>
    some { s with
      cores := s.cores.filter (fun e => e.1 / 1536 ≠ chip)
      accs := s.accs.filter (fun a => a.core / 1536 ≠ chip)
      atoms := s.atoms.filter (fun a => a.core / 1536 ≠ chip)
      leases := s.leases.filter (fun l => l.die / 24 ≠ chip)
      pmaps := mapDel s.pmaps chip
      slots := s.slots.filter (fun x => x.port / 12 ≠ chip)
      recs := s.recs.filter (fun r => r.unit / 1536 ≠ chip)
      ports := s.ports.filter (fun e => e.1 / 12 ≠ chip)
      claims := s.claims.filter (fun c => c.port / 12 ≠ chip)
      sends := s.sends.filter (fun r => r.port / 12 ≠ chip)
      outs := s.outs.filter (fun x => x.port / 12 ≠ chip)
      flits := s.flits.filter (fun f => f.port / 12 ≠ chip)
      ctrls := s.ctrls.filter (fun c => c.port / 12 ≠ chip)
      outMsgs := s.outMsgs.filter (fun m => m.port / 12 ≠ chip)
      inMsgs := s.inMsgs.filter (fun m => m.chip ≠ chip)
      charges := s.charges.filter (fun x => x.chip ≠ chip)
      colls := s.colls.filter (fun x => x.chip ≠ chip)
      xfers := s.xfers.filter (fun x => x.chip ≠ chip)
      marks := s.marks.filter (fun m => m.port / 12 ≠ chip)
      posted := s.posted.filter (fun e => e.chip ≠ chip)
      chips := mapPut s.chips chip Chip.reset }
  | _ => none

end Sys2Proof.Safety

end
end

