-- ==== Sys2Proof/Certificates/Slice0/Obligations.lean ====
section
/-! DEFINITION. The statements for the provers. The tables `row…` that they name stand under Safety: each writes out, instruction by
instruction, the state that the manual gives, apart from the meanings in Machine. -/

noncomputable section

open Sys2Proof Sys2Proof.Machine Sys2Proof.Safety

/-! ## Encoding -/

/-- The words that the manual works out by hand decode to the instructions that they stand for, one or more of every family. -/
def Obligations.WordsFromTheTables : Prop :=
  decodeSlot 0 0x010627FB = .addiI64 0 3 4 (-5) ∧ decodeSlot 0 0x00082060 = .addI64 0 4 4 3 ∧
  decodeSlot 0 0x0E880014 = .loopi 0 4 20 ∧ decodeSlot 0 0x0F000000 = .endloop 0 ∧
  decodeSlot 0 0x280CC01803E0D2111FE46100 = .tree 3 0x23 0x020 0x211 0x034 0x03E 0x18 0xC0 0x0C 0x28 0 0 0 ∧
  decodeSlot 1 0x0C28 = .wtakeL 0 20 ∧ decodeSlot 2 0x0480C220 = .stvW 0 3 0 1 4 ∧
  decodeSlot 2 0x108A2328 = .stxD 0 5 1 6 2 2 ∧ decodeSlot 2 0x100E4424 = .ldxD 0 7 2 8 2 1 ∧
  decodeSlot 2 0x0CEDDC1C = .acasD 0 54 14 56 1 3 ∧ decodeSlot 3 0x1882C155 = .vredaddF32 0 11 10 1 5 ∧
  decodeSlot 3 0x1A80050B = .vmfirst 0 10 1 ∧ decodeSlot 4 0x02004000 = .mma 0 0 0 1 0 0 0 ∧
  decodeSlot 4 0x0410A001 = .aoutBf16 0 0 4 10 0 ∧ decodeSlot 5 0x0409 = .scldB 0 9 ∧
  decodeSlot 6 0x002860000000 = .chstart 0 20 12 0 ∧ decodeSlot 6 0x0C2503000000 = .gsub 0 2 20 3 0 ∧
  decodeSlot 6 0x048018000700 = .bwait 0 0 3 1792 ∧ decodeSlot 7 0x02211800 = .band 0 4 2 3 ∧
  decodeSlot 7 0x0508F320 = .bcat 0 1 60 1 9 ∧
  decodeLink 0x00000000000001804E00400100000388 = .send 904 0x100 39 24 ∧
  decodeLink 0x00001E00400000000020000A0000FF14 = .fill 65300 0x100 15 0x8000 ∧
  decodeRecord 0xFFFE01000000700000FFFE010000005000FF020100002402_07 =
    some (.gmmaz { lvl := 2, flags := 0x24, body := 0xFFFE01000000700000FFFE010000005000FF020100 })

/-- The classes of slots, C to B. -/
abbrev SlotRoundTrip (classes : List Nat) : Prop :=
  ∀ (i : Instr) (k : Nat), slotClass i = some k → k ∈ classes → i.wf = true →
    ∃ w, encode i = some (8 * slotBytes k w, w) ∧ w < 2 ^ (8 * slotBytes k w) ∧ decodeSlot k w = i

/-- Every well-formed C slot, the tree form included, is what its word decodes to. -/
def Obligations.ControlSlotsRoundTrip : Prop := SlotRoundTrip [0]

/-- Every well-formed L slot is what its word decodes to. -/
def Obligations.MemorySlotsRoundTrip : Prop := SlotRoundTrip [2]

/-- Every well-formed V slot is what its word decodes to. -/
def Obligations.VectorSlotsRoundTrip : Prop := SlotRoundTrip [3]

/-- Every well-formed A, M, K, E and B slot is what its word decodes to. -/
def Obligations.UnitSlotsRoundTrip : Prop := SlotRoundTrip [1, 4, 5, 6, 7]

/-- Every well-formed instruction of a link program is what its 16 bytes decode to. -/
def Obligations.LinkInstructionsRoundTrip : Prop :=
  ∀ (i : Instr) (w : Nat), encode i = some (128, w) → i.wf = true → w < 2 ^ 128 ∧ decodeLink w = i

/-- Every tile-set record is what its 32 bytes decode to. -/
def Obligations.RecordsRoundTrip : Prop :=
  ∀ (i : Instr) (w : Nat), encode i = some (256, w) → i.wf = true → w < 2 ^ 256 ∧ decodeRecord w = some i

/-- No bit of a slot is dropped: what the decoder accepts encodes to the same word. -/
def Obligations.NoBitOfASlotDropped : Prop :=
  ∀ k w : Nat, k < 8 → w < 2 ^ (8 * slotBytes k w) → isIllegal (decodeSlot k w) = false →
    encode (decodeSlot k w) = some (8 * slotBytes k w, w)

/-- A major opcode of a reserved or an extension space is an illegal opcode, with subcode 0 or 1, that keeps the bits of the slot.
The ranges are those that the maps of R69 to R76 reserve, and the codes of an assigned range that its chapter leaves unassigned. -/
def Obligations.ReservedMajorsAreIllegal : Prop :=
  ∀ (k w : Nat), k < 8 → w < 2 ^ (8 * slotBytes k w) →
    (∀ lo hi sub : Nat, (k, lo, hi, sub) ∈
        [(0, 0x0B, 0x0F, 0), (0, 0x1F, 0x37, 0), (0, 0x38, 0x3E, 1),
         (1, 0x04, 0x37, 0), (1, 0x38, 0x3F, 1),
         (2, 0x0A, 0x0F, 0), (2, 0x12, 0x13, 0), (2, 0x23, 0x37, 0), (2, 0x38, 0x3F, 1),
         (3, 0x38, 0x3B, 0), (3, 0x3C, 0x3F, 1),
         (4, 0x02, 0x03, 0), (4, 0x05, 0x07, 0), (4, 0x09, 0x0B, 0), (4, 0x0F, 0x37, 0), (4, 0x38, 0x3F, 1),
         (5, 0x05, 0x37, 0), (5, 0x38, 0x3F, 1),
         (6, 0x03, 0x07, 0), (6, 0x0E, 0x0F, 0), (6, 0x12, 0x13, 0), (6, 0x15, 0x17, 0), (6, 0x1A, 0x37, 0), (6, 0x38, 0x3F, 1),
         (7, 0x0B, 0x37, 0), (7, 0x38, 0x3F, 1)] →
      let major := field w (if k = 1 ∨ k = 5 then 15 else if k = 6 then 44 else 28) (if k = 1 ∨ k = 5 then 10 else if k = 6 then 39 else 23)
      lo ≤ major → major ≤ hi → decodeSlot k w = .illegalOpcode k sub (BitVec.ofNat 48 w))

/-! ## Steps -/

/-- When an event is due, a step runs its row. Readings of the model: log 1 and 2. -/
def Obligations.EventStepRunsItsRow : Prop := ∀ (s : State) (i : Instr), nextAct s = .event i → step s = exec i s

/-- The bundle of a core whose turn it is, as the slots of `exec` see it. -/
abbrev fetched (u : State) (n a header w len left : Nat) : State :=
  { u with cur := { core := n, header := header, w := w, len := len,
                    bytes := BitVec.ofNat 64 (readNat (u.code n) (coreBase n + a) (min 8 (64 - a % 64))), fetchFault := none, left := left,
                    outs := [] } }

/-- When a core issues, a step runs the bundle at its fetch address, idle bytes of a line passed over (R13): an idle byte is an idle
bundle, and a bundle with the one slot of class `k`, all of it inside the code range and its fetch line, runs the slot that the bytes
after the control word decode to. The bytes are
those that memory and the atomic caches hold (R269). Readings of the model: log 16, 39 and 96. -/
def Obligations.StepRunsTheDecodedBundle : Prop :=
  ∀ (s : State) (n : Nat), nextAct s = .issue n →
    let u := atFetch s n
    let c := u.core n
    let a := c.pc.toNat
    let b := coreBase n + a
    ((readByte (u.code n) b).toNat = 0 → c.codeLo.toNat ≤ a → a < c.codeHi.toNat →
      step s = exec .idle (fetched u n a 0 0 1 1)) ∧
    ∀ k, k < 8 → (readByte (u.code n) b).toNat = 2 ^ k →
      let size := slotBytes k (readNat (u.code n) (b + 5) 4)
      c.codeLo.toNat ≤ a → a + 5 + size ≤ c.codeHi.toNat → a % 64 + 5 + size ≤ 64 →
        step s = exec (decodeSlot k (readNat (u.code n) (b + 5) size)) (fetched u n a (2 ^ k) (readNat (u.code n) (b + 1) 4) (5 + size) 1)

/-- A slot with others of its bundle still to come changes nothing: what it does is kept until the last slot decides the bundle. Slots
that read and write registers and queues, with a tree before them or without, take effect together: those that the tree selects, their
pops, pushes and results in slot order, or the lowest cause that the bundle meets, and then nothing. A scratchpad access that fails its
check beside such a slot traps with that check's cause, unless the slot has a lower one; a vector load beside a V and a B slot that both push
names a third destination queue, whatever the path tags, and the bundle is illegal. Readings of the model: log 44, 46, 47, 96 and 102. -/
def Obligations.SlotsOfABundleInTurn : Prop :=
  (∀ (i : Instr) (k : Nat) (s : State), slotClass i = some k →
    ∃ o : SlotOut, o.cls = k ∧
      (1 < s.cur.left → exec i s = .next { s with cur := { s.cur with left := s.cur.left - 1, outs := s.cur.outs ++ [o] } }) ∧
      (s.cur.left ≤ 1 → ∃ t, exec i s = .next t ∧
        t = { decideBundle { s with cur := { s.cur with outs := [] } } s.cur (s.cur.outs ++ [o]) with mem := s.mem })) ∧
  (∀ (s : State) (tree : Option Instr) (is : List Instr) (r : Option Reached) (ds : List Does), Slots s tree is r ds →
    runSlots (tree.toList ++ is) s = .next (together (atLastSlot s) r ds)) ∧
  (∀ (s : State) (i j : Instr) (d : Does) (t : BitVec 3) (c : BitVec 4) (addr : Int) (size perm num sub : Nat),
    s.cur.left = 2 → s.cur.outs = [] → Alone (atLastSlot s) → Unordered s → ownAccessOf s i = some (t, c, addr, size, perm) → TagTaken t →
    ownCheck s (s.rc c) addr size perm = some (num, sub) → rowDoes (atLastSlot s) j = some d → d.cls ≠ 2 →
    runSlots (if d.cls < 2 then [j, i] else [i, j]) s = .next
      (match slotTraps d (atLastSlot s) with
       | some x => trapsWith (atLastSlot s) x.1 x.2.1 x.2.2.1 0 x.2.2.2
       | none => trapsWith (atLastSlot s) num sub (some 2) 0 (BitVec.ofInt 64 addr))) ∧
  ∀ (s : State) (i j k : Instr) (d e : Does), s.cur.left = 3 → s.cur.outs = [] → Alone (atLastSlot s) → Unordered s → loadsVector i = true →
    rowDoes (atLastSlot s) j = some d → rowDoes (atLastSlot s) k = some e → d.cls = 3 → e.cls = 7 → d.push.isSome → e.push.isSome →
    PortsFor s 3 (distinct (d.reads.map Prod.fst)).length → PortsFor s 7 (distinct (e.reads.map Prod.fst)).length →
    runSlots [i, j, k] s = .next (trapsWith (atLastSlot s) 0x01 5 none 0 s.cur.bytes)

/-- No instruction, event or step ends in a fault or a refusal. Readings of the model: log 95. -/
def Obligations.EveryStepAnswers : Prop := (∀ (i : Instr) (s : State), ∃ t, exec i s = .next t) ∧ ∀ s : State, Runs s

/-- Memory is in canonical form at reset. -/
def Obligations.MemoryCanonicalAtReset : Prop := MemoryCanonical State.reset

/-- Every step keeps memory in canonical form. -/
def Obligations.MemoryCanonicalKept : Prop :=
  ∀ s t : State, MemoryCanonical s → step s = .next t → MemoryCanonical t

/-- What the manual gives the machine at reset: registers of a core, of a package and of a port, queues, masks, length tags and scale
tables. The model's choices: that every byte of memory is zero, outside the scratchpads that self-test zeroes too (log 8); the values that
no rule gives, the zeros of the state that self-test zeroes later among them (log 7); and, for the root's tempo registers of package 0,
that package 0 is the root (log 5). -/
def Obligations.ResetValues : Prop :=
  ∀ n a : Nat,
    (State.reset.core n).run = .idle ∧ readByte State.reset.mem a = 0 ∧
    (∀ i ∈ [0x02, 0x03, 0x06, 0x10, 0x11, 0x12, 0x13, 0x14, 0x20, 0x25, 0x28, 0x2D, 0x30, 0x3F, 0x40, 0x4E, 0x52, 0x66, 0x67, 0x68,
        0x73, 0x88, 0x89, 0x8A, 0x8B, 0x8C, 0x8D, 0x8E, 0x8F, 0x90, 0x91, 0xA0, 0xA3, 0xA4, 0xA5, 0xA6, 0xA7, 0xA8, 0xA9, 0xAA, 0xAB],
      csRead State.reset n i = 0) ∧
    csRead State.reset n 0x4F = BitVec.allOnes 64 ∧ csRead State.reset n 0x60 = 4 ∧ csRead State.reset n 0x65 = 0x0000924924924924 ∧
    csRead State.reset n 0xA1 = BitVec.allOnes 64 ∧ csRead State.reset n 0xA2 = 0x10000 ∧ csRead State.reset n 0xAC = BitVec.allOnes 64 ∧
    (∀ r : Nat, (State.reset.core n).sreg r = 0 ∧ ((State.reset.core n).queue r).count = 0 ∧ (State.reset.core n).breg r = 0 ∧
      ((State.reset.core n).creg r).tag = false ∧ (State.reset.core n).tileOf r = 0) ∧
    (∀ side e : Nat, (State.reset.core n).scaleEntry side e = 0x3F80) ∧
    barRead State.reset 0 0x000 = 0x000000015A444624 ∧ barRead State.reset 0 0x008 = 0 ∧ barRead State.reset 0 0x010 = 0 ∧
    barRead State.reset 0 0x1800 = 0xFFFFFFFF00000000 ∧ barRead State.reset 0 0x1808 = BitVec.allOnes 64 ∧
    barRead State.reset 0 0x1900 = 0x22 ∧ barRead State.reset 0 0x1908 = BitVec.allOnes 64 ∧ barRead State.reset 0 0x1918 = 0x6 ∧
    barRead State.reset 0 0x1930 = 0x100000 ∧ barRead State.reset 0 0x1938 = 0x1000000 ∧
    ∀ k < 12, ∀ off ∈ [0x00, 0x08, 0x10, 0x18, 0x20, 0x28, 0x30, 0x38, 0x48, 0x50, 0x58, 0x60],
      barRead State.reset 0 (0x1000 + 0x80 * k + off) = 0

/-- A slot changes its own core, what cores have in flight, and the count of bundles: time, memory, tags, leases, packages, links and
the host's side stay. -/
def Obligations.SlotsLeaveTheRest : Prop :=
  ∀ (i : Instr) (k : Nat) (s t : State), slotClass i = some k → exec i s = .next t →
    t = { s with cores := t.cores, accs := t.accs, atoms := t.atoms, slots := t.slots, recs := t.recs, nextId := t.nextId,
                 seq := t.seq, cur := t.cur }

/-- A slot that is no SPAWN, alone in its bundle, changes no core but its own: no register, queue, tile or accumulator of another. -/
def Obligations.OneCoreAtATime : Prop :=
  ∀ (i : Instr) (k : Nat) (s t : State), slotClass i = some k → (∀ a x y d, i ≠ .spawn a x y d) → s.cur.outs = [] →
    exec i s = .next t → ∀ n, n ≠ s.cur.core → t.core n = s.core n

/-- When nothing more is due at a ply, a step ends it, and the ply counter, which PLY of every core reads, is one more. -/
def Obligations.PlyPasses : Prop :=
  ∀ s : State, nextAct s = .tick → ∃ t, step s = .next t ∧ t.now = s.now + 1 ∧
    ∀ n, csRead t n 0x01 = BitVec.ofNat 64 s.now + 1

/-! ## Slots, table by table -/

/-- The register forms of scalar arithmetic: the value, its latency, and nothing else. -/
def Obligations.ScalarRegisterForms : Prop :=
  ∀ (s : State) (i : Instr) (d : Does), Alone s → (row64 s i = some d ∨ row32 s i = some d) → d.ready s → exec i s = .next (d.done s)

/-- Immediate forms, compares, conditional moves, constants and the reads of control state (MFC). -/
def Obligations.ScalarImmediates : Prop :=
  ∀ (s : State) (i : Instr) (d : Does), Alone s → rowConst s i = some d → d.ready s → exec i s = .next (d.done s)

/-- Walk registers and scale tables: the A and K slots. -/
def Obligations.WalkAndScaleSlots : Prop :=
  ∀ (s : State) (i : Instr) (d : Does), Alone s → (rowWalk s i = some d ∨ rowScale s i = some d) → d.ready s → exec i s = .next (d.done s)

/-- Capability instructions. -/
def Obligations.CapabilitySlots : Prop :=
  ∀ (s : State) (i : Instr) (d : Does), Alone s → rowCap s i = some d → d.ready s → exec i s = .next (d.done s)

/-- Vector instructions of two and three sources: pops, broadcast, arithmetic of every lane, and the push. -/
def Obligations.VectorArithmetic : Prop :=
  ∀ (s : State) (i : Instr) (d : Does), Alone s → rowVg s i = some d → d.ready s → exec i s = .next (d.done s)

/-- Vector instructions under masks, reductions and permutations. -/
def Obligations.VectorMovement : Prop :=
  ∀ (s : State) (i : Instr) (d : Does), Alone s → rowVm s i = some d → d.ready s → exec i s = .next (d.done s)

/-- Conversions of number formats. -/
def Obligations.VectorConversions : Prop :=
  ∀ (s : State) (i : Instr) (d : Does), Alone s → rowConvert s i = some d → d.ready s → exec i s = .next (d.done s)

/-- Lane masks. -/
def Obligations.MaskSlots : Prop :=
  ∀ (s : State) (i : Instr) (d : Does), Alone s → rowMask s i = some d → d.ready s → exec i s = .next (d.done s)

/-- Brine streams: pans, lengths, dithers and the logic of stream registers. -/
def Obligations.StreamSlots : Prop :=
  ∀ (s : State) (i : Instr) (d : Does), Alone s → rowStream s i = some d → d.ready s → exec i s = .next (d.done s)

/-- Crystallisation, dissolution, draws and re-salting. -/
def Obligations.CrystalSlots : Prop :=
  ∀ (s : State) (i : Instr) (d : Does), Alone s → rowCrystal s i = some d → d.ready s → exec i s = .next (d.done s)

/-- Branches, jumps, calls, loops, trap returns, FENCE.SEQ and the writes of control state (MTC), which take effect at the next ply, and
some at commit. Readings of the model: log 14 for the addresses that CALL, CALLR, LOOP and LOOPI keep, log 17, and log 103 against the one
ply of R28 and R106. -/
def Obligations.JumpsAndLoops : Prop :=
  ∀ (s : State) (i : Instr) (a : Acts), Alone s → rowJump s i = some a → a.ready s → exec i s = .next (a.done s)

/-- Scalar loads and stores of the own scratchpad: the access is made four plies on, at the computed bytes. -/
def Obligations.OwnLoadsAndStores : Prop :=
  ∀ (s : State) (i : Instr) (a : Acts), Alone s → rowOwn s i = some a → a.ready s → exec i s = .next (a.done s)

/-- Vector loads and stores, and queue pushes. Readings of the model: log 41, and log 42 for the class of a group. -/
def Obligations.VectorLoadsAndStores : Prop :=
  ∀ (s : State) (i : Instr) (a : Acts), Alone s → rowVector s i = some a → a.ready s → exec i s = .next (a.done s)

/-- Ordered accesses, atomics, counter adds, capability transfers and fences. Readings of the model: log 35, 42 and 135. -/
def Obligations.OrderedAccesses : Prop :=
  ∀ (s : State) (i : Instr) (a : Acts), Alone s → rowOrdered s i = some a → a.ready s → exec i s = .next (a.done s)

/-- Tile loads and stores, multiply-accumulates, configuration, zeroing and vector moves of tiles, where no tile or accumulator that
they name is busy (else HeldBundles). Readings of the model: log 120. -/
def Obligations.TileSlots : Prop :=
  ∀ (s : State) (i : Instr) (a : Acts), Alone s → rowTile s i = some a → a.ready s → exec i s = .next (a.done s)

/-- Accumulator read-outs and transposes. Readings of the model: log 132. -/
def Obligations.ReadOutSlots : Prop :=
  ∀ (s : State) (i : Instr) (a : Acts), Alone s → rowReadOut s i = some a → a.ready s → exec i s = .next (a.done s)

/-- The E slot: channels, thresholds, NEXT, SPAWN, waits and submission. CWAIT, BWAIT and GWAIT as their bundle first reaches issue: where
the counter or the report passes its checks, the operands are sampled, the first read performs at p0 + T, and the bundle is held; it
commits once a read has met the condition. A check that fails is SlotChecks', every later held ply HeldBundles'. Readings of the model:
log 29, 35, 45, 108 and 126. -/
def Obligations.EngineSlots : Prop :=
  (∀ (s : State) (i : Instr) (a : Acts), Alone s → rowEngine s i = some a → a.ready s → exec i s = .next (a.done s)) ∧
  ∀ (s : State) (i : Instr) (t : State), Alone s → ¬ AtLimit s → rowWait s i = some t → exec i s = .next t

/-- Loop closes and their divert, condition trees, yields, traps and illegal opcodes, each with the whole state that it leaves. TRAP
commits its bundle and enters the handler with SOFTWARE_TRAP, its N as subcode and s[A] as TVAL, TPC holding the address after its bundle. An
illegal slot commits nothing: it raises ILLEGAL_OPCODE with its subcode, its class and its word, but ILLEGAL_BUNDLE with the bytes of the
bundle where its path tag is illegal (6) or it names a broadcast that is not there (7). Readings of the model: the leaf of a tree that
fails R58 (log 102), the address that TRAP and YIELD keep (log 14), and the ply of a yield (log 20). -/
def Obligations.LoopClosesTreesAndTraps : Prop :=
  (∀ (s : State) (i : Instr) (t : State), Alone s → rowFlow s i = some t → exec i s = .next t) ∧
  (∀ (s : State) (t : BitVec 3) (a n : BitVec 6), Alone s → TagTaken t →
    exec (.trap t a n) s = .next (onCore (committed s s.curCore (after s)) s.cur.core
      (trapped s 0x13 n.toNat (some 0) 0 (s.rs a) (kept s)))) ∧
  ∀ (s : State) (cls sub : Nat) (w : BitVec 48), Alone s →
    (TagTaken (tagIn cls w) → (namesBroadcast cls sub w → bit s.cur.w 22 = true) →
      exec (.illegalOpcode cls sub w) s = .next (trapsWith s 0x03 sub (some cls) 0 (w.setWidth 64))) ∧
    (¬ TagTaken (tagIn cls w) → exec (.illegalOpcode cls sub w) s = .next (trapsWith s 0x01 6 (some cls) 0 s.cur.bytes)) ∧
    (TagTaken (tagIn cls w) → namesBroadcast cls sub w → bit s.cur.w 22 = false →
      exec (.illegalOpcode cls sub w) s = .next (trapsWith s 0x01 7 (some cls) 0 s.cur.bytes))

/-- An idle bundle only passes a ply: the program counter goes on past it, to a byte that the next fetch judges. -/
def Obligations.IdleBundle : Prop :=
  ∀ s : State, s.cur.outs = [] → s.cur.fetchFault = none → s.curCore.takeable s.now = [] →
    exec .idle s = .next
      { s.setCore s.cur.core
          { s.curCore with
            pc := BitVec.ofNat 22 (s.bundleAddr + 1), held := 0, wait := none, nextIssue := s.now + 1 } with
        seq := s.seq + 1 }

/-! ## Events, table by table -/

/-- Deferred events, watchdogs, pre-emption, and the commands, save and restore of a core.
Readings of the model: log 11, 13, 20, 21, 22, 23, 29, 48, 79, 93, 96, 99, 100, 101, 138, 141, 142 and 143. -/
def Obligations.CoreEvents : Prop := ∀ (s : State) (i : Instr) (t : State), rowCore s i = some t → exec i s = .next t

/-- Landings, accesses as they perform, the combines of matrix products, atomics and leases. The reads of counters and records, and copies
into a push region, are left out. Readings of the model: log 15, 18, 19, 38, 52, 107, 124, 129, 137 and 144. -/
def Obligations.MemoryEvents : Prop := ∀ (s : State) (i : Instr) (t : State), rowMemory s i = some t → exec i s = .next t

/-- Channels of the copy engine, thresholds, counters, and the release of a pause store. A spawn by a threshold makes its target running
from the ply after the action on (R347). Readings of the model: log 9, 24, 25, 26, 27, 28, 29, 31, 32, 34, 116, 131, 133 and 135. -/
def Obligations.ChannelEvents : Prop := ∀ (s : State) (i : Instr) (t : State), rowChannel s i = some t → exec i s = .next t

/-- Tempo, converter, current and temperature; bring-up, notices and management of a package. Readings of the model: log 7, 12, 55, 62, 65,
69, 74, 80, 84 and 140. -/
def Obligations.PackageEvents : Prop :=
  ∀ (s : State) (i : Instr) (t : State), (rowTempo s i = some t ∨ rowPackage s i = some t) → exec i s = .next t

/-- The instructions of link programs. Readings of the model: log 56, 60, 63, 64, 66, 67 and 131. -/
def Obligations.LinkInstructions : Prop := ∀ (s : State) (i : Instr) (t : State), rowLink s i = some t → exec i s = .next t

/-- Flits, ports, lanes, replays and the time base of links. Readings of the model: log 12, 37, 50, 51, 56, 57, 58, 59,
61, 62, 73, 84, 86, 113, 114 and 131. -/
def Obligations.PortEvents : Prop := ∀ (s : State) (i : Instr) (t : State), rowPort s i = some t → exec i s = .next t

/-- Commands of the host, and events for it. Readings of the model: log 9, 10, 75, 76, 78 and 81. -/
def Obligations.HostCommands : Prop := ∀ (s : State) (i : Instr) (t : State), rowHost s i = some t → exec i s = .next t

/-- Leaves of tile-set records, operation by operation. Readings of the model: log 52, 94, 109, 110, 122, 129, 132
and 134. -/
def Obligations.LeafEvents : Prop := ∀ (s : State) (i : Instr) (t : State), rowLeaf s i = some t → exec i s = .next t

/-- Tile-set records: acceptance, dispatch, completion and reports. Readings of the model: log 33, 52, 53, 54, 110, 121, 123,
124, 125, 129, 134 and 136. -/
def Obligations.RecordEvents : Prop := ∀ (s : State) (i : Instr) (t : State), rowRecord s i = some t → exec i s = .next t

/-- Collectives and compression steps. Readings of the model: log 55, 77 and 84. -/
def Obligations.CollectiveEvents : Prop := ∀ (s : State) (i : Instr) (t : State), rowCollective s i = some t → exec i s = .next t

/-- Recovery, halts, pauses and replays, and the commands LAUNCH and RESET of the host. Readings of the model: log 49, 55, 65, 67, 68, 70,
71, 72, 73, 75, 84 and 139. -/
def Obligations.RecoveryEvents : Prop := ∀ (s : State) (i : Instr) (t : State), rowRecovery s i = some t → exec i s = .next t

/-- A link instruction out of order or with a field outside its limits, a reserved OPC among them, stops its engine with the subcode,
and its port is declared failed. Readings of the model: log 65. -/
def Obligations.LinkEngineFaults : Prop :=
  ∀ (s : State) (i : Instr) (p : Nat) (x : LinkEntry) (sub : Nat), issuingPort s i = some (p, x) → isLink i = true →
    illSubcode s p x i = some sub → exec i s = .next (engineStops s p sub)

/-- A register of control state reads back the writable bits of what is written, and nothing else of the core changes but registers
that the written one selects; the bits of CSDIRTY that the ply has set stay set; a write above 6 of LCDEPTH sets 6; read-only and
unassigned registers ignore a write. Readings of the model: log 144. -/
def Obligations.ControlRegisterWrites : Prop :=
  ∀ (s : State) (n i : Nat) (v : Word),
    (readOnly i → exec (.registerWrite false n i v) s = .next s) ∧
    (i = 0x06 → exec (.registerWrite false n i v) s = .next
      (s.setCore n { s.core n with depth := if 6 < v.toNat then 6 else v.setWidth 3 })) ∧
    ∀ m, (i, m) ∈ plainRegisters → ∃ c, exec (.registerWrite false n i v) s = .next (s.setCore n c) ∧
      csRead (s.setCore n c) n i = (v &&& m) ||| (if i = 0xAB then (s.core n).csfresh.setWidth 64 else 0) ∧
      (i ≠ 0x66 → ∀ r ∈ plainRegisters, r.1 ≠ i → csRead (s.setCore n c) n r.1 = csRead s n r.1) ∧
      c.run = (s.core n).run ∧ c.pc = (s.core n).pc ∧ c.s = (s.core n).s ∧ c.m = (s.core n).m ∧ c.q = (s.core n).q ∧ c.c = (s.core n).c ∧
      c.tile = (s.core n).tile ∧ c.acc = (s.core n).acc ∧ c.b = (s.core n).b ∧ c.pend = (s.core n).pend

/-- A writable register of a package or a port reads back the writable bits of what is written, and changes no core and no byte of
memory; read-only registers ignore a write, and so do the root's registers on another package. -/
def Obligations.PackageRegisterWrites : Prop :=
  ∀ (s : State) (chip off : Nat) (v : Word),
    (off ∈ [0x000, 0x008, 0x010, 0x028, 0x100, 0xC00, 0x1800, 0x1808, 0x1810, 0x1818, 0x1820, 0x1900, 0x1908, 0x1918, 0x1920, 0x2000,
        0x2008, 0x2018] → exec (.registerWrite true chip off v) s = .next s) ∧
    (chip ≠ s.root → off ∈ [0x1910, 0x1928, 0x1930, 0x1938] → exec (.registerWrite true chip off v) s = .next s) ∧
    ∀ m, ((off, m) ∈ [(0x020, (3 : Word)), (0x108, BitVec.allOnes 64), (0x118, 1), (0x200, BitVec.allOnes 64), (0x208, BitVec.allOnes 64),
          (0x210, BitVec.allOnes 64), (0x218, 0xFF), (0x220, 0xFF), (0x2010, 0xFFFFFFFF)] ∨
        (∃ k < 12, (off, m) ∈ [(0x1000 + 0x80 * k, (0x7F : Word)), (0x1038 + 0x80 * k, 3), (0x1048 + 0x80 * k, BitVec.allOnes 64)]) ∨
        (chip = s.root ∧ (off, m) ∈ [(0x1928, (3 : Word)), (0x1930, 0xFFFFFFFF), (0x1938, 0xFFFFFFFF)])) →
      ∃ t, exec (.registerWrite true chip off v) s = .next t ∧ barRead t chip off = v &&& m ∧ t.cores = s.cores ∧ t.mem = s.mem ∧
        t.now = s.now

/-! ## Rules -/

/-- R108: a redirect that is taken to a target outside 0 to 2^22 - 1 raises CAP_BOUNDS with subcode 2, and TVAL receives the low 64 bits
of the target; a branch that falls through never faults on its offset; a target inside the range is not checked against CODELO and
CODEHI: the program counter holds it, and a fetch outside them faults under R17 with TPC holding the fetch address. -/
def Obligations.RedirectTargets : Prop :=
  (∀ (s : State) (i : Instr), Alone s →
    (∀ x leaf, takenTarget s i = some (x, leaf) →
      (OutsideCode x → exec i s = .next (trapsWith s 0x09 2 (some 0) leaf (BitVec.ofInt 64 x))) ∧
      (¬ OutsideCode x → ∃ t, exec i s = .next t ∧ (t.core s.cur.core).pc = BitVec.ofInt 22 x)) ∧
    (∀ t a c o, i = .br t a c o → TagTaken t → ¬ condition c (sw s a) → exec i s = .next (committed s s.curCore (after s)))) ∧
  ∀ (s : State) (n : Nat), nextAct s = .issue n →
    let u := atFetch s n
    let c := u.core n
    let a := c.pc.toNat
    ¬ (c.codeLo.toNat ≤ a ∧ a < c.codeHi.toNat) → c.takeable s.now = [] →
      let v := fetched u n a 0 0 1 1
      step s = .next (trapsWith { v with cur := { v.cur with fetchFault := some a } } 0x09 1 none 0 (BitVec.ofNat 64 a))

/-- LOOP is major 0x1C and LOOPI major 0x1D, with A or n in bits 22 to 17 and OFF17 below; both open a loop with the count and the
address after the bundle, idle bytes after it passed over; a count of 0 takes the skip target, which is checked (R108), and pushes nothing;
and the seventh open loop raises LOOP_DEPTH with subcode 0 (R19). Readings of the model: log 14. -/
def Obligations.LoopOpens : Prop :=
  (∀ (t : BitVec 3) (a : BitVec 6) (o : BitVec 17),
    decodeSlot 0 (t.toNat * 2 ^ 29 + 0x1C * 2 ^ 23 + a.toNat * 2 ^ 17 + o.toNat) = .loop t a o ∧
    decodeSlot 0 (t.toNat * 2 ^ 29 + 0x1D * 2 ^ 23 + a.toNat * 2 ^ 17 + o.toNat) = .loopi t a o) ∧
  ∀ (s : State) (i : Instr) (t : BitVec 3) (n : BitVec 32) (o : BitVec 17), Alone s → TagTaken t →
    ((∃ a, i = .loop t a o ∧ n = (s.rs a).setWidth 32) ∨ (∃ k, i = .loopi t k o ∧ n = k.setWidth 32)) →
    let c := s.curCore
    let skip : Int := s.bundleAddr + o.toInt
    (n = 0 → ¬ OutsideCode skip → exec i s = .next (committed s c skip.toNat)) ∧
    (n = 0 → OutsideCode skip → exec i s = .next (trapsWith s 0x09 2 (some 0) 0 (BitVec.ofInt 64 skip))) ∧
    (n ≠ 0 → c.depth.toNat < 6 → exec i s = .next (committed s
      { c.setLoopEntry c.depth.toNat { count := n, start := BitVec.ofNat 32 (kept s) } with depth := c.depth + 1 } (after s))) ∧
    (n ≠ 0 → c.depth = 6 → exec i s = .next (trapsWith s 0x07 0 (some 0) 0 0))

/-- R114: after YIELD the program counter is past the bundle, the sequencer is idle, STALL is not spent, and all else of the core stays
but what R349 and R395 make of a yield: the counters to add to, and the save that an announced pre-emption waits for. The address past
the bundle has the idle bytes after it passed over already (log 14), and the core is idle from the next ply on. -/
def Obligations.YieldEffect : Prop :=
  ∀ (s : State) (t : BitVec 3), Alone s → TagTaken t →
    ∃ c, exec (.yield t) s = .next { s.setCore s.cur.core c with seq := s.seq + 1 } ∧
      c = { s.curCore with
            pc := BitVec.ofNat 22 (kept s), run := .idle, idleFrom := s.now + 1, held := 0, wait := none, nextIssue := s.now + 1,
            yieldAdds := c.yieldAdds, preDone := c.preDone, saving := c.saving }

/-- R41: a trap return goes on at TPC and clears INTRAP, and leaves TCAUSE, TVAL and TVEC; a TPC of 2^22 or more raises CAP_BOUNDS with
subcode 2 and TVAL = TPC, and no part of the return commits. -/
def Obligations.TrapReturn : Prop :=
  ∀ (s : State) (t : BitVec 3), Alone s → TagTaken t →
    (s.curCore.tpc.toNat < 2 ^ 22 → exec (.tret t) s = .next (committed s { s.curCore with intrap := false } s.curCore.tpc.toNat)) ∧
    (2 ^ 22 ≤ s.curCore.tpc.toNat → exec (.tret t) s = .next (trapsWith s 0x09 2 (some 0) 0 (s.curCore.tpc.setWidth 64)))

/-- A slot that fails a check of its own traps with the lowest cause that its checks meet, and within a cause the lowest subcode; nothing
of its bundle commits. The scalar loads and stores check as R119 says, with the low 64 bits of the address in TVAL; the check of the
capability's window, CAP_BOUNDS subcode 4, is R263's. The table `rowFails` has the slots of every other family: vector, ordered, atomic and
capability accesses, derivations and seals, loops, tile moves, the matrix unit and the tile configuration, brine streams, channels,
thresholds, counters, SPAWN, GSUB and waits. Readings of the model: log 41, 83, 87, 89 and 104 for accesses, and log 126 for the access
that GSUB checks. -/
def Obligations.SlotChecks : Prop :=
  (∀ (s : State) (i : Instr) (t : BitVec 3) (c : BitVec 4) (addr : Int) (size perm num sub : Nat), Alone s → Unordered s →
    ownAccessOf s i = some (t, c, addr, size, perm) → TagTaken t → ownCheck s (s.rc c) addr size perm = some (num, sub) →
    exec i s = .next (trapsWith s num sub (some 2) 0 (BitVec.ofInt 64 addr))) ∧
  ∀ (s : State) (i : Instr) (k : Failing), Alone s → Calm s → rowFails s i = some k → k.does.ready s →
    exec i s = .next (trapsWith s k.cause.1 k.cause.2.1 (some k.does.cls) 0 k.cause.2.2)

/-- s0 reads as zero in every slot, in a tree test and through the broadcast port, and a write to it is discarded; m0 reads as all ones
in the same way, and an addition into s0 leaves no result on its way. Readings of the model: log 36. -/
def Obligations.HardwiredRegisters : Prop :=
  (∀ s : State, s.rs 0 = 0 ∧ s.curCore.mreg 0 = BitVec.allOnes 64 ∧ (field s.cur.w 21 16 = 0 → s.bcast = 0) ∧
    ∀ k : BitVec 3, tested s (k.setWidth 10) = 0) ∧
  (∀ (s : State) (n : Nat) (v : Word), applyLand s n (.scalar 0 v) = s.setCore n (s.core n) ∧
    applyLand s n (.mask 0 v) = s.setCore n (s.core n)) ∧
  ∀ (s : State) (t : BitVec 3) (a b : BitVec 6), Alone s → TagTaken t → exec (.addI64 t 0 a b) s = .next (committed s s.curCore (after s))

/-- A slot that nothing holds traps, and its bundle commits nothing, for reserved bits of the control word, a bundle that crosses its fetch
line, a port code that is reserved or names an absent slot, a shortfall of read ports, a path tag that is illegal without a tree, a
broadcast that is not there, the extension bit, a read or a write of a checked bundle that comes before a result still on its way, an
empty queue that it reads, or a full one that it pushes into, in this order, the lowest queue first; a tree for the same of its control
word, for a check of its own, for the extension bit, and for a test that comes too soon, with the leaf in TCAUSE. Readings of the model:
log 36, 44, 102 and 118. -/
def Obligations.SlotTrapCauses : Prop :=
  (∀ (s : State) (i : Instr) (d : Does) (x : Nat × Nat × Option Nat × Word), Single s → Asks s i d → loneTraps s i d = some x →
    exec i s = .next (trapsWith s x.1 x.2.1 x.2.2.1 0 x.2.2.2)) ∧
  ∀ (s : State) (i : Instr) (x : Nat × Nat × Option Nat × Word × Nat), Single s → treeTraps s i = some x →
    exec i s = .next (trapsWith s x.1 x.2.1 x.2.2.1 x.2.2.2.2 x.2.2.2.1)

/-- A bundle held by the order rules, by FENCE.SEQ, or by a unit that its slot names (a busy tile or accumulator, a running channel, a wait
that no read has met, a core that is not idle, a full sequencer) commits nothing and reaches issue again at the next ply; with a hold
limit that its held plies reach, it is left to the row of that limit, which the same ply runs next and which traps with WATCHDOG, subcode
1. Readings of the model: log 21, 40 and 96, log 17 for what FENCE.SEQ waits for, and log 29 and 143 for SPAWN. -/
def Obligations.HeldBundles : Prop :=
  ∀ (s : State) (i : Instr), Alone s →
    (Held s i → ¬ AtLimit s → exec i s = .next (heldOver s)) ∧
    ((Held s i ∨ (rowWait s i).isSome) → AtLimit s → HasRoom s i → EndsHeld s i)

end
end

