-- ==== Sys2Proof/Laws/Bits.lean ====
section
/-! SUPPORT. Tables: reading after writing. -/

namespace Sys2Proof.Machine

variable {α : Type}

@[simp] theorem mapGet_mapPut_same (d : α) (m : Map α) (k : Nat) (v : α) : mapGet d (mapPut m k v) k = v := by
  induction m with
  | nil => simp [mapPut, mapGet]
  | cons e m ih =>
    simp only [mapPut]
    split
    · simp [mapGet]
    · split
      · simp [mapGet]
      · simp [mapGet, ih, *]

theorem mapGet_mapPut_other (d : α) (m : Map α) {k j : Nat} (v : α) (h : j ≠ k) :
    mapGet d (mapPut m k v) j = mapGet d m j := by
  induction m with
  | nil => simp [mapPut, mapGet, h]
  | cons e m ih =>
    simp only [mapPut]
    split
    · simp [mapGet, h]
    · split
      · subst_vars; simp [mapGet, h]
      · simp [mapGet, ih]

@[simp] theorem mapGet_mapDel_same (d : α) (m : Map α) (k : Nat) : mapGet d (mapDel m k) k = d := by
  induction m with
  | nil => rfl
  | cons e m ih =>
    simp only [mapDel]
    split
    · exact ih
    · simp [mapGet, ih, *]

theorem mapGet_mapDel_other (d : α) (m : Map α) {k j : Nat} (h : j ≠ k) : mapGet d (mapDel m k) j = mapGet d m j := by
  induction m with
  | nil => rfl
  | cons e m ih =>
    simp only [mapDel]
    split
    · subst_vars; simp [mapGet, h, ih]
    · simp [mapGet, ih]

@[simp] theorem mapGet_mapSet_same [DecidableEq α] (d : α) (m : Map α) (k : Nat) (v : α) :
    mapGet d (mapSet d m k v) k = v := by
  unfold mapSet; split <;> simp [*]

theorem mapGet_mapSet_other [DecidableEq α] (d : α) (m : Map α) {k j : Nat} (v : α) (h : j ≠ k) :
    mapGet d (mapSet d m k v) j = mapGet d m j := by
  unfold mapSet; split
  · exact mapGet_mapDel_other d m h
  · exact mapGet_mapPut_other d m v h

@[simp] theorem mapPut_mapPut (m : Map α) (k : Nat) (v w : α) : mapPut (mapPut m k v) k w = mapPut m k w := by
  induction m with
  | nil => simp [mapPut]
  | cons e m ih =>
    simp only [mapPut]
    split
    · simp [mapPut]
    · split
      · simp [mapPut]
      · simp [mapPut, ih, *]

end Sys2Proof.Machine
end

