-- ==== Sys2Proof/Laws/State.lean ====
section
/-! SUPPORT. What each update of the state leaves alone: one lemma for each field and update, and reading after writing. -/

namespace Sys2Proof.Machine

/-! ## setCore -/

@[simp] theorem State.setCore_now (s : State) (n : Nat) (c : Core) : (s.setCore n c).now = s.now := rfl
@[simp] theorem State.setCore_seq (s : State) (n : Nat) (c : Core) : (s.setCore n c).seq = s.seq := rfl
@[simp] theorem State.setCore_nextId (s : State) (n : Nat) (c : Core) : (s.setCore n c).nextId = s.nextId := rfl
@[simp] theorem State.setCore_freeCtr (s : State) (n : Nat) (c : Core) : (s.setCore n c).freeCtr = s.freeCtr := rfl
@[simp] theorem State.setCore_cur (s : State) (n : Nat) (c : Core) : (s.setCore n c).cur = s.cur := rfl
@[simp] theorem State.setCore_mem (s : State) (n : Nat) (c : Core) : (s.setCore n c).mem = s.mem := rfl
@[simp] theorem State.setCore_tags (s : State) (n : Nat) (c : Core) : (s.setCore n c).tags = s.tags := rfl
@[simp] theorem State.setCore_accs (s : State) (n : Nat) (c : Core) : (s.setCore n c).accs = s.accs := rfl
@[simp] theorem State.setCore_atoms (s : State) (n : Nat) (c : Core) : (s.setCore n c).atoms = s.atoms := rfl
@[simp] theorem State.setCore_foreseen (s : State) (n : Nat) (c : Core) : (s.setCore n c).foreseen = s.foreseen := rfl
@[simp] theorem State.setCore_leases (s : State) (n : Nat) (c : Core) : (s.setCore n c).leases = s.leases := rfl
@[simp] theorem State.setCore_pmaps (s : State) (n : Nat) (c : Core) : (s.setCore n c).pmaps = s.pmaps := rfl
@[simp] theorem State.setCore_slots (s : State) (n : Nat) (c : Core) : (s.setCore n c).slots = s.slots := rfl
@[simp] theorem State.setCore_posted (s : State) (n : Nat) (c : Core) : (s.setCore n c).posted = s.posted := rfl
@[simp] theorem State.setCore_recs (s : State) (n : Nat) (c : Core) : (s.setCore n c).recs = s.recs := rfl
@[simp] theorem State.setCore_rings (s : State) (n : Nat) (c : Core) : (s.setCore n c).rings = s.rings := rfl
@[simp] theorem State.setCore_root (s : State) (n : Nat) (c : Core) : (s.setCore n c).root = s.root := rfl
@[simp] theorem State.setCore_chips (s : State) (n : Nat) (c : Core) : (s.setCore n c).chips = s.chips := rfl
@[simp] theorem State.setCore_ports (s : State) (n : Nat) (c : Core) : (s.setCore n c).ports = s.ports := rfl
@[simp] theorem State.setCore_claims (s : State) (n : Nat) (c : Core) : (s.setCore n c).claims = s.claims := rfl
@[simp] theorem State.setCore_sends (s : State) (n : Nat) (c : Core) : (s.setCore n c).sends = s.sends := rfl
@[simp] theorem State.setCore_outs (s : State) (n : Nat) (c : Core) : (s.setCore n c).outs = s.outs := rfl
@[simp] theorem State.setCore_flits (s : State) (n : Nat) (c : Core) : (s.setCore n c).flits = s.flits := rfl
@[simp] theorem State.setCore_ctrls (s : State) (n : Nat) (c : Core) : (s.setCore n c).ctrls = s.ctrls := rfl
@[simp] theorem State.setCore_outMsgs (s : State) (n : Nat) (c : Core) : (s.setCore n c).outMsgs = s.outMsgs := rfl
@[simp] theorem State.setCore_inMsgs (s : State) (n : Nat) (c : Core) : (s.setCore n c).inMsgs = s.inMsgs := rfl
@[simp] theorem State.setCore_charges (s : State) (n : Nat) (c : Core) : (s.setCore n c).charges = s.charges := rfl
@[simp] theorem State.setCore_colls (s : State) (n : Nat) (c : Core) : (s.setCore n c).colls = s.colls := rfl
@[simp] theorem State.setCore_xfers (s : State) (n : Nat) (c : Core) : (s.setCore n c).xfers = s.xfers := rfl
@[simp] theorem State.setCore_served (s : State) (n : Nat) (c : Core) : (s.setCore n c).served = s.served := rfl
@[simp] theorem State.setCore_replies (s : State) (n : Nat) (c : Core) : (s.setCore n c).replies = s.replies := rfl
@[simp] theorem State.setCore_marks (s : State) (n : Nat) (c : Core) : (s.setCore n c).marks = s.marks := rfl
@[simp] theorem State.setCore_inputs (s : State) (n : Nat) (c : Core) : (s.setCore n c).inputs = s.inputs := rfl

/-! ## setChip -/

@[simp] theorem State.setChip_now (s : State) (n : Nat) (c : Chip) : (s.setChip n c).now = s.now := rfl
@[simp] theorem State.setChip_seq (s : State) (n : Nat) (c : Chip) : (s.setChip n c).seq = s.seq := rfl
@[simp] theorem State.setChip_nextId (s : State) (n : Nat) (c : Chip) : (s.setChip n c).nextId = s.nextId := rfl
@[simp] theorem State.setChip_freeCtr (s : State) (n : Nat) (c : Chip) : (s.setChip n c).freeCtr = s.freeCtr := rfl
@[simp] theorem State.setChip_cur (s : State) (n : Nat) (c : Chip) : (s.setChip n c).cur = s.cur := rfl
@[simp] theorem State.setChip_cores (s : State) (n : Nat) (c : Chip) : (s.setChip n c).cores = s.cores := rfl
@[simp] theorem State.setChip_mem (s : State) (n : Nat) (c : Chip) : (s.setChip n c).mem = s.mem := rfl
@[simp] theorem State.setChip_tags (s : State) (n : Nat) (c : Chip) : (s.setChip n c).tags = s.tags := rfl
@[simp] theorem State.setChip_accs (s : State) (n : Nat) (c : Chip) : (s.setChip n c).accs = s.accs := rfl
@[simp] theorem State.setChip_atoms (s : State) (n : Nat) (c : Chip) : (s.setChip n c).atoms = s.atoms := rfl
@[simp] theorem State.setChip_foreseen (s : State) (n : Nat) (c : Chip) : (s.setChip n c).foreseen = s.foreseen := rfl
@[simp] theorem State.setChip_leases (s : State) (n : Nat) (c : Chip) : (s.setChip n c).leases = s.leases := rfl
@[simp] theorem State.setChip_pmaps (s : State) (n : Nat) (c : Chip) : (s.setChip n c).pmaps = s.pmaps := rfl
@[simp] theorem State.setChip_slots (s : State) (n : Nat) (c : Chip) : (s.setChip n c).slots = s.slots := rfl
@[simp] theorem State.setChip_posted (s : State) (n : Nat) (c : Chip) : (s.setChip n c).posted = s.posted := rfl
@[simp] theorem State.setChip_recs (s : State) (n : Nat) (c : Chip) : (s.setChip n c).recs = s.recs := rfl
@[simp] theorem State.setChip_rings (s : State) (n : Nat) (c : Chip) : (s.setChip n c).rings = s.rings := rfl
@[simp] theorem State.setChip_root (s : State) (n : Nat) (c : Chip) : (s.setChip n c).root = s.root := rfl
@[simp] theorem State.setChip_ports (s : State) (n : Nat) (c : Chip) : (s.setChip n c).ports = s.ports := rfl
@[simp] theorem State.setChip_claims (s : State) (n : Nat) (c : Chip) : (s.setChip n c).claims = s.claims := rfl
@[simp] theorem State.setChip_sends (s : State) (n : Nat) (c : Chip) : (s.setChip n c).sends = s.sends := rfl
@[simp] theorem State.setChip_outs (s : State) (n : Nat) (c : Chip) : (s.setChip n c).outs = s.outs := rfl
@[simp] theorem State.setChip_flits (s : State) (n : Nat) (c : Chip) : (s.setChip n c).flits = s.flits := rfl
@[simp] theorem State.setChip_ctrls (s : State) (n : Nat) (c : Chip) : (s.setChip n c).ctrls = s.ctrls := rfl
@[simp] theorem State.setChip_outMsgs (s : State) (n : Nat) (c : Chip) : (s.setChip n c).outMsgs = s.outMsgs := rfl
@[simp] theorem State.setChip_inMsgs (s : State) (n : Nat) (c : Chip) : (s.setChip n c).inMsgs = s.inMsgs := rfl
@[simp] theorem State.setChip_charges (s : State) (n : Nat) (c : Chip) : (s.setChip n c).charges = s.charges := rfl
@[simp] theorem State.setChip_colls (s : State) (n : Nat) (c : Chip) : (s.setChip n c).colls = s.colls := rfl
@[simp] theorem State.setChip_xfers (s : State) (n : Nat) (c : Chip) : (s.setChip n c).xfers = s.xfers := rfl
@[simp] theorem State.setChip_served (s : State) (n : Nat) (c : Chip) : (s.setChip n c).served = s.served := rfl
@[simp] theorem State.setChip_replies (s : State) (n : Nat) (c : Chip) : (s.setChip n c).replies = s.replies := rfl
@[simp] theorem State.setChip_marks (s : State) (n : Nat) (c : Chip) : (s.setChip n c).marks = s.marks := rfl
@[simp] theorem State.setChip_inputs (s : State) (n : Nat) (c : Chip) : (s.setChip n c).inputs = s.inputs := rfl

/-! ## setPort -/

@[simp] theorem State.setPort_now (s : State) (n : Nat) (c : Port) : (s.setPort n c).now = s.now := rfl
@[simp] theorem State.setPort_seq (s : State) (n : Nat) (c : Port) : (s.setPort n c).seq = s.seq := rfl
@[simp] theorem State.setPort_nextId (s : State) (n : Nat) (c : Port) : (s.setPort n c).nextId = s.nextId := rfl
@[simp] theorem State.setPort_freeCtr (s : State) (n : Nat) (c : Port) : (s.setPort n c).freeCtr = s.freeCtr := rfl
@[simp] theorem State.setPort_cur (s : State) (n : Nat) (c : Port) : (s.setPort n c).cur = s.cur := rfl
@[simp] theorem State.setPort_cores (s : State) (n : Nat) (c : Port) : (s.setPort n c).cores = s.cores := rfl
@[simp] theorem State.setPort_mem (s : State) (n : Nat) (c : Port) : (s.setPort n c).mem = s.mem := rfl
@[simp] theorem State.setPort_tags (s : State) (n : Nat) (c : Port) : (s.setPort n c).tags = s.tags := rfl
@[simp] theorem State.setPort_accs (s : State) (n : Nat) (c : Port) : (s.setPort n c).accs = s.accs := rfl
@[simp] theorem State.setPort_atoms (s : State) (n : Nat) (c : Port) : (s.setPort n c).atoms = s.atoms := rfl
@[simp] theorem State.setPort_foreseen (s : State) (n : Nat) (c : Port) : (s.setPort n c).foreseen = s.foreseen := rfl
@[simp] theorem State.setPort_leases (s : State) (n : Nat) (c : Port) : (s.setPort n c).leases = s.leases := rfl
@[simp] theorem State.setPort_pmaps (s : State) (n : Nat) (c : Port) : (s.setPort n c).pmaps = s.pmaps := rfl
@[simp] theorem State.setPort_slots (s : State) (n : Nat) (c : Port) : (s.setPort n c).slots = s.slots := rfl
@[simp] theorem State.setPort_posted (s : State) (n : Nat) (c : Port) : (s.setPort n c).posted = s.posted := rfl
@[simp] theorem State.setPort_recs (s : State) (n : Nat) (c : Port) : (s.setPort n c).recs = s.recs := rfl
@[simp] theorem State.setPort_rings (s : State) (n : Nat) (c : Port) : (s.setPort n c).rings = s.rings := rfl
@[simp] theorem State.setPort_root (s : State) (n : Nat) (c : Port) : (s.setPort n c).root = s.root := rfl
@[simp] theorem State.setPort_chips (s : State) (n : Nat) (c : Port) : (s.setPort n c).chips = s.chips := rfl
@[simp] theorem State.setPort_claims (s : State) (n : Nat) (c : Port) : (s.setPort n c).claims = s.claims := rfl
@[simp] theorem State.setPort_sends (s : State) (n : Nat) (c : Port) : (s.setPort n c).sends = s.sends := rfl
@[simp] theorem State.setPort_outs (s : State) (n : Nat) (c : Port) : (s.setPort n c).outs = s.outs := rfl
@[simp] theorem State.setPort_flits (s : State) (n : Nat) (c : Port) : (s.setPort n c).flits = s.flits := rfl
@[simp] theorem State.setPort_ctrls (s : State) (n : Nat) (c : Port) : (s.setPort n c).ctrls = s.ctrls := rfl
@[simp] theorem State.setPort_outMsgs (s : State) (n : Nat) (c : Port) : (s.setPort n c).outMsgs = s.outMsgs := rfl
@[simp] theorem State.setPort_inMsgs (s : State) (n : Nat) (c : Port) : (s.setPort n c).inMsgs = s.inMsgs := rfl
@[simp] theorem State.setPort_charges (s : State) (n : Nat) (c : Port) : (s.setPort n c).charges = s.charges := rfl
@[simp] theorem State.setPort_colls (s : State) (n : Nat) (c : Port) : (s.setPort n c).colls = s.colls := rfl
@[simp] theorem State.setPort_xfers (s : State) (n : Nat) (c : Port) : (s.setPort n c).xfers = s.xfers := rfl
@[simp] theorem State.setPort_served (s : State) (n : Nat) (c : Port) : (s.setPort n c).served = s.served := rfl
@[simp] theorem State.setPort_replies (s : State) (n : Nat) (c : Port) : (s.setPort n c).replies = s.replies := rfl
@[simp] theorem State.setPort_marks (s : State) (n : Nat) (c : Port) : (s.setPort n c).marks = s.marks := rfl
@[simp] theorem State.setPort_inputs (s : State) (n : Nat) (c : Port) : (s.setPort n c).inputs = s.inputs := rfl

/-! ## setEngine -/

@[simp] theorem State.setEngine_now (s : State) (n : Nat) (c : LinkEngine) : (s.setEngine n c).now = s.now := rfl
@[simp] theorem State.setEngine_seq (s : State) (n : Nat) (c : LinkEngine) : (s.setEngine n c).seq = s.seq := rfl
@[simp] theorem State.setEngine_nextId (s : State) (n : Nat) (c : LinkEngine) : (s.setEngine n c).nextId = s.nextId := rfl
@[simp] theorem State.setEngine_freeCtr (s : State) (n : Nat) (c : LinkEngine) : (s.setEngine n c).freeCtr = s.freeCtr := rfl
@[simp] theorem State.setEngine_cur (s : State) (n : Nat) (c : LinkEngine) : (s.setEngine n c).cur = s.cur := rfl
@[simp] theorem State.setEngine_cores (s : State) (n : Nat) (c : LinkEngine) : (s.setEngine n c).cores = s.cores := rfl
@[simp] theorem State.setEngine_mem (s : State) (n : Nat) (c : LinkEngine) : (s.setEngine n c).mem = s.mem := rfl
@[simp] theorem State.setEngine_tags (s : State) (n : Nat) (c : LinkEngine) : (s.setEngine n c).tags = s.tags := rfl
@[simp] theorem State.setEngine_accs (s : State) (n : Nat) (c : LinkEngine) : (s.setEngine n c).accs = s.accs := rfl
@[simp] theorem State.setEngine_atoms (s : State) (n : Nat) (c : LinkEngine) : (s.setEngine n c).atoms = s.atoms := rfl
@[simp] theorem State.setEngine_foreseen (s : State) (n : Nat) (c : LinkEngine) : (s.setEngine n c).foreseen = s.foreseen := rfl
@[simp] theorem State.setEngine_leases (s : State) (n : Nat) (c : LinkEngine) : (s.setEngine n c).leases = s.leases := rfl
@[simp] theorem State.setEngine_pmaps (s : State) (n : Nat) (c : LinkEngine) : (s.setEngine n c).pmaps = s.pmaps := rfl
@[simp] theorem State.setEngine_slots (s : State) (n : Nat) (c : LinkEngine) : (s.setEngine n c).slots = s.slots := rfl
@[simp] theorem State.setEngine_posted (s : State) (n : Nat) (c : LinkEngine) : (s.setEngine n c).posted = s.posted := rfl
@[simp] theorem State.setEngine_recs (s : State) (n : Nat) (c : LinkEngine) : (s.setEngine n c).recs = s.recs := rfl
@[simp] theorem State.setEngine_rings (s : State) (n : Nat) (c : LinkEngine) : (s.setEngine n c).rings = s.rings := rfl
@[simp] theorem State.setEngine_root (s : State) (n : Nat) (c : LinkEngine) : (s.setEngine n c).root = s.root := rfl
@[simp] theorem State.setEngine_chips (s : State) (n : Nat) (c : LinkEngine) : (s.setEngine n c).chips = s.chips := rfl
@[simp] theorem State.setEngine_claims (s : State) (n : Nat) (c : LinkEngine) : (s.setEngine n c).claims = s.claims := rfl
@[simp] theorem State.setEngine_sends (s : State) (n : Nat) (c : LinkEngine) : (s.setEngine n c).sends = s.sends := rfl
@[simp] theorem State.setEngine_outs (s : State) (n : Nat) (c : LinkEngine) : (s.setEngine n c).outs = s.outs := rfl
@[simp] theorem State.setEngine_flits (s : State) (n : Nat) (c : LinkEngine) : (s.setEngine n c).flits = s.flits := rfl
@[simp] theorem State.setEngine_ctrls (s : State) (n : Nat) (c : LinkEngine) : (s.setEngine n c).ctrls = s.ctrls := rfl
@[simp] theorem State.setEngine_outMsgs (s : State) (n : Nat) (c : LinkEngine) : (s.setEngine n c).outMsgs = s.outMsgs := rfl
@[simp] theorem State.setEngine_inMsgs (s : State) (n : Nat) (c : LinkEngine) : (s.setEngine n c).inMsgs = s.inMsgs := rfl
@[simp] theorem State.setEngine_charges (s : State) (n : Nat) (c : LinkEngine) : (s.setEngine n c).charges = s.charges := rfl
@[simp] theorem State.setEngine_colls (s : State) (n : Nat) (c : LinkEngine) : (s.setEngine n c).colls = s.colls := rfl
@[simp] theorem State.setEngine_xfers (s : State) (n : Nat) (c : LinkEngine) : (s.setEngine n c).xfers = s.xfers := rfl
@[simp] theorem State.setEngine_served (s : State) (n : Nat) (c : LinkEngine) : (s.setEngine n c).served = s.served := rfl
@[simp] theorem State.setEngine_replies (s : State) (n : Nat) (c : LinkEngine) : (s.setEngine n c).replies = s.replies := rfl
@[simp] theorem State.setEngine_marks (s : State) (n : Nat) (c : LinkEngine) : (s.setEngine n c).marks = s.marks := rfl
@[simp] theorem State.setEngine_inputs (s : State) (n : Nat) (c : LinkEngine) : (s.setEngine n c).inputs = s.inputs := rfl

/-! ## setRecord -/

@[simp] theorem State.setRecord_now (s : State) (r : GtsRun) : (s.setRecord r).now = s.now := rfl
@[simp] theorem State.setRecord_seq (s : State) (r : GtsRun) : (s.setRecord r).seq = s.seq := rfl
@[simp] theorem State.setRecord_nextId (s : State) (r : GtsRun) : (s.setRecord r).nextId = s.nextId := rfl
@[simp] theorem State.setRecord_freeCtr (s : State) (r : GtsRun) : (s.setRecord r).freeCtr = s.freeCtr := rfl
@[simp] theorem State.setRecord_cur (s : State) (r : GtsRun) : (s.setRecord r).cur = s.cur := rfl
@[simp] theorem State.setRecord_cores (s : State) (r : GtsRun) : (s.setRecord r).cores = s.cores := rfl
@[simp] theorem State.setRecord_mem (s : State) (r : GtsRun) : (s.setRecord r).mem = s.mem := rfl
@[simp] theorem State.setRecord_tags (s : State) (r : GtsRun) : (s.setRecord r).tags = s.tags := rfl
@[simp] theorem State.setRecord_accs (s : State) (r : GtsRun) : (s.setRecord r).accs = s.accs := rfl
@[simp] theorem State.setRecord_atoms (s : State) (r : GtsRun) : (s.setRecord r).atoms = s.atoms := rfl
@[simp] theorem State.setRecord_foreseen (s : State) (r : GtsRun) : (s.setRecord r).foreseen = s.foreseen := rfl
@[simp] theorem State.setRecord_leases (s : State) (r : GtsRun) : (s.setRecord r).leases = s.leases := rfl
@[simp] theorem State.setRecord_pmaps (s : State) (r : GtsRun) : (s.setRecord r).pmaps = s.pmaps := rfl
@[simp] theorem State.setRecord_slots (s : State) (r : GtsRun) : (s.setRecord r).slots = s.slots := rfl
@[simp] theorem State.setRecord_posted (s : State) (r : GtsRun) : (s.setRecord r).posted = s.posted := rfl
@[simp] theorem State.setRecord_rings (s : State) (r : GtsRun) : (s.setRecord r).rings = s.rings := rfl
@[simp] theorem State.setRecord_root (s : State) (r : GtsRun) : (s.setRecord r).root = s.root := rfl
@[simp] theorem State.setRecord_chips (s : State) (r : GtsRun) : (s.setRecord r).chips = s.chips := rfl
@[simp] theorem State.setRecord_ports (s : State) (r : GtsRun) : (s.setRecord r).ports = s.ports := rfl
@[simp] theorem State.setRecord_claims (s : State) (r : GtsRun) : (s.setRecord r).claims = s.claims := rfl
@[simp] theorem State.setRecord_sends (s : State) (r : GtsRun) : (s.setRecord r).sends = s.sends := rfl
@[simp] theorem State.setRecord_outs (s : State) (r : GtsRun) : (s.setRecord r).outs = s.outs := rfl
@[simp] theorem State.setRecord_flits (s : State) (r : GtsRun) : (s.setRecord r).flits = s.flits := rfl
@[simp] theorem State.setRecord_ctrls (s : State) (r : GtsRun) : (s.setRecord r).ctrls = s.ctrls := rfl
@[simp] theorem State.setRecord_outMsgs (s : State) (r : GtsRun) : (s.setRecord r).outMsgs = s.outMsgs := rfl
@[simp] theorem State.setRecord_inMsgs (s : State) (r : GtsRun) : (s.setRecord r).inMsgs = s.inMsgs := rfl
@[simp] theorem State.setRecord_charges (s : State) (r : GtsRun) : (s.setRecord r).charges = s.charges := rfl
@[simp] theorem State.setRecord_colls (s : State) (r : GtsRun) : (s.setRecord r).colls = s.colls := rfl
@[simp] theorem State.setRecord_xfers (s : State) (r : GtsRun) : (s.setRecord r).xfers = s.xfers := rfl
@[simp] theorem State.setRecord_served (s : State) (r : GtsRun) : (s.setRecord r).served = s.served := rfl
@[simp] theorem State.setRecord_replies (s : State) (r : GtsRun) : (s.setRecord r).replies = s.replies := rfl
@[simp] theorem State.setRecord_marks (s : State) (r : GtsRun) : (s.setRecord r).marks = s.marks := rfl
@[simp] theorem State.setRecord_inputs (s : State) (r : GtsRun) : (s.setRecord r).inputs = s.inputs := rfl

/-! ## setFlit -/

@[simp] theorem State.setFlit_now (s : State) (f : Flit) : (s.setFlit f).now = s.now := rfl
@[simp] theorem State.setFlit_seq (s : State) (f : Flit) : (s.setFlit f).seq = s.seq := rfl
@[simp] theorem State.setFlit_nextId (s : State) (f : Flit) : (s.setFlit f).nextId = s.nextId := rfl
@[simp] theorem State.setFlit_freeCtr (s : State) (f : Flit) : (s.setFlit f).freeCtr = s.freeCtr := rfl
@[simp] theorem State.setFlit_cur (s : State) (f : Flit) : (s.setFlit f).cur = s.cur := rfl
@[simp] theorem State.setFlit_cores (s : State) (f : Flit) : (s.setFlit f).cores = s.cores := rfl
@[simp] theorem State.setFlit_mem (s : State) (f : Flit) : (s.setFlit f).mem = s.mem := rfl
@[simp] theorem State.setFlit_tags (s : State) (f : Flit) : (s.setFlit f).tags = s.tags := rfl
@[simp] theorem State.setFlit_accs (s : State) (f : Flit) : (s.setFlit f).accs = s.accs := rfl
@[simp] theorem State.setFlit_atoms (s : State) (f : Flit) : (s.setFlit f).atoms = s.atoms := rfl
@[simp] theorem State.setFlit_foreseen (s : State) (f : Flit) : (s.setFlit f).foreseen = s.foreseen := rfl
@[simp] theorem State.setFlit_leases (s : State) (f : Flit) : (s.setFlit f).leases = s.leases := rfl
@[simp] theorem State.setFlit_pmaps (s : State) (f : Flit) : (s.setFlit f).pmaps = s.pmaps := rfl
@[simp] theorem State.setFlit_slots (s : State) (f : Flit) : (s.setFlit f).slots = s.slots := rfl
@[simp] theorem State.setFlit_posted (s : State) (f : Flit) : (s.setFlit f).posted = s.posted := rfl
@[simp] theorem State.setFlit_recs (s : State) (f : Flit) : (s.setFlit f).recs = s.recs := rfl
@[simp] theorem State.setFlit_rings (s : State) (f : Flit) : (s.setFlit f).rings = s.rings := rfl
@[simp] theorem State.setFlit_root (s : State) (f : Flit) : (s.setFlit f).root = s.root := rfl
@[simp] theorem State.setFlit_chips (s : State) (f : Flit) : (s.setFlit f).chips = s.chips := rfl
@[simp] theorem State.setFlit_ports (s : State) (f : Flit) : (s.setFlit f).ports = s.ports := rfl
@[simp] theorem State.setFlit_claims (s : State) (f : Flit) : (s.setFlit f).claims = s.claims := rfl
@[simp] theorem State.setFlit_sends (s : State) (f : Flit) : (s.setFlit f).sends = s.sends := rfl
@[simp] theorem State.setFlit_outs (s : State) (f : Flit) : (s.setFlit f).outs = s.outs := rfl
@[simp] theorem State.setFlit_ctrls (s : State) (f : Flit) : (s.setFlit f).ctrls = s.ctrls := rfl
@[simp] theorem State.setFlit_outMsgs (s : State) (f : Flit) : (s.setFlit f).outMsgs = s.outMsgs := rfl
@[simp] theorem State.setFlit_inMsgs (s : State) (f : Flit) : (s.setFlit f).inMsgs = s.inMsgs := rfl
@[simp] theorem State.setFlit_charges (s : State) (f : Flit) : (s.setFlit f).charges = s.charges := rfl
@[simp] theorem State.setFlit_colls (s : State) (f : Flit) : (s.setFlit f).colls = s.colls := rfl
@[simp] theorem State.setFlit_xfers (s : State) (f : Flit) : (s.setFlit f).xfers = s.xfers := rfl
@[simp] theorem State.setFlit_served (s : State) (f : Flit) : (s.setFlit f).served = s.served := rfl
@[simp] theorem State.setFlit_replies (s : State) (f : Flit) : (s.setFlit f).replies = s.replies := rfl
@[simp] theorem State.setFlit_marks (s : State) (f : Flit) : (s.setFlit f).marks = s.marks := rfl
@[simp] theorem State.setFlit_inputs (s : State) (f : Flit) : (s.setFlit f).inputs = s.inputs := rfl

/-! ## addPending -/

@[simp] theorem State.addPending_now (s : State) (n : Nat) (p : Pending) : (s.addPending n p).now = s.now := rfl
@[simp] theorem State.addPending_seq (s : State) (n : Nat) (p : Pending) : (s.addPending n p).seq = s.seq := rfl
@[simp] theorem State.addPending_nextId (s : State) (n : Nat) (p : Pending) : (s.addPending n p).nextId = s.nextId := rfl
@[simp] theorem State.addPending_freeCtr (s : State) (n : Nat) (p : Pending) : (s.addPending n p).freeCtr = s.freeCtr := rfl
@[simp] theorem State.addPending_cur (s : State) (n : Nat) (p : Pending) : (s.addPending n p).cur = s.cur := rfl
@[simp] theorem State.addPending_mem (s : State) (n : Nat) (p : Pending) : (s.addPending n p).mem = s.mem := rfl
@[simp] theorem State.addPending_tags (s : State) (n : Nat) (p : Pending) : (s.addPending n p).tags = s.tags := rfl
@[simp] theorem State.addPending_accs (s : State) (n : Nat) (p : Pending) : (s.addPending n p).accs = s.accs := rfl
@[simp] theorem State.addPending_atoms (s : State) (n : Nat) (p : Pending) : (s.addPending n p).atoms = s.atoms := rfl
@[simp] theorem State.addPending_foreseen (s : State) (n : Nat) (p : Pending) : (s.addPending n p).foreseen = s.foreseen := rfl
@[simp] theorem State.addPending_leases (s : State) (n : Nat) (p : Pending) : (s.addPending n p).leases = s.leases := rfl
@[simp] theorem State.addPending_pmaps (s : State) (n : Nat) (p : Pending) : (s.addPending n p).pmaps = s.pmaps := rfl
@[simp] theorem State.addPending_slots (s : State) (n : Nat) (p : Pending) : (s.addPending n p).slots = s.slots := rfl
@[simp] theorem State.addPending_posted (s : State) (n : Nat) (p : Pending) : (s.addPending n p).posted = s.posted := rfl
@[simp] theorem State.addPending_recs (s : State) (n : Nat) (p : Pending) : (s.addPending n p).recs = s.recs := rfl
@[simp] theorem State.addPending_rings (s : State) (n : Nat) (p : Pending) : (s.addPending n p).rings = s.rings := rfl
@[simp] theorem State.addPending_root (s : State) (n : Nat) (p : Pending) : (s.addPending n p).root = s.root := rfl
@[simp] theorem State.addPending_chips (s : State) (n : Nat) (p : Pending) : (s.addPending n p).chips = s.chips := rfl
@[simp] theorem State.addPending_ports (s : State) (n : Nat) (p : Pending) : (s.addPending n p).ports = s.ports := rfl
@[simp] theorem State.addPending_claims (s : State) (n : Nat) (p : Pending) : (s.addPending n p).claims = s.claims := rfl
@[simp] theorem State.addPending_sends (s : State) (n : Nat) (p : Pending) : (s.addPending n p).sends = s.sends := rfl
@[simp] theorem State.addPending_outs (s : State) (n : Nat) (p : Pending) : (s.addPending n p).outs = s.outs := rfl
@[simp] theorem State.addPending_flits (s : State) (n : Nat) (p : Pending) : (s.addPending n p).flits = s.flits := rfl
@[simp] theorem State.addPending_ctrls (s : State) (n : Nat) (p : Pending) : (s.addPending n p).ctrls = s.ctrls := rfl
@[simp] theorem State.addPending_outMsgs (s : State) (n : Nat) (p : Pending) : (s.addPending n p).outMsgs = s.outMsgs := rfl
@[simp] theorem State.addPending_inMsgs (s : State) (n : Nat) (p : Pending) : (s.addPending n p).inMsgs = s.inMsgs := rfl
@[simp] theorem State.addPending_charges (s : State) (n : Nat) (p : Pending) : (s.addPending n p).charges = s.charges := rfl
@[simp] theorem State.addPending_colls (s : State) (n : Nat) (p : Pending) : (s.addPending n p).colls = s.colls := rfl
@[simp] theorem State.addPending_xfers (s : State) (n : Nat) (p : Pending) : (s.addPending n p).xfers = s.xfers := rfl
@[simp] theorem State.addPending_served (s : State) (n : Nat) (p : Pending) : (s.addPending n p).served = s.served := rfl
@[simp] theorem State.addPending_replies (s : State) (n : Nat) (p : Pending) : (s.addPending n p).replies = s.replies := rfl
@[simp] theorem State.addPending_marks (s : State) (n : Nat) (p : Pending) : (s.addPending n p).marks = s.marks := rfl
@[simp] theorem State.addPending_inputs (s : State) (n : Nat) (p : Pending) : (s.addPending n p).inputs = s.inputs := rfl

/-! ## Reading after writing -/

@[simp] theorem State.core_setCore_same (s : State) (n : Nat) (c : Core) : (s.setCore n c).core n = c := by
  simp [State.core, State.setCore]
theorem State.core_setCore_other (s : State) {n k : Nat} (c : Core) (h : k ≠ n) : (s.setCore n c).core k = s.core k := by
  simp [State.core, State.setCore, mapGet_mapPut_other _ _ _ h]
@[simp] theorem State.setCore_setCore (s : State) (n : Nat) (c d : Core) : (s.setCore n c).setCore n d = s.setCore n d := by
  simp [State.setCore]
@[simp] theorem State.chip_setChip_same (s : State) (n : Nat) (c : Chip) : (s.setChip n c).chip n = c := by
  simp [State.chip, State.setChip]
theorem State.chip_setChip_other (s : State) {n k : Nat} (c : Chip) (h : k ≠ n) : (s.setChip n c).chip k = s.chip k := by
  simp [State.chip, State.setChip, mapGet_mapPut_other _ _ _ h]
@[simp] theorem State.setChip_setChip (s : State) (n : Nat) (c d : Chip) : (s.setChip n c).setChip n d = s.setChip n d := by
  simp [State.setChip]
@[simp] theorem State.port_setPort_same (s : State) (n : Nat) (c : Port) : (s.setPort n c).port n = c := by
  simp [State.port, State.setPort]
theorem State.port_setPort_other (s : State) {n k : Nat} (c : Port) (h : k ≠ n) : (s.setPort n c).port k = s.port k := by
  simp [State.port, State.setPort, mapGet_mapPut_other _ _ _ h]
@[simp] theorem State.setPort_setPort (s : State) (n : Nat) (c d : Port) : (s.setPort n c).setPort n d = s.setPort n d := by
  simp [State.setPort]
@[simp] theorem State.core_setChip (s : State) (n k : Nat) (c : Chip) : (s.setChip n c).core k = s.core k := rfl
@[simp] theorem State.core_setPort (s : State) (n k : Nat) (c : Port) : (s.setPort n c).core k = s.core k := rfl
@[simp] theorem State.chip_setCore (s : State) (n k : Nat) (c : Core) : (s.setCore n c).chip k = s.chip k := rfl
@[simp] theorem State.chip_setPort (s : State) (n k : Nat) (c : Port) : (s.setPort n c).chip k = s.chip k := rfl
@[simp] theorem State.port_setCore (s : State) (n k : Nat) (c : Core) : (s.setCore n c).port k = s.port k := rfl
@[simp] theorem State.port_setChip (s : State) (n k : Nat) (c : Chip) : (s.setChip n c).port k = s.port k := rfl

/-! ## Registers of a core -/

@[simp] theorem Core.sreg_zero (c : Core) : c.sreg 0 = 0 := rfl
theorem Core.sreg_setSreg_same (c : Core) {r : Nat} (v : Word) (h : r ≠ 0) : (c.setSreg r v).sreg r = v := by
  simp [Core.sreg, Core.setSreg, h]
theorem Core.sreg_setSreg_other (c : Core) {r k : Nat} (v : Word) (h : k ≠ r) : (c.setSreg r v).sreg k = c.sreg k := by
  unfold Core.setSreg; split
  · rfl
  · simp [Core.sreg, mapGet_mapSet_other _ _ _ h]
@[simp] theorem Core.mreg_zero (c : Core) : c.mreg 0 = BitVec.allOnes 64 := rfl
theorem Core.mreg_setMreg_same (c : Core) {r : Nat} (v : Word) (h : r ≠ 0) : (c.setMreg r v).mreg r = v := by
  simp [Core.mreg, Core.setMreg, h]
@[simp] theorem Core.creg_setCreg_same (c : Core) (r : Nat) (v : Cap) : (c.setCreg r v).creg r = v := by
  simp [Core.creg, Core.setCreg]
@[simp] theorem Core.queue_setQueue_same (c : Core) (q : Nat) (v : VQueue) : (c.setQueue q v).queue q = v := by
  simp [Core.queue, Core.setQueue]
theorem Core.queue_setQueue_other (c : Core) {q k : Nat} (v : VQueue) (h : k ≠ q) :
    (c.setQueue q v).queue k = c.queue k := by
  simp [Core.queue, Core.setQueue, mapGet_mapSet_other _ _ _ h]
@[simp] theorem Core.tileOf_setTile_same (c : Core) (t : Nat) (v : BitVec 101376) : (c.setTile t v).tileOf t = v := by
  simp [Core.tileOf, Core.setTile]
@[simp] theorem Core.breg_setBreg_same (c : Core) (r : Nat) (v : BitVec 65536) : (c.setBreg r v).breg r = v := by
  simp [Core.breg, Core.setBreg]
@[simp] theorem Core.panOf_setPan_same (c : Core) (p : Nat) (v : Pan) : (c.setPan p v).panOf p = v := by
  simp [Core.panOf, Core.setPan]

end Sys2Proof.Machine
end

