-- ==== Sys2Proof/Laws/Bundle.lean ====
section
/-! SUPPORT. What a bundle of one slot does: when it commits, and the state that it leaves. -/

namespace Sys2Proof.Machine

open Sys2Proof.Safety

@[simp] theorem State.core_setCore (s : State) (n : Nat) (c : Core) : (s.setCore n c).core n = c := by
  simp [State.core, State.setCore]
/-- A bundle whose slots are still all to come has collected nothing. -/
theorem clear_outs {s : State} (h : s.cur.outs = []) : { s with cur := { s.cur with outs := [] } } = s := by
  cases s with | mk a b c d cur => cases cur; simp_all

/-- A slot that is not the last of its bundle is only collected. -/
theorem execSlot_collects {s : State} (o : SlotOut) (h : 1 < s.cur.left) :
    execSlot s o = .next { s with cur := { s.cur with left := s.cur.left - 1, outs := s.cur.outs ++ [o] } } := by
  simp [execSlot, finishSame, issueSlot, h]

/-- A slot that ends its bundle decides it. -/
theorem execSlot_decides {s : State} (o : SlotOut) (h : s.cur.left ≤ 1) :
    execSlot s o = finishSame s (decideBundle { s with cur := { s.cur with outs := [] } } s.cur (s.cur.outs ++ [o])) := by
  have : ¬ 1 < s.cur.left := by omega
  simp [execSlot, issueSlot, this]

theorem minBy_nil {α : Type} (key : α → Nat) : minBy key ([] : List α) = none := rfl

/-! ## Checks that pass -/

/-- Nothing in flight, nothing pending. -/
theorem pendingPly_quiet {s : State} {n : Nat} (h : NothingInFlight s n) (r : Reg) : pendingPly s n r = 0 := by
  obtain ⟨h1, h2, h3⟩ := h
  have ha : s.accs.filter (fun x => decide (x.core = n) && decide (x.dest.reg = some r)) = [] := by
    rw [List.filter_eq_nil_iff]
    intro x hx
    simp [h2 x hx]
  have hb : s.atoms.filter (fun x => decide (x.core = n) && decide ((x.dest.map Reg.scalar) = some r)) = [] := by
    rw [List.filter_eq_nil_iff]
    intro x hx
    simp [h3 x hx]
  unfold pendingPly
  split
  · rfl
  · simp only [h1, ha, hb]
    rfl

theorem slotPending_quiet {s : State} {n : Nat} (h : NothingInFlight s n) (q k : Nat) : slotPending s n q k = 0 := by
  obtain ⟨h1, h2, -⟩ := h
  have ha : s.accs.filter (fun x => x.fills n q k) = [] := by
    rw [List.filter_eq_nil_iff]
    intro x hx
    simp [Access.fills, h2 x hx]
  simp [slotPending, h1, ha]

theorem headPending_quiet {s : State} {n : Nat} (h : NothingInFlight s n) (q : Nat) : headPending s n q = false := by
  obtain ⟨h1, h2, -⟩ := h
  have ha : ∀ (i k : Nat), s.accs.any (fun x => x.fills n q i && decide (x.order + 1 = k)) = false := by
    intro i k
    rw [List.any_eq_false]
    intro x hx
    simp [Access.fills, h2 x hx]
  simp [headPending, h1, ha]

theorem slotStall_quiet {s : State} {n : Nat} (h : NothingInFlight s n) (b : Nat) (ts : List SlotOut) (t : Bool) (o : SlotOut) :
    slotStall s n b ts t o = [] := by
  simp [slotStall, readPending, pendingPly_quiet h, slotPending_quiet h, headPending_quiet h]

/-- The slot is taken, and it is the only one. -/
theorem takenSlots_one {o : SlotOut} (htree : o.tree = none) (htag : o.tag ≤ 1) : takenSlots [o] = [o] := by
  simp [takenSlots, treeOf, htree, tagTaken, htag]

theorem treeOf_one {o : SlotOut} (htree : o.tree = none) : treeOf [o] = none := by simp [treeOf, htree]

/-- A bundle of one slot that passes the checks of the slot has no cause. -/
theorem bundleCauses_one {s : State} (h : Alone s) {o : SlotOut} (htree : o.tree = none) (htag : o.tag ≤ 1)
    (hill : o.illegal = none) (hca : o.causes = []) (hbc : o.bc = true → bit s.cur.w 22 = true)
    (hqd : o.qdests.length ≤ 2)
    (hports : o.portsNeeded ≤ ((portFields s.cur.w).filter (fun c => c = portCode o.cls && c != 0)).length)
    (hqc : queueCauses s.curCore [o] = []) : bundleCauses s s.cur s.bundleAddr [o] = [] := by
  have hall := h.allotment
  have h1 : (portFields s.cur.w).any (fun c => decide (5 ≤ c)) = false := by
    rw [List.any_eq_false]
    intro c hc
    have := List.all_eq_true.1 hall c hc
    simp at this ⊢
    omega
  have h2 : (portFields s.cur.w).any (fun c => !portSlotPresent s.cur.header c) = false := by
    rw [List.any_eq_false]
    intro c hc
    have := List.all_eq_true.1 hall c hc
    simp at this ⊢
    exact this.2
  have h3 : portShort s.cur.w o = false := by
    simp only [portShort, decide_eq_false_iff_not]
    omega
  have h4 : (o.bc && !bit s.cur.w 22) = false := by
    cases hb : o.bc
    · rfl
    · simp [hbc hb]
  have hill2 : bundleIllegal s.cur s.bundleAddr [o] = none := by
    have h5 : ¬ 2 < o.qdests.length := by omega
    simp [bundleIllegal, h.header, h.reserved, h.line, h1, h2, h3, h4, h5, treeOf_one htree, tagIllegal, htree,
      List.find?, Nat.not_le.2 (Nat.lt_succ_of_le htag)]
  have hst : ∀ (a : Nat) (ts : List SlotOut) (b : SlotOut → Bool), (if (s.core s.cur.core).chksb || bit s.cur.w 23 then
      [o].flatMap (fun o => slotStall s s.cur.core a ts (b o) o) else []) = [] := by
    intro a ts b
    rcases h.unchecked with ⟨x, y⟩ | hn
    · have x' : (s.core s.cur.core).chksb = false := x
      simp [x', y]
    · simp [slotStall_quiet hn]
  have hop : opcodeCauses s.cur [o] = [] := by simp [opcodeCauses, h.extension, hill]
  have hqc' : queueCauses (s.core s.cur.core) [o] = [] := hqc
  simp only [bundleCauses, takenSlots_one htree htag, hill2, hop, h.fetched, hst, hqc']
  simp [hca]

/-- A bundle of one slot that passes its checks and is not held commits. -/
theorem execSlot_commits {s : State} (h : Alone s) {o : SlotOut} (htree : o.tree = none) (htag : o.tag ≤ 1)
    (hill : o.illegal = none) (hca : o.causes = []) (hbc : o.bc = true → bit s.cur.w 22 = true)
    (hqd : o.qdests.length ≤ 2)
    (hports : o.portsNeeded ≤ ((portFields s.cur.w).filter (fun c => c = portCode o.cls && c != 0)).length)
    (hqc : queueCauses s.curCore [o] = []) (hhold : o.hold = false) (hord : orderHold s.curCore s.now o = false) :
    execSlot s o = finishSame s (softwareTrap (commitBundle s s.cur [o]) s.cur [o] (kept s)) := by
  have hq : (s.core s.cur.core).takeable s.now = [] := h.quiet
  have hcause : bundleCauses s s.cur (s.core s.cur.core).pc.toNat [o] = [] :=
    bundleCauses_one h htree htag hill hca hbc hqd hports hqc
  have hord' : orderHold (s.core s.cur.core) s.now o = false := hord
  rw [execSlot_decides o (Nat.le_of_eq h.last), clear_outs h.first, h.first]
  simp [decideBundle, bundleHeld, hq, hhold, hord', minBy_nil, bundleCause, hcause, kept, nextAddress, byteAfter, after,
    State.bundleAddr, State.curCore]

/-! ## The state that a commit leaves -/

theorem mem_distinct {q : Nat} {l : List Nat} : q ∈ distinct l ↔ q ∈ l := by
  induction l with
  | nil => simp [distinct]
  | cons x l ih =>
    simp only [distinct]
    split <;> simp_all

/-- The queue checks pass where every queue read holds an entry and every queue named has room after its pops. -/
theorem queueCauses_ok (c : Core) {o : SlotOut}
    (hr : ∀ r ∈ o.qreads, (c.queue r.1).count.toNat ≠ 0)
    (hp : ∀ q ∈ o.qreads.map Prod.fst ++ o.pushes.map Push.q,
      (c.queue q).count.toNat - (if o.qreads.any (fun r => r.1 = q && r.2) then 1 else 0) +
        ((o.pushes.map Push.q).filter (fun x => x = q)).length ≤ 2) : queueCauses c [o] = [] := by
  have hmin : ∀ (l : List Nat) (f : Nat → Bool), (∀ q ∈ l, f q = false) → minBy id (l.filter f) = none := by
    intro l f hf
    have : l.filter f = [] := by
      rw [List.filter_eq_nil_iff]
      intro q hq
      simp [hf q hq]
    rw [this, minBy_nil]
  simp only [queueCauses, List.flatMap_cons, List.flatMap_nil, List.append_nil]
  rw [hmin]
  intro q hq
  have hroom := hp q (mem_distinct.1 hq)
  have hread : (o.qreads.any (fun r => decide (r.1 = q)) && decide ((c.queue q).count.toNat = 0)) = false := by
    cases ha : o.qreads.any (fun r => decide (r.1 = q))
    · rfl
    · obtain ⟨r, hr1, hr2⟩ := List.any_eq_true.1 ha
      have := hr r hr1
      simp only [decide_eq_true_eq] at hr2
      subst hr2
      simp [this]
  rw [if_neg (by simp only [hread]; simp), if_neg (Nat.not_lt.2 hroom)]
  rfl

/-- A slot that reads no queue and pushes none asks nothing of the queues. -/
theorem queueCauses_none (c : Core) {o : SlotOut} (hr : o.qreads = []) (hp : o.pushes = []) : queueCauses c [o] = [] := by
  simp [queueCauses, hr, hp, distinct, minBy_nil]

/-- A state that differs from another in one core at most. -/
def OnlyCore (s : State) (n : Nat) (t : State) (c : Core) : Prop := t.core n = c ∧ ∀ x, t.setCore n x = s.setCore n x

theorem OnlyCore.refl (s : State) (n : Nat) : OnlyCore s n s (s.core n) := ⟨rfl, fun _ => rfl⟩

/-- A state that differs in one core only is the state with other cores. -/
theorem OnlyCore.form {s t : State} {n : Nat} {c : Core} (h : OnlyCore s n t c) :
    ∃ cs, t = { s with cores := cs } ∧ (∀ x, mapPut cs n x = mapPut s.cores n x) ∧ mapGet Core.reset cs n = c := by
  refine ⟨t.cores, ?_, fun x => congrArg State.cores (h.2 x), h.1⟩
  have e := h.2 c
  cases s
  cases t
  simp only [State.setCore, State.mk.injEq] at e
  simp only [State.mk.injEq, true_and]
  exact ⟨e.1, e.2.1, e.2.2.1, e.2.2.2.1, e.2.2.2.2.1, e.2.2.2.2.2.2⟩

theorem OnlyCore.step {s t : State} {n : Nat} {c : Core} (h : OnlyCore s n t c) (f : Core → Core) :
    OnlyCore s n (t.setCore n (f (t.core n))) (f c) := by
  refine ⟨by simp [h.1], fun x => ?_⟩
  rw [State.setCore_setCore, h.2]

/-- What is left outside the core. -/
theorem OnlyCore.fields {s t : State} {n : Nat} {c : Core} (h : OnlyCore s n t c) :
    t.now = s.now ∧ t.seq = s.seq ∧ t.mem = s.mem ∧ t.cur = s.cur := by
  have e := h.2 c
  exact ⟨by simpa using congrArg State.now e, by simpa using congrArg State.seq e, by simpa using congrArg State.mem e,
    by simpa using congrArg State.cur e⟩

theorem OnlyCore.pops {s t : State} {n : Nat} {c : Core} (h : OnlyCore s n t c) (qs : List Nat) :
    OnlyCore s n (qs.foldl (fun s q => s.setCore n (((s.core n).setQueue q ((s.core n).queue q).pop).markBank q)) t)
      (popped qs c) := by
  induction qs generalizing t c with
  | nil => exact h
  | cons q qs ih => exact ih (h.step (fun c => (c.setQueue q (c.queue q).pop).markBank q))

theorem OnlyCore.pend {s t : State} {n : Nat} {c : Core} (h : OnlyCore s n t c) (p : Pending) :
    OnlyCore s n (t.addPending n p) { c with pend := c.pend ++ [p] } :=
  h.step (fun c => { c with pend := c.pend ++ [p] })

/-- A result that takes effect with its bundle changes its core alone. -/
def Land.atOnce : Land → Bool
  | .brineTags _ _ _ => true
  | .panSeed _ _ => true
  | .panAux _ _ _ => true
  | .panPhase _ _ => true
  | .blen _ => true
  | .dpan _ => true
  | .control i _ => (0x60 ≤ i && i ≤ 0x68) || i = 0x88 || i = 0x8C || i = 0x8F
  | _ => false

theorem applyLand_atOnce {l : Land} (h : l.atOnce = true) (t : State) (n : Nat) :
    applyLand t n l = t.setCore n (effective (t.core n) l) := by
  cases l <;> simp only [Land.atOnce, Bool.false_eq_true] at h <;> try rfl
  rename_i i v
  have hi : i ∈ [0x60, 0x61, 0x62, 0x63, 0x64, 0x65, 0x66, 0x67, 0x68, 0x88, 0x8C, 0x8F] := by
    simp only [Bool.or_eq_true, Bool.and_eq_true, decide_eq_true_eq] at h
    simp only [List.mem_cons, List.not_mem_nil, or_false]
    omega
  simp only [List.mem_cons, List.not_mem_nil, or_false] at hi
  rcases hi with rfl | rfl | rfl | rfl | rfl | rfl | rfl | rfl | rfl | rfl | rfl | rfl <;> rfl

theorem OnlyCore.land {s t : State} {n : Nat} {c : Core} (h : OnlyCore s n t c) {l : Land} (hl : l.atOnce = true) :
    OnlyCore s n (applyLand t n l) (effective c l) := by
  rw [applyLand_atOnce hl]
  exact h.step (fun c => effective c l)

theorem OnlyCore.lands {s t : State} {n : Nat} {c : Core} (h : OnlyCore s n t c) (cls : Nat) {ls : List (Nat × Land)}
    (hz : ∀ l ∈ ls, l.1 = 0 → l.2.atOnce = true) :
    OnlyCore s n (ls.foldl (fun s l => commitLand s n cls l) t) (landing s cls ls c) := by
  induction ls generalizing t c with
  | nil => exact h
  | cons l ls ih =>
    have hz' : ∀ x ∈ ls, x.1 = 0 → x.2.atOnce = true := fun x hx => hz x (List.mem_cons_of_mem _ hx)
    by_cases h0 : l.1 = 0
    · have := ih (h.land (hz l (by simp) h0)) hz'
      simpa only [landing, List.foldl_cons, commitLand, h0, if_true] using this
    · have := ih (h.pend { due := t.now + l.1, seq := t.seq, slot := cls, what := l.2 }) hz'
      simpa only [landing, List.foldl_cons, commitLand, h0, if_false, h.fields.1, h.fields.2.1] using this

/-- The commit of a slot that takes effect alone, and is no yield and no loop close. -/
theorem commitBundle_one {s : State} {o : SlotOut} (h : Alone s) (htree : o.tree = none) (htag : o.tag ≤ 1)
    (hy : o.effs.contains .yielded = false) (hb : o.effs.contains .boundary = false) :
    commitBundle s s.cur [o] =
      let s1 := commitQueues s s.cur.core [o]
      let s3 := commitSlot s1 s.cur.core (drawnPhases (s1.core s.cur.core) [o]) o
      { s3.setCore s.cur.core { s3.core s.cur.core with
          pc := BitVec.ofNat 22 (o.target.getD (after s)), held := 0, wait := none,
          nextIssue := s.now + 1 + field s.cur.w 3 0 } with seq := s.seq + 1 } := by
  simp only [commitBundle, takenSlots_one htree htag, treeOf_one htree]
  simp only [List.any_cons, List.any_nil, hy, hb, Bool.or_false, Bool.false_eq_true, if_false, h.header, List.foldl_cons,
    List.foldl_nil, List.findSome?_cons, List.findSome?_nil, after, byteAfter, State.bundleAddr, State.curCore]
  cases o.target <;> simp

/-- A computed push. -/
theorem OnlyCore.push {s t : State} {n : Nat} {c : Core} (h : OnlyCore s n t c) (cls q lat : Nat) (v : Entry) :
    OnlyCore s n (commitPush t n cls { q := q, lat := lat, data := v, load := none }) (pushing s cls q lat v c) := by
  have h1 := (h.step (fun c => { (c.setQueue q (c.queue q).reserve).markBank q with
    qown := mapSet 0 c.qown (2 * q + (c.queue q).pushSlot) (8 * s.seq + cls + 1) })).pend
    { due := t.now + lat, seq := t.seq, slot := cls, what := .queue q (c.queue q).pushSlot v }
  simpa [commitPush, pushing, h.1, h.fields.1, h.fields.2.1, Core.setQueue, Core.markBank, Core.markDirty] using h1

/-- The state that `commitBundle_one` gives, for a slot whose effects touch its core only. -/
theorem OnlyCore.committed {s t : State} {c : Core} (h : OnlyCore s s.cur.core t c) (target : Nat) :
    { t.setCore s.cur.core { t.core s.cur.core with
        pc := BitVec.ofNat 22 target, held := 0, wait := none, nextIssue := s.now + 1 + field s.cur.w 3 0 } with
      seq := s.seq + 1 } = Safety.committed s c target := by
  rw [h.1, h.2]
  rfl

/-- The queue checks pass where every queue read holds an entry, and each queue pushed has room after the pops. -/
theorem queueCauses_reads (c : Core) {o : SlotOut} {pops : List Nat} (hpop : pops = poppedQueues [o])
    (hr : ∀ r ∈ o.qreads, 1 ≤ (c.queue r.1).count.toNat ∧ (c.queue r.1).count.toNat ≤ 2) (hlen : o.pushes.length ≤ 1)
    (hp : ∀ p ∈ o.pushes, (c.queue p.q).count.toNat - (if pops.contains p.q then 1 else 0) + 1 ≤ 2) :
    queueCauses c [o] = [] := by
  have hany : ∀ q, o.qreads.any (fun r => decide (r.1 = q) && r.2) = pops.contains q := by
    intro q
    rw [Bool.eq_iff_iff, hpop]
    simp [poppedQueues, mem_distinct]
  apply queueCauses_ok
  · intro r hr'
    have := (hr r hr').1
    omega
  · intro q hq
    rw [hany]
    rcases h : o.pushes with _ | ⟨p, _ | ⟨p', ps⟩⟩
    · simp only [h, List.map_nil, List.append_nil, List.mem_map] at hq
      obtain ⟨r, hr', rfl⟩ := hq
      have := (hr r hr').2
      simp only [List.map_nil, List.filter_nil, List.length_nil]
      omega
    · have hroom := hp p (by simp [h])
      by_cases he : p.q = q
      · subst he
        simpa using hroom
      · simp only [h, List.map_cons, List.map_nil, List.mem_append, List.mem_map, List.mem_singleton] at hq
        rcases hq with ⟨r, hr', rfl⟩ | rfl
        · have := (hr r hr').2
          simp only [List.map_cons, List.map_nil, List.filter_cons, he, decide_false, Bool.false_eq_true, if_false,
            List.filter_nil, List.length_nil]
          omega
        · exact absurd rfl he
    · simp [h] at hlen

theorem popped_panOf (qs : List Nat) (c : Core) (p : Nat) : (popped qs c).panOf p = c.panOf p := by
  induction qs generalizing c with
  | nil => rfl
  | cons q qs ih => exact ih _

theorem drawnPhases_none {o : SlotOut} (h : o.draws = []) (c : Core) : drawnPhases c [o] = [] := by
  simp [drawnPhases, h, distinct]

theorem drawnPhases_one {o : SlotOut} {p k : Nat} (h : o.draws = [(p, k)]) (c : Core) :
    drawnPhases c [o] = [(o.cls, .panPhase p ((c.panOf p).ph + BitVec.ofNat 16 k))] := by
  simp [drawnPhases, h, distinct]

theorem pushing_panOf (s : State) (cls q lat : Nat) (v : Entry) (c : Core) (p : Nat) :
    (pushing s cls q lat v c).panOf p = c.panOf p := rfl

/-- The state before the effects of a slot apply: pops, pushes, results and draws. -/
def beforeEffects (s : State) (o : SlotOut) : State :=
  let s1 := commitQueues s s.cur.core [o]
  let s2 := o.lands.foldl (fun t l => commitLand t s.cur.core o.cls l) s1
  ((drawnPhases (s1.core s.cur.core) [o]).filter (fun x => x.1 = o.cls)).foldl (fun t x => applyLand t s.cur.core x.2) s2

/-- The core before the effects of a slot apply. -/
theorem commit_core {s : State} {o : SlotOut} {d : Does} (hcls : o.cls = d.cls) (hq : o.qreads = d.reads)
    (hp : o.pushes = d.push.toList.map (fun p => { q := p.1, lat := p.2.1, data := p.2.2, load := none }))
    (hd : o.draws = d.draw.toList) (hl : o.lands = d.lands) (hz : ∀ l ∈ d.lands, l.1 = 0 → l.2.atOnce = true) :
    OnlyCore s s.cur.core (beforeEffects s o) (d.core s) := by
  have hpop : poppedQueues [o] = d.pops := by simp [poppedQueues, Does.pops, hq]
  have h0 := (OnlyCore.refl s s.cur.core).pops d.pops
  have h1 : OnlyCore s s.cur.core (commitQueues s s.cur.core [o]) (match d.push with
      | some (q, lat, v) => pushing s d.cls q lat v (popped d.pops s.curCore)
      | none => popped d.pops s.curCore) := by
    simp only [commitQueues, hpop, List.foldl_cons, List.foldl_nil, hp]
    cases hpu : d.push with
    | none => simpa [State.curCore] using h0
    | some p => simpa [hcls, State.curCore] using h0.push d.cls p.1 p.2.1 p.2.2
  have hpan : ∀ p, ((commitQueues s s.cur.core [o]).core s.cur.core).panOf p = s.curCore.panOf p := by
    intro p
    rw [h1.1]
    cases d.push with
    | none => exact popped_panOf _ _ _
    | some x => exact (pushing_panOf ..).trans (popped_panOf ..)
  have h2 := h1.lands d.cls hz
  cases hdr : d.draw with
  | none =>
    rw [hdr] at hd
    simp only [beforeEffects, drawnPhases_none hd, Does.core, hdr, hl, hcls, List.filter_nil, List.foldl_nil]
    exact h2
  | some x =>
    rw [hdr] at hd
    simp only [beforeEffects, drawnPhases_one hd, Does.core, hdr, hl, hcls, List.filter_cons, decide_true, if_true, List.filter_nil,
      List.foldl_cons, List.foldl_nil, hpan]
    exact h2.land rfl

/-- A slot that reads and writes registers and queues, and starts what else its effects say (R14): if it is ready and the order
rules let it issue, its effects apply to a state that differs in its core only, and the bundle commits. -/
theorem execSlot_effects {s : State} {o : SlotOut} {d : Does} (h : Alone s) (hr : d.ready s) (hcls : o.cls = d.cls)
    (htag : o.tag = d.tag.toNat) (htree : o.tree = none) (hill : o.illegal = none) (hca : o.causes = [])
    (hhold : o.hold = false) (hord : orderHold s.curCore s.now o = false) (hq : o.qreads = d.reads)
    (hqd : o.qdests.length ≤ 2) (hbc : o.bc = d.bc)
    (hp : o.pushes = d.push.toList.map (fun p => { q := p.1, lat := p.2.1, data := p.2.2, load := none }))
    (hd : o.draws = d.draw.toList) (hl : o.lands = d.lands) (hz : ∀ l ∈ d.lands, l.1 = 0 → l.2.atOnce = true)
    (hy : o.effs.contains .yielded = false)
    (hb : o.effs.contains .boundary = false) (ht : ∀ x, softwareTrap x s.cur [o] (kept s) = x) :
    ∃ t, OnlyCore s s.cur.core t (d.core s) ∧
      execSlot s o =
        (let u := o.effs.foldl (fun s' e => applyEff s' s.cur.core e) t
         finishSame s { u.setCore s.cur.core { u.core s.cur.core with
            pc := BitVec.ofNat 22 (o.target.getD (after s)), held := 0, wait := none,
            nextIssue := s.now + 1 + field s.cur.w 3 0 } with seq := s.seq + 1 }) := by
  obtain ⟨r1, r2, r3, r4, r5⟩ := hr
  have htag1 : o.tag ≤ 1 := by rw [htag]; exact r1
  have hpop : d.pops = poppedQueues [o] := by simp [poppedQueues, Does.pops, hq]
  have hqc : queueCauses s.curCore [o] = [] := by
    apply queueCauses_reads s.curCore hpop
    · rw [hq]; exact r4
    · rw [hp]; cases d.push <;> simp
    · intro p hp'
      rw [hp] at hp'
      cases hpu : d.push with
      | none => simp [hpu] at hp'
      | some x =>
        simp only [hpu, Option.toList_some, List.map_cons, List.map_nil, List.mem_singleton] at hp'
        subst hp'
        exact r5 x hpu
  refine ⟨_, commit_core hcls hq hp hd hl hz, ?_⟩
  rw [execSlot_commits h htree htag1 hill hca (by rw [hbc]; exact r2) hqd (by
    simpa [SlotOut.portsNeeded, hq, hcls, PortsFor] using r3) hqc hhold hord, ht,
    commitBundle_one h htree htag1 hy hb]
  rfl

/-- A slot that only reads and writes registers and queues (R14): if it is ready, it does what the manual gives it. -/
theorem execSlot_does {s : State} {o : SlotOut} {d : Does} (h : Alone s) (hr : d.ready s) (hcls : o.cls = d.cls)
    (htag : o.tag = d.tag.toNat) (htree : o.tree = none) (hill : o.illegal = none) (hca : o.causes = [])
    (hhold : o.hold = false) (hrel : o.release = none) (hst : o.starts = []) (heff : o.effs = []) (htg : o.target = none)
    (hq : o.qreads = d.reads) (hqd : o.qdests.length ≤ 2) (hbc : o.bc = d.bc)
    (hp : o.pushes = d.push.toList.map (fun p => { q := p.1, lat := p.2.1, data := p.2.2, load := none }))
    (hd : o.draws = d.draw.toList) (hl : o.lands = d.lands) (hz : ∀ l ∈ d.lands, l.1 = 0 → l.2.atOnce = true) :
    execSlot s o = .next (d.done s) := by
  obtain ⟨t, h1, h2⟩ := execSlot_effects h hr hcls htag htree hill hca hhold (by simp [orderHold, hrel, hst]) hq hqd hbc hp hd
    hl hz (by simp [heff]) (by simp [heff]) (by
      intro x
      have : o.tag ≤ 1 := by rw [htag]; exact hr.1
      simp [softwareTrap, takenSlots_one htree this, heff])
  rw [h2, heff, htg, List.foldl_nil]
  simp only [Option.getD_none]
  rw [h1.committed, finishSame, Does.done]
  congr 1

end Sys2Proof.Machine
end

