-- ==== Sys2Proof/Laws/Leases.lean ====
section
/-! SUPPORT. What leases and foreseen atomics do to reads and accesses, so that proofs need not unfold them. -/

namespace Sys2Proof.Machine

/-- Without a lease on its line, a byte is the one at home. -/
theorem readByteNow_home {s : State} {a : Nat} (h : s.leased (a / 64) = false) : readByteNow s a = (readByte s.mem a).toNat := by
  have hn : s.leases.find? (fun l => l.line = a / 64) = none := by
    simpa [State.leased, List.find?_eq_none, List.any_eq_false] using h
  simp [readByteNow, hn]

/-- An access that meets a lease, and has not been delayed, writes nothing: it is delayed (R269). -/
theorem performAccess_delays {s : State} {x : Access} (hd : x.delayed = false) (hl : ∃ l ∈ x.lines, s.leased l = true) :
    performAccess s x = { st := delayAccess s x, writes := [] } := by
  obtain ⟨l, hm, hl⟩ := hl
  have : (x.lines.filter s.leased).isEmpty = false := by
    simpa [List.isEmpty_eq_false_iff, List.filter_eq_nil_iff] using ⟨l, hm, hl⟩
  simp [performAccess, hd, this]

/-- The read that stands for one made before its atomics changes no byte, no tag, no lease and no core. -/
theorem leaveRead_frame (s : State) (core rank : Nat) (spans : List Span) :
    (leaveRead s core rank spans).mem = s.mem ∧ (leaveRead s core rank spans).tags = s.tags ∧
      (leaveRead s core rank spans).leases = s.leases ∧ (leaveRead s core rank spans).cores = s.cores := ⟨rfl, rfl, rfl, rfl⟩

/-- Taking a request slot changes nothing but the list of request slots. -/
theorem State.takeSlot_frame (s : State) (i k : Nat) : s.takeSlot i k = { s with slots := (s.takeSlot i k).slots } := rfl

theorem mem_insertBy {α : Type} (le : α → α → Bool) {x y : α} {l : List α} : y ∈ insertBy le x l ↔ y = x ∨ y ∈ l := by
  induction l with
  | nil => simp [insertBy]
  | cons z zs ih => simp only [insertBy]; split <;> simp [ih, or_left_comm]

/-- Sorting keeps the elements. -/
theorem mem_sortBy {α : Type} (le : α → α → Bool) {y : α} (l : List α) : y ∈ sortBy le l ↔ y ∈ l := by
  have h : ∀ (xs acc : List α), y ∈ xs.foldl (fun acc x => insertBy le x acc) acc ↔ y ∈ acc ∨ y ∈ xs := by
    intro xs
    induction xs with
    | nil => simp
    | cons x xs ih => intro acc; simp [ih, mem_insertBy, or_assoc, or_left_comm]
  cases l with
  | nil => simp [sortBy]
  | cons x xs => simpa [sortBy] using h (x :: xs) []

/-- The atomics of a ply that have yet to execute: those that are due, the adds of counted records, and those foreseen for cores that
have yet to start them. -/
theorem mem_dueAtomics {s : State} {a : Atom} :
    a ∈ dueAtomics s ↔ (a ∈ s.atoms ∧ a.dueNow s = true) ∨
      (∃ e ∈ dueAdds s, ∃ t ∈ ((s.core e.1).chan e.2).addsNow s.now, tailAtom s e.1 e.2 t = a) ∨
      (a ∈ s.foreseen.getD [] ∧ (s.core a.core).mayStart s.now = true) := by
  simp only [dueAtomics, mem_sortBy, List.mem_append, List.mem_filter, List.mem_flatMap, List.mem_map, or_assoc]

end Sys2Proof.Machine
end

