-- ==== Sys2Proof/Laws/Memory.lean ====
section
/-! SUPPORT. Memory: reading after writing, and the canonical form that every write keeps. -/

namespace Sys2Proof.Machine

@[simp] theorem readByte_writeByte_same (m : List Host.Cell) (a : Nat) (v : Byte) : readByte (writeByte m a v) a = v := by
  simp [readByte, writeByte]
theorem readByte_writeByte_other (m : List Host.Cell) {a b : Nat} (v : Byte) (h : b ≠ a) :
    readByte (writeByte m a v) b = readByte m b := by
  simp [readByte, writeByte, mapGet_mapSet_other _ _ _ h]

/-- A write of bytes leaves every address that it does not list as it was. -/
theorem readByte_writeBytes_other (m : List Host.Cell) (ws : List (Nat × Byte)) {b : Nat} (h : ∀ w ∈ ws, w.1 ≠ b) :
    readByte (writeBytes m ws) b = readByte m b := by
  induction ws generalizing m with
  | nil => rfl
  | cons w ws ih =>
    simp only [writeBytes]
    rw [ih _ (fun x hx => h x (List.mem_cons_of_mem _ hx)), readByte_writeByte_other _ _ (h w List.mem_cons_self).symm]

/-- The addresses that `bytesOf` lists are the `n` from `a` on. -/
theorem mem_bytesOf {a v n : Nat} {w : Nat × Byte} (h : w ∈ bytesOf a v n) : a ≤ w.1 ∧ w.1 < a + n := by
  induction n generalizing a v with
  | zero => simp [bytesOf] at h
  | succ n ih =>
    simp only [bytesOf, List.mem_cons] at h
    obtain rfl | h := h
    · simp
    · have := ih h; omega

theorem Memory.wf_tail {e : Host.Cell} {m : List Host.Cell} (h : Memory.wf (e :: m)) : Memory.wf m := by
  cases m with
  | nil => rfl
  | cons f m => simp [Memory.wf] at h; exact h.2

/-- The least address that may stand at the head of a canonical list after `a`. -/
theorem Memory.wf_cons {a : Nat} {v : Byte} {m : List Host.Cell} :
    Memory.wf ((a, v) :: m) ↔ v ≠ 0 ∧ (∀ e ∈ m.head?, a < e.1) ∧ Memory.wf m := by
  cases m with
  | nil => simp [Memory.wf]
  | cons f m => simp [Memory.wf, and_assoc]

theorem Memory.wf_below {a : Nat} {m : List Host.Cell} (h : Memory.wf m) (ha : ∀ e ∈ m.head?, a < e.1) :
    ∀ e ∈ m, a < e.1 := by
  induction m with
  | nil => simp
  | cons f m ih =>
    obtain ⟨x, v⟩ := f
    intro e he
    have hx : a < x := ha (x, v) (by simp)
    rcases List.mem_cons.1 he with rfl | he
    · exact hx
    · refine ih (Memory.wf_tail h) (fun g hg => ?_) e he
      have := (Memory.wf_cons.1 h).2.1 g hg
      omega

theorem Memory.wf_mapPut {m : List Host.Cell} (h : Memory.wf m) (a : Nat) {v : Byte} (hv : v ≠ 0) :
    Memory.wf (mapPut m a v) ∧ ∀ e ∈ (mapPut m a v).head?, e.1 = a ∨ ∃ f ∈ m.head?, e = f := by
  induction m with
  | nil => simpa [mapPut, Memory.wf] using hv
  | cons f m ih =>
    obtain ⟨x, w⟩ := f
    have hw := Memory.wf_cons.1 h
    simp only [mapPut]
    split
    · refine ⟨Memory.wf_cons.2 ⟨hv, by simpa using ‹a < x›, h⟩, by simp⟩
    · split
      · subst_vars
        refine ⟨Memory.wf_cons.2 ⟨hv, hw.2⟩, by simp⟩
      · refine ⟨Memory.wf_cons.2 ⟨hw.1, fun e he => ?_, (ih hw.2.2).1⟩, by simp⟩
        rcases (ih hw.2.2).2 e he with h1 | ⟨g, hg, rfl⟩
        · omega
        · exact hw.2.1 _ hg

theorem Memory.wf_mapDel {m : List Host.Cell} (h : Memory.wf m) (a : Nat) :
    Memory.wf (mapDel m a) ∧ ∀ e ∈ (mapDel m a).head?, e ∈ m := by
  induction m with
  | nil => simp [mapDel, Memory.wf]
  | cons f m ih =>
    obtain ⟨x, w⟩ := f
    have hw := Memory.wf_cons.1 h
    have hi := ih hw.2.2
    simp only [mapDel]
    split
    · exact ⟨hi.1, fun e he => List.mem_cons_of_mem _ (hi.2 e he)⟩
    · refine ⟨Memory.wf_cons.2 ⟨hw.1, fun e he => ?_, hi.1⟩, by simp⟩
      exact Memory.wf_below hw.2.2 hw.2.1 e (hi.2 e he)

/-- A byte write keeps the canonical form. -/
theorem Memory.wf_writeByte {m : List Host.Cell} (h : Memory.wf m) (a : Nat) (v : Byte) : Memory.wf (writeByte m a v) := by
  unfold writeByte mapSet
  split
  · exact (Memory.wf_mapDel h a).1
  · exact (Memory.wf_mapPut h a ‹_›).1

/-- Every list of byte writes keeps the canonical form. -/
theorem Memory.wf_writeBytes {m : List Host.Cell} (h : Memory.wf m) (ws : List (Nat × Byte)) :
    Memory.wf (writeBytes m ws) := by
  induction ws generalizing m with
  | nil => exact h
  | cons w ws ih => exact ih (Memory.wf_writeByte h w.1 w.2)

/-- `finish` changes memory by a list of byte writes. -/
theorem finish_mem {s t : State} {r : Result} (h : finish s r = .next t) : t.mem = writeBytes s.mem r.writes := by
  simp only [finish, Host.Outcome.next.injEq] at h
  rw [← h]

/-- `finishSame` leaves memory as it is. -/
theorem finishSame_mem {s t u : State} (h : finishSame s u = .next t) : t.mem = s.mem := by
  simp only [finishSame, Host.Outcome.next.injEq] at h
  rw [← h]

end Sys2Proof.Machine
end

