-- ==== Sys2Proof/Laws/Slots.lean ====
section
/-! SUPPORT. What a slot that jumps, or that starts accesses and operations, does alone in its bundle. -/

namespace Sys2Proof.Machine

open Sys2Proof.Safety

/-- The order rules let a slot issue. -/
theorem orderHold_free {s : State} {o : SlotOut} {a : Acts} (h : a.inOrder s) (hrel : o.release = a.release)
    (hst : o.starts = a.starts.toList) : orderHold s.curCore s.now o = false := by
  obtain ⟨h1, h2⟩ := h
  have e1 : ∀ k, a.release = some k → s.curCore.ops.any (fun x => decide (x.dist ≤ k) && x.waits s.now) = false := by
    intro k hk
    rw [List.any_eq_false]
    intro x hx
    by_cases hd : x.dist ≤ k
    · simp [h1 k (by simp [hk]) x hx hd]
    · simp [hd]
  simp only [orderHold, hrel, hst, Bool.or_eq_false_iff, List.any_eq_false, Option.mem_toList]
  refine ⟨?_, fun st hs => ?_⟩
  · cases hk : a.release with
    | none => rfl
    | some k => exact e1 k hk
  · obtain ⟨h3, h4⟩ := h2 st hs
    rw [Bool.not_eq_true, Bool.or_eq_false_iff, List.any_eq_false, List.any_eq_false]
    refine ⟨fun x hx => ?_, fun f hf => ?_⟩
    · cases hq : x.acq with
      | none => simp
      | some k =>
        by_cases hd : st.2 ≤ k
        · simp [h3 x hx k (by simp [hq]) hd]
        · simp [hd]
    · by_cases ha : st.1 &&& f.succ = 0
      · simp [ha]
      · by_cases hb : st.2 ≤ f.scope
        · simp [h4 f hf ha hb]
        · simp [hb]

/-- An effect that is no yield, no loop close and no TRAP. -/
def Eff.Plain (e : Eff) : Prop := e ≠ .yielded ∧ e ≠ .boundary ∧ ∀ a b, e ≠ .softTrap a b

theorem plain_contains {es : List Eff} (h : ∀ e ∈ es, e.Plain) :
    es.contains .yielded = false ∧ es.contains .boundary = false := by
  constructor <;> rw [← Bool.not_eq_true, List.contains_iff_mem] <;> intro hm
  · exact (h _ hm).1 rfl
  · exact (h _ hm).2.1 rfl

/-- Without a TRAP, a commit is followed by no trap. -/
theorem softwareTrap_plain {o : SlotOut} (h : ∀ e ∈ o.effs, e.Plain) (x : State) (cur : Cur) (r : Nat) :
    softwareTrap x cur [o] r = x := by
  unfold softwareTrap
  split
  · rename_i hh
    obtain ⟨u, hu, hv⟩ := List.exists_of_findSome?_eq_some hh
    obtain ⟨e, he, hw⟩ := List.exists_of_findSome?_eq_some hv
    have hu' : u = o := by
      simp only [takenSlots, List.mem_filter, List.mem_singleton] at hu
      exact hu.1
    subst hu'
    cases e <;> simp at hw
    exact absurd rfl ((h _ he).2.2 _ _)
  · rfl

/-- A slot whose effects are known: if it is ready, it leaves what the manual gives it. -/
theorem execSlot_acts {s : State} {o : SlotOut} {a : Acts} (h : Alone s) (hr : a.ready s) (hcls : o.cls = a.does.cls)
    (htag : o.tag = a.does.tag.toNat) (htree : o.tree = none) (hill : o.illegal = none) (hca : o.causes = [])
    (hhold : o.hold = false) (hrel : o.release = a.release) (hst : o.starts = a.starts.toList) (htg : o.target = a.target)
    (hq : o.qreads = a.does.reads) (hqd : o.qdests.length ≤ 2) (hbc : o.bc = a.does.bc)
    (hp : o.pushes = a.does.push.toList.map (fun p => { q := p.1, lat := p.2.1, data := p.2.2, load := none }))
    (hd : o.draws = a.does.draw.toList) (hl : o.lands = a.does.lands)
    (hz : ∀ l ∈ a.does.lands, l.1 = 0 → l.2.atOnce = true) (hplain : ∀ e ∈ o.effs, e.Plain)
    (hmem : ∀ t, (a.more t).mem = t.mem)
    (heff : ∀ t c x, OnlyCore s s.cur.core t c →
      (let u := o.effs.foldl (fun s' e => applyEff s' s.cur.core e) t
       { u.setCore s.cur.core { u.core s.cur.core with
          pc := BitVec.ofNat 22 x, held := 0, wait := none, nextIssue := s.now + 1 + field s.cur.w 3 0 } with
         seq := s.seq + 1 }) = a.more (committed s c x)) :
    execSlot s o = .next (a.done s) := by
  obtain ⟨hy, hb⟩ := plain_contains hplain
  obtain ⟨t, h1, h2⟩ := execSlot_effects h hr.1 hcls htag htree hill hca hhold (orderHold_free hr.2.1 hrel hst) hq hqd hbc hp hd
    hl hz hy hb (fun x => softwareTrap_plain hplain x s.cur (kept s))
  have e := heff t _ (o.target.getD (after s)) h1
  simp only at e h2
  rw [h2, e, htg, finishSame, Acts.done]
  congr 1
  have : s.mem = (a.more (committed s (a.does.core s) (a.target.getD (after s)))).mem := by
    rw [hmem]; rfl
  rw [this]

end Sys2Proof.Machine
end

