-- ==== Sys2Proof/Tests/Slice0.lean ====
section
/-! SUPPORT. Tests: words of the manual that decode to what they stand for, ill-formed terms that the check refuses, results that the manual
works out by hand, and for every statement with hypotheses a state and operands that meet them. -/

noncomputable section

set_option maxRecDepth 100000
set_option Elab.async false

namespace Sys2Proof.Tests

open Sys2Proof Sys2Proof.Machine Sys2Proof.Safety

/-! ## Decoding: words written out from the encodings of the manual -/

/-- Class C: major at bit 23, D at 17, A at 11, B at 5, FN in bits 4 to 0 (R66, R100 to R117). -/
theorem test_decode_control :
    decodeSlot 0 (0x02 <<< 23 + 3 <<< 17 + 4 <<< 11 + 0x7FB) = .addiI64 0 3 4 (-5) ∧
    decodeSlot 0 (1 <<< 29 + 0x00 <<< 23 + 4 <<< 17 + 4 <<< 11 + 3 <<< 5 + 9) = .mulI64 1 4 4 3 ∧
    decodeSlot 0 (0x1D <<< 23 + 4 <<< 17 + 20) = .loopi 0 4 20 ∧ decodeSlot 0 0x0F000003 = .yield 0 ∧ decodeSlot 0 0x0F000005 = .fenceSeq 0 ∧
    decodeSlot 0 0x280CC01803E0D2111FE46100 = .tree 3 0x23 0x020 0x211 0x034 0x03E 0x18 0xC0 0x0C 0x28 0 0 0 := by
  decide +kernel

/-- Classes A and K: major at bit 10 of 16 bits. -/
theorem test_decode_short :
    decodeSlot 1 (0x03 <<< 10 + 0 <<< 7 + 20 <<< 1) = .wtakeL 0 20 ∧ decodeSlot 5 (0x01 <<< 10 + 9) = .scldB 0 9 := by
  decide +kernel

/-- Class L, of which the manual works out these words. -/
theorem test_decode_memory :
    decodeSlot 2 0x0480C220 = .stvW 0 3 0 1 4 ∧ decodeSlot 2 0x108A2328 = .stxD 0 5 1 6 2 2 ∧ decodeSlot 2 0x100E4424 = .ldxD 0 7 2 8 2 1 ∧
    decodeSlot 2 0x0CEDDC1C = .acasD 0 54 14 56 1 3 ∧ decodeSlot 2 0x10EFDB18 = .stxD 0 55 14 54 1 2 := by
  decide +kernel

/-- Classes V and M. -/
theorem test_decode_vector_and_matrix :
    decodeSlot 3 0x1882C155 = .vredaddF32 0 11 10 1 5 ∧ decodeSlot 3 0x1A80050B = .vmfirst 0 10 1 ∧
    decodeSlot 4 0x02004000 = .mma 0 0 0 1 0 0 0 ∧ decodeSlot 4 0x0410A001 = .aoutBf16 0 0 4 10 0 := by
  decide +kernel

/-- Classes E and B. -/
theorem test_decode_engine_and_brine :
    decodeSlot 6 (20 <<< 33 + 12 <<< 27) = .chstart 0 20 12 0 ∧ decodeSlot 6 0x0C2503000000 = .gsub 0 2 20 3 0 ∧
    decodeSlot 6 0x048018000700 = .bwait 0 0 3 1792 ∧ decodeSlot 7 0x00108000 = .pseed 0 2 4 ∧ decodeSlot 7 0x0080A040 = .bdslv 0 0 40 0 2 0 ∧
    decodeSlot 7 0x0120F000 = .bcryst 0 4 60 ∧ decodeSlot 7 0x01910380 = .bresalt 0 2 2 7 := by
  decide +kernel

/-- Link instructions and tile-set records. -/
theorem test_decode_link_and_record :
    decodeLink 0x00000000000001804E00400100000388 = .send 904 0x100 39 24 ∧
    decodeLink 0x0E004E020000FF86 = .land 65414 0x138 7 0 ∧
    decodeLink 0x00007E00400000000024000B00010048 = .delv 65608 0x100 63 0x9000 ∧
    decodeLink 0x00000000500000000028000800010049 = .mark 65609 0x140 0xA000 ∧ decodeLink 0x0000000E0001004A = .halt 65610 ∧
    decodeRecord 0xFFFE01000000700000FFFE010000005000FF02010000240207 =
      some (.gmmaz { lvl := 2, flags := 0x24, body := 0xFFFE01000000700000FFFE010000005000FF020100 }) := by
  decide +kernel

/-- A reserved major, an extension major, a bit that must be zero and an immediate out of range are refused by name (R52). -/
theorem test_decode_refuses :
    decodeSlot 0 (0x20 <<< 23) = .illegalOpcode 0 0 0x10000000 ∧ decodeSlot 0 (0x38 <<< 23) = .illegalOpcode 0 1 0x1C000000 ∧
    decodeSlot 7 (0x04 <<< 23 + 1) = .illegalOpcode 7 2 0x02000001 ∧ decodeSlot 0 (22 <<< 23 + 0x102) = .illegalOpcode 0 3 0x0B000102 ∧ decodeSlot 0 (0x07 <<< 23 + 64) = .illegalOpcode 0 2 0x03800040 := by
  decide +kernel

/-! ## Well-formedness: an ill-formed term for every check -/

theorem test_wf_tree_zeros : Instr.wf (.tree 0 0 0 0 0 0 0 0 0 0 0 1 0) = false := by decide +kernel
theorem test_wf_shift : Instr.wf (.slliI64 0 1 2 64) = false := by decide +kernel
theorem test_wf_control_index : Instr.wf (.mfc 0 1 0x15) = false := by decide +kernel
theorem test_wf_loop_entry : Instr.wf (.wstepL 0 6) = false := by decide +kernel
theorem test_wf_queue : Instr.wf (.ldvW 0 384 1 2) = false := by decide +kernel
theorem test_wf_second_queue : Instr.wf (.vcmpltI32 0 1 2 384 0) = false := by decide +kernel
theorem test_wf_scope : Instr.wf (.aaddD 0 4 1 2 5 0) = false := by decide +kernel
theorem test_wf_pair : Instr.wf (.acasD 0 5 1 2 0 0) = false := by decide +kernel
theorem test_wf_load_order : Instr.wf (.ldxD 0 4 1 2 0 2) = false := by decide +kernel
theorem test_wf_store_order : Instr.wf (.stxD 0 4 1 2 0 1) = false := by decide +kernel
theorem test_wf_grid : Instr.wf (.vaddI32 0 6 0 0 1 2 3) = false := by decide +kernel
theorem test_wf_rounding : Instr.wf (.aoutF32 0 0 4 1 5) = false := by decide +kernel
theorem test_wf_part : Instr.wf (.vpacksI16I32 0 1 2 2) = false := by decide +kernel
theorem test_wf_format : Instr.wf (.mma 0 0 0 1 3 0 0) = false := by decide +kernel
theorem test_wf_length : Instr.wf (.bsetlen 0 5) = false := by decide +kernel
theorem test_wf_level : Instr.wf (.gsub 0 5 1 2 0) = false := by decide +kernel
theorem test_wf_reserved_opc : Instr.wf (.reservedOpc 0x0E00000000) = false := by decide +kernel
theorem test_wf_illegal_opcode : Instr.wf (.illegalOpcode 0 0 0) = false := by decide +kernel

/-! ## States of one bundle -/

/-- A queue with one entry. -/
def filled (v : Nat) : VQueue := { VQueue.empty with count := 1, slot0 := BitVec.ofNat 2048 v }

/-- A core with something in every kind of register. -/
def core1 : Core :=
  { Core.reset with
    run := .running, codeHi := 0x1000, tvec := 0x81, tpc := 0x40, depth := 1, lc := [(0, { count := 3, start := 64 })],
    s := [(1, 8), (2, 4), (3, 0x1000), (4, 0x3F80000000000000), (5, 0x40000000), (6, 0x40), (7, 0x100), (9, BitVec.ofNat 64 (0xFFFE <<< 48 + 1 <<< 37 + 0x40))],
    m := [(1, 0xF), (2, 0x5)], q := (List.range 8).map (fun k => (k, filled (0x3F80000040000000 + k))) ++ [(9, filled (8 + 1 <<< 128 + (0xFFFE <<< 48 + 0x40) <<< 192))],
    c := [(1, Cap.make true (0xFFFE <<< 48) 4194304 0xFF 0 0), (2, Cap.make true (0xFFFE <<< 48) 0xFFFFFFFFFF 0xFF 15 0), (3, Cap.make true (0xFFFE <<< 48) 64 0xFF 15 8), (4, Cap.make true 0 4096 0xFF 15 0)],
    w := [(0, { base := 5, step := 0x300000002 })], tconf := 0x39393939, b := [(0, 0x1234), (1, 0x4321), (2, 5), (3, 3)], bmask := [(2, 1), (3, 1)], blenc := 0,
    pan := [(0, { seed := 5, scr := 3, ph := 0 })], schlen := 5, ntend := 10, ntw := 4, ntstep := 1 }

/-- Core 0 with a bundle of one slot at issue; every read port goes to the slot, and BSRC names s1. -/
def solo (cls : Nat) (c : Core) : State :=
  { State.reset.setCore 0 c with
    cur := { core := 0, header := 2 ^ cls, w := soloControl cls + 2 ^ 16, len := 9, bytes := 0, fetchFault := none, left := 1, outs := [] } }

/-- Such a bundle is alone where nothing deferred stands and the core is unchecked. -/
theorem solo_alone {cls : Nat} (h : cls < 8) {c : Core} (hd : c.dev = []) (hc : c.chksb = false) (hp : c.pc = 0) : Alone (solo cls c) := by
  have hcore : (solo cls c).curCore = c := rfl
  refine ⟨by simp [solo], rfl, ?_, ?_, ?_, ?_, ?_, rfl, ?_, .inl ⟨by rw [hcore]; exact hc, ?_⟩⟩
  · simp [solo]
  · have : ∀ k < 8, field (soloControl k + 2 ^ 16) 30 28 = 0 := by decide +kernel
    exact this cls h
  · have : ∀ k < 8, bit (soloControl k + 2 ^ 16) 31 = false := by decide +kernel
    exact this cls h
  · simp only [State.bundleAddr, hcore, hp]; rfl
  · have : ∀ k < 8, (portFields (soloControl k + 2 ^ 16)).all (fun c => decide (c < 5) && portSlotPresent (2 ^ k) c) = true := by
      decide +kernel
    exact this cls h
  · rw [hcore]; simp [Core.takeable, hd]
  · have : ∀ k < 8, bit (soloControl k + 2 ^ 16) 23 = false := by decide +kernel
    exact this cls h

/-! ## Results that the manual works out -/

/-- The core after one slot alone in its bundle. -/
def coreAfter (i : Instr) (s : State) : Core := match exec i s with | .next t => t.core 0 | _ => Core.reset

/-- The example of R41: ENDLOOP at depth 0 at 0x240, with TVEC 0x3001, gives TCAUSE 0x00800107, TPC 0x240 and the handler at 0x3000. -/
theorem test_loop_depth_trap :
    let c := coreAfter (.endloop 0) (solo 0 { Core.reset with run := .running, pc := 0x240, tvec := 0x3001 })
    c.tcause = 0x00800107 ∧ c.tpc = 0x240 ∧ c.pc = 0x3000 ∧ c.intrap = true ∧ c.nextIssue = 1 := by
  decide +kernel

/-- The tree of the example after R25, at 0x180: s4 = 0, s6 = 5 and s7 all ones reach leaf 4, at 0x1A8. -/
theorem test_tree_leaf_four :
    let c := coreAfter (.tree 3 0x23 0x020 0x211 0x034 0x03E 0x18 0xC0 0x0C 0x28 0 0 0)
      (solo 0 { Core.reset with run := .running, pc := 0x180, s := [(6, 5), (7, BitVec.allOnes 64)] })
    c.leaf = 4 ∧ c.pc = 0x1A8 := by
  decide +kernel

/-- The same tree with s4 = 3 and m2 empty falls through at leaf 0. -/
theorem test_tree_leaf_zero :
    let c := coreAfter (.tree 3 0x23 0x020 0x211 0x034 0x03E 0x18 0xC0 0x0C 0x28 0 0 0)
      (solo 0 { Core.reset with run := .running, pc := 0x180, leaf := 4, s := [(4, 3)] })
    c.leaf = 0 ∧ c.pc = 0x189 := by
  decide +kernel

/-- The entry that a slot has put on its way into a queue: low 64 bits. -/
def pushed (c : Core) : Nat := match c.pend with | p :: _ => (match p.what with | .queue _ _ v => v.toNat % 2 ^ 64 | _ => 0) | [] => 0

/-- The example of R180: VADD.I16 wraps and VADDS.I16 clamps. -/
theorem test_vadd_i16 :
    let c : Core := { Core.reset with run := .running, q := [(1, filled 0x7FF08000), (2, filled 0x00209000)] }
    pushed (coreAfter (.vaddI16 0 0 0 0 3 1 2) (solo 3 c)) = 0x80101000 ∧ pushed (coreAfter (.vaddsI16 0 0 0 0 3 1 2) (solo 3 c)) = 0x7FFF8000 := by
  decide +kernel

/-- The example of R187: 2^24 and three times 1.0, added pair by pair, give 2^24 + 2. -/
theorem test_vredadd :
    pushed (coreAfter (.vredaddF32 0 11 10 1 5)
      (solo 3 { Core.reset with run := .running, m := [(5, BitVec.allOnes 64)],
                                q := [(10, filled (0x4B800000 + 0x3F800000 <<< 32 + 0x3F800000 <<< 64 + 0x3F800000 <<< 96))] })) =
      0x4B8000014B800001 := by
  decide +kernel

/-- The worked conversions to BF16: ties to even, directed, dithered, saturated (R157 to R170). -/
theorem test_round_bf16 :
    (decodeF32 0x3F808000).round 7 0 0 = 0x3F80 ∧ (decodeF32 0x3F818000).round 7 0 0 = 0x3F82 ∧
    (decodeF32 0x3F804000).round 7 4 100 = 0x3F81 ∧ (decodeF32 0x3F804000).round 7 4 300 = 0x3F80 ∧
    (decodeF32 0x7F7FFFFF).round 7 0 0 = 0x7F80 ∧ (decodeF32 0x7F7FFFFF).round 7 1 0 = 0x7F7F := by
  decide +kernel

/-! ## Witnesses: slots -/

/-- Whether a table gives a slot something, and the slot is ready. -/
def does (f : State → Instr → Option Does) (s : State) (i : Instr) : Bool := (f s i).any (fun d => decide (d.ready s))
def acts (f : State → Instr → Option Acts) (s : State) (i : Instr) : Bool := (f s i).any (fun a => decide (a.ready s))

theorem does_ready {f : State → Instr → Option Does} {s : State} {l : List Instr} (h : l.all (does f s) = true) :
    ∀ i ∈ l, ∃ d, f s i = some d ∧ d.ready s := by
  intro i hi
  have := List.all_eq_true.mp h i hi
  rw [does, Option.any_eq_true] at this
  obtain ⟨d, hd, hr⟩ := this
  exact ⟨d, hd, of_decide_eq_true hr⟩

theorem acts_ready {f : State → Instr → Option Acts} {s : State} {l : List Instr} (h : l.all (acts f s) = true) :
    ∀ i ∈ l, ∃ a, f s i = some a ∧ a.ready s := by
  intro i hi
  have := List.all_eq_true.mp h i hi
  rw [acts, Option.any_eq_true] at this
  obtain ⟨d, hd, hr⟩ := this
  exact ⟨d, hd, of_decide_eq_true hr⟩

theorem core1_alone {cls : Nat} (h : cls < 8) : Alone (solo cls core1) := solo_alone h rfl rfl rfl

def listScalarRegisterForms : List Instr :=
  [.addI64 0 1 7 1, .subI64 0 2 7 3, .andI64 0 2 2 2, .orI64 0 7 7 7, .xorI64 0 3 5 1, .andnI64 0 4 7 6, .sllI64 0 7 5 3,
   .srlI64 0 6 5 3, .sraI64 0 4 7 6, .mulI64 0 5 7 5, .mulhI64 0 2 7 5, .mulhuI64 0 5 1 7, .addsI64 0 5 4 5,
   .subsI64 0 4 1 4, .addsuI64 0 2 6 7, .subsuI64 0 1 1 7, .minI64 0 1 7 6, .maxI64 0 6 2 1, .minuI64 0 2 5 4,
   .maxuI64 0 7 2 1, .clzI64 0 3 3, .ctzI64 0 5 7, .popcI64 0 7 7]

theorem witness_ScalarRegisterForms :
    Alone (solo 0 core1) ∧ ∀ i ∈ listScalarRegisterForms, ∃ d, row64 (solo 0 core1) i = some d ∧ d.ready (solo 0 core1) :=
  ⟨core1_alone (by decide), does_ready (by decide +kernel)⟩

def listScalarRegisterForms32 : List Instr :=
  [.addI32 0 7 6 5, .subI32 0 2 6 3, .andI32 0 4 3 7, .orI32 0 3 3 6, .xorI32 0 2 3 1, .andnI32 0 6 3 2, .sllI32 0 2 6 1,
   .srlI32 0 5 3 2, .sraI32 0 2 2 4, .mulI32 0 2 4 3, .mulhI32 0 2 4 3, .mulhuI32 0 7 1 2, .addsI32 0 6 6 7,
   .subsI32 0 5 5 2, .addsuI32 0 2 4 6, .subsuI32 0 4 2 3, .minI32 0 4 1 6, .maxI32 0 1 1 1, .minuI32 0 6 4 1,
   .maxuI32 0 6 6 3, .clzI32 0 7 6, .ctzI32 0 4 7, .popcI32 0 1 4]

theorem witness_ScalarRegisterForms32 :
    Alone (solo 0 core1) ∧ ∀ i ∈ listScalarRegisterForms32, ∃ d, row32 (solo 0 core1) i = some d ∧ d.ready (solo 0 core1) :=
  ⟨core1_alone (by decide), does_ready (by decide +kernel)⟩

def listScalarImmediates : List Instr :=
  [.addiI64 0 7 7 0, .addiI32 0 3 2 15, .andiI64 0 2 1 8, .oriI64 0 1 7 0, .xoriI64 0 6 5 8, .slliI64 0 4 3 0,
   .srliI64 0 3 7 10, .sraiI64 0 3 1 25, .addsiI64 0 2 2 0, .cmpEq 0 2 2 3, .cmpNe 0 3 5 6, .cmpLt 0 2 5 5, .cmpGe 0 6 4 2,
   .cmpLtu 0 5 1 2, .cmpGeu 0 1 4 6, .cmovNz 0 6 1 6, .cmovZ 0 7 6 1, .cmovLt 0 7 5 5, .cmovGe 0 2 4 1, .cmpiLt 0 2 4 21,
   .cmpiEq 0 5 3 0, .movi 0 1 8, .movsh 0 1 0, .mfc 0 7 108]

theorem witness_ScalarImmediates :
    Alone (solo 0 core1) ∧ ∀ i ∈ listScalarImmediates, ∃ d, rowConst (solo 0 core1) i = some d ∧ d.ready (solo 0 core1) :=
  ⟨core1_alone (by decide), does_ready (by decide +kernel)⟩

def listJumpsAndLoops : List Instr :=
  [.mtc 0 4 232, .br 0 4 4 8, .jmp 0 21, .call 0 8, .jr 0 3, .callr 0 7 2, .loop 0 2 0, .loopi 0 1 0, .endloop 0, .lpop 0,
   .tret 0, .fenceSeq 0]

theorem witness_JumpsAndLoops :
    Alone (solo 0 core1) ∧ ∀ i ∈ listJumpsAndLoops, ∃ d, rowJump (solo 0 core1) i = some d ∧ d.ready (solo 0 core1) :=
  ⟨core1_alone (by decide), acts_ready (by decide +kernel)⟩

def listWalkSlots : List Instr :=
  [.wstep 2, .wstep1 2, .wback 2, .wstepL 0 0, .wget 4 5, .wset 0 6, .wtake 3 5, .wtake1 0 1, .wtakeL 4 2]

theorem witness_WalkSlots :
    Alone (solo 1 core1) ∧ ∀ i ∈ listWalkSlots, ∃ d, rowWalk (solo 1 core1) i = some d ∧ d.ready (solo 1 core1) :=
  ⟨core1_alone (by decide), does_ready (by decide +kernel)⟩

def listOwnLoadsAndStores : List Instr :=
  [.ldB 0 1 1 0, .ldH 0 4 1 1, .ldW 0 3 1 0, .ldD 0 4 1 2, .stB 0 2 1 1, .stH 0 6 1 1, .stW 0 5 1 2, .stD 0 3 1 1]

theorem witness_OwnLoadsAndStores :
    Alone (solo 2 core1) ∧ ∀ i ∈ listOwnLoadsAndStores, ∃ d, rowOwn (solo 2 core1) i = some d ∧ d.ready (solo 2 core1) :=
  ⟨core1_alone (by decide), acts_ready (by decide +kernel)⟩

def listVectorLoadsAndStores : List Instr :=
  [.ldvW 0 5 1 3, .ldvsW 0 6 1 1, .ldvmW 0 1 1 6, .ldvsmW 0 7 1 1, .stvW 0 7 0 1 2, .stvsW 0 0 1 1 1, .stvmW 0 4 0 1 7,
   .stvsmW 0 3 1 1 2, .qpush 0 3 0 1 5, .qpushRel 0 6 1 1 6 0]

theorem witness_VectorLoadsAndStores :
    Alone (solo 2 core1) ∧ ∀ i ∈ listVectorLoadsAndStores, ∃ d, rowVector (solo 2 core1) i = some d ∧ d.ready (solo 2 core1) :=
  ⟨core1_alone (by decide), acts_ready (by decide +kernel)⟩

def listOrderedAccesses : List Instr :=
  [.cld 0 1 1 6, .cst 0 1 1 3, .aswapD 0 4 1 1 4 0, .acasD 0 5 1 3 3 1, .aaddD 0 3 1 6 2 0, .aminD 0 6 1 3 2 1,
   .amaxD 0 1 1 1 0 1, .aandD 0 3 1 3 2 3, .aorD 0 3 1 7 4 0, .axorD 0 3 1 7 4 2, .ldxD 0 6 1 1 4 0, .stxD 0 4 1 6 4 0,
   .fence 0 4 2 3]

theorem witness_OrderedAccesses :
    Alone (solo 2 core1) ∧ ∀ i ∈ listOrderedAccesses, ∃ d, rowOrdered (solo 2 core1) i = some d ∧ d.ready (solo 2 core1) :=
  ⟨core1_alone (by decide), acts_ready (by decide +kernel)⟩

def listCapabilitySlots : List Instr :=
  [.cbase 0 1 1 7, .clen 0 1 1 6, .cperms 0 1 1 7, .cspace 0 1 1 5, .cgetb 0 1 2, .cgeth 0 1 7, .cgett 0 1 1, .cmovc 0 1 1,
   .cclr 0 1, .cseal 0 1 4 1, .cunseal 0 3 4 1]

theorem witness_CapabilitySlots :
    Alone (solo 2 core1) ∧ ∀ i ∈ listCapabilitySlots, ∃ d, rowCap (solo 2 core1) i = some d ∧ d.ready (solo 2 core1) :=
  ⟨core1_alone (by decide), does_ready (by decide +kernel)⟩

def listVectorArithmetic : List Instr :=
  [.vaddI32 0 0 0 0 5 3 6, .vsubI32 0 0 1 1 4 3 1, .vaddI16 0 0 1 0 2 3 7, .vsubI16 0 0 0 1 4 2 2, .vaddI8 0 0 1 0 1 4 0,
   .vaddsI32 0 0 1 0 1 2 0, .vaddsI16 0 0 1 1 6 1 0, .vaddsI8 0 0 1 1 6 5 7, .vsubsI32 0 0 1 0 1 7 2, .vmulI32 0 0 0 0 5 5 7,
   .vmulhI32 0 0 0 1 6 7 2, .vminI32 0 0 1 1 0 1 3, .vmaxI32 0 0 0 1 3 1 2, .vandU32 0 0 1 0 1 6 5, .vorU32 0 0 1 1 3 5 0,
   .vxorU32 0 0 1 0 1 7 2, .vaddF32 0 0 1 0 5 1 3, .vsubF32 0 0 0 1 3 7 0, .vmulF32 0 0 1 0 7 2 5, .vfmaF32 0 0 1 1 4 3 2,
   .vmaxF32 0 0 1 1 1 3 7, .vminF32 0 0 0 0 7 3 5, .vaddBf16 0 0 0 0 4 1 5, .vsubBf16 0 0 1 0 1 0 3, .vmulBf16 0 0 0 1 5 2 7,
   .vfmaBf16 0 0 1 0 0 4 7]

theorem witness_VectorArithmetic :
    Alone (solo 3 core1) ∧ ∀ i ∈ listVectorArithmetic, ∃ d, rowVg (solo 3 core1) i = some d ∧ d.ready (solo 3 core1) :=
  ⟨core1_alone (by decide), does_ready (by decide +kernel)⟩

def listVectorMovement : List Instr :=
  [.vaddI32Bc 0 3 5 0 13, .vmulI32Bc 0 1 5 1 5, .vaddiI32 0 1 0 17, .vandU32Bc 0 6 5 1 6, .vxorU32Bc 0 7 5 1 8,
   .vsllI32 0 2 2 26, .vsrlI32 0 1 7 20, .vsraI32 0 3 4 26, .vaddF32Bc 0 7 5 1 14, .vmulF32Bc 0 7 7 0 11,
   .vmergeU32 0 5 1 1 6, .vrotg 0 3 0 6, .vrot 0 1 3 0 4, .vperm 0 1 2 1 1, .vbcast 0 1 2 1 10, .vredaddI32 0 2 4 1 6,
   .vredaddF32 0 3 6 0 0, .vredmaxF32 0 7 5 0 3, .vscanaddF32 0 0 4 0 15]

theorem witness_VectorMovement :
    Alone (solo 3 core1) ∧ ∀ i ∈ listVectorMovement, ∃ d, rowVm (solo 3 core1) i = some d ∧ d.ready (solo 3 core1) :=
  ⟨core1_alone (by decide), does_ready (by decide +kernel)⟩

def listMaskSlots : List Instr :=
  [.vcmpltI32 0 10 6 7 1, .vcmpeqI32 0 10 4 5 0, .vcmpleF32 0 13 4 5 1, .vmand 0 15 12 5, .vmor 0 2 4 3, .vmxor 0 14 9 10,
   .vmandn 0 6 1 8, .vmnot 0 14 4, .vmget 0 6 0, .vmset 0 2 7, .vmcnt 0 4 10, .vmfirst 0 1 7, .vmfromq 0 2 0 5,
   .vmtoq 0 6 11, .vlaneU32 0 1 1 1 15 0, .vlaneI32 0 4 1 1 3 1, .vsplatU32 0 7 5, .vsplatU16 0 5 1, .vsplatU8 0 4 7]

theorem witness_MaskSlots :
    Alone (solo 3 core1) ∧ ∀ i ∈ listMaskSlots, ∃ d, rowMask (solo 3 core1) i = some d ∧ d.ready (solo 3 core1) :=
  ⟨core1_alone (by decide), does_ready (by decide +kernel)⟩

def listVectorConversions : List Instr :=
  [.vcvtF32I32 0 1 5 0, .vcvtF32U32 0 0 3 1, .vcvtI32F32 0 6 2 2, .vcvtU32F32 0 5 6 0, .vcvtBf16F32 0 6 2 0 0,
   .vcvtF32Bf16 0 7 2 0, .vpacksI16I32 0 0 6 2, .vpacksI8I32 0 2 7 1, .vpacksU8I32 0 3 6 3]

theorem witness_VectorConversions :
    Alone (solo 3 core1) ∧ ∀ i ∈ listVectorConversions, ∃ d, rowConvert (solo 3 core1) i = some d ∧ d.ready (solo 3 core1) :=
  ⟨core1_alone (by decide), does_ready (by decide +kernel)⟩

def listTileSlots : List Instr :=
  [.vtrd 0 4 2 0, .vtwr 0 2 1 1 11]

theorem witness_TileSlots :
    Alone (solo 3 core1) ∧ ∀ i ∈ listTileSlots, ∃ d, rowTile (solo 3 core1) i = some d ∧ d.ready (solo 3 core1) :=
  ⟨core1_alone (by decide), acts_ready (by decide +kernel)⟩

def listTileSlots2 : List Instr :=
  [.tld 0 0 1 6, .tldX 0 0 1 6, .tldSc 0 0 1 6, .tst 0 0 1 6, .tstX 0 0 1 6, .tstSc 0 1 1 3, .mma 0 0 5 14 1 2 1,
   .mmaz 0 0 1 8 1 0 0, .tcfg 0 3, .trel 0 3, .azero 0 0, .tzero 0 14]

theorem witness_TileSlots2 :
    Alone (solo 4 core1) ∧ ∀ i ∈ listTileSlots2, ∃ d, rowTile (solo 4 core1) i = some d ∧ d.ready (solo 4 core1) :=
  ⟨core1_alone (by decide), acts_ready (by decide +kernel)⟩

def listReadOutSlots : List Instr :=
  [.aoutF32 0 0 3 4 0, .aoutBf16 1 0 7 5 3, .aoutI8 1 1 4 3 4, .aoutI6 0 0 1 3 0, .aoutI4 0 0 2 3 0, .ttrI8 0 4 15,
   .ttrI6 0 5 1, .ttrI4 0 14 3]

theorem witness_ReadOutSlots :
    Alone (solo 4 core1) ∧ ∀ i ∈ listReadOutSlots, ∃ d, rowReadOut (solo 4 core1) i = some d ∧ d.ready (solo 4 core1) :=
  ⟨core1_alone (by decide), acts_ready (by decide +kernel)⟩

def listScaleSlots : List Instr :=
  [.scldA 9 1, .scldB 13 4, .scldqA 1 0, .scldqB 3 3, .scrstA , .scrstB , .kuniA 4, .kuniB 2]

theorem witness_ScaleSlots :
    Alone (solo 5 core1) ∧ ∀ i ∈ listScaleSlots, ∃ d, rowScale (solo 5 core1) i = some d ∧ d.ready (solo 5 core1) :=
  ⟨core1_alone (by decide), does_ready (by decide +kernel)⟩

def listStreamSlots : List Instr :=
  [.pseed 0 3 2, .paux 0 1 3, .pgets 0 15 6, .pgeta 0 0 1, .bsetlen 0 1, .bdither 0 0, .band 0 0 0 1, .bxnor 0 0 1 0,
   .bmux 0 1 1 0 0, .bmin 0 0 2 3, .bmax 0 0 2 3, .bnot 0 0 1, .bmov 0 1 1]

theorem witness_StreamSlots :
    Alone (solo 7 core1) ∧ ∀ i ∈ listStreamSlots, ∃ d, rowStream (solo 7 core1) i = some d ∧ d.ready (solo 7 core1) :=
  ⟨core1_alone (by decide), does_ready (by decide +kernel)⟩

def listCrystalSlots : List Instr :=
  [.bdslv 0 1 2 1 0 0, .bdslvBi 0 1 2 1 0 0, .bcryst 0 0 3, .bcrysta 0 0 4, .bcrystp 0 1 1 0, .bcrystpa 0 0 4 0,
   .bresalt 0 1 0 1, .bbern 0 1 5 0 1, .bcat 0 0 2 1 1]

theorem witness_CrystalSlots :
    Alone (solo 7 core1) ∧ ∀ i ∈ listCrystalSlots, ∃ d, rowCrystal (solo 7 core1) i = some d ∧ d.ready (solo 7 core1) :=
  ⟨core1_alone (by decide), does_ready (by decide +kernel)⟩

def listEngineSlots : List Instr :=
  [.chstart 0 4 1 0, .chstop 0 3, .chwait 0 2, .arm 0 9 0 1 2, .disarm 0 3, .next 0, .nextt 0, .spawn 0 9 2 0, .gsub 0 2 6 1 0]

theorem witness_EngineSlots :
    Alone (solo 6 core1) ∧ ∀ i ∈ listEngineSlots, ∃ d, rowEngine (solo 6 core1) i = some d ∧ d.ready (solo 6 core1) :=
  ⟨core1_alone (by decide), acts_ready (by decide +kernel)⟩

def listOrderedAccesses2 : List Instr :=
  [.cadd 0 3 1 8, .badd 0 6 1 8]

theorem witness_OrderedAccesses2 :
    Alone (solo 6 core1) ∧ ∀ i ∈ listOrderedAccesses2, ∃ d, rowOrdered (solo 6 core1) i = some d ∧ d.ready (solo 6 core1) :=
  ⟨core1_alone (by decide), acts_ready (by decide +kernel)⟩

/-- A bundle that waits, and whose wait has ended. -/
def core2 : Core := { core1 with wait := some { kind := .counter, cmp := 5, ident := 1, lag := 4, ready := some 0 } }

theorem witness_EngineWaits : Alone (solo 6 core2) ∧
    ∀ i ∈ [.cwait 0 1 1 0, .bwait 0 1 1 0, .gwait 0 1 1], ∃ d, rowEngine (solo 6 core2) i = some d ∧ d.ready (solo 6 core2) :=
  ⟨solo_alone (by decide) rfl rfl rfl, acts_ready (by decide +kernel)⟩

theorem witness_LoopClosesTreesAndTraps : Alone (solo 0 core1) ∧
    [.endloop 0, .tree 3 0x23 0x020 0x211 0x034 0x03E 0x18 0xC0 0x0C 0x28 0 0 0, .tree 0 0 0 0 0 0 0 0 0 0 0 0 1, .yield 0, .trap 0 5 1,
      .illegalOpcode 0 0 0].all (fun i => (rowFlow (solo 0 core1) i).isSome) = true :=
  ⟨core1_alone (by decide), by decide +kernel⟩

/-- Words of MAJOR 63 with tag 0 and 2, and a V word of MAJOR 13 that names the broadcast, with one and without. -/
theorem witness_LoopClosesTreesAndTraps_illegal : Alone (solo 0 core1) ∧ Alone (solo 3 core1) ∧ TagTaken 0 ∧
    TagTaken (tagIn 0 0x1F800000) ∧ ¬ namesBroadcast 0 0 0x1F800000 ∧ ¬ TagTaken (tagIn 0 0x5F800000) ∧
    (TagTaken (tagIn 3 0x06800000) ∧ namesBroadcast 3 2 0x06800000 ∧ bit (solo 3 core1).cur.w 22 = true) ∧
    Alone { solo 3 core1 with cur := { (solo 3 core1).cur with w := (solo 3 core1).cur.w - 2 ^ 22 } } ∧
    bit ((solo 3 core1).cur.w - 2 ^ 22) 22 = false := by
  have a := core1_alone (cls := 3) (by decide)
  exact ⟨core1_alone (by decide), a, by decide, by decide, by decide, by decide, by decide +kernel,
    ⟨a.last, a.first, a.header, by decide +kernel, by decide +kernel, a.line, by decide +kernel, a.fetched, a.quiet, .inl ⟨rfl, by decide +kernel⟩⟩,
    by decide +kernel⟩

theorem witness_IdleBundle : (solo 0 core1).cur.outs = [] ∧ (solo 0 core1).cur.fetchFault = none ∧
    (solo 0 core1).curCore.takeable (solo 0 core1).now = [] := by
  decide +kernel

/-! ## Witnesses: events -/

abbrev W := List (State × Instr)

/-! ## Events of a core -/
def one (c : Core) : State := State.reset.setCore 0 c
def busyCore : Core := { Core.reset with run := .running, pc := 0x80, codeHi := 0x1000 }
def own (off : Nat) : Nat := 0xFFFE <<< 48 + off
/-- A core whose bundle of one slot is undecided. -/
def undecided (c : Core) (o : SlotOut) : State :=
  { one c with cur := { Cur.reset with header := 1, w := soloControl 0, len := 9, left := 0, outs := [o] } }
def heldSlot : SlotOut := { SlotOut.empty 0 0 with hold := true }
def failing : SlotOut := { heldSlot with causes := [⟨7, 1, 5⟩] }

def witCore : W :=
  [(undecided { busyCore with dev := [{ src := 3, ch := 0, due := 0, num := 0x16, sub := 0, tval := 5 }, { src := 1, ch := 2, due := 0, num := 0x14, sub := 3, tval := 5 }], tvec := 0x41, lost := 3 } heldSlot, .deferredEventTaken 0),
   (undecided { busyCore with dev := [{ src := 3, ch := 0, due := 0, num := 0x16, sub := 0, tval := 5 }], intrap := true, lost := 3 } heldSlot, .deferredEventTaken 0),
   (undecided { busyCore with dev := [{ src := 3, ch := 0, due := 0, num := 0x16, sub := 0, tval := 5 }] } failing, .deferredEventTaken 0),
   (one { busyCore with wdlim := 5, wdcnt := 5 }, .watchdog 0),
   (one { busyCore with wdlim := 5, wdcnt := 5, dev := [{ src := 3, ch := 0, due := 0, num := 0x16, sub := 0, tval := 5 }], lost := 255 }, .watchdog 0),
   (undecided { busyCore with waitlim := 1 } heldSlot, .waitWatchdog 0), (undecided { busyCore with waitlim := 1 } failing, .waitWatchdog 0),
   (undecided { busyCore with waitlim := 1, tvec := 0x41 } heldSlot, .waitWatchdog 0),
   (one { busyCore with prply := 0, prwait := 0 }, .preemptTimeout 0),
   (one { busyCore with run := .halted, tpc := 64 }, .go 0 false),
   (one { busyCore with run := .halted, tpc := 0x400000 }, .go 0 false),
   (one { busyCore with run := .halted, tvec := 0x85 }, .go 0 true),
   (one busyCore, .go 0 true),
   (one busyCore, .stop 0), (one Core.reset, .stop 0),
   (one busyCore, .save 0), (one { Core.reset with run := .halted }, .save 0), (one Core.reset, .save 0),
   (one busyCore, .restore 0), (one { Core.reset with tile := [(0, 5)], acc := [(0, 7), (193, 8)] }, .restore 0),
   ({ one { Core.reset with tile := [(0, 5), (1, 3)], acc := [(0, 7), (193, 8)] } with mem := writeBytes [] (bytesAt (coreBase 0) 32 (3 * 2 ^ 192 + 5 * 2 ^ 224)) }, .restore 0),
   ({ one { Core.reset with tile := [(0, 5), (1, 3)], acc := [(0, 7), (193, 8)] } with mem := writeBytes [] (bytesAt (coreBase 0) 4 3 ++ bytesAt (coreBase 0 + 0x2288) 4 1 ++ bytesAt (coreBase 0 + 0x2290) 4 0x20002) }, .restore 0),
   (one { Core.reset with restoring := some { todo := [(64, 2), (0, 2)], next := 0, base := 0, header := 0, tvals := 0, offs := [] } }, .restore 0),
   (one { Core.reset with restoring := some { todo := [(64, 1), (0, 2)], next := 0, base := 0, header := 0, tvals := 0, offs := [] } }, .restore 0),
   (one { Core.reset with qsel := 3 }, .qstatWrite 0 7), (one { Core.reset with qsel := 400 }, .qstatWrite 0 7),
   (one { Core.reset with ckv := true }, .csbaseWrite 0 0x2000), (one { Core.reset with ckv := true }, .csbaseWrite 0 0x324000),
   (one { Core.reset with ckv := true }, .csbaseWrite 0 0x326000), (one { Core.reset with ckv := true }, .csbaseWrite 0 0x800000),
   (one { Core.reset with saving := some (asked false 0), tinuse := 5, tdirty := 0x10002, csdirty := 1 }, .contextSave 0),
   (one { Core.reset with saving := some (asked true 1), tinuse := 5, tdirty := 0x10002, csdirty := 0x10001, csmode := true, ckv := true, drpc := 5, droff := 9, prply := 77 }, .contextSave 0),
   (one { Core.reset with q := [(1, { VQueue.empty with slot1 := 0x123456 <<< 512 })], saving := some { asked false 0 with begun := true, todo := [(0x4340, 3), (0, 1)] } }, .contextSave 0),
   (one { Core.reset with b := [(1, 0x123456 <<< 512)], saving := some { asked false 0 with begun := true, todo := [(0x36040, 1), (0, 1)] } }, .contextSave 0),
   (one { Core.reset with tile := [(1, 0x123456 <<< 512)], saving := some { asked false 0 with begun := true, todo := [(0x58040, 1), (0, 1)] } }, .contextSave 0),
   ({ one { Core.reset with rsply := 1, resume := some { rpc := 0x40, o := 0, pend := 0, psub := 0, tvals := 0, chans := [], doneAt := 0, started := false } } with now := 1 }, .resumeStart 0),
   ({ one { Core.reset with rsply := 3, resume := some { rpc := 0x40, o := 2, pend := 0x100, psub := 0, tvals := 0, chans := [], doneAt := 0, started := false } } with now := 6 }, .resumeStart 0),
   (State.reset, .actagWrite 0 5 0x1FFFF), (State.reset, .actagWrite 0 63 0x1FFFF)]

/-! ## Memory -/
def acc0 : Access :=
  { ident := 5, op := 9, core := 0, rank := 0, order := 8 * 3 + 2, due := 0, landAt := 0, delayed := false, write := true,
    spans := [{ addr := 0x38, len := 8, off := 0 }], data := 0x1122334455667788, capTag := none, dest := .nowhere }
def withAcc (x : Access) : State := { State.reset with accs := [x], tags := [(3, true), (4, true)], mem := [(0x38, 0x85), (0x39, 0xF1)] }
def atom0 : Atom :=
  { ident := 5, op := 9, core := 0, rank := 0, order := 8 * 3 + 2, due := 0, landAt := 0, addr := 0x38, kind := .add, x := 5, y := 7, dest := some 4 }
def withAtom (a : Atom) : State := { withAcc { acc0 with due := 9 } with atoms := [a] }
def pendOf (l : Land) : State := one { busyCore with pend := [{ due := 0, seq := 0, slot := 0, what := l }], s := [(3, 5)] }

def witMemory : W :=
  [(pendOf (.scalar 3 0), .resultLanding 0), (pendOf (.scalar 0 7), .resultLanding 0), (pendOf (.mask 3 5), .resultLanding 0), (pendOf (.mask 0 5), .resultLanding 0),
   (pendOf (.cap 3 ⟨true, 9⟩), .resultLanding 0), (pendOf (.queue 65 1 77), .resultLanding 0), (pendOf (.queue 3 0 77), .resultLanding 0), (pendOf (.brine 3 77), .resultLanding 0),
   (pendOf (.tile 3 0 12672 77), .resultLanding 0),
   (withAcc acc0, .memoryAccessPerform 5), (withAcc { acc0 with capTag := some true, spans := [{ addr := 0x30, len := 16, off := 0 }] }, .memoryAccessPerform 5),
   (withAcc { acc0 with spans := [{ addr := 6 <<< 32 + 0x3F, len := 3, off := 2 }] }, .memoryAccessPerform 5),
   (withAcc { acc0 with write := false, dest := .scalar 5 2, spans := [{ addr := 0x38, len := 2, off := 0 }] }, .memoryAccessPerform 5),
   (withAcc { acc0 with write := false, dest := .queue 5 1 [1], spans := [{ addr := 0x38, len := 4, off := 4 }] }, .memoryAccessPerform 5),
   ({ withAcc acc0 with leases := [{ die := 0, line := 0, start := 0, data := 5 }] }, .memoryAccessPerform 5),
   (withAtom atom0, .atomicExecute 5), (withAtom { atom0 with kind := .swap }, .atomicExecute 5), (withAtom { atom0 with kind := .min }, .atomicExecute 5), (withAtom { atom0 with kind := .max }, .atomicExecute 5),
   (withAtom { atom0 with kind := .and }, .atomicExecute 5), (withAtom { atom0 with kind := .or }, .atomicExecute 5), (withAtom { atom0 with kind := .xor }, .atomicExecute 5),
   (withAtom { atom0 with kind := .cas }, .atomicExecute 5), (withAtom { atom0 with kind := .cas, x := 0xF185 }, .atomicExecute 5),
   ({ withAtom { atom0 with kind := .barrier, addr := 0x30, dest := none } with mem := [(0x30, 3), (0x38, 4), (0x3C, 255)] }, .atomicExecute 5),
   ({ withAtom { atom0 with addr := 0x30, dest := none } with leases := [{ die := 0, line := 0, start := 0, data := (2 ^ 64 - 2) <<< 384 }] , now := 3 }, .atomicExecute 5),
   ({ withAcc acc0 with now := 600, leases := [{ die := 0, line := 0, start := 5, data := 0x1234567800 }, { die := 0, line := 7, start := 5, data := 5 }] }, .leaseExpiry 0 0),
   (withAcc { acc0 with write := false, dest := .tile 5 64, spans := [{ addr := 0x38, len := 64, off := 0 }] }, .tileChunkMove 0),
   (withAcc { acc0 with dest := .fromTile 5 64, spans := [{ addr := 0x38, len := 64, off := 0 }] }, .tileChunkMove 0),
   ({ one { busyCore with mmas := [{ issue := 0, acc := 1, ta := 0, tb := 1, fa := 0, fb := 1, kl := 40, ml := 2, nl := 3, zero := true, colA := [(0, 0x1234), (1, 0x999), (33, 5)], colB := [(0, 0x8765), (1, 0x333), (33, 0x7)], nibA := [(0, 0x21)], nibB := [(0, 0x43)], done := 0 }], scale := [(0, 0x3F80), (1, 0x4000), (2, 0x3F80), (18, 0x3F80), (19, 0x3F80), (20, 0x3F00)] } with now := 34 }, .matrixCombine 0),
   ({ one { busyCore with mmas := [{ issue := 0, acc := 1, ta := 0, tb := 1, fa := 0, fb := 1, kl := 40, ml := 2, nl := 3, zero := true, colA := [(0, 0x1234), (1, 0x999), (33, 5)], colB := [(0, 0x8765), (1, 0x333), (33, 0x7)], nibA := [(0, 0x21), (1, 0x21)], nibB := [(0, 0x43), (1, 0x43)], done := 1 }], acc := [(192, 0x3F800000)], uniB := 0x13, scale := [(0, 0x3F80), (1, 0x4000), (2, 0x3F80), (18, 0x3F80), (19, 0x3F80), (20, 0x3F00)] } with now := 66 }, .matrixCombine 0),
   ({ one { busyCore with mmas := [{ issue := 0, acc := 1, ta := 0, tb := 1, fa := 0, fb := 1, kl := 40, ml := 2, nl := 3, zero := true, colA := [], colB := [], nibA := [], nibB := [], done := 3 }] } with now := 130 }, .matrixCombine 0)]

def landList : List Land :=
  [.control 0x60 0x203, .control 0x8F 7, .ring 60 5, .scaleEntry 0 3 0x4000, .scaleQuad 1 2 0x1111222233334444, .scaleReset 1, .scaleUni 0 0x13, .scaleUni 1 0x12,
   .accZero 1, .flagsSet 0x20003, .flagsClear 0x10001, .tconf 0xE4, .panSeed 3 77, .panAux 3 5 6, .panPhase 3 9, .brineTags 5 2 0xF0F, .blen 3, .dpan 9, .tile 3 64 64 0x1234]

/-- An access to a register window of core 0. -/
def regAcc (win off len : Nat) (write : Bool) (d : Dest) : State :=
  { (one { busyCore with q := [(2, { VQueue.empty with count := 1, slot0 := 0x77777 })], tile := [(1, 0x123456)], acc := [(1, 0x9999)], b := [(1, 0xABCD)], s := [(3, 5)] }) with
    accs := [{ acc0 with write := write, dest := d, spans := [{ addr := win <<< 32 + off, len := len, off := 0 }] }] }
def readAcc (d : Dest) : Access := { acc0 with write := false, dest := d, spans := [{ addr := 64, len := 64, off := 0 }] }
def waitCore (w : Wait) : Core := { busyCore with wait := some w }
def lease1 (k : Nat) : Lease := { die := 0, line := k + 9, start := k, data := 5 }
def mma0 (acc done : Nat) : Mma :=
  { issue := 0, acc := acc, ta := 0, tb := 1, fa := 0, fb := 1, kl := 40, ml := 2, nl := 3, zero := true, colA := [(0, 0x1234), (33, 5)], colB := [(0, 0x8765), (33, 0x7)],
    nibA := [(0, 0x21)], nibB := [(0, 0x43)], done := done }

/-- Several results of one ply, every kind of landing, accesses to each window and of several spans, waits, copies, restores, atomics with
armed slots, with a full cache and served ones, the early end of a lease, several multiply-accumulates. -/
def witMemory2 : W :=
  landList.map (fun l => (pendOf l, .resultLanding 0)) ++
  [(one { busyCore with pend := [{ due := 0, seq := 2, slot := 0, what := .scalar 3 7 }, { due := 0, seq := 1, slot := 2, what := .scalar 3 9 }, { due := 0, seq := 0, slot := 6, what := .ring 3 11 },
      { due := 0, seq := 3, slot := 3, what := .tile 1 0 64 5 }, { due := 9, seq := 0, slot := 0, what := .mask 1 5 }] }, .resultLanding 0),
   (one { busyCore with pend := [{ due := 0, seq := 2, slot := 3, what := .tile 1 0 64 7 }, { due := 0, seq := 3, slot := 4, what := .tile 1 0 32 9 }, { due := 0, seq := 1, slot := 4, what := .accZero 0 }] }, .resultLanding 0),
   (regAcc 1 0x200 64 false (.scalar 5 8), .memoryAccessPerform 5), (regAcc 1 0x300 64 false (.scalar 5 8), .memoryAccessPerform 5), (regAcc 1 0x20440 64 false (.scalar 5 8), .memoryAccessPerform 5),
   (regAcc 1 0x200 256 true .nowhere, .memoryAccessPerform 5), (regAcc 1 0x20440 64 true .nowhere, .memoryAccessPerform 5),
   ({ regAcc 1 0x200 256 true .nowhere with cores := [(0, { busyCore with q := [(2, { VQueue.empty with count := 2 })] })] }, .memoryAccessPerform 5),
   (regAcc 2 0x4000 64 false (.scalar 5 8), .memoryAccessPerform 5), (regAcc 2 0x4040 64 true .nowhere, .memoryAccessPerform 5),
   (regAcc 3 0 64 false (.scalar 5 8), .memoryAccessPerform 5), (regAcc 3 (0x40000 + 740) 64 true .nowhere, .memoryAccessPerform 5),
   (regAcc 4 0x2000 8 false (.scalar 5 8), .memoryAccessPerform 5), (regAcc 4 0x3FFC 8 true .nowhere, .memoryAccessPerform 5),
   (regAcc 5 0x818 8 false (.scalar 5 8), .memoryAccessPerform 5), (regAcc 5 0x1010 16 false (.cap 4), .memoryAccessPerform 5), (regAcc 5 0x818 8 true .nowhere, .memoryAccessPerform 5),
   (regAcc 5 0xA08 8 true .nowhere, .memoryAccessPerform 5), (regAcc 5 0x300 8 true .nowhere, .memoryAccessPerform 5), (regAcc 5 0x1018 8 true .nowhere, .memoryAccessPerform 5),
   (withAcc { acc0 with spans := [{ addr := 0x38, len := 4, off := 0 }, { addr := 0x100, len := 4, off := 4 }] }, .memoryAccessPerform 5),
   (withAcc { acc0 with write := false, dest := .queue 5 1 [0, 1], spans := [{ addr := 0x38, len := 4, off := 0 }, { addr := 0x3C, len := 4, off := 4 }] }, .memoryAccessPerform 5),
   ((withAcc (readAcc (.poll 8))).setCore 0 (waitCore { kind := .counter, cmp := 0, ident := 9, lag := 4, ready := none }), .memoryAccessPerform 5),
   ((withAcc (readAcc (.poll 8))).setCore 0 (waitCore { kind := .counter, cmp := 9, ident := 9, lag := 4, ready := none }), .memoryAccessPerform 5),
   ((withAcc (readAcc (.poll 8))).setCore 0 (waitCore { kind := .barrier, cmp := 9, ident := 9, lag := 4, ready := none }), .memoryAccessPerform 5),
   ((withAcc (readAcc (.poll 8))).setCore 0 (waitCore { kind := .report, cmp := 9, ident := 9, lag := 4, ready := none }), .memoryAccessPerform 5),
   ({ withAcc (readAcc (.poll 8)) with leases := [{ die := 0, line := 1, start := 0, data := 5 }] }, .memoryAccessPerform 5),
   (withAcc (readAcc (.copy 2 0 [(0x1000, 40), (0x2000, 41)])), .memoryAccessPerform 5), (withAcc (readAcc (.forward 0x1000 30)), .memoryAccessPerform 5),
   ((withAcc (readAcc (.restore 0))).setCore 0 { Core.reset with restoring := some { todo := [], next := 0, base := 0, header := 0, tvals := 0, offs := [] } }, .memoryAccessPerform 5),
   (withAcc (readAcc (.restore 0x80)), .memoryAccessPerform 5), (withAcc (readAcc (.restore 0x240)), .memoryAccessPerform 5), (withAcc (readAcc (.restore 0x340)), .memoryAccessPerform 5),
   (withAcc (readAcc (.restore 0x2300)), .memoryAccessPerform 5), (withAcc (readAcc (.restore 0x3000)), .memoryAccessPerform 5), (withAcc (readAcc (.restore 0x4240)), .memoryAccessPerform 5),
   (withAcc (readAcc (.restore 0x36040)), .memoryAccessPerform 5), (withAcc (readAcc (.restore 0x58040)), .memoryAccessPerform 5), (withAcc (readAcc (.restore (0x94000 + 0x24000 + 704))), .memoryAccessPerform 5),
   (withAcc { acc0 with spans := [{ addr := 0x38, len := 1, off := 0 }], dest := .nibble true, data := 3 }, .memoryAccessPerform 5), (withAcc { acc0 with spans := [{ addr := 0x38, len := 1, off := 0 }], dest := .nibble false, data := 3 }, .memoryAccessPerform 5),
   (withAcc { acc0 with dest := .report 2 0x40 }, .memoryAccessPerform 5), (withAcc { acc0 with dest := .fromStaging 0 0x80000 }, .memoryAccessPerform 5),
   ({ withAtom atom0 with cores := [(0, { busyCore with arms := [{ slot := 2, off := 0x38, thr := 5, kind := 0, target := 0, value := 0, code := 0, since := 0, ends := none }, { slot := 1, off := 0x38, thr := 0xF186, kind := 0, target := 0, value := 0, code := 0, since := 0, ends := none }] })] }, .atomicExecute 5),
   ({ withAtom { atom0 with kind := .barrier, addr := 0x30, dest := none } with
      mem := [(0x30, 3), (0x38, 1)],
      cores := [(0, { busyCore with arms := [{ slot := 2, off := 0x30, thr := 4, kind := 0, target := 0, value := 0, code := 0, since := 0, ends := none }, { slot := 1, off := 0x38, thr := 1, kind := 0, target := 0, value := 0, code := 0, since := 0, ends := none }] })] }, .atomicExecute 5),
   ({ withAtom atom0 with leases := (List.range 256).map lease1, now := 200 }, .atomicExecute 5), ({ withAtom atom0 with served := [5] }, .atomicExecute 5),
   ({ withAcc { acc0 with delayed := true } with now := 9, leases := [{ die := 0, line := 0, start := 5, data := 0x1234567800 }] }, .leaseExpiry 0 0),
   ({ one { busyCore with mmas := [mma0 1 0, mma0 0 0, { mma0 1 0 with issue := 3 }, { mma0 0 0 with issue := 34 }], scale := [(0, 0x3F80), (1, 0x4000), (2, 0x3F80), (18, 0x3F80), (19, 0x3F80), (20, 0x3F00)] } with now := 34 }, .matrixCombine 0)]

/-! ## Channels -/
def chan0 : Chan := { Chan.reset with state := 1, cap := Cap.make true (own 0) 4194304 0xFF 0 0, chain := 11, fetchOff := 64, fetchAt := some 0, head := some 0 }
def rec0 (ctl rows rb nxt ctr add : Nat) : Nat :=
  ctl + nxt <<< 32 + own 0x1000 <<< 64 + own 0x2000 <<< 128 + rows <<< 192 + rb <<< 224 + 0x100 <<< 256 + 0x80 <<< 288 + ctr <<< 320 + add <<< 384
def chanState (k : Chan) (raw : Nat) : State :=
  { one { busyCore with chans := [(2, k)], ops := [{ ident := 11, seq := 1, kinds := 12, dist := 0, isOpen := true, due := 0, acq := none }, { ident := 21, seq := 1, kinds := 12, dist := 0, isOpen := true, due := 0, acq := none }] } with
    mem := writeBytes [] (bytesAt 64 64 raw) }
def run0 (raw : Nat) : CopyRun := { recordAt raw 64 with op := 21 }
def fired0 (kind : Nat) : Fired := { arm := { slot := 1, off := 8, thr := 1, kind := kind, target := BitVec.ofNat 64 (own (1 <<< 37 + 0x40)), value := 9, code := 3, since := 0, ends := none }, ply := 0 }

def witChannel : W :=
  [(chanState chan0 (rec0 1 2 128 0 0 0), .recordFetch 0 2), (chanState chan0 (rec0 1 2 128 256 0 0), .recordFetch 0 2),
   (chanState chan0 (rec0 3 2 128 256 (own 0x40) 4), .recordFetch 0 2),
   (chanState chan0 0, .recordFetch 0 2), (chanState { chan0 with fetchOff := 65 } 0, .recordFetch 0 2), (chanState { chan0 with head := none } (rec0 1 2 128 0 0 0), .recordFetch 0 2),
   (chanState { chan0 with fetchAt := none, cur := some (run0 (rec0 1 2 128 0 0 0)) } 0, .granuleTransfer 0 2),
   (chanState { chan0 with fetchAt := none, next := 3, cur := some (run0 (rec0 1 2 128 0 0 0)) } 0, .granuleTransfer 0 2),
   (chanState { chan0 with fetchAt := none, next := 3, cur := some (run0 (rec0 1 2 128 256 0 0)) } 0, .granuleTransfer 0 2),
   (chanState { chan0 with fetchAt := none, next := 3, cur := some (run0 (rec0 1 2 128 256 0 0 + 5 <<< 448)) } 0, .granuleTransfer 0 2),
   (chanState { chan0 with fetchAt := none, next := 3, cur := some (run0 (rec0 3 2 128 256 (own 0x40) 4)) } 0, .granuleTransfer 0 2),
   (chanState { chan0 with fetchAt := none, tails := [{ off := 64, op := 21, ctl := 3, ctr := BitVec.ofNat 64 (own 0x48), add := 4, addAt := some 0, last := false }] } (rec0 3 2 128 256 (own 0x40) 4), .countedRecordAdd 0 2),
   (chanState { chan0 with fetchAt := none, tails := [{ off := 64, op := 21, ctl := 7, ctr := BitVec.ofNat 64 (own 0x40), add := 4, addAt := some 0, last := true }] } (rec0 7 2 128 256 (own 0x40) 4), .countedRecordAdd 0 2),
   (one { busyCore with fired := [fired0 0] }, .thresholdAction 0 1), ((one { busyCore with fired := [fired0 0, fired0 1] }).setCore 1 busyCore, .thresholdAction 0 1),
   (one { busyCore with fired := [fired0 1] }, .thresholdAction 0 1), (one { busyCore with fired := [fired0 2] }, .thresholdAction 0 1),
   (one { Core.reset with yieldAdds := [BitVec.ofNat 64 (own 0x40), 5] }, .yieldCounterAdd 0), (one { Core.reset with yieldAdds := [3] }, .yieldCounterAdd 0),
   ({ State.reset.setPort 3 { Port.reset with engine := { LinkEngine.reset with resumeAt := some 0, kept := [(1, none)] } } with now := 512 }, .pauseStoreRelease 3)]

/-! ## Tempo -/
def got (kind arg org long ply : Nat) (port : Option Nat) : InMsg := { chip := 0, ply := 0, port := port, bits := messageOf kind arg org long ply }
def tree (ms : List InMsg) (root : Nat) (c : Chip) : State :=
  { (((State.reset.setPort 1 { Port.reset with role := 1 }).setPort 2 { Port.reset with role := 2 }).setPort 3 { Port.reset with role := 1 }).setChip 0 c with
    inMsgs := got 9 0 0 0 0 none :: ms, root := root }

def chip0 : Chip := { Chip.reset with bstate := 5, tag := 7 }
def witTempo : W :=
  [(tree [got 1 6 0 0 9000 none] 1 chip0, .tempoNotice 0), (tree [got 1 6 0 0 9000 none] 0 { chip0 with held := [{ z := 9000, tempo := 0, split := 0 }], lastDown := some 3 }, .tempoNotice 0),
   (tree [got 5 0 0 0 0 none] 0 chip0, .tempoDRequest 0), (tree [got 5 0 0 0 0 none] 1 chip0, .tempoDRequest 0), (tree [got 5 0 0 0 0 none] 0 { chip0 with effective := 3 }, .tempoDRequest 0),
   (tree [got 6 0 0 0 0 none] 0 { chip0 with cap := 0, effective := 0, tz := 5 }, .slowDownNotice 0), (tree [got 6 0 0 0 0 none] 0 { chip0 with ceiling := 1 }, .slowDownNotice 0), (tree [got 6 0 0 0 0 none] 1 chip0, .slowDownNotice 0),
   (tree [] 0 { chip0 with dUntil := some 0, effective := 3, lastDown := some 7 }, .dHoldEnd),
   (tree [] 0 { chip0 with ceiling := 1, thold := 0, cap := 0, effective := 1 }, .thermalStepUp),
   (tree [] 0 chip0, .powerCapMessage 0x100000005), (tree [] 0 { chip0 with capSeen := true, capMsg := 5, drop := 255 }, .powerCapMessage 0x100000005),
   (tree [] 0 { chip0 with leaseEnd := some 0, cap := 0, effective := 0 }, .capLeaseExpiry),
   (tree [] 0 { chip0 with held := [{ z := 9, tempo := 0, split := 0 }] }, .converterSwitch 0), ({ tree [] 0 { chip0 with ratio := 0, tempo := 3 } with now := 2000 }, .converterSwitch 0),
   (tree [] 0 { chip0 with held := [{ z := 0, tempo := 0, split := 1 }, { z := 7, tempo := 0, split := 1 }] }, .tempoChange 0),
   (tree [] 0 { chip0 with limits := [(2, 5)] }, .currentWindowEnd 0 6), (tree [] 1 { chip0 with limits := [(2, 5)] }, .currentWindowEnd 0 6), (tree [] 1 { chip0 with limits := [(2, 5)] }, .currentWindowEnd 0 5),
   (tree [] 0 { chip0 with twarn := 80, tcrit := 100 }, .temperatureReading 0 5 80), (tree [] 1 { chip0 with twarn := 80, tcrit := 100, warned := [5] }, .temperatureReading 0 5 80),
   (tree [] 1 { chip0 with twarn := 80, tcrit := 100, warned := [4, 5] }, .temperatureReading 0 5 74), (tree [] 1 { chip0 with twarn := 80, tcrit := 100, warned := [4, 5] }, .temperatureReading 0 5 75),
   (tree [] 1 { chip0 with twarn := 80, tcrit := 100 }, .temperatureReading 0 5 99)]

def hot (c : Chip) (t : Nat) : State :=
  { (tree [] 0 { c with twarn := 80, tcrit := 100 }).setCore 0 { Core.reset with run := .running } with now := t }
def witTempo2 : W :=
  [(hot chip0 5, .temperatureReading 0 5 100), (hot { chip0 with tempAt := [(5, 3)], crit := some 2 } 5, .temperatureReading 0 5 100), (hot { chip0 with tempAt := [(5, 3)] } 4099, .temperatureReading 0 5 100),
   ({ tree [] 0 { chip0 with limits := [(2, 5)] } with now := 255 }, .currentWindowEnd 0 6), ({ tree [] 1 { chip0 with limits := [(2, 5)] } with now := 255 }, .currentWindowEnd 0 6), ({ tree [] 1 { chip0 with limits := [(2, 5)] } with now := 255 }, .currentWindowEnd 0 5),
   (tree [] 0 { chip0 with bstate := 2, held := [{ z := 0, tempo := 0, split := 1 }] }, .tempoChange 0)]

/-! ## Packages -/
def few (s : State) : State := { s with pmaps := [(0, { PlaceMap.reset with status := (List.range 1533).map (fun k => (k + 3, 1)) })] }
def witPackage : W :=
  [((few (tree [got 2 0 0 0 9000 none] 0 chip0)).setCore 1 { Core.reset with prply := 5, preDone := true }, .preemptionNotice 0),
   ((few (tree [got 3 0 0 0 9000 none] 1 chip0)).setCore 1 { Core.reset with prply := 5, preDone := true }, .resumeNotice 0),
   (tree [got 4 5 0 0x73000 900 none] 1 chip0, .faultNotice 0), (tree [got 4 5 0 0x73000 900 none] 0 chip0, .faultNotice 0),
   (tree [got 4 5 0 0x73000 900 none] 0 { chip0 with returned := [(0x73000 * 65536, 5, 66436)] }, .faultNotice 0),
   (tree [got 4 0x85 2 0x73000 900 none] 0 chip0, .faultNotice 0), (tree [got 4 0x85 2 0x83000 900 none] 1 chip0, .faultNotice 0),
   (State.reset, .podJoin 0),
   (State.reset.setChip 0 { chip0 with mwdlim := 5, mwdcnt := 5 }, .managementWatchdog 0), ((one { Core.reset with run := .running }).setChip 0 { chip0 with mwdlim := 5, mwdcnt := 5, mwdact := true }, .managementWatchdog 0),
   (State.reset, .powerOn 0), (State.reset.setChip 0 chip0, .powerOn 0),
   ({ (one busyCore).setChip 0 { chip0 with bstate := 1 } with mem := [(5, 6), (9, 9), (6 <<< 32, 4)], tags := [(3, true)] }, .selfTest 0),
   (State.reset.setChip 0 { chip0 with bstate := 2 }, .firmwareCheck 0 1), (State.reset.setChip 0 { chip0 with bstate := 2 }, .firmwareCheck 0 2), (State.reset, .firmwareCheck 0 1),
   (State.reset, .attestation 0 5)]

/-! ## Links -/
def entry0 (i : Instr) : LinkEntry := { ident := 31, ply := 5, index := 3, instr := i, next := { index := 4, base := 0, loops := [] }, broken := false }
def linkOn (i : Instr) : State :=
  { State.reset.setPort 3 { Port.reset with engine := { LinkEngine.reset with run := 1, ahead := [entry0 i, { entry0 i with ident := 32, ply := 9 }], at0 := { index := 3, base := 0, loops := [{ count := 1, start := 1, iter := 0, period := 5, outer := 0 }] }, points := [(1, 2, LinkPlace.reset), (2, 2, LinkPlace.reset)], delvs := [77] } } with
    now := 5, claims := [{ order := 31, port := 3, ply := 9, pos := 1, n := 2, use := .land 5, issued := false }],
    sends := [{ ident := 31, port := 3, ply := 5, pos := 1, n := 2, kind := 0, buf := 5, issued := false, data := [] }],
    slots := [{ port := 3, rport := 2, core := 5, chip := 1, dep := 5, arr := 9, rdep := 10, rarr := 20, taken := false }] }
def allLink (st : BitVec 32) : List Instr :=
  [.send st 5 1 1, .sendSig st 5 1 1, .land st 5 1 1, .redAddF32 st 5 1 1, .redAddBf16 st 5 1 1, .redAddI32 st 5 1 1, .redMaxF32 st 5 1 1, .redMaxBf16 st 5 1 1,
   .redMaxI32 st 5 1 1, .guard st 5 1, .linkLoop 3 5, .endl, .mark st 5 64, .ckpt st 7, .fill st 5 4 64, .delv st 5 4 64, .halt st]
def cabled (s : State) : State := { s with rings := [2, 2, 2, 2] }
def witLink : W := (allLink 5).map (fun i => (linkOn i, i)) ++
  [(cabled (linkOn (.slot 5 5 1 4 10 20 2)), .slot 5 5 1 4 10 20 2), (cabled (linkOn (.serve 5 60 2)), .serve 5 60 2), (cabled (linkOn (.fwd 5 1 1 2)), .fwd 5 1 1 2),
   ({ cabled (linkOn (.slot 5 5 1 4 10 20 2)) with slots := [{ port := 3, rport := 2, core := 0, chip := 1, dep := 5, arr := 9, rdep := 10, rarr := 20, taken := true }], accs := [{ acc0 with due := 39, spans := [{ addr := 1 <<< 48 + 64, len := 8, off := 0 }] }] }, .slot 5 5 1 4 10 20 2)]

/-! ## Ports -/
def wire (v : Port) : State :=
  let s : State := (cabled State.reset).setChip 0 chip0
  (s.setPort 3 { v with w := 10 }).setPort ((senderPort s 3).getD 0) { Port.reset with w := 10, txKey := 77 }
def upPort : Port := { Port.reset with state := 1, rxKey := 77 }
def flit0 (phase : FlitPhase) : Flit :=
  { ident := 9, port := 3, sent := 0, pos := 1, kind := 0, hops := 2, atag := 7, pay := 0x12345678, tag := 0, mask := 0, phase := phase, token := none }
def claim0 (u : ClaimUse) : Claim := { order := 4, port := 3, ply := 34, pos := 1, n := 2, use := u, issued := true }
def flying (v : Port) (f : Flit) (now : Nat) (cs : List Claim) : State := { wire v with flits := [f, { f with ident := 10, port := 4 }], now := now, claims := cs }
def bumped (p : Option Nat) (bits : BitVec 128) (v : Port) (now : Nat) : State := { wire v with inMsgs := [{ chip := 0, ply := 0, port := p, bits := bits }], now := now }
def farPort : Nat := (senderPort (cabled State.reset) 3).getD 0

def witPort : W :=
  [((State.reset.setPort 3 { Port.reset with frame := 131072 + 96 }).setChip 0 { chip0 with bstate := 4, rcState := 2 }, .start 3),
   (State.reset.setPort 3 { Port.reset with engine := { LinkEngine.reset with run := 1 } }, .start 3), ((State.reset.setPort 3 { Port.reset with frame := 96 }).setChip 0 chip0, .start 3), (State.reset.setPort 3 { Port.reset with frame := 96 }, .start 3),
   (State.reset, .resume 3), (State.reset.setPort 3 { Port.reset with engine := { LinkEngine.reset with run := 1 } }, .resume 3),
   (wire upPort, .elasticBufferDrift 3 16), (wire upPort, .elasticBufferDrift 3 49), (wire { upPort with state := 3 }, .elasticBufferDrift 3 15), ({ wire upPort with root := 1 }, .elasticBufferDrift 3 15),
   ({ wire upPort with ctrls := [{ port := 3, ply := 0, second := true, bits := 5, seen := none }] }, .damagedMessage 3),
   (wire upPort, .linkKeyInstall 3 5 6), ([0, 16, 256].foldl (fun s k => s.setChip k { chip0 with attested := some 0 }) (wire { upPort with state := 3, tfail := 1 }), .linkKeyInstall 3 5 6), ([0, 16, 256].foldl (fun s k => s.setChip k { chip0 with attested := some 5 }) (wire { upPort with state := 3, tfail := 1, lockedAt := some 5 }), .linkKeyInstall 3 5 6), (wire { upPort with shifts := [(9, 2), (0, -5)] }, .phaseCorrection 3),
   ({ wire upPort with now := 65536 }, .guardInterval 3), ({ wire { upPort with tbdel := 700, guardStep := 65536 } with now := 65546 }, .guardInterval 3),
   ({ wire { upPort with state := 2, raise := true, passed := some 65536, guardStep := 65546 } with now := 65536 + 95 }, .guardInterval 3), ({ wire { upPort with state := 2, passed := some 65536, guardStep := 65546 } with now := 65536 + 95 }, .guardInterval 3),
   ({ wire { upPort with state := 3, tfail := 1, passed := some 65536, guardStep := 65546 } with now := 65536 + 95 }, .guardInterval 3), ({ wire { upPort with state := 3, passed := some 65536, guardStep := 65546 } with now := 65536 + 95 }, .guardInterval 3),
   (bumped (some 3) (messageOf 7 0 0 0 65536) upPort 65560, .exchangeSendTime 3 16779000),
   (bumped (some 3) (messageOf 8 5 0 0 65545) { upPort with heard := some (256 * 65536 + 2100, 65536), role := 2 } 65570, .exchangeReceiptTime 3),
   (bumped (some 3) (messageOf 8 5 0 0 65545) { upPort with heard := some (256 * 65536 + 2500, 65536) } 65570, .exchangeReceiptTime 3),
   (bumped (some 3) (messageOf 8 5 0 0 65545) upPort 65570, .exchangeReceiptTime 3),
   (bumped (some 3) (messageOf 8 5 0 0 65545) { upPort with state := 0, heard := some (256 * 65536 + 2100, 65536) } 65640, .exchangeReceiptTime 3), (bumped (some 3) (messageOf 8 5 0 0 65545) { upPort with state := 2, heard := some (256 * 65536 + 2500, 65536) } 65570, .exchangeReceiptTime 3),
   (flying upPort { flit0 .damaged with mask := 5 } 21 [], .nakReceipt farPort),
   ({ flying upPort { flit0 .damaged with mask := 5 } 21 [] with inputs := [(0, .word farPort 21 1)] }, .nakReceipt farPort),
   (flying upPort { flit0 .asked with mask := 5 } 32 [claim0 (.land 5)], .parityArrival 3), (flying upPort { flit0 .asked with mask := 5 } 32 [], .parityArrival 3),
   ({ flying upPort { flit0 .asked with mask := 5 } 32 [claim0 (.land 5)] with inputs := [(0, .word 3 32 1)] }, .parityArrival 3),
   (flying upPort (flit0 .forged) 34 [claim0 (.land 5)], .missingFlitDetection 3), (flying { upPort with tfail := 1 } (flit0 .forged) 34 [claim0 (.land 5)], .missingFlitDetection 3), (flying upPort (flit0 .lost) 34 [claim0 (.land 5)], .missingFlitDetection 3),
   (flying upPort (flit0 .flying) 10 [claim0 (.land 5)], .flitArrival 3), (flying upPort (flit0 .flying) 10 [], .flitArrival 3), (flying upPort (flit0 .flying) 10 [claim0 (.guard 5)], .flitArrival 3),
   (flying upPort { flit0 .flying with mask := 1 <<< 100 } 10 [claim0 (.land 5)], .flitArrival 3), ({ flying upPort { flit0 .flying with mask := 1 <<< 100 } 10 [claim0 (.land 5)] with flits := [{ flit0 .flying with mask := 1 <<< 100 }, { flit0 .damaged with ident := 12, pos := 2 }] }, .flitArrival 3),
   (flying { upPort with state := 0 } (flit0 .flying) 10 [], .flitArrival 3), (flying { upPort with engine := { LinkEngine.reset with run := 2, pausedAt := 5 } } (flit0 .flying) 10 [], .flitArrival 3),
   (flying upPort (flit0 .good) 34 [claim0 (.land 5)], .flitArrival 3), (flying upPort (flit0 .good) 34 [claim0 (.fwd 5)], .flitArrival 3), (flying upPort (flit0 .good) 34 [claim0 (.guard 5)], .flitArrival 3),
   ({ flying upPort (flit0 .good) 34 [claim0 (.guard 5)] with mem := bytesAt (bufferByte 3 5) 4 0x12345678 }, .flitArrival 3),
   ({ flying upPort (flit0 .good) 34 [claim0 (.red 0 5)] with mem := bytesAt (bufferByte 3 5) 4 0x12345678 }, .flitArrival 3),
   ({ flying upPort (flit0 .good) 34 [claim0 (.red 1 5)] with mem := bytesAt (bufferByte 3 5) 4 0x12345678 }, .flitArrival 3),
   ({ flying upPort (flit0 .good) 34 [claim0 (.red 2 5)] with mem := bytesAt (bufferByte 3 5) 4 0x12345678 }, .flitArrival 3),
   ({ flying upPort (flit0 .good) 34 [claim0 (.red 3 5)] with mem := bytesAt (bufferByte 3 5) 4 0x12345678 }, .flitArrival 3),
   ({ flying upPort (flit0 .good) 34 [claim0 (.red 4 5)] with mem := bytesAt (bufferByte 3 5) 4 0x12345678 }, .flitArrival 3),
   ({ flying upPort (flit0 .good) 34 [claim0 (.red 5 5)] with mem := bytesAt (bufferByte 3 5) 4 0x92345678 }, .flitArrival 3),
   (flying upPort (flit0 .good) 34 [claim0 (.request 60 2)], .flitArrival 3), (flying upPort { flit0 .good with token := some 5 } 34 [claim0 (.request 60 2)], .flitArrival 3),
   (flying upPort (flit0 .good) 34 [], .flitArrival 3), (flying upPort (flit0 .good) 34 [claim0 (.reply 0 5)], .replyArrival 3)]

/-! ## The host -/
def commanded (bst : BitVec 3) (kind w : Nat) : State :=
  State.reset.setChip 0 { chip0 with bstate := bst, bar2 := writeBytes [] (bytesAt 64 64 (w % 2 ^ 256 + 1 <<< 256 + kind <<< 288 + w / 2 ^ 256 <<< 296)) }
def witHost : W :=
  [(commanded 3 0 0x1234, .hostGtsRecord 0), (commanded 3 1 (own 64 + 128 <<< 96), .write 0), (commanded 3 2 (own 64 + 128 <<< 96 + own 256 <<< 128), .read 0),
   (commanded 2 1 (own (1 <<< 43 + 64) + 128 <<< 96), .write 0), (commanded 2 2 (own (1 <<< 43 + 64) + 128 <<< 96), .read 0), (commanded 3 1 (own (1 <<< 32) + 256 <<< 96), .write 0),
   (commanded 3 3 (0x105 + 0x77 <<< 128), .capset 0), (commanded 3 5 (0x100 + 64 <<< 32), .mapset 0), ((commanded 3 5 (0x100 + 64 <<< 32)).setCore 1 busyCore, .mapset 0),
   (commanded 3 9 0, .badCommand 0), (commanded 3 3 16, .badCommand 0),
   ({ State.reset with xfers := [{ op := 5, chip := 0, seq := 3, len := 64, ctr := 0 }] }, .hostTransferCompletion 0),
   ({ State.reset with xfers := [{ op := 5, chip := 0, seq := 3, len := 64, ctr := own 64 }] }, .hostTransferCompletion 0)]

/-! ## Tiles -/
def ten (fmt rank : Nat) (ext : List Nat) (s1 off : Nat) : Tensor :=
  { cap := 0, fmt := fmt, rank := rank, scl := 0, ext := ext ++ List.replicate (4 - rank) 0, s1 := s1, s2 := 0, s3 := 0, off := own off }
def mx (uni : Bool) (off : Nat) : Tensor := { ten 10 2 [32, 2] 32 off with scl := if uni then 0x81 else 0, s2 := 0x100, s3 := if uni then 0 else 0x140 }
def leaf0 : Leaf :=
  { row0 := 0, rows := 2, col0 := 0, cols := 3, planes := [(0, 0)], core := 0, child := 0, prev := none, phase := .staging, dispatched := 0, computeAt := 0, computed := 0,
    ends := 0, index := [], carry := [] }
def grec (lvl : BitVec 8) (opf : Nat) (ctr arg : Nat) : GtsRec := { lvl := lvl, flags := BitVec.ofNat 16 (opf <<< 8), body := BitVec.ofNat 224 (ctr <<< 96 + arg <<< 160) }
def run1 (opc : Nat) (q : GtsRec) (ts : List (Option Tensor)) (l : List Leaf) : GtsRun :=
  { ident := 21, lvl := 0, unit := 0, group := 0, addr := own 0x40, home := 0x40, who := 0, cap := Cap.make true (own 0) 4194304 0xFF 0 0,
    caps := List.replicate 16 (Cap.make true (own 0) 4194304 0xFF 0 0), host := none, raw := some (BitVec.ofNat 256 (recordBits opc q)), readyAt := 0,
    accepted := some 0, tensors := ts, leaves := l, children := 1, stop := none, fault := none, held := [(0, 4)], latest := 0, done := none, op := 21 }
def tiled (r : GtsRun) : State :=
  { (one { Core.reset with reserved := some 21, s := [(3, 5)], tinuse := 3, ops := [{ ident := 21, seq := 1, kinds := 3, dist := 0, isOpen := true, due := 0, acq := none }] }) with
    recs := [r, { r with ident := 22, raw := none, accepted := none }],
    mem := writeBytes [] (bytesAt 0x380000 64 0x3F8000004000000040400000408000004120000041200000 ++ bytesAt 0x380040 64 0x3F80000040000000404000004080000041200000C1200001 ++ bytesAt 0x380080 64 0x12345678912345678 ++ bytesAt 0x3000 16 0x3F80000040000000404000004080000041200000C1200001) }
def lf (opc : Nat) (mk : GtsRec → Instr) (q : GtsRec) (ts : List (Option Tensor)) (l : Leaf) : State × Instr :=
  (tiled (run1 opc q ts [{ leaf0 with phase := .ended }, l, { l with phase := .planned }]), mk q)
def f32t (off : Nat) : Option Tensor := some (ten 0 2 [3, 2] 16 off)
def witLeaf : W :=
  [lf 1 .gcopy (grec 0 0 0 0) [f32t 0x3000, f32t 0x1000, none] leaf0, lf 1 .gcopy (grec 0 0 0 0) [some (mx false 0x3000), some (mx false 0x1000), none] { leaf0 with cols := 32 },
   lf 2 .gconv (grec 0 0 0 0) [some (ten 5 2 [3, 2] 16 0x3000), f32t 0x1000, none] leaf0, lf 2 .gconv (grec 0 1 0 0) [some (mx true 0x3000), some (ten 0 2 [32, 2] 128 0x1000), none] { leaf0 with cols := 32 },
   lf 2 .gconv (grec 0 0 0 0) [some (ten 0 2 [32, 2] 128 0x3000), some (mx true 0x1000), none] { leaf0 with cols := 32 },
   lf 3 .gfill (grec 0 0 0 0x12345678) [f32t 0x3000, none, none] leaf0] ++
  (List.range 6).map (fun o => lf 4 .gelt (grec 0 o 0 0) [f32t 0x3000, f32t 0x1000, f32t 0x1040] leaf0) ++
  (List.range 6).map (fun o => lf 4 .gelt (grec 0 o 0 0) [some (ten 1 2 [3, 2] 16 0x3000), some (ten 1 2 [3, 2] 16 0x1000), some (ten 1 2 [3, 2] 16 0x1040)] leaf0) ++
  [0, 1, 2, 3, 4, 8, 9].map (fun o => lf 4 .gelt (grec 0 o 0 0) [some (ten 2 2 [3, 2] 16 0x3000), some (ten 2 2 [3, 2] 16 0x1000), some (ten 2 2 [3, 2] 16 0x1040)] leaf0) ++
  [0, 3, 5].map (fun o => lf 5 .gelts (grec 0 o 0 0x40400000) [f32t 0x3000, f32t 0x1000, none] leaf0) ++
  [0, 3, 8].map (fun o => lf 5 .gelts (grec 0 o 0 0x7FFFFFF0) [some (ten 2 2 [3, 2] 16 0x3000), some (ten 2 2 [3, 2] 16 0x1000), none] leaf0) ++
  [lf 6 .gmma (grec 0 0 0 0) [f32t 0x3000, some (mx true 0x1000), some (mx false 0x1040)] { leaf0 with cols := 2 },
   lf 7 .gmmaz (grec 0 0 0 0) [f32t 0x3000, some (mx true 0x1000), some (mx false 0x1040)] { leaf0 with cols := 2 },
   (fun x : State × Instr => ({ x.1 with now := 24 }, x.2)) (lf 8 .gscan (grec 0 0 0 0) [f32t 0x3000, f32t 0x1000, none] { leaf0 with prev := some 0, computeAt := 0 }), lf 8 .gscan (grec 0 1 0 0) [f32t 0x3000, f32t 0x1000, none] leaf0,
   lf 8 .gscan (grec 0 0 0 0) [some (ten 2 2 [70, 2] 512 0x3000), some (ten 2 2 [70, 2] 512 0x1000), none] { leaf0 with cols := 70 },
   lf 9 .gred (grec 0 0 0 0) [some (ten 0 2 [1, 2] 16 0x3000), f32t 0x1000, none] leaf0, lf 9 .gred (grec 0 1 0 0) [some (ten 0 2 [1, 2] 16 0x3000), f32t 0x1000, none] { leaf0 with cols := 2 },
   lf 10 .ggather (grec 0 0 0 0) [f32t 0x3000, f32t 0x1000, some (ten 2 1 [2] 0 0x1080)] { leaf0 with index := [1, 0] },
   lf 15 .gbprod (grec 0 0 0 5) [some (ten 7 2 [3, 1] 16 0x3000), some (ten 7 2 [3, 1] 16 0x1000), some (ten 7 2 [3, 1] 16 0x1040)] { leaf0 with rows := 1, cols := 1 },
   lf 16 .gbdraw (grec 0 0 0 5) [some (ten 2 2 [2, 1] 16 0x3000), some (ten 5 2 [32, 1] 64 0x1000), none] { leaf0 with rows := 1, cols := 2 }]

def idleRec (opc : Nat) (q : GtsRec) (ls : List Leaf) : GtsRun := run1 opc q [f32t 0x3000, f32t 0x1000, none] ls
def witRecord : W :=
  [(tiled (run1 0 (grec 0 0 0 0) [] []), .gnop (grec 0 0 0 0)), (tiled (run1 17 (grec 0 0 0 5) [none, some (ten 8 1 [1] 0 0x80), none] []), .gcwait (grec 0 0 0 5)),
   (tiled { run1 1 (grec 0 0 0 0) [] [] with accepted := none }, .recordAcceptance 21), (tiled { run1 0x20 (grec 0 0 0 0) [] [] with accepted := none }, .recordAcceptance 21), (tiled { run1 0 (grec 0 0 0 0) [] [] with accepted := none }, .recordAcceptance 21),
   ({ tiled { idleRec 1 (grec 0 0 0 0) [{ leaf0 with phase := .planned }] with held := [] } with now := 4, cores := [] }, .leafDispatch 21),
   ({ tiled { idleRec 1 (grec 0 0 0 0) [{ leaf0 with phase := .planned }, { leaf0 with phase := .planned }] with held := [] } with now := 4, cores := [] }, .leafDispatch 21),
   ({ tiled { idleRec 1 (grec 0 0 0 0) [{ leaf0 with phase := .planned }] with held := [] } with now := 4 }, .leafDispatch 21),
   ({ tiled { idleRec 1 (grec 0 0 0 0) [{ leaf0 with phase := .planned }] with held := [] } with now := 4, cores := [(0, { Core.reset with tinuse := 0x20000 })] }, .leafDispatch 21),
   ({ tiled { idleRec 1 (grec 0 0 0 0) [{ leaf0 with phase := .planned }] with held := [] } with now := 4, cores := [(0, { Core.reset with tinuse := 0x30006 })] }, .leafDispatch 21),
   ({ tiled { run1 10 (grec 0 0 0 0) [f32t 0x3000, f32t 0x1000, some (ten 2 1 [2] 0 0x3000)] [{ leaf0 with phase := .planned }] with held := [] } with now := 4, cores := [] }, .leafDispatch 21),
   ({ tiled (idleRec 1 (grec 0 0 0 0) [{ leaf0 with phase := .queued }]) with now := 8 }, .leafStart 0),
   (tiled (idleRec 1 (grec 0 0 0 0) [{ leaf0 with phase := .writing }]), .leafEnd 0), (tiled (idleRec 1 (grec 0 0 (own 0x40) 0) [{ leaf0 with phase := .writing }]), .leafEnd 0),
   (tiled { idleRec 1 (grec 0 0 0 0) [{ leaf0 with phase := .ended }] with stop := some 1 }, .recordCompletion 21),
   (tiled { idleRec 1 (grec 0 0 0 0) [{ leaf0 with phase := .ended }] with stop := some 1, fault := some { lvl := 1, cause := 0x14, sub := 0x20, addr := 5, child := 3 } }, .recordCompletion 21),
   (tiled { idleRec 1 (grec 0 0 0 0) [{ leaf0 with phase := .ended }, { leaf0 with phase := .planned, child := 1 }] with stop := some 1, host := some 0, children := 2 }, .recordCompletion 21)]

/-! ## Collectives -/
def coll0 : Coll := { record := 21, started := true, chip := 0, die := 1, frame := 0, sigEnd := 5, done := 9, steps := [] }
def step0 (opc k : Nat) : BitVec 128 := BitVec.ofNat 128 (5 + opc <<< 32 + (k - 1) <<< 35 + 4 <<< 40 + 20 <<< 59 + 40 <<< 78 + 2 <<< 97)
def stepping (w : BitVec 128) (b : Nat) : State :=
  { State.reset with now := 5, colls := [{ coll0 with steps := [(5, b, w), (9, 0, w)] }], mem := writeBytes [] (bytesAt (linkAddr 0 1 256) 128 0x3F800000C0000000404000004080000041200000C1200001 ++
    bytesAt (linkAddr 0 1 1280) 64 0x3F800000C000000040400000408000004120000000000003 ++ bytesAt (linkAddr 0 1 2560) 64 0x3F800000C000000040400000408000004120000000000003) }
def witCollective : W :=
  [(tiled (run1 0x0B (grec 4 0 0 0) [] []), .gagather (grec 4 0 0 0)), (tiled (run1 0x0C (grec 4 0 0 0) [] []), .grscat (grec 4 0 0 0)), (tiled (run1 0x0D (grec 4 0 0 0) [] []), .gared (grec 4 0 0 0)),
   (tiled (run1 0x0E (grec 4 0 0 0) [] []), .ga2a (grec 4 0 0 0)),
   ({ tiled { run1 0x0B (grec 4 0 0 0) [none, f32t 0x1000, none] [] with cap := Cap.null } with colls := [{ coll0 with started := false }], now := 28 }, .collectiveStart 0),
   ({ tiled (run1 0x0B (grec 4 0 0 0) [none, f32t 0x1000, none] []) with colls := [{ coll0 with started := false }], now := 28 }, .collectiveStart 0),
   ({ tiled (run1 0x0D (grec 4 0 0 0) [f32t 0x3000, f32t 0x1000, none] []) with colls := [{ coll0 with die := 0 }, { coll0 with chip := 1 }], now := 28 }, .collectiveCompletion 0),
   ({ tiled (run1 0x0D (grec 4 0 (own 0x40) 0) [f32t 0x3000, f32t 0x1000, none] []) with colls := [{ coll0 with die := 0 }], now := 28 }, .collectiveCompletion 0),
   (stepping (step0 1 3) 0, .topk 0 1 (step0 1 3)), (stepping (step0 2 3) 2, .scadd 0 1 (step0 2 3)), (stepping (step0 3 1) 0, .q4 0 1 (step0 3 1)), (stepping (step0 4 1) 0, .dq4add 0 1 (step0 4 1))]
/-! ## Recovery -/
def rcv (auto halted : Bool) : Recovery :=
  { origin := 0, port := 3, ev := 5, t := 0, auto := auto, vid := 0, stage := 1, start := 0, replay := 12800, halted := halted, extra := 2, bounds := [(0, [1, 2, 3, 4])] }
def busyPort : State := State.reset.setPort 3 { Port.reset with engine := { LinkEngine.reset with run := 1, ahead := [entry0 (.halt 5)], points := [(1, 2, LinkPlace.reset)] } }
def reco (r : Recovery) : State := { few ((busyPort.setCore 0 busyCore).setChip 0 { chip0 with recovery := some r }) with now := 12800 }
def witRecovery : W :=
  [(few ((busyPort.setCore 0 { Core.reset with prply := 0 }).setChip 0 { chip0 with preempt := some 0 }), .preemptionPly 0),
   (reco (rcv true false), .haltPly 0), (reco (rcv false false), .haltPly 0), (reco (rcv true true), .replayPly 0),
   (commanded 3 4 (0x40 <<< 32 + 0x1000 <<< 64), .launch 0), (commanded 2 4 (0x40 + 0x40 <<< 32), .launch 0),
   ({ one busyCore with now := 5, mem := [(5, 6)], tags := [(0, true)] }, .reset 0)]

theorem witness_CoreEvents : witCore.all (fun x => (rowCore x.1 x.2).isSome) = true := by decide +kernel

theorem witness_MemoryEvents : witMemory.all (fun x => (rowMemory x.1 x.2).isSome) = true := by decide +kernel

theorem witness_MemoryEvents_more : witMemory2.all (fun x => (rowMemory x.1 x.2).isSome) = true := by decide +kernel

theorem witness_ChannelEvents : witChannel.all (fun x => (rowChannel x.1 x.2).isSome) = true := by decide +kernel

theorem witness_PackageEvents_tempo : witTempo.all (fun x => (rowTempo x.1 x.2).isSome) = true := by decide +kernel

theorem witness_PackageEvents_limits : witTempo2.all (fun x => (rowTempo x.1 x.2).isSome) = true := by decide +kernel

theorem witness_PackageEvents : witPackage.all (fun x => (rowPackage x.1 x.2).isSome) = true := by decide +kernel

theorem witness_LinkInstructions : witLink.all (fun x => (rowLink x.1 x.2).isSome) = true := by decide +kernel

theorem witness_PortEvents : witPort.all (fun x => (rowPort x.1 x.2).isSome) = true := by decide +kernel

theorem witness_HostCommands : witHost.all (fun x => (rowHost x.1 x.2).isSome) = true := by decide +kernel

theorem witness_LeafEvents : witLeaf.all (fun x => (rowLeaf x.1 x.2).isSome) = true := by decide +kernel

theorem witness_RecordEvents : witRecord.all (fun x => (rowRecord x.1 x.2).isSome) = true := by decide +kernel

theorem witness_CollectiveEvents : witCollective.all (fun x => (rowCollective x.1 x.2).isSome) = true := by decide +kernel

theorem witness_RecoveryEvents : witRecovery.all (fun x => (rowRecovery x.1 x.2).isSome) = true := by decide +kernel

/-- A reserved OPC, a SERVE with a port that is not cabled, and an instruction out of order. -/
theorem witness_LinkEngineFaults :
    [.reservedOpc 0x3F00000005, .serve 5 60 9].all (fun i =>
      (issuingPort (linkOn i) i).any (fun x => isLink i && (illSubcode (linkOn i) x.1 x.2 i).isSome)) = true := by
  decide +kernel

/-! ## Witnesses: encoding and steps -/

theorem witness_ControlSlotsRoundTrip : slotClass (.addiI64 7 63 63 (-1)) = some 0 ∧ Instr.wf (.addiI64 7 63 63 (-1)) = true ∧
    slotClass (.tree 3 0xFF 1023 1023 1023 1023 255 255 255 255 7 0 0) = some 0 ∧
    Instr.wf (.tree 3 0xFF 1023 1023 1023 1023 255 255 255 255 7 0 0) = true := by
  decide +kernel

theorem witness_MemorySlotsRoundTrip : slotClass (.qpushRel 7 383 1 15 63 4) = some 2 ∧ Instr.wf (.qpushRel 7 383 1 15 63 4) = true := by
  decide +kernel

theorem witness_VectorSlotsRoundTrip : slotClass (.vaddI32 7 5 1 1 63 63 63) = some 3 ∧ Instr.wf (.vaddI32 7 5 1 1 63 63 63) = true := by
  decide +kernel

theorem witness_UnitSlotsRoundTrip : slotClass (.wtakeL 7 63) = some 1 ∧ Instr.wf (.wtakeL 7 63) = true ∧
    slotClass (.mma 7 1 15 15 2 2 1) = some 4 ∧ Instr.wf (.mma 7 1 15 15 2 2 1) = true ∧ slotClass (.scldB 15 63) = some 5 ∧
    Instr.wf (.scldB 15 63) = true ∧ slotClass (.chstart 7 63 15 3) = some 6 ∧ Instr.wf (.chstart 7 63 15 3) = true ∧
    slotClass (.band 7 15 15 15) = some 7 ∧ Instr.wf (.band 7 15 15 15) = true := by
  decide +kernel

theorem witness_LinkInstructionsRoundTrip : ∃ w, encode (.send 904 0x100 39 24) = some (128, w) ∧ Instr.wf (.send 904 0x100 39 24) = true :=
  ⟨0x00000000000001804E00400100000388, by decide +kernel⟩

theorem witness_RecordsRoundTrip : ∃ w, encode (.gnop { lvl := 2, flags := 1, body := 5 }) = some (256, w) ∧
    Instr.wf (.gnop { lvl := 2, flags := 1, body := 5 }) = true :=
  ⟨0x0500010200, by decide +kernel⟩

theorem witness_NoBitOfASlotDropped : (0x010627FB : Nat) < 2 ^ (8 * slotBytes 0 0x010627FB) ∧ isIllegal (decodeSlot 0 0x010627FB) = false := by
  decide +kernel

/-- Every reserved range at both its ends. -/
theorem witness_ReservedMajorsAreIllegal :
    [(0, 0x0B), (0, 0x0F), (0, 0x1F), (0, 0x37), (0, 0x38), (0, 0x3E), (2, 0x0A), (2, 0x0F), (2, 0x12), (2, 0x13), (2, 0x23),
      (2, 0x37), (2, 0x38), (2, 0x3F), (3, 0x38), (3, 0x3B), (3, 0x3C), (3, 0x3F), (4, 0x02), (4, 0x03), (4, 0x05), (4, 0x07),
      (4, 0x09), (4, 0x0B), (4, 0x0F), (4, 0x37), (4, 0x38), (4, 0x3F), (7, 0x0B), (7, 0x37), (7, 0x38), (7, 0x3F)].all
        (fun x => x.2 <<< 23 < 2 ^ (8 * slotBytes x.1 (x.2 <<< 23)) && isIllegal (decodeSlot x.1 (x.2 <<< 23))) = true ∧
    [(1, 0x04), (1, 0x37), (1, 0x38), (1, 0x3F), (5, 0x05), (5, 0x37), (5, 0x38), (5, 0x3F)].all (fun x => isIllegal (decodeSlot x.1 (x.2 <<< 10))) = true ∧
    [(6, 0x03), (6, 0x07), (6, 0x0E), (6, 0x0F), (6, 0x12), (6, 0x13), (6, 0x15), (6, 0x17), (6, 0x1A), (6, 0x37), (6, 0x38),
      (6, 0x3F)].all (fun x => isIllegal (decodeSlot x.1 (x.2 <<< 39))) = true := by
  decide +kernel

theorem witness_EventStepRunsItsRow : nextAct (pendOf (.scalar 3 7)) = .event (.resultLanding 0) := by decide +kernel

/-- An ADDI and an idle byte where the next step fetches. -/
theorem witness_StepRunsTheDecodedBundle :
    (let s := State.reset.withFetchWord 32 0x010627FB
     nextAct s = .issue 0 ∧ (readByte (atFetch s 0).mem (coreBase 0)).toNat = 2 ^ 0 ∧ ((atFetch s 0).core 0).pc = 0 ∧
       ((atFetch s 0).core 0).codeHi = 9) ∧
    (let s := State.reset.withFetchWord 8 0
     nextAct s = .issue 0 ∧ (readByte (atFetch s 0).mem (coreBase 0)).toNat = 0 ∧ ((atFetch s 0).core 0).pc = 0 ∧
       ((atFetch s 0).core 0).codeHi = 1) := by
  decide +kernel

/-- The first step after reset with a slot placed runs it: s3 = s4 - 5 is on its way. -/
theorem test_step_runs_addi :
    (match step (State.reset.withFetchWord 32 0x010627FB) with
     | .next t => (t.core 0).pend.map (fun p => p.what) = [.scalar 3 0xFFFFFFFFFFFFFFFB] && (t.core 0).pc.toNat = 9
     | _ => false) = true := by
  decide +kernel

theorem witness_SlotsOfABundleInTurn : slotClass (.addI64 0 1 2 3) = some 0 ∧ (solo 0 core1).cur.left ≤ 1 ∧
    1 < ({ solo 0 core1 with cur := { (solo 0 core1).cur with left := 2 } } : State).cur.left := by
  decide +kernel

/-- A bundle of `n` slots of the classes in `header`; every read port goes to the V slot, and BSRC names s1. -/
def several (header n : Nat) (c : Core) : State :=
  { solo 3 c with cur := { (solo 3 c).cur with header := header, left := n } }

/-- C and V; C, V and B; L, V and B; L and V. -/
def headers : List Nat := [9, 137, 140, 12]

theorem several_alone {header n : Nat} (h : header ∈ headers) {c : Core} (hd : c.dev = []) (hc : c.chksb = false) (h0 : c.pc = 0) :
    Alone (atLastSlot (several header n c)) := by
  have a : Alone (solo 3 c) := solo_alone (by decide) hd hc h0
  have all : ∀ h ∈ headers, h ≠ 0 ∧ (portFields (soloControl 3 + 2 ^ 16)).all (fun c => decide (c < 5) && portSlotPresent h c) = true := by
    decide +kernel
  exact ⟨by simp [atLastSlot], rfl, (all header h).1, a.reserved, a.extension, a.line, (all header h).2, a.fetched, a.quiet,
    (.inl ⟨hc, show bit (soloControl 3 + 2 ^ 16) 23 = false by decide +kernel⟩)⟩

/-- What the slots of a list do. -/
def doings (s : State) (is : List Instr) : List Does := is.filterMap (rowDoes (atLastSlot s))

theorem doings_rows {s : State} : {is : List Instr} → is.all (fun i => (rowDoes (atLastSlot s) i).isSome) = true →
    is.map (rowDoes (atLastSlot s)) = (doings s is).map some
  | [], _ => rfl
  | i :: is, h => by
    simp only [List.all_cons, Bool.and_eq_true] at h
    obtain ⟨d, hd⟩ := Option.isSome_iff_exists.mp h.1
    have := doings_rows (is := is) h.2
    simp only [doings] at this ⊢
    simp [hd, this]

/-- What the slots of such a bundle satisfy, as far as it is a computation. -/
def slotsCheck (header n : Nat) (c : Core) (tree : Option Instr) (is : List Instr) : Bool :=
  let s := several header n c
  let ds := doings s is
  headers.contains header && c.dev.isEmpty && !c.chksb && c.pc = 0 && is.all (fun i => (rowDoes (atLastSlot s) i).isSome) &&
    decide ((ds.map Does.cls).Pairwise (· < ·)) && ds.all (fun d => d.draw.isNone) && !(tree.toList ++ is).isEmpty && n = (tree.toList ++ is).length &&
    (match tree with | none => true | some t => (reachedBy s t).isSome && ds.all (fun d => d.cls ≠ 0))

theorem slots_of_check {header n : Nat} {c : Core} {tree : Option Instr} {is : List Instr} (h : slotsCheck header n c tree is = true) :
    Slots (several header n c) tree is (tree.bind (reachedBy (several header n c))) (doings (several header n c) is) := by
  simp only [slotsCheck, Bool.and_eq_true, Bool.not_eq_true', List.contains_iff_mem, List.isEmpty_iff, decide_eq_true_eq] at h
  obtain ⟨⟨⟨⟨⟨⟨⟨⟨⟨hh, hd⟩, hc⟩, h0⟩, rows⟩, order⟩, draws⟩, some⟩, left⟩, tr⟩ := h
  refine { rows := doings_rows rows, order := order, draws := ?_, reached := ?_, left := left, some := ?_, first := rfl,
           whole := several_alone hh hd hc h0 }
  · intro d hd'
    simpa using List.all_eq_true.mp draws d ((List.dropLast_sublist _).subset hd')
  · cases tree with
    | none => exact .inl ⟨rfl, rfl⟩
    | some t =>
      simp only [Bool.and_eq_true, List.all_eq_true, decide_eq_true_eq] at tr
      exact .inr ⟨t, rfl, tr.1, rfl, tr.2⟩
  · intro e; simp [e] at some

/-- The tree of R25's example, which core1 sends to leaf 1; the same with that leaf outside the code space; a tree of one test. -/
def tree4 (o1 : BitVec 8) : Instr := .tree 3 0x23 0x020 0x211 0x034 0x03E o1 0xC0 0x0C 0x28 0 0 0
def tree1 : Instr := .tree 0 0 0x020 0 0 0 0x18 0 0 0 0 0 0

/-- Slots that commit together, without a tree and behind one, and every trap of such a bundle. -/
def bundles : List (Nat × Nat × Option Instr × List Instr × Option (Nat × Nat)) :=
  [(9, 2, none, [.addI64 0 1 2 3, .vaddI16 0 0 0 0 3 1 2], none),
   (137, 3, some (tree4 0x18), [.vaddI16 4 0 0 0 3 1 2, .bcryst 2 0 5], none),
   (137, 2, none, [.addI64 0 1 2 3, .bcrysta 0 0 5], some (0x01, 4)),
   (9, 2, none, [.addI64 3 1 2 3, .vaddI16 0 0 0 0 3 1 2], some (0x01, 6)),
   (9, 2, some tree1, [.vaddI16 3 0 0 0 3 1 2], some (0x01, 6)),
   (9, 2, none, [.addI64 0 1 2 3, .vaddI16 0 0 0 0 3 60 2], some (0x05, 0)),
   (137, 2, none, [.vaddI16 0 0 0 0 3 1 2, .bcryst 0 0 3], some (0x06, 1)),
   (9, 2, some (tree4 0x80), [.vaddI16 4 0 0 0 3 1 2], some (0x09, 2))]

theorem witness_SlotsOfABundleInTurn_together : bundles.all (fun x =>
    slotsCheck x.1 x.2.1 core1 x.2.2.1 x.2.2.2.1 &&
      let s := several x.1 x.2.1 core1
      (bundleTrap (atLastSlot s) (x.2.2.1.bind (reachedBy s)) (doings s x.2.2.2.1)).map (fun c => (c.1, c.2.1)) = x.2.2.2.2) = true := by
  decide +kernel

/-- A sealed capability beside a vector slot, whose queue holds an entry or none. -/
theorem witness_SlotsOfABundleInTurn_access : Alone (atLastSlot (several 12 2 core1)) ∧ Unordered (several 12 2 core1) ∧
    (let s := several 12 2 core1
     ownAccessOf s (.ldD 0 1 3 0) = some (0, 3, 0xFFFE000000000000, 8, 0) ∧ ownCheck s (s.rc 3) 0xFFFE000000000000 8 0 = some (0x0B, 0) ∧
     ((rowDoes (atLastSlot s) (.vaddI16 0 0 0 0 3 1 2)).map (fun d => (slotTraps d (atLastSlot s)).isNone)) = some true ∧
     ((rowDoes (atLastSlot s) (.vaddI16 0 0 0 0 3 60 2)).map (fun d => (slotTraps d (atLastSlot s)).isSome)) = some true) :=
  ⟨several_alone (by decide) rfl rfl rfl, ⟨rfl, by decide +kernel⟩, by decide +kernel⟩

/-- Three destination queues. -/
theorem witness_SlotsOfABundleInTurn_three : Alone (atLastSlot (several 140 3 core1)) ∧ Unordered (several 140 3 core1) ∧
    (let s := several 140 3 core1
     loadsVector (.ldvW 3 3 1 1) = true ∧
     [(Instr.vaddI16 0 0 0 0 3 1 2, 3), (.bcryst 0 0 5, 7)].all (fun x =>
       (rowDoes (atLastSlot s) x.1).any (fun d =>
         decide (d.cls = x.2) && d.push.isSome && decide (PortsFor s x.2 (distinct (d.reads.map Prod.fst)).length))) = true) :=
  ⟨several_alone (by decide) rfl rfl rfl, ⟨rfl, by decide +kernel⟩, by decide +kernel⟩

theorem nextAct_reset : nextAct State.reset = .tick := by decide +kernel

theorem witness_PlyPasses : nextAct State.reset = .tick := nextAct_reset

theorem witness_MemoryCanonicalKept : MemoryCanonical State.reset ∧ ∃ t, step State.reset = .next t :=
  ⟨rfl, { tick State.reset with mem := State.reset.mem }, by simp only [step, advance, nextAct_reset]; rfl⟩

theorem witness_SlotsLeaveTheRest : slotClass (.addI64 0 1 2 3) = some 0 ∧ (solo 0 core1).cur.outs = [] ∧
    ∃ t, exec (.addI64 0 1 2 3) (solo 0 core1) = .next t :=
  ⟨by decide +kernel, by decide +kernel, _, rfl⟩

theorem witness_OneCoreAtATime : slotClass (.addI64 0 1 2 3) = some 0 ∧ (∀ a x y d, Instr.addI64 0 1 2 3 ≠ .spawn a x y d) ∧
    (solo 0 core1).cur.outs = [] ∧ (1 : Nat) ≠ (solo 0 core1).cur.core :=
  ⟨by decide +kernel, (fun a x y d h => by cases h), by decide +kernel, by decide +kernel⟩

/-! ## Witnesses: registers, rules and traps -/

theorem witness_ControlRegisterWrites : readOnly 0x00 ∧ readOnly 0xFF ∧ readOnly 0x42 ∧ readOnly 0x4D ∧
    (0x13, (0xFFFFFFC1 : Word)) ∈ plainRegisters ∧ (0x20, (0xFFFFFFFF : Word)) ∈ plainRegisters ∧
    (0x3F, BitVec.allOnes 64) ∈ plainRegisters := by
  refine ⟨?_, ?_, ?_, ?_, ?_, ?_, ?_⟩ <;> first | decide | simp [readOnly]

/-- The package's, the last port's and the root's registers; and another package, where the root's ignore a write. -/
theorem witness_PackageRegisterWrites : (0 : Nat) = State.reset.root ∧ (1 : Nat) ≠ State.reset.root ∧
    (∃ k < 12, (0x15C8, BitVec.allOnes 64) ∈ [(0x1000 + 0x80 * k, (0x7F : Word)), (0x1038 + 0x80 * k, 3), (0x1048 + 0x80 * k, BitVec.allOnes 64)]) := by
  refine ⟨by decide +kernel, by decide +kernel, 11, by decide, by decide⟩

/-- A target outside, one at the last byte of the code space, one at its first byte, and a branch that falls through. -/
theorem witness_RedirectTargets : Alone (solo 0 core1) ∧ takenTarget (solo 0 core1) (.jr 0 4) = some (0x3F80000000000000, 0) ∧
    OutsideCode 0x3F80000000000000 ∧ takenTarget (solo 0 core1) (.jmp 0 (-1)) = some (-1, 0) ∧ OutsideCode (-1) ∧
    takenTarget (solo 0 core1) (.jmp 0 0x3FFFFF) = some (2 ^ 22 - 1, 0) ∧ ¬ OutsideCode (2 ^ 22 - 1) ∧
    takenTarget (solo 0 core1) (.jmp 0 0) = some (0, 0) ∧ ¬ OutsideCode 0 ∧ TagTaken 1 ∧ ¬ condition 0 (sw (solo 0 core1) 2) :=
  ⟨core1_alone (by decide), by decide +kernel, by decide, by decide +kernel, by decide, by decide +kernel, by decide, by decide +kernel, by decide,
    by decide, by decide +kernel⟩

/-- Core 0 about to issue below and above its code range. -/
theorem witness_RedirectTargets_fetch :
    (let s := (State.reset.withFetchWord 32 0x010627FB).setCore 0 { (State.reset.withFetchWord 32 0x010627FB).core 0 with codeHi := 0 }
     nextAct s = .issue 0 ∧ ((atFetch s 0).core 0).codeHi.toNat ≤ ((atFetch s 0).core 0).pc.toNat ∧
       ((atFetch s 0).core 0).takeable s.now = []) ∧
    (let s := (State.reset.withFetchWord 32 0x010627FB).setCore 0
       { (State.reset.withFetchWord 32 0x010627FB).core 0 with codeLo := 0x80, codeHi := 0x100, pc := 0x77, tvec := 0x81 }
     nextAct s = .issue 0 ∧ ((atFetch s 0).core 0).pc.toNat < ((atFetch s 0).core 0).codeLo.toNat ∧
       ((atFetch s 0).core 0).takeable s.now = []) := by
  decide +kernel

/-- Depth 1, and depth 6, with skips inside and outside. -/
theorem witness_LoopOpens : Alone (solo 0 core1) ∧ Alone (solo 0 { core1 with depth := 6 }) ∧ TagTaken 0 ∧ core1.depth.toNat < 6 ∧
    ((solo 0 core1).rs 2).setWidth 32 = (4 : BitVec 32) ∧ ((solo 0 core1).rs 4).setWidth 32 = (0 : BitVec 32) ∧
    ¬ OutsideCode (((solo 0 core1).bundleAddr : Int) + (20 : BitVec 17).toInt) ∧
    OutsideCode (((solo 0 core1).bundleAddr : Int) + (-1 : BitVec 17).toInt) :=
  ⟨core1_alone (by decide), solo_alone (by decide) rfl rfl rfl, by decide, by decide +kernel, by decide +kernel, by decide +kernel, by decide +kernel,
    by decide +kernel⟩

theorem witness_YieldEffect : Alone (solo 0 core1) ∧ TagTaken 0 ∧ TagTaken 1 := ⟨core1_alone (by decide), by decide, by decide⟩

theorem witness_TrapReturn : Alone (solo 0 core1) ∧ core1.tpc.toNat < 2 ^ 22 ∧ Alone (solo 0 { core1 with tpc := 0x400000 }) ∧
    2 ^ 22 ≤ ({ core1 with tpc := 0x400000 } : Core).tpc.toNat :=
  ⟨core1_alone (by decide), by decide +kernel, solo_alone (by decide) rfl rfl rfl, by decide +kernel⟩

/-- Capabilities that fail one check each. -/
def core3 : Core :=
  { core1 with
    c := [(1, Cap.make true (0xFFFE <<< 48) 4194304 0xFF 0 0), (2, Cap.make true (0xFFFE <<< 48) 0xFFFFFFFFFF 0xFF 15 0),
      (3, Cap.make true (0xFFFE <<< 48) 64 0xFF 0 8), (4, Cap.make true (0xFFFE <<< 48) 64 0xFC 0 0),
      (5, Cap.make true (0xFFFE <<< 48 + 4) 64 0xFF 0 0), (6, Cap.make true (0xFFFE <<< 48 + 1 <<< 37) 64 0xFF 0 0),
      (7, Cap.make true (0xFFFE <<< 48) 64 0xFF 2 0)] }

/-- Every check of R119, of R263 for the window, and the last byte that a capability covers. -/
theorem witness_SlotChecks : Alone (solo 2 core3) ∧ Unordered (solo 2 core3) ∧
    (let s := solo 2 core3
     let at' (c : BitVec 4) (o : BitVec 13) (size perm : Nat) := ownCheck s (s.rc c) (ownOffset s c o size) size perm
     at' 0 0 8 0 = some (0x08, 0) ∧ at' 1 (-1) 8 0 = some (0x09, 0) ∧ at' 3 8 8 0 = some (0x09, 0) ∧ at' 6 0 8 0 = some (0x09, 3) ∧
     at' 7 0 8 0 = some (0x09, 4) ∧ at' 4 0 8 0 = some (0x0A, 0) ∧ at' 4 0 8 1 = some (0x0A, 1) ∧ at' 3 7 8 0 = some (0x0B, 0) ∧
     at' 5 0 8 0 = some (0x0C, 0)) :=
  ⟨solo_alone (by decide) rfl rfl rfl, ⟨rfl, by decide +kernel⟩, by decide +kernel⟩

/-- Slots that fail a check of their own: their class, their core, and the cause that they raise. -/
def failures : List (Nat × Core × Instr × Nat × Nat) :=
  let bare := { core1 with depth := 0 }
  [(0, bare, .lpop 0, 0x07, 1), (0, bare, .endloop 0, 0x07, 1), (1, core1, .wstepL 0 1, 0x07, 2), (1, bare, .wtakeL 0 20, 0x07, 2)] ++
  [Instr.ldvW 0 3 0 6, .ldvsW 0 3 0 6, .ldvmW 0 3 0 6, .ldvsmW 0 3 0 6, .stvW 0 3 0 0 6, .stvsW 0 3 0 0 6, .stvmW 0 3 0 0 6, .stvsmW 0 3 0 0 6,
   .qpush 0 1 0 0 6, .qpushRel 0 1 0 0 6 0, .ldxD 0 8 0 1 0 0, .stxD 0 8 0 1 0 0, .cld 0 8 0 1, .cst 0 8 0 1, .aswapD 0 8 0 1 0 0,
   .acasD 0 8 0 1 0 0, .aaddD 0 8 0 1 0 0, .aminD 0 8 0 1 0 0, .amaxD 0 8 0 1 0 0, .aandD 0 8 0 1 0 0, .aorD 0 8 0 1 0 0,
   .axorD 0 8 0 1 0 0, .cbase 0 8 0 1, .clen 0 8 0 1, .cperms 0 8 0 1, .cspace 0 8 0 1, .cseal 0 8 0 1, .cunseal 0 8 0 1].map
     (fun i => (2, core1, i, 0x08, 0)) ++
  [(2, core1, .ldxD 0 8 1 2 0 0, 0x0C, 0), (2, core1, .stxD 0 8 3 1 0 0, 0x0B, 0), (2, core1, .aaddD 0 8 1 5 0 0, 0x09, 0),
   (2, core1, .clen 0 8 3 3, 0x09, 5), (2, core1, .cspace 0 8 1 1, 0x09, 6), (2, core1, .cbase 0 8 3 6, 0x0B, 0), (2, core1, .cseal 0 0 4 6, 0x08, 1),
   (2, core1, .cseal 0 1 4 0, 0x09, 7), (2, core1, .cseal 0 3 4 6, 0x0B, 1), (2, core1, .cunseal 0 3 4 6, 0x0B, 2),
   (3, core1, .vtrd 0 4 3 0, 0x10, 0x40), (3, core1, .vtwr 0 2 1 3 11, 0x10, 0x40)] ++
  [Instr.tld 0 0 0 6, .tldX 0 0 0 6, .tldSc 0 0 0 6, .tst 0 0 0 6, .tstX 0 0 0 6, .tstSc 0 0 0 6].map (fun i => (4, core1, i, 0x08, 0)) ++
  [(4, core1, .tld 0 0 1 2, 0x0C, 0), (4, core1, .mma 0 0 5 14 2 2 1, 0x10, 1), (4, core1, .mmaz 0 0 1 8 1 1 0, 0x10, 2),
   (4, { core1 with s := [(1, 0x81)] }, .mma 0 0 5 14 1 2 1, 0x10, 3), (4, core1, .tcfg 0 3, 0x0F, 5)].map
     (fun x => (x.1, { x.2.1 with tinuse := 0x20 }, x.2.2)) ++
  [Instr.aoutF32 0 0 3 2 0, .aoutBf16 0 0 7 2 0, .aoutI8 0 0 4 2 0, .aoutI6 0 0 1 2 0, .aoutI4 0 0 2 2 0].map (fun i => (4, core1, i, 0x10, 4)) ++
  [(4, core1, .aoutF32 0 0 4 0 0, 0x10, 5), (4, core1, .ttrI8 0 5 1, 0x10, 6), (4, core1, .ttrI6 0 4 1, 0x10, 6), (4, core1, .ttrI4 0 4 1, 0x10, 6)] ++
  [Instr.band 0 0 0 1, .bxnor 0 0 1 0, .bmux 0 1 1 0 0, .bmin 0 0 1 3, .bmax 0 0 1 3].map
     (fun i => (7, { core1 with blen := [(1, 2)] }, i, 0x11, 0)) ++
  [(Instr.band 0 0 2 3, 0), (.bxnor 0 0 2 3, 1), (.bmux 0 0 0 2 3, 2), (.bmin 0 0 0 2, 3), (.bmax 0 0 0 1, 3)].map
     (fun x => (7, core1, x.1, 0x12, x.2)) ++
  [(7, { core1 with blenc := 4 }, .bdslv 0 1 2 1 0 1, 0x11, 2), (7, { core1 with blenc := 2 }, .bdslvBi 0 1 2 1 0 1, 0x11, 1), (7, core1, .bcrystp 0 1 1 1, 0x11, 2),
   (7, core1, .bcrystpa 0 0 4 1, 0x11, 2)] ++
  [Instr.chstart 0 4 0 0, .cadd 0 3 0 8, .badd 0 6 0 8, .spawn 0 9 0 0, .gsub 0 2 6 0 0, .cwait 0 1 0 0, .bwait 0 1 0 0, .gwait 0 1 0].map
     (fun i => (6, core1, i, 0x08, 0)) ++
  [(6, core1, .chstart 0 4 3 0, 0x0B, 0), (6, { core1 with q := [(1, filled (8 + 2 <<< 128))] }, .arm 0 1 0 1 2, 0x14, 0x10), (6, { core1 with schbase := 4 }, .nextt 0, 0x0C, 0),
   (6, { core1 with schbase := 0x3FFFF8, schcur := 1 }, .nextt 0, 0x09, 3), (6, core1, .spawn 0 6 2 0, 0x09, 0), (6, core1, .gsub 0 0 6 1 0, 0x14, 3),
   (6, core1, .cwait 0 1 3 0, 0x0B, 0), (6, core1, .badd 0 6 3 8, 0x09, 0)]

/-- A slot of every row of the table fails as it should, in a state that meets what the statement asks. -/
theorem witness_SlotChecks_rows : failures.all (fun x =>
    let s := solo x.1 x.2.1
    x.1 < 8 && x.2.1.dev.isEmpty && !x.2.1.chksb && x.2.1.pc = 0 && s.curCore.fences = [] && s.curCore.ops.isEmpty &&
      (rowFails s x.2.2.1).any (fun k => decide (k.does.cls = x.1) && k.cause.1 = x.2.2.2.1 && k.cause.2.1 = x.2.2.2.2 && decide (k.does.ready s))) = true := by
  decide +kernel

/-- The same bundle with another control word, another length, or other lists. -/
def worded (s : State) (w len : Nat) : State := { s with cur := { s.cur with w := w, len := len } }

/-- A checked bundle with a result on its way to s3 and to a slot of queue 3. -/
def awaiting : State :=
  let on (what : Land) : Pending := { due := 9, seq := 0, slot := 0, what := what }
  solo 3 { core1 with chksb := true, qown := [(6, 1)], pend := [on (.scalar 3 7), on (.queue 3 0 7), on (.queue 4 1 7)] }

theorem single_of {s : State} (h : s.cur.left = 1 ∧ s.cur.outs = [] ∧ s.cur.header ≠ 0 ∧ s.cur.fetchFault = none ∧ s.curCore.takeable s.now = []) :
    Single s := ⟨h.1, h.2.1, h.2.2.1, h.2.2.2.1, h.2.2.2.2⟩

/-- Bundles of one slot with their state, and the cause that each raises before its own checks: reserved bits, a line crossing, the port
codes, the read ports, the path tag, the broadcast, EXT, the scoreboard, and the queues empty and full. -/
def encodings : List (State × Instr × Nat × Nat) :=
  let s := solo 3 core1
  let w := s.cur.w
  [(worded s (w + 2 ^ 28) 9, .vaddI16 0 0 0 0 3 1 2, 0x01, 0), (worded s (w + 2 ^ 30) 65, .vaddI16 0 0 0 0 3 1 2, 0x01, 0),
   (worded s w 65, .vaddI16 0 0 0 0 3 1 2, 0x01, 1), (worded s (5 * 2 ^ 4) 9, .vaddI16 0 0 0 0 3 1 2, 0x01, 2),
   (worded s (2 ^ 4) 9, .vaddI16 0 0 0 0 3 1 2, 0x01, 3), (worded s 0 9, .vaddI16 0 0 0 0 3 1 2, 0x01, 4), (s, .vaddI16 2 0 0 0 3 1 2, 0x01, 6),
   (worded s (w - 2 ^ 22) 9, .vaddI32Bc 0 3 1 0 0, 0x01, 7), (worded s (w + 2 ^ 31) 9, .vaddI16 0 0 0 0 3 1 2, 0x02, 0),
   (awaiting, .vsplatU32 0 5 3, 0x04, 0), (awaiting, .vaddI16 0 0 0 0 5 3 2, 0x04, 0), (awaiting, .vaddI16 0 0 0 0 4 1 2, 0x04, 1),
   (s, .vaddI16 0 0 0 0 3 60 2, 0x05, 0), (s, .vaddI16 0 0 1 1 3 60 2, 0x05, 1),
   (solo 3 { core1 with q := [(1, filled 5), (2, filled 6), (3, { filled 7 with count := 2 })] }, .vaddI16 0 0 0 0 3 1 2, 0x06, 0)]

/-- The same for a bundle of one tree. -/
def treeEncodings : List (State × Instr × Nat × Nat × Nat) :=
  let s := solo 0 core1
  [(worded s (s.cur.w + 2 ^ 28) 9, tree1, 0x01, 0, (((reachedBy s tree1).map Reached.leaf).getD 9)), (worded s s.cur.w 65, tree4 0x18, 0x01, 1, 1),
   (s, .tree 0 0 0 0 0 0 0 0 0 0 0 0 1, 0x01, 8, 0), (worded s (s.cur.w + 2 ^ 31) 9, tree4 0x18, 0x02, 0, 1),
   (solo 0 { core1 with chksb := true, pend := [{ due := 9, seq := 0, slot := 0, what := .scalar 4 7 }] }, tree4 0x18, 0x04, 0, 1)]

theorem witness_SlotTrapCauses : (∀ x ∈ encodings, Single x.1) ∧
    encodings.all (fun x => (rowDoes x.1 x.2.1).any (fun d => (loneTraps x.1 x.2.1 d).any (fun c => c.1 = x.2.2.1 && c.2.1 = x.2.2.2))) = true ∧
    (∀ x ∈ treeEncodings, Single x.1) ∧
    treeEncodings.all (fun x => (treeTraps x.1 x.2.1).any (fun c => c.1 = x.2.2.1 && c.2.1 = x.2.2.2.1 && c.2.2.2.2 = x.2.2.2.2)) = true := by
  refine ⟨fun x h => single_of ?_, by decide +kernel, fun x h => single_of ?_, by decide +kernel⟩ <;> revert x <;> decide +kernel

/-- An operation in flight that is an acquire at scope pod, with no hold limit and with one. -/
def core4 (lim : BitVec 32) : Core :=
  { core1 with waitlim := lim, ops := [{ ident := 9, seq := 0, kinds := 1, dist := 0, isOpen := true, due := 0, acq := some 4 }] }

/-- Slots that a unit of the core holds: a busy tile and accumulator, a running channel, a wait, a core that runs, a full sequencer. -/
def holds : List (Nat × Core × Instr) :=
  let busy (r : BusyReg) : Core := { core1 with busy := [{ reg := r, free := 5, byMma := false }] }
  let waiting : Core := { core1 with wait := some { kind := .counter, cmp := 5, ident := 1, lag := 4, ready := none } }
  [(3, busy (.tileWrite 0), .vtrd 0 4 2 0), (3, busy (.tileWrite 11), .vtwr 0 2 1 1 11), (4, busy (.tileWrite 5), .mma 0 0 5 14 1 2 1),
   (4, busy (.accWrite 0), .aoutF32 0 0 3 4 0), (4, busy (.tileWrite 4), .ttrI8 0 4 15), (4, busy (.tileWrite 3), .tcfg 0 3),
   (6, { core1 with chans := [(0, { Chan.reset with state := 1 })] }, .chstart 0 4 1 0),
   (6, { core1 with chans := [(2, { Chan.reset with state := 1 })] }, .chwait 0 2), (6, waiting, .cwait 0 1 1 0), (6, waiting, .bwait 0 1 1 0),
   (6, waiting, .gwait 0 1 1)]

/-- Core 1 runs, and the sequencer of level 2 holds four records. -/
def crowded (lim : BitVec 32) : State :=
  let s := solo 6 { core1 with waitlim := lim }
  let r := run1 0 (grec 2 0 0 0) [] []
  { s.setCore 1 { Core.reset with run := .running } with
    recs := (List.range 4).map (fun k => { r with ident := 30 + k, lvl := 2 }) }

theorem witness_HeldBundles_units : holds.all (fun x =>
    [x.2.1, { x.2.1 with waitlim := 1 }].all (fun c =>
      let s := solo x.1 c
      x.1 < 8 && c.dev.isEmpty && !c.chksb && c.pc = 0 &&
        [rowTile, rowReadOut, rowEngine].any (fun f => (f s x.2.2).isNone && (f (atRest s) x.2.2).any (fun a => decide (a.does.ready s))))) = true ∧
    [Instr.spawn 0 9 2 0, .gsub 0 2 6 1 0].all (fun i => [0, 1].all (fun lim =>
      (rowEngine (crowded lim) i).isNone && (rowEngine (atRest (crowded lim)) i).any (fun a => decide (a.does.ready (crowded lim))))) = true := by
  decide +kernel

theorem witness_HeldBundles : Alone (solo 2 (core4 0)) ∧ Alone (solo 2 (core4 1)) ∧ ¬ AtLimit (solo 2 (core4 0)) ∧ AtLimit (solo 2 (core4 1)) ∧
    (∀ lim, rowVector (solo 2 (core4 lim)) (.ldD 0 3 1 0) = none) ∧
    [0, 1].all (fun lim => (rowOwn (solo 2 (core4 lim)) (.ldD 0 3 1 0)).any (fun a =>
      decide (a.does.ready (solo 2 (core4 lim))) && !decide (a.inOrder (solo 2 (core4 lim))))) = true ∧
    (let s := solo 0 { core1 with pend := [{ due := 5, seq := 0, slot := 0, what := .scalar 3 7 }] }
     (rowJump s (.fenceSeq 0)).isNone = true) :=
  ⟨solo_alone (by decide) rfl rfl rfl, solo_alone (by decide) rfl rfl rfl, by decide +kernel, by decide +kernel, fun _ => rfl, by decide +kernel,
    by decide +kernel⟩

/-- A wait as its bundle first reaches issue, without a hold limit and with one that this ply reaches. -/
theorem witness_EngineSlots_begins : Alone (solo 6 core1) ∧ ¬ AtLimit (solo 6 core1) ∧ Alone (solo 6 { core1 with waitlim := 1 }) ∧
    AtLimit (solo 6 { core1 with waitlim := 1 }) ∧
    [core1, { core1 with waitlim := 1 }].all (fun c =>
      [Instr.cwait 0 1 1 0, .bwait 0 1 1 0, .gwait 0 6 1].all (fun i => (rowWait (solo 6 c) i).isSome)) = true :=
  ⟨core1_alone (by decide), by decide +kernel, solo_alone (by decide) rfl rfl rfl, by decide +kernel, by decide +kernel⟩

theorem witness_HardwiredRegisters : Alone (solo 0 core1) ∧ TagTaken 0 ∧ field (soloControl 0) 21 16 = 0 :=
  ⟨core1_alone (by decide), by decide, by decide +kernel⟩

end Sys2Proof.Tests

end
end

