-- ==== Sys2Proof/Proofs/Scope.lean ====
section
/-! Bundles and steps: the event that is due, and two statements that fail. -/

noncomputable section

namespace Sys2Proof.Proofs

open Sys2Proof.Machine Sys2Proof.Safety

/-- Settles O10: `nextAct` picks the act, and `advance` leaves an event to `exec`. -/
theorem eventStepRunsItsRow : Obligations.EventStepRunsItsRow := by
  intro s i h
  change advance s = exec i s
  rw [advance, h]
  rfl

/-- Core 0 issues a checked bundle of one V slot: BVALID is set, BSRC names s1, and a result for s1 is still on its way. -/
def awaitedBroadcast : State :=
  { State.reset.setCore 0 { Core.reset with
      run := .running, codeHi := 0x1000, chksb := true, pend := [{ due := 9, seq := 0, slot := 0, what := .scalar 1 7 }] } with
    cur := { core := 0, header := 2 ^ 3, w := 2 ^ 22 + 2 ^ 16, len := 9, bytes := 0, fetchFault := none, left := 1, outs := [] } }

/-- The word of a V slot of MAJOR 13 (VADD_I32_BC) with reserved operand bits set. -/
def reservedWord : Nat := 13 * 2 ^ 23 + 511 * 2 ^ 14

/-- What that word decodes to: an illegal opcode of subcode 2. -/
def reservedOperand : Instr := .illegalOpcode 3 2 (BitVec.ofNat 48 reservedWord)

theorem decodeSlot_reservedWord : decodeSlot 3 reservedWord = reservedOperand := by decide +kernel

theorem flowDoes_reservedOperand : flowDoes reservedOperand = some { cls := 3, tag := 0, bc := true } := by
  have htag : tagIn 3 (BitVec.ofNat 48 reservedWord) = 0 := by decide +kernel
  have hbc : decide (namesBroadcast 3 2 (BitVec.ofNat 48 reservedWord)) = true := by decide +kernel
  rw [reservedOperand, flowDoes, htag, hbc]

/-- R10 reports the lowest cause: the illegal opcode (0x03) comes before the short stall (0x04) that `loneTraps` names. -/
theorem tcause_reservedOperand {t : State} (h : exec reservedOperand awaitedBroadcast = .next t) :
    (t.core 0).tcause ≠ ((trapsWith awaitedBroadcast 0x04 0 (some 3) 0 0).core 0).tcause := by
  have hstep : exec reservedOperand awaitedBroadcast =
      execSlot awaitedBroadcast (illegalOut 3 2 (BitVec.ofNat 48 reservedWord)) := rfl
  rw [hstep, execSlot_decides _ (Nat.le_refl 1)] at h
  rw [← Host.Outcome.next.inj h]
  decide +kernel

/-- Refutes O59: a slot with a reserved operand that names an awaited broadcast, in a checked bundle, raises ILLEGAL_OPCODE, a lower
cause than the STALL_SHORT of the statement. -/
theorem not_slotTrapCauses : ¬ Obligations.SlotTrapCauses := by
  rintro ⟨hslot, -⟩
  have hsingle : Single awaitedBroadcast := ⟨rfl, rfl, by decide, rfl, by decide +kernel⟩
  have hlone : loneTraps awaitedBroadcast reservedOperand { cls := 3, tag := 0, bc := true } = some (0x04, 0, some 3, 0) := by
    decide +kernel
  exact tcause_reservedOperand (hslot _ _ _ _ hsingle (.flow _ flowDoes_reservedOperand) hlone) rfl

/-- Logical chip 0xF000, inside the range of the groups, stands for the own chip; core 0 issues an L slot and a C slot, and holds in c1
a sealed capability for the first 64 bytes of its scratchpad by that number. -/
def ownInGroupRange : State :=
  { State.reset.setCore 0 { Core.reset with
      run := .running, codeHi := 0x1000, c := [(1, Cap.make true (0xF000 * 2 ^ 48) 64 1 15 1)] } with
    pmaps := [(0, { PlaceMap.reset with chips := [(0xF000, (0, true))] })]
    cur := { core := 0, header := 5, w := 0, len := 13, bytes := 0, fetchFault := none, left := 2, outs := [] } }

theorem ownInGroupRange_alone : Alone (atLastSlot ownInGroupRange) where
  last := rfl
  first := rfl
  header := by decide
  reserved := by decide +kernel
  extension := by decide +kernel
  line := by decide +kernel
  allotment := by decide +kernel
  fetched := rfl
  quiet := by decide +kernel
  unchecked := .inl ⟨by decide +kernel, by decide +kernel⟩

/-- The load of a byte by that capability runs beside an addition and traps with CAP_PERM (0x0A), subcode 5: the permission that an
address of a group takes. -/
theorem runSlots_ownInGroupRange : ∃ t, runSlots [.addI64 0 0 0 0, .ldB 0 1 1 0] ownInGroupRange = .next t ∧
    (t.core 0).tcause = 0x00A0050A := by
  refine ⟨_, rfl, ?_⟩
  decide +kernel

/-- Refutes O12: where the placement map gives the own chip a number among those of the groups, an access to the own scratchpad needs
permission 5 as well, so the trap is CAP_PERM and not the CAP_SEALED that `ownCheck` gives. -/
theorem not_slotsOfABundleInTurn : ¬ Obligations.SlotsOfABundleInTurn := by
  rintro ⟨-, -, hcheck, -⟩
  have haccess : ownAccessOf ownInGroupRange (.ldB 0 1 1 0) = some (0, 1, 0xF000 * 2 ^ 48, 1, 0) := by decide +kernel
  have hsealed : ownCheck ownInGroupRange (ownInGroupRange.rc 1) (0xF000 * 2 ^ 48) 1 0 = some (0x0B, 0) := by decide +kernel
  have hunordered : Unordered ownInGroupRange := ⟨rfl, fun o ho => absurd ho (List.not_mem_nil)⟩
  have hrun := hcheck ownInGroupRange (.ldB 0 1 1 0) (.addI64 0 0 0 0) { cls := 0, tag := 0 } 0 1 _ 1 0 _ _ rfl rfl
    ownInGroupRange_alone hunordered haccess (by decide) hsealed rfl (by decide)
  have hno : slotTraps { cls := 0, tag := 0 } (atLastSlot ownInGroupRange) = none := by decide +kernel
  obtain ⟨t, ht, hcause⟩ := runSlots_ownInGroupRange
  rw [hno] at hrun
  have hsame := Host.Outcome.next.inj (ht.symm.trans hrun)
  have htrap : ((trapsWith (atLastSlot ownInGroupRange) 0x0B 0 (some 2) 0 (BitVec.ofInt 64 (0xF000 * 2 ^ 48))).core 0).tcause ≠
      0x00A0050A := by decide +kernel
  exact htrap ((congrArg (fun u : State => (u.core 0).tcause) hsame.symm).trans hcause)

end Sys2Proof.Proofs
end
end

