-- ==== Sys2Proof/Proofs/Slots.lean ====
section
/-! What a slot can change, and that every row of the table answers. -/

noncomputable section

namespace Sys2Proof.Proofs

open Sys2Proof.Machine Sys2Proof.Safety

/-- The state `s` with the cores, what they have in flight, and the bundle at issue of `t`. -/
abbrev withCoresOf (s t : State) : State :=
  { s with
    cores := t.cores, accs := t.accs, atoms := t.atoms, slots := t.slots, recs := t.recs, nextId := t.nextId, seq := t.seq,
    cur := t.cur }

/-- A state that a slot may leave: apart from `s` in what cores have in flight and in the bundle at issue, and in the cores of `W`. -/
structure Within (W : Nat → Prop) (s t : State) : Prop where
  rest : t = withCoresOf s t
  others : ∀ k, ¬ W k → t.core k = s.core k

section
variable {W : Nat → Prop} {s t u : State} {n : Nat}

theorem Within.refl (W : Nat → Prop) (s : State) : Within W s s := ⟨rfl, fun _ _ => rfl⟩

theorem Within.trans (h : Within W s t) (h' : Within W t u) : Within W s u where
  rest := by rw [h'.rest, h.rest]
  others k hk := (h'.others k hk).trans (h.others k hk)

theorem Within.setCore (hn : W n) (c : Core) : Within W s (s.setCore n c) where
  rest := rfl
  others _ hk := State.core_setCore_other s c (fun e => hk (e ▸ hn))

/-- A change of what is in flight or of the bundle at issue is within any set of cores. -/
theorem Within.flight (hr : t = withCoresOf s t) (hc : t.cores = s.cores) : Within W s t :=
  ⟨hr, fun k _ => congrArg (fun m => mapGet Core.reset m k) hc⟩

theorem Within.foldl {α : Type} {f : State → α → State} (l : List α) (h : ∀ x ∈ l, ∀ s, Within W s (f s x)) :
    Within W s (l.foldl f s) := by
  induction l generalizing s with
  | nil => exact .refl W s
  | cons x l ih => exact (h x (by simp) s).trans (ih (fun y hy => h y (by simp [hy])))

end

/-! ## Landings -/

/-- What leaves the state as it is, or changes one core. -/
def OneCore (s : State) (n : Nat) (t : State) : Prop := t = s ∨ ∃ c, t = s.setCore n c

theorem OneCore.within {W : Nat → Prop} {s t : State} {n : Nat} (hn : W n) (h : OneCore s n t) : Within W s t := by
  obtain rfl | ⟨c, rfl⟩ := h
  · exact .refl W _
  · exact .setCore hn c

theorem OneCore.ite {p : Prop} [Decidable p] {s t u : State} {n : Nat} (ht : OneCore s n t) (hu : OneCore s n u) :
    OneCore s n (if p then t else u) := by
  split
  · exact ht
  · exact hu

theorem OneCore.same (s : State) (n : Nat) : OneCore s n s := .inl rfl

theorem OneCore.set (s : State) (n : Nat) (c : Core) : OneCore s n (s.setCore n c) := .inr ⟨c, rfl⟩

theorem writeQstat_oneCore (s : State) (n : Nat) (v : Word) : OneCore s n (writeQstat s n v) :=
  .ite (.same ..) (.set ..)

theorem writeCsbase_oneCore (s : State) (n : Nat) (v : Word) : OneCore s n (writeCsbase s n v) :=
  .ite (.same ..) (.set ..)

theorem hctlAct_oneCore (s : State) (n : Nat) (v : Word) : OneCore s n (hctlAct s n v) := by
  unfold hctlAct
  split
  · exact .ite (.same ..) (.ite (.set ..) (.ite (.same ..) (.set ..)))
  · exact .ite (.set ..) (.same ..)
  · exact .ite (.same ..) (.set ..)
  · exact .ite (.same ..) (.set ..)
  · exact .same ..

theorem csWrite_oneCore (s : State) (n i : Nat) (v : Word) : OneCore s n (csWrite s n i v) := by
  unfold csWrite
  dsimp only
  split
  case h_12 => exact writeQstat_oneCore s n v
  case h_26 => exact writeCsbase_oneCore s n v
  case h_40 => exact hctlAct_oneCore s n v
  case h_41 => exact .ite (.set ..) (.ite (.set ..) (.ite (.set ..) (.ite (.set ..) (.same ..))))
  all_goals exact .set ..

theorem applyLand_oneCore (s : State) (n : Nat) (l : Land) : OneCore s n (applyLand s n l) := by
  cases l
  case control i v => exact csWrite_oneCore s n i v
  all_goals exact .set ..

theorem takeTrap_oneCore (s : State) (n num sub : Nat) (slot : Option Nat) (leaf : Nat) (tval : Word) (addr : Nat) :
    OneCore s n (takeTrap s n num sub slot leaf tval addr) :=
  .ite (.set ..) (.ite (.set ..) (.set ..))

/-! ## The commit of a bundle -/

/-- The core that an effect launches (R347). -/
@[simp] def launch : Eff → Option Nat
  | .spawn k _ _ => some k
  | _ => none

/-- The cores that a slot launches. -/
def launched (o : SlotOut) : List Nat := o.effs.filterMap launch

theorem mem_launched {o : SlotOut} {k a b : Nat} (h : .spawn k a b ∈ o.effs) : k ∈ launched o := by
  simp only [launched, List.mem_filterMap]
  exact ⟨_, h, rfl⟩

section
variable {W : Nat → Prop} {n : Nat} (hn : W n)
include hn

theorem startChannel_within (s : State) (ch off g0 : Nat) (cap : Cap) (fetch : Nat) :
    Within W s (startChannel s n ch off g0 cap fetch) :=
  (Within.setCore hn _).trans (.flight rfl rfl)

theorem applyEff_within (s : State) {e : Eff} (he : ∀ k a b, e = .spawn k a b → W k) : Within W s (applyEff s n e) := by
  cases e with
  | loops d top => cases top <;> exact .setCore hn _
  | boundary | softTrap => exact .refl W s
  | access | atom | submit | takeSlot => exact .flight rfl rfl
  | chStart ch off g0 cap => exact startChannel_within hn s ch off g0 cap _
  | chStop ch => exact (OneCore.ite (.set s n _) (.same s n)).within hn
  | spawn k entry first => exact .setCore (he _ _ _ rfl) _
  | tret | yielded | op | fence | busy | mma | arm | disarm => exact .setCore hn _

theorem addPending_within (s : State) (p : Pending) : Within W s (s.addPending n p) := .setCore hn _

theorem commitLand_within (s : State) (cls : Nat) (l : Nat × Land) : Within W s (commitLand s n cls l) := by
  unfold commitLand
  split
  · exact (applyLand_oneCore s n l.2).within hn
  · exact addPending_within hn s _

theorem commitPush_within (s : State) (cls : Nat) (p : Push) : Within W s (commitPush s n cls p) := by
  unfold commitPush
  dsimp only
  split
  · exact (Within.setCore hn _).trans (addPending_within hn _ _)
  · exact (Within.setCore hn _).trans (.flight rfl rfl)

theorem commitQueues_within (s : State) (outs : List SlotOut) : Within W s (commitQueues s n outs) :=
  (Within.foldl _ fun _ _ _ => .setCore hn _).trans
    (Within.foldl _ fun _ _ _ => Within.foldl _ fun p _ s => commitPush_within hn s _ p)

theorem commitSlot_within (s : State) (phases : List (Nat × Land)) {o : SlotOut} (ho : ∀ k ∈ launched o, W k) :
    Within W s (commitSlot s n phases o) :=
  ((Within.foldl _ fun l _ s => commitLand_within hn s o.cls l).trans
    (Within.foldl _ fun x _ s => (applyLand_oneCore s n x.2).within hn)).trans
    (Within.foldl _ fun _ he s => applyEff_within hn s fun _ _ _ h => ho _ (mem_launched (h ▸ he)))

end

/-! ## The decision of a bundle -/

section
variable {W : Nat → Prop} {s : State} {cur : Cur} {outs : List SlotOut} (hn : W cur.core)
  (houts : ∀ o ∈ outs, ∀ k ∈ launched o, W k)
include hn

theorem beginWait_within : Within W s (beginWait s cur.core outs) := by
  unfold beginWait
  dsimp only
  split
  · exact (Within.setCore hn _).trans (.flight rfl rfl)
  · exact .refl W s

theorem holdBundle_within : Within W s (holdBundle s cur.core outs) :=
  (beginWait_within hn).trans (.setCore hn _)

theorem softwareTrap_within (r : Nat) : Within W s (softwareTrap s cur outs r) := by
  unfold softwareTrap
  split
  · exact (takeTrap_oneCore ..).within hn
  · exact .refl W s

include houts

theorem commitBundle_within : Within W s (commitBundle s cur outs) := by
  have hslots (t : State) (phases : List (Nat × Land)) (c : Core) :
      Within W t (((takenSlots outs).foldl (fun s o => commitSlot s cur.core phases o) t).setCore cur.core c) :=
    (Within.foldl _ fun o ho t => commitSlot_within hn t phases (houts o (List.mem_filter.1 ho).1)).trans (.setCore hn c)
  have hcore (phases : List (Nat × Land)) (c : Core) := (commitQueues_within hn s (takenSlots outs)).trans (hslots _ phases c)
  refine Within.trans ?_ (.flight rfl rfl)
  split
  · exact (hcore _ _).trans (.setCore hn _)
  · exact hcore _ _

theorem decideBundle_within : Within W s (decideBundle s cur outs) := by
  unfold decideBundle
  dsimp only
  split
  · exact .flight rfl rfl
  split
  · exact holdBundle_within hn
  split
  · exact (takeTrap_oneCore ..).within hn
  · exact (commitBundle_within hn houts).trans (softwareTrap_within hn _)

end

theorem issueSlot_within {W : Nat → Prop} {s : State} {o : SlotOut} (hn : W s.cur.core)
    (houts : ∀ p ∈ s.cur.outs ++ [o], ∀ k ∈ launched p, W k) : Within W s (issueSlot s o) := by
  unfold issueSlot
  dsimp only
  split
  · exact .flight rfl rfl
  · exact Within.trans (t := { s with cur := { s.cur with outs := [] } }) (.flight rfl rfl) (decideBundle_within hn houts)

/-- What a slot leaves, apart from the cores that it launches. -/
theorem execSlot_within {W : Nat → Prop} {s t : State} {o : SlotOut} (hn : W s.cur.core)
    (houts : ∀ p ∈ s.cur.outs ++ [o], ∀ k ∈ launched p, W k) (h : execSlot s o = .next t) : Within W s t := by
  rw [← Host.Outcome.next.inj h]
  have hw := issueSlot_within hn houts
  refine ⟨?_, hw.others⟩
  conv =>
    lhs
    rw [hw.rest]

/-! ## What each slot issues -/

theorem redirect_launched (o : SlotOut) (x : Int) : launched (redirect o x) = launched o := by
  unfold redirect
  split <;> rfl

theorem loopOpen_launched (s : State) (t : BitVec 3) (rs : List Reg) (k : BitVec 32) (x : Int) :
    launched (loopOpen s (ctlForm t rs) k x) = [] := by
  unfold loopOpen
  dsimp only
  split
  · rw [redirect_launched]
    rfl
  · split <;> rfl

theorem loopClose_launched (s : State) (t : BitVec 3) (rs : List Reg) : launched (loopClose s (ctlForm t rs)) = [] := by
  unfold loopClose
  dsimp only
  split
  · rfl
  · split <;> rfl

theorem treeOut_launched (s : State) (nt st : Nat) (tests offs : List Nat) (must : Bool) :
    launched (treeOut s nt st tests offs must) = [] := by
  unfold treeOut
  dsimp only
  split
  · split
    · rfl
    · rw [redirect_launched]
      rfl
  · rfl

/-- An access adds effects, none of them a launch. -/
theorem accessSlot_launched (s : State) (o : SlotOut) (q : Request) (m : Move) : launched (accessSlot s o q m) = launched o := by
  unfold accessSlot
  dsimp only
  split
  · rfl
  · simp [launched, List.filterMap_append, List.filterMap_eq_nil_iff]
    exact ⟨by rintro _ _ _ rfl; rfl, by rintro _ _ _ _ _ rfl; rfl⟩

theorem loadPush_launched {o : SlotOut} (h : launched o = []) (q : Nat) : launched (loadPush o q) = [] := by
  unfold launched loadPush at *
  rw [List.filterMap_eq_nil_iff] at *
  exact fun e he => h e (List.mem_filter.1 he).1

theorem vectorLoad_launched (s : State) (t : BitVec 3) (v : BitVec 9) (c : BitVec 4) (r : BitVec 6) (b m : Bool) :
    launched (vectorLoad s t v c r b m) = [] := by
  unfold vectorLoad
  dsimp only
  split
  · rfl
  · exact loadPush_launched (accessSlot_launched ..) _

theorem vectorStore_launched (s : State) (t : BitVec 3) (v : BitVec 9) (p : BitVec 1) (c : BitVec 4) (r : BitVec 6) (b m : Bool) :
    launched (vectorStore s t v p c r b m) = [] := by
  unfold vectorStore
  dsimp only
  split
  · rfl
  · exact accessSlot_launched ..

theorem takeSlot_launched (o : Option Nat) (k : Nat) :
    (o.map (fun i => Eff.takeSlot i k)).toList.filterMap launch = [] := by
  cases o <;> simp

theorem atomicSlot_launched (s : State) (t : BitVec 3) (d : BitVec 6) (c : BitVec 4) (r : BitVec 6) (k : BitVec 3) (o : BitVec 2)
    (kind : AtomOp) : launched (atomicSlot s t d c r k o kind) = [] := by
  unfold atomicSlot
  dsimp only
  split
  · rfl
  · simp only [launched, List.filterMap_append, takeSlot_launched]; rfl

theorem counterAdd_launched (s : State) (t : BitVec 3) (x : BitVec 6) (y : BitVec 4) (addr : Int) (size : Nat) (kind : AtomOp) :
    launched (counterAdd s t x y addr size kind) = [] := by
  unfold counterAdd
  dsimp only
  split
  · rfl
  · simp only [launched, List.filterMap_append, takeSlot_launched]; rfl

theorem tileMove_launched (s : State) (t : BitVec 3) (u c : BitVec 4) (r : BitVec 6) (off size : Nat) (store : Bool) :
    launched (tileMove s t u c r off size store) = [] := by
  unfold tileMove
  dsimp only
  split
  · rfl
  · simp [launched, List.filterMap_eq_nil_iff]

theorem waitSlot_launched (s : State) (t : BitVec 3) (x : BitVec 6) (y : BitVec 4) (kind : WaitKind) (addr : Int) (size : Nat) :
    launched (waitSlot s t x y kind addr size) = [] := by
  unfold waitSlot
  split <;> rfl

/-- A slot instruction issues one slot, and none but SPAWN launches a core. -/
theorem exec_eq_execSlot {i : Instr} {k : Nat} (s : State) (h : slotClass i = some k) :
    ∃ o, exec i s = execSlot s o ∧ ((∀ a x y d, i ≠ .spawn a x y d) → launched o = []) := by
  cases i
  all_goals cases h
  case spawn => exact ⟨_, rfl, fun h => absurd rfl (h _ _ _ _)⟩
  case tree => exact ⟨_, rfl, fun _ => treeOut_launched ..⟩
  case br =>
    refine ⟨_, rfl, fun _ => ?_⟩
    split
    · exact redirect_launched ..
    · rfl
  case jmp | call | jr | callr | tret => exact ⟨_, rfl, fun _ => redirect_launched ..⟩
  case loop | loopi => exact ⟨_, rfl, fun _ => loopOpen_launched ..⟩
  case endloop => exact ⟨_, rfl, fun _ => loopClose_launched ..⟩
  case lpop | nextt =>
    refine ⟨_, rfl, fun _ => ?_⟩
    split <;> rfl
  case ldB | ldH | ldW | ldD | stB | stH | stW | stD | qpush | qpushRel | cld | cst | ldxD | stxD =>
    exact ⟨_, rfl, fun _ => accessSlot_launched ..⟩
  case ldvW | ldvsW | ldvmW | ldvsmW => exact ⟨_, rfl, fun _ => vectorLoad_launched ..⟩
  case stvW | stvsW | stvmW | stvsmW => exact ⟨_, rfl, fun _ => vectorStore_launched ..⟩
  case aswapD | acasD | aaddD | aminD | amaxD | aandD | aorD | axorD => exact ⟨_, rfl, fun _ => atomicSlot_launched ..⟩
  case cadd | badd => exact ⟨_, rfl, fun _ => counterAdd_launched ..⟩
  case tld | tldX | tldSc | tst | tstX | tstSc => exact ⟨_, rfl, fun _ => tileMove_launched ..⟩
  case cwait | bwait | gwait => exact ⟨_, rfl, fun _ => waitSlot_launched ..⟩
  case trel =>
    refine ⟨_, rfl, fun _ => ?_⟩
    simp [launched, List.filterMap_eq_nil_iff]
  all_goals exact ⟨_, rfl, fun _ => rfl⟩

/-- Settles O17: what a slot changes is what `decideBundle` changes, the core of the bundle and those that a SPAWN launches included. -/
theorem slotsLeaveTheRest : Obligations.SlotsLeaveTheRest := by
  intro i k s t hclass hexec
  obtain ⟨o, ho, -⟩ := exec_eq_execSlot s hclass
  rw [ho] at hexec
  exact (execSlot_within (W := fun _ => True) trivial (fun _ _ _ _ => trivial) hexec).rest

/-- Settles O18: without a launch among the effects, the commit and the trap of a bundle write its own core only. -/
theorem oneCoreAtATime : Obligations.OneCoreAtATime := by
  intro i k s t hclass hspawn houts hexec n hn
  obtain ⟨o, ho, hlaunched⟩ := exec_eq_execSlot s hclass
  rw [ho] at hexec
  refine (execSlot_within (W := fun n => n = s.cur.core) rfl ?_ hexec).others n hn
  simp [houts, hlaunched hspawn]

/-! ## Every instruction and every event answers -/

/-- An outcome that is a next state. -/
def Answers (o : Host.Outcome State Fault Refusal) : Prop := ∃ t, o = .next t

theorem stepLeaf_answers (s : State) (opc : Nat) (q : GtsRec) (f : LeafJob → LeafResult) : Answers (stepLeaf s opc q f) := by
  unfold stepLeaf
  split
  · split <;> exact ⟨_, rfl⟩
  · exact ⟨_, rfl⟩

theorem linkStep_answers (s : State) (i : Instr) (f : State → Nat → LinkEntry → Except Nat State) : Answers (linkStep s i f) := by
  unfold linkStep
  split <;> exact ⟨_, rfl⟩

theorem handOver_answers (s : State) (opc : Nat) (q : GtsRec) : Answers (handOver s opc q) := by
  unfold handOver
  split <;> exact ⟨_, rfl⟩

theorem collStep_answers (s : State) (chip l : Nat) (w : BitVec 128) (f : Nat → List StepWrite) :
    Answers (collStep s chip l w f) := by
  unfold collStep
  split <;> exact ⟨_, rfl⟩

theorem commandStep_answers (s : State) (chip kind : Nat) (f : State → Nat → State) : Answers (commandStep s chip kind f) := by
  unfold commandStep
  split
  · split <;> exact ⟨_, rfl⟩
  · exact ⟨_, rfl⟩

/-- Every row of an event is a nest of choices, and each ends in a next state. -/
theorem exec_answers_of_event {i : Instr} (s : State) (h : slotClass i = none) : Answers (exec i s) := by
  cases i
  all_goals cases h
  case send | sendSig | land | fwd | redAddF32 | redAddBf16 | redAddI32 | redMaxF32 | redMaxBf16 | redMaxI32 | guard | linkLoop | endl
    | mark | ckpt | fill | delv | slot | serve | halt | reservedOpc => exact linkStep_answers ..
  case gcopy | gconv | gfill | gelt | gelts | gmma | gmmaz | gscan | gred | ggather | gbprod | gbdraw => exact stepLeaf_answers ..
  case gagather | grscat | gared | ga2a => exact handOver_answers ..
  case topk | scadd | q4 | dq4add => exact collStep_answers ..
  case write | read | capset | launch | mapset =>
    dsimp only [exec, execWrite, execRead, execCapset, execLaunch, execMapset]
    exact commandStep_answers ..
  case hostGtsRecord =>
    dsimp only [exec, execHostGtsRecord]
    split
    · exact commandStep_answers ..
    · exact ⟨_, rfl⟩
  case tileChunkMove | memoryAccessPerform | atomicExecute | leaseExpiry | recordFetch | granuleTransfer | countedRecordAdd |
    thresholdAction | yieldCounterAdd =>
    dsimp only [exec, execTileChunkMove, execMemoryAccessPerform, execAtomicExecute, execLeaseExpiry, execRecordFetch,
      execGranuleTransfer, execCountedRecordAdd, execThresholdAction, execYieldCounterAdd]
    repeat' split
    all_goals exact ⟨_, rfl⟩
  case deferredEventTaken | watchdog | waitWatchdog | preemptTimeout | contextSave | resumeStart | restore | preemptionPly |
    pauseStoreRelease =>
    dsimp only [exec, execDeferredEventTaken, execWatchdog, execWaitWatchdog, execPreemptTimeout, execContextSave, execResumeStart,
      execRestore, execPreemptionPly, execPauseStoreRelease]
    repeat' split
    all_goals exact ⟨_, rfl⟩
  case gnop | gcwait | recordAcceptance | leafDispatch | leafStart | leafEnd | recordCompletion | collectiveStart |
    collectiveCompletion =>
    dsimp only [exec, execGnop, execGcwait, execRecordAcceptance, execLeafDispatch, execLeafStart, execLeafEnd, execRecordCompletion,
      execCollectiveStart, execCollectiveCompletion]
    repeat' split
    all_goals exact ⟨_, rfl⟩
  case nakReceipt | parityArrival | missingFlitDetection | guardInterval | exchangeSendTime | exchangeReceiptTime | phaseCorrection |
    damagedMessage | flitArrival | replyArrival =>
    dsimp only [exec, execNakReceipt, execParityArrival, execMissingFlitDetection, execGuardInterval, execExchangeSendTime,
      execExchangeReceiptTime, execPhaseCorrection, execDamagedMessage, execFlitArrival, execReplyArrival]
    repeat' split
    all_goals exact ⟨_, rfl⟩
  case tempoNotice | preemptionNotice | resumeNotice | faultNotice | tempoDRequest | slowDownNotice | dHoldEnd | thermalStepUp |
    capLeaseExpiry | converterSwitch | tempoChange | haltPly | replayPly | managementWatchdog | selfTest =>
    dsimp only [exec, execTempoNotice, execPreemptionNotice, execResumeNotice, execFaultNotice, execTempoDRequest, execSlowDownNotice,
      execDHoldEnd, execThermalStepUp, execCapLeaseExpiry, execConverterSwitch, execTempoChange, execHaltPly, execReplayPly,
      execManagementWatchdog, execSelfTest]
    repeat' split
    all_goals exact ⟨_, rfl⟩
  case badCommand | hostTransferCompletion =>
    dsimp only [exec, execBadCommand, execHostTransferCompletion]
    repeat' split
    all_goals exact ⟨_, rfl⟩
  all_goals exact ⟨_, rfl⟩

theorem exec_answers (i : Instr) (s : State) : Answers (exec i s) := by
  cases h : slotClass i with
  | none => exact exec_answers_of_event s h
  | some k =>
    obtain ⟨o, ho, -⟩ := exec_eq_execSlot s h
    exact ⟨_, ho⟩

theorem runSlots_answers (is : List Instr) (s : State) : Answers (runSlots is s) := by
  induction is generalizing s with
  | nil => exact ⟨s, rfl⟩
  | cons i is ih =>
    obtain ⟨t, ht⟩ := exec_answers i s
    rw [runSlots, ht]
    exact ih t

theorem earlyAct_answers (s : State) (a : Act) : Answers (earlyAct s a) := by
  cases a with
  | event i => exact exec_answers i s
  | delay k =>
    rw [earlyAct]
    split <;> exact ⟨_, rfl⟩
  | issue n => exact runSlots_answers _ _
  | input =>
    dsimp only [earlyAct]
    split
    · split
      · exact exec_answers _ _
      · exact ⟨_, rfl⟩
      · exact ⟨_, rfl⟩
    · exact ⟨_, rfl⟩
  | foresee | settle | tick => exact ⟨_, rfl⟩

/-- Settles O13: every row answers, and a step runs rows, or the two acts of the model that answer by themselves. -/
theorem everyStepAnswers : Obligations.EveryStepAnswers := by
  refine ⟨exec_answers, fun s => ?_⟩
  change Answers (advance s)
  unfold advance
  split
  · exact ⟨_, rfl⟩
  · exact ⟨_, rfl⟩
  · exact earlyAct_answers s _

end Sys2Proof.Proofs
end
end

