-- ==== Sys2Proof/Proofs/Ply.lean ====
section
/-! The passing of a ply. -/

noncomputable section

namespace Sys2Proof.Proofs

open Sys2Proof.Machine Sys2Proof.Safety

/-! ## What leaves the ply counter as it is -/

theorem foldl_now {α : Type} {f : State → α → State} (h : ∀ s x, (f s x).now = s.now) (l : List α) (s : State) :
    (l.foldl f s).now = s.now := by
  induction l generalizing s with
  | nil => rfl
  | cons x l ih => rw [List.foldl_cons, ih, h]

theorem ite_now {p : Prop} [Decidable p] {s t u : State} (ht : t.now = s.now) (hu : u.now = s.now) :
    (if p then t else u).now = s.now := by
  split
  · exact ht
  · exact hu

/-! ## Cores -/

@[simp] theorem raiseDeferred_now (s : State) (n : Nat) (d : Deferred) : (raiseDeferred s n d).now = s.now :=
  ite_now rfl rfl

@[simp] theorem settleTails_now (s : State) (n ch : Nat) (ts : List CopyTail) : (settleTails s n ch ts).now = s.now := by
  induction ts generalizing s with
  | nil => rfl
  | cons t ts ih =>
    rw [settleTails, ih]
    split
    · rfl
    · split <;> rfl

@[simp] theorem endChannel_now (s : State) (n ch : Nat) : (endChannel s n ch).now = s.now := by
  unfold endChannel
  dsimp only
  split
  · rfl
  · split
    · split
      · rfl
      · exact raiseDeferred_now ..
    · rfl
    · split <;> rfl
    · split <;> rfl

@[simp] theorem settleChannels_now (s : State) (n : Nat) : (settleChannels s n).now = s.now := by
  refine foldl_now (fun s ch => ?_) _ s
  split
  · rw [endChannel_now, settleTails_now]
  · rfl

@[simp] theorem endStop_now (s : State) (n : Nat) : (endStop s n).now = s.now := by
  unfold endStop
  dsimp only
  split
  · rfl
  · split <;> rfl

@[simp] theorem endSave_now (s : State) (n : Nat) : (endSave s n).now = s.now := by
  unfold endSave
  dsimp only
  split
  · split <;> rfl
  · rfl

@[simp] theorem endRestore_now (s : State) (n : Nat) : (endRestore s n).now = s.now := by
  unfold endRestore
  dsimp only
  split
  · split <;> rfl
  · rfl

theorem endPlyCore_now (s : State) (n : Nat) : (endPlyCore s n).now = s.now := by
  simp [endPlyCore]

@[simp] theorem readArms_now (s : State) (n : Nat) : (readArms s n).now = s.now :=
  ite_now rfl rfl

@[simp] theorem countPly_now (s : State) (n : Nat) : (countPly s n).now = s.now :=
  ite_now rfl rfl

theorem startPlyCore_now (s : State) (n : Nat) : (startPlyCore s n).now = s.now := by
  rw [startPlyCore, countPly_now, readArms_now]
  rfl

/-! ## Links -/

@[simp] theorem charge_now (s : State) (chip ply : Nat) (tag : BitVec 16) (pj : Nat) : (charge s chip ply tag pj).now = s.now := by
  unfold charge
  split <;> rfl

theorem transmit_now (s : State) (x : OutFlit) : (transmit s x).now = s.now := by
  unfold transmit
  split
  · rfl
  · split
    · rfl
    · exact charge_now ..

@[simp] theorem sendUp_now (s : State) (chip src ready : Nat) (bits : BitVec 128) : (sendUp s chip src ready bits).now = s.now := by
  unfold sendUp
  split <;> rfl

theorem sendWord_now (s : State) (p : Nat) : (sendWord s p).now = s.now := by
  unfold sendWord
  dsimp only
  split
  · rfl
  · split
    · rfl
    · split
      · rfl
      · split <;> rfl

theorem takeWord_now (s : State) (c : Ctrl) : (takeWord s c).now = s.now := by
  unfold takeWord
  dsimp only
  split
  · rfl
  · rfl
  · split <;> rfl
  · split <;> rfl

@[simp] theorem takeWords_now (s : State) : (takeWords s).now = s.now := foldl_now takeWord_now ..

@[simp] theorem sendNotice_now (s : State) (p ev t : Nat) : (sendNotice s p ev t).now = s.now := by
  unfold sendNotice
  dsimp only
  split
  · rfl
  · exact sendUp_now ..

@[simp] theorem failPort_now (s : State) (p sub : Nat) (locked : Bool) : (failPort s p sub locked).now = s.now := by
  unfold failPort
  dsimp only
  split
  · rfl
  · exact sendNotice_now ..

@[simp] theorem engineFault_now (s : State) (p sub : Nat) : (engineFault s p sub).now = s.now := failPort_now ..

theorem planLink_now (s : State) (p order ply : Nat) (i : Instr) : (planLink s p order ply i).now = s.now := by
  unfold planLink
  dsimp only
  split
  · rfl
  · split <;> rfl

theorem readLink_now {s t : State} {p lim : Nat} (h : readLink s p lim = some t) : t.now = s.now := by
  unfold readLink at h
  extract_lets e m i ply bad dst entry e1 s1 at h
  split at h
  · cases h
  · split at h
    · cases h
    · obtain rfl := Option.some.inj h
      exact ite_now rfl (planLink_now ..)

theorem readAhead_now (k : Nat) (s : State) (p lim : Nat) : (readAhead k s p lim).now = s.now := by
  induction k generalizing s with
  | zero => rfl
  | succ k ih =>
    rw [readAhead]
    split
    · rw [ih, readLink_now ‹_›]
    · rfl

/-- LOOP and ENDL leave the state that they issue into, or stop the engine. -/
theorem issueEntry_turnLoop_now (s : State) (p : Nat) (x : LinkEntry) : (issueEntry s p x (turnLoop s)).now = s.now := by
  unfold issueEntry turnLoop
  dsimp only
  split
  · rename_i t ht
    split at ht
    · cases ht
    · split at ht
      · cases ht
      · split at ht
        · cases ht
        · cases ht
          rfl
  · exact engineFault_now ..

theorem actLoops_now (k : Nat) (s : State) (p : Nat) : (actLoops k s p).now = s.now := by
  induction k generalizing s with
  | zero => rfl
  | succ k ih =>
    rw [actLoops]
    split
    · split
      · rw [ih, issueEntry_turnLoop_now]
      · rfl
    · rfl

theorem dropReply_now (s : State) (c : Claim) : (dropReply s c).now = s.now := by
  unfold dropReply
  split <;> rfl

@[simp] theorem loadPause_now (s : State) (p q : Nat) : (loadPause s p q).now = s.now := by
  unfold loadPause
  dsimp only
  split
  · exact engineFault_now ..
  · rfl

theorem turnEngine_now (s : State) (p : Nat) : (turnEngine s p).now = s.now := by
  unfold turnEngine
  dsimp only
  split
  · rfl
  · split
    · rfl
    · split
      · exact loadPause_now ..
      · split <;> rfl

theorem addStored_now (s : State) (p : Nat) : (addStored s p).now = s.now := by
  unfold addStored
  split
  · split
    · rfl
    · refine foldl_now (fun t pos => ?_) _ s
      dsimp only
      split <;> rfl
  · rfl

theorem checkPort_now (s : State) (p : Nat) : (checkPort s p).now = s.now := by
  unfold checkPort
  extract_lets s1 s2
  have hclaim : s1.now = s.now := by
    unfold s1
    split
    · exact engineFault_now ..
    · rfl
  have hsend : s2.now = s1.now := by
    unfold s2
    split
    · exact engineFault_now ..
    · rfl
  rw [← hclaim, ← hsend]
  exact ite_now (engineFault_now ..) rfl

@[simp] theorem startMarks_now (s : State) : (startMarks s).now = s.now := by
  rw [startMarks, foldl_now]
  exact fun _ _ => rfl

theorem departPort_now (s : State) (p : Nat) : (departPort s p).now = s.now := foldl_now transmit_now ..

@[simp] theorem startPlyLinks_now (s : State) : (startPlyLinks s).now = s.now := by
  have hread (s : State) (p : Nat) : (actLoops readLimit (readDue s p) p).now = s.now := by
    rw [actLoops_now, readDue, readAhead_now]
  simp only [startPlyLinks, startMarks_now, foldl_now checkPort_now, foldl_now addStored_now, foldl_now hread,
    foldl_now turnEngine_now, takeWords_now]

@[simp] theorem endPlyLinks_now (s : State) : (endPlyLinks s).now = s.now := by
  simp only [endPlyLinks, foldl_now dropReply_now, foldl_now sendWord_now, foldl_now departPort_now]

/-! ## Packages and the host -/

theorem joinPod_now (s : State) (chip : Nat) : (joinPod s chip).now = s.now := by
  unfold joinPod
  exact ite_now rfl rfl

theorem startPlyChip_now (s : State) (chip : Nat) : (startPlyChip s chip).now = s.now := by
  rw [startPlyChip, joinPod_now]
  split <;> rfl

theorem produce_now (s : State) (e : HostEvent) : (produce s e).now = s.now :=
  ite_now rfl rfl

@[simp] theorem takeCharges_now (s : State) : (takeCharges s).now = s.now :=
  foldl_now (f := takeCharge) (fun _ _ => rfl) ..

@[simp] theorem flushEvents_now (s : State) : (flushEvents s).now = s.now := foldl_now produce_now ..

@[simp] theorem landHostWrites_now (s : State) : (landHostWrites s).now = s.now := by
  refine foldl_now (fun t x => ?_) _ s
  split
  · split <;> rfl
  · rfl

/-! ## The ply -/

@[simp] theorem endPly_now (s : State) : (endPly s).now = s.now := by
  have hchip (s : State) (chip : Nat) : (endPlyChip s chip).now = s.now := rfl
  simp only [endPly, foldl_now hchip, flushEvents_now, takeCharges_now, landHostWrites_now, endPlyLinks_now,
    foldl_now endPlyCore_now]

@[simp] theorem startPly_now (s : State) : (startPly s).now = s.now := by
  simp only [startPly, sampleStores, foldl_now startPlyChip_now, startPlyLinks_now, foldl_now startPlyCore_now]

theorem tick_now (s : State) : (tick s).now = s.now + 1 := by
  rw [tick, startPly_now, nextPly, endPly_now]

/-- PLY of every core is the ply counter (R33). -/
theorem csRead_ply (s : State) (n : Nat) : csRead s n 0x01 = BitVec.ofNat 64 s.now := rfl

/-- Settles O19: of the end of a ply and the start of the next, `nextPly` alone writes the ply counter. -/
theorem plyPasses : Obligations.PlyPasses := by
  intro s h
  have hstep : step s = finishSame s (tick s) := by
    rw [step, advance, h]
  refine ⟨_, hstep, tick_now s, fun n => ?_⟩
  change BitVec.ofNat 64 (tick s).now = _
  rw [tick_now, BitVec.ofNat_add]
  rfl

end Sys2Proof.Proofs
end
end

