-- ==== Sys2Proof/Proofs/Scalar.lean ====
section
/-! The register forms of scalar arithmetic. -/

noncomputable section

namespace Sys2Proof.Proofs

open Sys2Proof.Machine Sys2Proof.Safety

/-! ## The operations on n-bit values, as the rules write them (R100) -/

theorem toBits_eq_ofInt (n : Nat) (v : Int) : toBits n v = BitVec.ofInt n v := by
  apply BitVec.eq_of_toNat_eq
  have hlt : (v % (2 ^ n : Nat)).toNat < 2 ^ n := by
    have := Int.emod_lt_of_pos v (b := (2 ^ n : Nat)) (by exact_mod_cast Nat.two_pow_pos n)
    omega
  rw [toBits, lowBits, BitVec.toNat_ofNat, Nat.mod_eq_of_lt hlt, BitVec.toNat_ofInt]

theorem satS_eq_clampS (v : Int) (n : Nat) : satS v n = clampS n v := by
  have : 0 < (2 : Int) ^ (n - 1) := Int.pow_pos (by decide)
  simp only [satS, clampS, Int.natCast_pow, Int.cast_ofNat_Int]
  split
  · omega
  · split <;> omega

theorem satU_eq_clampU (v : Int) (n : Nat) : satU v n = clampU n v := by
  have : 0 < (2 : Int) ^ n := Int.pow_pos (by decide)
  simp only [satU, clampU, Int.natCast_pow, Int.cast_ofNat_Int]
  split
  · omega
  · split <;> omega

section
variable {n : Nat} (a b : BitVec n)

theorem aluAdd_eq : aluAdd a b = BitVec.ofInt n (a.toInt + b.toInt) := by
  rw [BitVec.ofInt_add, BitVec.ofInt_toInt, BitVec.ofInt_toInt, aluAdd]

theorem aluSub_eq : aluSub a b = BitVec.ofInt n (a.toInt - b.toInt) := by
  rw [Int.sub_eq_add_neg, BitVec.ofInt_add, BitVec.ofInt_neg, BitVec.ofInt_toInt, BitVec.ofInt_toInt, aluSub, BitVec.sub_eq_add_neg]

theorem aluMul_eq : aluMul a b = BitVec.ofInt n (a.toInt * b.toInt) := by
  rw [BitVec.ofInt_mul, BitVec.ofInt_toInt, BitVec.ofInt_toInt, aluMul]

theorem aluSll_eq : aluSll a b = BitVec.ofInt n (a.toInt * 2 ^ (b.toNat % n)) := by
  have hpow : BitVec.ofInt n (2 ^ (b.toNat % n)) = BitVec.twoPow n (b.toNat % n) := by
    apply BitVec.eq_of_toNat_eq
    rw [BitVec.toNat_twoPow, ← Int.cast_ofNat_Int, ← Int.natCast_pow, BitVec.ofInt_natCast, BitVec.toNat_ofNat]
  rw [BitVec.ofInt_mul, BitVec.ofInt_toInt, hpow, aluSll, BitVec.shiftLeft_eq_mul_twoPow]

theorem aluSrl_eq : aluSrl a b = BitVec.ofInt n ((a.toNat : Int) / 2 ^ (b.toNat % n)) := by
  have hdiv : ((a.toNat : Int) / 2 ^ (b.toNat % n)) = ((a >>> (b.toNat % n)).toNat : Int) := by
    rw [BitVec.toNat_ushiftRight, Nat.shiftRight_eq_div_pow]
    norm_cast
  rw [hdiv, BitVec.ofInt_natCast, BitVec.ofNat_toNat, BitVec.setWidth_eq, aluSrl]

theorem aluSra_eq : aluSra a b = BitVec.ofInt n (a.toInt / 2 ^ (b.toNat % n)) := by
  rw [aluSra, BitVec.sshiftRight, Int.shiftRight_eq_div_pow]
  norm_cast

theorem aluMulh_eq : aluMulh a b = BitVec.ofInt n (a.toInt * b.toInt / 2 ^ n) := by
  rw [aluMulh, toBits_eq_ofInt]
  norm_cast

theorem aluMulhu_eq : aluMulhu a b = BitVec.ofInt n ((a.toNat : Int) * b.toNat / 2 ^ n) := by
  rw [aluMulhu, Nat.shiftRight_eq_div_pow, ← BitVec.ofInt_natCast]
  norm_cast

theorem aluAdds_eq : aluAdds a b = BitVec.ofInt n (clampS n (a.toInt + b.toInt)) := by
  rw [aluAdds, toBits_eq_ofInt, satS_eq_clampS]

theorem aluSubs_eq : aluSubs a b = BitVec.ofInt n (clampS n (a.toInt - b.toInt)) := by
  rw [aluSubs, toBits_eq_ofInt, satS_eq_clampS]

theorem aluAddsu_eq : aluAddsu a b = BitVec.ofInt n (clampU n ((a.toNat : Int) + b.toNat)) := by
  rw [aluAddsu, toBits_eq_ofInt, satU_eq_clampU]

theorem aluSubsu_eq : aluSubsu a b = BitVec.ofInt n (clampU n ((a.toNat : Int) - b.toNat)) := by
  rw [aluSubsu, toBits_eq_ofInt, satU_eq_clampU]

theorem aluMin_eq : aluMin a b = BitVec.ofInt n (min a.toInt b.toInt) := by
  unfold aluMin
  split
  · rw [Int.min_eq_left (by omega), BitVec.ofInt_toInt]
  · rw [Int.min_eq_right (by omega), BitVec.ofInt_toInt]

theorem aluMax_eq : aluMax a b = BitVec.ofInt n (max a.toInt b.toInt) := by
  unfold aluMax
  split
  · rw [Int.max_eq_right (by omega), BitVec.ofInt_toInt]
  · rw [Int.max_eq_left (by omega), BitVec.ofInt_toInt]

theorem ofInt_toNat : BitVec.ofInt n (a.toNat : Int) = a := by
  rw [BitVec.ofInt_natCast, BitVec.ofNat_toNat, BitVec.setWidth_eq]

theorem aluMinu_eq : aluMinu a b = BitVec.ofInt n (min (a.toNat : Int) b.toNat) := by
  unfold aluMinu
  split
  · rw [Int.min_eq_left (by omega), ofInt_toNat]
  · rw [Int.min_eq_right (by omega), ofInt_toNat]

theorem aluMaxu_eq : aluMaxu a b = BitVec.ofInt n (max (a.toNat : Int) b.toNat) := by
  unfold aluMaxu
  split
  · rw [Int.max_eq_right (by omega), ofInt_toNat]
  · rw [Int.max_eq_left (by omega), ofInt_toNat]

end

/-! ## Counts of bits -/

theorem countP_above (m n : Nat) : (List.range n).countP (fun i => decide (m < i)) = n - 1 - m := by
  induction n with
  | zero => simp
  | succ n ih =>
    rw [List.range_succ, List.countP_append, ih, List.countP_singleton]
    split <;> simp_all <;> omega

theorem leadingZeros_eq_clzOf {n x : Nat} (h : x < 2 ^ n) : leadingZeros n x = clzOf n x := by
  rw [leadingZeros, Nat.mod_eq_of_lt h]
  split
  · subst_vars
    simp only [clzOf, Nat.two_pow_pos, decide_true, List.countP_true, List.length_range]
  · simp only [clzOf, ← Nat.log2_lt ‹_›, countP_above]

theorem trailingZeros_eq_ctzOf (n x : Nat) : trailingZeros n x = ctzOf n x := by
  induction n generalizing x with
  | zero => rfl
  | succ n ih =>
    have hhalf (i : Nat) : x % 2 ^ (i + 1 + 1) = x % 2 + 2 * (x / 2 % 2 ^ (i + 1)) := by
      rw [Nat.pow_succ', Nat.mod_mul]
    simp only [trailingZeros, ih, ctzOf, List.range_succ_eq_map, List.countP_cons, List.countP_map, Function.comp_def, hhalf]
    split
    · simp_all
    · have : x % 2 = 0 := by omega
      have hzero (y : Nat) : 2 * y = 0 ↔ y = 0 := by omega
      simp only [Nat.zero_add, Nat.pow_one, this, hzero, decide_true, if_true]
      exact Nat.add_comm ..

theorem popCount_eq_onesOf (n x : Nat) : popCount n x = onesOf n x := by
  induction n generalizing x with
  | zero => rfl
  | succ n ih =>
    simp only [popCount, ih, onesOf, List.range_succ_eq_map, List.countP_cons, List.countP_map, Function.comp_def,
      Nat.succ_eq_add_one, Nat.testBit_succ, Nat.testBit_zero]
    rcases Nat.mod_two_eq_zero_or_one x with h | h
    · simp [h]
    · simp [h, Nat.add_comm]

section
variable {n : Nat} (a : BitVec n)

theorem aluClz_eq : aluClz a = BitVec.ofInt n (clzOf n a.toNat) := by
  rw [aluClz, leadingZeros_eq_clzOf a.isLt, BitVec.ofInt_natCast]

theorem aluCtz_eq : aluCtz a = BitVec.ofInt n (ctzOf n a.toNat) := by
  rw [aluCtz, trailingZeros_eq_ctzOf, BitVec.ofInt_natCast]

theorem aluPopc_eq : aluPopc a = BitVec.ofInt n (onesOf n a.toNat) := by
  rw [aluPopc, popCount_eq_onesOf, BitVec.ofInt_natCast]

end

/-! ## The register forms -/

/-- What a register form issues. -/
def IssuesForm (s : State) (i : Instr) (d : Does) : Prop :=
  ∃ t r a b lat v, exec i s = execSlot s (regForm t r a b lat v) ∧ lat ≠ 0 ∧ d = writes 0 t r lat v

theorem regForm_done {s : State} (h : Alone s) {t : BitVec 3} {r a b : BitVec 6} {lat : Nat} {v : Word} (hlat : lat ≠ 0)
    (hr : (writes 0 t r lat v).ready s) : execSlot s (regForm t r a b lat v) = .next ((writes 0 t r lat v).done s) := by
  have hz : ∀ l ∈ (writes 0 t r lat v).lands, l.1 = 0 → l.2.atOnce = true := by
    intro l hl h0
    simp only [writes] at hl
    split at hl <;> simp_all
  exact execSlot_does h hr rfl rfl rfl rfl rfl rfl rfl rfl rfl rfl rfl (Nat.zero_le 2) rfl rfl rfl rfl hz

theorem row64_issues {s : State} {i : Instr} {d : Does} (h : row64 s i = some d) : IssuesForm s i d := by
  unfold row64 at h
  split at h
  all_goals cases h
  all_goals
    refine ⟨_, _, _, _, _, _, rfl, by decide, ?_⟩
    simp only [word, sw, uw, aluAdd_eq, aluSub_eq, aluSll_eq, aluSrl_eq, aluSra_eq, aluMul_eq, aluMulh_eq, aluMulhu_eq, aluAdds_eq,
      aluSubs_eq, aluAddsu_eq, aluSubsu_eq, aluMin_eq, aluMax_eq, aluMinu_eq, aluMaxu_eq, aluClz_eq, aluCtz_eq, aluPopc_eq,
      aluAnd, aluOr, aluXor, aluAndn]

theorem row32_issues {s : State} {i : Instr} {d : Does} (h : row32 s i = some d) : IssuesForm s i d := by
  unfold row32 at h
  split at h
  all_goals cases h
  all_goals
    refine ⟨_, _, _, _, _, _, rfl, by decide, ?_⟩
    simp only [half, sw32, uw32, widen32, low32, aluAdd_eq, aluSub_eq, aluSll_eq, aluSrl_eq, aluSra_eq, aluMul_eq, aluMulh_eq,
      aluMulhu_eq, aluAdds_eq, aluSubs_eq, aluAddsu_eq, aluSubsu_eq, aluMin_eq, aluMax_eq, aluMinu_eq, aluMaxu_eq, aluClz_eq,
      aluCtz_eq, aluPopc_eq, aluAnd, aluOr, aluXor, aluAndn, BitVec.setWidth_and, BitVec.setWidth_or, BitVec.setWidth_xor,
      BitVec.setWidth_not (by decide : 32 ≤ 64)]

/-- Settles O20: each form issues one slot that writes its value, and the values of `aluAdd` and the like are those of R100. -/
theorem scalarRegisterForms : Obligations.ScalarRegisterForms := by
  intro s i d h hrow hready
  obtain ⟨t, r, a, b, lat, v, hexec, hlat, rfl⟩ : IssuesForm s i d := hrow.elim row64_issues row32_issues
  rw [hexec, regForm_done h hlat hready]

end Sys2Proof.Proofs
end
end

