-- ==== Sys2Proof/Proofs/Registers.lean ====
section
/-! Writes of control state registers and of package registers. -/

noncomputable section

namespace Sys2Proof.Proofs

open Sys2Proof.Machine Sys2Proof.Safety

/-! ## What the plain registers of control state read, from the core alone -/

/-- The plain registers that a field of the core each holds, with what they read. -/
def namedCells (c : Core) : List (Nat × Word) :=
  [(0x02, boolWord c.chksb), (0x03, c.leaf.setWidth 64), (0x04, c.codeLo.setWidth 64), (0x05, c.codeHi.setWidth 64),
   (0x10, c.tcause.setWidth 64), (0x11, c.tpc.setWidth 64), (0x12, c.tval), (0x13, c.tvec.setWidth 64), (0x14, boolWord c.intrap),
   (0x40, c.qsel.setWidth 64), (0x4E, c.msel.setWidth 64), (0x52, c.tdirty.setWidth 64), (0x66, c.psel.setWidth 64),
   (0x67, (c.panOf c.psel.toNat).seed),
   (0x68, BitVec.ofNat 64 ((c.panOf c.psel.toNat).scr.toNat <<< 16 + (c.panOf c.psel.toNat).ph.toNat)), (0x73, c.pmq),
   (0x88, c.ntcur), (0x89, c.ntstep), (0x8A, c.ntend), (0x8B, c.ntw.setWidth 64), (0x8C, c.ntrp.setWidth 64),
   (0x8D, c.schbase.setWidth 64), (0x8E, c.schlen.setWidth 64), (0x8F, c.schcur.setWidth 64), (0x91, c.yctr),
   (0xA2, c.prwait.setWidth 64), (0xA5, c.wdlim.setWidth 64), (0xA6, c.wdcnt.setWidth 64), (0xA7, c.waitlim.setWidth 64),
   (0xAB, c.csdirty.setWidth 64), (0xAD, c.dtbase.setWidth 64), (0xAE, c.dtlen.setWidth 64)]

/-- LCn and LSn (R33). -/
def loopCells (c : Core) : List (Nat × Word) :=
  (List.range 6).flatMap (fun k => [(0x20 + k, (c.loopEntry k).count.setWidth 64), (0x28 + k, (c.loopEntry k).start.setWidth 64)])

/-- The walk registers (R124). -/
def walkCells (c : Core) : List (Nat × Word) :=
  (List.range 16).map (fun k => (0x30 + k, if k % 2 = 0 then (c.walk (k / 2)).base else (c.walk (k / 2)).step))

/-- Every plain register with what it reads. -/
def plainCells (c : Core) : List (Nat × Word) := namedCells c ++ loopCells c ++ walkCells c

theorem plainCells_eq (s : State) (n : Nat) : plainRegisters.map (fun r => (r.1, csRead s n r.1)) = plainCells (s.core n) := by
  simp only [plainRegisters, plainCells, namedCells, List.map_append, List.map_cons, List.map_nil]
  exact congr (congrArg _ (congr (congrArg _ rfl) rfl)) rfl

theorem csRead_of_mem_plainCells {s : State} {n i : Nat} {w : Word} (h : (i, w) ∈ plainCells (s.core n)) : csRead s n i = w := by
  rw [← plainCells_eq, List.mem_map] at h
  obtain ⟨r, -, hr⟩ := h
  cases hr
  rfl

theorem mem_plainCells_csRead {r : Nat × Word} (h : r ∈ plainRegisters) (s : State) (n : Nat) :
    (r.1, csRead s n r.1) ∈ plainCells (s.core n) := by
  rw [← plainCells_eq, List.mem_map]
  exact ⟨r, h, rfl⟩

/-! ## Writes -/

/-- The sequencer state, the program counter, and what a core holds besides its control state. -/
def beside (c : Core) := (c.run, c.pc, c.s, c.m, c.q, c.c, c.tile, c.acc, c.b, c.pend)

/-- The core `c'` after a write that makes a plain register of `c` read as `w`, and leaves the others, unless the write is to PSEL,
and what is no register of control state. -/
structure Sets (c c' : Core) (i : Nat) (w : Word) : Prop where
  reads : (i, w) ∈ plainCells c'
  others : i ≠ 0x66 → ∀ p ∈ plainCells c', p.1 ≠ i → p ∈ plainCells c
  rest : beside c' = beside c

/-- What a write leaves: the registers of `xs` but the one at `i`. -/
def KeepsBut (i : Nat) (xs' xs : List (Nat × Word)) : Prop := ∀ p ∈ xs', p.1 ≠ i → p ∈ xs

theorem KeepsBut.of_eq {i : Nat} {xs' xs : List (Nat × Word)} (h : xs' = xs) : KeepsBut i xs' xs := fun _ hp _ => h ▸ hp

theorem KeepsBut.of_filter {i : Nat} {xs' xs : List (Nat × Word)}
    (h : xs'.filter (fun p => p.1 ≠ i) = xs.filter (fun p => p.1 ≠ i)) : KeepsBut i xs' xs := by
  intro p hp hi
  have : p ∈ xs'.filter (fun p => p.1 ≠ i) := by simp [hp, hi]
  rw [h] at this
  exact (List.mem_filter.1 this).1

theorem plainCells_keepsBut {c c' : Core} {i : Nat} (hn : KeepsBut i (namedCells c') (namedCells c))
    (hl : KeepsBut i (loopCells c') (loopCells c)) (hw : KeepsBut i (walkCells c') (walkCells c)) :
    KeepsBut i (plainCells c') (plainCells c) := by
  intro p hp hi
  simp only [plainCells, List.mem_append] at hp ⊢
  exact hp.imp (Or.imp (hn p · hi) (hl p · hi)) (hw p · hi)

theorem mem_plainCells_named {c : Core} {p : Nat × Word} (h : p ∈ namedCells c) : p ∈ plainCells c := by
  simp [plainCells, h]

theorem setWidth_setWidth_eq_and (v : Word) {k : Nat} (hk : k ≤ 64) :
    (v.setWidth k).setWidth 64 = v &&& BitVec.ofNat 64 (2 ^ k - 1) := by
  apply BitVec.eq_of_toNat_eq
  have hlt : 2 ^ k - 1 < 2 ^ 64 := by
    have := Nat.pow_le_pow_right (n := 2) (by decide) hk
    omega
  have hv : v.toNat % 2 ^ k < 2 ^ 64 := Nat.lt_of_le_of_lt (Nat.mod_le _ _) v.isLt
  simp only [BitVec.toNat_setWidth, BitVec.toNat_and, BitVec.toNat_ofNat, Nat.mod_eq_of_lt hlt, Nat.and_two_pow_sub_one_eq_mod,
    Nat.mod_eq_of_lt hv]

theorem boolWord_lsb (v : Word) : boolWord v[0] = v &&& 1#64 := by
  apply BitVec.eq_of_toNat_eq
  rcases Nat.mod_two_eq_zero_or_one v.toNat with h | h <;>
    simp [boolWord, BitVec.getElem_eq_testBit_toNat, Nat.testBit_zero, BitVec.toNat_and, Nat.and_one_is_mod, h]

theorem and_ones (v : Word) : v &&& 0xFFFFFFFFFFFFFFFF#64 = v := BitVec.and_allOnes

/-- The writable bits of TVEC (R35) lie within its 32. -/
theorem and_tvecMask (v : Word) : v &&& 0xFFFFFFFF#64 &&& 0xFFFFFFC1#64 = v &&& 0xFFFFFFC1#64 := BitVec.and_assoc ..

/-- The writable bits of TCAUSE (R35) lie within its 32. -/
theorem and_tcauseMask (v : Word) : v &&& 0xFFFFFFFF#64 &&& 0x87F0FFFF#64 = v &&& 0x87F0FFFF#64 := BitVec.and_assoc ..

/-- What PAUX reads packs the scratch bits of a pan above its phase (R230). -/
theorem panWord_eq (v : Word) :
    BitVec.ofNat 64 ((v.toNat >>> 16 % 1024) <<< 16 + v.toNat % 65536) = v &&& 0x3FFFFFF#64 := by
  apply BitVec.eq_of_toNat_eq
  have hmask : v.toNat &&& (2 ^ 26 - 1) = v.toNat % 2 ^ 26 := Nat.and_two_pow_sub_one_eq_mod ..
  simp only [BitVec.toNat_ofNat, BitVec.toNat_and, Nat.shiftLeft_eq, Nat.shiftRight_eq_div_pow]
  simp only [Nat.reducePow, Nat.reduceSub, Nat.reduceMod] at hmask ⊢
  omega

theorem Sets.named {c c' : Core} {i : Nat} {w : Word} (hr : (i, w) ∈ namedCells c')
    (ho : i ≠ 0x66 → KeepsBut i (namedCells c') (namedCells c)) (hl : loopCells c' = loopCells c) (hw : walkCells c' = walkCells c)
    (hrest : beside c' = beside c) : Sets c c' i w where
  reads := mem_plainCells_named hr
  others hi := plainCells_keepsBut (ho hi) (.of_eq hl) (.of_eq hw)
  rest := hrest

theorem Sets.loops {c c' : Core} {i : Nat} {w : Word} (hr : (i, w) ∈ loopCells c') (ho : KeepsBut i (loopCells c') (loopCells c))
    (hn : namedCells c' = namedCells c) (hw : walkCells c' = walkCells c) (hrest : beside c' = beside c) : Sets c c' i w where
  reads := by simp [plainCells, hr]
  others _ := plainCells_keepsBut (.of_eq hn) ho (.of_eq hw)
  rest := hrest

theorem Sets.walks {c c' : Core} {i : Nat} {w : Word} (hr : (i, w) ∈ walkCells c') (ho : KeepsBut i (walkCells c') (walkCells c))
    (hn : namedCells c' = namedCells c) (hl : loopCells c' = loopCells c) (hrest : beside c' = beside c) : Sets c c' i w where
  reads := by simp [plainCells, hr]
  others _ := plainCells_keepsBut (.of_eq hn) (.of_eq hl) ho
  rest := hrest

/-- The core after a plain write, and what the register reads then; the bits of CSDIRTY that the ply has set stay (log 144). -/
def WriteSets (s : State) (n i : Nat) (m v : Word) : Prop :=
  ∃ c', csWrite s n i v = s.setCore n c' ∧
    Sets (s.core n) c' i ((v &&& m) ||| (if i = 0xAB then (s.core n).csfresh.setWidth 64 else 0))

theorem WriteSets.of_ne {s : State} {n i : Nat} {m v : Word} {c' : Core} (hi : i ≠ 0xAB) (h : csWrite s n i v = s.setCore n c')
    (hs : Sets (s.core n) c' i (v &&& m)) : WriteSets s n i m v :=
  ⟨c', h, by simpa [hi] using hs⟩

theorem csWrite_psel (s : State) (n : Nat) (v : Word) : WriteSets s n 0x66 0xF v := by
  refine .of_ne (by decide) rfl (.named ?_ (fun h => absurd rfl h) rfl rfl rfl)
  simp [namedCells, setWidth_setWidth_eq_and]

theorem csWrite_panSeed (s : State) (n : Nat) (v : Word) : WriteSets s n 0x67 (BitVec.allOnes 64) v := by
  refine .of_ne (by decide) rfl (.named ?_ (fun _ => .of_filter ?_) rfl rfl rfl)
  · simp [namedCells, Core.setPan, Core.panOf, and_ones]
  · simp [namedCells, Core.setPan, Core.panOf]

theorem csWrite_panWord (s : State) (n : Nat) (v : Word) : WriteSets s n 0x68 0x3FFFFFF v := by
  refine .of_ne (by decide) rfl (.named ?_ (fun _ => .of_filter ?_) rfl rfl rfl)
  · simp [namedCells, Core.setPan, Core.panOf, panWord_eq]
  · simp [namedCells, Core.setPan, Core.panOf]

theorem loopEntry_setLoopEntry (c : Core) (k j : Nat) (e : LoopEntry) :
    (c.setLoopEntry k e).loopEntry j = if j = k then e else c.loopEntry j := by
  split
  · subst_vars
    exact mapGet_mapSet_same ..
  · exact mapGet_mapSet_other _ _ _ ‹_›

theorem walk_setWalk (c : Core) (k j : Nat) (w : Walk) : (c.setWalk k w).walk j = if j = k then w else c.walk j := by
  split
  · subst_vars
    exact mapGet_mapSet_same ..
  · exact mapGet_mapSet_other _ _ _ ‹_›

theorem mem_loopCells {c : Core} {p : Nat × Word} : p ∈ loopCells c ↔
    ∃ k < 6, p = (0x20 + k, (c.loopEntry k).count.setWidth 64) ∨ p = (0x28 + k, (c.loopEntry k).start.setWidth 64) := by
  simp [loopCells]

theorem mem_walkCells {c : Core} {p : Nat × Word} : p ∈ walkCells c ↔
    ∃ k < 16, p = (0x30 + k, if k % 2 = 0 then (c.walk (k / 2)).base else (c.walk (k / 2)).step) := by
  simp [walkCells, eq_comm]

theorem csWrite_loopCount (s : State) (n : Nat) (v : Word) {k : Nat} (hk : k < 6) : WriteSets s n (0x20 + k) 0xFFFFFFFF v := by
  have hwrite : csWrite s n (0x20 + k) v =
      s.setCore n ((s.core n).setLoopEntry k { (s.core n).loopEntry k with count := v.setWidth 32 }) := by
    match k, hk with
    | 0, _ | 1, _ | 2, _ | 3, _ | 4, _ | 5, _ => rfl
    | k + 6, h => exact absurd h (by omega)
  refine .of_ne (by omega) hwrite (.loops (mem_loopCells.2 ⟨k, hk, .inl ?_⟩) (fun p hp hi => ?_) rfl rfl rfl)
  · simp [loopEntry_setLoopEntry, setWidth_setWidth_eq_and]
  · obtain ⟨j, hj, rfl | rfl⟩ := mem_loopCells.1 hp
    · have : j ≠ k := by rintro rfl; exact hi rfl
      exact mem_loopCells.2 ⟨j, hj, .inl (by rw [loopEntry_setLoopEntry, if_neg this])⟩
    · refine mem_loopCells.2 ⟨j, hj, .inr ?_⟩
      rw [loopEntry_setLoopEntry]
      split <;> simp_all

theorem csWrite_loopStart (s : State) (n : Nat) (v : Word) {k : Nat} (hk : k < 6) : WriteSets s n (0x28 + k) 0xFFFFFFFF v := by
  have hwrite : csWrite s n (0x28 + k) v =
      s.setCore n ((s.core n).setLoopEntry k { (s.core n).loopEntry k with start := v.setWidth 32 }) := by
    match k, hk with
    | 0, _ | 1, _ | 2, _ | 3, _ | 4, _ | 5, _ => rfl
    | k + 6, h => exact absurd h (by omega)
  refine .of_ne (by omega) hwrite (.loops (mem_loopCells.2 ⟨k, hk, .inr ?_⟩) (fun p hp hi => ?_) rfl rfl rfl)
  · simp [loopEntry_setLoopEntry, setWidth_setWidth_eq_and]
  · obtain ⟨j, hj, rfl | rfl⟩ := mem_loopCells.1 hp
    · refine mem_loopCells.2 ⟨j, hj, .inl ?_⟩
      rw [loopEntry_setLoopEntry]
      split <;> simp_all
    · have : j ≠ k := by rintro rfl; exact hi rfl
      exact mem_loopCells.2 ⟨j, hj, .inr (by rw [loopEntry_setLoopEntry, if_neg this])⟩

theorem csWrite_walk (s : State) (n : Nat) (v : Word) {k : Nat} (hk : k < 16) : WriteSets s n (0x30 + k) (BitVec.allOnes 64) v := by
  have hwrite : csWrite s n (0x30 + k) v = s.setCore n ((s.core n).setWalk (k / 2)
      (if k % 2 = 0 then { (s.core n).walk (k / 2) with base := v } else { (s.core n).walk (k / 2) with step := v })) := by
    match k, hk with
    | 0, _ | 1, _ | 2, _ | 3, _ | 4, _ | 5, _ | 6, _ | 7, _ | 8, _ | 9, _ | 10, _ | 11, _ | 12, _ | 13, _ | 14, _ | 15, _ => rfl
    | k + 16, h => exact absurd h (by omega)
  refine .of_ne (by omega) hwrite (.walks (mem_walkCells.2 ⟨k, hk, ?_⟩) (fun p hp hi => ?_) rfl rfl rfl)
  · rw [walk_setWalk, if_pos rfl, BitVec.and_allOnes]
    split <;> rfl
  · obtain ⟨j, hj, rfl⟩ := mem_walkCells.1 hp
    have hne : j ≠ k := by rintro rfl; exact hi rfl
    refine mem_walkCells.2 ⟨j, hj, ?_⟩
    rw [walk_setWalk]
    by_cases h : j / 2 = k / 2
    · rw [if_pos h, h]
      by_cases hj : j % 2 = 0
      · have hk : k % 2 ≠ 0 := by omega
        simp [hj, hk]
      · have hk : k % 2 = 0 := by omega
        simp [hj, hk]
    · rw [if_neg h]

theorem csWrite_plain (s : State) (n : Nat) (v : Word) {i : Nat} {m : Word} (h : (i, m) ∈ plainRegisters) : WriteSets s n i m v := by
  simp only [plainRegisters, List.mem_append] at h
  rcases h with (h | h) | h
  · repeat' rcases List.mem_cons.1 h with h | h
    all_goals cases h
    rotate_left 12
    · exact csWrite_psel s n v
    · exact csWrite_panSeed s n v
    · exact csWrite_panWord s n v
    all_goals refine ⟨_, rfl, .named ?_ (fun _ => .of_filter rfl) rfl rfl rfl⟩
    all_goals simp [namedCells, setWidth_setWidth_eq_and, boolWord_lsb, and_ones, and_tvecMask, and_tcauseMask]
  · simp only [List.mem_flatMap, List.mem_range, List.mem_cons, List.not_mem_nil, or_false, Prod.mk.injEq] at h
    obtain ⟨k, hk, ⟨rfl, rfl⟩ | ⟨rfl, rfl⟩⟩ := h
    · exact csWrite_loopCount s n v hk
    · exact csWrite_loopStart s n v hk
  · simp only [List.mem_map, List.mem_range, Prod.mk.injEq] at h
    obtain ⟨k, hk, rfl, rfl⟩ := h
    exact csWrite_walk s n v hk

/-- Registers that only the part writes, and indices of none (R33). -/
theorem csWrite_readOnly (s : State) (n : Nat) (v : Word) {i : Nat} (h : readOnly i) : csWrite s n i v = s := by
  unfold readOnly at h
  unfold csWrite
  split
  case h_41 =>
    have hout : ¬ (0x20 ≤ i ∧ i ≤ 0x25) ∧ ¬ (0x28 ≤ i ∧ i ≤ 0x2D) ∧ ¬ (0x30 ≤ i ∧ i ≤ 0x3F) ∧ ¬ (0x61 ≤ i ∧ i ≤ 0x64) := by
      simp only [List.mem_cons, List.not_mem_nil, or_false] at h
      omega
    obtain ⟨hcount, hstart, hwalk, hmask⟩ := hout
    simp [hcount, hstart, hwalk, hmask]
  all_goals exact absurd h (by decide)

theorem exec_registerWrite_core {s t : State} {n i : Nat} {v : Word} (h : csWrite s n i v = t) (hm : t.mem = s.mem) :
    exec (.registerWrite false n i v) s = .next t := by
  change Host.Outcome.next { csWrite s n i v with mem := s.mem } = _
  rw [h, ← hm]

/-- Settles O51: what every plain register reads is a list of the fields of the core, and a write changes one of its entries. -/
theorem controlRegisterWrites : Obligations.ControlRegisterWrites := by
  intro s n i v
  refine ⟨fun h => ?_, ?_, fun m h => ?_⟩
  · exact exec_registerWrite_core (csWrite_readOnly s n v h) rfl
  · rintro rfl
    rfl
  · obtain ⟨c', hc, hs⟩ := csWrite_plain s n v h
    have hread {j : Nat} {w : Word} (hj : (j, w) ∈ plainCells c') : csRead (s.setCore n c') n j = w :=
      csRead_of_mem_plainCells (by rwa [State.core_setCore_same])
    have hrest := hs.rest
    simp only [beside, Prod.mk.injEq] at hrest
    refine ⟨c', exec_registerWrite_core hc rfl, hread hs.reads, fun hi r hr hne => ?_, hrest⟩
    have hmem := mem_plainCells_csRead hr (s.setCore n c') n
    rw [State.core_setCore_same] at hmem
    exact (csRead_of_mem_plainCells (hs.others hi _ hmem hne)).symm

/-! ## Writes of package registers -/

theorem exec_registerWrite_package {s t : State} {chip off : Nat} {v : Word} (h : barWrite s chip off v = t) (hm : t.mem = s.mem) :
    exec (.registerWrite true chip off v) s = .next t := by
  change Host.Outcome.next { barWrite s chip off v with mem := s.mem } = _
  rw [h, ← hm]

/-- No block of registers takes a write of these, on the root or on another package. -/
theorem barWrite_readOnly {s : State} {chip off : Nat} {v : Word}
    (h : off ∈ [0x000, 0x008, 0x010, 0x028, 0x100, 0xC00, 0x1800, 0x1808, 0x1810, 0x1818, 0x1820, 0x1900, 0x1908, 0x1918, 0x1920, 0x2000,
      0x2008, 0x2018]) : barWrite s chip off v = s := by
  simp only [List.mem_cons, List.not_mem_nil, or_false] at h
  rcases h with rfl | rfl | rfl | rfl | rfl | rfl | rfl | rfl | rfl | rfl | rfl | rfl | rfl | rfl | rfl | rfl | rfl | rfl
  all_goals exact ite_self (c := chip != s.root) s

theorem barWrite_notRoot {s : State} {chip off : Nat} {v : Word} (hc : chip ≠ s.root)
    (h : off ∈ [0x1910, 0x1928, 0x1930, 0x1938]) : barWrite s chip off v = s := by
  have hb : (chip != s.root) = true := by simpa using hc
  simp only [List.mem_cons, List.not_mem_nil, or_false] at h
  rcases h with rfl | rfl | rfl | rfl <;> exact if_pos hb

/-- The state after a write that a register of BAR0 takes: it reads back the writable bits, and no core, memory or ply changes. -/
structure PackageSets (s t : State) (chip off : Nat) (m v : Word) : Prop where
  writes : barWrite s chip off v = t
  reads : barRead t chip off = v &&& m
  cores : t.cores = s.cores
  mem : t.mem = s.mem
  now : t.now = s.now

theorem packageSets_chip {s : State} {chip off : Nat} {x : Chip} {m v : Word} (hw : barWrite s chip off v = s.setChip chip x)
    (hr : barRead (s.setChip chip x) chip off = v &&& m) : PackageSets s (s.setChip chip x) chip off m v :=
  ⟨hw, hr, rfl, rfl, rfl⟩

theorem barWrite_package {s : State} {chip off : Nat} {m v : Word}
    (h : (off, m) ∈ [(0x020, (3 : Word)), (0x108, BitVec.allOnes 64), (0x118, 1), (0x200, BitVec.allOnes 64),
      (0x208, BitVec.allOnes 64), (0x210, BitVec.allOnes 64), (0x218, 0xFF), (0x220, 0xFF), (0x2010, 0xFFFFFFFF)]) :
    ∃ t, PackageSets s t chip off m v := by
  simp only [List.mem_cons, List.not_mem_nil, or_false, Prod.mk.injEq] at h
  rcases h with ⟨rfl, rfl⟩ | ⟨rfl, rfl⟩ | ⟨rfl, rfl⟩ | ⟨rfl, rfl⟩ | ⟨rfl, rfl⟩ | ⟨rfl, rfl⟩ | ⟨rfl, rfl⟩ | ⟨rfl, rfl⟩ | ⟨rfl, rfl⟩
  all_goals refine ⟨_, packageSets_chip rfl ?_⟩
  rotate_left 2
  · simp [barRead, ← boolWord_lsb, boolWord]
  all_goals simp [barRead, setWidth_setWidth_eq_and, and_ones]

/-- Port `k` of a package has the block at `0x1000 + 0x80 * k` of BAR0 (R480). -/
theorem barRead_port (s : State) (chip : Nat) {k r : Nat} (hk : k < 12) (hr : r ∈ [0x00, 0x38, 0x48]) :
    barRead s chip (0x1000 + 0x80 * k + r) = portRead (s.port (12 * chip + k)) r := by
  simp only [List.mem_cons, List.not_mem_nil, or_false] at hr
  rcases hr with rfl | rfl | rfl
  all_goals
    match k, hk with
    | 0, _ | 1, _ | 2, _ | 3, _ | 4, _ | 5, _ | 6, _ | 7, _ | 8, _ | 9, _ | 10, _ | 11, _ => rfl
    | k + 12, h => exact absurd h (by omega)

theorem barWrite_port (s : State) (chip : Nat) (v : Word) {k r : Nat} (hk : k < 12) (hr : r ∈ [0x00, 0x38, 0x48]) :
    barWrite s chip (0x1000 + 0x80 * k + r) v = portRegWrite s (12 * chip + k) r v := by
  simp only [List.mem_cons, List.not_mem_nil, or_false] at hr
  rcases hr with rfl | rfl | rfl
  all_goals
    match k, hk with
    | 0, _ | 1, _ | 2, _ | 3, _ | 4, _ | 5, _ | 6, _ | 7, _ | 8, _ | 9, _ | 10, _ | 11, _ => rfl
    | k + 12, h => exact absurd h (by omega)

theorem packageSets_port {s : State} {chip k r : Nat} {x : Port} {m v : Word} (hk : k < 12) (hr : r ∈ [0x00, 0x38, 0x48])
    (hw : portRegWrite s (12 * chip + k) r v = s.setPort (12 * chip + k) x) (hx : portRead x r = v &&& m) :
    PackageSets s (s.setPort (12 * chip + k) x) chip (0x1000 + 0x80 * k + r) m v where
  writes := by rw [barWrite_port s chip v hk hr, hw]
  reads := by rw [barRead_port _ chip hk hr, State.port_setPort_same, hx]
  cores := rfl
  mem := rfl
  now := rfl

theorem barWrite_portRegister {s : State} {chip off k : Nat} {m v : Word} (hk : k < 12)
    (h : (off, m) ∈ [(0x1000 + 0x80 * k, (0x7F : Word)), (0x1038 + 0x80 * k, 3), (0x1048 + 0x80 * k, BitVec.allOnes 64)]) :
    ∃ t, PackageSets s t chip off m v := by
  simp only [List.mem_cons, List.not_mem_nil, or_false, Prod.mk.injEq] at h
  rcases h with ⟨rfl, rfl⟩ | ⟨rfl, rfl⟩ | ⟨rfl, rfl⟩
  · exact ⟨_, packageSets_port (r := 0x00) hk (by decide) rfl ((BitVec.ofNat_toNat 64 _).trans (setWidth_setWidth_eq_and v (k := 7) (by decide)))⟩
  · rw [Nat.add_right_comm 0x1000 0x38]
    exact ⟨_, packageSets_port (r := 0x38) hk (by decide) rfl ((BitVec.ofNat_toNat 64 _).trans (setWidth_setWidth_eq_and v (k := 2) (by decide)))⟩
  · rw [Nat.add_right_comm 0x1000 0x48]
    exact ⟨_, packageSets_port (r := 0x48) hk (by decide) rfl BitVec.and_allOnes.symm⟩

theorem barWrite_root {s : State} {chip off : Nat} {m v : Word} (hc : chip = s.root)
    (h : (off, m) ∈ [(0x1928, (3 : Word)), (0x1930, 0xFFFFFFFF), (0x1938, 0xFFFFFFFF)]) : ∃ t, PackageSets s t chip off m v := by
  have hb : ¬ (chip != s.root) = true := by simpa using hc
  simp only [List.mem_cons, List.not_mem_nil, or_false, Prod.mk.injEq] at h
  rcases h with ⟨rfl, rfl⟩ | ⟨rfl, rfl⟩ | ⟨rfl, rfl⟩
  all_goals refine ⟨_, packageSets_chip (if_neg hb) ?_⟩
  all_goals simp [barRead, hc, tempoRead, setWidth_setWidth_eq_and]

/-- Settles O52: the offset decides which register takes the write, and what that register then reads is the field it wrote. -/
theorem packageRegisterWrites : Obligations.PackageRegisterWrites := by
  intro s chip off v
  refine ⟨fun h => ?_, fun hc h => ?_, fun m h => ?_⟩
  · exact exec_registerWrite_package (barWrite_readOnly h) rfl
  · exact exec_registerWrite_package (barWrite_notRoot hc h) rfl
  · obtain ⟨t, ht⟩ : ∃ t, PackageSets s t chip off m v := by
      rcases h with h | ⟨k, hk, h⟩ | ⟨hc, h⟩
      · exact barWrite_package h
      · exact barWrite_portRegister hk h
      · exact barWrite_root hc h
    exact ⟨t, exec_registerWrite_package ht.writes ht.mem, ht.reads, ht.cores, ht.mem, ht.now⟩

end Sys2Proof.Proofs
end
end

