-- ==== Sys2Proof/Proofs/Lanes.lean ====
section
/-! Lanes of entries: what the list operations of the V slot give lane by lane, and the element functions as the rules write them. -/

noncomputable section

namespace Sys2Proof.Proofs.Lanes

open Sys2Proof.Machine Sys2Proof.Safety

/-! ## Elements of an entry -/

@[simp] theorem length_splitPieces (w n x : Nat) : (splitPieces w n x).length = n := by
  induction n generalizing x with
  | zero => rfl
  | succ n ih => simp only [splitPieces, List.length_cons, ih]

theorem lt_of_mem_splitPieces {w n x y : Nat} (h : y ∈ splitPieces w n x) : y < 2 ^ w := by
  induction n generalizing x with
  | zero => exact absurd h List.not_mem_nil
  | succ n ih =>
    rcases List.mem_cons.1 h with rfl | h
    · exact Nat.mod_lt _ (Nat.two_pow_pos w)
    · exact ih h

theorem lt_of_mem_heads {s : State} {w q x : Nat} (h : x ∈ heads s w q) : x < 2 ^ w := lt_of_mem_splitPieces h

theorem length_elems32 (v : Entry) : (elems 32 v).length = 64 := length_splitPieces ..

@[simp] theorem length_heads32 (s : State) (q : Nat) : (heads s 32 q).length = 64 := length_elems32 _

theorem getD_heads_lt (s : State) (w q i : Nat) : (heads s w q).getD i 0 < 2 ^ w := by
  rw [List.getD_eq_getElem?_getD]
  rcases h : (heads s w q)[i]? with _ | x
  · exact Nat.two_pow_pos w
  · exact lt_of_mem_heads (List.mem_of_getElem? h)

theorem joinPieces_congr {w : Nat} {xs ys : List Nat} (h : xs.map (· % 2 ^ w) = ys.map (· % 2 ^ w)) :
    joinPieces w xs = joinPieces w ys := by
  induction xs generalizing ys with
  | nil => cases ys with
    | nil => rfl
    | cons y ys => exact nomatch h
  | cons x xs ih => cases ys with
    | nil => exact nomatch h
    | cons y ys =>
      simp only [List.map_cons, List.cons.injEq] at h
      rw [joinPieces, joinPieces, h.1, ih h.2]

/-! ## Lists of lanes by their index -/

theorem rangeFrom_eq_range' (a n : Nat) : rangeFrom a n = List.range' a n := by
  induction n generalizing a with
  | zero => rfl
  | succ n ih => rw [rangeFrom, ih, List.range'_succ]

theorem rangeFrom_zero (n : Nat) : rangeFrom 0 n = List.range n := by
  rw [rangeFrom_eq_range', List.range_eq_range']

/-- A lane that is there reads as itself. -/
theorem getD_of_lt {xs : List Nat} {i : Nat} (hi : i < xs.length) : xs.getD i 0 = xs[i] := by
  rw [List.getD_eq_getElem?_getD, List.getElem?_eq_getElem hi, Option.getD_some]

section
variable {n : Nat} {xs ys : List Nat}

theorem getD_map_range (f : Nat → Nat) {i : Nat} (hi : i < n) : ((List.range n).map f).getD i 0 = f i := by
  rw [getD_of_lt (by rwa [List.length_map, List.length_range]), List.getElem_map, List.getElem_range]

theorem map_eq_map_range {α : Type} (hx : xs.length = n) (f : Nat → α) :
    xs.map f = (List.range n).map (fun i => f (xs.getD i 0)) := by
  refine List.ext_getElem (by rw [List.length_map, List.length_map, List.length_range, hx]) fun i hi _ => ?_
  rw [List.length_map] at hi
  rw [List.getElem_map, List.getElem_map, List.getElem_range, getD_of_lt hi]

theorem zipWith_eq_map_range {α : Type} (hx : xs.length = n) (hy : ys.length = n) (f : Nat → Nat → α) :
    List.zipWith f xs ys = (List.range n).map (fun i => f (xs.getD i 0) (ys.getD i 0)) := by
  have hlen : (List.zipWith f xs ys).length = n := by rw [List.length_zipWith, hx, hy, Nat.min_self]
  refine List.ext_getElem (by rw [hlen, List.length_map, List.length_range]) fun i hi _ => ?_
  rw [hlen] at hi
  have hix : i < xs.length := hx ▸ hi
  have hiy : i < ys.length := hy ▸ hi
  rw [List.getElem_zipWith, List.getElem_map, List.getElem_range, getD_of_lt hix, getD_of_lt hiy]

theorem maskBit_eq_getLsbD (m : Word) (i : Nat) : maskBit m i = m.getLsbD i := rfl

/-- Lane by lane, a mask chooses between two lists (R144). -/
theorem laneSelect_eq_map_range (m : Word) (hx : xs.length = n) (hy : ys.length = n) :
    laneSelect m 0 xs ys = (List.range n).map (fun i => if m.getLsbD i then ys.getD i 0 else xs.getD i 0) := by
  have hfrom (k : Nat) : laneSelect m k xs ys =
      (List.range n).map (fun i => if m.getLsbD (k + i) then ys.getD i 0 else xs.getD i 0) := by
    induction n generalizing k xs ys with
    | zero =>
      obtain rfl := List.length_eq_zero_iff.1 hx
      rfl
    | succ n ih =>
      obtain ⟨x, xs, rfl⟩ := List.exists_cons_of_length_eq_add_one hx
      obtain ⟨y, ys, rfl⟩ := List.exists_cons_of_length_eq_add_one hy
      rw [laneSelect, maskBit_eq_getLsbD, ih (Nat.succ.inj hx) (Nat.succ.inj hy), List.range_succ_eq_map, List.map_cons, List.map_map]
      refine congrArg _ (List.map_congr_left fun i _ => ?_)
      rw [Nat.add_assoc, Nat.add_comm 1]
      rfl
  simpa only [Nat.zero_add] using hfrom 0

end

/-! ## Scans -/

/-- A step of the scan of 64 lanes, as R187 writes it. -/
def laneStep (f : Nat → Nat → Nat) (h : List Nat) (d : Nat) : List Nat :=
  (List.range 64).map (fun i => if d ≤ i then f (h.getD (i - d) 0) (h.getD i 0) else h.getD i 0)

theorem length_laneStep (f : Nat → Nat → Nat) (h : List Nat) (d : Nat) : (laneStep f h d).length = 64 := by
  rw [laneStep, List.length_map, List.length_range]

theorem scanStep_eq_laneStep (f : Nat → Nat → Nat) {h : List Nat} {d : Nat} (hh : h.length = 64) (hd : d ≤ 64) :
    scanStep f h d = laneStep f h d := by
  have hlen : (scanStep f h d).length = 64 := by
    simp only [scanStep, List.length_append, List.length_take, List.length_zipWith, List.length_drop]
    omega
  have htake : (h.take d).length = d := by rw [List.length_take, hh, Nat.min_eq_left hd]
  refine List.ext_getElem (by rw [hlen, length_laneStep]) fun i hi _ => ?_
  rw [hlen] at hi
  have hih : i < h.length := hh ▸ hi
  simp only [scanStep, laneStep, List.getElem_map, List.getElem_range]
  by_cases hdi : d ≤ i
  · have hleft : i - d < h.length := Nat.lt_of_le_of_lt (Nat.sub_le i d) hih
    rw [List.getElem_append_right (by rw [htake]; exact hdi), if_pos hdi, List.getElem_zipWith, List.getElem_drop]
    simp only [htake, Nat.add_sub_cancel' hdi, getD_of_lt hleft, getD_of_lt hih]
  · rw [List.getElem_append_left (by rw [htake]; exact Nat.lt_of_not_le hdi), if_neg hdi, List.getElem_take,
      getD_of_lt hih]

theorem foldl_scanStep_eq (f : Nat → Nat → Nat) {ds h : List Nat} (hds : ∀ d ∈ ds, d ≤ 64) (hh : h.length = 64) :
    ds.foldl (scanStep f) h = ds.foldl (laneStep f) h := by
  induction ds generalizing h with
  | nil => rfl
  | cons d ds ih =>
    rw [List.foldl_cons, List.foldl_cons, scanStep_eq_laneStep f hh (hds d List.mem_cons_self)]
    exact ih (fun d hd => hds d (List.mem_cons_of_mem _ hd)) (length_laneStep ..)

/-- The contributions of the lanes that the mask selects, scanned, are those of R187. -/
theorem scanAll_contributions (s : State) (a : BitVec 9) (m : BitVec 4) (identity : Nat) (f : Nat → Nat → Nat) :
    scanAll f (contributions (s.rm m) identity (elems 32 (s.rq a.toNat))) = reduced s a m identity f := by
  have hfirst : contributions (s.rm m) identity (heads s 32 a.toNat) = (List.range 64).map (fun i =>
      if (s.rm m).getLsbD i then (heads s 32 a.toNat).getD i 0 else identity) := by
    rw [contributions, laneSelect_eq_map_range (n := 64) _ ((List.length_map ..).trans (length_heads32 ..)) (length_heads32 ..)]
    refine List.map_congr_left fun i hi => ?_
    rw [map_eq_map_range (length_heads32 ..), getD_map_range _ (List.mem_range.1 hi)]
  change scanAll f (contributions (s.rm m) identity (heads s 32 a.toNat)) = _
  rw [scanAll, hfirst, foldl_scanStep_eq f (by decide) ((List.length_map ..).trans List.length_range)]
  rfl

theorem length_reduced (s : State) (a : BitVec 9) (m : BitVec 4) (identity : Nat) (f : Nat → Nat → Nat) :
    (reduced s a m identity f).length = 64 :=
  length_laneStep f _ 32

/-! ## Element functions -/

theorem sext_eq_toInt (w x : Nat) : sext x w = (BitVec.ofNat w x).toInt := by
  cases w with
  | zero => rw [sext, BitVec.toInt_zero_length, Nat.pow_zero, Nat.mod_one]; rfl
  | succ w =>
    have h2 : 2 ^ (w + 1) = 2 * 2 ^ w := Nat.pow_succ'
    simp only [sext, BitVec.toInt, BitVec.toNat_ofNat, Nat.add_sub_cancel]
    split <;> split <;> omega

theorem lowBits_eq_toNat_ofInt (w : Nat) (v : Int) : lowBits v w = (BitVec.ofInt w v).toNat := (BitVec.toNat_ofInt ..).symm

/-- An operation of the C slot that is an exact function of two signed values acts so on elements. -/
theorem onBits_eq_onSigned {w : Nat} {f : BitVec w → BitVec w → BitVec w} {g : Int → Int → Int}
    (h : ∀ a b, f a b = BitVec.ofInt w (g a.toInt b.toInt)) : onBits w f = onSigned w g := by
  funext x y
  rw [onBits, onSigned, h, sext_eq_toInt, sext_eq_toInt, lowBits_eq_toNat_ofInt]

section
variable {w x y : Nat}

theorem onBits_aluAnd (hx : x < 2 ^ w) (hy : y < 2 ^ w) : onBits w aluAnd x y = x &&& y := by
  rw [onBits, aluAnd, BitVec.toNat_and, BitVec.toNat_ofNat, BitVec.toNat_ofNat, Nat.mod_eq_of_lt hx, Nat.mod_eq_of_lt hy]

theorem onBits_aluOr (hx : x < 2 ^ w) (hy : y < 2 ^ w) : onBits w aluOr x y = x ||| y := by
  rw [onBits, aluOr, BitVec.toNat_or, BitVec.toNat_ofNat, BitVec.toNat_ofNat, Nat.mod_eq_of_lt hx, Nat.mod_eq_of_lt hy]

theorem onBits_aluXor (hx : x < 2 ^ w) (hy : y < 2 ^ w) : onBits w aluXor x y = x ^^^ y := by
  rw [onBits, aluXor, BitVec.toNat_xor, BitVec.toNat_ofNat, BitVec.toNat_ofNat, Nat.mod_eq_of_lt hx, Nat.mod_eq_of_lt hy]

end

/-- The wrapping sum of elements as R187 writes it. -/
theorem onBits_aluAdd_eq_mod (w : Nat) : onBits w aluAdd = fun x y => (x + y) % 2 ^ w := by
  funext x y
  rw [onBits, aluAdd, BitVec.toNat_add, BitVec.toNat_ofNat, BitVec.toNat_ofNat, ← Nat.add_mod]

section
variable (i : BitVec 5)

theorem onBits_aluAdd_imm (x : Nat) : onBits 32 aluAdd x (i.signExtend 32).toNat = lowBits (sext x 32 + i.toInt) 32 := by
  rw [onBits, aluAdd_eq, BitVec.ofNat_toNat, BitVec.setWidth_eq, BitVec.toInt_signExtend_of_le (by decide), sext_eq_toInt,
    lowBits_eq_toNat_ofInt]

theorem toNat_ofNat_shift : (BitVec.ofNat 32 i.toNat).toNat % 32 = i.toNat := by
  rw [BitVec.toNat_ofNat]
  omega

theorem onBits_aluSra_imm (x : Nat) : onBits 32 aluSra x i.toNat = lowBits (sext x 32 / 2 ^ i.toNat) 32 := by
  rw [onBits, aluSra_eq, toNat_ofNat_shift, sext_eq_toInt, lowBits_eq_toNat_ofInt]

theorem onBits_aluSll_imm (x : Nat) : onBits 32 aluSll x i.toNat = x * 2 ^ i.toNat % 2 ^ 32 := by
  rw [onBits, aluSll, toNat_ofNat_shift, BitVec.toNat_shiftLeft, BitVec.toNat_ofNat, Nat.shiftLeft_eq, Nat.mod_mul_mod]

theorem onBits_aluSrl_imm {x : Nat} (hx : x < 2 ^ 32) : onBits 32 aluSrl x i.toNat = x / 2 ^ i.toNat := by
  rw [onBits, aluSrl, toNat_ofNat_shift, BitVec.toNat_ushiftRight, BitVec.toNat_ofNat, Nat.shiftRight_eq_div_pow,
    Nat.mod_eq_of_lt hx]

end

/-! ## Masks and lane numbers -/

theorem maskOf_map_range (b : Nat → Bool) : maskOf ((List.range 64).map b) = maskWhere b := by
  rw [maskOf, List.map_map]
  rfl

theorem field_lane (x : Nat) : field x 5 0 = x % 64 := rfl

end Sys2Proof.Proofs.Lanes
end
end

