-- ==== Sys2Proof/Proofs/VectorSlots.lean ====
section
/-! The V slot: arithmetic of every lane, masks, reductions and permutations, and lane masks. -/

noncomputable section

namespace Sys2Proof.Proofs.Lanes

open Sys2Proof.Machine Sys2Proof.Safety

/-! ## Slots that issue exactly a row -/

/-- The slot that reads, pushes and writes what a row gives, and reads the registers `rs`. -/
def slotOf (d : Does) (rs : List Reg) : SlotOut :=
  { SlotOut.empty d.cls d.tag.toNat with
    qreads := d.reads, qdests := d.push.toList.map Prod.fst, bc := d.bc, reads := rs,
    pushes := d.push.toList.map (fun p => { q := p.1, lat := p.2.1, data := p.2.2, load := none }), lands := d.lands }

/-- An instruction issues a row, which draws nothing and whose results land at later plies. -/
def IssuesRow (s : State) (i : Instr) (d : Does) : Prop :=
  d.draw = none ∧ (∀ l ∈ d.lands, l.1 ≠ 0) ∧ ∃ rs, exec i s = execSlot s (slotOf d rs)

/-- Alone in its bundle and ready, such an instruction leaves what the row gives (R14). -/
theorem IssuesRow.exec_eq {s : State} {i : Instr} {d : Does} (hi : IssuesRow s i d) (h : Alone s) (hr : d.ready s) :
    exec i s = .next (d.done s) := by
  obtain ⟨hdraw, hlater, rs, hexec⟩ := hi
  have hdests : (slotOf d rs).qdests.length ≤ 2 := by
    change (d.push.toList.map Prod.fst).length ≤ 2
    cases d.push with
    | none => exact Nat.zero_le 2
    | some p => exact Nat.le_succ 1
  rw [hexec]
  refine execSlot_does h hr rfl rfl rfl rfl rfl rfl rfl rfl rfl rfl rfl hdests rfl rfl ?_ rfl ?_
  · rw [hdraw]
    rfl
  · exact fun l hl h0 => absurd h0 (hlater l hl)

/-- A result that is discarded, or lands after a latency, lands later. -/
theorem lands_later {p : Prop} [Decidable p] {lat : Nat} {w : Land} (hlat : lat ≠ 0) :
    ∀ l ∈ (if p then [] else [(lat, w)]), l.1 ≠ 0 := by
  intro l hl
  split at hl
  · exact absurd hl List.not_mem_nil
  · obtain rfl := List.mem_singleton.1 hl
    exact hlat

section
variable {s : State} {i : Instr}

/-- A slot that only reads queues and pushes an entry issues the row with that push. -/
theorem issuesRow_pushes {t : BitVec 3} {reads : List (Nat × Bool)} {q lat : Nat} {v v' : Entry} {b : Bool} {rs : List Reg}
    (hexec : exec i s = execSlot s { pushForm t reads q lat v with bc := b, reads := rs }) (hv : v = v') :
    IssuesRow s i { pushes t reads q lat v' with bc := b } := by
  subst hv
  exact ⟨rfl, fun _ hl => absurd hl List.not_mem_nil, rs, hexec⟩

theorem issuesRow_mask {t : BitVec 3} {reads : List (Nat × Bool)} {m : BitVec 4} {v v' : Word} {rs : List Reg}
    (hexec : exec i s = execSlot s { SlotOut.empty 3 t.toNat with qreads := reads, reads := rs, lands := landMask m 1 v })
    (hv : v = v') : IssuesRow s i (mask t reads m 1 v') := by
  subst hv
  exact ⟨rfl, lands_later Nat.one_ne_zero, rs, hexec⟩

theorem issuesRow_writes {t : BitVec 3} {reads : List (Nat × Bool)} {r : BitVec 6} {lat : Nat} {v v' : Word} {rs : List Reg}
    (hexec : exec i s = execSlot s { SlotOut.empty 3 t.toNat with qreads := reads, reads := rs, lands := landScalar r lat v })
    (hlat : lat ≠ 0) (hv : v = v') : IssuesRow s i { writes 3 t r lat v' with reads := reads } := by
  subst hv
  exact ⟨rfl, lands_later hlat, rs, hexec⟩

/-! ## Formats VG and VM -/

theorem zipWith_heads_congr {w qa qb : Nat} {f f' : Nat → Nat → Nat} (hf : ∀ x < 2 ^ w, ∀ y < 2 ^ w, f x y = f' x y) :
    List.zipWith f (heads s w qa) (heads s w qb) = List.zipWith f' (heads s w qa) (heads s w qb) := by
  refine List.ext_getElem (by rw [List.length_zipWith, List.length_zipWith]) fun k hk _ => ?_
  rw [List.getElem_zipWith, List.getElem_zipWith]
  exact hf _ (lt_of_mem_heads (List.getElem_mem _)) _ (lt_of_mem_heads (List.getElem_mem _))

theorem vgForm_issues {t g : BitVec 3} {p q : BitVec 1} {d a b : BitVec 6} {lat w : Nat} {f f' : Nat → Nat → Nat}
    (hexec : exec i s = execSlot s (vgForm s t g p q d a b lat w f)) (hf : ∀ x < 2 ^ w, ∀ y < 2 ^ w, f x y = f' x y) :
    IssuesRow s i (vg s t g p q d a b lat w f') :=
  issuesRow_pushes hexec (congrArg (entryOf w) (zipWith_heads_congr hf))

theorem vgForm_onSigned {t g : BitVec 3} {p q : BitVec 1} {d a b : BitVec 6} {lat w : Nat} {f : BitVec w → BitVec w → BitVec w}
    {v : Int → Int → Int} (hexec : exec i s = execSlot s (vgForm s t g p q d a b lat w (onBits w f)))
    (hf : ∀ a b, f a b = BitVec.ofInt w (v a.toInt b.toInt)) : IssuesRow s i (vg s t g p q d a b lat w (onSigned w v)) :=
  vgForm_issues hexec fun x _ y _ => congrFun (congrFun (onBits_eq_onSigned hf) x) y

variable {t : BitVec 3} {d a : BitVec 9} {p : BitVec 1} {m : BitVec 4} {lat : Nat}

/-- Under a mask, a list of lanes is the row's function of the lane (R144). -/
theorem vmLanes_issues {r : List Nat} {f : Nat → Nat} (hexec : exec i s = execSlot s (vmLanes s t d a p m lat r))
    (hr : r = (List.range 64).map f) : IssuesRow s i (vm s t d a p m lat f) := by
  subst hr
  refine issuesRow_pushes hexec (congrArg (entryOf 32) ?_)
  rw [laneSelect_eq_map_range (n := 64) _ (length_elems32 _) ((List.length_map ..).trans List.length_range)]
  refine List.map_congr_left fun k hk => ?_
  rw [getD_map_range f (List.mem_range.1 hk)]
  rfl

theorem vmForm_issues {f f' : Nat → Nat → Nat} (hexec : exec i s = execSlot s (vmForm s t d a p m lat f))
    (hf : ∀ x < 2 ^ 32, ∀ y < 2 ^ 32, f x y = f' x y) : IssuesRow s i (vmEach s t d a p m lat f') := by
  refine vmLanes_issues hexec ((map_eq_map_range (length_heads32 ..) _).trans (List.map_congr_left fun k _ => ?_))
  exact hf _ (getD_heads_lt ..) _ (Nat.mod_lt _ (Nat.two_pow_pos 32))

theorem viForm_issues {f f' : Nat → Nat} (hexec : exec i s = execSlot s (viForm s t d a 1 f)) (hf : ∀ x < 2 ^ 32, f x = f' x) :
    IssuesRow s i (vi s t d a f') :=
  issuesRow_pushes hexec (congrArg (entryOf 32) (List.map_congr_left fun _ hx => hf _ (lt_of_mem_heads hx)))

theorem reduceForm_issues {identity : Nat} {f f' : Nat → Nat → Nat}
    (hexec : exec i s = execSlot s (reduceForm s t d a p m lat identity f)) (hf : f = f') :
    IssuesRow s i (vm s t d a p m lat (fun _ => f' (bc32 s) ((reduced s a m identity f').getD 63 0))) := by
  subst hf
  refine vmLanes_issues hexec ?_
  rw [scanAll_contributions]
  exact map_eq_map_range (length_heads32 ..) _

theorem scanForm_issues {identity : Nat} {f : Nat → Nat → Nat}
    (hexec : exec i s = execSlot s (scanForm s t d a p m lat identity f)) :
    IssuesRow s i (vm s t d a p m lat (fun k => f (bc32 s) ((reduced s a m identity f).getD k 0))) := by
  refine vmLanes_issues hexec ?_
  rw [scanAll_contributions]
  exact map_eq_map_range (length_reduced ..) _

/-! ## Merges and permutations (R181, R186) -/

theorem vmergeU32_issues (s : State) (t : BitVec 3) (d a : BitVec 9) (p : BitVec 1) (m : BitVec 4) :
    IssuesRow s (.vmergeU32 t d a p m) (pushes t [(a.toNat, p = 0), (d.toNat, true)] d.toNat 1
      (entryOf 32 ((List.range 64).map (fun i =>
        (heads s 32 (if (s.rm m).getLsbD i then a.toNat else d.toNat)).getD i 0)))) := by
  refine issuesRow_pushes rfl (congrArg (entryOf 32) ?_)
  rw [laneSelect_eq_map_range (n := 64) _ (length_elems32 _) (length_elems32 _)]
  refine List.map_congr_left fun k _ => ?_
  split <;> rfl

theorem vrotg_issues (s : State) (t : BitVec 3) (d a : BitVec 9) (k : BitVec 4) :
    IssuesRow s (.vrotg t d a k) (pushes t [(a.toNat, true)] d.toNat 2
      (entryOf 32 ((List.range 64).map (fun (i : Nat) =>
        (heads s 32 a.toNat).getD (16 * (i / 16) + Int.toNat (((i : Int) - k.toNat) % 16)) 0)))) := by
  refine issuesRow_pushes rfl (congrArg (entryOf 32) ?_)
  rw [rangeFrom_zero]
  refine List.map_congr_left fun i _ => ?_
  have hlane : (i + 16 - k.toNat) % 16 = Int.toNat (((i : Int) - k.toNat) % 16) := by
    have := k.isLt
    omega
  rw [hlane]
  rfl

theorem vrot_issues (s : State) (t : BitVec 3) (d a : BitVec 9) (p : BitVec 1) (m : BitVec 4) :
    IssuesRow s (.vrot t d a p m)
      (vm s t d a p m 3 (fun i => (heads s 32 a.toNat).getD (((i : Int) - field (bc32 s) 5 0) % 64).toNat 0)) := by
  refine vmLanes_issues rfl ?_
  rw [rangeFrom_zero]
  refine List.map_congr_left fun i _ => ?_
  have hlane : (i + 64 - bc32 s % 64) % 64 = (((i : Int) - field (bc32 s) 5 0) % 64).toNat := by
    rw [field_lane]
    omega
  rw [← hlane]
  rfl

theorem vbcast_issues (s : State) (t : BitVec 3) (d a : BitVec 9) (p : BitVec 1) (m : BitVec 4) :
    IssuesRow s (.vbcast t d a p m) (vm s t d a p m 2 (fun _ => (heads s 32 a.toNat).getD (field (bc32 s) 5 0) 0)) :=
  vmLanes_issues rfl (map_eq_map_range (length_heads32 ..) _)

theorem vperm_issues (s : State) (t : BitVec 3) (d a : BitVec 9) (p : BitVec 1) (m : BitVec 4) :
    IssuesRow s (.vperm t d a p m) (pushes t [(a.toNat, p = 0), (d.toNat, true)] d.toNat 3
      (entryOf 32 ((List.range 64).map (fun i => (heads s 32 a.toNat).getD
        (if (s.rm m).getLsbD i then field ((heads s 32 d.toNat).getD i 0) 5 0 else i) 0)))) := by
  refine issuesRow_pushes rfl (congrArg (entryOf 32) ?_)
  rw [laneSelect_eq_map_range (n := 64) _ (length_elems32 _) ((List.length_map ..).trans (length_elems32 _))]
  refine List.map_congr_left fun k hk => ?_
  split
  · exact (congrArg (·.getD k 0) (map_eq_map_range (length_heads32 ..) _)).trans (getD_map_range _ (List.mem_range.1 hk))
  · rfl

/-! ## Masks (R143, R180) -/

theorem vkForm_issues {t : BitVec 3} {d : BitVec 4} {a b : BitVec 9} {p : BitVec 1} {f : Nat → Nat → Bool}
    (hexec : exec i s = execSlot s (vkForm s t d a b p f)) : IssuesRow s i (compareHeads s t d a b p f) := by
  refine issuesRow_mask hexec ((congrArg maskOf ?_).trans (maskOf_map_range _))
  exact zipWith_eq_map_range (length_heads32 ..) (length_heads32 ..) f

theorem splatForm_issues {t : BitVec 3} {v : BitVec 9} {r : BitVec 6} {w : Nat} (hexec : exec i s = execSlot s (splatForm s t v r w)) :
    IssuesRow s i (pushes t [] v.toNat 1 (entryOf w (List.replicate (2048 / w) (uw s r % 2 ^ w)))) := by
  refine issuesRow_pushes hexec (congrArg (BitVec.ofNat 2048) (joinPieces_congr ?_))
  rw [rangeFrom_zero, List.map_map, List.map_replicate, Nat.mod_mod]
  refine List.eq_replicate_iff.2 ⟨by rw [List.length_map, List.length_range], fun y hy => ?_⟩
  obtain ⟨-, -, rfl⟩ := List.mem_map.1 hy
  rfl

end

/-! ## The tables

The cases are numbered in the order in which the table lists its instructions. -/

theorem rowVg_issues {s : State} {i : Instr} {d : Does} (h : rowVg s i = some d) : IssuesRow s i d := by
  unfold rowVg at h
  split at h
  all_goals cases h
  -- the fused forms, which pop D as well
  case h_20 | h_26 => exact issuesRow_pushes rfl rfl
  case h_1 | h_3 | h_5 => exact vgForm_onSigned rfl aluAdd_eq
  case h_2 | h_4 => exact vgForm_onSigned rfl aluSub_eq
  case h_6 | h_7 | h_8 => exact vgForm_onSigned rfl aluAdds_eq
  case h_9 => exact vgForm_onSigned rfl aluSubs_eq
  case h_10 => exact vgForm_onSigned rfl aluMul_eq
  case h_11 => exact vgForm_onSigned rfl aluMulh_eq
  case h_12 => exact vgForm_onSigned rfl aluMin_eq
  case h_13 => exact vgForm_onSigned rfl aluMax_eq
  case h_14 => exact vgForm_issues rfl fun _ hx _ hy => onBits_aluAnd hx hy
  case h_15 => exact vgForm_issues rfl fun _ hx _ hy => onBits_aluOr hx hy
  case h_16 => exact vgForm_issues rfl fun _ hx _ hy => onBits_aluXor hx hy
  -- FP32 and BF16: the table names the same functions
  all_goals exact vgForm_issues rfl fun _ _ _ _ => rfl

theorem rowVm_issues {s : State} {i : Instr} {d : Does} (h : rowVm s i = some d) : IssuesRow s i d := by
  unfold rowVm at h
  split at h
  all_goals cases h
  case h_1 => exact vmForm_issues rfl fun x _ y _ => by rw [onBits_eq_onSigned aluAdd_eq]
  case h_2 => exact vmForm_issues rfl fun x _ y _ => by rw [onBits_eq_onSigned aluMul_eq]
  case h_3 => exact viForm_issues rfl fun x _ => onBits_aluAdd_imm _ x
  case h_4 => exact vmForm_issues rfl fun x hx y hy => onBits_aluAnd hx hy
  case h_5 => exact vmForm_issues rfl fun x hx y hy => onBits_aluXor hx hy
  case h_6 => exact viForm_issues rfl fun x _ => onBits_aluSll_imm _ x
  case h_7 => exact viForm_issues rfl fun x hx => onBits_aluSrl_imm _ hx
  case h_8 => exact viForm_issues rfl fun x _ => onBits_aluSra_imm _ x
  case h_9 | h_10 => exact vmForm_issues rfl fun _ _ _ _ => rfl
  case h_11 => exact vmergeU32_issues ..
  case h_12 => exact vrotg_issues ..
  case h_13 => exact vrot_issues ..
  case h_14 => exact vbcast_issues ..
  case h_15 => exact vperm_issues ..
  case h_16 => exact reduceForm_issues (f' := fun x y => (x + y) % 2 ^ 32) rfl (onBits_aluAdd_eq_mod 32)
  case h_17 | h_18 => exact reduceForm_issues rfl rfl
  case h_19 => exact scanForm_issues rfl

theorem rowMask_issues {s : State} {i : Instr} {d : Does} (h : rowMask s i = some d) : IssuesRow s i d := by
  unfold rowMask at h
  split at h
  all_goals cases h
  case h_1 | h_2 | h_3 => exact vkForm_issues rfl
  case h_4 | h_5 | h_6 | h_7 | h_8 | h_10 => exact issuesRow_mask rfl rfl
  case h_9 => exact issuesRow_writes rfl (by decide) rfl
  case h_11 => exact issuesRow_writes rfl (by decide) (congrArg (BitVec.ofNat 64) (popCount_eq_onesOf ..))
  case h_12 => exact issuesRow_writes rfl (by decide) (congrArg (BitVec.ofNat 64) (trailingZeros_eq_ctzOf ..))
  case h_13 =>
    exact issuesRow_mask rfl ((congrArg maskOf (map_eq_map_range (length_elems32 _) _)).trans (maskOf_map_range _))
  case h_14 => exact issuesRow_pushes rfl (by rw [rangeFrom_zero]; rfl)
  case h_15 => exact issuesRow_writes rfl (by decide) rfl
  case h_16 => exact issuesRow_writes rfl (by decide) (toBits_eq_ofInt ..)
  case h_17 | h_18 | h_19 => exact splatForm_issues rfl

/-- Settles O24: the slot is the table's, and on elements the operations of the C slot are the exact values of R176 and R177. -/
theorem vectorArithmetic : Obligations.VectorArithmetic :=
  fun _ _ _ h hrow hready => (rowVg_issues hrow).exec_eq h hready

/-- Settles O25: the lists that the slot merges, moves and scans are, lane by lane, those of the table. -/
theorem vectorMovement : Obligations.VectorMovement :=
  fun _ _ _ h hrow hready => (rowVm_issues hrow).exec_eq h hready

/-- Settles O27: the mask that the slot lands has the bit of every lane that the table gives. -/
theorem maskSlots : Obligations.MaskSlots :=
  fun _ _ _ h hrow hready => (rowMask_issues hrow).exec_eq h hready

end Sys2Proof.Proofs.Lanes
end
end

