-- ==== Sys2Proof/Proofs/Conversions.lean ====
section
/-! The V slot: conversions of number formats and saturating narrowings, with the draws of stochastic rounding. -/

noncomputable section

namespace Sys2Proof.Proofs.Lanes

open Sys2Proof.Machine Sys2Proof.Safety

/-! ## Bits of an entry (R129)

Bit i of an entry of elements of w bits is bit i mod w of element i / w. -/

section
variable {w i : Nat}

theorem testBit_joinPieces (hw : 0 < w) (xs : List Nat) (i : Nat) :
    (joinPieces w xs).testBit i = (xs.getD (i / w) 0).testBit (i % w) := by
  induction xs generalizing i with
  | nil => rw [joinPieces, List.getD_nil, Nat.zero_testBit, Nat.zero_testBit]
  | cons x xs ih =>
    rw [joinPieces, Nat.shiftLeft_eq, Nat.add_comm, Nat.mul_comm,
      Nat.testBit_two_pow_mul_add _ (Nat.mod_lt _ (Nat.two_pow_pos w))]
    split
    next hlt =>
      rw [Nat.div_eq_of_lt hlt, Nat.mod_eq_of_lt hlt, List.getD_cons_zero, Nat.testBit_mod_two_pow, decide_eq_true hlt,
        Bool.true_and]
    next hge =>
      have hle : w ≤ i := Nat.le_of_not_lt hge
      rw [ih, Nat.div_eq_sub_div hw hle, Nat.mod_eq_sub_mod hle, List.getD_cons_succ]

theorem testBit_getD_splitPieces {n k : Nat} (hk : k < n) (hi : i < w) (x : Nat) :
    ((splitPieces w n x).getD k 0).testBit i = x.testBit (w * k + i) := by
  induction n generalizing x k with
  | zero => exact absurd hk (Nat.not_lt_zero k)
  | succ n ih =>
    cases k with
    | zero =>
      rw [splitPieces, List.getD_cons_zero, Nat.testBit_mod_two_pow, decide_eq_true hi, Bool.true_and, Nat.mul_zero,
        Nat.zero_add]
    | succ k =>
      rw [splitPieces, List.getD_cons_succ, ih (Nat.lt_of_succ_lt_succ hk), Nat.testBit_shiftRight, Nat.mul_succ]
      congr 1
      omega

theorem getLsbD_entryOf (hw : 0 < w) (xs : List Nat) (hi : i < 2048) :
    (entryOf w xs).getLsbD i = (xs.getD (i / w) 0).testBit (i % w) := by
  rw [entryOf, BitVec.getLsbD_ofNat, decide_eq_true hi, Bool.true_and, testBit_joinPieces hw]

theorem div_lt_elements (hw : w ∣ 2048) (hi : i < 2048) : i / w < 2048 / w := Nat.div_lt_div_of_lt_of_dvd hw hi

theorem testBit_getD_elems (hw : w ∣ 2048) (v : Entry) (hi : i < 2048) :
    ((elems w v).getD (i / w) 0).testBit (i % w) = v.getLsbD i := by
  have hpos : 0 < w := Nat.pos_of_dvd_of_pos hw (by decide)
  rw [elems, testBit_getD_splitPieces (div_lt_elements hw hi) (Nat.mod_lt i hpos), Nat.div_add_mod]
  rfl

theorem testBit_putField (x lo n v i : Nat) :
    (putField x lo n v).testBit i = if lo ≤ i ∧ i < lo + n then v.testBit (i - lo) else x.testBit i := by
  have hform : putField x lo n v = 2 ^ lo * (2 ^ n * (x >>> (lo + n)) + v % 2 ^ n) + x % 2 ^ lo := by
    simp only [putField, Nat.shiftLeft_eq, Nat.pow_add, Nat.mul_add, Nat.mul_comm, Nat.mul_left_comm, Nat.add_comm,
      Nat.add_left_comm]
  rw [hform, Nat.testBit_two_pow_mul_add _ (Nat.mod_lt _ (Nat.two_pow_pos lo)),
    Nat.testBit_two_pow_mul_add _ (Nat.mod_lt _ (Nat.two_pow_pos n))]
  by_cases hlo : i < lo
  · rw [if_pos hlo, if_neg (by omega), Nat.testBit_mod_two_pow, decide_eq_true hlo, Bool.true_and]
  · rw [if_neg hlo]
    by_cases hn : i - lo < n
    · rw [if_pos hn, if_pos (by omega), Nat.testBit_mod_two_pow, decide_eq_true hn, Bool.true_and]
    · rw [if_neg hn, if_neg (by omega), Nat.testBit_shiftRight]
      congr 1
      omega

end

/-! ## Parts (R183, R184) -/

/-- Replacing 64 elements by their bits replaces, element by element, those of the part. A part past the end of the entry,
which no instruction word names, replaces none. -/
theorem putPart_eq_partOf {w : Nat} (hw : w ∣ 2048) (part : Nat) (old : Entry) (f : Nat → Nat) :
    putPart w part old ((List.range 64).map f) = partOf w part (elems w old) f := by
  have hpos : 0 < w := Nat.pos_of_dvd_of_pos hw (by decide)
  refine BitVec.eq_of_getLsbD_eq fun i hi => ?_
  have hpart : i / w / 64 = part ↔ 64 * part * w ≤ i ∧ i < 64 * part * w + 64 * w := by
    rw [Nat.div_div_eq_div_mul, Nat.div_eq_iff (Nat.mul_pos hpos (by decide))]
    have hlow : 64 * part * w = part * (w * 64) := by rw [Nat.mul_comm 64, Nat.mul_assoc, Nat.mul_comm 64]
    omega
  rw [putPart, BitVec.getLsbD_ofNat, decide_eq_true hi, Bool.true_and, testBit_putField, partOf, getLsbD_entryOf hpos _ hi,
    getD_map_range _ (div_lt_elements hw hi)]
  by_cases hin : i / w / 64 = part
  · rw [if_pos hin, if_pos (hpart.1 hin), testBit_joinPieces hpos]
    have hplace : (i - 64 * part * w) / w = i / w % 64 := by
      rw [Nat.mul_comm _ w, Nat.sub_mul_div]
      omega
    have hbit : (i - 64 * part * w) % w = i % w := by
      rw [Nat.mul_comm _ w]
      exact Nat.sub_mul_mod (by rw [Nat.mul_comm]; exact (hpart.1 hin).1)
    rw [hplace, hbit, getD_map_range _ (Nat.mod_lt _ (by decide))]
  · rw [if_neg hin, if_neg (mt hpart.2 hin), testBit_getD_elems hw old hi]
    rfl

/-- What the slot writes a part into has the elements that the table names. -/
theorem elems_oldPart (s : State) (w part : Nat) (d : BitVec 9) {p : Prop} [Decidable p] (hp : p ↔ part = 0) :
    elems w (if p then 0 else s.rq d.toNat) = oldPart s w part d := by
  rw [oldPart, apply_ite (elems w)]
  exact ite_congr (propext hp) (fun _ => rfl) fun _ => rfl

/-! ## Draws (R159, R185) -/

theorem mode_stoch_iff (r : BitVec 3) : r.toNat = 4 ↔ r = 4 := (BitVec.toNat_inj (y := 4#3)).trans Iff.rfl

theorem earlierDraws_first {s : State} (h : s.cur.outs = []) (p : Nat) : s.earlierDraws p = 0 := by
  rw [State.earlierDraws, h]
  rfl

/-- In the first slot of a bundle, element e of a conversion meets the dither pan e places after its phase. -/
theorem ditherFor_eq_ditherOf {s : State} (h : s.cur.outs = []) (r : BitVec 3) (e : Nat) :
    s.ditherFor r.toNat e = ditherOf s r e := by
  rw [State.ditherFor, ditherOf, State.dither, State.panAt, earlierDraws_first h]
  exact ite_congr (propext (mode_stoch_iff r)) (fun _ => rfl) fun _ => rfl

theorem draws_eq_ditherDraw (s : State) (r : BitVec 3) (n : Nat) : s.draws r.toNat n = (ditherDraw s r n).toList := by
  rw [State.draws, ditherDraw, apply_ite Option.toList]
  exact ite_congr (propext (mode_stoch_iff r)) (fun _ => rfl) fun _ => rfl

/-! ## Slots that issue a row with its draws -/

/-- An instruction issues a row that reads and pushes only, and draws what the row draws. -/
def IssuesDraws (s : State) (i : Instr) (d : Does) : Prop :=
  d.lands = [] ∧ exec i s = execSlot s { slotOf d [] with draws := d.draw.toList }

/-- Alone in its bundle and ready, such an instruction leaves what the row gives (R14). -/
theorem IssuesDraws.exec_eq {s : State} {i : Instr} {d : Does} (hi : IssuesDraws s i d) (h : Alone s) (hr : d.ready s) :
    exec i s = .next (d.done s) := by
  obtain ⟨hlands, hexec⟩ := hi
  have hdests : (d.push.toList.map Prod.fst).length ≤ 2 := by
    rw [List.length_map]
    exact Nat.le_trans Option.length_toList_le (by decide)
  rw [hexec]
  refine execSlot_does h hr rfl rfl rfl rfl rfl rfl rfl rfl rfl rfl rfl hdests rfl rfl rfl rfl fun l hl => ?_
  rw [hlands] at hl
  exact absurd hl List.not_mem_nil

section
variable {s : State} {i : Instr} {t : BitVec 3} {d a : BitVec 9}

/-- Lane numbers zipped with the lanes of a head are the lanes by their number. -/
theorem zipWith_rangeFrom_heads (s : State) (q : Nat) (f : Nat → Nat → Nat) :
    (rangeFrom 0 64).zipWith f (elems 32 (s.rq q)) = (List.range 64).map (fun i => f i ((heads s 32 q).getD i 0)) := by
  rw [rangeFrom_zero, zipWith_eq_map_range List.length_range (length_elems32 _)]
  refine List.map_congr_left fun k hk => ?_
  rw [getD_of_lt (by rwa [List.length_range, ← List.mem_range]), List.getElem_range]
  rfl

/-- A slot that reads queues, pushes an entry and draws issues the row with the same reads, entry and draw. -/
theorem issuesDraws_pushes {reads reads' : List (Nat × Bool)} {q lat : Nat} {v v' : Entry} {draws : List (Nat × Nat)}
    {draw : Option (Nat × Nat)} (hexec : exec i s = execSlot s { pushForm t reads q lat v with draws := draws })
    (hreads : reads = reads') (hv : v = v') (hdraws : draws = draw.toList) :
    IssuesDraws s i { pushes t reads' q lat v' with draw := draw } := by
  subst hreads hv hdraws
  exact ⟨rfl, hexec⟩

/-- Conversions of whole lanes (R182). -/
theorem convertForm_issues {r : BitVec 3} {f : Nat → Nat → Nat} (hfirst : s.cur.outs = [])
    (hexec : exec i s = execSlot s (convertForm s t d a r f)) : IssuesDraws s i (convert s t d a r f) := by
  refine issuesDraws_pushes hexec rfl (congrArg (entryOf 32) ?_) (draws_eq_ditherDraw s r 64)
  rw [zipWith_rangeFrom_heads]
  exact List.map_congr_left fun k _ => congrArg (f · _) (ditherFor_eq_ditherOf hfirst r k)

/-- Narrowings of lanes into a part, which read D for every part but 0 (R183, R184). -/
theorem narrowForm_issues {w part : Nat} {readD : Bool} {fresh : Prop} [Decidable fresh] {xs : List Nat} {f : Nat → Nat → Nat}
    {draws : List (Nat × Nat)} {draw : Option (Nat × Nat)}
    (hexec : exec i s = execSlot s
      { viResult t d a readD 2 (putPart w part (if fresh then 0 else s.rq d.toNat) xs) with draws := draws })
    (hw : w ∣ 2048) (hread : readD = true ↔ part ≠ 0) (hfresh : fresh ↔ part = 0)
    (hxs : xs = (List.range 64).map (fun k => f k ((heads s 32 a.toNat).getD k 0))) (hdraws : draws = draw.toList) :
    IssuesDraws s i { narrow s t d a w part f with draw := draw } := by
  refine issuesDraws_pushes hexec (congrArg (List.cons _) ?_) ?_ hdraws
  · exact (ite_congr (propext hread) (fun _ => rfl) fun _ => rfl).trans (ite_not ..)
  · rw [hxs, putPart_eq_partOf hw, elems_oldPart s w part d hfresh]

theorem packForm_issues {p : BitVec 3} {w : Nat} {f f' : Int → Int} (hexec : exec i s = execSlot s (packForm s t d a p w f))
    (hw : w ∣ 2048) (hf : ∀ v, f v = f' v) :
    IssuesDraws s i (narrow s t d a w p.toNat (fun _ x => lowBits (f' (sext x 32)) w)) := by
  have hzero : p = 0 ↔ p.toNat = 0 := BitVec.toNat_inj.symm
  obtain rfl : f = f' := funext hf
  exact narrowForm_issues (draws := []) (draw := none) (f := fun _ x => lowBits (f (sext x 32)) w) hexec hw
    (bne_iff_ne.trans (not_congr hzero)) hzero (map_eq_map_range (length_heads32 ..) _) rfl

/-- Narrowing to BF16 takes the dither value of the converted lane, not of its place in D (R183, R185). -/
theorem vcvtBf16F32_issues (hfirst : s.cur.outs = []) (t : BitVec 3) (d a : BitVec 9) (h : BitVec 1) (r : BitVec 3) :
    IssuesDraws s (.vcvtBf16F32 t d a h r)
      { narrow s t d a 16 h.toNat (fun k x => (decodeF32 x).round 7 r.toNat (ditherOf s r k)) with draw := ditherDraw s r 64 } := by
  have hzero : h = 0 ↔ h.toNat = 0 := BitVec.toNat_inj.symm
  have hone : h = 1 ↔ h.toNat ≠ 0 := by
    have := h.isLt
    exact BitVec.toNat_inj.symm.trans (show h.toNat = 1 ↔ h.toNat ≠ 0 by omega)
  refine narrowForm_issues rfl (by decide) (decide_eq_true_iff.trans hone) hzero ?_ (draws_eq_ditherDraw s r 64)
  rw [zipWith_rangeFrom_heads]
  exact List.map_congr_left fun k _ => congrArg (Num.round 7 r.toNat · _) (ditherFor_eq_ditherOf hfirst r k)

/-- Widening takes half H of the head, element by element (R183). -/
theorem vcvtF32Bf16_issues (s : State) (t : BitVec 3) (d a : BitVec 9) (h : BitVec 1) :
    IssuesDraws s (.vcvtF32Bf16 t d a h) (pushes t [(a.toNat, true)] d.toNat 2
      (entryOf 32 ((List.range 64).map (fun k => (decodeBf16 ((heads s 16 a.toNat).getD (64 * h.toNat + k) 0)).f32)))) := by
  refine issuesDraws_pushes (draw := none) rfl rfl (congrArg (entryOf 32) ?_) rfl
  have hlen : (heads s 16 a.toNat).length = 128 := length_splitPieces ..
  have hhalf : (((heads s 16 a.toNat).drop (64 * h.toNat)).take 64).length = 64 := by
    rw [List.length_take, List.length_drop, hlen]
    omega
  refine (map_eq_map_range hhalf _).trans (List.map_congr_left fun k hk => ?_)
  rw [List.getD_eq_getElem?_getD, List.getElem?_take_of_lt (List.mem_range.1 hk), List.getElem?_drop,
    ← List.getD_eq_getElem?_getD]

end

/-! ## The table -/

theorem rowConvert_issues {s : State} {i : Instr} {d : Does} (hfirst : s.cur.outs = []) (h : rowConvert s i = some d) :
    IssuesDraws s i d := by
  unfold rowConvert at h
  split at h
  all_goals cases h
  -- integers and FP32
  case h_1 | h_2 | h_3 | h_4 => exact convertForm_issues hfirst rfl
  -- FP32 and BF16
  case h_5 => exact vcvtBf16F32_issues hfirst ..
  case h_6 => exact vcvtF32Bf16_issues ..
  -- saturating narrowings
  case h_7 => exact packForm_issues rfl (by decide) (satS_eq_clampS · 16)
  case h_8 => exact packForm_issues rfl (by decide) (satS_eq_clampS · 8)
  case h_9 => exact packForm_issues rfl (by decide) (satU_eq_clampU · 8)

/-- Settles O26: element by element the slot rounds, clamps and places as the table says, and it draws 64 values of the dither
pan where its mode is stoch, and none under any other. -/
theorem vectorConversions : Obligations.VectorConversions :=
  fun _ _ _ h hrow hready => (rowConvert_issues h.first hrow).exec_eq h hready

end Sys2Proof.Proofs.Lanes
end
end

