-- ==== Sys2Proof/Proofs/Tiles.lean ====
section
/-! The M slot: slots that set busy bits, read-outs of accumulators, and transposes. -/

noncomputable section

namespace Sys2Proof.Proofs.Tiles

open Sys2Proof.Machine Sys2Proof.Safety Sys2Proof.Proofs.Lanes

/-! ## Busy bits (R203, R204) -/

section
variable {s : State}

theorem isBusy_eq_false {r : BusyReg} (h : ¬ IsBusy s r) : s.curCore.isBusy s.now r = false := by
  rw [Core.isBusy, List.any_eq_false]
  intro b hb hbusy
  rw [Bool.and_eq_true, decide_eq_true_iff, decide_eq_true_iff] at hbusy
  exact h ⟨b, hb, hbusy⟩

theorem tileHeld_reader {t : Nat} (h : TileReadable s t) : s.curCore.tileHeld s.now t false = false := by
  rw [Core.tileHeld, isBusy_eq_false h]
  rfl

theorem tileHeld_writer {t : Nat} (h : TileWritable s t) : s.curCore.tileHeld s.now t true = false := by
  rw [Core.tileHeld, isBusy_eq_false h.1, isBusy_eq_false h.2]
  rfl

theorem accHeld_reader {n : Nat} (h : AccReadable s n) : s.curCore.accHeld s.now n false = false := by
  rw [Core.accHeld, isBusy_eq_false h]
  rfl

/-- The effect that sets a busy bit. -/
def busyEff (b : BusyReg × Nat × Bool) : Eff := .busy b.1 b.2.1 b.2.2

theorem busyEff_plain (b : BusyReg × Nat × Bool) : (busyEff b).Plain := by
  refine ⟨?_, ?_, fun _ _ => ?_⟩ <;> exact Eff.noConfusion

theorem applyEff_busyEff {t : State} (ht : t.now = s.now) (n : Nat) (b : BusyReg × Nat × Bool) :
    applyEff t n (busyEff b) = t.setCore n (withBusy s [b] (t.core n)) := by
  rw [withBusy, ← ht]
  rfl

theorem withBusy_nil (c : Core) : withBusy s [] c = c := by
  rw [withBusy, List.map_nil, List.append_nil]

theorem withBusy_cons (b : BusyReg × Nat × Bool) (bs : List (BusyReg × Nat × Bool)) (c : Core) :
    withBusy s (b :: bs) c = withBusy s bs (withBusy s [b] c) := by
  simp only [withBusy, List.map_cons, List.map_nil, List.append_assoc, List.singleton_append]

/-- Effects that set busy bits change one core, and set them from the ply of the issue. -/
theorem onlyCore_busy {t : State} {n : Nat} {c : Core} (h : OnlyCore s n t c) (bs : List (BusyReg × Nat × Bool)) :
    OnlyCore s n ((bs.map busyEff).foldl (fun u e => applyEff u n e) t) (withBusy s bs c) := by
  induction bs generalizing t c with
  | nil => rwa [withBusy_nil]
  | cons b bs ih =>
    rw [List.map_cons, List.foldl_cons, applyEff_busyEff h.fields.1, withBusy_cons b bs]
    exact ih (h.step (withBusy s [b]))

theorem committed_withBusy (bs : List (BusyReg × Nat × Bool)) (c : Core) (target : Nat) :
    committed s (withBusy s bs c) target = also s (withBusy s bs) (committed s c target) := by
  have hcore : (committed s c target).core s.cur.core =
      { c with pc := BitVec.ofNat 22 target, held := 0, wait := none, nextIssue := s.now + 1 + field s.cur.w 3 0 } :=
    State.core_setCore_same ..
  rw [also, hcore]
  change _ = { (s.setCore s.cur.core _).setCore s.cur.core _ with seq := s.seq + 1 }
  rw [State.setCore_setCore]
  rfl

/-- What a row gives that sets busy bits beside its results. -/
def busyActs (s : State) (d : Does) (bs : List (BusyReg × Nat × Bool)) : Acts := { does := d, more := also s (withBusy s bs) }

/-- An instruction issues a row that draws, whose results land at later plies, and that sets busy bits. -/
structure IssuesBusy (s : State) (i : Instr) (d : Does) (bs : List (BusyReg × Nat × Bool)) (o : SlotOut) : Prop where
  exec : exec i s = execSlot s o
  form : o = { slotOf d o.reads with
      hold := o.hold, causes := o.causes, draws := o.draws, lands := o.lands, effs := bs.map busyEff }
  hold : o.hold = false
  causes : o.causes = []
  draws : o.draws = d.draw.toList
  lands : o.lands = d.lands
  later : ∀ l ∈ d.lands, l.1 ≠ 0

/-- Alone in its bundle and ready, such an instruction leaves what the row gives (R14). -/
theorem IssuesBusy.exec_eq {i : Instr} {d : Does} {bs : List (BusyReg × Nat × Bool)} {o : SlotOut} (hi : IssuesBusy s i d bs o)
    (h : Alone s) (hr : (busyActs s d bs).ready s) : Machine.exec i s = .next ((busyActs s d bs).done s) := by
  obtain ⟨hexec, hform, hhold, hcauses, hdraws, hlands, hlater⟩ := hi
  rw [hhold, hcauses, hdraws, hlands] at hform
  have hdests : (d.push.toList.map Prod.fst).length ≤ 2 := by
    rw [List.length_map]
    exact Nat.le_trans Option.length_toList_le (by decide)
  rw [hexec, hform]
  refine execSlot_acts h hr rfl rfl rfl rfl rfl rfl rfl rfl rfl rfl hdests rfl rfl rfl rfl
    (fun l hl h0 => absurd h0 (hlater l hl)) (fun e he => ?_) (fun _ => rfl) fun t c x hc => ?_
  · obtain ⟨b, -, rfl⟩ := List.mem_map.1 he
    exact busyEff_plain b
  · exact ((onlyCore_busy hc bs).committed x).trans (committed_withBusy bs c x)

/-- What an instruction issues is a row with such results and busy bits. -/
def IssuesActs (s : State) (i : Instr) (a : Acts) : Prop := ∃ d bs o, a = busyActs s d bs ∧ IssuesBusy s i d bs o

theorem IssuesActs.exec_eq {i : Instr} {a : Acts} (hi : IssuesActs s i a) (h : Alone s) (hr : a.ready s) :
    exec i s = .next (a.done s) := by
  obtain ⟨d, bs, o, rfl, hissues⟩ := hi
  exact hissues.exec_eq h hr

end

/-! ## Rows of pieces -/

theorem joinPieces_lt (w : Nat) (xs : List Nat) : joinPieces w xs < 2 ^ (w * xs.length) := by
  induction xs with
  | nil => exact Nat.two_pow_pos _
  | cons x xs ih =>
    rw [joinPieces, Nat.shiftLeft_eq, Nat.mul_comm _ (2 ^ w), List.length_cons, Nat.mul_succ, Nat.add_comm (w * _), Nat.pow_add]
    calc x % 2 ^ w + 2 ^ w * joinPieces w xs
        < 2 ^ w + 2 ^ w * joinPieces w xs := Nat.add_lt_add_right (Nat.mod_lt _ (Nat.two_pow_pos w)) _
      _ = 2 ^ w * (joinPieces w xs + 1) := by rw [Nat.mul_succ, Nat.add_comm]
      _ ≤ 2 ^ w * 2 ^ (w * xs.length) := Nat.mul_le_mul_left _ ih

theorem getD_map_range_of_le {n i : Nat} (f : Nat → Nat) (hi : n ≤ i) : ((List.range n).map f).getD i 0 = 0 := by
  rw [List.getD_eq_getElem?_getD, List.getElem?_eq_none (by rwa [List.length_map, List.length_range]), Option.getD_none]

theorem field_eq_div_mod (x hi lo : Nat) : field x hi lo = x / 2 ^ lo % 2 ^ (hi + 1 - lo) := by
  rw [field, Nat.shiftRight_eq_div_pow]

theorem getD_splitPieces {w n k : Nat} (hk : k < n) (x : Nat) : (splitPieces w n x).getD k 0 = x / 2 ^ (w * k) % 2 ^ w := by
  induction n generalizing x k with
  | zero => exact absurd hk (Nat.not_lt_zero k)
  | succ n ih =>
    cases k with
    | zero => rw [splitPieces, List.getD_cons_zero, Nat.mul_zero, Nat.pow_zero, Nat.div_one]
    | succ k =>
      rw [splitPieces, List.getD_cons_succ, ih (Nat.lt_of_succ_lt_succ hk), Nat.shiftRight_eq_div_pow, Nat.div_div_eq_div_mul,
        ← Nat.pow_add, Nat.mul_succ, Nat.add_comm w]

theorem mapIdx_map_range {α β : Type} (n : Nat) (f : Nat → α → β) (g : Nat → α) :
    ((List.range n).map g).mapIdx f = (List.range n).map (fun k => f k (g k)) := by
  refine List.ext_getElem (by rw [List.length_mapIdx, List.length_map, List.length_map]) fun k _ _ => ?_
  rw [List.getElem_mapIdx, List.getElem_map, List.getElem_map, List.getElem_range]

theorem map_rangeFrom {α : Type} (a n : Nat) (f : Nat → α) :
    (rangeFrom a n).map f = (List.range n).map (fun k => f (a + k)) := by
  rw [rangeFrom_eq_range', List.range'_eq_map_range, List.map_map]
  rfl

/-- Rows of m pieces, joined row by row, are the pieces joined one after the other. -/
theorem joinPieces_rows {w m : Nat} (hw : 0 < w) (hm : 0 < m) (rows : Nat) (g : Nat → Nat → Nat) :
    joinPieces (w * m) ((List.range rows).map (fun i => joinPieces w ((List.range m).map (g i)))) =
      joinPieces w ((List.range (rows * m)).map (fun e => g (e / m) (e % m))) := by
  refine Nat.eq_of_testBit_eq fun b => ?_
  rw [testBit_joinPieces (Nat.mul_pos hw hm), testBit_joinPieces hw, ← Nat.div_div_eq_div_mul]
  by_cases hrow : b / w / m < rows
  · have hpiece : b / w < rows * m := (Nat.div_lt_iff_lt_mul hm).1 hrow
    rw [getD_map_range _ hrow, testBit_joinPieces hw, getD_map_range _ hpiece, Nat.mod_mul_right_div_self,
      getD_map_range _ (Nat.mod_lt _ hm), Nat.mod_mod_of_dvd _ (Nat.dvd_mul_right w m)]
  · have hrow' : rows ≤ b / w / m := Nat.le_of_not_lt hrow
    have hpiece : rows * m ≤ b / w := (Nat.le_div_iff_mul_le hm).1 hrow'
    rw [getD_map_range_of_le _ hrow', getD_map_range_of_le _ hpiece, Nat.zero_testBit, Nat.zero_testBit]

theorem joinRows_map_range (w m rows : Nat) (g : Nat → Nat → Nat) :
    joinRows w ((List.range rows).map (fun i => (List.range m).map (g i))) =
      joinPieces (w * m) ((List.range rows).map (fun i => joinPieces w ((List.range m).map (g i)))) := by
  cases rows with
  | zero => rfl
  | succ rows =>
    rw [List.range_succ_eq_map, List.map_cons, List.map_cons, joinRows, List.length_map, List.length_range, List.map_cons,
      List.map_map, List.map_map, List.map_map]
    rfl

/-! ## Read-outs (R218) -/

section
variable {s : State} {i : Instr}

theorem accRowElems_eq_map_range (s : State) (n : BitVec 1) (r : Nat) {col m : Nat} (h : col + m ≤ 192) :
    accRowElems s.curCore n.toNat r col m = (List.range m).map (fun j => accElem s n r (col + j)) := by
  have hlen : (accRowElems s.curCore n.toNat r col m).length = m := by
    rw [accRowElems, List.length_take, List.length_drop, length_splitPieces]
    omega
  refine List.ext_getElem (by rw [hlen, List.length_map, List.length_range]) fun j hj _ => ?_
  rw [hlen] at hj
  rw [← getD_of_lt, List.getElem_map, List.getElem_range, accElem, ← getD_splitPieces (n := 192) (by omega), accRowElems,
    List.getD_eq_getElem?_getD, List.getElem?_take_of_lt hj, List.getElem?_drop, ← List.getD_eq_getElem?_getD]

/-- The rows of a read-out, joined: element e comes from row e / m and column e mod m. -/
theorem joinRows_readOut (s : State) (n : BitVec 1) (f : Nat → Machine.Num → Nat) (mul : Machine.Num) {w m col : Nat}
    (row rows : Nat) (hw : 0 < w) (hm : 0 < m) (hcol : col + m ≤ 192) :
    joinRows w (readOut f mul ((rangeFrom row rows).map (fun k => accRowElems s.curCore n.toNat k col m))) =
      joinPieces w ((List.range (rows * m)).map (fun e =>
        f e (Machine.Num.mul (decodeF32 (accElem s n (row + e / m) (col + e % m))) mul))) := by
  simp only [map_rangeFrom, accRowElems_eq_map_range s n _ hcol, readOut, mapIdx_map_range, List.length_map, List.length_range]
  rw [joinRows_map_range, joinPieces_rows hw hm]
  simp only [Nat.div_add_mod]

variable {t rm : BitVec 3} {n : BitVec 1} {u c : BitVec 4} {r : BitVec 6} {rows cols col w kind tail bytes : Nat}

/-- The bits of a tile after a read-out (R218). -/
def readOutTile (s : State) (n : BitVec 1) (r : BitVec 6) (rows cols col w : Nat) (f : Nat → Machine.Num → Nat) (tail : Nat) :
    BitVec 101376 :=
  BitVec.ofNat 101376 (joinPieces w ((List.range (rows * cols)).map (fun e =>
    f e (Machine.Num.mul (decodeF32 (accElem s n (uw s r / 2 ^ 24 % 2 ^ 8 + e / cols) (col + e % cols)))
      (decodeF32 (uw s r / 2 ^ 32))))) + tail)

/-- MUL is the upper half of the operand. -/
theorem field_mul (s : State) (r : BitVec 6) : field (uw s r) 63 32 = uw s r / 2 ^ 32 := by
  have hlt : uw s r < 2 ^ 64 := (s.rs r).isLt
  rw [field_eq_div_mod, Nat.mod_eq_of_lt]
  omega

theorem ofNat_joinRows_eq_readOutTile (f : Nat → Machine.Num → Nat) (tail : Nat) (hw : 0 < w) (hcols : 0 < cols)
    (hcol : col + cols ≤ 192) :
    BitVec.ofNat 101376 (joinRows w (readOut f (decodeF32 (field (uw s r) 63 32))
      ((rangeFrom (field (uw s r) 31 24) rows).map (fun k => accRowElems s.curCore n.toNat k col cols))) + tail) =
      readOutTile s n r rows cols col w f tail := by
  rw [joinRows_readOut s n f _ _ rows hw hcols hcol, field_mul, field_eq_div_mod]
  rfl

/-- What the raw read-outs put into the tile: every element rounded, and no sidecar. -/
theorem aoutSlot_raw_lands (hw : 0 < w) : (aoutSlot s t n u r rm none rows w).lands =
    [(8, .tile u.toNat 0 12288
      (readOutTile s n r rows 192 0 w (fun e x => x.round (w - 9) rm.toNat (s.ditherFor rm.toNat e)) 0)),
     flagged (2 ^ u.toNat)] :=
  congrArg (fun v => [(8, Land.tile u.toNat 0 12288 v), flagged (2 ^ u.toNat)])
    (ofNat_joinRows_eq_readOutTile _ 0 hw (by decide) (by decide))

/-- A sidecar of equal nibbles, in its place above the data. -/
theorem nibbles_eq (k entry place : Nat) :
    joinPieces 4 (List.replicate k entry) * 2 ^ place = joinPieces 4 ((rangeFrom 0 k).map (fun _ => entry)) <<< place := by
  rw [rangeFrom_zero, List.map_const', List.length_range, Nat.shiftLeft_eq]

/-- What the MX read-outs put into the tile: a code for every element, and the index of the scale for every block. -/
theorem aoutSlot_mx_lands (fmt : Nat) (hw : 0 < w) : (aoutSlot s t n u r rm (some fmt) rows w).lands =
    [(8, .tile u.toNat 0 (12288 + 2 * rows)
      (readOutTile s n r rows 128 (64 * (uw s r / 2 ^ 16 % 2)) w
        (fun e x => lowBits (mxCode x (s.curCore.scaleEntry (uw s r / 2 ^ 11 % 2) (uw s r / 2 ^ 12 % 16)).toNat rm.toNat
          (s.ditherFor rm.toNat e) (mxBound fmt)) w)
        (joinPieces 4 (List.replicate (4 * rows) (uw s r / 2 ^ 12 % 16)) * 2 ^ (8 * 12288)))),
     flagged (2 ^ u.toNat)] := by
  have hside : uw s r / 2 ^ 11 % 2 = field (uw s r) 11 11 := (field_eq_div_mod (uw s r) 11 11).symm
  have hentry : uw s r / 2 ^ 12 % 16 = field (uw s r) 15 12 := (field_eq_div_mod (uw s r) 15 12).symm
  have hhalf : uw s r / 2 ^ 16 % 2 = field (uw s r) 16 16 := (field_eq_div_mod (uw s r) 16 16).symm
  have hcol : 64 * field (uw s r) 16 16 + 128 ≤ 192 := by omega
  rw [hside, hentry, hhalf, nibbles_eq (4 * rows) (field (uw s r) 15 12) (8 * 12288),
    ← ofNat_joinRows_eq_readOutTile _ _ hw (by decide) hcol]
  rfl

theorem tileLands_later {lat bits : Nat} (hlat : lat ≠ 0) (l : Land) : ∀ x ∈ [(lat, l), flagged bits], x.1 ≠ 0 :=
  List.forall_mem_cons.2 ⟨hlat, List.forall_mem_singleton.2 Nat.one_ne_zero⟩

/-- Where the checks of the table pass, the slot of a read-out has no cause and is not held, so it issues the row if it lands the
row's tile. -/
theorem readsOut_issues {mx : Option Nat} {mbz : Bool} {f : Nat → Machine.Num → Nat} {a : Acts}
    (hexec : exec i s = execSlot s (aoutSlot s t n u r rm mx rows w))
    (h : readsOut s t n u r rm kind rows cols col w mbz f tail bytes = some a)
    (hkind : mx.elim 0 (· + 1) = kind) (hmbz : (mx.isNone && field (uw s r) 16 11 != 0) = mbz)
    (hcols : (if mx.isNone then 192 else 128) = cols)
    (hlands : (aoutSlot s t n u r rm mx rows w).lands =
      [(8, .tile u.toNat 0 bytes (readOutTile s n r rows cols col w f tail)), flagged (2 ^ u.toNat)]) :
    IssuesActs s i a := by
  obtain ⟨⟨hz, hhigh, hlow, hrows, htile, hacc, hwritable⟩, ha⟩ := Option.ite_none_right_eq_some.1 h
  subst hcols hkind hmbz
  have h17 : field (uw s r) 23 17 = 0 := (field_eq_div_mod ..).trans hhigh
  have h0 : field (uw s r) 10 0 = 0 := by rwa [field_eq_div_mod, Nat.pow_zero, Nat.div_one]
  have hrow : ¬ 192 < field (uw s r) 31 24 + rows := by rwa [field_eq_div_mod, Nat.not_lt]
  have hmust : ¬ ((field (uw s r) 23 17 != 0 || field (uw s r) 10 0 != 0 || (mx.isNone && field (uw s r) 16 11 != 0)) ||
      decide (192 < field (uw s r) 31 24 + rows)) = true := by
    rw [h17, h0, decide_eq_false hrow, Bool.or_false]
    exact hz
  refine ⟨_, _, _, (Option.some.inj ha).symm, hexec, rfl, ?_, ?_, ?_, hlands, tileLands_later (by decide) _⟩
  · exact Bool.or_eq_false_iff.2 ⟨accHeld_reader hacc, tileHeld_writer hwritable⟩
  · refine (if_neg hmust).trans (if_neg ?_)
    rw [bne_iff_ne, Decidable.not_not, htile]
    cases mx <;> rfl
  · exact draws_eq_ditherDraw s rm _

theorem readsRaw_issues {a : Acts} (hexec : exec i s = execSlot s (aoutSlot s t n u r rm none rows w)) (hw : 0 < w)
    (h : readsRaw s t n u r rm rows w (w - 9) = some a) : IssuesActs s i a :=
  readsOut_issues hexec h rfl (congrArg (· != 0) (field_eq_div_mod ..)) rfl (aoutSlot_raw_lands hw)

theorem readsMx_issues {fmt : Nat} {a : Acts} (hexec : exec i s = execSlot s (aoutSlot s t n u r rm (some fmt) rows w))
    (hw : 0 < w) (h : readsMx s t n u r rm rows w fmt = some a) : IssuesActs s i a := by
  unfold readsMx at h
  exact readsOut_issues hexec h rfl rfl rfl (aoutSlot_mx_lands fmt hw)

end

/-! ## Transposes (R222) -/

section
variable {s : State} {i : Instr} {t : BitVec 3} {u c : BitVec 4}

theorem getLsbD_bitsWhere {k b : Nat} (f : Nat → Bool) (hb : b < k) : (bitsWhere k f).getLsbD b = f b := by
  rw [bitsWhere, BitVec.getLsbD_ofNat, decide_eq_true hb, Bool.true_and, testBit_joinPieces Nat.one_pos, Nat.div_one,
    Nat.mod_one, getD_map_range _ hb, Nat.testBit_zero]
  cases f b <;> rfl

/-- A number whose low N bits are replaced. -/
theorem testBit_add_shifted {low N : Nat} (hlow : low < 2 ^ N) (x b : Nat) :
    (low + (x >>> N) <<< N).testBit b = if b < N then low.testBit b else x.testBit b := by
  rw [Nat.add_comm, Nat.shiftLeft_eq, Nat.mul_comm, Nat.testBit_two_pow_mul_add _ hlow]
  refine ite_congr rfl (fun _ => rfl) fun hb => ?_
  rw [Nat.testBit_shiftRight, Nat.add_sub_cancel' (Nat.le_of_not_lt hb)]

/-- The lines of a transposed tile of elements of w bits, one after the other: element ρ of row k as element k of line ρ. -/
def transposedLines (tile w edge : Nat) : Nat :=
  joinPieces w ((List.range (edge * 128)).map (fun e => tile >>> (768 * (e % 128) + w * (e / 128))))

theorem transposeTile_eq (fmt tile : Nat) (hw : 0 < mxBits fmt) :
    transposeTile fmt tile =
      transposedLines tile (mxBits fmt) (mxEdge fmt) + (tile >>> (8 * 12288)) <<< (8 * 12288) := by
  have hrows := joinPieces_rows hw (m := 128) (by decide) (mxEdge fmt) (fun i k => tile >>> (768 * k + mxBits fmt * i))
  rw [Nat.mul_comm _ 128, ← rangeFrom_zero, ← rangeFrom_zero] at hrows
  exact congrArg (· + (tile >>> (8 * 12288)) <<< (8 * 12288)) hrows

theorem transposedLines_lt (tile w edge : Nat) : transposedLines tile w edge < 2 ^ (w * (edge * 128)) := by
  have hlt := joinPieces_lt w ((List.range (edge * 128)).map (fun e => tile >>> (768 * (e % 128) + w * (e / 128))))
  rwa [List.length_map, List.length_range] at hlt

theorem testBit_transposedLines (tile : Nat) {w edge b : Nat} (hw : 0 < w) (hb : b < w * (edge * 128)) :
    (transposedLines tile w edge).testBit b = tile.testBit (768 * (b % (128 * w) / w) + w * (b / (128 * w)) + b % w) := by
  rw [transposedLines, testBit_joinPieces hw, getD_map_range _ (Nat.div_lt_of_lt_mul hb), Nat.testBit_shiftRight,
    Nat.mod_mul_left_div_self, Nat.mul_comm 128 w, Nat.div_div_eq_div_mul]

/-- Bit by bit, a transposed tile takes element ρ of row k of the source as element k of line ρ, and keeps the sidecar. -/
theorem testBit_transposeTile (s : State) (c : BitVec 4) {fmt : Nat} (b : Nat) (hw : 0 < mxBits fmt)
    (hsize : mxBits fmt * (mxEdge fmt * 128) = 8 * 12288) :
    (transposeTile fmt (s.curCore.tileOf c.toNat).toNat).testBit b = transposedBit s c (mxBits fmt) b := by
  have hlt := transposedLines_lt (s.curCore.tileOf c.toNat).toNat (mxBits fmt) (mxEdge fmt)
  rw [hsize] at hlt
  rw [transposeTile_eq _ _ hw, testBit_add_shifted hlt, transposedBit]
  refine ite_congr rfl (fun hb => ?_) fun _ => rfl
  rw [testBit_transposedLines _ hw (hsize ▸ hb)]
  rfl

theorem transposes_issues {fmt w : Nat} {a : Acts} (hexec : exec i s = execSlot s (ttrSlot s t u c fmt))
    (hbits : mxBits fmt = w) (hw : 0 < w) (hsize : w * (mxEdge fmt * 128) = 8 * 12288) (h : transposes s t u c fmt w = some a) :
    IssuesActs s i a := by
  subst hbits
  obtain ⟨⟨hkind, hreadable, hwritable⟩, ha⟩ := Option.ite_none_right_eq_some.1 h
  have htile : BitVec.ofNat 101376 (transposeTile fmt (s.curCore.tileOf c.toNat).toNat) =
      bitsWhere 101376 (transposedBit s c (mxBits fmt)) := by
    refine BitVec.eq_of_getLsbD_eq fun b hb => ?_
    rw [getLsbD_bitsWhere _ hb, BitVec.getLsbD_ofNat, decide_eq_true hb, Bool.true_and, testBit_transposeTile s c b hw hsize]
  refine ⟨_, _, _, (Option.some.inj ha).symm, hexec, rfl, ?_, ?_, rfl, ?_, tileLands_later (by decide) _⟩
  · exact Bool.or_eq_false_iff.2 ⟨tileHeld_reader hreadable, tileHeld_writer hwritable⟩
  · exact if_neg (by rw [bne_iff_ne, Decidable.not_not]; exact hkind)
  · exact congrArg (fun v => [(16, Land.tile u.toNat 0 12672 v), flagged (2 ^ u.toNat)]) htile

end

/-! ## The table -/

theorem rowReadOut_issues {s : State} {i : Instr} {a : Acts} (h : rowReadOut s i = some a) : IssuesActs s i a := by
  unfold rowReadOut at h
  split at h
  case h_1 | h_2 => exact readsRaw_issues rfl (by decide) h
  case h_3 | h_4 | h_5 => exact readsMx_issues rfl (by decide) h
  case h_6 | h_7 | h_8 => exact transposes_issues rfl rfl (by decide) rfl h
  case h_9 => exact nomatch h

/-- Settles O35: a read-out lays its rows end to end and rounds each element, a transpose moves bit for bit, and beside the tile the
slot sets only flags and busy bits. -/
theorem readOutSlots : Obligations.ReadOutSlots :=
  fun _ _ _ h hrow hready => (rowReadOut_issues hrow).exec_eq h hready

end Sys2Proof.Proofs.Tiles
end
end

