-- ==== Sys2Proof/Proofs/Streams.lean ====
section
/-! The B slot: settings of pans and of the unit, and the bitwise operations on streams with their checks. -/

noncomputable section

namespace Sys2Proof.Proofs.Brine

open Sys2Proof.Machine Sys2Proof.Safety Sys2Proof.Proofs.Lanes

/-! ## Slots that issue a row of the B slot -/

/-- An instruction issues a row with its draws. Of the results of the row, those of latency 0 are of the kinds that take effect with the
bundle (R237). -/
def IssuesBrine (s : State) (i : Instr) (d : Does) : Prop :=
  (∀ l ∈ d.lands, l.1 = 0 → l.2.atOnce = true) ∧ ∃ rs, exec i s = execSlot s { slotOf d rs with draws := d.draw.toList }

/-- Alone in its bundle and ready, such an instruction leaves what the row gives (R14). -/
theorem IssuesBrine.exec_eq {s : State} {i : Instr} {d : Does} (hi : IssuesBrine s i d) (h : Alone s) (hr : d.ready s) :
    exec i s = .next (d.done s) := by
  obtain ⟨hlands, rs, hexec⟩ := hi
  have hdests : (d.push.toList.map Prod.fst).length ≤ 2 := by
    rw [List.length_map]
    exact Nat.le_trans Option.length_toList_le (by decide)
  rw [hexec]
  exact execSlot_does h hr rfl rfl rfl rfl rfl rfl rfl rfl rfl rfl rfl hdests rfl rfl rfl rfl hlands

/-- A brine result lands its data later and its tags with the bundle (R228, R237). -/
theorem brine_atOnce {t : BitVec 3} {d : BitVec 4} {lat : Nat} {v : BitVec 65536} {len : BitVec 3} {pans : BitVec 16} (hlat : lat ≠ 0) :
    ∀ l ∈ (brine t d lat v len pans).lands, l.1 = 0 → l.2.atOnce = true :=
  List.forall_mem_cons.2 ⟨fun h0 => absurd h0 hlat, List.forall_mem_singleton.2 fun _ => rfl⟩

section
variable {s : State} {i : Instr} {t : BitVec 3}

/-! ## Pans and lengths (R241) -/

/-- In the first slot of a bundle, the values of a pan start at its phase. -/
theorem panAt_eq_panNext (hfirst : s.cur.outs = []) (n : BitVec 4) (k lane : Nat) : s.panAt n.toNat k lane = panNext s n k lane := by
  rw [State.panAt, earlierDraws_first hfirst]
  rfl

/-- Settings of the brine unit take effect with the bundle. -/
theorem setting_issues {rs : List Reg} {l : Land}
    (hexec : exec i s = execSlot s { SlotOut.empty 7 t.toNat with reads := rs, lands := [(0, l)] }) (hl : l.atOnce = true) :
    IssuesBrine s i { cls := 7, tag := t, lands := [(0, l)] } :=
  ⟨List.forall_mem_singleton.2 fun _ => hl, rs, hexec⟩

theorem panRead_issues {r : BitVec 6} {v v' : Word}
    (hexec : exec i s = execSlot s { SlotOut.empty 7 t.toNat with lands := landScalar r 1 v }) (hv : v = v') :
    IssuesBrine s i (writes 7 t r 1 v') := by
  subst hv
  exact ⟨fun l hl h0 => absurd h0 (lands_later Nat.one_ne_zero l hl), [], hexec⟩

/-- PAUX takes the scramble and the phase from their fields of the operand. -/
theorem ofNat_field_eq_extractLsb' (x : Word) (hi lo : Nat) :
    BitVec.ofNat (hi + 1 - lo) (field x.toNat hi lo) = x.extractLsb' lo (hi + 1 - lo) := by
  refine BitVec.eq_of_toNat_eq ?_
  rw [BitVec.toNat_ofNat, field, Nat.mod_mod, BitVec.extractLsb'_toNat]

theorem paux_issues (s : State) (t : BitVec 3) (n : BitVec 4) (r : BitVec 6) :
    IssuesBrine s (.paux t n r)
      { cls := 7, tag := t, lands := [(0, .panAux n.toNat ((s.rs r).extractLsb' 16 10) ((s.rs r).extractLsb' 0 16))] } := by
  rw [← ofNat_field_eq_extractLsb' (s.rs r) 25 16, ← ofNat_field_eq_extractLsb' (s.rs r) 15 0]
  exact setting_issues rfl rfl

/-- PGETA in the first slot of a bundle reads the phase as it stands. -/
theorem pgeta_issues (hfirst : s.cur.outs = []) (t : BitVec 3) (n : BitVec 4) (r : BitVec 6) :
    IssuesBrine s (.pgeta t n r) (writes 7 t r 1 (BitVec.ofNat 64
      ((s.curCore.panOf n.toNat).scr.toNat * 2 ^ 16 + (s.curCore.panOf n.toNat).ph.toNat))) := by
  refine panRead_issues rfl (congrArg (BitVec.ofNat 64) ?_)
  rw [earlierDraws_first hfirst, Nat.add_zero, Nat.mod_eq_of_lt (s.curCore.panOf n.toNat).ph.isLt, Nat.shiftLeft_eq]

/-! ## Bitwise operations on streams (R236, R243) -/

theorem lengthCauses_eq_nil {regs : List (BitVec 4)} (h : ∀ r ∈ regs, tagOf s r = tagOf s (regs.headD 0)) :
    lengthCauses s.curCore regs = [] := by
  cases regs with
  | nil => rfl
  | cons a regs =>
    refine if_pos (List.all_eq_true.2 fun x hx => decide_eq_true ?_)
    obtain ⟨r, hr, rfl⟩ := List.mem_map.1 hx
    exact congrArg BitVec.toNat (h r hr)

/-- A stream operation whose registers carry one length tag, and whose pans pass, gives its bits, that tag and its pan mask. -/
theorem streamSlot_issues {d : BitVec 4} {regs : List (BitVec 4)} {bad : List Cause} {v : BitVec 65536} {pans : BitVec 16}
    (hexec : exec i s = execSlot s (streamSlot s t d regs bad v pans))
    (htags : ∀ r ∈ regs, tagOf s r = tagOf s (regs.headD 0)) (hbad : bad = []) :
    IssuesBrine s i (brine t d 1 v (tagOf s (regs.headD 0)) pans) := by
  subst hbad
  refine ⟨brine_atOnce Nat.one_ne_zero, regs.map (fun r => .brine r.toNat), hexec.trans (congrArg (execSlot s) ?_)⟩
  rw [streamSlot, lengthCauses_eq_nil htags]
  rfl

theorem correlated_eq_nil {sub : Nat} {regs : List (BitVec 4)} {bad : Bool} (h : bad = false) :
    correlated s.curCore sub regs bad = [] := by
  rw [h]
  rfl

variable {d a b r : BitVec 4} {v : BitVec 65536} {pans : BitVec 16}

theorem tags_two (h : tagOf s a = tagOf s b) : ∀ r ∈ [a, b], tagOf s r = tagOf s a :=
  List.forall_mem_cons.2 ⟨rfl, List.forall_mem_singleton.2 h.symm⟩

/-- Products, of streams that share no pan. -/
theorem product_issues {sub : Nat}
    (hexec : exec i s = execSlot s (streamSlot s t d [a, b] (correlated s.curCore sub [a, b] (s.rmask a &&& s.rmask b != 0)) v pans))
    (h : tagOf s a = tagOf s b ∧ pansOf s a &&& pansOf s b = 0) : IssuesBrine s i (brine t d 1 v (tagOf s a) pans) :=
  streamSlot_issues hexec (tags_two h.1) (correlated_eq_nil (bne_eq_false_iff_eq.2 h.2))

/-- A selection, by a stream that shares no pan with those it selects from. -/
theorem bmux_issues (h : tagOf s a = tagOf s b ∧ tagOf s a = tagOf s r ∧ pansOf s r &&& (pansOf s a ||| pansOf s b) = 0) :
    IssuesBrine s (.bmux t d a b r) (brine t d 1 ((s.rb r &&& s.rb b) ||| (~~~(s.rb r) &&& s.rb a)) (tagOf s a)
      (pansOf s a ||| pansOf s b ||| pansOf s r)) := by
  obtain ⟨hb, hr, hpans⟩ := h
  have htags : ∀ x ∈ [a, b, r], tagOf s x = tagOf s a :=
    List.forall_mem_cons.2 ⟨rfl, List.forall_mem_cons.2 ⟨hb.symm, List.forall_mem_singleton.2 hr.symm⟩⟩
  exact streamSlot_issues rfl htags (correlated_eq_nil (bne_eq_false_iff_eq.2 hpans))

/-- Minimum and maximum, of streams from one and the same pan. -/
theorem extremum_issues
    (hexec : exec i s = execSlot s (streamSlot s t d [a, b]
      (correlated s.curCore 3 [a, b] (s.rmask a != s.rmask b || popCount 16 (s.rmask a).toNat != 1)) v pans))
    (h : tagOf s a = tagOf s b ∧ pansOf s a = pansOf s b ∧ onesOf 16 (pansOf s a).toNat = 1) :
    IssuesBrine s i (brine t d 1 v (tagOf s a) pans) := by
  obtain ⟨htag, hpans, hone⟩ := h
  refine streamSlot_issues hexec (tags_two htag) (correlated_eq_nil (Bool.or_eq_false_iff.2 ⟨bne_eq_false_iff_eq.2 hpans, ?_⟩))
  rw [popCount_eq_onesOf]
  exact bne_eq_false_iff_eq.2 hone

/-- An operation on one stream passes every check. -/
theorem oneStream_issues (hexec : exec i s = execSlot s (streamSlot s t d [a] [] v pans)) :
    IssuesBrine s i (brine t d 1 v (tagOf s a) pans) :=
  streamSlot_issues hexec (List.forall_mem_singleton.2 rfl) rfl

end

/-! ## The table -/

theorem rowStream_issues {s : State} {i : Instr} {d : Does} (hfirst : s.cur.outs = []) (h : rowStream s i = some d) :
    IssuesBrine s i d := by
  unfold rowStream at h
  split at h
  -- pans and lengths
  case h_1 | h_5 | h_6 => cases h; exact setting_issues rfl rfl
  case h_2 => cases h; exact paux_issues ..
  case h_3 => cases h; exact panRead_issues rfl rfl
  case h_4 => cases h; exact pgeta_issues hfirst ..
  -- streams
  case h_7 | h_8 =>
    obtain ⟨hchecks, rfl⟩ := Option.ite_some_none_eq_some.1 h
    exact product_issues rfl hchecks
  case h_9 =>
    obtain ⟨hchecks, rfl⟩ := Option.ite_some_none_eq_some.1 h
    exact bmux_issues hchecks
  case h_10 | h_11 =>
    obtain ⟨hchecks, rfl⟩ := Option.ite_some_none_eq_some.1 h
    exact extremum_issues rfl hchecks
  case h_12 | h_13 => cases h; exact oneStream_issues rfl
  case h_14 => exact nomatch h

/-- Settles O28: settings take effect with the bundle, and of a stream operation whose checks pass the length tag and the pan mask do,
while its bits land a ply later. -/
theorem streamSlots : Obligations.StreamSlots :=
  fun _ _ _ h hrow hready => (rowStream_issues h.first hrow).exec_eq h hready

end Sys2Proof.Proofs.Brine
end
end

