-- ==== Sys2Proof/Proofs/StreamBits.lean ====
section
/-! The bits of brine registers: lanes, sub-streams and parts, their counts of ones, and the values of pans. -/

noncomputable section

namespace Sys2Proof.Proofs.Brine

open Sys2Proof.Machine Sys2Proof.Safety Sys2Proof.Proofs.Lanes

/-! ## Bits and lanes (R227) -/

theorem getLsbD_bitsWhere {n j : Nat} (hj : j < n) (f : Nat → Bool) : (bitsWhere n f).getLsbD j = f j := by
  rw [bitsWhere, BitVec.getLsbD_ofNat, decide_eq_true hj, Bool.true_and, testBit_joinPieces Nat.one_pos, Nat.div_one, Nat.mod_one,
    getD_map_range _ hj]
  cases f j <;> rfl

/-- Bit k of a sub-stream that is drawn is the comparison with value k of the pan (R242). -/
theorem testBit_dissolveBits {len k : Nat} (hk : k < len) (value : Nat → Nat) (u : Nat) :
    (dissolveBits value u len).testBit k = decide (value k < u) := by
  rw [dissolveBits, rangeFrom_zero, testBit_joinPieces Nat.one_pos, Nat.div_one, Nat.mod_one, getD_map_range _ hk]
  by_cases h : value k < u
  · rw [if_pos h, decide_eq_true h]
    rfl
  · rw [if_neg h, decide_eq_false h]
    rfl

/-- A lane of a brine register. -/
def laneOf (b : BitVec 65536) (i : Nat) : Nat := (brineLanes b).getD i 0

theorem testBit_laneOf {i k : Nat} (hi : i < 64) (hk : k < 1024) (b : BitVec 65536) :
    (laneOf b i).testBit k = b.getLsbD (1024 * i + k) :=
  testBit_getD_splitPieces hi hk b.toNat

theorem eq_map_range {n : Nat} {xs : List Nat} (h : xs.length = n) : xs = (List.range n).map (fun i => xs.getD i 0) :=
  (List.map_id xs).symm.trans (map_eq_map_range h id)

theorem brineLanes_eq_map_range (b : BitVec 65536) : brineLanes b = (List.range 64).map (laneOf b) :=
  eq_map_range (length_splitPieces ..)

theorem map_brineLanes {α : Type} (b : BitVec 65536) (f : Nat → α) :
    (brineLanes b).map f = (List.range 64).map (fun i => f (laneOf b i)) :=
  map_eq_map_range (length_splitPieces ..) f

/-- A register made of lanes has, at bit j, bit j mod 1,024 of lane j / 1,024. -/
theorem brineOf_eq_bitsWhere {lane : Nat → Nat} {f : Nat → Nat → Bool}
    (h : ∀ i < 64, ∀ k < 1024, (lane i).testBit k = f i k) :
    brineOf ((List.range 64).map lane) = bitsWhere 65536 (fun j => f (j / 1024) (j % 1024)) := by
  refine BitVec.eq_of_getLsbD_eq fun j hj => ?_
  have hlane : j / 1024 < 64 := (Nat.div_lt_iff_lt_mul (by decide)).2 hj
  rw [getLsbD_bitsWhere hj, brineOf, BitVec.getLsbD_ofNat, decide_eq_true hj, Bool.true_and, testBit_joinPieces (by decide),
    getD_map_range _ hlane, h _ hlane _ (Nat.mod_lt _ (by decide))]

/-- Lane numbers zipped with a list of lanes. -/
theorem zipWith_rangeFrom_map_range {α β : Type} (n : Nat) (f : Nat → α → β) (g : Nat → α) :
    List.zipWith f (rangeFrom 0 n) ((List.range n).map g) = (List.range n).map (fun i => f i (g i)) := by
  rw [rangeFrom_zero, List.zipWith_map_right, List.zipWith_self]

/-- The pairs of elements of a list of 2n are those of the lanes (R129). -/
theorem pairs_eq_map_range {n : Nat} {xs : List Nat} (h : xs.length = 2 * n) :
    pairs xs = (List.range n).map (fun i => (xs.getD (2 * i) 0, xs.getD (2 * i + 1) 0)) := by
  induction n generalizing xs with
  | zero =>
    obtain rfl := List.length_eq_zero_iff.1 h
    rfl
  | succ n ih =>
    obtain ⟨x, ys, rfl⟩ := List.exists_cons_of_length_eq_add_one h
    obtain ⟨y, zs, rfl⟩ := List.exists_cons_of_length_eq_add_one (Nat.succ.inj h)
    rw [pairs, ih (Nat.succ.inj (Nat.succ.inj h)), List.range_succ_eq_map, List.map_cons, List.map_map]
    rfl

theorem length_elems16 (v : Entry) : (elems 16 v).length = 2 * 64 := length_splitPieces ..

/-- Two elements of every lane, one lane after the other. -/
theorem flatten_map_range_two {α : Type} (n : Nat) (g : Nat → Nat → α) :
    ((List.range n).map (fun i => [g i 0, g i 1])).flatten = (List.range (2 * n)).map (fun e => g (e / 2) (e % 2)) := by
  induction n with
  | zero => rfl
  | succ n ih =>
    have heven : 2 * n / 2 = n ∧ 2 * n % 2 = 0 := by omega
    have hodd : (2 * n + 1) / 2 = n ∧ (2 * n + 1) % 2 = 1 := by omega
    rw [Nat.mul_succ, List.range_succ, List.range_succ, List.range_succ, List.map_append, List.flatten_append, ih, List.map_append,
      List.map_append, List.append_assoc, List.map_singleton, List.map_singleton, List.map_singleton, heven.1, heven.2, hodd.1, hodd.2]
    rfl

/-! ## Lengths and parts (R226, R242) -/

theorem streamLength_eq_lengthOf (code : BitVec 3) : streamLength code.toNat = lengthOf code := Nat.shiftLeft_eq ..

theorem lengthOf_pos (code : BitVec 3) : 0 < lengthOf code := Nat.mul_pos (by decide) (Nat.two_pow_pos _)

theorem partCount_eq_partsOf (code : BitVec 3) : partCount code.toNat = partsOf code := by
  rw [partCount, partsOf, streamLength_eq_lengthOf]
  exact ite_congr (propext (mode_stoch_iff code)) (fun _ => rfl) fun _ => rfl

/-- At the full length there is part 0 alone. -/
theorem part_eq_zero {k : Nat} (h : k < partsOf 4) : k = 0 := Nat.lt_one_iff.1 h

/-- A part of a shorter length has both of its sub-streams within the lane. -/
theorem part_fits {code : BitVec 3} {k : Nat} (h : k < partsOf code) (hcode : code ≠ 4) : (2 * k + 2) * lengthOf code ≤ 1024 := by
  rw [partsOf, if_neg hcode] at h
  have : (k + 1) * lengthOf code ≤ 512 := (Nat.le_div_iff_mul_le (lengthOf_pos code)).1 h
  calc (2 * k + 2) * lengthOf code = 2 * ((k + 1) * lengthOf code) := by rw [← Nat.mul_assoc, Nat.mul_succ]
    _ ≤ 1024 := Nat.mul_le_mul_left 2 this

/-- Sub-streams fill a lane, but for the reserved codes, at which a lane holds none. -/
theorem lengthOf_dvd_or_none (code : BitVec 3) : lengthOf code ∣ 1024 ∨ 1024 / lengthOf code = 0 := by
  revert code
  decide

/-- Replacing sub-stream j of a lane leaves the bits of the others. -/
theorem testBit_putField_sub {len : Nat} (hlen : 0 < len) (old j v k : Nat) :
    (putField old (j * len) len v).testBit k = if k / len = j then v.testBit (k % len) else old.testBit k := by
  have hsub : k / len = j ↔ j * len ≤ k ∧ k < j * len + len := by
    rw [Nat.div_eq_iff hlen]
    omega
  rw [testBit_putField]
  refine ite_congr (propext hsub.symm) (fun hj => ?_) fun _ => rfl
  rw [← hj, ← Nat.mod_eq_sub_div_mul]

theorem testBit_field_sub {len k : Nat} (hk : k < len) (x j : Nat) :
    (field x ((j + 1) * len - 1) (j * len)).testBit k = x.testBit (j * len + k) := by
  have hwidth : (j + 1) * len - 1 + 1 - j * len = len := by
    rw [Nat.succ_mul]
    omega
  rw [field, hwidth, Nat.testBit_mod_two_pow, decide_eq_true hk, Bool.true_and, Nat.testBit_shiftRight]

/-! ## Counts of ones (R245) -/

theorem popCount_eq_onesIn {b : BitVec 65536} {x i lo n : Nat} (h : ∀ k < n, x.testBit k = b.getLsbD (1024 * i + lo + k)) :
    popCount n x = onesIn b i lo n := by
  rw [popCount_eq_onesOf]
  exact List.countP_congr fun k hk => iff_of_eq (congrArg (· = true) (h k (List.mem_range.1 hk)))

theorem popCount_laneOf {i : Nat} (hi : i < 64) (b : BitVec 65536) : popCount 1024 (laneOf b i) = onesIn b i 0 1024 :=
  popCount_eq_onesIn fun _ hk => testBit_laneOf hi hk b

/-- The ones of a number that holds sub-stream j of a lane are those of the sub-stream. -/
theorem popCount_sub {b : BitVec 65536} {x i j len : Nat} (hi : i < 64) (hj : (j + 1) * len ≤ 1024)
    (hx : ∀ k < len, x.testBit k = (laneOf b i).testBit (j * len + k)) : popCount len x = onesIn b i (j * len) len := by
  refine popCount_eq_onesIn fun k hk => ?_
  rw [Nat.succ_mul] at hj
  rw [hx k hk, testBit_laneOf hi (by omega), Nat.add_assoc]

theorem laneCounts_eq_map_range (b : BitVec 65536) : laneCounts b = (List.range 64).map (fun i => onesIn b i 0 1024) :=
  (map_brineLanes b _).trans (List.map_congr_left fun _ hi => popCount_laneOf (List.mem_range.1 hi) b)

/-- The count that the slot makes of a sub-stream of a part of a lane. -/
def subCount (code part x h : Nat) : Nat :=
  let len := streamLength code
  (if code = 4 && h = 1 then none else some (popCount len (field x ((2 * part + h + 1) * len - 1) ((2 * part + h) * len)))).getD 0

/-- The counts of a part in the order of the elements, with nothing for the second element of a lane at the full length. -/
theorem partCounts_eq_partOnes {s : State} {a : BitVec 4} {k : BitVec 3} (hk : k.toNat < partsOf (tagOf s a)) :
    (partCounts (s.rb a) (tagOf s a).toNat k.toNat).flatten.map (fun x => x.getD 0) = (List.range 128).map (partOnes s a k) := by
  rw [partCounts, map_brineLanes, List.map_flatten, List.map_map]
  refine (flatten_map_range_two 64 fun i => subCount (tagOf s a).toNat k.toNat (laneOf (s.rb a) i)).trans
    (List.map_congr_left fun e he => ?_)
  have hlane : e / 2 < 64 := by
    have := List.mem_range.1 he
    omega
  rw [partOnes, subCount, streamLength_eq_lengthOf]
  by_cases hnone : tagOf s a = 4 ∧ e % 2 = 1
  · rw [if_pos hnone, hnone.1, hnone.2]
    rfl
  · have hcount : ¬ (decide ((tagOf s a).toNat = 4) && decide (e % 2 = 1)) = true := by
      rwa [Bool.and_eq_true, decide_eq_true_iff, decide_eq_true_iff, mode_stoch_iff]
    rw [if_neg hnone, if_neg hcount]
    refine popCount_sub hlane ?_ fun j hj => testBit_field_sub hj _ _
    by_cases hfull : tagOf s a = 4
    · have heven : e % 2 = 0 := by
        have := mt (And.intro hfull) hnone
        omega
      rw [hfull] at hk ⊢
      rw [part_eq_zero hk, heven]
      decide
    · exact Nat.le_trans (Nat.mul_le_mul_right _ (by omega)) (part_fits hk hfull)

/-! ## Values of pans (R231) -/

theorem directionXor_lt {vs : List Nat} (h : ∀ v ∈ vs, v < 2 ^ 10) (lo : Nat) : directionXor vs lo < 2 ^ 10 := by
  induction vs generalizing lo with
  | nil => exact Nat.two_pow_pos 10
  | cons v vs ih =>
    obtain ⟨hv, hvs⟩ := List.forall_mem_cons.1 h
    refine Nat.xor_lt_two_pow ?_ (ih hvs _)
    split
    · exact hv
    · exact Nat.two_pow_pos 10

theorem directions_lt (p : Nat) : ∀ v ∈ directionSets.getD p [], v < 2 ^ 10 := by
  have hall : ∀ vs ∈ directionSets, ∀ v ∈ vs, v < 2 ^ 10 := by decide
  rw [List.getD_eq_getElem?_getD]
  rcases h : directionSets[p]? with _ | vs
  · exact fun _ hv => absurd hv List.not_mem_nil
  · exact hall vs (List.mem_of_getElem? h)

theorem panNext_lt (s : State) (n : BitVec 4) (k lane : Nat) : panNext s n k lane < 1024 :=
  Nat.xor_lt_two_pow (Nat.xor_lt_two_pow (directionXor_lt (directions_lt _) _) (BitVec.isLt _)) (Nat.mod_lt _ (by decide))

end Sys2Proof.Proofs.Brine
end
end

