-- ==== Sys2Proof/Proofs/Crystals.lean ====
section
/-! The B slot: counts of streams, draws, dissolves and re-salts. -/

noncomputable section

namespace Sys2Proof.Proofs.Brine

open Sys2Proof.Machine Sys2Proof.Safety Sys2Proof.Proofs.Lanes

section
variable {s : State} {i : Instr} {t : BitVec 3}

/-! ## Crystallisation (R245) -/

theorem crystalSlot_issues {a : BitVec 4} {v : BitVec 9} {readV : Bool} {bad : List Cause} {r r' : Entry}
    (hexec : exec i s = execSlot s (crystalSlot t a v readV bad r)) (hbad : bad = []) (hr : r = r') :
    IssuesBrine s i (crystal t v readV r') := by
  subst hbad hr
  exact ⟨fun _ hl => absurd hl List.not_mem_nil, _, hexec⟩

theorem partCauses_eq_nil {a : BitVec 4} {k : BitVec 3} (hk : k.toNat < partsOf (tagOf s a)) : partCauses s a k = [] :=
  if_neg (Nat.not_le.2 ((partCount_eq_partsOf (tagOf s a)).symm ▸ hk))

/-- Counts added to the elements of a head are kept to the width of the element. -/
theorem entryOf_add_counts {w n : Nat} {xs ys : List Nat} {f : Nat → Nat} (hx : xs.length = n) (hy : ys = (List.range n).map f) :
    entryOf w (List.zipWith (fun x y => x + y) xs ys) = entryOf w ((List.range n).map (fun e => (xs.getD e 0 + f e) % 2 ^ w)) := by
  have hsum : List.zipWith (fun x y => x + y) xs ys = (List.range n).map (fun e => xs.getD e 0 + f e) := by
    rw [zipWith_eq_map_range hx (hy ▸ (List.length_map _).trans List.length_range), hy]
    exact List.map_congr_left fun e he => by rw [getD_map_range f (List.mem_range.1 he)]
  refine congrArg (BitVec.ofNat 2048) (joinPieces_congr ?_)
  rw [hsum, List.map_map, List.map_map]
  exact List.map_congr_left fun e _ => (Nat.mod_mod _ _).symm

theorem bcryst_issues (s : State) (t : BitVec 3) (a : BitVec 4) (v : BitVec 9) :
    IssuesBrine s (.bcryst t a v) (crystal t v false (entryOf 32 ((List.range 64).map (fun i => onesIn (s.rb a) i 0 1024)))) :=
  crystalSlot_issues rfl rfl (congrArg (entryOf 32) (laneCounts_eq_map_range _))

theorem bcrysta_issues (s : State) (t : BitVec 3) (a : BitVec 4) (v : BitVec 9) :
    IssuesBrine s (.bcrysta t a v) (crystal t v true (entryOf 32 ((List.range 64).map (fun i =>
      ((heads s 32 v.toNat).getD i 0 + onesIn (s.rb a) i 0 1024) % 2 ^ 32)))) :=
  crystalSlot_issues rfl rfl (entryOf_add_counts (length_heads32 ..) (laneCounts_eq_map_range _))

theorem bcrystp_issues {a : BitVec 4} {v : BitVec 9} {k : BitVec 3} (hk : k.toNat < partsOf (tagOf s a)) :
    IssuesBrine s (.bcrystp t a v k) (crystal t v false (entryOf 16 ((List.range 128).map (partOnes s a k)))) :=
  crystalSlot_issues rfl (partCauses_eq_nil hk) (congrArg (entryOf 16) (partCounts_eq_partOnes hk))

theorem bcrystpa_issues {a : BitVec 4} {v : BitVec 9} {k : BitVec 3} (hk : k.toNat < partsOf (tagOf s a)) :
    IssuesBrine s (.bcrystpa t a v k) (crystal t v true (entryOf 16 ((List.range 128).map (fun e =>
      ((heads s 16 v.toNat).getD e 0 + partOnes s a k e) % 2 ^ 16)))) := by
  have hsums := entryOf_add_counts (w := 16) (length_elems16 (s.rq v.toNat)) (partCounts_eq_partOnes hk)
  rw [List.zipWith_map_right] at hsums
  exact crystalSlot_issues rfl (partCauses_eq_nil hk) hsums

/-! ## Draws into a mask (R246, R247) -/

theorem drawSlot_issues {m n : BitVec 4} {v : BitVec 9} {p : BitVec 1} {lat : Nat} {x x' : Word}
    (hexec : exec i s = execSlot s (drawSlot t m v p n lat x)) (hlat : lat ≠ 0) (hx : x = x') :
    IssuesBrine s i { mask t [(v.toNat, p = 0)] m lat x' with cls := 7, draw := some (n.toNat, 1) } := by
  subst hx
  exact ⟨fun l hl h0 => absurd h0 (lands_later hlat l hl), [], hexec⟩

theorem bbern_issues (hfirst : s.cur.outs = []) (t : BitVec 3) (m : BitVec 4) (v : BitVec 9) (p : BitVec 1) (n : BitVec 4) :
    IssuesBrine s (.bbern t m v p n) { mask t [(v.toNat, p = 0)] m 2 (maskWhere (fun i =>
      panNext s n 0 i < min ((heads s 16 v.toNat).getD (2 * i) 0) 1024)) with cls := 7, draw := some (n.toNat, 1) } := by
  refine drawSlot_issues rfl (by decide) ((congrArg maskOf ?_).trans (maskOf_map_range _))
  rw [pairs_eq_map_range (length_elems16 _), zipWith_rangeFrom_map_range]
  exact List.map_congr_left fun i _ => by rw [panAt_eq_panNext hfirst]; rfl

/-- The running sum of weights names the least lane whose weights up to it exceed `x`. -/
theorem chooseLane_eq_find {x : Nat} (n : Nat) (w : Nat → Nat) (first acc : Nat) (h : x < acc + ((List.range n).map w).sum)
    (hacc : acc ≤ x) :
    some (chooseLane first acc x ((List.range n).map w)) =
      ((List.range n).find? (fun j => x < acc + ((List.range (j + 1)).map w).sum)).map (first + ·) := by
  induction n generalizing w first acc with
  | zero => exact absurd hacc (Nat.not_le.2 h)
  | succ n ih =>
    have hsum (j : Nat) : acc + ((List.range (j + 1)).map w).sum = acc + w 0 + ((List.range j).map (w ∘ Nat.succ)).sum := by
      rw [List.range_succ_eq_map, List.map_cons, List.sum_cons, List.map_map, Nat.add_assoc]
    simp only [hsum] at h ⊢
    rw [List.range_succ_eq_map, List.map_cons, List.map_map, chooseLane, List.find?_cons]
    by_cases hlane : x < acc + w 0
    · rw [if_pos hlane, decide_eq_true (Nat.lt_of_lt_of_le hlane (Nat.le_add_right ..))]
      rfl
    · have hrest : (fun j => decide (x < acc + w 0 + ((List.range j).map (w ∘ Nat.succ)).sum)) ∘ Nat.succ =
          fun j => decide (x < acc + w 0 + ((List.range (j + 1)).map (w ∘ Nat.succ)).sum) := rfl
      have hshift : (first + ·) ∘ Nat.succ = (first + 1 + ·) := funext fun j => (Nat.succ_add_eq_add_succ first j).symm
      rw [if_neg hlane, decide_eq_false (by simpa using hlane), ih _ _ _ h (Nat.not_lt.1 hlane), List.find?_map, Option.map_map, hrest,
        hshift]

/-- The bits of a lane group after a categorical draw: that of the category chosen. -/
theorem testBit_categoryBits {u : Nat} (hu : u < 1024) (w : Nat → Nat) (q : Nat) :
    (categoryBits u ((List.range 16).map w)).testBit q =
      decide ((if ((List.range 16).map w).sum = 0 then none
        else (List.range 16).find? (fun j => u * ((List.range 16).map w).sum / 1024 < ((List.range (j + 1)).map w).sum)) = some q) := by
  rw [categoryBits, ← List.sum_eq_foldl]
  by_cases hzero : ((List.range 16).map w).sum = 0
  · rw [if_pos hzero, if_pos hzero, Nat.zero_testBit]
    rfl
  · have hdraw : u * ((List.range 16).map w).sum / 1024 < 0 + ((List.range 16).map w).sum := by
      rw [Nat.zero_add, Nat.div_lt_iff_lt_mul (by decide), Nat.mul_comm]
      exact Nat.mul_lt_mul_of_pos_left hu (Nat.pos_of_ne_zero hzero)
    have hfind := chooseLane_eq_find 16 w 0 0 hdraw (Nat.zero_le _)
    simp only [Nat.zero_add, Option.map_id'] at hfind
    rw [if_neg hzero, if_neg hzero, Nat.testBit_two_pow, ← hfind]
    exact decide_eq_decide.2 Option.some_inj.symm

theorem group_eq_map_range {g : Nat} (hg : g < 4) (v : BitVec 9) :
    ((elems 32 (s.rq v.toNat)).drop (16 * g)).take 16 = (List.range 16).map (fun j => (heads s 32 v.toNat).getD (16 * g + j) 0) := by
  have hlen : (((elems 32 (s.rq v.toNat)).drop (16 * g)).take 16).length = 16 := by
    rw [List.length_take, List.length_drop, length_elems32]
    omega
  refine (eq_map_range hlen).trans (List.map_congr_left fun j hj => ?_)
  rw [List.getD_eq_getElem?_getD, List.getElem?_take_of_lt (List.mem_range.1 hj), List.getElem?_drop,
    ← List.getD_eq_getElem?_getD]
  rfl

theorem bcat_issues (hfirst : s.cur.outs = []) (t : BitVec 3) (m : BitVec 4) (v : BitVec 9) (p : BitVec 1) (n : BitVec 4) :
    IssuesBrine s (.bcat t m v p n) { mask t [(v.toNat, p = 0)] m 4 (maskWhere (fun i =>
      chosen s v n (i / 16) = some (i % 16))) with cls := 7, draw := some (n.toNat, 1) } := by
  refine drawSlot_issues rfl (by decide) (BitVec.eq_of_getLsbD_eq fun i hi => ?_)
  have hgroup : i / 16 < 4 := (Nat.div_lt_iff_lt_mul (by decide)).2 hi
  rw [BitVec.getLsbD_ofNat, decide_eq_true hi, Bool.true_and, testBit_joinPieces (by decide), rangeFrom_zero, getD_map_range _ hgroup,
    maskWhere, getLsbD_bitsWhere hi, panAt_eq_panNext hfirst, group_eq_map_range hgroup,
    testBit_categoryBits (panNext_lt ..)]
  rfl

/-! ## Dissolves (R242) -/

theorem salinityOf_eq_fraction (bipolar : Bool) (e : Nat) : salinityOf bipolar e = fraction bipolar e := by
  cases bipolar with
  | false => rfl
  | true =>
    simp only [salinityOf, fraction, if_true]
    split
    · omega
    · split <;> omega

/-- A sub-stream of a dissolve, drawn from its place in the values of the pan. -/
theorem testBit_dissolvedSub (hfirst : s.cur.outs = []) (bipolar : Bool) (n : BitVec 4) (code : BitVec 3) (lane h e k : Nat) :
    (dissolveBits (fun k => s.panAt n.toNat (h * streamLength code.toNat + k) lane) (salinityOf bipolar e)
        (streamLength code.toNat)).testBit (k % lengthOf code) =
      decide (panNext s n (h * lengthOf code + k % lengthOf code) lane < fraction bipolar e) := by
  rw [streamLength_eq_lengthOf, testBit_dissolveBits (Nat.mod_lt _ (lengthOf_pos code)), panAt_eq_panNext hfirst, salinityOf_eq_fraction]

/-- A lane after a dissolve: sub-streams 2 P and 2 P + 1 are drawn, the others stay. At the full length there is one alone. -/
theorem testBit_dissolveLane (hfirst : s.cur.outs = []) {code : BitVec 3} {part : Nat} (hpart : part < partsOf code) {k : Nat}
    (hk : k < 1024) (bipolar : Bool) (n : BitVec 4) (lane old : Nat) (e : Nat → Nat) :
    (dissolveLane s bipolar n.toNat code.toNat part lane old (e 0) (e 1)).testBit k =
      if 2 * part ≤ k / lengthOf code ∧ k / lengthOf code - 2 * part < 2 then
        decide (panNext s n ((k / lengthOf code - 2 * part) * lengthOf code + k % lengthOf code) lane <
          fraction bipolar (e (k / lengthOf code - 2 * part)))
      else old.testBit k := by
  have hlen := lengthOf_pos code
  have hfirstSub := testBit_dissolvedSub hfirst bipolar n code lane 0 (e 0) k
  have hsecondSub := testBit_dissolvedSub hfirst bipolar n code lane 1 (e 1) k
  rw [streamLength_eq_lengthOf] at hfirstSub hsecondSub
  rw [dissolveLane, streamLength_eq_lengthOf]
  by_cases hfull : code = 4
  · subst hfull
    have hsub : k / lengthOf 4 = 0 := Nat.div_eq_of_lt hk
    rw [part_eq_zero hpart, if_pos ((mode_stoch_iff 4).2 rfl), testBit_putField_sub hlen, hsub, if_pos rfl, if_pos (by decide)]
    exact hfirstSub
  · rw [if_neg (mt (mode_stoch_iff code).1 hfull), testBit_putField_sub hlen, testBit_putField_sub hlen]
    by_cases hsecond : k / lengthOf code = 2 * part + 1
    · rw [if_pos hsecond, if_pos (by omega), hsecond, Nat.add_sub_cancel_left]
      exact hsecondSub
    · rw [if_neg hsecond]
      by_cases hzero : k / lengthOf code = 2 * part
      · rw [if_pos hzero, if_pos (by omega), hzero, Nat.sub_self]
        exact hfirstSub
      · rw [if_neg hzero, if_neg (by omega)]

/-- The lanes of a dissolve, joined, are the bits that the table gives. -/
theorem brineOf_dissolved (hfirst : s.cur.outs = []) {k : BitVec 3} (hpart : k.toNat < partsOf s.curCore.blenc) (bipolar : Bool)
    (v : BitVec 9) (n : BitVec 4) (old : BitVec 65536) :
    brineOf (List.zipWith (fun lane (x : Nat × Nat × Nat) =>
        dissolveLane s bipolar n.toNat s.curCore.blenc.toNat k.toNat lane x.1 x.2.1 x.2.2)
      (rangeFrom 0 64) (List.zip (brineLanes old) (pairs (elems 16 (s.rq v.toNat))))) =
    bitsWhere 65536 (fun j => dissolved s bipolar v n k old (j / 1024) (j % 1024)) := by
  rw [pairs_eq_map_range (length_elems16 _), brineLanes_eq_map_range, List.zip_map', zipWith_rangeFrom_map_range]
  refine brineOf_eq_bitsWhere fun lane hlane b hb => ?_
  have hbits := testBit_dissolveLane hfirst hpart hb bipolar n lane (laneOf old lane)
    fun h => (heads s 16 v.toNat).getD (2 * lane + h) 0
  rw [testBit_laneOf hlane hb] at hbits
  exact hbits

theorem onePan_eq_twoPow (n : BitVec 4) : onePan n = BitVec.twoPow 16 n.toNat := by
  refine BitVec.eq_of_toNat_eq ?_
  rw [onePan, BitVec.toNat_ofNat, BitVec.toNat_twoPow]

/-- A slot that draws the bits of a brine register, and passes its checks, issues the row with those bits and tags. -/
theorem drawnStream_issues {d : BitVec 4} {regs : List (BitVec 4)} {reads : List (Nat × Bool)} {bad : List Cause} {lat : Nat}
    {v v' : BitVec 65536} {len : BitVec 3} {pans pans' : BitVec 16} {draw draw' : Nat × Nat}
    (hexec : exec i s = execSlot s { brineForm t regs with
      qreads := reads, causes := bad, draws := [draw], lands := landBrine d lat v len pans })
    (hlat : lat ≠ 0) (hbad : bad = []) (hv : v = v') (hpans : pans = pans') (hdraw : draw = draw') :
    IssuesBrine s i { brine t d lat v' len pans' with reads := reads, draw := some draw' } := by
  subst hbad hv hpans hdraw
  exact ⟨brine_atOnce (t := t) hlat, _, hexec⟩

theorem dissolveSlot_issues {d n : BitVec 4} {v : BitVec 9} {p : BitVec 1} {k : BitVec 3} {bipolar : Bool} {does : Does}
    (hfirst : s.cur.outs = []) (hexec : exec i s = execSlot s (dissolveSlot s t d v p n k bipolar))
    (h : dissolve s t d v p n k bipolar = some does) : IssuesBrine s i does := by
  obtain ⟨⟨htag, hpart⟩, rfl⟩ := Option.ite_some_none_eq_some.1 h
  have hzero : k.toNat = 0 ↔ k = 0 := (BitVec.toNat_inj (y := 0#3)).trans Iff.rfl
  refine drawnStream_issues hexec (by decide) ?_ ?_ ?_ ?_
  -- the checks of the part and of the length tag
  · have hlater : ¬ (decide (0 < k.toNat) && s.curCore.lenTag d.toNat != s.curCore.blenc) = true := by
      rw [Bool.and_eq_true, decide_eq_true_iff, bne_iff_ne]
      exact fun ⟨hpos, hne⟩ => htag.elim (fun h0 => absurd (hzero.2 h0) (Nat.ne_of_gt hpos)) hne
    rw [if_neg (by rw [partCount_eq_partsOf]; exact Nat.not_le.2 hpart), if_neg hlater]
  -- the bits
  · refine (brineOf_dissolved hfirst hpart bipolar v n _).trans ?_
    rw [ite_congr (propext hzero) (fun _ => rfl) fun _ => rfl]
    rfl
  -- the pan mask
  · rw [onePan_eq_twoPow]
    split
    next h0 => rw [if_pos (hzero.1 h0)]; exact BitVec.zero_or.symm
    next h0 => rw [if_neg (mt hzero.2 h0)]; rfl
  -- the values drawn
  · rw [streamLength_eq_lengthOf]
    exact congrArg _ (ite_congr (propext (mode_stoch_iff _)) (fun _ => rfl) fun _ => rfl)

/-! ## Re-salts (R244) -/

/-- A lane after a re-salt: every sub-stream drawn anew with its share of ones. At a reserved code no bit is set. -/
theorem testBit_resaltLane (hfirst : s.cur.outs = []) {lane k : Nat} (hlane : lane < 64) (hk : k < 1024) (a n : BitVec 4) :
    (resaltLane s n.toNat (tagOf s a).toNat lane (laneOf (s.rb a) lane)).testBit k = resalted s a n lane k := by
  have hlen := lengthOf_pos (tagOf s a)
  rw [resaltLane, resalted, streamLength_eq_lengthOf, testBit_joinPieces hlen, eq_map_range (length_splitPieces ..),
    List.zip_eq_zipWith, zipWith_rangeFrom_map_range, List.map_map]
  rcases lengthOf_dvd_or_none (tagOf s a) with hdvd | hnone
  · have hsub : k / lengthOf (tagOf s a) < 1024 / lengthOf (tagOf s a) := Nat.div_lt_div_of_lt_of_dvd hdvd hk
    have hwhole : (k / lengthOf (tagOf s a) + 1) * lengthOf (tagOf s a) ≤ 1024 :=
      Nat.le_trans (Nat.mul_le_mul_right _ hsub) (Nat.div_mul_le_self ..)
    have hones := popCount_sub hlane hwhole fun j hj =>
      (testBit_getD_splitPieces hsub hj (laneOf (s.rb a) lane)).trans (by rw [Nat.mul_comm])
    rw [getD_map_range _ hsub]
    refine (testBit_dissolveBits (Nat.mod_lt _ hlen) _ _).trans ?_
    rw [panAt_eq_panNext hfirst, Nat.div_add_mod', ← hones]
  · rw [hnone, List.range_zero, List.map_nil, List.getD_nil, Nat.zero_testBit, Nat.mul_zero]
    rfl

theorem bresalt_issues (hfirst : s.cur.outs = []) (t : BitVec 3) (d a n : BitVec 4) :
    IssuesBrine s (.bresalt t d a n)
      { brine t d 3 (bitsWhere 65536 (fun j => resalted s a n (j / 1024) (j % 1024))) (tagOf s a) (BitVec.twoPow 16 n.toNat) with
        draw := some (n.toNat, 1024) } := by
  rw [← onePan_eq_twoPow, ← brineOf_eq_bitsWhere fun _ hlane _ hk => testBit_resaltLane hfirst hlane hk a n,
    ← zipWith_rangeFrom_map_range, ← brineLanes_eq_map_range]
  exact drawnStream_issues rfl (by decide) rfl rfl rfl rfl

end

/-! ## The table -/

theorem rowCrystal_issues {s : State} {i : Instr} {d : Does} (hfirst : s.cur.outs = []) (h : rowCrystal s i = some d) :
    IssuesBrine s i d := by
  unfold rowCrystal at h
  split at h
  -- counts
  case h_1 => cases h; exact bcryst_issues ..
  case h_2 => cases h; exact bcrysta_issues ..
  case h_3 =>
    obtain ⟨hpart, rfl⟩ := Option.ite_some_none_eq_some.1 h
    exact bcrystp_issues hpart
  case h_4 =>
    obtain ⟨hpart, rfl⟩ := Option.ite_some_none_eq_some.1 h
    exact bcrystpa_issues hpart
  -- draws, and what is drawn into brine registers
  case h_5 => cases h; exact bbern_issues hfirst ..
  case h_6 => cases h; exact bcat_issues hfirst ..
  case h_7 => cases h; exact bresalt_issues hfirst ..
  case h_8 | h_9 => exact dissolveSlot_issues hfirst rfl h
  case h_10 => exact nomatch h

/-- Settles O29: counts, draws and dissolved bits are, element by element and bit by bit, those of the table, and each draw moves its
pan on by as many values as it takes. -/
theorem crystalSlots : Obligations.CrystalSlots :=
  fun _ _ _ h hrow hready => (rowCrystal_issues h.first hrow).exec_eq h hready

end Sys2Proof.Proofs.Brine
end
end

