-- ==== Sys2Proof/Proofs/Capabilities.lean ====
section
/-! Capability derivations and reads: the layout of a capability, and the slots of R286 whose checks pass. -/

noncomputable section

namespace Sys2Proof.Proofs.Capabilities

open Sys2Proof.Machine Sys2Proof.Safety Sys2Proof.Proofs.Lanes Sys2Proof.Proofs.Tiles

/-! ## The layout of a capability (R257) -/

theorem toNat_bits_capOf (base length perm space otype : Nat) : (capOf base length perm space otype).bits.toNat =
    base % 2 ^ 64 + length % 2 ^ 40 * 2 ^ 64 + perm % 2 ^ 8 * 2 ^ 104 + space % 2 ^ 4 * 2 ^ 112 + otype % 2 ^ 12 * 2 ^ 116 := by
  simp only [capOf, Cap.make, BitVec.toNat_ofNat, Nat.shiftLeft_eq]
  omega

/-- The fields of a capability are all of its bits. -/
theorem bits_capOf_fields (c : Cap) : (capOf c.base c.length c.perm c.space c.otype).bits = c.bits := by
  refine BitVec.eq_of_toNat_eq ?_
  have hlt := c.bits.isLt
  simp only [toNat_bits_capOf, Cap.base, Cap.length, Cap.perm, Cap.space, Cap.otype, field_eq_div_mod]
  omega

section
variable {base length perm space otype v : Nat}

theorem withField_eq_capOf {c : Cap} {lo n : Nat}
    (h : c.bits.toNat % 2 ^ lo + v % 2 ^ n * 2 ^ lo + c.bits.toNat / 2 ^ (lo + n) * 2 ^ (lo + n) =
      (capOf base length perm space otype).bits.toNat) :
    c.withField lo n v = capOf base length perm space otype := by
  simp only [Cap.withField, putField, Nat.shiftLeft_eq, Nat.shiftRight_eq_div_pow, h, BitVec.ofNat_toNat, BitVec.setWidth_eq]
  rfl

/-! Each field stands in bits of its own: its replacement leaves the others. -/

theorem capOf_withField_base : (capOf base length perm space otype).withField 0 64 v = capOf v length perm space otype :=
  withField_eq_capOf (by simp only [toNat_bits_capOf]; omega)

theorem capOf_withField_length : (capOf base length perm space otype).withField 64 40 v = capOf base v perm space otype :=
  withField_eq_capOf (by simp only [toNat_bits_capOf]; omega)

theorem capOf_withField_perm : (capOf base length perm space otype).withField 104 8 v = capOf base length v space otype :=
  withField_eq_capOf (by simp only [toNat_bits_capOf]; omega)

theorem capOf_withField_space : (capOf base length perm space otype).withField 112 4 v = capOf base length perm v otype :=
  withField_eq_capOf (by simp only [toNat_bits_capOf]; omega)

theorem capOf_withField_otype : (capOf base length perm space otype).withField 116 12 v = capOf base length perm space v :=
  withField_eq_capOf (by simp only [toNat_bits_capOf]; omega)

end

/-- A derivation replaces a field of the capability that its fields make. -/
theorem withField_eq_capOf_withField (c : Cap) (lo n v : Nat) :
    c.withField lo n v = (capOf c.base c.length c.perm c.space c.otype).withField lo n v := by
  rw [Cap.withField, Cap.withField, bits_capOf_fields]

/-! ## The checks (R288) -/

theorem firstCheck_eq_nil {tval : Word} {checks : List (Bool × Nat × Nat)} (h : ∀ x ∈ checks, x.1 = false) :
    firstCheck tval checks = [] := by
  induction checks with
  | nil => rfl
  | cons x checks ih =>
    obtain ⟨hx, hrest⟩ := List.forall_mem_cons.1 h
    obtain ⟨fails, num, sub⟩ := x
    obtain rfl : fails = false := hx
    exact ih hrest

/-! ## Slots -/

section
variable {s : State} {i : Instr} {t : BitVec 3} {d a : BitVec 4} {r : BitVec 6}

/-- A slot whose checks pass and that writes a capability register issues the row with that capability. -/
theorem issuesRow_gives {rs : List Reg} {bad : List Cause} {v v' : Cap}
    (hexec : exec i s = execSlot s { SlotOut.empty 2 t.toNat with reads := rs, causes := bad, lands := landCap d v })
    (hbad : bad = []) (hv : v = v') : IssuesRow s i (gives t d v') := by
  subst hbad hv
  exact ⟨rfl, List.forall_mem_singleton.2 Nat.one_ne_zero, rs, hexec⟩

/-- A derivation from an unsealed capability with a set tag, whose own checks pass. -/
theorem deriveSlot_issues {bad : List (Bool × Nat × Nat)} {v v' : Cap}
    (hexec : exec i s = execSlot s (deriveSlot s t d a r bad v)) (htag : (s.rc a).tag = true) (hotype : (s.rc a).otype = 0)
    (hbad : ∀ x ∈ bad, x.1 = false) (hv : v = v') : IssuesRow s i (gives t d v') := by
  refine issuesRow_gives hexec (firstCheck_eq_nil ?_) hv
  simp only [List.forall_mem_append, List.forall_mem_singleton]
  exact ⟨⟨by rw [htag]; rfl, hbad⟩, by rw [hotype]; rfl⟩

/-- The object type that CSEAL sets and CUNSEAL takes off (R286). -/
def sealType (s : State) (a : BitVec 4) (r : BitVec 6) : Nat := (s.rc a).base + uw s r

/-- The checks that CSEAL and CUNSEAL share (R288): two set tags, the object type within an unsealed sealing capability that has the
permission. -/
def sealAllowed (s : State) (d a : BitVec 4) (r : BitVec 6) : Bool :=
  (s.rc a).tag && (s.rc d).tag && sealType s a r < (s.rc a).base + (s.rc a).length && 1 ≤ sealType s a r && sealType s a r ≤ 4095 &&
    bit (s.rc a).perm 7 && (s.rc a).otype = 0

/-- CSEAL and CUNSEAL, of a register that has the object type they ask for. -/
theorem sealSlot_issues (undo : Bool) (hexec : exec i s = execSlot s (sealSlot s t d a r undo)) (h : sealAllowed s d a r = true)
    (hd : (s.rc d).otype = if undo then sealType s a r else 0) :
    IssuesRow s i (gives t d (capOf (s.rc d).base (s.rc d).length (s.rc d).perm (s.rc d).space
      (if undo then 0 else sealType s a r))) := by
  simp only [sealAllowed, Bool.and_eq_true, decide_eq_true_iff] at h
  obtain ⟨⟨⟨⟨⟨⟨htag, htarget⟩, hinside⟩, hlow⟩, hhigh⟩, hperm⟩, hotype⟩ := h
  have hrange : (decide (sealType s a r < (s.rc a).base) || decide ((s.rc a).base + (s.rc a).length ≤ sealType s a r) ||
      decide (sealType s a r < 1) || decide (4095 < sealType s a r)) = false := by
    have hbase : (s.rc a).base ≤ sealType s a r := Nat.le_add_right ..
    simp only [Bool.or_eq_false_iff, decide_eq_false_iff_not]
    omega
  have hunsealed : (!undo && (s.rc d).otype != 0) = false := by
    rw [hd]
    cases undo <;> rfl
  have hmatches : (undo && (s.rc d).otype != sealType s a r) = false := by
    rw [hd]
    cases undo with
    | false => rfl
    | true => exact bne_self_eq_false _
  refine issuesRow_gives hexec (firstCheck_eq_nil ?_) (by rw [withField_eq_capOf_withField, capOf_withField_otype]; rfl)
  simp only [List.forall_mem_cons, htag, htarget, hperm, hotype]
  exact ⟨rfl, rfl, hrange, rfl, rfl, hunsealed, hmatches, List.forall_mem_nil _⟩

/-- A read of a capability into a scalar. -/
theorem capGet_issues {v : Cap → Nat} {x : Word} (hexec : exec i s = execSlot s (capGet s t a r v))
    (hx : BitVec.ofNat 64 (v (s.rc a)) = x) : IssuesRow s i (writes 2 t r 1 x) := by
  subst hx
  exact ⟨rfl, lands_later Nat.one_ne_zero, _, hexec⟩

end

/-! ## The table -/

theorem rowCap_issues {s : State} {i : Instr} {d : Does} (h : rowCap s i = some d) : IssuesRow s i d := by
  unfold rowCap at h
  split at h
  -- derivations
  case h_1 | h_2 =>
    obtain ⟨hchecks, rfl⟩ := Option.ite_some_none_eq_some.1 h
    simp only [Bool.and_eq_true, decide_eq_true_iff] at hchecks
    obtain ⟨⟨htag, hlength⟩, hotype⟩ := hchecks
    refine deriveSlot_issues rfl htag hotype (List.forall_mem_singleton.2 (decide_eq_false (Nat.not_lt.2 hlength))) ?_
    simp only [withField_eq_capOf_withField (s.rc _), capOf_withField_base, capOf_withField_length, hotype, uw]
  case h_3 =>
    obtain ⟨hchecks, rfl⟩ := Option.ite_some_none_eq_some.1 h
    simp only [Bool.and_eq_true, decide_eq_true_iff] at hchecks
    obtain ⟨htag, hotype⟩ := hchecks
    refine deriveSlot_issues rfl htag hotype (List.forall_mem_nil _) ?_
    rw [withField_eq_capOf_withField, capOf_withField_perm, hotype, uw]
  case h_4 =>
    obtain ⟨hchecks, rfl⟩ := Option.ite_some_none_eq_some.1 h
    simp only [Bool.and_eq_true, Bool.or_eq_true, decide_eq_true_iff] at hchecks
    obtain ⟨⟨⟨htag, hkind⟩, hspace⟩, hotype⟩ := hchecks
    rw [uw] at hkind hspace
    refine deriveSlot_issues rfl htag hotype (List.forall_mem_singleton.2 ?_) ?_
    · simp only [Bool.or_eq_false_iff, Bool.and_eq_false_iff, decide_eq_false_iff_not, bne_eq_false_iff_eq]
      exact ⟨by omega, hspace⟩
    · rw [withField_eq_capOf_withField, capOf_withField_space, hotype, uw]
  -- reads
  case h_5 | h_6 => cases h; exact capGet_issues rfl rfl
  case h_7 => cases h; exact capGet_issues rfl (apply_ite ..)
  -- copies
  case h_8 | h_9 => cases h; exact issuesRow_gives rfl rfl rfl
  -- seals
  case h_10 =>
    obtain ⟨hchecks, rfl⟩ := Option.ite_some_none_eq_some.1 h
    obtain ⟨hallowed, hd⟩ := Bool.and_eq_true_iff.1 hchecks
    exact sealSlot_issues false rfl hallowed (of_decide_eq_true hd)
  case h_11 =>
    obtain ⟨hchecks, rfl⟩ := Option.ite_some_none_eq_some.1 h
    obtain ⟨hallowed, hd⟩ := Bool.and_eq_true_iff.1 hchecks
    exact sealSlot_issues true rfl hallowed (of_decide_eq_true hd)
  case h_12 => exact nomatch h

/-- Settles O23: of a slot whose checks pass, what lands is the capability with one field, or a base and a length, replaced, or the
part of it that is read. -/
theorem capabilitySlots : Obligations.CapabilitySlots :=
  fun _ _ _ h hrow hready => (rowCap_issues hrow).exec_eq h hready

end Sys2Proof.Proofs.Capabilities
end
end

