-- ==== Sys2Proof/Proofs/Accesses.lean ====
section
/-! Slots that start accesses, atomics, operations and fences: ordered loads and stores, atomics, counter adds, capability transfers
and fences. -/

noncomputable section

namespace Sys2Proof.Proofs.Accesses

open Sys2Proof.Machine Sys2Proof.Safety Sys2Proof.Proofs.Lanes

/-! ## What a slot starts (R266, R273, R285) -/

/-- What a slot starts: its accesses and atomics, the request slots that they take, each with who takes it, and the operations and
fences of its core. -/
structure Starts where
  accs : List Access := []
  atoms : List Atom := []
  places : List (Nat × Nat) := []
  ops : List Op := []
  fences : List Fence := []

/-- The effect that takes a request slot. -/
def takeEff (p : Nat × Nat) : Eff := .takeSlot p.1 p.2

/-- The effects with which a slot starts it, in the order of their commit. -/
def Starts.effs (x : Starts) : List Eff :=
  x.accs.map .access ++ x.atoms.map .atom ++ x.places.map takeEff ++ x.ops.map .op ++ x.fences.map .fence

/-- The part of it outside the core. -/
def Starts.sent (x : Starts) (t : State) : State :=
  { t with accs := t.accs ++ x.accs, atoms := t.atoms ++ x.atoms, slots := takes x.places t.slots }

/-- The part of it that the core keeps. -/
def Starts.kept (x : Starts) (c : Core) : Core := { c with ops := c.ops ++ x.ops, fences := c.fences ++ x.fences }

/-- All of it, in the state after the commit. -/
def Starts.more (s : State) (x : Starts) (t : State) : State := also s x.kept (x.sent t)

section
variable {s t : State} {n : Nat} {x : Starts}

theorem Starts.effs_plain : ∀ e ∈ x.effs, e.Plain := by
  intro e he
  simp only [Starts.effs, List.mem_append, List.mem_map] at he
  rcases he with (((⟨_, -, rfl⟩ | ⟨_, -, rfl⟩) | ⟨_, -, rfl⟩) | ⟨_, -, rfl⟩) | ⟨_, -, rfl⟩ <;>
    exact ⟨Eff.noConfusion, Eff.noConfusion, fun _ _ => Eff.noConfusion⟩

theorem Starts.sent_setCore (c : Core) : x.sent (t.setCore n c) = (x.sent t).setCore n c := rfl

/-- What the core keeps where a slot starts one operation and no fence. -/
theorem Starts.more_eq_withOp {o : Op} (hops : x.ops = [o]) (hfences : x.fences = []) :
    x.more s t = also s (withOp o) (x.sent t) := by
  have hkept : x.kept = withOp o := funext fun c => by rw [Starts.kept, hops, hfences, List.append_nil]; rfl
  rw [Starts.more, hkept]

/-! Each kind of effect, applied for a whole list. -/

theorem foldl_access (xs : List Access) (t : State) :
    (xs.map Eff.access).foldl (fun u e => applyEff u n e) t = { t with accs := t.accs ++ xs } := by
  induction xs generalizing t with
  | nil => exact congrArg (fun l => { t with accs := l }) (List.append_nil t.accs).symm
  | cons a xs ih => exact (ih _).trans (congrArg (fun l => { t with accs := l }) (List.append_cons t.accs a xs).symm)

theorem foldl_atom (xs : List Atom) (t : State) :
    (xs.map Eff.atom).foldl (fun u e => applyEff u n e) t = { t with atoms := t.atoms ++ xs } := by
  induction xs generalizing t with
  | nil => exact congrArg (fun l => { t with atoms := l }) (List.append_nil t.atoms).symm
  | cons a xs ih => exact (ih _).trans (congrArg (fun l => { t with atoms := l }) (List.append_cons t.atoms a xs).symm)

theorem foldl_takeEff (ps : List (Nat × Nat)) (t : State) :
    (ps.map takeEff).foldl (fun u e => applyEff u n e) t = { t with slots := takes ps t.slots } := by
  induction ps generalizing t with
  | nil => rfl
  | cons p ps ih => exact ih _

theorem onlyCore_ops {c : Core} (h : OnlyCore s n t c) (ops : List Op) :
    OnlyCore s n ((ops.map Eff.op).foldl (fun u e => applyEff u n e) t) { c with ops := c.ops ++ ops } := by
  induction ops generalizing t c with
  | nil => rwa [List.append_nil]
  | cons o ops ih =>
    rw [List.append_cons]
    exact ih (h.step (withOp o))

theorem onlyCore_fences {c : Core} (h : OnlyCore s n t c) (fs : List Fence) :
    OnlyCore s n ((fs.map Eff.fence).foldl (fun u e => applyEff u n e) t) { c with fences := c.fences ++ fs } := by
  induction fs generalizing t c with
  | nil => rwa [List.append_nil]
  | cons f fs ih =>
    rw [List.append_cons]
    exact ih (h.step (fun c => { c with fences := c.fences ++ [f] }))

/-- The effects change, beside what they send, one core. -/
theorem onlyCore_effs {c : Core} (h : OnlyCore s n t c) :
    OnlyCore (x.sent s) n (x.effs.foldl (fun u e => applyEff u n e) t) (x.kept c) := by
  have hsent : OnlyCore (x.sent s) n (x.sent t) c := ⟨h.1, fun d => congrArg x.sent (h.2 d)⟩
  simp only [Starts.effs, List.foldl_append, foldl_access, foldl_atom, foldl_takeEff]
  exact onlyCore_fences (onlyCore_ops hsent x.ops) x.fences

/-- A change of the core that leaves its fetch and its wait may follow the commit. -/
theorem committed_also {f : Core → Core}
    (hf : ∀ c pc ply, f { c with pc := pc, held := 0, wait := none, nextIssue := ply } =
      { f c with pc := pc, held := 0, wait := none, nextIssue := ply }) (c : Core) (target : Nat) :
    committed s (f c) target = also s f (committed s c target) := by
  have hcore : (committed s c target).core s.cur.core =
      { c with pc := BitVec.ofNat 22 target, held := 0, wait := none, nextIssue := s.now + 1 + field s.cur.w 3 0 } :=
    State.core_setCore_same ..
  rw [also, hcore, hf]
  change _ = { (s.setCore s.cur.core _).setCore s.cur.core _ with seq := s.seq + 1 }
  rw [State.setCore_setCore]
  rfl

/-- What is started with a commit stands in the state after it. -/
theorem committed_sent (c : Core) (target : Nat) :
    committed (x.sent s) (x.kept c) target = x.more s (committed s c target) :=
  committed_also (s := x.sent s) (fun _ _ _ => rfl) c target

/-- What a commit leaves whose effects start what `x` says. -/
theorem committed_effs {c : Core} (h : OnlyCore s s.cur.core t c) (target : Nat) :
    (let u := x.effs.foldl (fun u e => applyEff u s.cur.core e) t
     { u.setCore s.cur.core { u.core s.cur.core with
        pc := BitVec.ofNat 22 target, held := 0, wait := none, nextIssue := s.now + 1 + field s.cur.w 3 0 } with
       seq := s.seq + 1 }) = x.more s (committed s c target) :=
  ((onlyCore_effs h).committed target).trans (committed_sent c target)

end

/-! ## Slots that start it -/

section
variable {s : State} {i : Instr} {a : Acts}

/-- The slot of a row that starts what `x` says, reading the registers `rs`. -/
def startSlot (a : Acts) (x : Starts) (rs : List Reg) : SlotOut :=
  { slotOf a.does rs with release := a.release, starts := a.starts.toList, effs := x.effs }

/-- An instruction issues a row that draws nothing, writes no register but by what it starts, and goes on behind the bundle. -/
structure IssuesStarts (s : State) (i : Instr) (a : Acts) (x : Starts) (rs : List Reg) : Prop where
  exec : exec i s = execSlot s (startSlot a x rs)
  draw : a.does.draw = none
  lands : a.does.lands = []
  target : a.target = none
  more : a.more = x.more s

/-- Alone in its bundle and ready, such an instruction leaves what the row gives (R14). -/
theorem IssuesStarts.exec_eq {x : Starts} {rs : List Reg} (hi : IssuesStarts s i a x rs) (h : Alone s) (hr : a.ready s) :
    Machine.exec i s = .next (a.done s) := by
  obtain ⟨hexec, hdraw, hlands, htarget, hmore⟩ := hi
  have hdests : (a.does.push.toList.map Prod.fst).length ≤ 2 := by
    rw [List.length_map]
    exact Nat.le_trans Option.length_toList_le (by decide)
  rw [hexec]
  refine execSlot_acts h hr rfl rfl rfl rfl rfl rfl rfl rfl htarget.symm rfl hdests rfl rfl (by rw [hdraw]; rfl) rfl
    (by rw [hlands]; exact List.forall_mem_nil _) Starts.effs_plain (fun _ => by rw [hmore]; rfl) fun t c y hc => ?_
  rw [hmore]
  exact committed_effs hc y

/-! ## Accesses at issue (R263, R266) -/

/-- The homes of a request, each with its plies and the request slot that it takes. -/
def timedHomes (s : State) (q : Request) : List (Nat × Nat × Nat × Option Nat) :=
  (homesOf s s.cur.core q).map (fun h => (h, accessPlies s s.cur.core h q.reply))

/-- What a slot starts whose request has passed its checks. -/
def requestStarts (s : State) (cls : Nat) (q : Request) (mv : Move) : Starts where
  accs := (timedHomes s q).mapIdx (fun j x => makeAccess s cls j x.1 x.2 mv)
  places := ((timedHomes s q).mapIdx (fun j x => x.2.2.2.toList.map (fun k => (k, slotIdent s cls j)))).flatten
  ops := [operation s cls mv.kinds (accessClass s q (homesOf s s.cur.core q))
    ((timedHomes s q).foldl (fun m x => max m (if mv.write then x.2.1 else x.2.2.1)) 0) mv.acq]

theorem map_mapIdx {α β γ : Type} (l : List α) (f : Nat → α → β) (g : β → γ) :
    (l.mapIdx f).map g = l.mapIdx (fun j x => g (f j x)) := by
  rw [List.mapIdx_eq_zipIdx_map, List.map_map, List.mapIdx_eq_zipIdx_map]
  rfl

/-- The request slots taken, as effects. -/
theorem filterMap_takeSlot {α : Type} (l : List α) (place : α → Option Nat) (ident : Nat → Nat) :
    (l.mapIdx (fun j x => (place x).map (fun k => Eff.takeSlot k (ident j)))).filterMap id =
      ((l.mapIdx (fun j x => (place x).toList.map (fun k => (k, ident j)))).flatten).map takeEff := by
  induction l generalizing ident with
  | nil => rfl
  | cons x l ih =>
    rw [List.mapIdx_cons, List.mapIdx_cons, List.flatten_cons, List.map_append, ← ih (fun j => ident (j + 1))]
    cases place x with
    | none => rfl
    | some k => rfl

/-- A request that passes its checks adds its order class and what it starts to the slot. -/
theorem accessSlot_eq {q : Request} (hok : checkAccess s s.cur.core q = none) (o : SlotOut) (mv : Move) :
    accessSlot s o q mv = { o with
      starts := (mv.kinds, accessClass s q (homesOf s s.cur.core q)) :: o.starts
      effs := o.effs ++ (requestStarts s o.cls q mv).effs } := by
  unfold accessSlot
  simp only [hok]
  rw [filterMap_takeSlot]
  simp only [Starts.effs, requestStarts, map_mapIdx, List.map_nil, List.append_nil, List.append_assoc]
  rfl

/-- The row of a request whose checks pass. -/
theorem accesses_eq_some {d : Does} {q : Request} {mv : Move} {room release : Option Nat}
    (h : accesses s d q mv room release = some a) :
    checkAccess s s.cur.core q = none ∧
      a = { does := d, room := room, starts := some (mv.kinds, accessClass s q (homesOf s s.cur.core q)), release := release,
            more := (requestStarts s d.cls q mv).more s } := by
  obtain ⟨hok, ha⟩ := Option.ite_none_right_eq_some.1 h
  refine ⟨hok, (Option.some.inj ha).symm.trans ?_⟩
  congr 1
  funext t
  rw [Starts.more_eq_withOp rfl rfl]
  simp only [Starts.sent, requestStarts, List.append_nil]
  rfl

/-- A slot that makes a request whose checks pass issues the row of that request. -/
theorem accesses_issues {d : Does} {q : Request} {mv : Move} {room release : Option Nat} {o : SlotOut}
    (h : accesses s d q mv room release = some a) (hexec : exec i s = execSlot s (accessSlot s o q mv))
    (ho : o = { slotOf d o.reads with release := release }) (hdraw : d.draw = none) (hlands : d.lands = []) :
    ∃ x rs, IssuesStarts s i a x rs := by
  obtain ⟨hok, rfl⟩ := accesses_eq_some h
  refine ⟨requestStarts s d.cls q mv, o.reads, ?_, hdraw, hlands, rfl, rfl⟩
  rw [hexec, accessSlot_eq hok, ho]
  rfl

/-! ## Atomics (R268, R281, R342) -/

/-- The plies of an atomic, and the request slot that it takes. -/
def atomicPlies (s : State) (q : Request) (returns : Bool) : Nat × Nat × Option Nat :=
  accessPlies s s.cur.core ((homesOf s s.cur.core q).headD 0) returns

/-- The ply at which an atomic is complete: its old value lands, or nothing returns and it has executed. -/
def atomicEnds (s : State) (q : Request) (returns : Bool) : Nat :=
  if returns then (atomicPlies s q returns).2.1 else (atomicPlies s q returns).1 - 4

/-- What an atomic starts whose checks have passed. -/
def atomicStarts (s : State) (cls : Nat) (q : Request) (kind : AtomOp) (x y : Word) (dest : Option Nat) (returns : Bool)
    (acq : Option Nat) : Starts where
  atoms := [{ ident := slotIdent s cls 0, op := slotOp s cls, core := s.cur.core, rank := bundleRank s.cur.core,
              order := s.seq * 8 + cls, due := (atomicPlies s q returns).1 - 4, landAt := atomicEnds s q returns,
              addr := (homesOf s s.cur.core q).headD 0, kind := kind, x := x, y := y, dest := dest }]
  places := (atomicPlies s q returns).2.2.toList.map (fun k => (k, slotIdent s cls 0))
  ops := [operation s cls (kindLoad + kindStore) (distance s.cur.core ((homesOf s s.cur.core q).headD 0))
    (atomicEnds s q returns) acq]

/-- The effects of an atomic, in the order in which the slot lists them. -/
theorem atomicStarts_effs (s : State) (cls : Nat) (q : Request) (kind : AtomOp) (x y : Word) (dest : Option Nat) (returns : Bool)
    (acq : Option Nat) :
    (atomicStarts s cls q kind x y dest returns acq).effs =
      (atomicStarts s cls q kind x y dest returns acq).atoms.map .atom ++
        ((atomicPlies s q returns).2.2.map (fun k => Eff.takeSlot k (slotIdent s cls 0))).toList ++
        (atomicStarts s cls q kind x y dest returns acq).ops.map .op := by
  simp only [Starts.effs, atomicStarts, Option.toList_map, List.map_map, List.map_nil, List.nil_append, List.append_nil]
  rfl

section
variable {cls : Nat} {q : Request} {t : BitVec 3} {kind : AtomOp} {x y : Word} {dest : Option Nat} {returns : Bool}
  {release acq : Option Nat}

/-- The row of an atomic whose checks pass. -/
theorem atomic_eq_some (h : atomic s cls q t kind x y dest returns release acq = some a) :
    checkAccess s s.cur.core q = none ∧
      a = { does := { cls := cls, tag := t }, release := release,
            starts := some (kindLoad + kindStore, distance s.cur.core ((homesOf s s.cur.core q).headD 0)),
            more := (atomicStarts s cls q kind x y dest returns acq).more s } := by
  obtain ⟨hok, ha⟩ := Option.ite_none_right_eq_some.1 h
  refine ⟨hok, (Option.some.inj ha).symm.trans ?_⟩
  congr 1
  funext t
  rw [Starts.more_eq_withOp rfl rfl]
  simp only [Starts.sent, atomicStarts, List.append_nil]
  rfl

/-- A slot issues the row of an atomic if it does so once the checks have passed. -/
theorem atomic_issues {rs : List Reg} (h : atomic s cls q t kind x y dest returns release acq = some a)
    (hexec : checkAccess s s.cur.core q = none → exec i s = execSlot s { SlotOut.empty cls t.toNat with
      reads := rs, release := release
      starts := [(kindLoad + kindStore, distance s.cur.core ((homesOf s s.cur.core q).headD 0))]
      effs := (atomicStarts s cls q kind x y dest returns acq).effs }) : ∃ x rs, IssuesStarts s i a x rs := by
  obtain ⟨hok, rfl⟩ := atomic_eq_some h
  exact ⟨_, rs, hexec hok, rfl, rfl, rfl, rfl⟩

end

theorem ordRelease_eq_releases (o : BitVec 2) (k : BitVec 3) : ordRelease o k = releases o k := by
  revert o k
  decide

theorem ordAcquire_eq_acquires (o : BitVec 2) (k : BitVec 3) : ordAcquire o k = acquires o k := by
  revert o k
  decide

/-- An atomic of the L slot. -/
theorem atomicL_issues {t k : BitVec 3} {d r : BitVec 6} {c : BitVec 4} {o : BitVec 2} {kind : AtomOp}
    (h : atomicL s t d c r k o kind = some a) (hexec : exec i s = execSlot s (atomicSlot s t d c r k o kind)) :
    ∃ x rs, IssuesStarts s i a x rs := by
  unfold atomicL at h
  refine atomic_issues (rs := (atomicSlot s t d c r k o kind).reads) h fun hok => hexec.trans (congrArg (execSlot s) ?_)
  unfold atomicSlot
  simp only [atomicStarts_effs, ← ordRelease_eq_releases, ← ordAcquire_eq_acquires]
  change checkAccess s s.cur.core { wordRequest (s.rc c) (s.rs r) [0, 1, 3] 8 with reply := true, atomic := true } = none at hok
  rw [hok]
  rfl

/-- A counter add of the E slot. -/
theorem adds_issues {t : BitVec 3} {x : BitVec 6} {y : BitVec 4} {off size : Nat} {kind : AtomOp}
    (h : adds s t x y off size kind = some a)
    (hexec : exec i s = execSlot s (counterAdd s t x y (((s.rc y).base : Int) + off) size kind)) :
    ∃ x rs, IssuesStarts s i a x rs := by
  refine atomic_issues (rs := (counterAdd s t x y (((s.rc y).base : Int) + off) size kind).reads) h fun hok =>
    hexec.trans (congrArg (execSlot s) ?_)
  unfold counterAdd
  simp only [hok, atomicStarts_effs]
  rfl

/-- A fence: it is no operation, and holds none of its own bundle. -/
theorem fence_issues (t k : BitVec 3) (p u : BitVec 6) :
    IssuesStarts s (.fence t p u k)
      { does := { cls := 2, tag := t },
        more := also s (fun c =>
          { c with fences := c.fences ++ [{ seq := s.seq, pred := p.toNat, succ := u.toNat, scope := k.toNat }] }) }
      { fences := [{ seq := s.seq, pred := p.toNat, succ := u.toNat, scope := k.toNat }] } [] := by
  refine ⟨rfl, rfl, rfl, rfl, funext fun t => ?_⟩
  simp only [Starts.more, Starts.sent, also, Starts.kept, List.append_nil]
  rfl

end

/-! ## The table -/

theorem rowOrdered_issues {s : State} {i : Instr} {a : Acts} (h : rowOrdered s i = some a) : ∃ x rs, IssuesStarts s i a x rs := by
  unfold rowOrdered at h
  split at h
  -- ordered accesses
  case h_1 =>
    rw [← ordAcquire_eq_acquires] at h
    exact accesses_issues h rfl rfl rfl rfl
  case h_2 =>
    rw [← ordRelease_eq_releases] at h
    exact accesses_issues h rfl rfl rfl rfl
  -- capability transfers
  case h_3 | h_4 => exact accesses_issues h rfl rfl rfl rfl
  case h_5 | h_6 | h_7 | h_8 | h_9 | h_10 | h_11 | h_12 => exact atomicL_issues h rfl
  case h_13 | h_14 => exact adds_issues h rfl
  -- fences
  case h_15 =>
    cases h
    exact ⟨_, _, fence_issues ..⟩
  case h_16 => exact nomatch h

/-- Settles O33: a slot whose checks pass starts its accesses or its atomic, their request slots and its operation, or a fence, and
nothing else. -/
theorem orderedAccesses : Obligations.OrderedAccesses := by
  intro s i a h hrow hready
  obtain ⟨x, rs, hissues⟩ := rowOrdered_issues hrow
  exact hissues.exec_eq h hready

end Sys2Proof.Proofs.Accesses
end
end

