-- ==== Sys2Proof/Proofs/VectorAccesses.lean ====
section
/-! Vector loads and stores and queue pushes: the lanes of an access, and the load that fills a reserved place of a queue. -/

noncomputable section

namespace Sys2Proof.Proofs.Accesses

open Sys2Proof.Machine Sys2Proof.Safety Sys2Proof.Proofs.Lanes Sys2Proof.Proofs.Brine

/-! ## Lanes (R276, R443) -/

theorem field_eq_extractLsb' (x : Word) (hi lo : Nat) : field x.toNat hi lo = (x.extractLsb' lo (hi + 1 - lo)).toNat :=
  (BitVec.extractLsb'_toNat ..).symm

theorem signedField_eq_extractLsb' (x : Word) (hi lo : Nat) :
    signedField x.toNat hi lo = (x.extractLsb' lo (hi + 1 - lo)).toInt := by
  rw [signedField, sext_eq_toInt, ofNat_field_eq_extractLsb']

/-- The lanes of the slot are those of the rule. -/
theorem activeLanes_eq_lanesOf (s : State) (r : BitVec 6) (strided masked : Bool) :
    activeLanes s (s.rs r).toNat strided masked = lanesOf s r strided masked := by
  simp only [activeLanes, rangeFrom_zero, maskBit_eq_getLsbD, field_eq_extractLsb', signedField_eq_extractLsb']
  rfl

theorem laneMask_eq_maskOfLanes (lanes : List (Nat × Int)) : laneMask lanes = maskOfLanes lanes := by
  refine (List.foldl_hom (BitVec.ofNat 64) fun m l => ?_).symm
  rw [BitVec.ofNat_or]
  exact congrArg (BitVec.ofNat 64 m ||| ·) (BitVec.eq_of_toNat_eq (by rw [BitVec.toNat_twoPow, BitVec.toNat_ofNat]))

theorem laneStride_eq_strideOf (s : State) (r : BitVec 6) (strided : Bool) :
    laneStride (s.rs r).toNat strided = strideOf s r strided := by
  rw [laneStride, signedField_eq_extractLsb', toBits_eq_ofInt]
  rfl

/-! ## Loads into a queue (R133, R277) -/

section
variable {s : State} {i : Instr} {a : Acts}

/-! The effects that make no push, and those that stay. -/

theorem filterMap_const_none {α β : Type} (l : List α) : l.filterMap (fun _ => (none : Option β)) = [] :=
  List.filterMap_eq_nil_iff.2 fun _ _ => rfl

theorem filter_const_true {α : Type} (l : List α) : l.filter (fun _ => true) = l := List.filter_eq_self.2 fun _ _ => rfl

theorem filter_const_false {α : Type} (l : List α) : l.filter (fun _ => false) = [] :=
  List.filter_eq_nil_iff.2 fun _ _ => Bool.false_ne_true

/-- A load pushes an entry for each of its accesses, which is then no effect of its own. -/
theorem loadPush_eq {o : SlotOut} {x : Starts} (hcauses : o.causes = []) (heffs : o.effs = x.effs) (q : Nat) :
    loadPush o q = { o with
      pushes := x.accs.map (fun y => { q := q, lat := 0, data := 0, load := some y })
      effs := { x with accs := [] }.effs } := by
  unfold loadPush
  rw [hcauses, heffs]
  simp only [Starts.effs, takeEff, List.isEmpty_nil, if_true, List.filterMap_append, List.filterMap_map, List.filter_append,
    List.filter_map, Function.comp_def, List.filterMap_eq_map', filterMap_const_none, Bool.not_true, Bool.not_false,
    filter_const_false, filter_const_true, List.map_nil, List.append_nil, List.nil_append]

/-- The core with a place of a queue reserved for a load (R133, R397). -/
def reserving (s : State) (v : Nat) (c : Core) : Core :=
  { (c.setQueue v (s.curCore.queue v).reserve).markBank v with
    qown := mapSet 0 s.curCore.qown (2 * v + (s.curCore.queue v).pushSlot) (8 * s.seq + 3) }

/-- An access that fills the place of a queue that the next push takes. -/
def filling (s : State) (v : Nat) (lanes : List Nat) (y : Access) : Access :=
  { y with dest := .queue v (s.curCore.queue v).pushSlot lanes }

/-- The slot of a load into a queue, with what it starts beside its access. -/
def loadSlot (t : BitVec 3) (v : Nat) (starts : List (Nat × Nat)) (y : Access) (x : Starts) (rs : List Reg) : SlotOut :=
  { SlotOut.empty 2 t.toNat with
    reads := rs, qdests := [v], pushes := [{ q := v, lat := 0, data := 0, load := some y }], starts := starts, effs := x.effs }

/-- What the manual gives such a slot. -/
def loadActs (s : State) (t : BitVec 3) (v : Nat) (st : Nat × Nat) (x : Starts) : Acts :=
  { does := { cls := 2, tag := t }, room := some v, starts := some st,
    more := fun u => also s (reserving s v) (x.more s u) }

variable {t : BitVec 3} {v k : Nat} {st : Nat × Nat} {lanes : List Nat} {x : Starts} {y : Access} {rs : List Reg}

/-- The queues as a load leaves them: the place is reserved, and its access is on its way. -/
theorem commitQueues_loadSlot (hdest : y.dest = .queue v k lanes) :
    commitQueues s s.cur.core [loadSlot t v [st] y x rs] =
      { s.setCore s.cur.core (reserving s v s.curCore) with accs := s.accs ++ [filling s v lanes y] } := by
  change commitPush s s.cur.core 2 { q := v, lat := 0, data := 0, load := some y } = _
  simp only [commitPush, hdest]
  rfl

theorem Starts.kept_reserving (c : Core) : x.kept (reserving s v c) = reserving s v (x.kept c) := by
  simp only [Starts.kept, reserving, Core.setQueue, Core.markBank, Core.markDirty]

/-- What a commit leaves that reserves a place of a queue, sends the access `f` to fill it, and starts what `x` says. -/
theorem committed_loadSlot {u : State} {f : Access} (hx : x.accs = [])
    (hu : u = { s.setCore s.cur.core (reserving s v s.curCore) with accs := s.accs ++ [f] }) (target : Nat) :
    (let w := x.effs.foldl (fun w e => applyEff w s.cur.core e) u
     { w.setCore s.cur.core { w.core s.cur.core with
        pc := BitVec.ofNat 22 target, held := 0, wait := none, nextIssue := s.now + 1 + field s.cur.w 3 0 } with
       seq := s.seq + 1 }) =
      also s (reserving s v) (({ x with accs := [f] } : Starts).more s (committed s s.curCore target)) := by
  subst hu
  have hcore : OnlyCore { s with accs := s.accs ++ [f] } s.cur.core
      { s.setCore s.cur.core (reserving s v s.curCore) with accs := s.accs ++ [f] } (reserving s v s.curCore) :=
    ⟨State.core_setCore_same .., fun d => congrArg (fun w => { w with accs := s.accs ++ [f] }) (State.setCore_setCore s _ _ d)⟩
  have hsent : x.sent { s with accs := s.accs ++ [f] } = ({ x with accs := [f] } : Starts).sent s := by
    simp only [Starts.sent, hx, List.append_nil]
  have hcommitted := (onlyCore_effs (x := x) hcore).committed target
  rw [hsent, Starts.kept_reserving, committed_also (f := reserving s v) (fun _ _ _ => rfl)] at hcommitted
  exact hcommitted.trans (congrArg (also s (reserving s v)) (committed_sent (x := { x with accs := [f] }) s.curCore target))

theorem finishSame_of_mem {u : State} (hmem : u.mem = s.mem) : finishSame s u = .next u := by
  rw [finishSame, ← hmem]

/-- Alone in its bundle and ready, a load into a queue leaves what the manual gives it. -/
theorem execSlot_loadSlot (h : Alone s) (hdest : y.dest = .queue v k lanes) (hx : x.accs = [])
    (hr : (loadActs s t v st { x with accs := [filling s v lanes y] }).ready s) :
    execSlot s (loadSlot t v [st] y x rs) = .next ((loadActs s t v st { x with accs := [filling s v lanes y] }).done s) := by
  obtain ⟨⟨htag, -⟩, horder, hroom⟩ := hr
  have hqueues : queueCauses s.curCore [loadSlot t v [st] y x rs] = [] :=
    queueCauses_reads (pops := []) s.curCore rfl (List.forall_mem_nil _) (Nat.le_refl 1)
      (List.forall_mem_singleton.2 (hroom v rfl))
  have hcommits := execSlot_commits h (o := loadSlot t v [st] y x rs) rfl htag rfl rfl (fun hb => absurd hb Bool.false_ne_true)
    (Nat.le_succ 1) (Nat.zero_le _) hqueues rfl (orderHold_free horder rfl rfl)
  obtain ⟨hyield, hboundary⟩ := plain_contains (Starts.effs_plain (x := x))
  have hbundle := commitBundle_one h (o := loadSlot t v [st] y x rs) rfl htag hyield hboundary
  simp only [drawnPhases_none (o := loadSlot t v [st] y x rs) rfl] at hbundle
  have hleft := hbundle.trans (committed_loadSlot hx (commitQueues_loadSlot hdest) (after s))
  rw [hcommits, softwareTrap_plain Starts.effs_plain, hleft]
  exact finishSame_of_mem rfl

end

/-! ## Vector loads (R277) -/

section
variable {s : State} {i : Instr} {a : Acts} {cls home : Nat} {q : Request} {mv : Move} {t : BitVec 3} {v : BitVec 9} {c : BitVec 4}
  {r : BitVec 6} {strided masked : Bool}

/-- A request with one home makes one access. -/
theorem requestStarts_accs_of_homesOf (hhome : homesOf s s.cur.core q = [home]) :
    (requestStarts s cls q mv).accs = [makeAccess s cls 0 home (accessPlies s s.cur.core home q.reply) mv] := by
  simp only [requestStarts, timedHomes, hhome, List.map_cons, List.map_nil, List.mapIdx_singleton]

/-- The request of a vector access, and the parts of its lanes. -/
abbrev laneRequest (s : State) (c : BitVec 4) (r : BitVec 6) (perm : Nat) (strided masked : Bool) :
    Request × List (Nat × Nat × Nat) :=
  vectorRequest (s.rc c) (lanesOf s r strided masked) perm (!strided && !masked)

/-- What a vector load moves into the place `k` of its queue. -/
def loadMove (s : State) (v : BitVec 9) (k : Nat) (c : BitVec 4) (r : BitVec 6) (strided masked : Bool) : Move :=
  { kinds := kindLoad, write := false, parts := (laneRequest s c r 0 strided masked).2, data := 0, capTag := none,
    dest := .queue v.toNat k ((lanesOf s r strided masked).map Prod.fst), acq := none,
    mask := maskOfLanes (lanesOf s r strided masked), stride := strideOf s r strided }

/-- The registers that a vector access reads. -/
def laneReads (s : State) (c : BitVec 4) (r : BitVec 6) (masked : Bool) : List Reg :=
  [.cap c.toNat, .scalar r.toNat] ++ (if masked then [.mask (field (s.rs r).toNat 63 60)] else [])

theorem vectorLoad_of_lanes (hlanes : lanesOf s r strided masked ≠ []) :
    vectorLoad s t v c r strided masked =
      loadPush (accessSlot s { SlotOut.empty 2 t.toNat with reads := laneReads s c r masked, qdests := [v.toNat] }
        (laneRequest s c r 0 strided masked).1 (loadMove s v 0 c r strided masked)) v.toNat := by
  unfold vectorLoad
  simp only [activeLanes_eq_lanesOf, laneMask_eq_maskOfLanes, laneStride_eq_strideOf]
  exact if_neg (mt List.isEmpty_iff.1 hlanes)

theorem vectorLoad_of_no_lanes (hlanes : lanesOf s r strided masked = []) :
    vectorLoad s t v c r strided masked =
      startSlot { does := { cls := 2, tag := t, push := some (v.toNat, 4, 0) }, starts := some (kindLoad, 0) }
        { ops := [operation s 2 kindLoad 0 (s.now + 4) none] } (laneReads s c r masked) := by
  unfold vectorLoad
  simp only [activeLanes_eq_lanesOf, hlanes]
  rfl

/-- A load without an active lane pushes a zero entry and is an operation. Log 41. -/
theorem vectorIn_issues_of_no_lanes (hlanes : lanesOf s r strided masked = [])
    (hexec : exec i s = execSlot s (vectorLoad s t v c r strided masked))
    (hrow : vectorIn s t v c r strided masked = some a) : ∃ x rs, IssuesStarts s i a x rs := by
  unfold vectorIn at hrow
  simp only [hlanes, if_true, Option.some.injEq] at hrow
  subst hrow
  refine ⟨_, _, hexec.trans (congrArg (execSlot s) (vectorLoad_of_no_lanes hlanes)), rfl, rfl, rfl, funext fun u => ?_⟩
  rw [Starts.more_eq_withOp rfl rfl]
  simp only [Starts.sent, List.append_nil]
  rfl

/-- The row of a load with an active lane: it has one home, and its access fills the place that it reserves. -/
theorem vectorIn_eq_some (hlanes : lanesOf s r strided masked ≠ []) (hrow : vectorIn s t v c r strided masked = some a) :
    ∃ home, homesOf s s.cur.core (laneRequest s c r 0 strided masked).1 = [home] ∧
      checkAccess s s.cur.core (laneRequest s c r 0 strided masked).1 = none ∧
      a = loadActs s t v.toNat (kindLoad, accessClass s (laneRequest s c r 0 strided masked).1 [home])
        (requestStarts s 2 (laneRequest s c r 0 strided masked).1
          (loadMove s v (s.curCore.queue v.toNat).pushSlot c r strided masked)) := by
  unfold vectorIn at hrow
  simp only [hlanes, if_false, ne_eq, ite_not] at hrow
  obtain ⟨hone, hrow⟩ := Option.ite_none_right_eq_some.1 hrow
  obtain ⟨home, hhome⟩ := List.length_eq_one_iff.1 hone
  obtain ⟨b, hb, rfl⟩ := Option.map_eq_some_iff.1 hrow
  obtain ⟨hok, rfl⟩ := accesses_eq_some hb
  refine ⟨home, hhome, hok, ?_⟩
  rw [← hhome]
  rfl

/-- The access of a vector load to its home, before it has its place. -/
def laneAccess (s : State) (home : Nat) (v : BitVec 9) (c : BitVec 4) (r : BitVec 6) (strided masked : Bool) : Access :=
  makeAccess s 2 0 home (accessPlies s s.cur.core home (laneRequest s c r 0 strided masked).1.reply)
    (loadMove s v 0 c r strided masked)

/-- What a vector load starts beside its access. -/
def laneStarts (s : State) (v : BitVec 9) (c : BitVec 4) (r : BitVec 6) (strided masked : Bool) : Starts :=
  { requestStarts s 2 (laneRequest s c r 0 strided masked).1 (loadMove s v 0 c r strided masked) with accs := [] }

/-- With its place known, the access is the request's. -/
theorem requestStarts_loadMove (hhome : homesOf s s.cur.core (laneRequest s c r 0 strided masked).1 = [home]) :
    requestStarts s 2 (laneRequest s c r 0 strided masked).1
        (loadMove s v (s.curCore.queue v.toNat).pushSlot c r strided masked) =
      { laneStarts s v c r strided masked with
        accs := [filling s v.toNat ((lanesOf s r strided masked).map Prod.fst) (laneAccess s home v c r strided masked)] } :=
  congrArg (fun l => { laneStarts s v c r strided masked with accs := l }) (requestStarts_accs_of_homesOf hhome)

/-- A vector load whose checks pass is a load into a queue. -/
theorem vectorLoad_eq_loadSlot (hlanes : lanesOf s r strided masked ≠ [])
    (hok : checkAccess s s.cur.core (laneRequest s c r 0 strided masked).1 = none)
    (hhome : homesOf s s.cur.core (laneRequest s c r 0 strided masked).1 = [home]) :
    vectorLoad s t v c r strided masked =
      loadSlot t v.toNat [(kindLoad, accessClass s (laneRequest s c r 0 strided masked).1 [home])]
        (laneAccess s home v c r strided masked) (laneStarts s v c r strided masked) (laneReads s c r masked) := by
  rw [vectorLoad_of_lanes hlanes, accessSlot_eq hok, loadPush_eq rfl rfl, requestStarts_accs_of_homesOf hhome, hhome]
  rfl

/-- LDV and its forms. -/
theorem vectorIn_exec_eq (h : Alone s) (hexec : exec i s = execSlot s (vectorLoad s t v c r strided masked))
    (hrow : vectorIn s t v c r strided masked = some a) (hr : a.ready s) : exec i s = .next (a.done s) := by
  by_cases hlanes : lanesOf s r strided masked = []
  · obtain ⟨x, rs, hissues⟩ := vectorIn_issues_of_no_lanes hlanes hexec hrow
    exact hissues.exec_eq h hr
  · obtain ⟨home, hhome, hok, rfl⟩ := vectorIn_eq_some hlanes hrow
    rw [requestStarts_loadMove hhome] at hr ⊢
    rw [hexec, vectorLoad_eq_loadSlot hlanes hok hhome]
    exact execSlot_loadSlot h rfl rfl hr

/-! ## Vector stores and queue pushes (R278, R279) -/

variable {p : BitVec 1}

/-- STV and its forms. Without an active lane nothing is stored. Log 41. -/
theorem vectorOut_exec_eq (h : Alone s) (hexec : exec i s = execSlot s (vectorStore s t v p c r strided masked))
    (hrow : vectorOut s t v p c r strided masked = some a) (hr : a.ready s) : exec i s = .next (a.done s) := by
  unfold vectorOut at hrow
  unfold vectorStore at hexec
  simp only [activeLanes_eq_lanesOf, laneMask_eq_maskOfLanes, laneStride_eq_strideOf] at hexec
  by_cases hlanes : lanesOf s r strided masked = []
  · simp only [hlanes, if_true, Option.some.injEq] at hrow
    subst hrow
    rw [hlanes] at hexec
    exact IssuesRow.exec_eq ⟨rfl, List.forall_mem_nil _, _, hexec⟩ h hr.1
  · simp only [hlanes, if_false] at hrow
    rw [if_neg (mt List.isEmpty_iff.1 hlanes)] at hexec
    obtain ⟨x, rs, hissues⟩ := accesses_issues hrow hexec rfl rfl rfl
    exact hissues.exec_eq h hr

/-- QPUSH and QPUSH.REL. -/
theorem pushOut_exec_eq {release : Option Nat} (h : Alone s) (hexec : exec i s = execSlot s (queuePush s t v p c r release))
    (hrow : pushOut s t v p c r release = some a) (hr : a.ready s) : exec i s = .next (a.done s) := by
  obtain ⟨x, rs, hissues⟩ := accesses_issues hrow hexec rfl rfl rfl
  exact hissues.exec_eq h hr

end

/-! ## The table -/

/-- Settles O32: a load into a queue reserves a place and sends the access that fills it, a store or a push sends an access for each
home, and each takes its request slots and is one operation. -/
theorem vectorLoadsAndStores : Obligations.VectorLoadsAndStores := by
  intro s i a h hrow hready
  unfold rowVector at hrow
  split at hrow
  case h_1 | h_2 | h_3 | h_4 => exact vectorIn_exec_eq h rfl hrow hready
  case h_5 | h_6 | h_7 | h_8 => exact vectorOut_exec_eq h rfl hrow hready
  case h_9 | h_10 => exact pushOut_exec_eq h rfl hrow hready
  case h_11 => exact nomatch hrow

end Sys2Proof.Proofs.Accesses
end
end

