-- ==== Sys2Proof/Proofs/MemoryForm.lean ====
section
/-! The canonical form of memory, at reset and along every step. -/

noncomputable section

namespace Sys2Proof.Proofs

open Sys2Proof.Machine Sys2Proof.Safety

/-- Settles O14: nothing is listed at reset. -/
theorem memoryCanonicalAtReset : Obligations.MemoryCanonicalAtReset := rfl

/-! ## Every row changes memory by a list of byte writes -/

/-- An outcome whose memory is that of `s` after a list of byte writes. -/
def Finishes (s : State) (o : Host.Outcome State Fault Refusal) : Prop := ∃ r, o = finish s r

@[simp] theorem Finishes.writes (s : State) (r : Result) : Finishes s (finish s r) := ⟨r, rfl⟩

@[simp] theorem Finishes.same (s t : State) : Finishes s (finishSame s t) := ⟨⟨t, []⟩, rfl⟩

@[simp] theorem Finishes.stays (s : State) : Finishes s (.next s) := ⟨⟨s, []⟩, rfl⟩

theorem stepLeaf_finishes (s : State) (opc : Nat) (q : GtsRec) (f : LeafJob → LeafResult) : Finishes s (stepLeaf s opc q f) := by
  unfold stepLeaf
  split
  · split
    · exact .writes ..
    · exact .stays s
  · exact .stays s

theorem linkStep_finishes (s : State) (i : Instr) (f : State → Nat → LinkEntry → Except Nat State) : Finishes s (linkStep s i f) := by
  unfold linkStep
  split
  · exact .stays s
  · exact .same ..

theorem handOver_finishes (s : State) (opc : Nat) (q : GtsRec) : Finishes s (handOver s opc q) := by
  unfold handOver
  split
  · exact .same ..
  · exact .stays s

theorem collStep_finishes (s : State) (chip l : Nat) (w : BitVec 128) (f : Nat → List StepWrite) :
    Finishes s (collStep s chip l w f) := by
  unfold collStep
  split
  · exact .stays s
  · exact .same ..

theorem commandStep_finishes (s : State) (chip kind : Nat) (f : State → Nat → State) : Finishes s (commandStep s chip kind f) := by
  unfold commandStep
  split
  · split
    · exact .same ..
    · exact .stays s
  · exact .stays s

theorem exec_finishes_of_event {i : Instr} (s : State) (h : slotClass i = none) : Finishes s (exec i s) := by
  cases i
  all_goals cases h
  case send | sendSig | land | fwd | redAddF32 | redAddBf16 | redAddI32 | redMaxF32 | redMaxBf16 | redMaxI32 | guard | linkLoop | endl
    | mark | ckpt | fill | delv | slot | serve | halt | reservedOpc => exact linkStep_finishes ..
  case gcopy | gconv | gfill | gelt | gelts | gmma | gmmaz | gscan | gred | ggather | gbprod | gbdraw => exact stepLeaf_finishes ..
  case gagather | grscat | gared | ga2a => exact handOver_finishes ..
  case topk | scadd | q4 | dq4add => exact collStep_finishes ..
  case write | read | capset | launch | mapset =>
    dsimp only [exec, execWrite, execRead, execCapset, execLaunch, execMapset]
    exact commandStep_finishes ..
  case hostGtsRecord =>
    dsimp only [exec, execHostGtsRecord]
    split
    · exact commandStep_finishes ..
    · exact .stays s
  case tileChunkMove | memoryAccessPerform | atomicExecute | leaseExpiry | recordFetch | granuleTransfer | countedRecordAdd |
    thresholdAction | yieldCounterAdd =>
    dsimp only [exec, execTileChunkMove, execMemoryAccessPerform, execAtomicExecute, execLeaseExpiry, execRecordFetch,
      execGranuleTransfer, execCountedRecordAdd, execThresholdAction, execYieldCounterAdd]
    repeat' split
    all_goals simp
  case deferredEventTaken | watchdog | waitWatchdog | preemptTimeout | contextSave | resumeStart | restore | preemptionPly |
    pauseStoreRelease =>
    dsimp only [exec, execDeferredEventTaken, execWatchdog, execWaitWatchdog, execPreemptTimeout, execContextSave, execResumeStart,
      execRestore, execPreemptionPly, execPauseStoreRelease]
    repeat' split
    all_goals simp
  case gnop | gcwait | recordAcceptance | leafDispatch | leafStart | leafEnd | recordCompletion | collectiveStart |
    collectiveCompletion =>
    dsimp only [exec, execGnop, execGcwait, execRecordAcceptance, execLeafDispatch, execLeafStart, execLeafEnd, execRecordCompletion,
      execCollectiveStart, execCollectiveCompletion]
    repeat' split
    all_goals simp
  case nakReceipt | parityArrival | missingFlitDetection | guardInterval | exchangeSendTime | exchangeReceiptTime | phaseCorrection |
    damagedMessage | flitArrival | replyArrival =>
    dsimp only [exec, execNakReceipt, execParityArrival, execMissingFlitDetection, execGuardInterval, execExchangeSendTime,
      execExchangeReceiptTime, execPhaseCorrection, execDamagedMessage, execFlitArrival, execReplyArrival]
    repeat' split
    all_goals simp
  case tempoNotice | preemptionNotice | resumeNotice | faultNotice | tempoDRequest | slowDownNotice | dHoldEnd | thermalStepUp |
    capLeaseExpiry | converterSwitch | tempoChange | haltPly | replayPly | managementWatchdog | selfTest =>
    dsimp only [exec, execTempoNotice, execPreemptionNotice, execResumeNotice, execFaultNotice, execTempoDRequest, execSlowDownNotice,
      execDHoldEnd, execThermalStepUp, execCapLeaseExpiry, execConverterSwitch, execTempoChange, execHaltPly, execReplayPly,
      execManagementWatchdog, execSelfTest]
    repeat' split
    all_goals simp
  case badCommand | hostTransferCompletion =>
    dsimp only [exec, execBadCommand, execHostTransferCompletion]
    repeat' split
    all_goals simp
  all_goals exact .same ..

theorem exec_finishes (i : Instr) (s : State) : Finishes s (exec i s) := by
  cases h : slotClass i with
  | none => exact exec_finishes_of_event s h
  | some k =>
    obtain ⟨o, ho, -⟩ := exec_eq_execSlot s h
    rw [ho]
    exact .same ..

/-! ## Every act of a step -/

/-- An outcome that does not lose the canonical form that the memory of `s` has. -/
def KeepsForm (s : State) (o : Host.Outcome State Fault Refusal) : Prop := MemoryCanonical s → ∀ t, o = .next t → MemoryCanonical t

theorem KeepsForm.of_mem {s t : State} (h : t.mem = s.mem) : KeepsForm s (.next t) := by
  rintro hs u ⟨⟩
  exact (congrArg Memory.wf h).trans hs

theorem KeepsForm.congr {s t : State} {o : Host.Outcome State Fault Refusal} (hmem : t.mem = s.mem) (h : KeepsForm t o) :
    KeepsForm s o := fun hs => h ((congrArg Memory.wf hmem).trans hs)

theorem Finishes.keepsForm {s : State} {o : Host.Outcome State Fault Refusal} (h : Finishes s o) : KeepsForm s o := by
  obtain ⟨r, rfl⟩ := h
  intro hs t ht
  exact (congrArg Memory.wf (finish_mem ht)).trans (Memory.wf_writeBytes hs r.writes)

theorem runSlots_keepsForm (is : List Instr) (s : State) : KeepsForm s (runSlots is s) := by
  induction is generalizing s with
  | nil => exact .of_mem rfl
  | cons i is ih =>
    intro hs t ht
    obtain ⟨u, hu⟩ := exec_answers i s
    rw [runSlots, hu] at ht
    exact ih u ((exec_finishes i s).keepsForm hs u hu) t ht

theorem earlyAct_keepsForm (s : State) (a : Act) : KeepsForm s (earlyAct s a) := by
  cases a with
  | event i => exact (exec_finishes i s).keepsForm
  | delay k =>
    rw [earlyAct]
    split
    · exact (Finishes.same ..).keepsForm
    · exact .of_mem rfl
  | settle n ch => exact (Finishes.same ..).keepsForm
  | issue n =>
    refine .congr ?_ (runSlots_keepsForm _ _)
    rfl
  | input =>
    dsimp only [earlyAct]
    split
    · split
      · refine .congr ?_ (exec_finishes _ _).keepsForm
        rfl
      · exact .of_mem rfl
      · exact .of_mem rfl
    · exact .of_mem rfl
  | foresee | tick => exact .of_mem rfl

/-- Settles O15: a row changes memory by byte writes, which keep the form, and the other acts of a step leave memory as it is. -/
theorem memoryCanonicalKept : Obligations.MemoryCanonicalKept := by
  intro s t hs ht
  have hkeeps : KeepsForm s (advance s) := by
    unfold advance
    split
    · exact .of_mem rfl
    · exact (Finishes.same ..).keepsForm
    · exact earlyAct_keepsForm s _
  exact hkeeps hs t ht

end Sys2Proof.Proofs
end
end

