-- ==== Sys2Proof/Proofs/Channels.lean ====
section
/-! Copy channels: the row of a granule where the bytes of a row are no whole granules. -/

noncomputable section

namespace Sys2Proof.Proofs

open Sys2Proof.Machine Sys2Proof.Safety

/-- Channel 0 of core 0 issues granule 1 of a timed record whose rows have 100 bytes, which are no whole granules. -/
def unevenRows : State :=
  State.reset.setCore 0 { Core.reset with
    chans := [(0, { Chan.reset with
      state := 1, next := 1,
      cur := some { off := 0, op := 1, ctl := 1, nextOff := 0, src := 0, dst := 0, rows := 4, rbytes := 100, sstride := 0, dstride := 0,
                    ctr := 0, add := 0, mcast := 0, n := 4, issueAt := 0 } })] }

/-- The rows that the reads of copy channels in flight name. -/
def copyRows (s : State) : List Nat := s.accs.filterMap (fun x => match x.dest with | .copy _ row _ => some row | _ => none)

theorem rowChannel_unevenRows : (rowChannel unevenRows (.granuleTransfer 0 0)).map copyRows = some [0] := by decide +kernel

theorem exec_unevenRows : ∃ t, exec (.granuleTransfer 0 0) unevenRows = .next t ∧ copyRows t = [1] := by
  refine ⟨_, rfl, ?_⟩
  decide +kernel

/-- Refutes O41: a channel divides the number of a granule by the whole granules of a row, and the table its bytes by those of a row, which
differ where RBYTES is no multiple of 64. -/
theorem not_channelEvents : ¬ Obligations.ChannelEvents := by
  intro h
  obtain ⟨t, hrow, hzero⟩ := Option.map_eq_some_iff.1 rowChannel_unevenRows
  obtain ⟨u, hexec, hone⟩ := exec_unevenRows
  obtain rfl : u = t := Host.Outcome.next.inj (hexec.symm.trans (h _ _ _ hrow))
  rw [hzero] at hone
  exact absurd hone (by decide)

end Sys2Proof.Proofs
end
end

