-- ==== Sys2Proof/Proofs/Ports.lean ====
section
/-! Ports: the delivery of a flit to a reduction whose operation no RED encodes. -/

noncomputable section

namespace Sys2Proof.Proofs

open Sys2Proof.Machine Sys2Proof.Safety

/-- Port 0 delivers a flit whose payload is 1 to a claim that reduces granule 0, which holds zeros, by operation 8. -/
def unnamedReduction : State :=
  { State.reset with
    now := 4
    flits := [{ ident := 0, port := 0, sent := 0, pos := 0, kind := 0, hops := 0, atag := 0, pay := 1, tag := 0, mask := 0, phase := .good,
                token := none }]
    claims := [{ order := 0, port := 0, ply := 4, pos := 0, n := 1, use := .red 8 0, issued := true }] }

/-- The data of the accesses in flight. -/
def accessData (s : State) : List Nat := s.accs.map (fun x => x.data.toNat)

theorem rowPort_unnamedReduction : (rowPort unnamedReduction (.flitArrival 0)).map accessData = some [1] := by decide +kernel

theorem exec_unnamedReduction : ∃ t, exec (.flitArrival 0) unnamedReduction = .next t ∧ accessData t = [0] := by
  refine ⟨_, rfl, ?_⟩
  decide +kernel

/-- Refutes O44: for a claim that reduces by operation 8, which no RED encodes, the port takes the minimum of the words and the table the
maximum. -/
theorem not_portEvents : ¬ Obligations.PortEvents := by
  intro h
  obtain ⟨t, hrow, hone⟩ := Option.map_eq_some_iff.1 rowPort_unnamedReduction
  obtain ⟨u, hexec, hzero⟩ := exec_unnamedReduction
  obtain rfl : u = t := Host.Outcome.next.inj (hexec.symm.trans (h _ _ _ hrow))
  rw [hzero] at hone
  exact absurd hone (by decide)

end Sys2Proof.Proofs
end
end

