-- ==== Sys2Proof/Proofs/Submissions.lean ====
section
/-! Submissions: a record in a granule that two leases hold. -/

noncomputable section

namespace Sys2Proof.Proofs

open Sys2Proof.Machine Sys2Proof.Safety

/-- Core 0, alone with one E slot at issue, can reach its scratchpad by s6 and c1, and two leases hold the granule at 0x40: in the first its
record names a collective, in the second GNOP. -/
def twiceLeased : State :=
  { State.reset.setCore 0 { Core.reset with
      run := .running, s := [(6, 0x40)], c := [(1, Cap.make true (0xFFFE <<< 48) 4194304 0xFF 0 0)] } with
    cur := { core := 0, header := 0x40, w := 0, len := 9, bytes := 0, fetchFault := none, left := 1, outs := [] }
    leases := [{ die := 0, line := 1, start := 0, data := 0x0B }, { die := 0, line := 1, start := 0, data := 0 }] }

/-- The distance classes of the operations of the issuing core. -/
def opDistances (s : State) : List Nat := s.curCore.ops.map Op.dist

theorem twiceLeased_alone : Alone twiceLeased where
  last := rfl
  first := rfl
  header := by decide
  reserved := by decide
  extension := by decide
  line := by decide +kernel
  allotment := by decide +kernel
  fetched := rfl
  quiet := by decide +kernel
  unchecked := .inl (by decide +kernel)

theorem exec_twiceLeased : ∃ t, exec (.gsub 0 4 6 1 0) twiceLeased = .next t ∧ opDistances t = [4] := by
  refine ⟨_, rfl, ?_⟩
  decide +kernel

theorem rowEngine_twiceLeased : (rowEngine twiceLeased (.gsub 0 4 6 1 0)).any (fun a => decide (a.ready twiceLeased)) = true ∧
    (rowEngine twiceLeased (.gsub 0 4 6 1 0)).map (fun a => opDistances (a.done twiceLeased)) = some [3] := by decide +kernel

/-- Refutes O36: where two leases hold the granule of a record, GSUB reads its operation from the first and the table from the last. -/
theorem not_engineSlots : ¬ Obligations.EngineSlots := by
  rintro ⟨h, -⟩
  obtain ⟨hready, hthree⟩ := rowEngine_twiceLeased
  obtain ⟨a, hrow, hdist⟩ := Option.map_eq_some_iff.1 hthree
  rw [hrow, Option.any_some, decide_eq_true_eq] at hready
  obtain ⟨u, hexec, hfour⟩ := exec_twiceLeased
  obtain rfl : u = a.done twiceLeased := Host.Outcome.next.inj (hexec.symm.trans (h _ _ _ twiceLeased_alone hrow hready))
  rw [hdist] at hfour
  exact absurd hfour (by decide)

end Sys2Proof.Proofs
end
end

