-- ==== Sys2Proof/Proofs/Encodings.lean ====
section
/-! Encodings of records and of link instructions: what the fields of a word give back. -/

noncomputable section

namespace Sys2Proof.Proofs.Encodings

open Sys2Proof.Machine Sys2Proof.Safety

/-! ## Fields of a word -/

theorem bv_eq {n w lo : Nat} {x : BitVec n} (h : w / 2 ^ lo % 2 ^ n = x.toNat) : bv n w lo = x := by
  refine BitVec.eq_of_toNat_eq ?_
  rw [bv, BitVec.toNat_ofNat, Nat.shiftRight_eq_div_pow, h]

theorem field_eq {w hi lo k : Nat} (h : w / 2 ^ lo % 2 ^ (hi + 1 - lo) = k) : field w hi lo = k := by
  rw [field, Nat.shiftRight_eq_div_pow, h]

/-! ## Records (R354) -/

theorem recordBits_lt {opc : Nat} (h : opc < 256) (r : GtsRec) : recordBits opc r < 2 ^ 256 := by
  obtain ⟨lvl, flags, body⟩ := r
  have hlvl := lvl.isLt
  have hflags := flags.isLt
  have hbody := body.isLt
  unfold recordBits
  simp only [Nat.shiftLeft_eq]
  omega

theorem recordBits_mod {opc : Nat} (h : opc < 256) (r : GtsRec) : recordBits opc r % 256 = opc := by
  obtain ⟨lvl, flags, body⟩ := r
  unfold recordBits
  simp only [Nat.shiftLeft_eq]
  omega

theorem recordBits_fields {opc : Nat} (h : opc < 256) (r : GtsRec) :
    ({ lvl := bv 8 (recordBits opc r) 8, flags := bv 16 (recordBits opc r) 16, body := bv 224 (recordBits opc r) 32 } : GtsRec) = r := by
  obtain ⟨lvl, flags, body⟩ := r
  have hlvl := lvl.isLt
  have hflags := flags.isLt
  have hbody := body.isLt
  unfold recordBits
  simp only [Nat.shiftLeft_eq]
  rw [bv_eq (x := lvl) (by omega), bv_eq (x := flags) (by omega), bv_eq (x := body) (by omega)]

/-- The record of an operation code, where one has it (R358). -/
def recordOf (opc : Nat) (r : GtsRec) : Option Instr :=
  match opc with
  | 0x00 => some (.gnop r)
  | 0x01 => some (.gcopy r)
  | 0x02 => some (.gconv r)
  | 0x03 => some (.gfill r)
  | 0x04 => some (.gelt r)
  | 0x05 => some (.gelts r)
  | 0x06 => some (.gmma r)
  | 0x07 => some (.gmmaz r)
  | 0x08 => some (.gscan r)
  | 0x09 => some (.gred r)
  | 0x0A => some (.ggather r)
  | 0x0B => some (.gagather r)
  | 0x0C => some (.grscat r)
  | 0x0D => some (.gared r)
  | 0x0E => some (.ga2a r)
  | 0x0F => some (.gbprod r)
  | 0x10 => some (.gbdraw r)
  | 0x11 => some (.gcwait r)
  | _ => none

theorem decodeRecord_recordBits {opc : Nat} (h : opc < 256) (r : GtsRec) : decodeRecord (recordBits opc r) = recordOf opc r := by
  unfold decodeRecord
  dsimp only
  rw [recordBits_mod h, recordBits_fields h]
  rfl

/-- A record whose word is made of its operation code and its other fields comes back from that word. -/
theorem record_roundTrip {opc w : Nat} {r : GtsRec} {i : Instr} (hopc : opc < 256) (hi : recordOf opc r = some i)
    (h : some (256, recordBits opc r) = some (256, w)) : w < 2 ^ 256 ∧ decodeRecord w = some i := by
  obtain rfl : recordBits opc r = w := (Prod.mk.inj (Option.some.inj h)).2
  exact ⟨recordBits_lt hopc r, (decodeRecord_recordBits hopc r).trans hi⟩

/-- Settles O7, code by code: an operation's word gives back its code and the fields that carry the rest. -/
theorem recordsRoundTrip : Obligations.RecordsRoundTrip := by
  intro i w h _
  cases i
  case gnop r => exact record_roundTrip (opc := 0x00) (by decide) rfl h
  case gcopy r => exact record_roundTrip (opc := 0x01) (by decide) rfl h
  case gconv r => exact record_roundTrip (opc := 0x02) (by decide) rfl h
  case gfill r => exact record_roundTrip (opc := 0x03) (by decide) rfl h
  case gelt r => exact record_roundTrip (opc := 0x04) (by decide) rfl h
  case gelts r => exact record_roundTrip (opc := 0x05) (by decide) rfl h
  case gmma r => exact record_roundTrip (opc := 0x06) (by decide) rfl h
  case gmmaz r => exact record_roundTrip (opc := 0x07) (by decide) rfl h
  case gscan r => exact record_roundTrip (opc := 0x08) (by decide) rfl h
  case gred r => exact record_roundTrip (opc := 0x09) (by decide) rfl h
  case ggather r => exact record_roundTrip (opc := 0x0A) (by decide) rfl h
  case gagather r => exact record_roundTrip (opc := 0x0B) (by decide) rfl h
  case grscat r => exact record_roundTrip (opc := 0x0C) (by decide) rfl h
  case gared r => exact record_roundTrip (opc := 0x0D) (by decide) rfl h
  case ga2a r => exact record_roundTrip (opc := 0x0E) (by decide) rfl h
  case gbprod r => exact record_roundTrip (opc := 0x0F) (by decide) rfl h
  case gbdraw r => exact record_roundTrip (opc := 0x10) (by decide) rfl h
  case gcwait r => exact record_roundTrip (opc := 0x11) (by decide) rfl h
  all_goals exact nomatch h

/-! ## Masks of the fields that an instruction uses -/

theorem and_low {w k : Nat} (hw : w < 2 ^ k) (hk : k ≤ 128) : w % 2 ^ 128 &&& 2 ^ k - 1 = w % 2 ^ 128 := by
  rw [Nat.and_two_pow_sub_one_eq_mod, Nat.mod_eq_of_lt (hw.trans_le (Nat.pow_le_pow_right (by decide) hk)), Nat.mod_eq_of_lt hw]

/-- A number of a low run of `k` bits and a run of `m` bits from bit `n` on stays as it is under the mask of the two runs. -/
theorem and_two_runs {w k m n a b : Nat} (hw : w = 2 ^ n * b + a) (ha : a < 2 ^ k) (hb : b < 2 ^ m) (hk : k ≤ n) (hm : n + m ≤ 128) :
    w % 2 ^ 128 &&& 2 ^ n * (2 ^ m - 1) + (2 ^ k - 1) = w % 2 ^ 128 := by
  have han : a < 2 ^ n := ha.trans_le (Nat.pow_le_pow_right (by decide) hk)
  have hlow : 2 ^ k - 1 < 2 ^ n := (Nat.sub_lt (Nat.two_pow_pos k) one_pos).trans_le (Nat.pow_le_pow_right (by decide) hk)
  have hlt : w < 2 ^ 128 := by
    calc w < 2 ^ n * (b + 1) := by rw [hw, Nat.mul_succ]; omega
      _ ≤ 2 ^ n * 2 ^ m := Nat.mul_le_mul_left _ hb
      _ = 2 ^ (n + m) := (Nat.pow_add ..).symm
      _ ≤ 2 ^ 128 := Nat.pow_le_pow_right (by decide) hm
  rw [Nat.mod_eq_of_lt hlt, hw]
  refine Nat.eq_of_testBit_eq fun i => ?_
  rw [Nat.testBit_and, Nat.testBit_two_pow_mul_add _ han, Nat.testBit_two_pow_mul_add _ hlow]
  split
  · rw [Nat.testBit_two_pow_sub_one, ← Nat.mod_eq_of_lt ha, Nat.testBit_mod_two_pow]; cases decide (i < k) <;> simp
  · rw [Nat.testBit_two_pow_sub_one, ← Nat.mod_eq_of_lt hb, Nat.testBit_mod_two_pow]; cases decide (i - n < m) <;> simp

/-! ## Link instructions (R435) -/

section
variable {w opc code : Nat} {stamp : BitVec 32} {buf : BitVec 19} {n : BitVec 11} {pos : BitVec 5} {addr : BitVec 48}

/-- The fields of a word that names granules of a buffer, a number of flits and a position; `code` stands above them. -/
theorem transfer_fields (hopc : opc < 64)
    (hw : opc * 2 ^ 32 + code * 2 ^ 73 + stamp.toNat + buf.toNat <<< 38 + n.toNat <<< 57 + pos.toNat <<< 68 = w) :
    field w 37 32 = opc ∧ w / 2 ^ 73 = code ∧ bv 32 w 0 = stamp ∧ bv 19 w 38 = buf ∧ bv 11 w 57 = n ∧ bv 5 w 68 = pos := by
  have hstamp := stamp.isLt
  have hbuf := buf.isLt
  have hn := n.isLt
  have hpos := pos.isLt
  simp only [Nat.shiftLeft_eq] at hw
  exact ⟨field_eq (by omega), by omega, bv_eq (by omega), bv_eq (by omega), bv_eq (by omega), bv_eq (by omega)⟩

/-- The fields of a word that names granules of a buffer, their number and an address. -/
theorem move_fields (hopc : opc < 64) (hw : opc * 2 ^ 32 + stamp.toNat + buf.toNat <<< 86 + n.toNat <<< 105 + addr.toNat <<< 38 = w) :
    w < 2 ^ 116 ∧ field w 37 32 = opc ∧ bv 32 w 0 = stamp ∧ bv 19 w 86 = buf ∧ bv 11 w 105 = n ∧ bv 48 w 38 = addr := by
  have hstamp := stamp.isLt
  have hbuf := buf.isLt
  have hn := n.isLt
  have haddr := addr.isLt
  simp only [Nat.shiftLeft_eq] at hw
  exact ⟨by omega, field_eq (by omega), bv_eq (by omega), bv_eq (by omega), bv_eq (by omega), bv_eq (by omega)⟩

/-! What the decoder makes of a word, by its operation code. -/

theorem decodeLink_send (h : field w 37 32 = 0x01) (hcode : w / 2 ^ 73 = 0) :
    decodeLink w = .send (bv 32 w 0) (bv 19 w 38) (bv 11 w 57) (bv 5 w 68) := by
  unfold decodeLink
  rw [h]
  refine (if_pos (and_low (k := 74) (by omega) (by decide))).trans ?_
  rw [field_eq (k := 0) (by omega)]
  rfl

theorem decodeLink_sendSig (h : field w 37 32 = 0x01) (hcode : w / 2 ^ 73 = 1) :
    decodeLink w = .sendSig (bv 32 w 0) (bv 19 w 38) (bv 11 w 57) (bv 5 w 68) := by
  unfold decodeLink
  rw [h]
  refine (if_pos (and_low (k := 74) (by omega) (by decide))).trans ?_
  rw [field_eq (k := 1) (by omega)]
  rfl

theorem decodeLink_land (h : field w 37 32 = 0x02) (hcode : w / 2 ^ 73 = 0) :
    decodeLink w = .land (bv 32 w 0) (bv 19 w 38) (bv 11 w 57) (bv 5 w 68) := by
  unfold decodeLink
  rw [h]
  exact if_pos (and_low (k := 73) (by omega) (by decide))

theorem decodeLink_fwd {a b : Nat} (h : field w 37 32 = 0x03) (hw : w = 2 ^ 57 * b + a) (ha : a < 2 ^ 38) (hb : b < 2 ^ 20) :
    decodeLink w = .fwd (bv 32 w 0) (bv 11 w 57) (bv 5 w 68) (bv 4 w 73) := by
  unfold decodeLink
  rw [h]
  exact if_pos (and_two_runs hw ha hb (by decide) (by decide))

/-- The reduction that a code of RED names (R437). -/
def reductionOf (code : Nat) (stamp : BitVec 32) (buf : BitVec 19) (n : BitVec 11) (pos : BitVec 5) : Option Instr :=
  match code with
  | 0 => some (.redAddF32 stamp buf n pos)
  | 1 => some (.redAddBf16 stamp buf n pos)
  | 2 => some (.redAddI32 stamp buf n pos)
  | 3 => some (.redMaxF32 stamp buf n pos)
  | 4 => some (.redMaxBf16 stamp buf n pos)
  | 5 => some (.redMaxI32 stamp buf n pos)
  | _ => none

theorem decodeLink_red (h : field w 37 32 = 0x04) (hcode : w / 2 ^ 73 = code) (hlt : code < 6) :
    reductionOf code (bv 32 w 0) (bv 19 w 38) (bv 11 w 57) (bv 5 w 68) = some (decodeLink w) := by
  unfold decodeLink
  rw [h]
  refine Eq.trans ?_ (congrArg some (if_pos (and_low (k := 76) (by omega) (by decide))).symm)
  rw [field_eq (k := code) (by omega)]
  interval_cases code <;> rfl

theorem decodeLink_guard {a b : Nat} (h : field w 37 32 = 0x05) (hw : w = 2 ^ 68 * b + a) (ha : a < 2 ^ 57) (hb : b < 2 ^ 5) :
    decodeLink w = .guard (bv 32 w 0) (bv 19 w 38) (bv 5 w 68) := by
  unfold decodeLink
  rw [h]
  exact if_pos (and_two_runs hw ha hb (by decide) (by decide))

theorem decodeLink_linkLoop {b : Nat} (h : field w 37 32 = 0x06) (hw : w = 2 ^ 32 * b) (hb : b < 2 ^ 62) :
    decodeLink w = .linkLoop (bv 24 w 38) (bv 32 w 62) := by
  unfold decodeLink
  rw [h]
  exact if_pos (and_two_runs (k := 0) (a := 0) hw (by decide) hb (by decide) (by decide))

theorem decodeLink_mark (h : field w 37 32 = 0x08) (hw : w < 2 ^ 105) : decodeLink w = .mark (bv 32 w 0) (bv 19 w 86) (bv 48 w 38) := by
  unfold decodeLink
  rw [h]
  exact if_pos (and_low hw (by decide))

theorem decodeLink_ckpt (h : field w 37 32 = 0x09) (hw : w < 2 ^ 54) : decodeLink w = .ckpt (bv 32 w 0) (bv 16 w 38) := by
  unfold decodeLink
  rw [h]
  exact if_pos (and_low hw (by decide))

theorem decodeLink_fill (h : field w 37 32 = 0x0A) (hw : w < 2 ^ 116) :
    decodeLink w = .fill (bv 32 w 0) (bv 19 w 86) (bv 11 w 105) (bv 48 w 38) := by
  unfold decodeLink
  rw [h]
  exact if_pos (and_low hw (by decide))

theorem decodeLink_delv (h : field w 37 32 = 0x0B) (hw : w < 2 ^ 116) :
    decodeLink w = .delv (bv 32 w 0) (bv 19 w 86) (bv 11 w 105) (bv 48 w 38) := by
  unfold decodeLink
  rw [h]
  exact if_pos (and_low hw (by decide))

theorem decodeLink_slot (h : field w 37 32 = 0x0C) (hw : w < 2 ^ 123) :
    decodeLink w = .slot (bv 32 w 0) (bv 11 w 38) (bv 16 w 49) (bv 18 w 65) (bv 18 w 83) (bv 18 w 101) (bv 4 w 119) := by
  unfold decodeLink
  rw [h]
  exact if_pos (and_low hw (by decide))

theorem decodeLink_serve (h : field w 37 32 = 0x0D) (hw : w < 2 ^ 60) : decodeLink w = .serve (bv 32 w 0) (bv 18 w 38) (bv 4 w 56) := by
  unfold decodeLink
  rw [h]
  exact if_pos (and_low hw (by decide))

theorem decodeLink_halt (h : field w 37 32 = 0x0E) (hw : w < 2 ^ 38) : decodeLink w = .halt (bv 32 w 0) := by
  unfold decodeLink
  rw [h]
  exact if_pos (and_low hw (by decide))

/-! Each instruction comes back from its word. -/

/-- An instruction of a buffer, a number of flits and a position comes back from its word where the decoder finds it by its code. -/
theorem transfer_roundTrip {f : BitVec 32 → BitVec 19 → BitVec 11 → BitVec 5 → Instr} (hopc : opc < 64) (hcode : code < 8)
    (hw : opc * 2 ^ 32 + code * 2 ^ 73 + stamp.toNat + buf.toNat <<< 38 + n.toNat <<< 57 + pos.toNat <<< 68 = w)
    (hf : field w 37 32 = opc → w / 2 ^ 73 = code → decodeLink w = f (bv 32 w 0) (bv 19 w 38) (bv 11 w 57) (bv 5 w 68)) :
    w < 2 ^ 128 ∧ decodeLink w = f stamp buf n pos := by
  obtain ⟨hop, hc, hstamp, hbuf, hn, hpos⟩ := transfer_fields hopc hw
  refine ⟨by omega, ?_⟩
  rw [hf hop hc, hstamp, hbuf, hn, hpos]

theorem red_roundTrip {i : Instr} (hcode : code < 6)
    (hw : 4 * 2 ^ 32 + code * 2 ^ 73 + stamp.toNat + buf.toNat <<< 38 + n.toNat <<< 57 + pos.toNat <<< 68 = w)
    (hi : reductionOf code stamp buf n pos = some i) : w < 2 ^ 128 ∧ decodeLink w = i := by
  obtain ⟨hop, hc, hstamp, hbuf, hn, hpos⟩ := transfer_fields (by decide) hw
  have hdec := decodeLink_red hop hc hcode
  rw [hstamp, hbuf, hn, hpos, hi] at hdec
  exact ⟨by omega, (Option.some.inj hdec).symm⟩

theorem fwd_roundTrip {oq : BitVec 4} (hw : 0x300000000 + stamp.toNat + n.toNat <<< 57 + pos.toNat <<< 68 + oq.toNat <<< 73 = w) :
    w < 2 ^ 128 ∧ decodeLink w = .fwd stamp n pos oq := by
  have hstamp := stamp.isLt
  have hn := n.isLt
  have hpos := pos.isLt
  have hoq := oq.isLt
  simp only [Nat.shiftLeft_eq] at hw
  refine ⟨by omega, ?_⟩
  rw [decodeLink_fwd (a := 0x300000000 + stamp.toNat) (b := n.toNat + pos.toNat * 2 ^ 11 + oq.toNat * 2 ^ 16) (field_eq (by omega)) (by omega)
      (by omega) (by omega),
    bv_eq (x := stamp) (by omega), bv_eq (x := n) (by omega), bv_eq (x := pos) (by omega), bv_eq (x := oq) (by omega)]

theorem guard_roundTrip (hw : 0x500000000 + stamp.toNat + buf.toNat <<< 38 + pos.toNat <<< 68 = w) :
    w < 2 ^ 128 ∧ decodeLink w = .guard stamp buf pos := by
  have hstamp := stamp.isLt
  have hbuf := buf.isLt
  have hpos := pos.isLt
  simp only [Nat.shiftLeft_eq] at hw
  refine ⟨by omega, ?_⟩
  rw [decodeLink_guard (a := 0x500000000 + stamp.toNat + buf.toNat * 2 ^ 38) (b := pos.toNat) (field_eq (by omega)) (by omega) (by omega)
      (by omega),
    bv_eq (x := stamp) (by omega), bv_eq (x := buf) (by omega), bv_eq (x := pos) (by omega)]

theorem linkLoop_roundTrip {count : BitVec 24} {period : BitVec 32} (hw : 0x600000000 + count.toNat <<< 38 + period.toNat <<< 62 = w) :
    w < 2 ^ 128 ∧ decodeLink w = .linkLoop count period := by
  have hcount := count.isLt
  have hperiod := period.isLt
  simp only [Nat.shiftLeft_eq] at hw
  refine ⟨by omega, ?_⟩
  rw [decodeLink_linkLoop (b := 6 + count.toNat * 2 ^ 6 + period.toNat * 2 ^ 30) (field_eq (by omega)) (by omega) (by omega),
    bv_eq (x := count) (by omega), bv_eq (x := period) (by omega)]

theorem mark_roundTrip (hw : 0x800000000 + stamp.toNat + buf.toNat <<< 86 + addr.toNat <<< 38 = w) :
    w < 2 ^ 128 ∧ decodeLink w = .mark stamp buf addr := by
  have hstamp := stamp.isLt
  have hbuf := buf.isLt
  have haddr := addr.isLt
  simp only [Nat.shiftLeft_eq] at hw
  refine ⟨by omega, ?_⟩
  rw [decodeLink_mark (field_eq (by omega)) (by omega), bv_eq (x := stamp) (by omega), bv_eq (x := buf) (by omega),
    bv_eq (x := addr) (by omega)]

theorem ckpt_roundTrip {stage : BitVec 16} (hw : 0x900000000 + stamp.toNat + stage.toNat <<< 38 = w) :
    w < 2 ^ 128 ∧ decodeLink w = .ckpt stamp stage := by
  have hstamp := stamp.isLt
  have hstage := stage.isLt
  simp only [Nat.shiftLeft_eq] at hw
  refine ⟨by omega, ?_⟩
  rw [decodeLink_ckpt (field_eq (by omega)) (by omega), bv_eq (x := stamp) (by omega), bv_eq (x := stage) (by omega)]

theorem fill_roundTrip (hw : 0xA00000000 + stamp.toNat + buf.toNat <<< 86 + n.toNat <<< 105 + addr.toNat <<< 38 = w) :
    w < 2 ^ 128 ∧ decodeLink w = .fill stamp buf n addr := by
  obtain ⟨hlt, hop, hstamp, hbuf, hn, haddr⟩ := move_fields (opc := 0x0A) (by decide) hw
  refine ⟨by omega, ?_⟩
  rw [decodeLink_fill hop hlt, hstamp, hbuf, hn, haddr]

theorem delv_roundTrip (hw : 0xB00000000 + stamp.toNat + buf.toNat <<< 86 + n.toNat <<< 105 + addr.toNat <<< 38 = w) :
    w < 2 ^ 128 ∧ decodeLink w = .delv stamp buf n addr := by
  obtain ⟨hlt, hop, hstamp, hbuf, hn, haddr⟩ := move_fields (opc := 0x0B) (by decide) hw
  refine ⟨by omega, ?_⟩
  rw [decodeLink_delv hop hlt, hstamp, hbuf, hn, haddr]

theorem slot_roundTrip {core : BitVec 11} {chip : BitVec 16} {arr rdep rarr : BitVec 18} {rport : BitVec 4}
    (hw : 0xC00000000 + stamp.toNat + core.toNat <<< 38 + chip.toNat <<< 49 + arr.toNat <<< 65 + rdep.toNat <<< 83 + rarr.toNat <<< 101 +
      rport.toNat <<< 119 = w) : w < 2 ^ 128 ∧ decodeLink w = .slot stamp core chip arr rdep rarr rport := by
  have hstamp := stamp.isLt
  have hcore := core.isLt
  have hchip := chip.isLt
  have harr := arr.isLt
  have hrdep := rdep.isLt
  have hrarr := rarr.isLt
  have hrport := rport.isLt
  simp only [Nat.shiftLeft_eq] at hw
  refine ⟨by omega, ?_⟩
  rw [decodeLink_slot (field_eq (by omega)) (by omega), bv_eq (x := stamp) (by omega), bv_eq (x := core) (by omega),
    bv_eq (x := chip) (by omega), bv_eq (x := arr) (by omega), bv_eq (x := rdep) (by omega), bv_eq (x := rarr) (by omega),
    bv_eq (x := rport) (by omega)]

theorem serve_roundTrip {rdep : BitVec 18} {rport : BitVec 4} (hw : 0xD00000000 + stamp.toNat + rdep.toNat <<< 38 + rport.toNat <<< 56 = w) :
    w < 2 ^ 128 ∧ decodeLink w = .serve stamp rdep rport := by
  have hstamp := stamp.isLt
  have hrdep := rdep.isLt
  have hrport := rport.isLt
  simp only [Nat.shiftLeft_eq] at hw
  refine ⟨by omega, ?_⟩
  rw [decodeLink_serve (field_eq (by omega)) (by omega), bv_eq (x := stamp) (by omega), bv_eq (x := rdep) (by omega),
    bv_eq (x := rport) (by omega)]

theorem halt_roundTrip (hw : 0xE00000000 + stamp.toNat = w) : w < 2 ^ 128 ∧ decodeLink w = .halt stamp := by
  have hstamp := stamp.isLt
  refine ⟨by omega, ?_⟩
  rw [decodeLink_halt (field_eq (by omega)) (by omega), bv_eq (x := stamp) (by omega)]

end

/-- The word of an encoding of a size that is known. -/
theorem word_eq {n a w : Nat} (h : some (n, a) = some (n, w)) : a = w := (Prod.mk.inj (Option.some.inj h)).2

/-- Settles O6, instruction by instruction: the decoder finds each by its operation code, no bit stands outside its fields, and each field
comes back. -/
theorem linkInstructionsRoundTrip : Obligations.LinkInstructionsRoundTrip := by
  intro i w h hwf
  cases i
  case send => exact transfer_roundTrip (opc := 1) (code := 0) (by decide) (by decide) (word_eq h) decodeLink_send
  case sendSig => exact transfer_roundTrip (opc := 1) (code := 1) (by decide) (by decide) (by have := word_eq h; omega) decodeLink_sendSig
  case land => exact transfer_roundTrip (opc := 2) (code := 0) (by decide) (by decide) (word_eq h) decodeLink_land
  case fwd => exact fwd_roundTrip (word_eq h)
  case redAddF32 => exact red_roundTrip (code := 0) (by decide) (word_eq h) rfl
  case redAddBf16 => exact red_roundTrip (code := 1) (by decide) (word_eq h) rfl
  case redAddI32 => exact red_roundTrip (code := 2) (by decide) (word_eq h) rfl
  case redMaxF32 => exact red_roundTrip (code := 3) (by decide) (word_eq h) rfl
  case redMaxBf16 => exact red_roundTrip (code := 4) (by decide) (word_eq h) rfl
  case redMaxI32 => exact red_roundTrip (code := 5) (by decide) (word_eq h) rfl
  case guard => exact guard_roundTrip (word_eq h)
  case linkLoop => exact linkLoop_roundTrip (word_eq h)
  case endl => exact (word_eq h) ▸ ⟨by decide, by decide⟩
  case mark => exact mark_roundTrip (word_eq h)
  case ckpt => exact ckpt_roundTrip (word_eq h)
  case fill => exact fill_roundTrip (word_eq h)
  case delv => exact delv_roundTrip (word_eq h)
  case slot => exact slot_roundTrip (word_eq h)
  case serve => exact serve_roundTrip (word_eq h)
  case halt => exact halt_roundTrip (word_eq h)
  case reservedOpc v => exact (word_eq h) ▸ ⟨v.isLt, of_decide_eq_true hwf⟩
  all_goals exact nomatch h

end Sys2Proof.Proofs.Encodings
end
end

