-- ==== Sys2Proof/Proofs/Bytes.lean ====
section
/-! Bytes and pieces of numbers as sums over their places. -/

noncomputable section

namespace Sys2Proof.Proofs.Bytes

open Sys2Proof.Machine Sys2Proof.Safety

theorem sum_map_range_succ (f : Nat → Nat) (n : Nat) :
    ((List.range (n + 1)).map f).sum = f 0 + ((List.range n).map (fun i => f (i + 1))).sum := by
  rw [List.range_succ_eq_map, List.map_cons, List.sum_cons, List.map_map]
  rfl

theorem readNat_eq_sum (m : List Host.Cell) (a n : Nat) :
    readNat m a n = ((List.range n).map (fun i => (readByte m (a + i)).toNat * 2 ^ (8 * i))).sum := by
  induction n generalizing a with
  | zero => rfl
  | succ n ih =>
    rw [readNat, ih, sum_map_range_succ, Nat.shiftLeft_eq, ← List.sum_map_mul_right]
    refine congrArg₂ (· + ·) (by simp) (congrArg List.sum (List.map_congr_left fun i _ => ?_))
    rw [Nat.mul_assoc, ← Nat.pow_add, Nat.add_assoc, Nat.add_comm 1 i, Nat.mul_succ]

theorem numberAt_eq_readNat (s : State) (a n : Nat) : numberAt s a n = readNat s.mem a n := (readNat_eq_sum ..).symm

theorem bytesOf_eq_bytesAt (a v n : Nat) : bytesOf a v n = bytesAt a n v := by
  induction n generalizing a v with
  | zero => rfl
  | succ n ih =>
    rw [bytesOf, ih, bytesAt, bytesAt, List.range_succ_eq_map, List.map_cons, List.map_map]
    refine congrArg₂ List.cons (by simp) (List.map_congr_left fun i _ => ?_)
    rw [Function.comp_apply, Nat.shiftRight_eq_div_pow, Nat.div_div_eq_div_mul, ← Nat.pow_add, Nat.add_assoc, Nat.add_comm 1 i,
      Nat.add_comm 8, Nat.succ_eq_add_one, Nat.mul_add]

theorem joinPieces_map_range (w n : Nat) (f : Nat → Nat) :
    joinPieces w ((List.range n).map f) = ((List.range n).map (fun i => f i % 2 ^ w * 2 ^ (w * i))).sum := by
  induction n generalizing f with
  | zero => rfl
  | succ n ih =>
    rw [sum_map_range_succ, List.range_succ_eq_map, List.map_cons, List.map_map, joinPieces, ih, Nat.shiftLeft_eq,
      ← List.sum_map_mul_right]
    refine congrArg₂ (· + ·) (by simp) (congrArg List.sum (List.map_congr_left fun i _ => ?_))
    rw [Nat.mul_assoc, ← Nat.pow_add, Nat.mul_succ]
    rfl

theorem splitPieces_eq_map_range (w n v : Nat) : splitPieces w n v = (List.range n).map (fun i => v / 2 ^ (w * i) % 2 ^ w) := by
  induction n generalizing v with
  | zero => rfl
  | succ n ih =>
    rw [splitPieces, ih, List.range_succ_eq_map, List.map_cons, List.map_map]
    refine congrArg₂ List.cons (by simp) (List.map_congr_left fun i _ => ?_)
    rw [Function.comp_apply, Nat.shiftRight_eq_div_pow, Nat.div_div_eq_div_mul, ← Nat.pow_add, Nat.mul_succ, Nat.add_comm w]

end Sys2Proof.Proofs.Bytes
end
end

