-- ==== Sys2Proof/Proofs/Fabric.lean ====
section
/-! Messages, notices, ports and engines: the model's functions are what the tables of links and packages write. -/

noncomputable section

namespace Sys2Proof.Proofs.Fabric

open Sys2Proof.Machine Sys2Proof.Safety

/-! ## Lists -/

theorem dropFirst_eq_erase {α : Type} [DecidableEq α] (a : α) (l : List α) : dropFirst (fun x => decide (x = a)) l = l.erase a := by
  induction l with
  | nil => rfl
  | cons x xs ih =>
    by_cases hx : x = a
    · rw [dropFirst, List.erase_cons, if_pos (decide_eq_true hx), if_pos (beq_iff_eq.2 hx)]
    · rw [dropFirst, List.erase_cons, if_neg (by simpa using hx), if_neg (by simpa using hx), ih]

theorem find?_eq_head?_filter {α : Type} (q : α → Bool) (l : List α) : l.find? q = (l.filter q).head? := List.head?_filter.symm

/-- Adding to a list, one element after another, adds them all. -/
theorem foldl_append_singleton {α β : Type} (f : β → α) (l : List β) (xs : List α) :
    l.foldl (fun acc b => acc ++ [f b]) xs = xs ++ l.map f := by
  induction l generalizing xs with
  | nil => exact (List.append_nil xs).symm
  | cons b l ih => rw [List.foldl_cons, ih, List.append_assoc, List.singleton_append, List.map_cons]

/-! ## Messages (R421, R431) -/

theorem makeMsg_eq_messageOf (kind arg origin longArg ply : Nat) : makeMsg kind arg origin longArg ply = messageOf kind arg origin longArg ply := by
  simp only [makeMsg, messageOf, Nat.shiftLeft_eq]
  rfl

theorem foldl_queueMsg (src ready : Nat) (down : Bool) (bits : BitVec 128) (l : List Nat) (s : State) :
    l.foldl (fun s p => queueMsg s p src ready down bits) s =
      { s with outMsgs := s.outMsgs ++ l.map (fun p => waiting p src ready down bits) } := by
  induction l generalizing s with
  | nil => simp
  | cons p l ih =>
    rw [List.foldl_cons, ih, List.map_cons]
    simp only [queueMsg, waiting, List.append_assoc, List.singleton_append]

theorem sendDown_eq_sentDown (s : State) (chip ready : Nat) (bits : BitVec 128) : sendDown s chip ready bits = sentDown s chip ready bits := by
  unfold sendDown sentDown
  simp only [foldl_queueMsg]
  by_cases hroot : chip = s.root
  · simp only [if_pos hroot]
    rfl
  · simp only [if_neg hroot]
    rfl

theorem sendUp_eq_sentUp (s : State) (chip src ready : Nat) (bits : BitVec 128) : sendUp s chip src ready bits = sentUp s chip src ready bits := by
  unfold sendUp sentUp
  rw [find?_eq_head?_filter]
  change _ = { s with outMsgs := s.outMsgs ++ (((portsOf s chip).filter (fun p => (s.port p).role = 2)).take 1).map _ }
  rcases (portsOf s chip).filter (fun p => (s.port p).role = 2) with _ | ⟨p, l⟩
  · simp
  · simp [queueMsg, waiting]

theorem tellRoot_eq_told (s : State) (chip ply : Nat) (bits : BitVec 128) : tellRoot s chip ply bits = told s chip ply bits := by
  unfold tellRoot told
  rw [sendUp_eq_sentUp]
  rfl

theorem sendNotice_eq_told (s : State) (p ev t : Nat) :
    sendNotice s p ev t =
      told s (p / 12) (t + 1) (messageOf 4 ev (p / 12) ((s.chip (p / 12)).tag.toNat * 2 ^ 16 + p % 12 * 2 ^ 12) t) := by
  rw [← tellRoot_eq_told, ← makeMsg_eq_messageOf, ← Nat.shiftLeft_eq, ← Nat.shiftLeft_eq]
  rfl

/-! ## Engines that stop and ports that fail (R424, R446) -/

theorem stopEngine_eq_stilled (s : State) (p : Nat) (run : BitVec 2) : stopEngine s p run = stilled s p run := by
  have hclaims : (fun c : Claim => c.port != p || c.issued) = fun c => decide (c.port ≠ p ∨ c.issued = true) := by
    funext c; rw [Bool.eq_iff_iff]; simp
  have hsends : (fun r : SendRun => r.port != p || r.issued) = fun r => decide (r.port ≠ p ∨ r.issued = true) := by
    funext r; rw [Bool.eq_iff_iff]; simp
  have hslots : (fun x : ReqSlot => x.port != p) = fun x => decide (x.port ≠ p) := by
    funext x; rw [Bool.eq_iff_iff]; simp
  unfold stopEngine dropPlanned stilled
  rw [hclaims, hsends, hslots]
  rfl

theorem detectionWord_eq (p ply : Nat) :
    detectionWord p ply = BitVec.ofNat 64 (ply % 2 ^ 40 + p / 12 * 2 ^ 40 + p % 12 * 2 ^ 56) := by
  simp only [detectionWord, Nat.shiftLeft_eq]

theorem failPort_eq_failing (s : State) (p sub : Nat) (locked : Bool) : failPort s p sub locked = failing s p sub locked := by
  have hflits : (fun f : Flit => f.port != p) = fun f => decide (f.port ≠ p) := by
    funext f; rw [Bool.eq_iff_iff]; simp
  unfold failPort failing
  simp only [sendNotice_eq_told, detectionWord_eq, hflits, Bool.or_eq_true, decide_eq_true_eq]
  rfl

theorem engineFault_eq_engineStops (s : State) (p sub : Nat) : engineFault s p sub = engineStops s p sub := by
  unfold engineFault engineStops
  rw [failPort_eq_failing, stopEngine_eq_stilled]
  rfl

/-! ## What these leave of memory -/

@[simp] theorem told_mem (s : State) (chip ply : Nat) (bits : BitVec 128) : (told s chip ply bits).mem = s.mem := by
  unfold told
  split <;> rfl

@[simp] theorem sentDown_mem (s : State) (chip ready : Nat) (bits : BitVec 128) : (sentDown s chip ready bits).mem = s.mem := by
  unfold sentDown
  split <;> rfl

@[simp] theorem failing_mem (s : State) (p sub : Nat) (locked : Bool) : (failing s p sub locked).mem = s.mem := by
  unfold failing
  split
  · rfl
  · exact told_mem ..

@[simp] theorem engineStops_mem (s : State) (p sub : Nat) : (engineStops s p sub).mem = s.mem := failing_mem ..

end Sys2Proof.Proofs.Fabric
end
end

