-- ==== Sys2Proof/Proofs/LinkPrograms.lean ====
section
/-! Link programs: the instruction that an engine issues, its fault, and its step. -/

noncomputable section

namespace Sys2Proof.Proofs.LinkPrograms

open Sys2Proof.Machine Sys2Proof.Safety Sys2Proof.Proofs.Fabric Sys2Proof.Proofs.Accesses

section
variable {s : State} {i : Instr} {p : Nat} {x : LinkEntry} {sub : Nat} {f : State → Nat → LinkEntry → Except Nat State}

/-! ## The instruction that issues -/

theorem instr_of_issuingPort (h : issuingPort s i = some (p, x)) : x.instr = i := by
  obtain ⟨e, -, he⟩ := List.exists_of_findSome?_eq_some h
  obtain ⟨y, -, hy⟩ := Option.bind_eq_some_iff.1 he
  split at hy
  · next hyi =>
    obtain ⟨-, rfl⟩ := Prod.mk.inj (Option.some.inj hy)
    exact hyi
  · exact nomatch hy

/-- An instruction that may not issue stops its engine (R446). -/
theorem linkStep_of_ill (h : issuingPort s i = some (p, x)) (hill : illSubcode s p x i = some sub) :
    linkStep s i f = .next (engineStops s p sub) := by
  have hinstr := instr_of_issuingPort h
  unfold illSubcode at hill
  have hissue : issueEntry s p x f = engineStops s p sub := by
    unfold issueEntry
    split at hill
    · next hbroken =>
      obtain rfl := Option.some.inj hill
      simp only [if_pos hbroken, engineFault_eq_engineStops]
    · next hbroken => simp only [if_neg hbroken, hinstr, hill, engineFault_eq_engineStops]
  unfold linkStep
  rw [h]
  change finishSame s (issueEntry s p x f) = _
  rw [hissue]
  exact finishSame_of_mem (engineStops_mem ..)

/-- Every instruction of a link program is a step at the first port that issues it. -/
theorem exec_eq_linkStep (h : isLink i = true) (s : State) : ∃ f, exec i s = linkStep s i f := by
  cases i
  case send => exact ⟨_, rfl⟩
  case sendSig => exact ⟨_, rfl⟩
  case land => exact ⟨_, rfl⟩
  case fwd => exact ⟨_, rfl⟩
  case redAddF32 => exact ⟨_, rfl⟩
  case redAddBf16 => exact ⟨_, rfl⟩
  case redAddI32 => exact ⟨_, rfl⟩
  case redMaxF32 => exact ⟨_, rfl⟩
  case redMaxBf16 => exact ⟨_, rfl⟩
  case redMaxI32 => exact ⟨_, rfl⟩
  case guard => exact ⟨_, rfl⟩
  case linkLoop => exact ⟨_, rfl⟩
  case endl => exact ⟨_, rfl⟩
  case mark => exact ⟨_, rfl⟩
  case ckpt => exact ⟨_, rfl⟩
  case fill => exact ⟨_, rfl⟩
  case delv => exact ⟨_, rfl⟩
  case slot => exact ⟨_, rfl⟩
  case serve => exact ⟨_, rfl⟩
  case halt => exact ⟨_, rfl⟩
  case reservedOpc => exact ⟨_, rfl⟩
  all_goals exact nomatch h

end

/-- Settles O50: a step that finds its instruction out of order or outside its limits stops the engine with the subcode. -/
theorem linkEngineFaults : Obligations.LinkEngineFaults := by
  intro s i p x sub hport hlink hill
  obtain ⟨f, hf⟩ := exec_eq_linkStep hlink s
  rw [hf]
  exact linkStep_of_ill hport hill

end Sys2Proof.Proofs.LinkPrograms
end
end

