-- ==== Sys2Proof/Proofs/LinkSteps.lean ====
section
/-! Link instructions: what each leaves when it issues within its limits. -/

noncomputable section

namespace Sys2Proof.Proofs.LinkPrograms

open Sys2Proof.Machine Sys2Proof.Safety Sys2Proof.Proofs.Fabric Sys2Proof.Proofs.Accesses Sys2Proof.Proofs.Bytes

section
variable {s t : State} {i : Instr} {p : Nat} {x : LinkEntry} {sub : Nat} {f : State → Nat → LinkEntry → Except Nat State}

/-! ## A step whose instruction keeps its limits -/

theorem linkStep_of_issuing (h : issuing s i = some (p, x)) :
    linkStep s i f = finishSame s (match f (movedOn s p x) p x with | .ok t => t | .error sub => engineStops s p sub) := by
  unfold issuing at h
  split at h
  · next q y hport =>
    split at h
    · next hfine =>
      obtain ⟨rfl, rfl⟩ := Prod.mk.inj (Option.some.inj h)
      have hinstr := instr_of_issuingPort hport
      unfold linkStep
      rw [hport]
      change finishSame s (issueEntry s q y f) = _
      unfold issueEntry
      simp only [hfine.1, hinstr, hfine.2, engineFault_eq_engineStops]
      rfl
    · exact nomatch h
  · exact nomatch h

theorem linkStep_ok (h : issuing s i = some (p, x)) (hf : f (movedOn s p x) p x = .ok t) (hmem : t.mem = s.mem) :
    linkStep s i f = .next t := by
  rw [linkStep_of_issuing h, hf]
  exact finishSame_of_mem hmem

theorem linkStep_error (h : issuing s i = some (p, x)) (hf : f (movedOn s p x) p x = .error sub) :
    linkStep s i f = .next (engineStops s p sub) := by
  rw [linkStep_of_issuing h, hf]
  exact finishSame_of_mem (engineStops_mem ..)

theorem instr_of_issuing (h : issuing s i = some (p, x)) : x.instr = i := by
  unfold issuing at h
  split at h
  · next q y hport =>
    split at h
    · obtain ⟨rfl, rfl⟩ := Prod.mk.inj (Option.some.inj h)
      exact instr_of_issuingPort hport
    · exact nomatch h
  · exact nomatch h

@[simp] theorem engine_movedOn (s : State) (p : Nat) (x : LinkEntry) :
    (movedOn s p x).engine p = { s.engine p with ahead := (s.engine p).ahead.drop 1, at0 := x.next, lpc := BitVec.ofNat 14 x.next.index } := by
  rw [movedOn, onEngine, onPort, State.engine, State.port_setPort_same]
  rfl

/-! ## Loops (R441) -/

theorem placeAfter_linkLoop (c : LinkPlace) (count : BitVec 24) (period : BitVec 32) :
    (placeAfter c (.linkLoop count period)).isNone = decide (4 ≤ c.loops.length) := by
  unfold placeAfter
  by_cases h : 4 ≤ c.loops.length <;> simp [h]

theorem placeAfter_endl (c : LinkPlace) : (placeAfter c .endl).isNone = decide (c.loops = []) := by
  unfold placeAfter
  cases hl : c.loops with
  | nil => simp
  | cons e es => simp only [reduceCtorEq, decide_false]; split <;> rfl

/-! ## Moves between a die and the chunk buffer (R439) -/

theorem moveGranules_succ (s : State) (p order op n lag : Nat) (src : Nat → Nat) (dest : Nat → Dest) :
    moveGranules s p order op (n + 1) lag src dest =
      orderedAccess (moveGranules s p order op n lag src dest) (p / 12) (linkRank p) order
        ((moveGranules s p order op n lag src dest).now + n / 4 + lag) op false (src n) 64 0 (dest n) := by
  simp only [moveGranules, Lanes.rangeFrom_zero, List.range_succ, List.foldl_append, List.foldl_cons, List.foldl_nil]

theorem moveGranules_eq (s : State) (p order op n lag : Nat) (src : Nat → Nat) (dest : Nat → Dest) :
    moveGranules s p order op n lag src dest = { s with accs := s.accs ++ moves s p order op n lag src dest, nextId := s.nextId + n } := by
  induction n with
  | zero => simp [moveGranules, moves, Lanes.rangeFrom_zero]
  | succ n ih =>
    rw [moveGranules_succ, ih, orderedAccess]
    simp only [moves, List.range_succ, List.map_append, List.map_cons, List.map_nil, List.append_assoc]
    rfl

/-! ## The rows, one by one -/

theorem issuing_of_rowLink (h : rowLink s i = some t) : ∃ p x, issuing s i = some (p, x) := by
  unfold rowLink at h
  split at h
  · exact nomatch h
  · next p x hiss => exact ⟨p, x, hiss⟩

theorem linkLoop_row {count : BitVec 24} {period : BitVec 32} (hiss : issuing s (.linkLoop count period) = some (p, x)) :
    exec (.linkLoop count period) s =
      .next (if (s.engine p).at0.loops.length < 4 then movedOn s p x else engineStops s p 0x15) := by
  have hturn (t : State) : turnLoop s t p x = if 4 ≤ (s.engine p).at0.loops.length then .error 0x15 else .ok t := by
    simp only [turnLoop, instr_of_issuing hiss, placeAfter_linkLoop, decide_eq_true_eq]
  split
  · next hroom => exact linkStep_ok hiss (by rw [hturn, if_neg (Nat.not_le.2 hroom)]) rfl
  · next hfull => exact linkStep_error hiss (by rw [hturn, if_pos (Nat.not_lt.1 hfull)])

theorem endl_row (hiss : issuing s .endl = some (p, x)) :
    exec .endl s = .next (if (s.engine p).at0.loops ≠ [] then movedOn s p x else engineStops s p 0x15) := by
  have hturn (t : State) : turnLoop s t p x = if (s.engine p).at0.loops = [] then .error 0x15 else .ok t := by
    simp only [turnLoop, instr_of_issuing hiss, placeAfter_endl, decide_eq_true_eq]
  split
  · next hloop => exact linkStep_ok hiss (by rw [hturn, if_neg hloop]) rfl
  · next hnone => exact linkStep_error hiss (by rw [hturn, if_pos (not_ne_iff.1 hnone)])

theorem fill_row {stamp : BitVec 32} {buf : BitVec 19} {n : BitVec 11} {addr : BitVec 48}
    (hiss : issuing s (.fill stamp buf n addr) = some (p, x)) (h : rowLink s (.fill stamp buf n addr) = some t) :
    exec (.fill stamp buf n addr) s = .next t := by
  unfold rowLink at h
  rw [hiss] at h
  dsimp only at h
  split at h
  · next home hrange =>
    obtain rfl := Option.some.inj h
    refine linkStep_ok hiss (?_ : fillStep (movedOn s p x) p x buf n addr = _) rfl
    change (match dieRange s p addr (64 * (n.toNat + 1)) 64 [0, 2, 3, 4, 7] with | some h => _ | none => _) = _
    rw [hrange]
    exact congrArg Except.ok (moveGranules_eq ..)
  · next hrange =>
    obtain rfl := Option.some.inj h
    refine linkStep_error hiss (?_ : fillStep (movedOn s p x) p x buf n addr = _)
    change (match dieRange s p addr (64 * (n.toNat + 1)) 64 [0, 2, 3, 4, 7] with | some h => _ | none => _) = _
    rw [hrange]

theorem delvStep_error {s : State} {buf : BitVec 19} {n : BitVec 11} {addr : BitVec 48}
    (h : dieRange s p addr (64 * (n.toNat + 1)) 64 dieWindows = none ∨ s.now < (s.engine p).guardEnd) :
    delvStep s p x buf n addr = .error 0x14 := by
  unfold delvStep
  rcases h with h | h
  · rw [h]
  · cases dieRange s p addr (64 * (n.toNat + 1)) 64 dieWindows
    · rfl
    · exact if_pos h

theorem delv_row {stamp : BitVec 32} {buf : BitVec 19} {n : BitVec 11} {addr : BitVec 48}
    (hiss : issuing s (.delv stamp buf n addr) = some (p, x)) (h : rowLink s (.delv stamp buf n addr) = some t) :
    exec (.delv stamp buf n addr) s = .next t := by
  have hguard : ((movedOn s p x).engine p).guardEnd = (s.engine p).guardEnd := by rw [engine_movedOn]
  unfold rowLink at h
  rw [hiss] at h
  dsimp only at h
  split at h
  · next home hrange =>
    split at h
    · next hafter =>
      obtain rfl := Option.some.inj h
      refine linkStep_ok hiss (?_ : delvStep (movedOn s p x) p x buf n addr = _) rfl
      change (match dieRange s p addr (64 * (n.toNat + 1)) 64 [0, 2, 3, 4, 7] with
        | some h => if s.now < ((movedOn s p x).engine p).guardEnd then _ else _ | none => _) = _
      rw [hrange]
      refine (if_neg (by rw [hguard]; exact Nat.not_lt.2 hafter)).trans (congrArg Except.ok ?_)
      exact moveGranules_eq ..
    · next hbefore =>
      obtain rfl := Option.some.inj h
      exact linkStep_error hiss (delvStep_error (.inr (by rw [hguard]; exact Nat.not_le.1 hbefore)))
  · next hrange =>
    obtain rfl := Option.some.inj h
    exact linkStep_error hiss (delvStep_error (.inl hrange))

theorem markStep_error {s : State} {buf : BitVec 19} {addr : BitVec 48}
    (h : dieRange s p addr 8 8 [0, 7] = none ∨ s.now < (s.engine p).guardEnd) : markStep s p buf addr = .error 0x14 := by
  unfold markStep
  rcases h with h | h
  · rw [h]
  · cases dieRange s p addr 8 8 [0, 7]
    · rfl
    · exact if_pos h

theorem mark_row {stamp : BitVec 32} {buf : BitVec 19} {addr : BitVec 48} (hiss : issuing s (.mark stamp buf addr) = some (p, x))
    (h : rowLink s (.mark stamp buf addr) = some t) : exec (.mark stamp buf addr) s = .next t := by
  have hguard : ((movedOn s p x).engine p).guardEnd = (s.engine p).guardEnd := by rw [engine_movedOn]
  have hdelvs : ((movedOn s p x).engine p).delvs = (s.engine p).delvs := by rw [engine_movedOn]
  unfold rowLink at h
  rw [hiss] at h
  dsimp only at h
  split at h
  · next home hrange =>
    split at h
    · next hafter =>
      obtain rfl := Option.some.inj h
      refine linkStep_ok hiss (?_ : markStep (movedOn s p x) p buf addr = _) rfl
      change (match dieRange s p addr 8 8 [0, 7] with
        | some h => if s.now < ((movedOn s p x).engine p).guardEnd then _ else _ | none => _) = _
      rw [hrange]
      refine (if_neg (by rw [hguard]; exact Nat.not_lt.2 hafter)).trans (congrArg Except.ok ?_)
      rw [hdelvs, numberAt_eq_readNat]
      rfl
    · next hbefore =>
      obtain rfl := Option.some.inj h
      exact linkStep_error hiss (markStep_error (.inr (by rw [hguard]; exact Nat.not_le.1 hbefore)))
  · next hrange =>
    obtain rfl := Option.some.inj h
    exact linkStep_error hiss (markStep_error (.inl hrange))

theorem checkpoint_eq_checkpointed (s : State) (stage : BitVec 16) (c : Chip) : c.checkpoint stage s.now = checkpointed s stage c := by
  unfold Chip.checkpoint checkpointed
  by_cases hstage : stage = c.curStage
  · rw [if_pos hstage, if_pos hstage.symm]
  · rw [if_neg hstage, if_neg (Ne.symm hstage)]

theorem ckpt_row {stamp : BitVec 32} {stage : BitVec 16} (hiss : issuing s (.ckpt stamp stage) = some (p, x))
    (h : rowLink s (.ckpt stamp stage) = some t) : exec (.ckpt stamp stage) s = .next t := by
  have hpoints : (fun y : Nat × Nat × LinkPlace => y.1 != stage.toNat) = fun y => decide (y.1 ≠ stage.toNat) := by
    funext y; rw [Bool.eq_iff_iff]; simp
  unfold rowLink at h
  rw [hiss] at h
  obtain rfl := Option.some.inj h
  refine linkStep_ok hiss (congrArg Except.ok (?_ : ckptStep (movedOn s p x) p x stage = _)) rfl
  unfold ckptStep
  rw [hpoints, checkpoint_eq_checkpointed]
  rfl

/-! ## Request slots (R443, R444) -/

/-- Flits that depart at one ply, with a tag that departures leave alone, join those that are to depart. -/
theorem foldl_addOut {β : Type} (port lag kind hops : Nat) {atag : State → BitVec 16} (token : Option Nat) (pos pay : β → Nat)
    (hatag : ∀ (s : State) o, atag { s with outs := o } = atag s) (l : List β) (s : State) :
    l.foldl (fun s y => addOut s port (s.now + lag) (pos y) kind hops (atag s) (pay y) token) s =
      { s with outs := s.outs ++ l.map (fun y =>
          { port := port, ply := s.now + lag, pos := pos y, kind := kind, hops := hops, atag := atag s, pay := BitVec.ofNat 512 (pay y),
            token := token }) } := by
  induction l generalizing s with
  | nil => simp
  | cons y l ih =>
    rw [List.foldl_cons, ih, List.map_cons]
    simp only [addOut, List.append_assoc, List.singleton_append, hatag]

theorem rangeFrom_eq_map (a n : Nat) : rangeFrom a n = (List.range n).map (fun j => a + j) := by
  rw [Lanes.rangeFrom_eq_range', List.range'_eq_map_range]

theorem port_w_movedOn (s : State) (p q : Nat) (x : LinkEntry) : ((movedOn s p x).port q).w = (s.port q).w := by
  rw [movedOn, onEngine, onPort]
  by_cases hq : q = p
  · rw [hq, State.port_setPort_same]
  · rw [State.port_setPort_other _ _ hq]

theorem departsInGuard_movedOn (s : State) (p q ply : Nat) (x : LinkEntry) :
    departsInGuard (movedOn s p x) q ply = departsInGuard s q ply := by
  rw [departsInGuard, departsInGuard, port_w_movedOn]

theorem slot_row {stamp : BitVec 32} {core : BitVec 11} {chip : BitVec 16} {arr rdep rarr : BitVec 18} {rport : BitVec 4}
    (hiss : issuing s (.slot stamp core chip arr rdep rarr rport) = some (p, x))
    (h : rowLink s (.slot stamp core chip arr rdep rarr rport) = some t) :
    exec (.slot stamp core chip arr rdep rarr rport) s = .next t := by
  unfold rowLink at h
  rw [hiss] at h
  dsimp only at h
  split at h
  · next y hslot =>
    have hfind : (movedOn s p x).slots.find? (fun y => y.port = p && y.dep ≤ (movedOn s p x).now) = some y := hslot
    split at h
    · next hdeparts =>
      have hclear : departsInGuard (movedOn s p x) p (movedOn s p x).now = false := (departsInGuard_movedOn ..).trans hdeparts
      split at h
      · next r hreq =>
        obtain rfl := Option.some.inj h
        have hreq' : slotRequest (movedOn s p x) y = some r := hreq
        refine linkStep_ok hiss (?_ : slotStep (movedOn s p x) p = _) rfl
        unfold slotStep
        simp only [hfind, hclear, hreq', Bool.false_eq_true, if_false, dropFirst_eq_erase]
        exact congrArg Except.ok (foldl_addOut p 0 2 0 _ (fun z : Nat × Nat => 27 + z.1) Prod.snd (atag := fun _ => _) (fun _ _ => rfl) _ _)
      · next hreq =>
        obtain rfl := Option.some.inj h
        have hreq' : slotRequest (movedOn s p x) y = none := hreq
        refine linkStep_ok hiss (?_ : slotStep (movedOn s p x) p = _) rfl
        unfold slotStep
        simp only [hfind, hclear, hreq', Bool.false_eq_true, if_false, dropFirst_eq_erase, rangeFrom_eq_map, List.foldl_map]
        exact congrArg Except.ok (foldl_addOut p 0 4 0 _ (fun j => 27 + j) (fun _ => 0) (atag := fun _ => _) (fun _ _ => rfl) _ _)
    · next hdeparts =>
      obtain rfl := Option.some.inj h
      have hguard : departsInGuard (movedOn s p x) p (movedOn s p x).now = true :=
        (departsInGuard_movedOn ..).trans (Bool.not_eq_false _ ▸ hdeparts)
      refine linkStep_error hiss (?_ : slotStep (movedOn s p x) p = _)
      unfold slotStep
      simp only [hfind, hguard, if_true]
  · next hslot =>
    obtain rfl := Option.some.inj h
    have hfind : (movedOn s p x).slots.find? (fun y => y.port = p && y.dep ≤ (movedOn s p x).now) = none := hslot
    refine linkStep_ok hiss (?_ : slotStep (movedOn s p x) p = _) rfl
    unfold slotStep
    simp only [hfind]

theorem serve_row {stamp : BitVec 32} {rdep : BitVec 18} {rport : BitVec 4} (hiss : issuing s (.serve stamp rdep rport) = some (p, x))
    (h : rowLink s (.serve stamp rdep rport) = some t) : exec (.serve stamp rdep rport) s = .next t := by
  unfold rowLink at h
  rw [hiss] at h
  dsimp only at h
  rw [Nat.mul_comm] at h
  split at h
  · next hdeparts =>
    obtain rfl := Option.some.inj h
    refine linkStep_ok hiss (?_ : serveStep (movedOn s p x) p x rdep rport = _) rfl
    refine (if_neg (by rw [departsInGuard_movedOn]; exact ne_true_of_eq_false hdeparts)).trans (congrArg Except.ok ?_)
    rw [rangeFrom_eq_map, List.foldl_map]
    exact foldl_addOut _ rdep.toNat 4 0 _ (fun j => 28 + j) (fun _ => 0) (atag := fun t => (t.chip (p / 12)).tag) (fun _ _ => rfl) _ _
  · next hdeparts =>
    obtain rfl := Option.some.inj h
    refine linkStep_error hiss (?_ : serveStep (movedOn s p x) p x rdep rport = _)
    exact if_pos (by rw [departsInGuard_movedOn]; exact Bool.not_eq_false _ ▸ hdeparts)

end

/-- Settles O43, instruction by instruction: each issues at the first port where it is due and leaves what its row writes. -/
theorem linkInstructions : Obligations.LinkInstructions := by
  intro s i t h
  obtain ⟨p, x, hiss⟩ := issuing_of_rowLink h
  have hrow := h
  unfold rowLink at h
  rw [hiss] at h
  cases i
  case send => obtain rfl := Option.some.inj h; exact linkStep_ok hiss rfl rfl
  case sendSig => obtain rfl := Option.some.inj h; exact linkStep_ok hiss rfl rfl
  case land => obtain rfl := Option.some.inj h; exact linkStep_ok hiss rfl rfl
  case fwd => obtain rfl := Option.some.inj h; exact linkStep_ok hiss rfl rfl
  case redAddF32 => obtain rfl := Option.some.inj h; exact linkStep_ok hiss rfl rfl
  case redAddBf16 => obtain rfl := Option.some.inj h; exact linkStep_ok hiss rfl rfl
  case redAddI32 => obtain rfl := Option.some.inj h; exact linkStep_ok hiss rfl rfl
  case redMaxF32 => obtain rfl := Option.some.inj h; exact linkStep_ok hiss rfl rfl
  case redMaxBf16 => obtain rfl := Option.some.inj h; exact linkStep_ok hiss rfl rfl
  case redMaxI32 => obtain rfl := Option.some.inj h; exact linkStep_ok hiss rfl rfl
  case guard => obtain rfl := Option.some.inj h; exact linkStep_ok hiss rfl rfl
  case linkLoop => obtain rfl := Option.some.inj h; exact linkLoop_row hiss
  case endl => obtain rfl := Option.some.inj h; exact endl_row hiss
  case mark => exact mark_row hiss hrow
  case ckpt => exact ckpt_row hiss hrow
  case fill => exact fill_row hiss hrow
  case delv => exact delv_row hiss hrow
  case slot => exact slot_row hiss hrow
  case serve => exact serve_row hiss hrow
  case halt => obtain rfl := Option.some.inj h; exact linkStep_ok hiss rfl rfl
  all_goals exact nomatch h

end Sys2Proof.Proofs.LinkPrograms
end
end

