-- ==== Sys2Proof/Proofs/HostEvents.lean ====
section
/-! The host's commands: the one that is consumed, its effect, and the end of a transfer. -/

noncomputable section

namespace Sys2Proof.Proofs.HostSide

open Sys2Proof.Machine Sys2Proof.Safety Sys2Proof.Proofs.Fabric Sys2Proof.Proofs.Accesses Sys2Proof.Proofs.Bytes
  Sys2Proof.Proofs.LinkPrograms

section
variable {s t : State} {chip kind w : Nat}

/-! ## The command at the head of the ring (R482, R484) -/

theorem field_eq (x hi lo : Nat) : field x hi lo = x / 2 ^ lo % 2 ^ (hi + 1 - lo) := by rw [field, Nat.shiftRight_eq_div_pow]

theorem bit_eq_testBit (x i : Nat) : bit x i = x.testBit i := by
  rw [bit, Nat.testBit_eq_decide_div_mod_eq, Nat.shiftRight_eq_div_pow]
  rfl

/-- The word of the slot that a package looks at. -/
def headWord (s : State) (chip : Nat) : Nat :=
  readNat (s.chip chip).bar2 (64 * (((s.chip chip).cmdCons.toNat + 1) % 2 ^ 32 % 4096)) 64

theorem hostCommand_eq (s : State) (chip : Nat) :
    hostCommand s chip = if 2 ≤ (s.chip chip).bstate.toNat ∧ (s.chip chip).cmdAt ≠ some s.now ∧
      headWord s chip / 2 ^ 256 % 2 ^ 32 = ((s.chip chip).cmdCons.toNat + 1) % 2 ^ 32 then some (headWord s chip) else none := by
  have hseq : ((s.chip chip).cmdCons + 1).toNat = ((s.chip chip).cmdCons.toNat + 1) % 2 ^ 32 := BitVec.toNat_add ..
  unfold hostCommand headWord
  simp only [hseq, field_eq, Bool.and_eq_true, bne_iff_ne, decide_eq_true_eq, and_assoc]

theorem hostCommand_of_commandAt (h : commandAt s chip kind = some w) :
    hostCommand s chip = some w ∧ commandKind w = kind ∧ commandBad s chip w = false := by
  unfold commandAt at h
  dsimp only at h
  split at h
  · next hc =>
    obtain rfl := Option.some.inj h
    obtain ⟨hstate, hply, hseq, hkind, hgood⟩ := hc
    exact ⟨(hostCommand_eq s chip).trans (if_pos ⟨hstate, hply, hseq⟩), (field_eq ..).trans hkind, hgood⟩
  · exact nomatch h

theorem commandStep_of_commandAt {f : State → Nat → State} (h : commandAt s chip kind = some w)
    (hf : f (consumed s chip) w = t) (hmem : t.mem = s.mem) : commandStep s chip kind f = .next t := by
  obtain ⟨hcmd, hkind, hgood⟩ := hostCommand_of_commandAt h
  unfold commandStep
  rw [hcmd]
  simp only [hkind, hgood, decide_true, Bool.not_false, Bool.and_self, if_true]
  exact (congrArg (finishSame s) hf).trans (finishSame_of_mem hmem)

theorem commandSeq_eq (w : Nat) : commandSeq w = w / 2 ^ 256 % 2 ^ 32 := field_eq ..

theorem answer_eq_answered (s : State) (chip code w : Nat) :
    answer s chip code (commandSeq w) = answered s chip code (w / 2 ^ 256 % 2 ^ 32) := by
  rw [commandSeq_eq]
  rfl

/-! ## Host transfers (R293, R484) -/

/-- The access of a granule of a host transfer, as the one with a number from the next of state `s`. -/
def granule (s : State) (chip op len : Nat) (write : Bool) (home ply off : Nat → Nat) (j : Nat) : Access :=
  { ident := 2 * (s.nextId + j) + 1, op := op, core := 1536 * chip, rank := 2 ^ 34 + chip, order := s.nextId + j,
    due := ply j, landAt := ply j, delayed := false, write := write, spans := hostSpans (home j) len, data := 0, capTag := none,
    dest := if write then .fromStaging chip (off j) else .staging chip (off j) }

theorem foldl_hostAccess (s : State) (op len : Nat) (write : Bool) (home ply off : Nat → Nat) (n : Nat) :
    (List.range n).foldl (fun t j => hostAccess t chip op (home j) len (ply j) write (off j)) s =
      { s with accs := s.accs ++ (List.range n).map (granule s chip op len write home ply off), nextId := s.nextId + n } := by
  induction n with
  | zero => simp
  | succ n ih =>
    rw [List.range_succ, List.foldl_append, ih, List.foldl_cons, List.foldl_nil, List.map_append]
    simp only [hostAccess, List.append_assoc]
    rfl

theorem startTransfer_eq (s : State) (chip w : Nat) (write : Bool) :
    startTransfer s chip w write =
      if commandRefused s chip w then answered s chip 3 (w / 2 ^ 256 % 2 ^ 32) else transferring s chip w write := by
  unfold startTransfer
  rw [answer_eq_answered]
  refine congrArg _ ?_
  simp only [Lanes.rangeFrom_zero, foldl_hostAccess, xferTarget, xferLength, xferOffset, xferCounter, commandSeq_eq, field_eq]
  unfold transferring
  simp only [Nat.pow_zero, Nat.div_one]
  rfl

theorem transferring_mem (s : State) (chip w : Nat) (write : Bool) : (transferring s chip w write).mem = s.mem := rfl

/-- WRITE and READ, refused or started. -/
theorem transfer_row {write : Bool} (h : commandAt s chip kind = some w)
    (ht : (if commandRefused s chip w then answered (consumed s chip) chip 3 (w / 2 ^ 256 % 2 ^ 32)
        else transferring (consumed s chip) chip w write) = t) :
    commandStep s chip kind (fun t w => startTransfer t chip w write) = .next t := by
  have hrefused : commandRefused (consumed s chip) chip w = commandRefused s chip w := by
    unfold commandRefused consumed onChip
    rw [State.chip_setChip_same]
  refine commandStep_of_commandAt h ((startTransfer_eq ..).trans (hrefused ▸ ht)) ?_
  rw [← ht]
  split <;> rfl

theorem completion_row (h : rowHost s (.hostTransferCompletion chip) = some t) : exec (.hostTransferCompletion chip) s = .next t := by
  unfold rowHost at h
  dsimp only at h
  change (match xferDone s chip with | some x => finishSame s (endTransfer s x) | none => .next s) = _
  split at h
  · next x hx =>
    have hdone : xferDone s chip = some x := hx
    obtain rfl : x.chip = chip := by
      have := List.find?_some hx
      simp only [Bool.and_eq_true, decide_eq_true_eq] at this
      exact this.1
    rw [hdone]
    dsimp only
    unfold endTransfer
    simp only [dropFirst_eq_erase]
    split at h
    · next hctr =>
      obtain rfl := Option.some.inj h
      rw [if_pos hctr]
      exact finishSame_of_mem rfl
    · next hctr =>
      obtain rfl := Option.some.inj h
      rw [if_neg hctr]
      exact finishSame_of_mem rfl
  · exact nomatch h

/-! ## Records, capabilities and maps (R370, R484) -/

theorem packageFree_eq (s : State) (chip : Nat) :
    packageFree s chip = decide ((s.recs.filter (fun r => r.lvl = 4 ∧ r.unit = packageUnit s chip ∧ r.done = none)).length < 4) := by
  unfold packageFree unitRecords
  rw [List.filter_filter]
  have hheld : (fun r : GtsRun => r.done.isNone && (decide (r.lvl = 4) && decide (r.unit = packageUnit s chip))) =
      fun r => decide (r.lvl = 4 ∧ r.unit = packageUnit s chip ∧ r.done = none) := by
    funext r
    rw [Bool.eq_iff_iff]
    simp only [Bool.and_eq_true, decide_eq_true_eq, Option.isNone_iff_eq_none]
    tauto
  simp only [hheld]

theorem record_row (h : rowHost s (.hostGtsRecord chip) = some t) : exec (.hostGtsRecord chip) s = .next t := by
  unfold rowHost at h
  dsimp only at h
  split at h
  · next w hw =>
    split at h
    · next hfree =>
      have hpackage : packageFree s chip = true := (packageFree_eq s chip).trans (decide_eq_true hfree)
      have hcap : (consumed s chip).chip chip = { s.chip chip with cmdCons := (s.chip chip).cmdCons + 1, cmdAt := some s.now } :=
        State.chip_setChip_same ..
      obtain rfl := Option.some.inj h
      refine (if_pos hpackage).trans (commandStep_of_commandAt hw (?_ : submitHost _ chip w = _) rfl)
      unfold submitHost
      rw [Lanes.rangeFrom_zero, hcap]
      rfl
    · exact nomatch h
  · exact nomatch h

theorem capset_row (h : rowHost s (.capset chip) = some t) : exec (.capset chip) s = .next t := by
  unfold rowHost at h
  dsimp only at h
  split at h
  · next w hw =>
    obtain rfl := Option.some.inj h
    change commandStep s chip 3 (fun t w => setHostCap t chip w) = _
    refine commandStep_of_commandAt hw ?_ rfl
    unfold setHostCap
    rw [field_eq, field_eq, bit_eq_testBit, Nat.pow_zero, Nat.div_one,
      BitVec.eq_of_toNat_eq (x := BitVec.ofNat 128 (w / 2 ^ 128 % 2 ^ (255 + 1 - 128))) (y := BitVec.ofNat 128 (w / 2 ^ 128))
        (by simp)]
    rfl
  · exact nomatch h

theorem any_coresOf (s : State) (chip : Nat) (f : Nat → Bool) :
    (coresOf s chip).any f = true ↔ ∃ e ∈ s.cores, e.1 / 1536 = chip ∧ f e.1 = true := by
  simp only [coresOf, chipOf, List.any_filter, List.any_map, List.any_eq_true, Function.comp_apply, Bool.and_eq_true]
  exact exists_congr fun e => and_congr_right fun _ => and_congr_left fun _ => decide_eq_true_iff

theorem consumed_bar2 (s : State) (chip : Nat) : ((consumed s chip).chip chip).bar2 = (s.chip chip).bar2 := by
  unfold consumed onChip
  rw [State.chip_setChip_same]

theorem mapset_row (h : rowHost s (.mapset chip) = some t) : exec (.mapset chip) s = .next t := by
  unfold rowHost at h
  dsimp only at h
  split at h
  · next w hw =>
    change commandStep s chip 5 (fun t w => setMap t chip w) = _
    have hrunning := any_coresOf s chip (fun n => (s.core n).run = .running)
    simp only [decide_eq_true_eq] at hrunning
    split at h
    · next hrun =>
      obtain rfl := Option.some.inj h
      refine commandStep_of_commandAt hw ?_ rfl
      exact (if_pos (hrunning.2 hrun)).trans (answer_eq_answered ..)
    · next hrun =>
      obtain rfl := Option.some.inj h
      refine commandStep_of_commandAt hw ((if_neg (mt hrunning.1 hrun)).trans ?_) rfl
      dsimp only
      rw [imageOffset, imageLength, field_eq, field_eq, Nat.pow_zero, Nat.div_one]
      rw [← consumed_bar2 s chip]
      rfl
  · exact nomatch h

theorem badCommand_row (h : rowHost s (.badCommand chip) = some t) : exec (.badCommand chip) s = .next t := by
  unfold rowHost at h
  dsimp only at h
  split at h
  · next hc =>
    obtain ⟨hstate, hply, hseq, hbad⟩ := hc
    obtain rfl := Option.some.inj h
    change commandBad s chip (headWord s chip) = true at hbad
    have hcmd : hostCommand s chip = some (headWord s chip) := (hostCommand_eq s chip).trans (if_pos ⟨hstate, hply, hseq⟩)
    change (match hostCommand s chip with
      | some w => if commandBad s chip w then finishSame s (answer (consume s chip) chip 1 (commandSeq w)) else .next s
      | none => .next s) = _
    rw [hcmd]
    dsimp only
    rw [if_pos hbad, answer_eq_answered, show headWord s chip / 2 ^ 256 % 2 ^ 32 = _ from hseq]
    exact finishSame_of_mem rfl
  · exact nomatch h

end

/-- Settles O45, command by command. -/
theorem hostCommands : Obligations.HostCommands := by
  intro s i t h
  have hrow := h
  unfold rowHost at h
  cases i
  case hostGtsRecord => exact record_row hrow
  case write chip =>
    dsimp only at h
    split at h
    · next hw => exact transfer_row hw (Option.some.inj h)
    · exact nomatch h
  case read chip =>
    dsimp only at h
    split at h
    · next hw => exact transfer_row hw (Option.some.inj h)
    · exact nomatch h
  case capset => exact capset_row hrow
  case mapset => exact mapset_row hrow
  case badCommand => exact badCommand_row hrow
  case hostTransferCompletion => exact completion_row hrow
  all_goals exact nomatch h

end Sys2Proof.Proofs.HostSide
end
end

