-- ==== Sys2Proof/Proofs/TempoEvents.lean ====
section
/-! Tempo of a package: messages that it has received, the root's limits, detectors. -/

noncomputable section

namespace Sys2Proof.Proofs.Packages

open Sys2Proof.Machine Sys2Proof.Safety Sys2Proof.Proofs.Fabric Sys2Proof.Proofs.Accesses Sys2Proof.Proofs.HostSide

section
variable {s t : State} {chip kind : Nat} {m : InMsg}

/-! ## Messages that a package has received (R431) -/

theorem msgKind_eq (b : BitVec 128) : msgKind b = kindIn b := (field_eq ..).trans (by rw [Nat.pow_zero, Nat.div_one]; rfl)

theorem msgArg8_eq (b : BitVec 128) : msgArg8 b = argIn b := field_eq ..

theorem msgOrigin_eq (b : BitVec 128) : msgOrigin b = originIn b := field_eq ..

theorem msgArg32_eq (b : BitVec 128) : msgArg32 b = longArgIn b := field_eq ..

theorem msgPly_eq (b : BitVec 128) : msgPly b = plyIn b := by
  have hb := b.isLt
  exact (field_eq ..).trans (Nat.mod_eq_of_lt (by omega))

theorem msgFor_eq_received (s : State) (kind chip : Nat) : msgFor s kind chip = received s kind chip := by
  have hwanted : (fun m : InMsg => decide (m.ply ≤ s.now) && decide (msgKind m.bits = kind) && decide (m.chip = chip)) =
      fun m => decide (m.ply ≤ s.now ∧ kindIn m.bits = kind ∧ m.chip = chip) := by
    funext m
    rw [Bool.eq_iff_iff, msgKind_eq]
    simp only [Bool.and_eq_true, decide_eq_true_eq, and_assoc]
  unfold msgFor nextMsg received
  rw [hwanted]

theorem chip_of_received (h : received s kind chip = some m) : m.chip = chip := by
  have := List.find?_some h
  simp only [decide_eq_true_eq] at this
  exact this.2.2

theorem dropMsg_eq_takenOff (s : State) (m : InMsg) : dropMsg s m = takenOff s m := by
  unfold dropMsg takenOff
  rw [dropFirst_eq_erase]

theorem relayDown_eq (h : received s kind chip = some m) :
    relayDown s m = sentDown (takenOff s m) chip (m.ply + 2) m.bits := by
  unfold relayDown
  rw [dropMsg_eq_takenOff, sendDown_eq_sentDown, chip_of_received h]

theorem relayUp_eq (h : received s kind chip = some m) :
    relayUp s m = sentUp (takenOff s m) chip (sourceOf m) (m.ply + 2) m.bits := by
  unfold relayUp
  rw [dropMsg_eq_takenOff, sendUp_eq_sentUp, chip_of_received h]
  rfl

/-- A fold of changes that leave memory alone leaves it alone. -/
theorem foldl_mem {α : Type} {f : State → α → State} (h : ∀ s x, (f s x).mem = s.mem) (l : List α) (s : State) :
    (l.foldl f s).mem = s.mem := by
  induction l generalizing s with
  | nil => rfl
  | cons x l ih => exact (ih _).trans (h s x)

/-! ## The root's limits (R472 to R475) -/

theorem slowest_eq_slowestOf (c : Chip) : c.slowest = slowestOf c := by
  have hcap := c.cap.isLt
  have hceiling := c.ceiling.isLt
  unfold Chip.slowest slowestOf
  apply BitVec.eq_of_toNat_eq
  cases c.dUntil with
  | some d => simp; omega
  | none =>
    simp only [Option.isSome_none, Bool.false_eq_true, if_false, ne_eq, not_true_eq_false, Nat.max_zero, BitVec.toNat_ofNat]
    split <;> omega

theorem tempoEvent_eq (c : Chip) (next : BitVec 2) (z : Nat) (tz : Word) (hnext : c.lastTempo = next) (htz : tz.toNat = z % 2 ^ 64) :
    BitVec.ofNat 320 (c.tnow.toNat + tz.toNat <<< 64) = tempoData c next z := by
  have htempo := c.tempo.isLt
  have hsplit := c.split.isLt
  have hlast := c.lastTempo.isLt
  have htnow : c.tnow.toNat = c.tempo.toNat + c.split.toNat * 4 + c.lastTempo.toNat * 16 := by
    unfold Chip.tnow
    rw [BitVec.toNat_ofNat, Nat.shiftLeft_eq, Nat.shiftLeft_eq]
    omega
  unfold tempoData
  rw [htnow, htz, hnext, Nat.shiftLeft_eq]

theorem hold_eq_holding (c : Chip) (z : Nat) (tempo split : BitVec 2) : c.hold z tempo split = holding z tempo split c := by
  have hother : (fun h : TempoHeld => h.z != z) = fun h => decide (h.z ≠ z) := by funext h; rw [Bool.eq_iff_iff]; simp
  unfold Chip.hold holding
  rw [hother]

theorem chip_sentDown_root (s : State) (ready : Nat) (bits : BitVec 128) :
    ∃ l, (sentDown s s.root ready bits).chip s.root = { s.chip s.root with lastDown := l } := by
  simp only [sentDown, if_true]
  exact ⟨_, State.chip_setChip_same ..⟩

theorem sentDown_root (s : State) (chip ready : Nat) (bits : BitVec 128) : (sentDown s chip ready bits).root = s.root := by
  unfold sentDown
  split <;> rfl

theorem sentDown_posted (s : State) (chip ready : Nat) (bits : BitVec 128) : (sentDown s chip ready bits).posted = s.posted := by
  unfold sentDown
  split <;> rfl

theorem postTempo_eq (s : State) (code : Nat) (next : BitVec 2) (z : Nat) (hnext : (s.chip s.root).lastTempo = next)
    (htz : (s.chip s.root).tz.toNat = z % 2 ^ 64) :
    postTempo s code =
      { s with posted := s.posted ++ [{ chip := s.root, src := 0x20, code := code, data := tempoData (s.chip s.root) next z }] } := by
  rw [← tempoEvent_eq _ _ _ _ hnext htz]
  rfl

theorem retune_eq_retuned (s : State) (c : Chip) : retune (s.setChip s.root c) = retuned s c := by
  unfold retune retuned
  dsimp only [State.setChip_root, State.setChip_now]
  rw [State.chip_setChip_same, slowest_eq_slowestOf]
  split
  · rfl
  · simp only [sendDown_eq_sentDown, makeMsg_eq_messageOf, hold_eq_holding, State.setChip_setChip, Nat.shiftLeft_eq]
    generalize (if c.tz = BitVec.allOnes 64 then s.now + 8194 else max (s.now + 8194) (c.tz.toNat + 2049)) = z
    obtain ⟨l, hl⟩ := chip_sentDown_root
      (s.setChip s.root { holding z (slowestOf c) c.dsplit c with
        effective := slowestOf c, lastTempo := slowestOf c, lastSplit := c.dsplit, tz := BitVec.ofNat 64 z }) s.now
      (messageOf 1 ((slowestOf c).toNat + c.dsplit.toNat * 2 ^ 2) s.root 0 z)
    simp only [State.setChip_root, State.chip_setChip_same] at hl
    rw [postTempo_eq _ 1 (slowestOf c) z, sentDown_root, sentDown_posted, State.setChip_root, hl]
    · rfl
    · rw [sentDown_root, State.setChip_root, hl]
    · rw [sentDown_root, State.setChip_root, hl, BitVec.toNat_ofNat]

@[simp] theorem retuned_mem (s : State) (c : Chip) : (retuned s c).mem = s.mem := by
  unfold retuned
  dsimp only
  split
  · rfl
  · simp only [sentDown_mem, State.setChip_mem]

@[simp] theorem sentUp_mem (s : State) (chip src ready : Nat) (bits : BitVec 128) : (sentUp s chip src ready bits).mem = s.mem := rfl

@[simp] theorem takenOff_mem (s : State) (m : InMsg) : (takenOff s m).mem = s.mem := rfl

@[simp] theorem onChip_mem (s : State) (k : Nat) (f : Chip → Chip) : (onChip s k f).mem = s.mem := rfl

/-- The root takes a message and changes its limits. -/
theorem finishSame_retune (c : Chip) (hmem : s.mem = t.mem) : finishSame t (retune (s.setChip s.root c)) = .next (retuned s c) := by
  rw [retune_eq_retuned]
  exact finishSame_of_mem ((retuned_mem ..).trans hmem)

theorem ratioOf_eq_ratioFor (tempo : BitVec 2) : ratioOf tempo = ratioFor tempo := by
  revert tempo
  decide

theorem soon_eq (now : Nat) :
    (fun h : TempoHeld => decide (h.z ≤ now + 1024) && decide (now < h.z)) = fun h => decide (now < h.z ∧ h.z ≤ now + 1024) := by
  funext h
  rw [Bool.eq_iff_iff]
  simp [and_comm]

/-- A coming change to a lower ratio switches the converters before it. -/
theorem nextRatio_fall {c : Chip} {now : Nat} {x : TempoHeld} (hready : ¬c.bstate.toNat < 3)
    (hx : (c.held.filter (fun h => now < h.z ∧ h.z ≤ now + 1024)).find? (fun h => (ratioFor h.tempo).toNat < c.ratio.toNat) = some x) :
    c.nextRatio now = some (ratioFor x.tempo) := by
  unfold Chip.nextRatio
  simp only [if_neg hready, soon_eq, ratioOf_eq_ratioFor, BitVec.lt_def, hx]

/-- A change to a higher ratio switches them after it. -/
theorem nextRatio_rise {c : Chip} {now : Nat} (hready : ¬c.bstate.toNat < 3)
    (hx : (c.held.filter (fun h => now < h.z ∧ h.z ≤ now + 1024)).find? (fun h => (ratioFor h.tempo).toNat < c.ratio.toNat) = none)
    (hsoon : c.held.filter (fun h => now < h.z ∧ h.z ≤ now + 1024) = []) (hrise : c.ratio.toNat < (ratioFor c.tempo).toNat)
    (hlater : c.changedAt + 1024 ≤ now) : c.nextRatio now = some (ratioFor c.tempo) := by
  unfold Chip.nextRatio
  simp only [if_neg hready, soon_eq, ratioOf_eq_ratioFor, BitVec.lt_def, hx]
  rw [hsoon]
  exact if_pos (by simp [hrise, hlater])

theorem converterSwitch_of_nextRatio {r : BitVec 2} (h : (s.chip chip).nextRatio s.now = some r) :
    exec (.converterSwitch chip) s = .next (onChip s chip (fun c => { c with ratio := r })) := by
  change (match (s.chip chip).nextRatio s.now with
    | some r => finishSame s (s.setChip chip { s.chip chip with ratio := r })
    | none => .next s) = _
  rw [h]
  exact finishSame_of_mem rfl

theorem converterSwitch_row (h : rowTempo s (.converterSwitch chip) = some t) : exec (.converterSwitch chip) s = .next t := by
  unfold rowTempo at h
  dsimp only at h
  split at h
  · exact nomatch h
  · next hready =>
    split at h
    · next x hx =>
      obtain rfl := Option.some.inj h
      exact converterSwitch_of_nextRatio (nextRatio_fall hready hx)
    · next hx =>
      split at h
      · next hrise =>
        obtain rfl := Option.some.inj h
        obtain ⟨hsoon, hratio, hlater⟩ := hrise
        exact converterSwitch_of_nextRatio (nextRatio_rise hready hx hsoon hratio hlater)
      · exact nomatch h

theorem tempoChange_row (h : rowTempo s (.tempoChange chip) = some t) : exec (.tempoChange chip) s = .next t := by
  have hother (h : TempoHeld) : (fun x : TempoHeld => x != h) = fun x => decide (x ≠ h) := by funext x; rw [Bool.eq_iff_iff]; simp
  unfold rowTempo at h
  dsimp only at h
  split at h
  · next x hx =>
    obtain rfl := Option.some.inj h
    have hdue : (s.chip chip).changeDue s.now = some x := hx
    change (match (s.chip chip).changeDue s.now with
      | some h => finishSame s (s.setChip chip (if (s.chip chip).bstate.toNat < 3
          then { s.chip chip with held := (s.chip chip).held.filter (fun x => x != h) }
          else { s.chip chip with held := (s.chip chip).held.filter (fun x => x != h), tempo := h.tempo, split := h.split,
                                  changedAt := s.now }))
      | none => .next s) = _
    rw [hdue]
    dsimp only [onChip]
    rw [hother]
    split <;> exact finishSame_of_mem rfl
  · exact nomatch h

theorem powerCap_row {v : BitVec 64} (h : rowTempo s (.powerCapMessage v) = some t) : exec (.powerCapMessage v) s = .next t := by
  unfold rowTempo at h
  dsimp only at h
  change finishSame s (capMessage s v) = _
  unfold capMessage
  split at h
  · next hstale =>
    obtain rfl := Option.some.inj h
    obtain ⟨hseen, hseq⟩ := hstale
    have hdrop : (if (s.chip s.root).drop = 255 then 255 else (s.chip s.root).drop + 1) =
        BitVec.ofNat 8 (min 255 ((s.chip s.root).drop.toNat + 1)) := by
      generalize (s.chip s.root).drop = d
      revert d
      decide
    rw [if_neg (by simpa [hseen] using hseq), hdrop]
    exact finishSame_of_mem rfl
  · next hfresh =>
    obtain rfl := Option.some.inj h
    rw [if_pos (by simpa [← Bool.not_eq_true, Decidable.or_iff_not_imp_left] using hfresh), Nat.shiftRight_eq_div_pow]
    exact finishSame_retune _ rfl

theorem leaseExpiry_row (h : rowTempo s .capLeaseExpiry = some t) : exec .capLeaseExpiry s = .next t := by
  unfold rowTempo at h
  dsimp only at h
  split at h
  · next hover =>
    obtain rfl := Option.some.inj h
    refine (if_pos hover).trans ?_
    rw [postTempo_eq _ 2 (s.chip s.root).lastTempo (s.chip s.root).tz.toNat (by simp)
      (by simp only [State.setChip_root, State.chip_setChip_same, Nat.mod_eq_of_lt (BitVec.isLt _)])]
    refine Eq.trans ?_ (finishSame_retune (t := s) _ rfl)
    simp only [State.setChip_root, State.chip_setChip_same]
    rfl
  · exact nomatch h

theorem stepUp_row (h : rowTempo s .thermalStepUp = some t) : exec .thermalStepUp s = .next t := by
  unfold rowTempo at h
  dsimp only at h
  split at h
  · next hcalm =>
    obtain rfl := Option.some.inj h
    have hstep : ∀ c : BitVec 2, c ≠ 0 → c - 1 = BitVec.ofNat 2 (c.toNat - 1) := by decide
    refine (if_pos (by simpa using hcalm)).trans ?_
    rw [hstep _ hcalm.1]
    exact finishSame_retune _ rfl
  · exact nomatch h

/-! ## Detectors (R411, R412) -/

theorem currentWindow_row {amps : Nat} (h : rowTempo s (.currentWindowEnd chip amps) = some t) :
    exec (.currentWindowEnd chip amps) s = .next t := by
  have hover : (decide (s.now % 256 = 255) && decide ((mapGet 0 (s.chip chip).limits (s.chip chip).ratio.toNat).toNat < amps) &&
      (s.chip chip).tempo != 3 && !(s.chip chip).held.any (fun h => h.tempo = 3)) = true ↔
      s.now % 256 = 255 ∧ (mapGet 0 (s.chip chip).limits (s.chip chip).ratio.toNat).toNat < amps ∧ (s.chip chip).tempo ≠ 3 ∧
        ∀ h ∈ (s.chip chip).held, h.tempo ≠ 3 := by
    simp [and_assoc]
  unfold rowTempo at h
  dsimp only at h
  change finishSame s (currentWindow s chip amps) = _
  unfold currentWindow
  dsimp only
  split at h
  · next hlimit =>
    obtain rfl := Option.some.inj h
    rw [if_pos (hover.2 hlimit), tellRoot_eq_told, makeMsg_eq_messageOf]
    exact finishSame_of_mem (told_mem ..)
  · next hlimit =>
    obtain rfl := Option.some.inj h
    rw [if_neg (mt hover.1 hlimit)]
    exact finishSame_of_mem rfl

theorem stopCores_eq_coresStopped (s : State) (chip : Nat) : stopCores s chip = coresStopped s chip := by
  have hstep : stopCore = fun s n => if foundRunning s (s.core n) then onCore s n (fun c => { c with stopping := true }) else s := by
    funext s n
    unfold stopCore Core.actsRunning
    simp only [Bool.or_eq_true, Bool.and_eq_true, decide_eq_true_eq]
    rfl
  unfold stopCores
  rw [hstep]
  rfl

@[simp] theorem coresStopped_mem (s : State) (chip : Nat) : (coresStopped s chip).mem = s.mem :=
  foldl_mem (fun s n => by split <;> rfl) ..

theorem foldl_stopEngine (l : List Nat) (s : State) : l.foldl (fun s p => stopEngine s p 0) s = l.foldl (fun s p => stilled s p 0) s := by
  simp only [stopEngine_eq_stilled]

theorem told_ports (s : State) (chip ply : Nat) (bits : BitVec 128) : (told s chip ply bits).ports = s.ports := by
  unfold told
  split <;> rfl

/-- Whether a reading warns: a die at WARN that has not warned yet. -/
def warns (s : State) (chip die : Nat) (deg : BitVec 8) : Bool :=
  (s.chip chip).twarn.toNat ≤ deg.toNat && !(s.chip chip).warned.contains die

/-- The state with the reading in the package's registers. -/
def measured (s : State) (chip die : Nat) (deg : BitVec 8) : State :=
  onChip s chip (fun c => { c with
    temps := mapPut c.temps die deg
    warned := if deg.toNat + 5 < c.twarn.toNat then c.warned.filter (fun d => d ≠ die)
      else if warns s chip die deg then die :: c.warned else c.warned
    tempAt := if c.tempAt.any (fun x => x.1 = die) then c.tempAt else mapPut c.tempAt die s.now })

/-- The state after a reading that does not halt the package. -/
def afterReading (s : State) (chip die : Nat) (deg : BitVec 8) : State :=
  if warns s chip die deg then told (measured s chip die deg) chip s.now (messageOf 6 0 chip 0 s.now) else measured s chip die deg

/-- The state after a reading at CRIT, `u` without the halt. -/
def critical (s u : State) (chip : Nat) : State :=
  { onChip ((portsAt u chip).foldl (fun u p => stilled u p 0) (coresStopped u chip)) chip (fun c => { c with crit := some s.now }) with
    charges := s.charges.filter (fun x => x.chip ≠ chip ∨ x.ply < s.now ∨ x.pj ≠ 48) }

theorem afterReading_ports (s : State) (chip die : Nat) (deg : BitVec 8) : (afterReading s chip die deg).ports = s.ports := by
  unfold afterReading
  split
  · exact told_ports ..
  · rfl

theorem afterReading_mem (s : State) (chip die : Nat) (deg : BitVec 8) : (afterReading s chip die deg).mem = s.mem := by
  unfold afterReading
  split
  · exact told_mem ..
  · rfl

theorem critical_mem (s u : State) (chip : Nat) : (critical s u chip).mem = u.mem :=
  (foldl_mem (f := fun u p => stilled u p 0) (fun _ _ => rfl) (portsAt u chip) (coresStopped u chip)).trans (coresStopped_mem ..)

theorem readTemperature_eq (s : State) (chip die : Nat) (deg : BitVec 8) :
    readTemperature s chip die deg =
      if (s.chip chip).tcrit.toNat ≤ deg.toNat ∧ (s.chip chip).crit = none then critical s (afterReading s chip die deg) chip
      else afterReading s chip die deg := by
  have hcooled : (fun d : Nat => d != die) = fun d => decide (d ≠ die) := by funext d; rw [Bool.eq_iff_iff]; simp
  have hkept : (fun x : Charge => !(decide (x.chip = chip) && decide (s.now ≤ x.ply) && decide (x.pj = 48))) =
      fun x => decide (x.chip ≠ chip ∨ x.ply < s.now ∨ x.pj ≠ 48) := by
    funext x; rw [Bool.eq_iff_iff]; simp; omega
  have hreading : (if warns s chip die deg then tellRoot (measured s chip die deg) chip s.now (makeMsg 6 0 chip 0 s.now)
      else measured s chip die deg) = afterReading s chip die deg := by
    rw [tellRoot_eq_told, makeMsg_eq_messageOf]
    rfl
  have hports : portsOf s chip = portsAt (afterReading s chip die deg) chip := by
    unfold portsAt
    rw [afterReading_ports]
    rfl
  have hhalted : (portsOf s chip).foldl (fun s p => stopEngine s p 0) (stopCores (afterReading s chip die deg) chip) =
      (portsAt (afterReading s chip die deg) chip).foldl (fun u p => stilled u p 0) (coresStopped (afterReading s chip die deg) chip) := by
    rw [foldl_stopEngine, stopCores_eq_coresStopped, hports]
  unfold readTemperature
  rw [hcooled, hkept]
  change (if decide ((s.chip chip).tcrit.toNat ≤ deg.toNat) && (s.chip chip).crit.isNone then
    { onChip ((portsOf s chip).foldl (fun s p => stopEngine s p 0)
        (stopCores (if warns s chip die deg then tellRoot (measured s chip die deg) chip s.now (makeMsg 6 0 chip 0 s.now)
          else measured s chip die deg) chip)) chip (fun c => { c with crit := some s.now }) with
      charges := s.charges.filter (fun x => x.chip ≠ chip ∨ x.ply < s.now ∨ x.pj ≠ 48) }
    else if warns s chip die deg then tellRoot (measured s chip die deg) chip s.now (makeMsg 6 0 chip 0 s.now)
      else measured s chip die deg) = _
  rw [hreading, hhalted]
  simp only [Bool.and_eq_true, decide_eq_true_eq, Option.isNone_iff_eq_none]
  rfl

theorem temperature_row {die : Nat} {deg : BitVec 8} (h : rowTempo s (.temperatureReading chip die deg) = some t) :
    exec (.temperatureReading chip die deg) s = .next t := by
  unfold rowTempo at h
  dsimp only at h
  change finishSame s (if sensorDue s chip die then readTemperature s chip die deg else s) = _
  split at h
  · next hdue =>
    rw [if_pos (show sensorDue s chip die = true from hdue), readTemperature_eq]
    obtain rfl := Option.some.inj h
    split
    · exact finishSame_of_mem ((critical_mem ..).trans (afterReading_mem ..))
    · exact finishSame_of_mem (afterReading_mem ..)
  · next hdue =>
    obtain rfl := Option.some.inj h
    rw [if_neg (show ¬sensorDue s chip die = true from hdue)]
    exact finishSame_of_mem rfl

/-! ## The rows of tempo -/

theorem tempoNotice_row (h : rowTempo s (.tempoNotice chip) = some t) : exec (.tempoNotice chip) s = .next t := by
  unfold rowTempo at h
  dsimp only at h
  split at h
  · next m hm =>
    obtain rfl := Option.some.inj h
    change (match msgFor s 1 chip with
      | some m => finishSame s ((relayDown s m).setChip chip (((relayDown s m).chip chip).hold (msgPly m.bits)
          (BitVec.ofNat 2 (msgArg8 m.bits)) (BitVec.ofNat 2 (msgArg8 m.bits >>> 2))))
      | none => .next s) = _
    rw [msgFor_eq_received, hm]
    dsimp only
    rw [relayDown_eq hm, hold_eq_holding, msgPly_eq, msgArg8_eq, Nat.shiftRight_eq_div_pow]
    exact finishSame_of_mem (sentDown_mem (takenOff s m) chip (m.ply + 2) m.bits)
  · exact nomatch h

/-- A message for the root, which changes its limits; another package hands it on. -/
theorem rootMessage_row (f : Chip → Chip) (hm : received s kind chip = some m)
    (h : (if chip = s.root then some (retuned (takenOff s m) (f (s.chip chip)))
      else some (sentUp (takenOff s m) chip (sourceOf m) (m.ply + 2) m.bits)) = some t) :
    (match msgFor s kind chip with
      | some m =>
        if chip = s.root then finishSame s (retune ((dropMsg s m).setChip chip (f ((dropMsg s m).chip chip))))
        else finishSame s (relayUp s m)
      | none => .next s) = .next t := by
  rw [msgFor_eq_received, hm]
  dsimp only
  split at h
  · next hroot =>
    obtain rfl := Option.some.inj h
    rw [if_pos hroot, dropMsg_eq_takenOff]
    subst hroot
    exact finishSame_retune (s := takenOff s m) _ rfl
  · next hroot =>
    obtain rfl := Option.some.inj h
    rw [if_neg hroot, relayUp_eq hm]
    exact finishSame_of_mem rfl

theorem dRequest_row (h : rowTempo s (.tempoDRequest chip) = some t) : exec (.tempoDRequest chip) s = .next t := by
  unfold rowTempo at h
  dsimp only at h
  split at h
  · next m hm => exact rootMessage_row (fun c => { c with dUntil := some (s.now + c.dhold.toNat) }) hm h
  · exact nomatch h

theorem slowDown_row (h : rowTempo s (.slowDownNotice chip) = some t) : exec (.slowDownNotice chip) s = .next t := by
  unfold rowTempo at h
  dsimp only at h
  split at h
  · next m hm => exact rootMessage_row (fun c => { c with ceiling := if c.ceiling = 0 then 1 else 2, calmFrom := s.now }) hm h
  · exact nomatch h

theorem dHoldEnd_row (h : rowTempo s .dHoldEnd = some t) : exec .dHoldEnd s = .next t := by
  unfold rowTempo at h
  dsimp only at h
  split at h
  · next hdue =>
    obtain rfl := Option.some.inj h
    exact (if_pos hdue).trans (finishSame_retune _ rfl)
  · exact nomatch h

end

theorem tempoRows {s t : State} {i : Instr} (h : rowTempo s i = some t) : exec i s = .next t := by
  have hrow := h
  unfold rowTempo at h
  cases i
  case tempoNotice => exact tempoNotice_row hrow
  case tempoDRequest => exact dRequest_row hrow
  case slowDownNotice => exact slowDown_row hrow
  case dHoldEnd => exact dHoldEnd_row hrow
  case thermalStepUp => exact stepUp_row hrow
  case powerCapMessage => exact powerCap_row hrow
  case capLeaseExpiry => exact leaseExpiry_row hrow
  case converterSwitch => exact converterSwitch_row hrow
  case tempoChange => exact tempoChange_row hrow
  case currentWindowEnd => exact currentWindow_row hrow
  case temperatureReading => exact temperature_row hrow
  all_goals exact nomatch h

end Sys2Proof.Proofs.Packages
end
end

