-- ==== Sys2Proof/Proofs/PackageEvents.lean ====
section
/-! Notices on the tree, and the states of a package. -/

noncomputable section

namespace Sys2Proof.Proofs.Packages

open Sys2Proof.Machine Sys2Proof.Safety Sys2Proof.Proofs.Fabric Sys2Proof.Proofs.Accesses Sys2Proof.Proofs.HostSide

section
variable {s t : State} {chip : Nat} {m : InMsg}

/-! ## Notices of pre-emption and resume (R391, R399) -/

theorem jobCores_eq_jobOf (s : State) (chip : Nat) : jobCores s chip = jobOf s chip := by
  unfold jobCores jobOf
  rw [Lanes.rangeFrom_zero, ← List.filterMap_eq_map, List.filterMap_filter]
  refine List.filterMap_congr fun k _ => ?_
  simp only [decide_eq_true_eq]
  rfl

theorem jobOf_onChip (s : State) (chip k : Nat) (f : Chip → Chip) : jobOf (onChip s k f) chip = jobOf s chip := by
  unfold jobOf
  rfl

theorem announcePreempt_eq (s : State) (chip p : Nat) :
    announcePreempt s chip p =
      (jobOf s chip).foldl (fun t n => onCore t n (fun c =>
        { c with prply := BitVec.ofNat 64 p, diverted := false, preDone := false, preLate := false }))
        (onChip s chip (fun c => { c with preempt := some p })) := by
  unfold announcePreempt
  rw [jobCores_eq_jobOf]
  rfl

theorem announceResume_eq (s : State) (chip q : Nat) :
    announceResume s chip q =
      (jobOf s chip).foldl (fun t n => onCore t n (fun c => { c with rsply := BitVec.ofNat 64 q }))
        (onChip s chip (fun c => { c with resumeQ := some q })) := by
  unfold announceResume
  rw [jobCores_eq_jobOf]
  rfl

/-- A change of cores on top of a notice handed down leaves memory alone. -/
theorem handedDown_mem (s : State) (m : InMsg) (chip : Nat) (f : Chip → Chip) (g : Core → Core) (l : List Nat) :
    (l.foldl (fun t n => onCore t n g) (onChip (sentDown (takenOff s m) chip (m.ply + 2) m.bits) chip f)).mem = s.mem :=
  (foldl_mem (f := fun t n => onCore t n g) (fun _ _ => rfl) ..).trans (sentDown_mem (takenOff s m) chip (m.ply + 2) m.bits)

theorem preemption_row (h : rowPackage s (.preemptionNotice chip) = some t) : exec (.preemptionNotice chip) s = .next t := by
  unfold rowPackage at h
  dsimp only at h
  split at h
  · next m hm =>
    obtain rfl := Option.some.inj h
    change (match msgFor s 2 chip with
      | some m => finishSame s (announcePreempt (relayDown s m) chip (msgPly m.bits))
      | none => .next s) = _
    rw [msgFor_eq_received, hm]
    dsimp only
    rw [relayDown_eq hm, msgPly_eq, announcePreempt_eq, jobOf_onChip]
    exact finishSame_of_mem (handedDown_mem ..)
  · exact nomatch h

theorem resume_row (h : rowPackage s (.resumeNotice chip) = some t) : exec (.resumeNotice chip) s = .next t := by
  unfold rowPackage at h
  dsimp only at h
  split at h
  · next m hm =>
    obtain rfl := Option.some.inj h
    change (match msgFor s 3 chip with
      | some m => finishSame s (announceResume (relayDown s m) chip (msgPly m.bits))
      | none => .next s) = _
    rw [msgFor_eq_received, hm]
    dsimp only
    rw [relayDown_eq hm, msgPly_eq, announceResume_eq, jobOf_onChip]
    exact finishSame_of_mem (handedDown_mem ..)
  · exact nomatch h

/-! ## Notices of faults (R462, R463) -/

theorem downward_iff (b : BitVec 128) : bit (msgArg8 b) 7 = false ↔ argIn b < 128 := by
  have harg : argIn b < 256 := Nat.mod_lt _ (by decide)
  rw [msgArg8_eq, bit, Nat.shiftRight_eq_div_pow]
  simp only [beq_eq_false_iff_ne, ne_eq]
  omega

/-- Whether a notice has been returned before. -/
theorem returned_iff (l : List (Nat × Nat × Nat)) (key ev t : Nat) :
    l.any (fun x => x.1 = key && x.2.1 = ev && absDiff x.2.2 t ≤ 65536) = true ↔
      ∃ x ∈ l, x.1 = key ∧ x.2.1 = ev ∧ t ≤ x.2.2 + 65536 ∧ x.2.2 ≤ t + 65536 := by
  have hnear (a : Nat) : absDiff a t ≤ 65536 ↔ t ≤ a + 65536 ∧ a ≤ t + 65536 := by
    unfold absDiff
    split <;> omega
  simp only [List.any_eq_true, Bool.and_eq_true, decide_eq_true_eq, hnear, and_assoc]

theorem runsJob_iff (s : State) (chip : Nat) : runsJob s chip = true ↔ hasEngines s chip := by
  unfold runsJob
  simp only [List.any_eq_true, decide_eq_true_eq]
  rfl

theorem newRecovery_manual (hheader : recoveryHeader s chip = none) (b : BitVec 128) :
    newRecovery s chip (originIn b) (longArgIn b / 2 ^ 12 % 2 ^ 4) (argIn b % 64) (plyIn b) = manualRecovery b := by
  unfold newRecovery
  rw [hheader]
  rfl

theorem applyNotice_ignored {b : BitVec 128}
    (hother : longArgIn b / 2 ^ 16 ≠ (s.chip chip).tag.toNat ∨ (¬hasEngines s chip ∧ (s.chip chip).recovery = none)) :
    applyNotice s chip b = s := by
  unfold applyNotice
  refine if_pos ?_
  rw [msgArg32_eq, Nat.shiftRight_eq_div_pow]
  simpa [← runsJob_iff] using hother

theorem applyNotice_manual {b : BitVec 128} (htag : longArgIn b / 2 ^ 16 = (s.chip chip).tag.toNat)
    (hjob : ¬(¬hasEngines s chip ∧ (s.chip chip).recovery = none)) (hnone : (s.chip chip).recovery = none)
    (hheader : recoveryHeader s chip = none) :
    applyNotice s chip b =
      onChip s chip (fun c => { c with ev := BitVec.ofNat 6 (argIn b), recovery := some (manualRecovery b) }) := by
  have hev : BitVec.ofNat 6 (argIn b % 64) = BitVec.ofNat 6 (argIn b) := BitVec.eq_of_toNat_eq (by simp)
  unfold applyNotice
  refine (if_neg ?_).trans ?_
  · rw [msgArg32_eq, Nat.shiftRight_eq_div_pow, htag]
    simpa [← runsJob_iff] using hjob
  · dsimp only
    rw [hnone, State.chip_setChip_same, State.setChip_setChip, msgArg8_eq, msgOrigin_eq, msgArg32_eq, msgPly_eq, field_eq,
      newRecovery_manual hheader, hev]
    rfl

theorem returnNotice_again
    (hagain : ∃ x ∈ (s.chip s.root).returned, x.1 = noticeKey m.bits ∧ x.2.1 = argIn m.bits % 64 ∧
      plyIn m.bits ≤ x.2.2 + 65536 ∧ x.2.2 ≤ plyIn m.bits + 65536) : returnNotice s m = takenOff s m := by
  unfold returnNotice
  rw [msgOrigin_eq, msgArg32_eq, msgArg8_eq, msgPly_eq, Nat.shiftLeft_eq, dropMsg_eq_takenOff]
  exact if_pos ((returned_iff ..).2 hagain)

/-- The root hands a notice down, and to itself. -/
def returnedNotice (s : State) (m : InMsg) (chip : Nat) : State :=
  let t := sentDown (onChip (takenOff s m) chip (fun c =>
    { c with returned := (noticeKey m.bits, argIn m.bits % 64, plyIn m.bits) :: c.returned })) chip (m.ply + 2)
      (m.bits ||| BitVec.twoPow 128 15)
  { t with inMsgs := t.inMsgs ++ [{ chip := chip, ply := m.ply + 2, port := none, bits := m.bits ||| BitVec.twoPow 128 15 }] }

theorem returnNotice_first
    (hfirst : ¬∃ x ∈ (s.chip s.root).returned, x.1 = noticeKey m.bits ∧ x.2.1 = argIn m.bits % 64 ∧
      plyIn m.bits ≤ x.2.2 + 65536 ∧ x.2.2 ≤ plyIn m.bits + 65536) : returnNotice s m = returnedNotice s m s.root := by
  unfold returnNotice
  rw [msgOrigin_eq, msgArg32_eq, msgArg8_eq, msgPly_eq, Nat.shiftLeft_eq, dropMsg_eq_takenOff]
  refine (if_neg (mt (returned_iff ..).1 hfirst)).trans ?_
  dsimp only
  rw [sendDown_eq_sentDown]
  rfl

theorem sentDown_keeps {ready : Nat} {b : BitVec 128} (h : chip ≠ s.root) :
    (sentDown s chip ready b).ports = s.ports ∧ (sentDown s chip ready b).chip chip = s.chip chip := by
  simp only [sentDown, if_neg h]
  exact ⟨trivial, rfl⟩

theorem faultNotice_row (h : rowPackage s (.faultNotice chip) = some t) : exec (.faultNotice chip) s = .next t := by
  unfold rowPackage at h
  dsimp only at h
  split at h
  · next m hm =>
    have hchip := chip_of_received hm
    change (match msgFor s 4 chip with | some m => finishSame s (takeNotice s m) | none => .next s) = _
    rw [msgFor_eq_received, hm]
    dsimp only
    unfold takeNotice
    rw [hchip]
    split at h
    · next hup =>
      rw [(downward_iff _).2 hup, if_neg Bool.false_ne_true]
      split at h
      · next hroot =>
        obtain rfl := Option.some.inj h
        rw [if_neg hroot, relayUp_eq hm]
        exact finishSame_of_mem rfl
      · next hroot =>
        obtain rfl := Decidable.not_not.1 hroot
        rw [if_pos rfl]
        split at h
        · next hagain =>
          obtain rfl := Option.some.inj h
          rw [returnNotice_again hagain]
          exact finishSame_of_mem rfl
        · next hfirst =>
          obtain rfl := Option.some.inj h
          rw [returnNotice_first hfirst]
          exact finishSame_of_mem (sentDown_mem _ _ (m.ply + 2) (m.bits ||| BitVec.twoPow 128 15))
    · next hdown =>
      rw [(Bool.not_eq_false _).mp (mt (downward_iff _).1 hdown), if_pos rfl, relayDown_eq hm, dropMsg_eq_takenOff]
      generalize hu : (if chip = s.root then takenOff s m else sentDown (takenOff s m) chip (m.ply + 2) m.bits) = u at h ⊢
      obtain ⟨hmem, hports, hhere⟩ : u.mem = s.mem ∧ u.ports = s.ports ∧ u.chip chip = s.chip chip := by
        rw [← hu]
        split
        · exact ⟨rfl, rfl, rfl⟩
        · next hroot => exact ⟨sentDown_mem .., sentDown_keeps hroot⟩
      have hengines : hasEngines u chip ↔ hasEngines s chip := by
        unfold hasEngines portsAt State.port
        rw [hports, hhere]
      have hheader : recoveryHeader u chip = recoveryHeader s chip := by
        unfold recoveryHeader tableNat
        rw [hmem]
      split at h
      · next hother =>
        obtain rfl := Option.some.inj h
        rw [applyNotice_ignored (by rw [hhere, hengines]; exact hother)]
        exact finishSame_of_mem hmem
      · next hmine =>
        split at h
        · next hmanual =>
          obtain rfl := Option.some.inj h
          obtain ⟨htag, hjob⟩ := not_or.1 hmine
          rw [applyNotice_manual (by rw [hhere]; exact Decidable.not_not.1 htag) (by rw [hhere, hengines]; exact hjob)
            (by rw [hhere]; exact hmanual.1) (hheader.trans hmanual.2)]
          exact finishSame_of_mem hmem
        · exact nomatch h
  · exact nomatch h

/-! ## The states of a package (R487 to R489) -/

theorem watchdog_row (h : rowPackage s (.managementWatchdog chip) = some t) : exec (.managementWatchdog chip) s = .next t := by
  unfold rowPackage at h
  dsimp only at h
  split at h
  · next hover =>
    obtain rfl := Option.some.inj h
    have hdue : (s.chip chip).overTime = true := by
      unfold Chip.overTime
      simpa [BitVec.le_def, and_assoc] using hover
    refine (if_pos hdue).trans ?_
    unfold expireWatchdog
    simp only [stopCores_eq_coresStopped]
    refine finishSame_of_mem ?_
    split
    · exact coresStopped_mem ..
    · rfl
  · exact nomatch h

theorem selfTest_row (h : rowPackage s (.selfTest chip) = some t) : exec (.selfTest chip) s = .next t := by
  have hcores : (fun e : Nat × Core => chipOf e.1 != chip) = fun e => decide (e.1 / 1536 ≠ chip) := by
    funext e; rw [Bool.eq_iff_iff]; simp [chipOf]
  have htags : (fun x : Nat × Bool => (16 * x.1) >>> 48 != chip) = fun x => decide (16 * x.1 / 2 ^ 48 ≠ chip) := by
    funext x; rw [Bool.eq_iff_iff]; simp [Nat.shiftRight_eq_div_pow]
  have hbytes : (fun x : Host.Cell => decide (x.1 >>> 48 = chip) && decide (addrWin x.1 = 0)) =
      fun x => decide (x.1 / 2 ^ 48 = chip ∧ addrWin x.1 = 0) := by
    funext x; rw [Bool.eq_iff_iff]; simp [Nat.shiftRight_eq_div_pow]
  unfold rowPackage at h
  dsimp only at h
  split at h
  · next hstate =>
    obtain rfl := Option.some.inj h
    refine (if_pos hstate).trans ?_
    unfold passSelfTest
    dsimp only
    rw [hcores, htags, hbytes]
    rfl
  · exact nomatch h

theorem powerOn_row (h : rowPackage s (.powerOn chip) = some t) : exec (.powerOn chip) s = .next t := by
  unfold rowPackage at h
  dsimp only at h
  change finishSame s (if (s.chip chip).bstate = 0 then s.setChip chip { s.chip chip with bstate := 1 } else s) = _
  split at h
  · next hoff =>
    obtain rfl := Option.some.inj h
    rw [if_pos hoff]
    rfl
  · next hoff =>
    obtain rfl := Option.some.inj h
    rw [if_neg hoff]
    rfl

theorem firmware_row {result : BitVec 2} (h : rowPackage s (.firmwareCheck chip result) = some t) :
    exec (.firmwareCheck chip result) s = .next t := by
  unfold rowPackage at h
  dsimp only at h
  change finishSame s (endFirmwareCheck s chip result) = _
  unfold endFirmwareCheck
  split at h
  · next hready =>
    obtain rfl := Option.some.inj h
    rw [if_pos (by simpa using hready)]
    rfl
  · next hready =>
    obtain rfl := Option.some.inj h
    rw [if_neg (by simpa using hready)]
    rfl

end

theorem packageRows {s t : State} {i : Instr} (h : rowPackage s i = some t) : exec i s = .next t := by
  have hrow := h
  unfold rowPackage at h
  cases i
  case preemptionNotice => exact preemption_row hrow
  case resumeNotice => exact resume_row hrow
  case faultNotice => exact faultNotice_row hrow
  case podJoin => obtain rfl := Option.some.inj h; rfl
  case managementWatchdog => exact watchdog_row hrow
  case powerOn => exact powerOn_row hrow
  case selfTest => exact selfTest_row hrow
  case firmwareCheck => exact firmware_row hrow
  case attestation => obtain rfl := Option.some.inj h; rfl
  all_goals exact nomatch h

/-- Settles O42, row by row. -/
theorem packageEvents : Obligations.PackageEvents := fun _ _ _ h => h.elim tempoRows packageRows

end Sys2Proof.Proofs.Packages
end
end

