-- ==== Sys2Proof/Proofs/CoreEvents.lean ====
section
/-! Deferred events, watches, commands of a core, save and restore. -/

noncomputable section

namespace Sys2Proof.Proofs.CoreRows

open Sys2Proof.Machine Sys2Proof.Safety Sys2Proof.Proofs.Fabric Sys2Proof.Proofs.Accesses Sys2Proof.Proofs.HostSide

section
variable {s t : State} {n : Nat}

/-! ## The least of a list -/

theorem minBy_le {α : Type} {key : α → Nat} {l : List α} {y : α} (h : minBy key l = some y) : ∀ z ∈ l, key y ≤ key z := by
  induction l generalizing y with
  | nil => exact nomatch h
  | cons x xs ih =>
    unfold minBy at h
    cases hxs : minBy key xs with
    | none =>
      rw [hxs] at h
      obtain rfl := Option.some.inj h
      cases xs with
      | nil => simp
      | cons a as =>
        unfold minBy at hxs
        split at hxs
        · exact nomatch hxs
        · split at hxs <;> exact nomatch hxs
    | some w =>
      rw [hxs] at h
      dsimp only at h
      have hw := ih hxs
      split at h
      · next hle =>
        obtain rfl := Option.some.inj h
        exact List.forall_mem_cons.2 ⟨Nat.le_refl _, fun z hz => Nat.le_trans hle (hw z hz)⟩
      · next hlt =>
        obtain rfl := Option.some.inj h
        exact List.forall_mem_cons.2 ⟨Nat.le_of_not_le hlt, hw⟩

theorem minBy_eq_none {α : Type} {key : α → Nat} {l : List α} (h : minBy key l = none) : l = [] := by
  cases l with
  | nil => rfl
  | cons x xs =>
    unfold minBy at h
    split at h
    · exact nomatch h
    · split at h <;> exact nomatch h

/-- The least element that `minBy` takes is the first whose key is at most that of every element. -/
theorem minBy_eq_find? {α : Type} (key : α → Nat) (l : List α) : minBy key l = l.find? (fun x => l.all (fun y => key x ≤ key y)) := by
  induction l with
  | nil => rfl
  | cons x xs ih =>
    unfold minBy
    rw [List.find?_cons]
    cases hxs : minBy key xs with
    | none =>
      rw [minBy_eq_none hxs]
      simp
    | some y =>
      have hy := minBy_le hxs
      have hyxs : y ∈ xs := List.mem_of_find?_eq_some (ih ▸ hxs)
      dsimp only
      by_cases hle : key x ≤ key y
      · have hleast : (x :: xs).all (fun z => key x ≤ key z) = true := by
          simp only [List.all_cons, List.all_eq_true, Nat.le_refl, decide_true, Bool.true_and, decide_eq_true_eq]
          exact fun z hz => Nat.le_trans hle (hy z hz)
        rw [if_pos hle, hleast]
      · have hmore : (x :: xs).all (fun z => key x ≤ key z) = false := by
          rw [← Bool.not_eq_true, List.all_eq_true]
          exact fun h => hle (by simpa using h y (List.mem_cons_of_mem _ hyxs))
        rw [if_neg hle, hmore, ← hxs, ih]
        refine List.find?_congr fun z hz => ?_
        have hiff : (∀ w ∈ xs, key z ≤ key w) ↔ (∀ w ∈ x :: xs, key z ≤ key w) := by
          refine ⟨fun h => List.forall_mem_cons.2 ⟨?_, h⟩, fun h => (List.forall_mem_cons.1 h).2⟩
          exact Nat.le_of_lt (Nat.lt_of_le_of_lt (h y hyxs) (Nat.lt_of_not_le hle))
        rw [Bool.eq_iff_iff, List.all_eq_true, List.all_eq_true]
        simpa using hiff

theorem lowestOf_eq (l : List Raised) : lowestOf l = minBy Raised.key l := (minBy_eq_find? ..).symm

/-! ## Traps and deferred events (R35, R38, R384, R385) -/

theorem makeTcause_eq_causeWord (dbl : Bool) (leaf : Nat) (slot : Option Nat) (sub num : Nat) :
    makeTcause dbl leaf slot sub num = causeWord dbl leaf slot sub num := by
  have hreverse (d l k b m : Nat) : d + l + k + b + m = m + b + k + l + d := by omega
  unfold makeTcause causeWord
  cases slot with
  | none =>
    dsimp only
    rw [hreverse, Nat.shiftLeft_eq, Nat.shiftLeft_eq]
  | some k =>
    dsimp only
    rw [hreverse, Nat.add_comm (2 ^ 23), Nat.shiftLeft_eq, Nat.shiftLeft_eq, Nat.shiftLeft_eq]

theorem takeTrap_eq_trapped (s : State) (n num sub : Nat) (slot : Option Nat) (leaf : Nat) (tval : Word) (addr : Nat) :
    takeTrap s n num sub slot leaf tval addr = onCore s n (trapped s num sub slot leaf tval addr) := by
  have hvec : (s.core n).tvec.toNat % 2 = 0 ↔ (s.core n).tvec.getLsbD 0 = false := by
    rw [BitVec.getLsbD, Nat.testBit_zero, decide_eq_false_iff_not]
    omega
  unfold takeTrap onCore trapped
  simp only [makeTcause_eq_causeWord, Nat.shiftRight_eq_div_pow, Nat.shiftLeft_eq, hvec]
  split
  · rfl
  · cases (s.core n).tvec.getLsbD 0 <;> rfl

theorem raiseDeferred_eq (s : State) (n src ch due num sub : Nat) (tval : Word) :
    raiseDeferred s n { src := src, ch := ch, due := due, num := num, sub := sub, tval := tval } =
      onCore s n (raising src ch due num sub tval) := by
  have hlost : ∀ x : BitVec 8, (if x = 255 then 255 else x + 1) = BitVec.ofNat 8 (min 255 (x.toNat + 1)) := by decide
  have hheld : (s.core n).dev.any (fun e => e.same src ch) = true ↔ ∃ e ∈ (s.core n).dev, e.src = src ∧ e.ch = ch := by
    simp [Deferred.same]
  unfold raiseDeferred onCore raising
  simp only [hheld, hlost]
  split <;> rfl

theorem takeable_eq_mayTake (s : State) (c : Core) : c.takeable s.now = mayTake s c := by
  have hmay : (fun d : Deferred => decide (d.due ≤ s.now) && (decide (d.num = 0x16) || decide (d.num = 0x17) || !c.intrap)) =
      fun d => decide (d.due ≤ s.now ∧ (c.intrap = false ∨ d.num = 0x16 ∨ d.num = 0x17)) := by
    funext d
    rw [Bool.eq_iff_iff]
    simp only [Bool.and_eq_true, Bool.or_eq_true, decide_eq_true_eq, Bool.not_eq_true']
    tauto
  unfold Core.takeable mayTake
  rw [hmay]

/-! ## The report on an undecided bundle (R10, R384, R390) -/

theorem bundleCause_eq (s : State) (more : List Raised) :
    bundleCause (asIssued s) (asIssued s).cur s.bundleAddr s.cur.outs more = lowestOf (causesOf s ++ more) := by
  rw [lowestOf_eq]
  rfl

/-- The state after an event that an undecided bundle takes. -/
def eventTaken (s : State) (d : Deferred) : State :=
  onCore (asIssued s) s.cur.core (fun c => trapped s d.num d.sub none (leafOf s.cur.outs) d.tval s.bundleAddr (c.dropEvent s.now d))

theorem takeDeferred_eq (s : State) (d : Deferred) :
    takeDeferred (asIssued s) s.cur.core s.bundleAddr (leafOf s.cur.outs) d = eventTaken s d := by
  unfold takeDeferred eventTaken
  rw [takeTrap_eq_trapped, onCore, onCore, State.core_setCore_same, State.setCore_setCore]
  rfl

/-- The report on an undecided bundle, of an event that it may take and a cause of its own. -/
def reportOf (s : State) (event : Option Deferred) (cause : Option Raised) : State :=
  match event, cause with
  | some d, some r =>
    if d.num ≤ r.what.num then takeDeferred (asIssued s) s.cur.core s.bundleAddr (leafOf s.cur.outs) d
    else takeTrap (asIssued s) s.cur.core r.what.num r.what.sub r.slot (leafOf s.cur.outs) r.what.tval s.bundleAddr
  | some d, none => takeDeferred (asIssued s) s.cur.core s.bundleAddr (leafOf s.cur.outs) d
  | none, some r => takeTrap (asIssued s) s.cur.core r.what.num r.what.sub r.slot (leafOf s.cur.outs) r.what.tval s.bundleAddr
  | none, none => asIssued s

theorem reportUndecided_eq (s : State) (more : List Raised) :
    reportUndecided s more = reportOf s (s.curCore.bestEvent s.now) (lowestOf (causesOf s ++ more)) := by
  rw [← bundleCause_eq]
  rfl

theorem reportUndecided_cause {more : List Raised} {r : Raised} (hr : lowestOf (causesOf s ++ more) = some r)
    (hd : ∀ d, s.curCore.bestEvent s.now = some d → r.what.num < d.num) : reportUndecided s more = trapsAt s r := by
  rw [reportUndecided_eq, hr]
  cases hevent : s.curCore.bestEvent s.now with
  | none => exact takeTrap_eq_trapped ..
  | some d => exact (if_neg (Nat.not_le.2 (hd d hevent))).trans (takeTrap_eq_trapped ..)

theorem reportUndecided_event {more : List Raised} {d : Deferred} (hd : s.curCore.bestEvent s.now = some d)
    (hr : ∀ r, lowestOf (causesOf s ++ more) = some r → d.num ≤ r.what.num) : reportUndecided s more = eventTaken s d := by
  rw [reportUndecided_eq, hd]
  cases hcause : lowestOf (causesOf s ++ more) with
  | none => exact takeDeferred_eq ..
  | some r => exact (if_pos (hr r hcause)).trans (takeDeferred_eq ..)

theorem bestEvent_eq (s : State) (c : Core) (hch : ∀ e ∈ c.dev, e.ch < 4) :
    c.bestEvent s.now =
      (mayTake s c).find? (fun d => (mayTake s c).all (fun e => d.num < e.num || (d.num = e.num && d.ch ≤ e.ch))) := by
  unfold Core.bestEvent
  rw [takeable_eq_mayTake, minBy_eq_find?]
  refine List.find?_congr fun d hd => ?_
  have hd4 := hch d (List.mem_of_mem_filter hd)
  rw [Bool.eq_iff_iff, List.all_eq_true, List.all_eq_true]
  refine forall₂_congr fun e he => ?_
  have he4 := hch e (List.mem_of_mem_filter he)
  simp only [decide_eq_true_eq, Bool.or_eq_true, Bool.and_eq_true]
  omega

theorem dropFirst_congr {α : Type} {p q : α → Bool} {l : List α} (h : ∀ x ∈ l, p x = q x) : dropFirst p l = dropFirst q l := by
  induction l with
  | nil => rfl
  | cons x xs ih =>
    unfold dropFirst
    rw [h x (List.mem_cons_self ..), ih fun y hy => h y (List.mem_cons_of_mem _ hy)]

theorem dropEvent_eq_taking {d : Deferred} {c : Core} (honly : ∀ e ∈ c.dev, e.src = d.src → e.ch = d.ch → e = d) :
    c.dropEvent s.now d = taking s d c := by
  have hsame : dropFirst (fun e => e.same d.src d.ch) c.dev = c.dev.erase d := by
    rw [← dropFirst_eq_erase]
    refine dropFirst_congr fun e he => ?_
    rw [Bool.eq_iff_iff]
    simp only [Deferred.same, Bool.and_eq_true, decide_eq_true_eq]
    exact ⟨fun h => honly e he h.1 h.2, fun h => h ▸ ⟨rfl, rfl⟩⟩
  unfold Core.dropEvent taking
  simp only [hsame, List.any_eq_true, decide_eq_true_eq]

theorem undecided_iff (s : State) (n : Nat) : s.undecided n = true ↔ s.cur.left = 0 ∧ s.cur.core = n := by
  simp [State.undecided]

theorem eventTaken_row (h : rowCore s (.deferredEventTaken n) = some t) : exec (.deferredEventTaken n) s = .next t := by
  unfold rowCore at h
  dsimp only at h
  split at h
  · next d hd =>
    split at h
    · next hc =>
      obtain ⟨hleft, rfl, hdev⟩ := hc
      have hmay : (mayTake s (s.core s.cur.core)).isEmpty = false :=
        List.isEmpty_eq_false_iff.2 (List.ne_nil_of_mem (List.mem_of_find?_eq_some hd))
      have hbest : s.curCore.bestEvent s.now = some d := (bestEvent_eq s _ fun e he => (hdev e he).1).trans hd
      have hreport : reportUndecided s [] = t ∧ t.mem = s.mem := by
        have hevent : eventTaken s d = onCore (asIssued s) s.cur.core (fun c =>
            trapped s d.num d.sub none (leafOf s.cur.outs) d.tval s.bundleAddr (taking s d c)) := by
          unfold eventTaken onCore
          rw [show (asIssued s).core s.cur.core = s.core s.cur.core from rfl]
          exact congrArg (fun c => (asIssued s).setCore s.cur.core (trapped s d.num d.sub none (leafOf s.cur.outs) d.tval s.bundleAddr c))
            (dropEvent_eq_taking fun e he => (hdev e he).2)
        split at h
        · next r hr =>
          split at h
          · next hlt =>
            obtain rfl := Option.some.inj h
            refine ⟨reportUndecided_cause (by rw [List.append_nil]; exact hr) fun e he => ?_, rfl⟩
            obtain rfl := Option.some.inj (hbest.symm.trans he)
            exact hlt
          · next hge =>
            obtain rfl := Option.some.inj h
            refine ⟨(reportUndecided_event hbest fun x hx => ?_).trans hevent, rfl⟩
            rw [List.append_nil, hr] at hx
            obtain rfl := Option.some.inj hx
            exact Nat.le_of_not_lt hge
        · next hnone =>
          obtain rfl := Option.some.inj h
          refine ⟨(reportUndecided_event hbest fun x hx => ?_).trans hevent, rfl⟩
          rw [List.append_nil, hnone] at hx
          exact nomatch hx
      refine (if_pos ?_).trans ?_
      · rw [takeable_eq_mayTake, hmay, (undecided_iff s s.cur.core).2 ⟨hleft, rfl⟩]
        rfl
      · rw [hreport.1]
        exact finishSame_of_mem hreport.2
    · exact nomatch h
  · exact nomatch h

theorem waitWatchdog_row (h : rowCore s (.waitWatchdog n) = some t) : exec (.waitWatchdog n) s = .next t := by
  unfold rowCore at h
  dsimp only at h
  split at h
  · next hc =>
    obtain ⟨hleft, rfl, hlim, hover, hnone⟩ := hc
    obtain ⟨r, hr, rfl⟩ := Option.map_eq_some_iff.1 h
    refine (if_pos ?_).trans ?_
    · rw [takeable_eq_mayTake, hnone, (undecided_iff s s.cur.core).2 ⟨hleft, rfl⟩]
      simpa [Core.waitOver] using ⟨hlim, hover⟩
    · rw [show reportUndecided s [waitCause (s.core s.cur.core)] = trapsAt s r from reportUndecided_cause hr ?_]
      · exact finishSame_of_mem rfl
      · intro d hd
        unfold Core.bestEvent at hd
        rw [takeable_eq_mayTake, show mayTake s s.curCore = [] from hnone] at hd
        exact nomatch hd
  · exact nomatch h

/-! ## Watches (R389, R392) -/

theorem raiseNow_setCore (s : State) (n src num sub : Nat) (tval : Word) (c : Core) :
    raiseNow (s.setCore n c) n src num sub tval = s.setCore n (raising src 0 s.now num sub tval c) := by
  unfold raiseNow
  rw [raiseDeferred_eq, onCore, State.core_setCore_same, State.setCore_setCore]
  rfl

theorem watchdog_row (h : rowCore s (.watchdog n) = some t) : exec (.watchdog n) s = .next t := by
  unfold rowCore at h
  dsimp only at h
  split at h
  · next hc =>
    obtain rfl := Option.some.inj h
    refine (if_pos (by simpa [Core.watchdogDue, and_assoc] using hc)).trans ?_
    unfold fireWatchdog
    rw [raiseNow_setCore]
    exact finishSame_of_mem rfl
  · exact nomatch h

theorem preemptTimeout_row (h : rowCore s (.preemptTimeout n) = some t) : exec (.preemptTimeout n) s = .next t := by
  unfold rowCore at h
  dsimp only at h
  split at h
  · next hc =>
    obtain rfl := Option.some.inj h
    refine (if_pos (by simpa [Core.tooLate, Core.announced, and_assoc] using hc)).trans ?_
    unfold firePreempt
    rw [raiseNow_setCore]
    exact finishSame_of_mem rfl
  · exact nomatch h

/-! ## Commands (R142, R386, R387) -/

theorem go_row {vec : Bool} (h : rowCore s (.go n vec) = some t) : exec (.go n vec) s = .next t := by
  unfold rowCore at h
  dsimp only at h
  change finishSame s (goCore s n vec) = _
  have htpc : (s.core n).tpc.toNat / 2 ^ 22 ≠ 0 ↔ 2 ^ 22 ≤ (s.core n).tpc.toNat := by omega
  unfold goCore
  simp only [bne_iff_ne, Nat.shiftRight_eq_div_pow, Nat.shiftLeft_eq]
  split at h
  · next hstays =>
    obtain rfl := Option.some.inj h
    obtain hrun | ⟨rfl, hfar⟩ := hstays
    · rw [if_pos hrun]
      rfl
    · rw [if_neg Bool.false_ne_true, if_pos (htpc.2 hfar), ite_self]
      rfl
  · next hgoes =>
    obtain rfl := Option.some.inj h
    obtain ⟨hhalted, htarget⟩ := not_or.1 hgoes
    rw [if_neg hhalted]
    cases vec with
    | true => exact finishSame_of_mem rfl
    | false =>
      rw [if_neg Bool.false_ne_true, if_neg (mt htpc.1 fun hfar => htarget ⟨rfl, hfar⟩)]
      exact finishSame_of_mem rfl

theorem stop_row (h : rowCore s (.stop n) = some t) : exec (.stop n) s = .next t := by
  unfold rowCore at h
  dsimp only at h
  change finishSame s (stopCore s n) = _
  unfold stopCore Core.actsRunning
  simp only [Bool.or_eq_true, Bool.and_eq_true, decide_eq_true_eq]
  split at h
  · next hruns =>
    obtain rfl := Option.some.inj h
    rw [if_pos hruns]
    exact finishSame_of_mem rfl
  · next hruns =>
    obtain rfl := Option.some.inj h
    rw [if_neg hruns]
    exact finishSame_of_mem rfl

theorem idle_iff (s : State) (c : Core) : (c.isIdle s.now || c.starting s.now) = true ↔ foundIdle s c := by
  simp [Core.isIdle, Core.starting]

theorem save_row (h : rowCore s (.save n) = some t) : exec (.save n) s = .next t := by
  have hignored : (!((s.core n).isIdle s.now || (s.core n).starting s.now || (s.core n).run = .halted) || (s.core n).saving.isSome ||
      (s.core n).restoring.isSome) = true ↔
      ¬(foundIdle s (s.core n) ∨ (s.core n).run = .halted) ∨ (s.core n).saving ≠ none ∨ (s.core n).restoring ≠ none := by
    rw [← idle_iff]
    simp [Option.isSome_iff_ne_none, or_assoc, and_assoc]
  unfold rowCore at h
  dsimp only at h
  change finishSame s (saveCore s n) = _
  unfold saveCore
  split at h
  · next hc =>
    obtain rfl := Option.some.inj h
    rw [if_pos (hignored.2 hc)]
    exact finishSame_of_mem rfl
  · next hc =>
    obtain rfl := Option.some.inj h
    rw [if_neg (mt hignored.1 hc)]
    exact finishSame_of_mem rfl

theorem qstat_row {v : BitVec 64} (h : rowCore s (.qstatWrite n v) = some t) : exec (.qstatWrite n v) s = .next t := by
  have hcount : (if v.toNat % 4 = 3 then (2 : BitVec 2) else BitVec.ofNat 2 (v.toNat % 4)) = BitVec.ofNat 2 (min 2 (v.toNat % 4)) := by
    have hlt : v.toNat % 4 < 4 := Nat.mod_lt _ (by decide)
    generalize v.toNat % 4 = k at hlt
    revert k
    decide
  unfold rowCore at h
  dsimp only at h
  change finishSame s (writeQstat s n v) = _
  unfold writeQstat
  simp only [hcount, Bool.or_eq_true, decide_eq_true_eq, bne_iff_ne]
  split at h
  · next hc =>
    obtain rfl := Option.some.inj h
    rw [if_pos hc]
    exact finishSame_of_mem rfl
  · next hc =>
    obtain rfl := Option.some.inj h
    rw [if_neg hc]
    exact finishSame_of_mem rfl

theorem csbase_row {v : BitVec 64} (h : rowCore s (.csbaseWrite n v) = some t) : exec (.csbaseWrite n v) s = .next t := by
  have hbase : (v.setWidth 22).toNat = v.toNat % 2 ^ 22 := BitVec.toNat_setWidth ..
  have hofNat : v.setWidth 22 = BitVec.ofNat 22 (v.toNat % 2 ^ 22) := BitVec.eq_of_toNat_eq (by simp)
  have hckv : (if v.setWidth 22 = (s.core n).csbase then (s.core n).ckv else false) =
      ((s.core n).ckv && v.toNat % 2 ^ 22 == (s.core n).csbase.toNat) := by
    rw [← hbase]
    by_cases heq : v.setWidth 22 = (s.core n).csbase
    · simp [heq]
    · rw [if_neg heq, beq_eq_false_iff_ne.2 (mt BitVec.eq_of_toNat_eq heq), Bool.and_false]
  unfold rowCore at h
  dsimp only at h
  change finishSame s (writeCsbase s n v) = _
  unfold writeCsbase
  dsimp only
  rw [hckv, hbase, hofNat]
  simp only [Bool.or_eq_true, decide_eq_true_eq, bne_iff_ne]
  split at h
  · next hc =>
    obtain rfl := Option.some.inj h
    rw [if_pos hc]
    exact finishSame_of_mem rfl
  · next hc =>
    obtain rfl := Option.some.inj h
    rw [if_neg hc]
    exact finishSame_of_mem rfl

theorem actag_row {chip k : Nat} {v : BitVec 64} (h : rowCore s (.actagWrite chip k v) = some t) :
    exec (.actagWrite chip k v) s = .next t := by
  unfold rowCore at h
  dsimp only at h
  change finishSame s (writeActag s chip k v) = _
  unfold writeActag
  split at h
  · next hc =>
    obtain rfl := Option.some.inj h
    rw [if_pos hc]
    exact finishSame_of_mem rfl
  · next hc =>
    obtain rfl := Option.some.inj h
    rw [if_neg hc]
    exact finishSame_of_mem rfl

end
end Sys2Proof.Proofs.CoreRows
end
end

