-- ==== Sys2Proof/Proofs/SaveAreas.lean ====
section
/-! The save area of a core: its granules, a save's writes, a restore's reads, and the start after a resume. -/

noncomputable section

namespace Sys2Proof.Proofs.CoreRows

open Sys2Proof.Machine Sys2Proof.Safety Sys2Proof.Proofs.Fabric Sys2Proof.Proofs.Accesses Sys2Proof.Proofs.HostSide
  Sys2Proof.Proofs.Bytes

section
variable {s t : State} {n : Nat}

/-! ## Runs of granules (R396) -/

theorem nextRun_cons (off k : Nat) (rest : List (Nat × Nat)) : nextRun ((off, k) :: rest) = some (off, afterFirst off k rest) := by
  change (if k ≤ 1 then some (off, rest) else some (off, (off + 64, k - 1) :: rest)) = _
  unfold afterFirst
  split <;> rfl

theorem brineRuns_eq_brineArea (b : Nat) : brineRuns b = brineArea b := by
  unfold brineRuns brineArea
  simp only [bit_eq_testBit, Lanes.rangeFrom_zero]

theorem bankRuns_eq_bankArea (b : Nat) : bankRuns b = bankArea b := by
  unfold bankRuns bankArea
  simp only [bit_eq_testBit, Lanes.rangeFrom_zero]

theorem tileRuns_eq (t : Nat) : tileRuns t = tileArea t ++ accArea t := by
  unfold tileRuns tileArea accArea
  simp only [bit_eq_testBit, Lanes.rangeFrom_zero]

/-! ## Restore (R398) -/

theorem zeroedBut_eq (t : Nat) (c : Core) :
    (rangeFrom 0 2).foldl (fun c i => if bit t (16 + i) then c else c.zeroAcc i)
      ((rangeFrom 0 16).foldl (fun c i => if bit t i then c else c.setTile i 0) c) = zeroedBut t c := by
  unfold zeroedBut
  simp only [bit_eq_testBit, Lanes.rangeFrom_zero]

/-- The tiles and accumulators, and the brine registers and banks, that the header of the save area selects (R398). -/
def restoredTiles (s : State) (n : Nat) : Nat :=
  if (readNat (s.code n) (areaByte s n 0) 4).testBit 1 then
    readNat (s.code n) (areaByte s n 0x2288) 4 ||| readNat (s.code n) (areaByte s n 0x2290) 4
  else readNat (s.code n) (areaByte s n 0x18) 4
def restoredBanks (s : State) (n : Nat) : Nat :=
  if (readNat (s.code n) (areaByte s n 0) 4).testBit 1 then 2 ^ 22 - 1 else readNat (s.code n) (areaByte s n 0x1C) 4

theorem restoreCore_eq (hidle : foundIdle s (s.core n)) (hsaving : (s.core n).saving = none) (hrestoring : (s.core n).restoring = none) :
    restoreCore s n = onCore s n (fun c => { zeroedBut (restoredTiles s n) c with
      resume := none
      restoring := some { todo := restoreOrder (restoredTiles s n) (restoredBanks s n), next := s.now, base := c.csbase, header := 0,
                          tvals := 0, offs := [] } }) := by
  unfold restoreCore
  refine (if_neg ?_).trans ?_
  · rw [hsaving, hrestoring, (idle_iff s _).2 hidle]
    simp
  · have htiles : (if bit (readNat (s.code n) (coreBase n + (s.core n).csbase.toNat) 4) 1 then
        readNat (s.code n) (coreBase n + (s.core n).csbase.toNat + 0x2288) 4 |||
          readNat (s.code n) (coreBase n + (s.core n).csbase.toNat + 0x2290) 4
        else readNat (s.code n) (coreBase n + (s.core n).csbase.toNat + 0x18) 4) = restoredTiles s n := by
      unfold restoredTiles areaByte
      simp only [bit_eq_testBit, Nat.add_zero]
    have hbanks : (if bit (readNat (s.code n) (coreBase n + (s.core n).csbase.toNat) 4) 1 then 0x3FFFFF
        else readNat (s.code n) (coreBase n + (s.core n).csbase.toNat + 0x1C) 4) = restoredBanks s n := by
      unfold restoredBanks areaByte
      simp only [bit_eq_testBit, Nat.add_zero, Nat.reducePow, Nat.reduceSub]
    dsimp only
    rw [htiles, hbanks, zeroedBut_eq, brineRuns_eq_brineArea, bankRuns_eq_bankArea, tileRuns_eq, ← List.append_assoc (brineArea _ ++ _)]
    rfl

theorem restore_row (h : rowCore s (.restore n) = some t) : exec (.restore n) s = .next t := by
  unfold rowCore at h
  dsimp only at h
  split at h
  · next v hv =>
    change (match (s.core n).restoring with
      | some v => if v.next ≤ s.now then finishSame s (stepRestore s n v) else .next s
      | none => finishSame s (restoreCore s n)) = _
    rw [hv]
    dsimp only
    split at h
    · next off k rest htodo =>
      split at h
      · next hnext =>
        obtain rfl := Option.some.inj h
        rw [if_pos hnext]
        unfold stepRestore
        rw [htodo, nextRun_cons]
        exact finishSame_of_mem rfl
      · exact nomatch h
    · exact nomatch h
  · next hnone =>
    change (match (s.core n).restoring with
      | some v => if v.next ≤ s.now then finishSame s (stepRestore s n v) else .next s
      | none => finishSame s (restoreCore s n)) = _
    rw [hnone]
    dsimp only
    split at h
    · next hc =>
      obtain rfl := Option.some.inj h
      have hignored : restoreCore s n = s := by
        unfold restoreCore
        refine if_pos ?_
        rw [hnone]
        rw [← idle_iff] at hc
        simpa [Option.isSome_iff_ne_none] using hc
      rw [hignored]
      rfl
    · next hc =>
      obtain ⟨hidle, hsaving⟩ := not_or.1 hc
      obtain rfl := Option.some.inj h
      rw [restoreCore_eq (Decidable.not_not.1 hidle) (Decidable.not_not.1 hsaving) hnone]
      exact finishSame_of_mem rfl

/-! ## Save (R395 to R397) -/

theorem saveWrite_eq (s : State) (n off v : Nat) : saveWrite s n off 64 v none = withAccess s (savingWrite s n off v) := rfl

theorem foldl_fixed_mem {α β : Type} {f : β → α → β} {b : β} {l : List α} (h : ∀ x ∈ l, f b x = b) : l.foldl f b = b := by
  induction l with
  | nil => rfl
  | cons x xs ih => rw [List.foldl_cons, h x (List.mem_cons_self ..), ih fun y hy => h y (List.mem_cons_of_mem _ hy)]

/-- A granule without a capability is one write. -/
theorem saveGranule_untagged {v : Save} {off : Nat} (htag : ∀ i < 4, saveTag (s.core n) (off + 16 * i) = false) :
    saveGranule s n v off = withAccess s (savingWrite s n off (saveBytes s n v off)) := by
  unfold saveGranule
  dsimp only
  rw [← saveWrite_eq, Lanes.rangeFrom_zero]
  exact foldl_fixed_mem fun i hi => if_neg (ne_true_of_eq_false (htag i (List.mem_range.1 hi)))

theorem saveTag_data (c : Core) {off : Nat} (h : 0x4000 ≤ off ∨ off < 64) : saveTag c off = false := by
  unfold saveTag
  rw [if_neg (by simp; omega), if_neg (by simp; omega)]

/-- The bytes of a queue bank, a brine register or a tile. -/
theorem saveBytes_bank (s : State) (n : Nat) (v : Save) {off : Nat} (hlo : 0x4000 ≤ off) (hhi : off < 0x34000) :
    saveBytes s n v off =
      (((s.core n).queue ((off - 0x4000) / 512)).slot ((off - 0x4000) / 256 % 2)).toNat / 2 ^ (8 * (off % 256)) % 2 ^ 512 := by
  unfold saveBytes
  dsimp only
  rw [if_neg (by omega), if_neg (by omega), if_neg (by omega), if_neg (by omega), if_neg (by omega), if_neg (by omega), if_pos hhi,
    Nat.shiftRight_eq_div_pow]

theorem saveBytes_brine (s : State) (n : Nat) (v : Save) {off : Nat} (hlo : 0x34000 ≤ off) (hhi : off < 0x54000) :
    saveBytes s n v off = ((s.core n).breg ((off - 0x34000) / 8192)).toNat / 2 ^ (8 * (off % 8192)) % 2 ^ 512 := by
  unfold saveBytes
  dsimp only
  rw [if_neg (by omega), if_neg (by omega), if_neg (by omega), if_neg (by omega), if_neg (by omega), if_neg (by omega),
    if_neg (by omega), if_pos hhi, Nat.shiftRight_eq_div_pow]

theorem saveBytes_tile (s : State) (n : Nat) (v : Save) {off : Nat} (hlo : 0x54000 ≤ off) (hhi : off < 0x94000) :
    saveBytes s n v off =
      ((s.core n).tileOf ((off - 0x54000) / 0x4000)).toNat / 2 ^ (8 * ((off - 0x54000) % 0x4000)) % 2 ^ 512 := by
  unfold saveBytes
  dsimp only
  rw [if_neg (by omega), if_neg (by omega), if_neg (by omega), if_neg (by omega), if_neg (by omega), if_neg (by omega),
    if_neg (by omega), if_neg (by omega), if_pos hhi, Nat.shiftRight_eq_div_pow]

theorem savingWrite_onCore {f : Core → Core} (h : ∀ c, (f c).csbase = c.csbase) (s : State) (n off v : Nat) :
    savingWrite (onCore s n f) n off v = savingWrite s n off v := by
  unfold savingWrite areaByte onCore
  rw [State.core_setCore_same, h]
  rfl

/-- The core that a save goes on with after its next granule. -/
def savingOn (s : State) (n : Nat) (v : Save) (todo : List (Nat × Nat)) : State :=
  onCore s n (fun c => { c with saving := some { v with todo := todo, next := s.now + 1 } })

/-- A ply of a save that writes one granule without a capability. -/
theorem stepSave_eq {v0 v : Save} {off k b : Nat} {rest : List (Nat × Nat)} (hv : (if v0.begun then v0 else beginSave (s.core n) v0) = v)
    (htodo : v.todo = (off, k) :: rest) (hoff : 0x4000 ≤ off ∨ off = 0)
    (hb : saveBytes (savingOn s n v (afterFirst off k rest)) n v off = b) :
    stepSave s n v0 = withAccess (savingOn s n v (afterFirst off k rest)) (savingWrite s n off b) := by
  unfold stepSave
  dsimp only
  rw [hv, htodo, nextRun_cons]
  change saveGranule (savingOn s n v (afterFirst off k rest)) n v off = _
  rw [saveGranule_untagged fun i _ => saveTag_data _ (by omega), hb]
  exact congrArg (withAccess _)
    (savingWrite_onCore (f := fun c => { c with saving := some { v with todo := afterFirst off k rest, next := s.now + 1 } })
      (fun _ => rfl) s n off b)

/-- A save as it begins: what it writes, its header first. -/
def begunSave (c : Core) (v : Save) : Save :=
  { v with
    begun := true, tsaved := savedTiles c, bsaved := savedBanks c,
    todo := (0, 16) :: ([(0x2000, 128)] ++ bankArea (savedBanks c).toNat ++ brineArea (savedBanks c).toNat ++
      tileArea (savedTiles c).toNat ++ accArea (savedTiles c).toNat) }

theorem beginSave_eq (c : Core) (v : Save) : beginSave c v = begunSave c v := by
  have hfull : (!c.csmode || !c.ckv) = true ↔ ¬(c.csmode = true ∧ c.ckv = true) := by
    cases c.csmode <;> cases c.ckv <;> simp
  unfold beginSave begunSave savedTiles savedBanks
  simp only [hfull, brineRuns_eq_brineArea, bankRuns_eq_bankArea, tileRuns_eq, ite_not, List.append_assoc, List.cons_append,
    List.nil_append]

theorem shiftedFields (a b c d e f : Nat) :
    a + b <<< 32 + c <<< 64 + d <<< 128 + e <<< 192 + f <<< 224 + 0 <<< 256 + 0 <<< 320 =
      a + b * 2 ^ 32 + c * 2 ^ 64 + d * 2 ^ 128 + e * 2 ^ 192 + f * 2 ^ 224 := by
  rw [Nat.zero_shiftLeft, Nat.zero_shiftLeft, Nat.add_zero, Nat.shiftLeft_eq b, Nat.shiftLeft_eq c, Nat.shiftLeft_eq d,
    Nat.shiftLeft_eq e, Nat.shiftLeft_eq f]

/-- With no event pending, TPEND and the saved subcodes are zero. -/
theorem saveHeader_eq (v : Save) (hdev : (s.core n).dev = []) (hlost : (s.core n).lost = 0)
    (htiles : v.tsaved = savedTiles (s.core n)) (hbanks : v.bsaved = savedBanks (s.core n)) :
    saveHeader s n v = headerWord (s.core n) v := by
  have hpend : tpendWord (s.core n) s.now = 0 := by
    unfold tpendWord
    rw [hdev, hlost]
    rfl
  have hsubs (i : Nat) : pendingAt (s.core n) s.now i = none := by
    unfold pendingAt
    rw [hdev]
    rfl
  unfold saveHeader headerWord
  have hzero : joinPieces 8 ((rangeFrom 0 8).map fun _ => 0) = 0 := rfl
  have hnone : (0 : Word).toNat = 0 := rfl
  simp only [hpend, hsubs, htiles, hbanks, hzero, hnone, Nat.shiftLeft_eq v.kind.toNat]
  exact shiftedFields ..

theorem headerGranule {v : Save} (todo : List (Nat × Nat)) (hdev : (s.core n).dev = []) (hlost : (s.core n).lost = 0) :
    saveBytes (savingOn s n (begunSave (s.core n) v) todo) n (begunSave (s.core n) v) 0 = headerWord (s.core n) v := by
  have hcore : (savingOn s n (begunSave (s.core n) v) todo).core n =
      { s.core n with saving := some { begunSave (s.core n) v with todo := todo, next := s.now + 1 } } := State.core_setCore_same ..
  unfold saveBytes
  dsimp only
  rw [if_pos (by decide), saveHeader_eq]
  all_goals rw [hcore]
  · rfl
  · exact hdev
  · exact hlost
  · rfl
  · rfl

theorem contextSave_row (h : rowCore s (.contextSave n) = some t) : exec (.contextSave n) s = .next t := by
  unfold rowCore at h
  dsimp only at h
  split at h
  · next v hv =>
    change (match (s.core n).saving with
      | some v => if v.next ≤ s.now && (v.begun || drained s n) then finishSame s (stepSave s n v) else .next s
      | none => .next s) = _
    rw [hv]
    dsimp only
    split at h
    · next hc =>
      obtain ⟨hnext, hbegun⟩ := hc
      rw [if_pos (by simp [hnext, hbegun])]
      split at h
      · next off k rest htodo =>
        have hv' : (if v.begun then v else beginSave (s.core n) v) = v := if_pos hbegun
        have hcore : (savingOn s n v (afterFirst off k rest)).core n =
            { s.core n with saving := some { v with todo := afterFirst off k rest, next := s.now + 1 } } := State.core_setCore_same ..
        split at h
        · next hbank =>
          obtain rfl := Option.some.inj h
          rw [stepSave_eq hv' htodo (.inl hbank.1) (saveBytes_bank _ n v hbank.1 hbank.2), hcore]
          exact finishSame_of_mem rfl
        · split at h
          · next hbrine =>
            obtain rfl := Option.some.inj h
            rw [stepSave_eq hv' htodo (.inl (by omega)) (saveBytes_brine _ n v hbrine.1 hbrine.2), hcore]
            exact finishSame_of_mem rfl
          · split at h
            · next htile =>
              obtain rfl := Option.some.inj h
              rw [stepSave_eq hv' htodo (.inl (by omega)) (saveBytes_tile _ n v htile.1 htile.2), hcore]
              exact finishSame_of_mem rfl
            · exact nomatch h
      · exact nomatch h
    · split at h
      · next hc =>
        obtain ⟨hnext, hbegun, hdrained, hdev, hlost⟩ := hc
        rw [if_pos (by simp [hnext, hdrained])]
        obtain rfl := Option.some.inj h
        have hv' : (if v.begun then v else beginSave (s.core n) v) = begunSave (s.core n) v :=
          (if_neg (by simp [hbegun])).trans (beginSave_eq ..)
        rw [stepSave_eq hv' (rest := (begunSave (s.core n) v).todo.tail) rfl (.inr rfl) (headerGranule _ hdev hlost)]
        exact finishSame_of_mem rfl
      · exact nomatch h
  · exact nomatch h

/-! ## The start after a resume (R399) -/

theorem raiseSaved_none {r : Resume} (h : r.pend.toNat % 256 = 0) : raiseSaved s n r = s := by
  have hbits (i : Nat) (hi : i < 8) : r.pend.getLsbD i = false := by
    have hbit := Nat.testBit_mod_two_pow r.pend.toNat 8 i
    rw [show r.pend.toNat % 2 ^ 8 = 0 from h] at hbit
    simpa [hi, BitVec.getLsbD] using hbit
  unfold raiseSaved
  rw [Lanes.rangeFrom_zero]
  exact foldl_fixed_mem fun i hi => if_neg (ne_true_of_eq_false (hbits i (List.mem_range.1 hi)))

theorem countPly_running {c : Core} (hrun : c.run = .running) :
    countPly (s.setCore n c) n = s.setCore n { c with wdcnt := if c.wdlim = 0 then c.wdcnt else c.wdcnt + 1 } := by
  unfold countPly
  dsimp only
  rw [State.core_setCore_same]
  by_cases hlim : c.wdlim = 0
  · rw [if_neg (by simp [hlim]), if_pos hlim]
  · rw [if_pos (by simpa [hrun] using hlim), if_neg hlim, State.setCore_setCore]

/-- A core that starts at Q + O with no channel and no event of its resume left. -/
theorem stepResume_onTime {r : Resume} (hstart : (s.core n).startPly r = ((s.core n).rsply + r.o).toNat)
    (hdue : ((s.core n).rsply + r.o).toNat ≤ s.now) (hlate : r.doneAt < ((s.core n).rsply + r.o).toNat)
    (hstarted : r.started = false) (hchans : r.chans = []) (hpend : r.pend.toNat % 256 = 0) :
    stepResume s n r = onCore s n (fun c => { c with
      resume := none, rsply := BitVec.allOnes 64, run := .running, pc := BitVec.ofNat 22 r.rpc.toNat, nextIssue := s.now, held := 0,
      wait := none, wdcnt := if c.wdlim = 0 then c.wdcnt else c.wdcnt + 1 }) := by
  have hnow : (decide ((s.core n).startPly r ≤ s.now) && !r.started) = true := by
    rw [hstart, hstarted, decide_eq_true hdue]
    rfl
  have honTime : ¬(s.core n).resumePly r ≤ r.doneAt := Nat.not_le.2 hlate
  unfold stepResume
  dsimp only
  rw [if_pos hnow, if_neg honTime, raiseSaved_none hpend, hchans]
  simp only [List.filter_nil, List.foldl_nil, State.core_setCore_same, State.setCore_setCore, List.isEmpty_nil, if_true]
  rw [countPly_running rfl]
  rfl

theorem resumeStart_row (h : rowCore s (.resumeStart n) = some t) : exec (.resumeStart n) s = .next t := by
  unfold rowCore at h
  dsimp only at h
  split at h
  · next r hr =>
    change (match (s.core n).resume with
      | some r => if (s.core n).resumeDue s.now then finishSame s (stepResume s n r) else .next s
      | none => .next s) = _
    rw [hr]
    dsimp only
    split at h
    · next hc =>
      obtain ⟨hrestoring, hrsply, hstarted, hchans, hpend, hlate, hdue⟩ := hc
      obtain rfl := Option.some.inj h
      have hstart : (s.core n).startPly r = ((s.core n).rsply + r.o).toNat := if_neg (Nat.not_le.2 hlate)
      have hresume : (s.core n).resumeDue s.now = true := by
        unfold Core.resumeDue
        rw [hr, hrestoring]
        dsimp only
        rw [bne_iff_ne.2 hrsply, hstart, hstarted, decide_eq_true hdue]
        rfl
      rw [if_pos hresume]
      exact (congrArg (finishSame s) (stepResume_onTime hstart hdue hlate hstarted hchans hpend)).trans (finishSame_of_mem rfl)
    · exact nomatch h
  · exact nomatch h

end

/-- Settles O39, row by row. -/
theorem coreEvents : Obligations.CoreEvents := by
  intro s i t h
  have hrow := h
  unfold rowCore at h
  cases i
  case deferredEventTaken => exact eventTaken_row hrow
  case watchdog => exact watchdog_row hrow
  case waitWatchdog => exact waitWatchdog_row hrow
  case preemptTimeout => exact preemptTimeout_row hrow
  case go => exact go_row hrow
  case stop => exact stop_row hrow
  case save => exact save_row hrow
  case restore => exact restore_row hrow
  case qstatWrite => exact qstat_row hrow
  case csbaseWrite => exact csbase_row hrow
  case contextSave => exact contextSave_row hrow
  case resumeStart => exact resumeStart_row hrow
  case actagWrite => exact actag_row hrow
  all_goals exact nomatch h

end Sys2Proof.Proofs.CoreRows
end
end

