-- ==== Sys2Proof/Proofs/CompressionSteps.lean ====
section
/-! Compression steps of collectives: blocks of a chunk buffer, what each step writes for one, and the accesses of a ply. -/

noncomputable section

namespace Sys2Proof.Proofs.Collectives

open Sys2Proof.Machine Sys2Proof.Safety Sys2Proof.Proofs.Fabric Sys2Proof.Proofs.Accesses Sys2Proof.Proofs.Bytes
  Sys2Proof.Proofs.HostSide

/-! ## Parts of a little-endian number -/

theorem readNat_succ (m : List Host.Cell) (a n : Nat) : readNat m a (n + 1) = (readByte m a).toNat + 2 ^ 8 * readNat m (a + 1) n := by
  rw [readNat, Nat.shiftLeft_eq, Nat.mul_comm]

theorem readNat_lt (m : List Host.Cell) (a n : Nat) : readNat m a n < 2 ^ (8 * n) := by
  induction n generalizing a with
  | zero => exact Nat.one_pos
  | succ n ih =>
    have hbyte := (readByte m a).isLt
    have hrest := ih (a + 1)
    rw [readNat_succ, Nat.mul_succ, Nat.add_comm (8 * n), Nat.pow_add]
    omega

theorem readNat_div (m : List Host.Cell) (a n k : Nat) : readNat m a (k + n) / 2 ^ (8 * k) = readNat m (a + k) n := by
  induction k generalizing a with
  | zero => rw [Nat.zero_add, Nat.mul_zero, Nat.pow_zero, Nat.div_one, Nat.add_zero]
  | succ k ih =>
    have hbyte := (readByte m a).isLt
    rw [Nat.succ_add, readNat_succ, Nat.mul_succ, Nat.add_comm (8 * k), Nat.pow_add, ← Nat.div_div_eq_div_mul,
      Nat.add_mul_div_left _ _ (by decide), Nat.div_eq_of_lt hbyte, Nat.zero_add, ih, Nat.add_assoc, Nat.add_comm 1 k]

theorem readNat_mod (m : List Host.Cell) (a n k : Nat) : readNat m a (k + n) % 2 ^ (8 * k) = readNat m a k := by
  induction k generalizing a with
  | zero => exact Nat.mod_one _
  | succ k ih =>
    have hbyte := (readByte m a).isLt
    rw [Nat.succ_add, readNat_succ, readNat_succ, Nat.mul_succ, Nat.add_comm (8 * k), Nat.pow_add, Nat.mod_mul,
      Nat.add_mul_mod_self_left, Nat.mod_eq_of_lt hbyte, Nat.add_mul_div_left _ _ (by decide), Nat.div_eq_of_lt hbyte, Nat.zero_add, ih]

/-! ## Blocks (R458) -/

theorem blockElement_lt (s : State) (chip l off k : Nat) : blockElement s chip l off k < 2 ^ 32 := by
  rw [blockElement, numberAt_eq_readNat]
  exact readNat_lt ..

theorem readNat_part {m : List Host.Cell} {a n k r : Nat} : readNat m a (k + (n + r)) / 2 ^ (8 * k) % 2 ^ (8 * n) = readNat m (a + k) n := by
  rw [readNat_div, readNat_mod]

theorem readNat_element (m : List Host.Cell) (a k r : Nat) :
    readNat m a (4 * k + (4 + r)) / 2 ^ (32 * k) % 2 ^ 32 = readNat m (a + 4 * k) 4 := by
  have hpart := readNat_part (m := m) (a := a) (n := 4) (k := 4 * k) (r := r)
  rw [show 8 * (4 * k) = 32 * k by omega, show 8 * 4 = 32 from rfl] at hpart
  exact hpart

theorem linkAddr_add (chip l off k : Nat) : linkAddr chip l (off + k) = linkAddr chip l off + k := (Nat.add_assoc ..).symm

theorem blockAt_eq (s : State) (chip l off : Nat) : blockAt s chip l off = (List.range 32).map (blockElement s chip l off) := by
  unfold blockAt
  rw [splitPieces_eq_map_range]
  refine List.map_congr_left fun k hk => ?_
  have hsplit : 128 = 4 * k + (4 + (124 - 4 * k)) := by
    have := List.mem_range.1 hk
    omega
  rw [blockElement, numberAt_eq_readNat, linkAddr_add, hsplit, readNat_element]

/-! ## Lists over the elements of a block -/

theorem zipWith_map_map {α β γ δ : Type} (h : β → γ → δ) (f : α → β) (g : α → γ) (l : List α) :
    List.zipWith h (l.map f) (l.map g) = l.map (fun i => h (f i) (g i)) := by
  induction l with
  | nil => rfl
  | cons x xs ih => rw [List.map_cons, List.map_cons, List.zipWith_cons_cons, ih, List.map_cons]

theorem sum_map_filter {α : Type} (p : α → Bool) (f : α → Nat) (l : List α) :
    ((l.filter p).map f).sum = (l.map (fun i => if p i then f i else 0)).sum := by
  induction l with
  | nil => rfl
  | cons x xs ih => cases hx : p x <;> simp [hx, ih]

/-- Pieces above a first one, in their places. -/
theorem joinPieces_shift {α : Type} {w : Nat} {f : α → Nat} (hf : ∀ x, f x < 2 ^ w) (l : List α) :
    joinPieces w (l.map f) * 2 ^ w = (l.mapIdx (fun j x => f x * 2 ^ (w * (j + 1)))).sum := by
  induction l with
  | nil => exact Nat.zero_mul _
  | cons x xs ih =>
    rw [List.map_cons, joinPieces, Nat.mod_eq_of_lt (hf x), Nat.shiftLeft_eq, Nat.add_mul, ih, List.mapIdx_cons, List.sum_cons,
      Nat.zero_add, Nat.mul_one]
    refine congrArg (f x * 2 ^ w + ·) ?_
    rw [List.mapIdx_eq_zipIdx_map, List.mapIdx_eq_zipIdx_map, ← List.sum_map_mul_right]
    refine congrArg List.sum (List.map_congr_left fun y _ => ?_)
    rw [Nat.mul_assoc, ← Nat.pow_add, ← Nat.mul_succ]

/-! ## The steps, block by block (R459, R460) -/

section
variable {s t : State} {chip l : Nat} {w b : Nat}

theorem chosen_eq (k : Nat) (x : Nat → Nat) : Machine.chosen k ((List.range 32).map x) = (List.range 32).map (topOf k x) := by
  unfold Machine.chosen
  simp only [List.map_map, Tiles.mapIdx_map_range, ← List.countP_eq_length_filter, List.countP_map]
  rfl

theorem chosenMask_eq (p : Nat → Bool) : chosenMask ((List.range 32).map p) = (((List.range 32).filter p).map (fun i => 2 ^ i)).sum := by
  unfold chosenMask
  rw [List.map_map, joinPieces_map_range, sum_map_filter]
  refine congrArg List.sum (List.map_congr_left fun i _ => ?_)
  cases hp : p i <;> simp [hp]

theorem topkBlock_eq (s : State) (chip l w b : Nat) :
    topkBlock s chip l w b =
      [(stepDst w + b * recordSize w, recordSize w,
        (((List.range 32).filter (topOf (stepK w) (blockElement s chip l (stepSrc w + 128 * b)))).map (fun i => 2 ^ i)).sum +
        (((List.range 32).filter (topOf (stepK w) (blockElement s chip l (stepSrc w + 128 * b)))).mapIdx (fun j i =>
          blockElement s chip l (stepSrc w + 128 * b) i * 2 ^ (32 * (j + 1)))).sum)] := by
  unfold topkBlock
  dsimp only
  rw [blockAt_eq, chosen_eq, chosenMask_eq, List.zip, zipWith_map_map, List.filter_map, List.map_map, Nat.shiftLeft_eq,
    ← joinPieces_shift (blockElement_lt s chip l (stepSrc w + 128 * b))]
  rfl

theorem scaddBlock_eq (s : State) (chip l w b : Nat) :
    scaddBlock s chip l w b =
      ((List.range 32).filter (fun i =>
        (numberAt s (linkAddr chip l (stepSrc w + b * recordSize w)) (recordSize w)).testBit i)).map (fun i =>
        (stepDst w + 128 * b + 4 * i, 4,
          f32Add (blockElement s chip l (stepDst w + 128 * b) i)
            (numberAt s (linkAddr chip l (stepSrc w + b * recordSize w)) (recordSize w) /
              2 ^ (32 * ((List.range i).countP (fun m =>
                (numberAt s (linkAddr chip l (stepSrc w + b * recordSize w)) (recordSize w)).testBit m) + 1)) % 2 ^ 32))) := by
  unfold scaddBlock
  dsimp only
  rw [blockAt_eq, Tiles.mapIdx_map_range, List.filter_map, List.map_map, numberAt_eq_readNat]
  generalize readNat s.mem (linkAddr chip l (stepSrc w + b * recordSize w)) (recordSize w) = rec0
  have hbits : (fun x : Nat × Nat => bit rec0 x.1) ∘ (fun i => (i, blockElement s chip l (stepDst w + 128 * b) i)) =
      fun i => rec0.testBit i := by
    funext i
    exact bit_eq_testBit ..
  rw [hbits]
  refine List.map_congr_left fun i _ => ?_
  have hwidth (k : Nat) : 32 * k + 63 + 1 - (32 * k + 32) = 32 := by omega
  rw [Function.comp_apply, popCount_eq_onesOf, field_eq, hwidth, onesOf, Nat.mul_succ]

theorem q4Block_eq (s : State) (chip l w b : Nat) (v : Nat → Nat) (mx scale : Nat) (q : Nat → Int)
    (hv : ∀ i, v i = f32Add (blockElement s chip l (stepSrc w + 128 * b) i) (blockElement s chip l (stepEf w + 128 * b) i))
    (hmx : mx = (List.range 32).foldl (fun m i => max m (v i % 2 ^ 31)) 0)
    (hscale : scale = if mx = 0 ∨ 0x7F800000 ≤ mx then 0 else seventh mx)
    (hq : ∀ i, q i = mxCode (decodeF32 (v i)) scale 0 0 7) :
    q4Block s chip l w b =
      [(stepDst w + 18 * b, 18, scale + ((List.range 32).map (fun i => (BitVec.ofInt 4 (q i)).toNat * 2 ^ (16 + 4 * i))).sum),
       (stepEf w + 128 * b, 128, packed (fun i => if scale = 0 then v i else f32Sub (v i) (mxExact (q i) scale).f32))] := by
  have hvs : (List.range 32).map (fun i =>
      f32Add (blockElement s chip l (stepSrc w + 128 * b) i) (blockElement s chip l (stepEf w + 128 * b) i)) = (List.range 32).map v :=
    List.map_congr_left fun i _ => (hv i).symm
  have hscale' : (if mx < 0x7F800000 && mx != 0 then seventh mx else 0) = scale := by
    rw [hscale]
    by_cases hzero : mx = 0 ∨ 0x7F800000 ≤ mx
    · rw [if_pos hzero, if_neg (by simp; omega)]
    · rw [if_neg hzero, if_pos (by simp; omega)]
  have hqs : ((List.range 32).map v).map (fun v => mxCode (decodeF32 v) scale 0 0 7) = (List.range 32).map q :=
    List.map_map.trans (List.map_congr_left fun i _ => (hq i).symm)
  have hcode (i : Nat) : lowBits (q i) 4 % 2 ^ 4 = (BitVec.ofInt 4 (q i)).toNat := by
    rw [Lanes.lowBits_eq_toNat_ofInt, Nat.mod_eq_of_lt (BitVec.isLt _)]
  unfold q4Block
  dsimp only
  rw [blockAt_eq, blockAt_eq, zipWith_map_map, hvs, List.foldl_map, ← hmx, hscale', hqs, List.map_map, zipWith_map_map,
    joinPieces_map_range, joinPieces_map_range, Nat.shiftLeft_eq, ← List.sum_map_mul_right]
  refine congrArg₂ (fun x y => [(stepDst w + 18 * b, 18, scale + List.sum x), y]) (List.map_congr_left fun i _ => ?_) rfl
  rw [Function.comp_apply, hcode, Nat.mul_assoc, ← Nat.pow_add, Nat.add_comm 16]

theorem dq4Block_eq (s : State) (chip l w b : Nat) :
    dq4Block s chip l w b =
      [(stepDst w + 128 * b, 128, packed (fun i =>
        f32Add (blockElement s chip l (stepDst w + 128 * b) i)
          (mxExact (BitVec.ofNat 4 (numberAt s (linkAddr chip l (stepSrc w + 18 * b)) 18 / 2 ^ (16 + 4 * i))).toInt
            (numberAt s (linkAddr chip l (stepSrc w + 18 * b)) 18 % 2 ^ 16)).f32))] := by
  unfold dq4Block
  dsimp only
  rw [blockAt_eq, Tiles.mapIdx_map_range, joinPieces_map_range, numberAt_eq_readNat]
  generalize readNat s.mem (linkAddr chip l (stepSrc w + 18 * b)) 18 = rec0
  have hcode (i : Nat) : sext (field rec0 (4 * i + 19) (4 * i + 16)) 4 = (BitVec.ofNat 4 (rec0 / 2 ^ (16 + 4 * i))).toInt := by
    have hwidth : 4 * i + 19 + 1 - (4 * i + 16) = 4 := by omega
    rw [Lanes.sext_eq_toInt, field_eq, hwidth, Nat.add_comm 16]
    exact congrArg BitVec.toInt (BitVec.eq_of_toNat_eq (by simp))
  simp only [hcode]
  rfl

/-! ## The accesses of a step (R458) -/

/-- A write of a collective unit, as the one with a number from the next of state `s`. -/
def unitWrite (s : State) (chip l j : Nat) (x : Nat × Nat × Nat) : Access :=
  { ident := 2 * (s.nextId + j) + 1, op := 0, core := 1536 * chip, rank := 2 ^ 32 + 2 * (12 * chip + 2 * l + 1) + 1,
    order := s.nextId + j, due := s.now + 2, landAt := s.now + 2, delayed := false, write := true,
    spans := [{ addr := linkAddr chip l x.1, len := x.2.1, off := 0 }], data := BitVec.ofNat 2048 x.2.2, capTag := none,
    dest := .nowhere }

theorem foldl_unitAccess (chip l : Nat) (ws : List (Nat × Nat × Nat)) (s : State) :
    ws.foldl (fun s x => unitAccess s chip (unitRank chip l) (s.now + 2) true (linkAddr chip l x.1) x.2.1 x.2.2 .nowhere) s =
      { s with accs := s.accs ++ ws.mapIdx (unitWrite s chip l), nextId := s.nextId + ws.length } := by
  induction ws generalizing s with
  | nil => simp
  | cons x ws ih =>
    have hrest : unitWrite (unitAccess s chip (unitRank chip l) (s.now + 2) true (linkAddr chip l x.1) x.2.1 x.2.2 .nowhere) chip l =
        fun j => unitWrite s chip l (j + 1) := by
      funext j y
      simp only [unitWrite, unitAccess, orderedAccess, Nat.add_assoc, Nat.add_comm 1 j]
    rw [List.foldl_cons, ih, hrest, List.mapIdx_cons, List.length_cons, Nat.add_comm ws.length, ← Nat.add_assoc]
    simp only [unitAccess, orderedAccess, List.append_assoc, List.singleton_append]
    rfl

theorem advance_eq (c : Coll) (now : Nat) (w : BitVec 128) (b : Nat) :
    c.advance now w b = { c with steps := c.steps.flatMap (fun x =>
      if x.1 ≤ now ∧ x.2.2 = w ∧ x.2.1 = b then (if b + 2 < stepBlocks w.toNat then [(now + 1, b + 2, w)] else []) else [x]) } := by
  unfold Coll.advance
  simp only [Bool.and_eq_true, decide_eq_true_eq, and_assoc]

theorem collStep_row {w : BitVec 128} {f g : Nat → List (Nat × Nat × Nat)} (hfg : ∀ b, f b = g b) (h : stepped s chip l w g = some t) :
    collStep s chip l w f = .next t := by
  obtain rfl : f = g := funext hfg
  unfold stepped at h
  split at h
  · exact nomatch h
  · next c b hdue =>
    obtain rfl := Option.some.inj h
    unfold collStep
    rw [hdue]
    dsimp only
    rw [foldl_unitAccess, advance_eq]
    exact finishSame_of_mem rfl

end

end Sys2Proof.Proofs.Collectives
end
end

