-- ==== Sys2Proof/Proofs/CollectiveEvents.lean ====
section
/-! Collectives: their hand-over, their start on the link dies, and their completion. -/

noncomputable section

namespace Sys2Proof.Proofs.Collectives

open Sys2Proof.Machine Sys2Proof.Safety Sys2Proof.Proofs.Fabric Sys2Proof.Proofs.Accesses Sys2Proof.Proofs.HostSide
  Sys2Proof.Proofs.Packages

section
variable {s t : State} {chip : Nat}

/-! ## What reading ahead leaves of memory -/

theorem planLink_mem (s : State) (p order ply : Nat) (i : Instr) : (planLink s p order ply i).mem = s.mem := by
  unfold planLink
  dsimp only
  split
  · rfl
  · split <;> rfl

theorem readLink_mem {p lim : Nat} (h : readLink s p lim = some t) : t.mem = s.mem := by
  unfold readLink at h
  extract_lets e m i ply bad dst entry e1 s1 at h
  split at h
  · cases h
  · split at h
    · cases h
    · obtain rfl := Option.some.inj h
      split
      · rfl
      · exact planLink_mem ..

theorem readAhead_mem (k : Nat) (s : State) (p lim : Nat) : (readAhead k s p lim).mem = s.mem := by
  induction k generalizing s with
  | zero => rfl
  | succ k ih =>
    rw [readAhead]
    split
    · next u hu => rw [ih, readLink_mem hu]
    · rfl

/-! ## Hand-over (R363) -/

theorem recordNow_eq (s : State) (opc : Nat) (q : GtsRec) (more : GtsRun → Bool) :
    recordNow s opc q more = s.recs.find? (fun r => r.word = recordBits opc q && r.running && r.stop.isNone && more r) := by
  refine List.find?_congr fun r _ => ?_
  rw [Bool.eq_iff_iff]
  simp [GtsRun.running, Option.isSome_iff_ne_none, and_assoc]

theorem handOver_row {opc : Nat} {q : GtsRec} (h : handed s opc q = some t) : handOver s opc q = .next t := by
  unfold handed at h
  obtain ⟨r, hr, rfl⟩ := Option.map_eq_some_iff.1 h
  rw [recordNow_eq] at hr
  unfold handOver
  rw [hr]
  exact finishSame_of_mem rfl

/-! ## Start (R452, R453, R455) -/

theorem startEngine_eq_begun (s : State) (p frame index guardEnd : Nat) :
    startEngine s p frame index guardEnd (firstPlace frame index) =
      begun s p frame index guardEnd { index := index % 2 ^ 14, base := frame, loops := [] } := rfl

theorem signatureFields (a b c d e f : Nat) :
    a + b <<< 12 + c <<< 24 + d <<< 25 + e <<< 28 + f <<< 32 =
      a + b * 2 ^ 12 + c * 2 ^ 24 + d * 2 ^ 25 + e * 2 ^ 28 + f * 2 ^ 32 := by
  rw [Nat.shiftLeft_eq b, Nat.shiftLeft_eq c, Nat.shiftLeft_eq d, Nat.shiftLeft_eq e, Nat.shiftLeft_eq f]

theorem signature_eq (w fmt e : Nat) :
    signature w fmt e = entryTid e + recArg w % 2 ^ 12 * 2 ^ 12 + entryOrder e % 2 * 2 ^ 24 + collectiveOp w * 2 ^ 25 +
      fmt % 16 * 2 ^ 28 + entryCount e * 2 ^ 32 := signatureFields ..

theorem entryPortList_eq (chip l e : Nat) :
    entryPortList chip l e = ((List.range 2).filter (fun q => (entryPorts e).testBit q)).map (fun q => 12 * chip + 2 * l + q) := by
  unfold entryPortList
  simp only [bit_eq_testBit, Lanes.rangeFrom_zero]

theorem startDie_eq_takingPart (s : State) (r : GtsRun) (chip fmt : Nat) (x : Nat × Nat) :
    startDie s r chip fmt x = takingPart r chip fmt s x := by
  obtain ⟨l, e⟩ := x
  unfold startDie takingPart
  dsimp only
  rw [signature_eq, entryPortList_eq]
  simp only [engineFault_eq_engineStops, startEngine_eq_begun, readDue]
  rfl

theorem takingPart_mem (r : GtsRun) (chip fmt : Nat) (s : State) (x : Nat × Nat) : (takingPart r chip fmt s x).mem = s.mem := by
  unfold takingPart
  refine (foldl_mem (fun u p => ?_) ..).trans rfl
  split
  · rfl
  · split
    · exact engineStops_mem ..
    · exact readAhead_mem ..

/-- Of what a collective's dispatch finds wrong, the lowest cause stands (R453). -/
theorem firstFailed_collective (member perm shape entry : Bool) (addr : Nat) :
    firstFailed ((if member then [] else [(0x0D, 2, addr)]) ++ (if perm then [] else [(0x0A, 5, addr)]) ++
        (if shape then [(0x14, 0x25, addr)] else []) ++ (if entry then [(0x14, 0x27, addr)] else [])) =
      if !perm then some (0x0A, 5, addr) else if !member then some (0x0D, 2, addr) else if shape then some (0x14, 0x25, addr)
      else if entry then some (0x14, 0x27, addr) else none := by
  cases perm <;> cases member <;> cases shape <;> cases entry <;> simp [firstFailed, minBy]

/-- The link dies that hold a match for a collective. -/
def matchDies (s : State) (chip : Nat) (r : GtsRun) : List (Nat × Nat) :=
  (List.range 6).filterMap (fun l => (matchEntry s chip l r.word ((r.tensors.getD 1 none).getD (parseTensor 0)).count).map (fun e => (l, e)))

/-- What the dispatch of a collective finds wrong (R453). -/
def dispatchFailed (s : State) (chip : Nat) (r : GtsRun) : Option Failed :=
  if r.cap.perm / 2 ^ 5 % 2 = 0 then some (0x0A, 5, r.addr)
  else if ¬∃ g, groupMembers s chip r.word = some g ∧ (s.pmap chip).logicalChip chip ∈ g then some (0x0D, 2, r.addr)
  else if (recOpc r.word = 0x0C ∨ recOpc r.word = 0x0D) ∧ [0, 1].any (fun k => (r.tensors.getD k none).any (fun t => 2 < t.fmt)) then
    some (0x14, 0x25, r.addr)
  else if matchDies s chip r = [] ∨
      ∃ x ∈ matchDies s chip r, entryBad s chip x.1 r.word ((r.tensors.getD 1 none).getD (parseTensor 0)).fmt x.2 then
    some (0x14, 0x27, r.addr)
  else none

/-- The checks of a dispatch as the model lists them. -/
def dispatchBad (s : State) (chip : Nat) (r : GtsRun) : List Failed :=
  let member : Bool := match groupMembers s chip r.word with
    | some ls => ls.contains ((s.pmap chip).logicalChip chip)
    | none => false
  (if member then [] else [(0x0D, 2, r.addr)]) ++ (if bit r.cap.perm 5 then [] else [(0x0A, 5, r.addr)]) ++
    (if (recOpc r.word = 0x0C || recOpc r.word = 0x0D) && [0, 1].any (fun k => (r.tensors.getD k none).any (fun t => 2 < t.fmt)) then
      [(0x14, 0x25, r.addr)] else []) ++
    (if (matchDies s chip r).isEmpty ||
        (matchDies s chip r).any (fun x => entryBad s chip x.1 r.word ((r.tensors.getD 1 none).getD (parseTensor 0)).fmt x.2) then
      [(0x14, 0x27, r.addr)] else [])

theorem firstFailed_dispatch (s : State) (chip : Nat) (r : GtsRun) : firstFailed (dispatchBad s chip r) = dispatchFailed s chip r := by
  have hperm : (!bit r.cap.perm 5) = true ↔ r.cap.perm / 2 ^ 5 % 2 = 0 := by
    rw [bit, Nat.shiftRight_eq_div_pow]
    simp
  have hentry : ((matchDies s chip r).isEmpty ||
      (matchDies s chip r).any (fun x => entryBad s chip x.1 r.word ((r.tensors.getD 1 none).getD (parseTensor 0)).fmt x.2)) = true ↔
      matchDies s chip r = [] ∨
        ∃ x ∈ matchDies s chip r, entryBad s chip x.1 r.word ((r.tensors.getD 1 none).getD (parseTensor 0)).fmt x.2 = true := by
    rw [Bool.or_eq_true, List.isEmpty_iff, List.any_eq_true]
  unfold dispatchBad dispatchFailed
  dsimp only
  rw [firstFailed_collective]
  simp only [hperm, hentry, Bool.and_eq_true, Bool.or_eq_true, decide_eq_true_eq]
  cases groupMembers s chip r.word with
  | none => simp
  | some g => simp

theorem otherColls_eq (c : Coll) : (fun x : Coll => x != c) = fun x => decide (x ≠ c) := by
  funext x
  rw [Bool.eq_iff_iff]
  simp

/-- A dispatch that a check stops. -/
theorem startCollective_refused {c : Coll} {r : GtsRun} {f : Failed} (hfailed : dispatchFailed s c.chip r = some f) :
    startCollective s c r =
      recordAs { s with colls := s.colls.filter (fun x => x ≠ c) } (refusedAt r f.1 f.2.1 f.2.2 (2 ^ 32 - 1) r.lvl s.now 0) := by
  have hbad : firstFailed (dispatchBad s c.chip r) = some f := (firstFailed_dispatch ..).trans hfailed
  unfold startCollective
  rw [Lanes.rangeFrom_zero, otherColls_eq]
  change (match firstFailed (dispatchBad s c.chip r) with
    | some f => State.setRecord _ _
    | none => _) = _
  rw [hbad]
  rfl

/-- A dispatch that no check stops. -/
theorem startCollective_starts {c : Coll} {r : GtsRun} (hfine : dispatchFailed s c.chip r = none) :
    startCollective s c r =
      (matchDies s c.chip r).foldl (takingPart r c.chip ((r.tensors.getD 1 none).getD (parseTensor 0)).fmt)
        { s with colls := s.colls.filter (fun x => x ≠ c) } := by
  have hfailed : firstFailed (dispatchBad s c.chip r) = none := (firstFailed_dispatch ..).trans hfine
  unfold startCollective
  rw [Lanes.rangeFrom_zero, otherColls_eq]
  simp only [startDie_eq_takingPart]
  change (match firstFailed (dispatchBad s c.chip r) with
    | some f => State.setRecord _ _
    | none => _) = _
  rw [hfailed]
  rfl

theorem chip_of_startable {c : Coll} {r : GtsRun} (h : startable s chip = some (c, r)) : c.chip = chip := by
  obtain ⟨x, -, hx⟩ := List.exists_of_findSome?_eq_some h
  split at hx
  · next hmine =>
    obtain ⟨y, -, hy⟩ := Option.bind_eq_some_iff.1 hx
    split at hy
    · obtain ⟨rfl, -⟩ := Prod.mk.inj (Option.some.inj hy)
      simp only [Bool.and_eq_true, decide_eq_true_eq] at hmine
      exact hmine.1
    · exact nomatch hy
  · exact nomatch hx

theorem start_refused {c : Coll} {r : GtsRun} {cause sub : Nat} (hstart : startable s chip = some (c, r))
    (hfailed : dispatchFailed s chip r = some (cause, sub, r.addr))
    (h : recordAs { s with colls := s.colls.filter (fun x => x ≠ c) } (refusedAt r cause sub r.addr (2 ^ 32 - 1) r.lvl s.now 0) = t) :
    exec (.collectiveStart chip) s = .next t := by
  change (match startable s chip with | some (c, r) => finishSame s (startCollective s c r) | none => .next s) = _
  rw [hstart]
  obtain rfl := chip_of_startable hstart
  exact (congrArg (finishSame s) ((startCollective_refused hfailed).trans h)).trans (finishSame_of_mem (by rw [← h]; rfl))

theorem start_row (h : rowCollective s (.collectiveStart chip) = some t) : exec (.collectiveStart chip) s = .next t := by
  unfold rowCollective at h
  dsimp only at h
  split at h
  · next c r hstart =>
    split at h
    · next hperm => exact start_refused hstart (if_pos hperm) (Option.some.inj h)
    · next hperm =>
      split at h
      · next hmember => exact start_refused hstart ((if_neg hperm).trans (if_pos hmember)) (Option.some.inj h)
      · next hmember =>
        split at h
        · next hshape =>
          exact start_refused hstart ((if_neg hperm).trans ((if_neg hmember).trans (if_pos hshape))) (Option.some.inj h)
        · next hshape =>
          split at h
          · next hentry =>
            exact start_refused hstart ((if_neg hperm).trans ((if_neg hmember).trans ((if_neg hshape).trans (if_pos hentry))))
              (Option.some.inj h)
          · next hentry =>
            obtain rfl := Option.some.inj h
            have hfine : dispatchFailed s chip r = none :=
              (if_neg hperm).trans ((if_neg hmember).trans ((if_neg hshape).trans (if_neg hentry)))
            change (match startable s chip with | some (c, r) => finishSame s (startCollective s c r) | none => .next s) = _
            rw [hstart]
            obtain rfl := chip_of_startable hstart
            refine (congrArg (finishSame s) (startCollective_starts hfine)).trans (finishSame_of_mem ?_)
            exact foldl_mem (takingPart_mem r c.chip _) ..
  · exact nomatch h

/-! ## Completion (R453) -/

theorem ownBytes_eq (s : State) (r : GtsRun) :
    (match r.tensors.getD 0 none with
      | some d => coveredBytes (d.footprint.filter (fun x => match chipName s r.who (lowBits x.1 64) with | .own _ => true | _ => false))
      | none => 0) = ownBytes s r := by
  have hlow (x : Nat × Nat) : lowBits x.1 64 = (BitVec.ofNat 64 x.1).toNat := by
    unfold lowBits
    rw [BitVec.toNat_ofNat]
    omega
  simp only [hlow]
  rfl

theorem completion_row (h : rowCollective s (.collectiveCompletion chip) = some t) : exec (.collectiveCompletion chip) s = .next t := by
  have hothers (r : GtsRun) : (fun c : Coll => !(decide (c.record = r.ident) && decide (c.chip = chip))) =
      fun c => decide (¬(c.record = r.ident ∧ c.chip = chip)) := by
    funext c
    rw [Bool.eq_iff_iff]
    simp
  unfold rowCollective at h
  dsimp only at h
  split at h
  · next r hr =>
    change (match finishable s chip with | some r => finishSame s (completeCollective s chip r) | none => .next s) = _
    rw [hr]
    dsimp only
    unfold completeCollective
    rw [hothers]
    dsimp only
    split at h
    · next hctr =>
      obtain rfl := Option.some.inj h
      rw [if_pos hctr]
      exact finishSame_of_mem rfl
    · next hctr =>
      obtain rfl := Option.some.inj h
      rw [if_neg hctr]
      rw [← ownBytes_eq]
      exact finishSame_of_mem rfl
  · exact nomatch h

end

/-- Settles O48, row by row. -/
theorem collectiveEvents : Obligations.CollectiveEvents := by
  intro s i t h
  have hrow := h
  unfold rowCollective at h
  cases i
  case gagather => exact handOver_row h
  case grscat => exact handOver_row h
  case gared => exact handOver_row h
  case ga2a => exact handOver_row h
  case collectiveStart => exact start_row hrow
  case collectiveCompletion => exact completion_row hrow
  case topk chip l w => exact collStep_row (fun b => topkBlock_eq s chip l w.toNat b) h
  case scadd chip l w => exact collStep_row (fun b => scaddBlock_eq s chip l w.toNat b) h
  case q4 chip l w => exact collStep_row (fun b => q4Block_eq s chip l w.toNat b _ _ _ _ (fun _ => rfl) rfl rfl (fun _ => rfl)) h
  case dq4add chip l w => exact collStep_row (fun b => dq4Block_eq s chip l w.toNat b) h
  all_goals exact nomatch h

end Sys2Proof.Proofs.Collectives
end
end

