-- ==== Sys2Proof/Proofs/RecordEvents.lean ====
section
/-! Tile-set records: their acceptance, the dispatch, start and end of their leaves, and their completion. -/

noncomputable section

namespace Sys2Proof.Proofs.Records

open Sys2Proof.Machine Sys2Proof.Safety Sys2Proof.Proofs.Fabric Sys2Proof.Proofs.Accesses Sys2Proof.Proofs.HostSide
  Sys2Proof.Proofs.Packages Sys2Proof.Proofs.CoreRows Sys2Proof.Proofs.Collectives

section
variable {s t : State} {r : GtsRun}

/-! ## Reads that a lease may have delayed (R269) -/

theorem endLeases_now (s : State) (lines : List Nat) : (endLeases s lines).st.now = s.now := rfl

theorem putLease_now (s : State) (a data : Nat) : (putLease s a data).st.now = s.now := by
  unfold putLease
  extract_lets die line l mine evicted
  split
  · rfl
  · change evicted.st.now = s.now
    unfold evicted
    split
    · split <;> rfl
    · rfl

theorem fireArms_now (s : State) (n : Nat) (xs : List Change) : (fireArms s n xs).now = s.now := ite_now rfl rfl

theorem runAtomic_now (s : State) (addr : Nat) (kind : AtomOp) (x y : Word) : (runAtomic s addr kind x y).1.st.now = s.now := by
  unfold runAtomic
  extract_lets line sh old obj new r s1 words
  split
  · exact (fireArms_now ..).trans (putLease_now ..)
  · split
    · exact putLease_now ..
    · exact (fireArms_now ..).trans (putLease_now ..)

theorem afterAtomics_now (s : State) (xs : List Atom) : (afterAtomics s xs).now = s.now := by
  refine foldl_now (fun u a => ?_) xs s
  exact runAtomic_now ..

theorem settledRead_now (s : State) (core rank : Nat) (spans : List Span) : (settledRead s core rank spans).1.now = s.now := by
  unfold settledRead
  extract_lets lines later back v
  split
  · rfl
  · exact afterAtomics_now ..

theorem readBy_now (s : State) (core : Nat) (spans : List Span) : (readBy s core spans).2.now = s.now := settledRead_now ..

theorem finish_settledRead (s : State) (n : Nat) (spans : List Span) (f : State → State → State)
    (hf : ∀ u v m, { f u v with mem := m } = f { u with mem := m } v) :
    finish s { (settledRead s n (bundleRank n + 6) spans).2 with
        st := f (settledRead s n (bundleRank n + 6) spans).2.st (settledRead s n (bundleRank n + 6) spans).1 } =
      .next (f (readBy s n spans).1 (readBy s n spans).2) := by
  rw [bundleRank, Nat.mul_comm]
  exact congrArg Host.Outcome.next (hf ..)

theorem delays_iff (s : State) (late : Option Nat) (spans : List Span) :
    (metLease s (linesOf spans) && late.isNone) = true ↔ delays s late spans := by
  rw [Bool.and_eq_true, Option.isNone_iff_eq_none]

/-! ## Acceptance (R357, R370) -/

/-- The first of the least elements of a list, as one walk along it finds it. -/
theorem minBy_cons {α : Type} (key : α → Nat) (x : α) (xs : List α) :
    minBy key (x :: xs) = some (xs.foldl (fun f g => if key g < key f then g else f) x) := by
  induction xs generalizing x with
  | nil => rfl
  | cons y ys ih =>
    rw [List.foldl_cons, ← ih]
    simp only [minBy]
    cases minBy key ys with
    | none => grind
    | some z => grind

theorem acceptedRun_sound (h : (acceptChecks s r).2.2 = []) :
    acceptedRun s r =
      { r with accepted := some s.now, latest := s.now, tensors := (acceptChecks s r).1, leaves := (acceptChecks s r).2.1.1,
               children := (acceptChecks s r).2.1.2 } := by
  unfold acceptedRun
  generalize acceptChecks s r = q at h
  obtain ⟨ts, plan, bad⟩ := q
  obtain rfl : bad = [] := h
  rfl

theorem acceptedRun_refused {f : Failed} {fs : List Failed} (h : (acceptChecks s r).2.2 = f :: fs) :
    acceptedRun s r =
      refusedAt { r with accepted := some s.now, latest := s.now, tensors := (acceptChecks s r).1 }
        (fs.foldl (fun f g => if g.1 * 256 + g.2.1 < f.1 * 256 + f.2.1 then g else f) f).1
        (fs.foldl (fun f g => if g.1 * 256 + g.2.1 < f.1 * 256 + f.2.1 then g else f) f).2.1
        (fs.foldl (fun f g => if g.1 * 256 + g.2.1 < f.1 * 256 + f.2.1 then g else f) f).2.2 (2 ^ 32 - 1) r.lvl s.now 0 := by
  unfold acceptedRun
  generalize acceptChecks s r = q at h
  obtain ⟨ts, plan, bad⟩ := q
  obtain rfl : bad = f :: fs := h
  dsimp only
  rw [firstFailed, minBy_cons, refusedAt, Nat.max_self]

theorem acceptance_row {k : Nat} (h : rowRecord s (.recordAcceptance k) = some t) : exec (.recordAcceptance k) s = .next t := by
  unfold rowRecord at h
  dsimp only at h
  split at h
  · next r hr =>
    split at h
    · exact nomatch h
    · next hmay =>
      have hstep : exec (.recordAcceptance k) s = finish s (acceptRecordAt s r) := by
        change (match s.record k with
          | some r => if canAccept s r then finish s (acceptRecordAt s r) else .next s
          | none => .next s) = _
        rw [State.record, hr]
        exact if_pos (eq_true_of_ne_false hmay)
      rw [hstep]
      unfold acceptRecordAt
      dsimp only
      split at h
      · next hlate =>
        obtain rfl := Option.some.inj h
        rw [if_pos ((delays_iff ..).2 hlate)]
        rfl
      · next hlate =>
        rw [if_neg (mt (delays_iff ..).1 hlate), finish_settledRead s r.who _ (fun u v => u.setRecord (acceptedRun v r)) (fun _ _ _ => rfl)]
        split at h
        · next hsound =>
          obtain rfl := Option.some.inj h
          rw [acceptedRun_sound hsound, readBy_now]
          rfl
        · next f fs hbad =>
          obtain rfl := Option.some.inj h
          rw [acceptedRun_refused hbad, readBy_now]
          rfl
  · exact nomatch h

/-! ## Dispatch (R371) -/

theorem trailingZeros_find? (n x : Nat) (h : x % 2 ^ n ≠ 0) :
    (List.range n).find? (fun b => x.testBit b) = some (trailingZeros n x) := by
  induction n generalizing x with
  | zero => exact absurd (Nat.mod_one x) h
  | succ n ih =>
    rw [List.range_succ_eq_map, List.find?_cons, trailingZeros, Nat.testBit_zero]
    by_cases hodd : x % 2 = 1
    · simp [hodd]
    · have hhalf : x / 2 % 2 ^ n ≠ 0 := by
        rw [Nat.pow_succ', Nat.mod_mul] at h
        omega
      have hnext : (fun b => x.testBit b) ∘ Nat.succ = fun b => (x / 2).testBit b := funext fun b => Nat.testBit_succ x b
      rw [List.find?_map, hnext, ih _ hhalf]
      simp [hodd, Nat.add_comm]

theorem find?_testBit_none {n x : Nat} (h : x % 2 ^ n = 0) : (List.range n).find? (fun b => x.testBit b) = none := by
  rw [List.find?_eq_none]
  intro b hb hbit
  have hlow := Nat.testBit_mod_two_pow x n b
  rw [h, Nat.zero_testBit, decide_eq_true (List.mem_range.1 hb), Bool.true_and] at hlow
  exact absurd hbit (by rw [← hlow]; decide)

theorem lowTiles (x : Nat) : field x 15 0 = x % 2 ^ 16 := by rw [field_eq, Nat.pow_zero, Nat.div_one]

theorem tilesInUse {u : BitVec 18} {b : Nat} (h : (List.range 16).find? (fun b => u.getLsbD b) = some b) (base : Nat) :
    (if field u.toNat 15 0 != 0 then some (0x0F, trailingZeros 16 u.toNat, base)
      else if field u.toNat 17 16 != 0 then some (0x0F, 0x10 + trailingZeros 2 (u.toNat >>> 16), base) else none) =
      some (0x0F, b, base) := by
  change (List.range 16).find? (fun b => u.toNat.testBit b) = some b at h
  rw [lowTiles]
  by_cases htiles : u.toNat % 2 ^ 16 = 0
  · rw [find?_testBit_none htiles] at h
    exact nomatch h
  · rw [trailingZeros_find? _ _ htiles] at h
    rw [if_pos (bne_iff_ne.2 htiles), Option.some.inj h]

theorem masksInUse {u : BitVec 18} (h : (List.range 16).find? (fun b => u.getLsbD b) = none) (base : Nat) :
    (if field u.toNat 15 0 != 0 then some (0x0F, trailingZeros 16 u.toNat, base)
      else if field u.toNat 17 16 != 0 then some (0x0F, 0x10 + trailingZeros 2 (u.toNat >>> 16), base) else none) =
      (if u.getLsbD 16 then some (0x0F, 0x10) else if u.getLsbD 17 then some (0x0F, 0x11) else none).map
        (fun f => (f.1, f.2, base)) := by
  change (List.range 16).find? (fun b => u.toNat.testBit b) = none at h
  have htiles : u.toNat % 2 ^ 16 = 0 := by
    by_contra htiles
    rw [trailingZeros_find? _ _ htiles] at h
    exact nomatch h
  have hlow : u.getLsbD 16 = (u.toNat >>> 16).testBit 0 := by
    rw [Nat.testBit_shiftRight]
    rfl
  have hhigh : u.getLsbD 17 = (u.toNat >>> 16).testBit 1 := by
    rw [Nat.testBit_shiftRight]
    rfl
  have hmasks : field u.toNat 17 16 = (u.toNat >>> 16) % 4 := rfl
  rw [lowTiles, htiles, if_neg (by decide), hlow, hhigh, hmasks]
  generalize u.toNat >>> 16 = y
  have hsecond : y.testBit 1 = decide (y / 2 % 2 = 1) := by rw [Nat.testBit_succ, Nat.testBit_zero]
  simp only [trailingZeros, Nat.testBit_zero, hsecond, bne_iff_ne, decide_eq_true_eq]
  by_cases h0 : y % 2 = 1
  · rw [if_pos (by omega), if_pos h0, if_pos h0]
    rfl
  · by_cases h1 : y / 2 % 2 = 1
    · rw [if_pos (by omega), if_neg h0, if_pos h1, if_neg h0, if_pos h1]
      rfl
    · rw [if_neg (by omega), if_neg h0, if_neg h1]
      rfl

theorem isFree_iff (c : Core) (now : Nat) :
    (!c.isFree now) = true ↔ c.run ≠ .idle ∨ now < c.idleFrom ∨ c.saving ≠ none ∨ c.restoring ≠ none ∨ c.reserved ≠ none := by
  simp only [Core.isFree, Core.isIdle, Bool.not_eq_true', Bool.and_eq_false_iff, decide_eq_false_iff_not, Nat.not_le,
    Option.isNone_eq_false_iff, Option.isSome_iff_ne_none, or_assoc]

theorem placeFields (a b c d : Nat) : a <<< 48 + b <<< 43 + c <<< 37 + d <<< 32 = a * 2 ^ 48 + b * 2 ^ 43 + c * 2 ^ 37 + d * 2 ^ 32 := by
  rw [Nat.shiftLeft_eq a, Nat.shiftLeft_eq b, Nat.shiftLeft_eq c, Nat.shiftLeft_eq d]

theorem registerBase_eq (s : State) (n : Nat) :
    0xFFFE <<< 48 + ((s.pmap (chipOf n)).logicalCore ((s.pmap (chipOf n)).logicalChip (chipOf n)) (n % 1536) / 64) <<< 43 +
      ((s.pmap (chipOf n)).logicalCore ((s.pmap (chipOf n)).logicalChip (chipOf n)) (n % 1536) % 64) <<< 37 + 5 <<< 32 =
      registerBase s n := placeFields ..

theorem coreChecks_eq (s : State) (r : GtsRun) (n : Nat) :
    coreChecks s r n = (coreRefusal s r n).map (fun f => (f.1, f.2, registerBase s n)) := by
  have hheld : (r.held.any (fun e => e.1 = n)) = true ↔ ∃ e ∈ r.held, e.1 = n := by simp
  unfold coreChecks coreRefusal
  dsimp only
  rw [registerBase_eq]
  by_cases hmine : ∃ e ∈ r.held, e.1 = n
  · rw [if_pos (hheld.2 hmine), if_pos hmine]
    rfl
  rw [if_neg (mt hheld.1 hmine), if_neg hmine]
  by_cases hstate : (s.pmap (n / 1536)).state ((s.pmap (n / 1536)).logicalChip (n / 1536))
      ((s.pmap (n / 1536)).logicalCore ((s.pmap (n / 1536)).logicalChip (n / 1536)) (n % 1536)) = 0
  swap
  · rw [if_pos hstate]
    exact if_pos (bne_iff_ne.2 hstate)
  rw [if_neg (not_not.2 hstate)]
  refine (if_neg (by simpa [chipOf] using hstate)).trans ?_
  by_cases hbusy : (!(s.core n).isFree s.now) = true
  · rw [if_pos hbusy, if_pos ((isFree_iff ..).1 hbusy)]
    rfl
  rw [if_neg hbusy, if_neg (mt (isFree_iff ..).2 hbusy)]
  cases hfind : (List.range 16).find? (fun b => (s.core n).tinuse.getLsbD b) with
  | none => exact masksInUse hfind _
  | some b => exact tilesInUse hfind _

/-- A record whose dispatching a check of a leaf ends. -/
def failedLeaf (s : State) (r : GtsRun) (i child : Nat) (f : Failed) : State :=
  recordAs s (refusedAt r f.1 f.2.1 f.2.2 child (if r.lvl = 0 then 0 else 1) s.now i)

section
variable {seen : State} {i : Nat} {l : Leaf} {f g : Failed} {vs : List Nat}

theorem dispatchNext_queued (hcore : coreChecks s r l.core = none) (hread : readIndices seen r l = .ok vs) :
    dispatchNext s seen r i l =
      onCore (recordAs s { r with
          leaves := r.leaves.mapIdx (fun k y => if k = i then
            { l with phase := .queued, dispatched := s.now, index := vs, late := none } else y)
          held := mapPut r.held l.core (mapGet 0 r.held l.core)
          stop := if i + 1 = r.leaves.length then some (i + 1) else none }) l.core
        (fun c => { c with reserved := some r.ident }) := by
  unfold dispatchNext
  rw [hcore, hread]
  rfl

theorem dispatchNext_core (hcore : coreChecks s r l.core = some f) (hread : readIndices seen r l = .ok vs) :
    dispatchNext s seen r i l = failedLeaf s r i l.child f := by
  unfold dispatchNext
  rw [hcore, hread]
  rfl

theorem dispatchNext_index (hcore : coreChecks s r l.core = none) (hread : readIndices seen r l = .error g) :
    dispatchNext s seen r i l = failedLeaf s r i l.child g := by
  unfold dispatchNext
  rw [hcore, hread]
  rfl

theorem dispatchNext_both (hcore : coreChecks s r l.core = some f) (hread : readIndices seen r l = .error g) :
    dispatchNext s seen r i l = failedLeaf s r i l.child (if f.1 * 256 + f.2.1 ≤ g.1 * 256 + g.2.1 then f else g) := by
  unfold dispatchNext
  rw [hcore, hread]
  rfl

/-- The dispatch of a leaf neither reads nor changes the memory of the state that it leaves. -/
theorem dispatchNext_setMem (u v : State) (r : GtsRun) (i : Nat) (l : Leaf) (m : List Host.Cell) :
    { dispatchNext u v r i l with mem := m } = dispatchNext { u with mem := m } v r i l := by
  cases hcore : coreChecks u r l.core with
  | none =>
    cases hread : readIndices v r l with
    | ok vs => rw [dispatchNext_queued hcore hread, dispatchNext_queued (s := { u with mem := m }) hcore hread]; rfl
    | error g => rw [dispatchNext_index hcore hread, dispatchNext_index (s := { u with mem := m }) hcore hread]; rfl
  | some f =>
    cases hread : readIndices v r l with
    | ok vs => rw [dispatchNext_core hcore hread, dispatchNext_core (s := { u with mem := m }) hcore hread]; rfl
    | error g => rw [dispatchNext_both hcore hread, dispatchNext_both (s := { u with mem := m }) hcore hread]; rfl

end

theorem readBy_left_now (s : State) (core : Nat) (spans : List Span) : (readBy s core spans).1.now = s.now := by
  change (settledRead s core (16 * core + 6) spans).2.st.now = s.now
  unfold settledRead
  extract_lets lines later back v
  split <;> rfl

theorem registerBase_readBy (s : State) (core n : Nat) (spans : List Span) :
    registerBase (readBy s core spans).1 n = registerBase s n := by
  have hmaps : (readBy s core spans).1.pmaps = s.pmaps := by
    change (settledRead s core (16 * core + 6) spans).2.st.pmaps = s.pmaps
    unfold settledRead
    extract_lets lines later back v
    split <;> rfl
  unfold registerBase State.pmap
  rw [hmaps]

theorem dispatch_row {k : Nat} (h : rowRecord s (.leafDispatch k) = some t) : exec (.leafDispatch k) s = .next t := by
  unfold rowRecord at h
  dsimp only at h
  split at h
  · next r hr =>
    split at h
    · next hdue =>
      split at h
      · next i l hplanned =>
        have hstep : exec (.leafDispatch k) s = finish s (dispatchLeaf s r) := by
          change (match s.record k with
            | some r => if r.dispatchDue s.now then finish s (dispatchLeaf s r) else .next s
            | none => .next s) = _
          rw [State.record, hr]
          exact if_pos hdue
        rw [hstep]
        unfold dispatchLeaf
        rw [hplanned]
        dsimp only
        split at h
        · next hlate =>
          obtain rfl := Option.some.inj h
          rw [if_pos ((delays_iff ..).2 hlate)]
          rfl
        · next hlate =>
          rw [if_neg (mt (delays_iff ..).1 hlate),
            finish_settledRead s r.who _ (fun u v => dispatchNext u v r i l) (fun u v m => dispatchNext_setMem u v r i l m)]
          refine congrArg _ ?_
          split at h
          · next vs hcore hread =>
            obtain rfl := Option.some.inj h
            exact (dispatchNext_queued (by rw [coreChecks_eq, hcore]; rfl) hread).trans (by rw [readBy_left_now])
          · next f _ hcore hread =>
            obtain rfl := Option.some.inj h
            exact (dispatchNext_core (by rw [coreChecks_eq, hcore]; rfl) hread).trans
              (by rw [failedLeaf, readBy_left_now, registerBase_readBy])
          · next g hcore hread =>
            obtain rfl := Option.some.inj h
            exact (dispatchNext_index (by rw [coreChecks_eq, hcore]; rfl) hread).trans (by rw [failedLeaf, readBy_left_now])
          · next f g hcore hread =>
            refine (dispatchNext_both (by rw [coreChecks_eq, hcore]; rfl) hread).trans ?_
            split at h
            · next hle =>
              obtain rfl := Option.some.inj h
              rw [if_pos hle, failedLeaf, readBy_left_now, registerBase_readBy]
            · next hle =>
              obtain rfl := Option.some.inj h
              rw [if_neg hle, failedLeaf, readBy_left_now]
      · exact nomatch h
    · exact nomatch h
  · exact nomatch h

/-! ## Start and end of a leaf (R372) -/

theorem stageGranule_mem (s : State) (op n home j : Nat) : (stageGranule s op n home j).1.mem = s.mem := by
  unfold stageGranule
  extract_lets p stage x
  split
  · unfold addGranule
    dsimp only
    split <;> rfl
  · rfl

theorem foldl_stage_mem (op n : Nat) (l : List (Nat × Nat)) (acc : State × Nat) :
    (l.foldl (fun (acc : State × Nat) x =>
      ((stageGranule acc.1 op n x.2 x.1).1, max acc.2 (stageGranule acc.1 op n x.2 x.1).2)) acc).1.mem = acc.1.mem := by
  induction l generalizing acc with
  | nil => rfl
  | cons x l ih => rw [List.foldl_cons, ih, stageGranule_mem]

theorem mapIdx_map_pair {α : Type} (f : α → Nat) (l : List α) :
    (l.map f).mapIdx (fun j h => (j, h)) = l.mapIdx (fun j g => (j, f g)) := by
  refine List.ext_getElem (by simp) fun j _ _ => ?_
  simp

theorem start_row {n : Nat} (h : rowRecord s (.leafStart n) = some t) : exec (.leafStart n) s = .next t := by
  unfold rowRecord at h
  dsimp only at h
  split at h
  · next r i l hfind =>
    obtain rfl := Option.some.inj h
    have hstep : exec (.leafStart n) s = finishSame s (startLeaf s r n i l) := by
      change (match s.recs.findSome? (fun r => if r.running then (r.startable n s.now).map (fun x => (r, x)) else none) with
        | some (r, i, l) => finishSame s (startLeaf s r n i l)
        | none => .next s) = _
      rw [hfind]
    rw [hstep]
    unfold startLeaf
    dsimp only
    rw [mapIdx_map_pair]
    exact finishSame_of_mem (foldl_stage_mem ..)
  · exact nomatch h

theorem core_of_ending {n now i : Nat} {l : Leaf} (h : r.ending n now = some (i, l)) : l.core = n := by
  have hl := List.find?_some h
  simp only [Bool.and_eq_true, decide_eq_true_eq] at hl
  exact hl.1.1

theorem end_row {n : Nat} (h : rowRecord s (.leafEnd n) = some t) : exec (.leafEnd n) s = .next t := by
  unfold rowRecord at h
  dsimp only at h
  split at h
  · next r i l hfind =>
    have hstep : exec (.leafEnd n) s = finishSame s (endLeaf s r i l) := by
      change (match s.recs.findSome? (fun r => if r.running then (r.ending n s.now).map (fun x => (r, x)) else none) with
        | some (r, i, l) => finishSame s (endLeaf s r i l)
        | none => .next s) = _
      rw [hfind]
    have hcore : l.core = n := by
      obtain ⟨r', -, hr'⟩ := List.exists_of_findSome?_eq_some hfind
      split at hr'
      · obtain ⟨x, hx, hpair⟩ := Option.map_eq_some_iff.1 hr'
        obtain ⟨rfl, rfl⟩ := Prod.mk.inj hpair
        exact core_of_ending hx
      · exact nomatch hr'
    rw [hstep]
    unfold endLeaf writesOver
    dsimp only
    subst hcore
    rw [bundleRank, Nat.mul_comm l.core 16]
    split at h
    · next hctr =>
      obtain rfl := Option.some.inj h
      rw [if_pos hctr]
      exact finishSame_of_mem rfl
    · next hctr =>
      obtain rfl := Option.some.inj h
      rw [if_neg hctr]
      exact finishSame_of_mem rfl
  · exact nomatch h

/-! ## Records without leaves -/

theorem nop_row {q : GtsRec} (h : rowRecord s (.gnop q) = some t) : exec (.gnop q) s = .next t := by
  obtain ⟨r, hr, rfl⟩ := Option.map_eq_some_iff.1 h
  rw [recordNow_eq] at hr
  simp only [Bool.and_true] at hr
  change (match s.recs.find? (fun x => x.word = recordBits 0x00 q && x.running && x.stop.isNone) with
    | some x => finishSame s (s.setRecord { x with stop := some 0 })
    | none => .next s) = _
  rw [hr]
  exact finishSame_of_mem rfl

theorem startCounter_eq (s : State) (r : GtsRun) :
    startCounter s r = { s with
      accs := s.accs ++ [{ ident := 2 * s.nextId + 1, op := r.op, core := r.who, rank := 16 * r.who + 6, order := s.nextId, due := s.now,
                           landAt := s.now, delayed := false, write := false,
                           spans := [{ addr := operandHome s r.who (((r.tensors.getD 1 none).map Tensor.off).getD 0), len := 8, off := 0 }],
                           data := 0, capTag := none, dest := .counter r.ident }]
      nextId := s.nextId + 1 } := by
  unfold startCounter
  rw [bundleRank, Nat.mul_comm r.who]
  cases r.tensors.getD 1 none <;> rfl

theorem counter_row {q : GtsRec} (h : rowRecord s (.gcwait q) = some t) : exec (.gcwait q) s = .next t := by
  unfold rowRecord at h
  dsimp only at h
  split at h
  · next r hr =>
    obtain rfl := Option.some.inj h
    rw [recordNow_eq] at hr
    change (match s.recs.find? (fun x => x.word = recordBits 0x11 q && x.running && x.stop.isNone &&
        !s.accs.any (fun a => a.dest = .counter x.ident)) with
      | some x => finishSame s (startCounter s x)
      | none => .next s) = _
    rw [hr]
    exact (congrArg (finishSame s) (startCounter_eq s r)).trans (finishSame_of_mem rfl)
  · exact nomatch h

/-! ## Completion (R374, R376) -/

theorem childDone_eq (r : GtsRun) : r.childDone = fun k => r.leaves.all (fun l => l.child ≠ k ∨ l.phase = .ended) := by
  funext k
  refine congrArg r.leaves.all (funext fun l => ?_)
  rw [Bool.eq_iff_iff]
  simp

theorem foldl_powers (l : List Nat) : l.foldl (fun m j => m + 2 ^ j) 0 = (l.map (fun k => 2 ^ k)).sum := by
  rw [List.sum_eq_foldl, List.foldl_map]

theorem plainFields (a b c d n : Nat) : a + b <<< 8 + c <<< 192 + (d <<< 128 + n <<< 224) =
    a + b * 2 ^ 8 + c * 2 ^ 192 + (d * 2 ^ 128 + n * 2 ^ 224) := by
  rw [Nat.shiftLeft_eq b, Nat.shiftLeft_eq c, Nat.shiftLeft_eq d, Nat.shiftLeft_eq n]

theorem faultFields (a b c d e f g k n : Nat) :
    a + b <<< 8 + c <<< 16 + d <<< 24 + e <<< 32 + f <<< 64 + g <<< 192 + (k <<< 128 + n <<< 224) =
      a + b * 2 ^ 8 + c * 2 ^ 16 + d * 2 ^ 24 + e * 2 ^ 32 + f * 2 ^ 64 + g * 2 ^ 192 + (k * 2 ^ 128 + n * 2 ^ 224) := by
  rw [Nat.shiftLeft_eq b, Nat.shiftLeft_eq c, Nat.shiftLeft_eq d, Nat.shiftLeft_eq e, Nat.shiftLeft_eq f, Nat.shiftLeft_eq g,
    Nat.shiftLeft_eq k, Nat.shiftLeft_eq n]

theorem reportBytes_eq (r : GtsRun) : reportBytes r = Safety.reportOf r := by
  unfold reportBytes Safety.reportOf
  dsimp only
  rw [Lanes.rangeFrom_zero, childDone_eq, foldl_powers]
  cases r.fault with
  | none => exact plainFields ..
  | some f => exact faultFields ..

/-- Where a core stages the inputs of its leaves. -/
def stageBase (n : Nat) : Nat := coreBase n + 0x380000

theorem stageBase_div (n : Nat) : stageBase n / 16 * 16 = stageBase n ∧ addrWin (stageBase n) = 0 := by
  unfold stageBase coreBase addrWin
  rw [field_eq]
  simp only [Nat.shiftLeft_eq]
  omega

theorem writeTags_stage (m : Map Bool) (n k : Nat) :
    writeTags m (stageBase n) (64 * k) none = (List.range (4 * k)).foldl (fun m i => mapSet false m (stageBase n / 16 + i) false) m := by
  obtain ⟨hdiv, hwin⟩ := stageBase_div n
  unfold writeTags unitsOf
  rw [if_pos hwin]
  change List.foldl (fun t u => mapSet false t u false) m _ = _
  rw [← List.foldl_map (f := fun i => stageBase n / 16 + i) (g := fun m u => mapSet false m u false)]
  refine congrArg _ ?_
  split
  · next hk =>
    obtain rfl : k = 0 := by omega
    rfl
  · next hk =>
    rw [Nat.shiftRight_eq_div_pow, Nat.shiftRight_eq_div_pow, Lanes.rangeFrom_eq_range', List.range'_eq_map_range,
      show (stageBase n + 64 * k - 1) / 2 ^ 4 + 1 - stageBase n / 2 ^ 4 = 4 * k by omega]

/-- What clearing the granules that cores of a record staged into, from a base of each, leaves of tags and leases. -/
def swept (base : Nat → Nat) (held : Map Nat) (s : State) : State :=
  { s with
    tags := held.foldl (fun m e => (List.range (4 * e.2)).foldl (fun m i => mapSet false m (base e.1 / 16 + i) false) m) s.tags
    leases := s.leases.filter (fun l => ¬∃ e ∈ held, base e.1 / 64 ≤ l.line ∧ l.line < base e.1 / 64 + e.2) }

theorem foldl_zeroed {base : Nat → Nat} (hbase : ∀ m n k, writeTags m (base n) (64 * k) none =
      (List.range (4 * k)).foldl (fun m i => mapSet false m (base n / 16 + i) false) m) (held : Map Nat) (s : State) :
    held.foldl (fun s e => s.zeroed (base e.1) e.2) s = swept base held s := by
  induction held generalizing s with
  | nil => simp [swept]
  | cons e held ih =>
    rw [List.foldl_cons, ih]
    have hleases : ((s.zeroed (base e.1) e.2).leases.filter
          (fun l => ¬∃ x ∈ held, base x.1 / 64 ≤ l.line ∧ l.line < base x.1 / 64 + x.2)) =
        s.leases.filter (fun l => ¬∃ x ∈ e :: held, base x.1 / 64 ≤ l.line ∧ l.line < base x.1 / 64 + x.2) := by
      rw [State.zeroed, List.filter_filter]
      refine List.filter_congr fun l _ => ?_
      rw [Bool.eq_iff_iff]
      simp only [List.mem_cons, exists_eq_or_imp, not_or, Bool.and_eq_true, Bool.not_eq_true', decide_eq_true_eq,
        Bool.and_eq_false_imp, decide_eq_false_iff_not, not_and]
      exact and_comm
    unfold swept
    rw [hleases, List.foldl_cons, ← hbase]
    rfl

theorem foldl_bytes (held : Map Nat) :
    held.flatMap (fun e => bytesOf (stageBase e.1) 0 (64 * e.2)) = held.flatMap (fun e => bytesAt (stageBase e.1) (64 * e.2) 0) :=
  List.flatMap_congr fun _ _ => Bytes.bytesOf_eq_bytesAt ..

/-- A completed record with its cores released, its report not yet on its way. -/
def released (s : State) (r : GtsRun) : State :=
  onCore (r.held.foldl (fun t e => onCore t e.1 leftBehind) (recordAs s { r with done := some s.now })) r.who (fun c => { c with
    ops := c.ops.map (fun o => if o.ident = r.op then { o with isOpen := false, due := s.now } else o) })

theorem finish_completeGts (s : State) (r : GtsRun) : finish s (completeGts s r) = .next
    { swept stageBase r.held (report (released s r) { r with done := some s.now }) with
      mem := writeBytes s.mem (r.held.flatMap (fun e => bytesAt (stageBase e.1) (64 * e.2) 0)) } := by
  rw [← foldl_zeroed writeTags_stage, ← foldl_bytes]
  rfl

theorem onlyCores_foldl (held : Map Nat) (f : Core → Core) (s : State) :
    held.foldl (fun t e => onCore t e.1 f) s = { s with cores := (held.foldl (fun t e => onCore t e.1 f) s).cores } := by
  induction held generalizing s with
  | nil => rfl
  | cons e held ih => rw [List.foldl_cons, ih]; rfl

theorem released_eq (s : State) (r : GtsRun) :
    released s r = { recordAs s { r with done := some s.now } with cores := (released s r).cores } := by
  unfold released
  rw [onlyCores_foldl]
  rfl

theorem completed_eq {u : State} (s : State) (r : GtsRun)
    (hu : u = { swept stageBase r.held (report (released s r) { r with done := some s.now }) with
      mem := writeBytes s.mem (r.held.flatMap (fun e => bytesAt (stageBase e.1) (64 * e.2) 0)) }) : u = completed s r := by
  unfold completed
  extract_lets r1 t1 t2 zeros t3 t4
  have hcores := released_eq s r
  have ht2 : released s r = t2 := rfl
  rw [ht2] at hu hcores
  clear_value t2
  generalize t2.cores = cores at hcores
  subst hcores
  rw [hu, report, reportBytes_eq, bundleRank, Nat.mul_comm r.who]
  obtain ⟨_, _, _, _, _, _, _, _, _, host⟩ := r
  cases host <;> rfl

theorem completeGts_row (s : State) (r : GtsRun) : finish s (completeGts s r) = .next (completed s r) :=
  (finish_completeGts s r).trans (congrArg _ (completed_eq s r rfl))

theorem completion_row {k : Nat} (h : rowRecord s (.recordCompletion k) = some t) : exec (.recordCompletion k) s = .next t := by
  unfold rowRecord at h
  dsimp only at h
  split at h
  · next r hr =>
    split at h
    · next hdone =>
      obtain rfl := Option.some.inj h
      change (match s.record k with
        | some r => if r.settled && r.latest ≤ s.now then finish s (completeGts s r) else .next s
        | none => .next s) = _
      rw [State.record, hr]
      exact (if_pos (by rw [Bool.and_eq_true, decide_eq_true_eq]; exact hdone)).trans (completeGts_row s r)
    · exact nomatch h
  · exact nomatch h

end

/-- Settles O47, row by row. -/
theorem recordEvents : Obligations.RecordEvents := by
  intro s i t h
  have hrow := h
  unfold rowRecord at h
  cases i
  case gnop => exact nop_row hrow
  case gcwait => exact counter_row hrow
  case recordAcceptance => exact acceptance_row hrow
  case leafDispatch => exact dispatch_row hrow
  case leafStart => exact start_row hrow
  case leafEnd => exact end_row hrow
  case recordCompletion => exact completion_row hrow
  all_goals exact nomatch h

end Sys2Proof.Proofs.Records
end
end

