-- ==== Sys2Proof/Proofs/LeafWork.lean ====
section
/-! The compute phase of a leaf: when it runs, how long it takes, and what it writes of rows that are given element by element. -/

noncomputable section

namespace Sys2Proof.Proofs.Leaves

open Sys2Proof.Machine Sys2Proof.Safety Sys2Proof.Proofs.Accesses Sys2Proof.Proofs.HostSide Sys2Proof.Proofs.Records

section
variable {s t u v : State} {r : GtsRun} {i : Nat} {l : Leaf}

/-! ## What the compute phase takes from memory -/

/-- A state with another memory. -/
def onMem (m : List Host.Cell) (s : State) : State := { s with mem := m }

theorem addGranule_onMem (m : List Host.Cell) (s : State) (x : Access) (slot : Option Nat) :
    addGranule (onMem m s) x slot = onMem m (addGranule s x slot) := by
  cases slot <;> rfl

theorem granulePlies_onMem (m : List Host.Cell) (s : State) (n home p : Nat) (reply : Bool) :
    granulePlies (onMem m s) n home p reply = granulePlies s n home p reply := rfl

theorem operandHomes_onMem (m : List Host.Cell) (s : State) (n a : Nat) : operandHomes (onMem m s) n a = operandHomes s n a := rfl

theorem leafWrite_onMem (m : List Host.Cell) (s : State) (r : GtsRun) (n p far : Nat) (x : Piece) :
    leafWrite (onMem m s) r n p far x = onMem m (leafWrite s r n p far x) := by
  unfold leafWrite
  rw [operandHomes_onMem]
  refine List.foldl_hom (onMem m) fun t h => ?_
  rw [granulePlies_onMem]
  split
  · exact addGranule_onMem ..
  · rfl

theorem leafWrites_onMem (m : List Host.Cell) (s : State) (r : GtsRun) (n start far : Nat) (pieces : List Piece) (grans : List Nat) :
    leafWrites (onMem m s) r n start far pieces grans = onMem m (leafWrites s r n start far pieces grans) := by
  unfold leafWrites
  exact List.foldl_hom (onMem m) fun _ _ => leafWrite_onMem ..

/-- The states that `writeLag` walks through, with another memory. -/
def onMemLag (m : List Host.Cell) (acc : State × Nat) : State × Nat := (onMem m acc.1, acc.2)

theorem foldl_onMemLag {α : Type} {f : State × Nat → α → State × Nat} (m : List Host.Cell) (s : State) (xs : List α)
    (hf : ∀ acc x, f (onMemLag m acc) x = onMemLag m (f acc x)) : (xs.foldl f (onMem m s, 0)).2 = (xs.foldl f (s, 0)).2 := by
  have hends := congrArg Prod.snd (List.foldl_hom (onMemLag m) (init := (s, 0)) (l := xs) hf)
  exact hends

theorem writeLag_onMem (m : List Host.Cell) (s : State) (r : GtsRun) (n start : Nat) (pieces : List Piece) (grans : List Nat) :
    writeLag (onMem m s) r n start pieces grans = writeLag s r n start pieces grans := by
  unfold writeLag
  dsimp only
  simp only [operandHomes_onMem]
  refine foldl_onMemLag m s pieces fun acc x => ?_
  refine List.foldl_hom (onMemLag m) fun acc h => ?_
  rw [onMemLag, granulePlies_onMem]
  split
  · split <;> rfl
  · rfl

/-! ## The step of an operation's leaf (R372, R373) -/

/-- A leaf computes: its results, with the pans that it leaves. -/
theorem computeNext_eq (u v : State) (r : GtsRun) (i : Nat) (l : Leaf) (f : LeafJob → LeafResult) :
    computeNext u v r i l f =
      leafDone u r i l (computeLength r.word r.tensors l) (f (jobAt v r i l)).pieces (f (jobAt v r i l)).carry
        (fun c => leavePans c r.word i (l.rows * l.planes.length)) := by
  unfold computeNext leafDone jobAt
  cases l.prev with
  | none => rfl
  | some p =>
    dsimp only [Option.bind_some]
    cases r.leaves[p]? <;> rfl

theorem leafDone_onMem (m : List Host.Cell) (u : State) (r : GtsRun) (i : Nat) (l : Leaf) (plies : Nat) (pieces : List Piece)
    (carry : List Nat) (pans : Core → Core) :
    leafDone (onMem m u) r i l plies pieces carry pans = onMem m (leafDone u r i l plies pieces carry pans) := by
  unfold leafDone
  change leafWrites _ r l.core _ _ _ _ = onMem m (leafWrites _ r l.core _ _ _ _)
  rw [← leafWrites_onMem, writeLag_onMem]
  rfl

theorem stepLeaf_row {opc : Nat} {q : GtsRec} {f : LeafJob → LeafResult} {row : State → State → GtsRun → Nat → Leaf → Option State}
    (hrow : ∀ u v r i l t, r.word = recordBits opc q → row u v r i l = some t → computeNext u v r i l f = t)
    (h : leafRow s opc q row = some t) : stepLeaf s opc q f = .next t := by
  have hfinds : (fun r : GtsRun => decide (r.word = recordBits opc q ∧ (r.computing s.now).isSome = true)) =
      fun r => r.word = recordBits opc q && (r.computing s.now).isSome := by
    funext r
    rw [Bool.eq_iff_iff]
    simp
  unfold leafRow at h
  split at h
  · next r hr =>
    rw [hfinds] at hr
    have hword : r.word = recordBits opc q := by
      have hfound := List.find?_some hr
      rw [Bool.and_eq_true, decide_eq_true_eq] at hfound
      exact hfound.1
    split at h
    · next i l hl =>
      have hstep : stepLeaf s opc q f = finish s (computeLeaf s r i l f) := by
        unfold stepLeaf
        rw [hr]
        dsimp only
        rw [hl]
      rw [hstep]
      unfold computeLeaf
      dsimp only at h ⊢
      split at h
      · next hlate =>
        obtain rfl := Option.some.inj h
        rw [if_pos ((delays_iff ..).2 hlate)]
        rfl
      · next hlate =>
        rw [if_neg (mt (delays_iff ..).1 hlate),
          finish_settledRead s r.who _ (fun u v => computeNext u v r i l f) (fun u v m => ?_)]
        · exact congrArg _ (hrow _ _ r i l t hword h)
        · rw [computeNext_eq, computeNext_eq]
          exact (leafDone_onMem ..).symm
    · exact nomatch h
  · exact nomatch h

/-! ## The words of a record -/

theorem lowByte {a : Nat} (ha : a < 2 ^ 8) (b c d : Nat) : (a + b <<< 8 + c <<< 16 + d <<< 32) % 2 ^ 8 = a := by
  rw [Nat.shiftLeft_eq, Nat.shiftLeft_eq, Nat.shiftLeft_eq]
  omega

theorem recOpc_recordBits {opc : Nat} (hopc : opc < 2 ^ 8) (q : GtsRec) : recOpc (recordBits opc q) = opc := by
  rw [recOpc, field_eq, Nat.pow_zero, Nat.div_one]
  exact lowByte hopc ..

/-! ## The plies of a leaf (R367, R372) -/

theorem length_cutExtent (extent : Nat) {edge : Nat} (hedge : 0 < edge) :
    (cutExtent extent edge).length = (extent + edge - 1) / edge := by
  have hdiv := Nat.div_add_mod extent edge
  have hlt := Nat.mod_lt extent hedge
  rw [cutExtent, Lanes.rangeFrom_zero, List.length_append, List.length_map, List.length_range]
  symm
  split
  · next hrest =>
    rw [Nat.mul_comm] at hdiv
    exact Nat.div_eq_of_lt_le (by rw [List.length_nil, Nat.add_zero]; omega) (by rw [List.length_nil, Nat.add_zero, Nat.succ_mul]; omega)
  · next hrest =>
    rw [Nat.mul_comm] at hdiv
    exact Nat.div_eq_of_lt_le (by rw [List.length_singleton, Nat.succ_mul]; omega)
      (by rw [List.length_singleton, Nat.succ_mul, Nat.succ_mul]; omega)

theorem sum_cutExtent (extent edge : Nat) (tile : Nat → Nat) :
    ((cutExtent extent edge).map (fun x => tile x.2)).sum =
      extent / edge * tile edge + if extent % edge = 0 then 0 else tile (extent % edge) := by
  rw [cutExtent, Lanes.rangeFrom_zero, List.map_append, List.sum_append, List.map_map]
  congr 1
  · change (List.map (fun _ => tile edge) _).sum = _
    rw [List.map_const', List.sum_replicate, List.length_range, smul_eq_mul]
  · split <;> simp

/-- The plies of a native tile of `h` rows; `k` is the extent that a product sums over. -/
def tilePlies (opc k h : Nat) : Nat :=
  if opc = 0x06 ∨ opc = 0x07 then 56 + 128 * ((k + 127) / 128)
  else if opc = 0x08 ∨ opc = 0x09 then h + 12
  else if opc = 0x0F then 4 * h + 8
  else if opc = 0x10 then h + 8
  else h + 4

theorem computeLength_eq {w : Nat} {ts : List (Option Tensor)} {l : Leaf} {er ec : Nat}
    (hedges : nativeEdges (recOpc w) (ts.getD 0 none) (ts.getD 1 none) (ts.getD 2 none) = (er, ec)) (hec : 0 < ec) :
    computeLength w ts l = computePlies l (er, ec) (tilePlies (recOpc w) (((ts.getD 1 none).map (fun a => a.extent 0)).getD 0)) := by
  unfold computeLength
  dsimp only
  rw [hedges]
  dsimp only
  rw [length_cutExtent l.cols hec]
  refine congrArg _ ((congrArg List.sum (List.map_congr_left fun x _ => ?_)).trans (sum_cutExtent l.rows er (tilePlies (recOpc w) _)))
  unfold tilePlies
  simp only [Bool.or_eq_true, decide_eq_true_eq]
  cases ts.getD 1 none <;> rfl

end

end Sys2Proof.Proofs.Leaves
end
end

