-- ==== Sys2Proof/Proofs/LeafEvents.lean ====
section
/-! Leaves of tile-set records, operation by operation. -/

noncomputable section

namespace Sys2Proof.Proofs.Leaves

open Sys2Proof.Machine Sys2Proof.Safety Sys2Proof.Proofs.Lanes Sys2Proof.Proofs.HostSide Sys2Proof.Proofs.Collectives

section
variable {s t u v : State} {r : GtsRun} {i : Nat} {l : Leaf}

/-! ## Rows element by element (R128, R369) -/

theorem length_rowOf (rd : Reader) (k : Nat) (t : Tensor) (i c0 w : Nat) (pl : Nat × Nat) : (rowOf rd k t i c0 w pl).length = w :=
  length_splitPieces ..

theorem rowOf_eq (rd : Reader) (k : Nat) (t : Tensor) (i c0 w : Nat) (pl : Nat × Nat) :
    rowOf rd k t i c0 w pl = (List.range w).map (fun c => (rowOf rd k t i c0 w pl).getD c 0) :=
  Brine.eq_map_range (length_rowOf ..)

theorem rowA_eq (j : LeafJob) (i : Nat) (pl : Nat × Nat) : j.rowA i pl = (List.range j.leaf.cols).map (elementsAt j 1 i pl) := rowOf_eq ..

theorem rowB_eq (j : LeafJob) (i : Nat) (pl : Nat × Nat) : j.rowB i pl = (List.range j.leaf.cols).map (elementsAt j 2 i pl) := rowOf_eq ..

theorem rowD_eq (j : LeafJob) (i : Nat) (pl : Nat × Nat) : j.rowD i pl = (List.range j.leaf.cols).map (elementsAt j 0 i pl) := rowOf_eq ..

/-- In the lanes of other groups the first source holds 0 at level 0. -/
theorem getD_firstEntry {j : LeafJob} {g k : Nat} (hk : k / 16 ≠ g) (i : Nat) (pl : Nat × Nat) : (j.firstEntry g i pl).getD k 0 = 0 := by
  unfold LeafJob.firstEntry groupEntry
  split
  · rw [rangeFrom_zero]
    by_cases hlane : k < 64
    · rw [getD_map_range _ hlane, if_neg hk]
      rfl
    · exact Tiles.getD_map_range_of_le _ (Nat.le_of_not_lt hlane)
  · rfl

theorem rowOut_eq (j : LeafJob) (i : Nat) (pl : Nat × Nat) (xs : List Nat) : j.rowOut i pl xs = groupLanes j xs := by
  unfold LeafJob.rowOut groupLanes
  cases j.group with
  | none => rfl
  | some g =>
    dsimp only
    unfold groupEntry
    rw [rangeFrom_zero]
    congr 2
    refine List.map_congr_left fun k _ => ?_
    split
    · rfl
    · next hk => exact getD_firstEntry hk i pl

theorem eachRow_eq {j : LeafJob} {f : Nat → (Nat × Nat) → List Nat} {g : Nat → (Nat × Nat) → Nat → Nat}
    (h : ∀ i pl, f i pl = (List.range j.leaf.cols).map (g i pl)) : j.eachRow f = ⟨each j (fun _ => g), []⟩ := by
  unfold LeafJob.eachRow each
  simp only [h, rowOut_eq]

/-! ## What computes without pans -/

theorem leavePans_same (c : Core) {w : Nat} (hprod : recOpc w ≠ 0x0F) (hdraw : recOpc w ≠ 0x10) (rank rows : Nat) :
    leavePans c w rank rows = c := by
  rw [leavePans, if_neg hprod, if_neg hdraw]

/-- A leaf of an operation that leaves the pans as they are. -/
theorem computeNext_plain {f : LeafJob → LeafResult} {plies : Nat} {pieces : List Piece} {carry : List Nat}
    (hprod : recOpc r.word ≠ 0x0F) (hdraw : recOpc r.word ≠ 0x10) (hplies : computeLength r.word r.tensors l = plies)
    (hout : f (jobAt v r i l) = ⟨pieces, carry⟩) : computeNext u v r i l f = leafDone u r i l plies pieces carry id := by
  rw [computeNext_eq, hplies, hout]
  simp only [leavePans_same _ hprod hdraw]
  rfl

/-! ## Copies, conversions and constants (R358) -/

/-- The native tiles of GCOPY and GCONV. -/
theorem edges_copy {r : GtsRun} (hopc : recOpc r.word = 0x01 ∨ recOpc r.word = 0x02) (v : State) (i : Nat) (l : Leaf) :
    nativeEdges (recOpc r.word) (r.tensors.getD 0 none) (r.tensors.getD 1 none) (r.tensors.getD 2 none) =
      if (jobAt v r i l).d.isMx ∧ (r.tensors.getD 0 none).isSome then (64, 128) else (64, 64) := by
  unfold nativeEdges jobAt
  dsimp only
  rw [if_neg (by rcases hopc with h | h <;> simp [h])]
  cases hd : r.tensors.getD 0 none with
  | none => rcases hopc with h | h <;> simp [h]
  | some d => rcases hopc with h | h <;> simp [h]

theorem plies_copy {r : GtsRun} (hopc : recOpc r.word = 0x01 ∨ recOpc r.word = 0x02) (v : State) (i : Nat) (l : Leaf) :
    computeLength r.word r.tensors l =
      computePlies l (if (jobAt v r i l).d.isMx ∧ (r.tensors.getD 0 none).isSome then (64, 128) else (64, 64)) (fun h => h + 4) := by
  have hedges := edges_copy hopc v i l
  have htile (k : Nat) : tilePlies (recOpc r.word) k = fun h => h + 4 := by
    funext h
    rcases hopc with h | h <;> simp [tilePlies, h]
  split at hedges
  · next hmx => rw [if_pos hmx, computeLength_eq hedges (by decide), htile]
  · next hmx => rw [if_neg hmx, computeLength_eq hedges (by decide), htile]

theorem plies_square {w : Nat} {ts : List (Option Tensor)} {tile : Nat → Nat}
    (hopc : recOpc w ∉ [0x01, 0x02, 0x06, 0x07, 0x10]) (htile : ∀ k, tilePlies (recOpc w) k = tile) (l : Leaf) :
    computeLength w ts l = computePlies l (64, 64) tile := by
  have hedges : nativeEdges (recOpc w) (ts.getD 0 none) (ts.getD 1 none) (ts.getD 2 none) = (64, 64) := by
    simp only [List.mem_cons, List.not_mem_nil, or_false, not_or] at hopc
    obtain ⟨h1, h2, h6, h7, h10⟩ := hopc
    simp [nativeEdges, h1, h2, h6, h7, h10]
  rw [computeLength_eq hedges (by decide), htile]

theorem copy_row {q : GtsRec} (h : rowLeaf s (.gcopy q) = some t) : exec (.gcopy q) s = .next t := by
  unfold rowLeaf at h
  refine stepLeaf_row (fun u v r i l t hword hrow => ?_) h
  have hopc : recOpc r.word = 0x01 := by rw [hword, recOpc_recordBits (by decide)]
  obtain rfl := Option.some.inj hrow
  refine computeNext_plain (by rw [hopc]; decide) (by rw [hopc]; decide) (plies_copy (.inl hopc) v i l) ?_
  unfold leafCopy
  rw [eachRow_eq (rowA_eq _)]
  dsimp only
  by_cases hown : (jobAt v r i l).d.isMx = true ∧ (jobAt v r i l).d.isUni = false ∧ (jobAt v r i l).a.isUni = false
  · rw [if_pos hown, if_pos (by simp [hown])]
  · rw [if_neg hown, if_neg (by simpa [and_assoc] using hown), List.append_nil]

theorem formatSigned_iff {f : Nat} (hf : 2 ≤ f) : formatSigned f = true ↔ f ≤ 4 := by
  simp only [formatSigned, Bool.or_eq_true, decide_eq_true_eq]
  omega

theorem lowBits_natCast (x n : Nat) : lowBits (x : Int) n = x % 2 ^ n := by
  rw [lowBits, ← Int.natCast_mod, Int.toNat_natCast]

theorem convertElement_eq (fd fa mode sd x sa : Nat) :
    convertElement fd fa mode sd x sa =
      if 2 ≤ fa ∧ fa ≤ 7 ∧ 2 ≤ fd ∧ fd ≤ 7 ∧ formatBits fa < formatBits fd then
        (if fa ≤ 4 then (BitVec.ofInt (formatBits fd) (BitVec.ofNat (formatBits fa) x).toInt).toNat else x % 2 ^ formatBits fd)
      else encodeValue fd mode sd (valueOf fa x sa) := by
  unfold convertElement
  by_cases hwide : 2 ≤ fa ∧ fa ≤ 7 ∧ 2 ≤ fd ∧ fd ≤ 7 ∧ formatBits fa < formatBits fd
  · rw [if_pos hwide, if_pos (by simpa [formatInt, and_assoc] using hwide)]
    by_cases hsigned : fa ≤ 4
    · rw [if_pos hsigned, if_pos ((formatSigned_iff hwide.1).2 hsigned), sext_eq_toInt, lowBits_eq_toNat_ofInt]
    · rw [if_neg hsigned, if_neg (mt (formatSigned_iff hwide.1).1 hsigned), lowBits_natCast]
  · rw [if_neg hwide, if_neg (by simpa [formatInt, and_assoc] using hwide)]

theorem convert_row {q : GtsRec} (h : rowLeaf s (.gconv q) = some t) : exec (.gconv q) s = .next t := by
  unfold rowLeaf at h
  refine stepLeaf_row (fun u v r i l t hword hrow => ?_) h
  have hopc : recOpc r.word = 0x02 := by rw [hword, recOpc_recordBits (by decide)]
  obtain rfl := Option.some.inj hrow
  refine computeNext_plain (by rw [hopc]; decide) (by rw [hopc]; decide) (plies_copy (.inr hopc) v i l) ?_
  unfold leafConvert
  refine eachRow_eq fun i' pl => ?_
  rw [rowA_eq, Tiles.mapIdx_map_range]
  refine List.map_congr_left fun c _ => ?_
  simp only [Bool.and_eq_true, decide_eq_true_eq]
  exact convertElement_eq ..

theorem fill_row {q : GtsRec} (h : rowLeaf s (.gfill q) = some t) : exec (.gfill q) s = .next t := by
  unfold rowLeaf at h
  refine stepLeaf_row (fun u v r i l t hword hrow => ?_) h
  have hopc : recOpc r.word = 0x03 := by rw [hword, recOpc_recordBits (by decide)]
  obtain rfl := Option.some.inj hrow
  refine computeNext_plain (by rw [hopc]; decide) (by rw [hopc]; decide)
    (plies_square (by rw [hopc]; decide) (by rw [hopc]; intro; rfl) l) ?_
  exact eachRow_eq fun _ _ => by rw [List.map_const', List.length_range]; rfl

/-! ## Elementwise operations (R359) -/

theorem saturated (v : Int) : clampS 32 v = max (-2 ^ 31) (min (2 ^ 31 - 1) v) := by
  rw [clampS, Int.min_comm]

theorem aluMin_comm {n : Nat} (x y : BitVec n) : aluMin x y = aluMin y x := by rw [aluMin_eq, aluMin_eq, Int.min_comm]

theorem elementOp_i32 {opf : Nat} (hop : opf % 8 ≤ 4) (a b d e : Nat) :
    elementOp 2 (opf % 8) (bit opf 3) a b d = eltValue 2 opf a b e := by
  unfold eltValue
  rw [bit_eq_testBit]
  generalize opf % 8 = k at hop ⊢
  generalize opf.testBit 3 = sat
  have hadds : onBits 32 aluAdds a b =
      (BitVec.ofInt 32 (max (-2 ^ 31) (min (2 ^ 31 - 1) ((BitVec.ofNat 32 a).toInt + (BitVec.ofNat 32 b).toInt)))).toNat := by
    rw [onBits, aluAdds_eq, saturated]
  have hsubs : onBits 32 aluSubs a b =
      (BitVec.ofInt 32 (max (-2 ^ 31) (min (2 ^ 31 - 1) ((BitVec.ofNat 32 a).toInt - (BitVec.ofNat 32 b).toInt)))).toNat := by
    rw [onBits, aluSubs_eq, saturated]
  dsimp only
  rw [← hadds, ← hsubs]
  obtain hk | rfl := Nat.lt_or_eq_of_le hop
  · cases sat with
    | false => interval_cases k <;> simp [elementOp, onBits, aluAdd, aluSub, aluMul, aluMax, apply_ite BitVec.toNat]
    | true => interval_cases k <;> simp [elementOp, onBits, aluMul, aluMax, apply_ite BitVec.toNat]
  · change (aluMin (BitVec.ofNat 32 a) (BitVec.ofNat 32 b)).toNat = _
    rw [aluMin_comm]
    simp [aluMin, apply_ite BitVec.toNat]

theorem elementOp_f32 {opf : Nat} (hop : opf % 8 ≤ 5) (a b d : Nat) (sat : Bool) :
    elementOp 0 (opf % 8) sat a b (if opf % 8 = 5 then d else 0) = eltValue 0 opf a b d := by
  unfold eltValue
  generalize opf % 8 = k at hop ⊢
  interval_cases k <;> rfl

theorem elementOp_bf16 {opf : Nat} (hop : opf % 8 ≤ 5) (a b d : Nat) (sat : Bool) :
    elementOp 1 (opf % 8) sat a b (if opf % 8 = 5 then d else 0) = eltValue 1 opf a b d := by
  unfold eltValue
  generalize opf % 8 = k at hop ⊢
  interval_cases k <;> simp [elementOp]

/-- An element of GELT and GELTS, with d where the operation takes it. -/
theorem elementOp_eq {fmt opf : Nat} (hfmt : fmt ≤ 2) (hop : opf % 8 ≤ if fmt = 2 then 4 else 5) (a b d : Nat) :
    elementOp fmt (opf % 8) (bit opf 3) a b (if opf % 8 = 5 then d else 0) = eltValue fmt opf a b d := by
  obtain rfl | rfl | rfl : fmt = 0 ∨ fmt = 1 ∨ fmt = 2 := by omega
  · exact elementOp_f32 hop ..
  · exact elementOp_bf16 hop ..
  · exact elementOp_i32 hop ..

theorem elements_eq {j : LeafJob} {second : Nat → (Nat × Nat) → List Nat} {b : Nat → (Nat × Nat) → Nat → Nat}
    (hfmt : j.d.fmt ≤ 2) (hop : recOpf j.word % 8 ≤ if j.d.fmt = 2 then 4 else 5)
    (hb : ∀ i pl, second i pl = (List.range j.leaf.cols).map (b i pl)) :
    leafElements j second =
      ⟨each j (fun _ i pl c => eltValue j.d.fmt (recOpf j.word) (elementsAt j 1 i pl c) (b i pl c) (elementsAt j 0 i pl c)), []⟩ := by
  unfold leafElements
  refine eachRow_eq fun i pl => ?_
  have hds : (if recOpf j.word % 8 = 5 then j.rowD i pl else List.replicate j.leaf.cols 0) =
      (List.range j.leaf.cols).map (fun c => if recOpf j.word % 8 = 5 then elementsAt j 0 i pl c else 0) := by
    split
    · exact rowD_eq ..
    · rw [List.map_const', List.length_range]
  rw [hds, hb, rowA_eq, List.zip_map', zipWith_map_map]
  exact List.map_congr_left fun c _ => elementOp_eq hfmt hop ..

theorem elt_row {q : GtsRec} (h : rowLeaf s (.gelt q) = some t) : exec (.gelt q) s = .next t := by
  unfold rowLeaf at h
  refine stepLeaf_row (fun u v r i l t hword hrow => ?_) h
  have hopc : recOpc r.word = 0x04 := by rw [hword, recOpc_recordBits (by decide)]
  obtain ⟨⟨hfmt, hop⟩, ht⟩ := Option.ite_none_right_eq_some.1 hrow
  obtain rfl := Option.some.inj ht
  refine computeNext_plain (by rw [hopc]; decide) (by rw [hopc]; decide)
    (plies_square (by rw [hopc]; decide) (by rw [hopc]; intro; rfl) l) ?_
  exact elements_eq (j := jobAt v r i l) hfmt hop (rowB_eq _)

theorem elts_row {q : GtsRec} (h : rowLeaf s (.gelts q) = some t) : exec (.gelts q) s = .next t := by
  unfold rowLeaf at h
  refine stepLeaf_row (fun u v r i l t hword hrow => ?_) h
  have hopc : recOpc r.word = 0x05 := by rw [hword, recOpc_recordBits (by decide)]
  obtain ⟨⟨hfmt, hop⟩, ht⟩ := Option.ite_none_right_eq_some.1 hrow
  obtain rfl := Option.some.inj ht
  refine computeNext_plain (by rw [hopc]; decide) (by rw [hopc]; decide)
    (plies_square (by rw [hopc]; decide) (by rw [hopc]; intro; rfl) l) ?_
  exact elements_eq (j := jobAt v r i l) hfmt hop fun _ _ => by rw [List.map_const', List.length_range]; rfl

/-! ## Products (R360) -/

theorem productElement_none (terms : List Nat) : productElement none terms = (terms.drop 1).foldl f32Add (terms.headD 0) := by
  cases terms <;> rfl

theorem product_eq (fromD : Bool) (j : LeafJob) : leafProduct fromD j = ⟨each j (fun _ i pl c => productAt j fromD i pl c), []⟩ := by
  unfold leafProduct
  refine eachRow_eq fun i pl => ?_
  rw [Tiles.map_rangeFrom]
  cases fromD with
  | true =>
    rw [if_pos rfl, rowD_eq, List.map_map, zipWith_map_map]
    rfl
  | false =>
    have hnone : List.replicate j.leaf.cols none = (List.range j.leaf.cols).map (fun _ => (none : Option Nat)) := by
      rw [List.map_const', List.length_range]
    rw [if_neg (by decide), hnone, zipWith_map_map]
    exact List.map_congr_left fun c _ => productElement_none _

theorem mxEdge_pos (f : Nat) : 0 < mxEdge f := by
  unfold mxEdge
  split
  · decide
  · split <;> decide

theorem plies_product {w : Nat} {ts : List (Option Tensor)} {a b : Tensor} (hopc : recOpc w = 0x06 ∨ recOpc w = 0x07)
    (ha : ts.getD 1 none = some a) (hb : ts.getD 2 none = some b) (l : Leaf) :
    computeLength w ts l =
      computePlies l (mxEdge (a.fmt - 8), mxEdge (b.fmt - 8)) (fun _ => 56 + 128 * ((a.extent 0 + 127) / 128)) := by
  have hedges : nativeEdges (recOpc w) (ts.getD 0 none) (ts.getD 1 none) (ts.getD 2 none) =
      (mxEdge (a.fmt - 8), mxEdge (b.fmt - 8)) := by
    rw [ha, hb]
    rcases hopc with h | h <;> simp [nativeEdges, h]
  have htile (k : Nat) : tilePlies (recOpc w) k = fun _ => 56 + 128 * ((k + 127) / 128) := funext fun _ => if_pos hopc
  rw [computeLength_eq hedges (mxEdge_pos _), htile, ha]
  rfl

/-- A product, by its operation code and whether it adds to d. -/
theorem product_next {opc : Nat} {fromD : Bool} {q : GtsRec} {a b : Tensor} (hcode : opc = 0x06 ∨ opc = 0x07)
    (hword : r.word = recordBits opc q) (ha : r.tensors.getD 1 none = some a) (hb : r.tensors.getD 2 none = some b) :
    computeNext u v r i l (leafProduct fromD) =
      leafDone u r i l (computePlies l (mxEdge (a.fmt - 8), mxEdge (b.fmt - 8)) (fun _ => 56 + 128 * ((a.extent 0 + 127) / 128)))
        (each (jobAt v r i l) (fun _ i pl c => productAt (jobAt v r i l) fromD i pl c)) [] id := by
  have hopc : recOpc r.word = opc := by rw [hword, recOpc_recordBits (by omega)]
  exact computeNext_plain (by omega) (by omega) (plies_product (by rwa [hopc]) ha hb l) (product_eq ..)

theorem mma_row {q : GtsRec} (h : rowLeaf s (.gmma q) = some t) : exec (.gmma q) s = .next t := by
  unfold rowLeaf at h
  refine stepLeaf_row (fun u v r i l t hword hrow => ?_) h
  dsimp only at hrow
  split at hrow
  · next a b ha hb =>
    obtain rfl := Option.some.inj hrow
    exact product_next (.inl rfl) hword ha hb
  · exact nomatch hrow

theorem mmaz_row {q : GtsRec} (h : rowLeaf s (.gmmaz q) = some t) : exec (.gmmaz q) s = .next t := by
  unfold rowLeaf at h
  refine stepLeaf_row (fun u v r i l t hword hrow => ?_) h
  dsimp only at hrow
  split at hrow
  · next a b ha hb =>
    obtain rfl := Option.some.inj hrow
    exact product_next (.inr rfl) hword ha hb
  · exact nomatch hrow

/-! ## Gathers (R362) -/

theorem gather_row {q : GtsRec} (h : rowLeaf s (.ggather q) = some t) : exec (.ggather q) s = .next t := by
  unfold rowLeaf at h
  refine stepLeaf_row (fun u v r i l t hword hrow => ?_) h
  have hopc : recOpc r.word = 0x0A := by rw [hword, recOpc_recordBits (by decide)]
  obtain rfl := Option.some.inj hrow
  refine computeNext_plain (by rw [hopc]; decide) (by rw [hopc]; decide)
    (plies_square (by rw [hopc]; decide) (by rw [hopc]; intro; rfl) l) ?_
  exact eachRow_eq fun i' pl => rowA_eq (jobAt v r i l) (l.index.getD (i' - l.row0) 0) pl

/-! ## Scans and reductions (R361) -/

theorem scanOp_eq (j : LeafJob) : scanOp j = combination j := by
  unfold scanOp combination
  rw [bit_eq_testBit, Nat.testBit_zero]
  by_cases hmax : recOpf j.word % 2 = 1
  · rw [if_pos (decide_eq_true hmax), if_pos hmax]
  · rw [if_neg (by simpa using hmax), if_neg hmax]
    rfl

/-- A chunk of a row is its 64 elements, the missing ones the identity. -/
theorem chunk_eq (identity q n : Nat) (x : Nat → Nat) :
    ((((List.range n).map x).drop (64 * q)).take 64) ++
        List.replicate (64 - ((((List.range n).map x).drop (64 * q)).take 64).length) identity =
      chunkOf identity x n q := by
  have hlen : ((((List.range n).map x).drop (64 * q)).take 64).length = min 64 (n - 64 * q) := by simp
  refine List.ext_getElem (by rw [List.length_append, List.length_replicate, hlen, chunkOf]; simp) fun k hk _ => ?_
  simp only [chunkOf, List.getElem_append, List.getElem_map, List.getElem_range]
  split
  · next hin =>
    rw [hlen] at hin
    rw [if_pos (by omega)]
    simp
  · next hin =>
    rw [List.length_append, List.length_replicate, hlen] at hk
    rw [hlen] at hin
    rw [if_neg (by omega), List.getElem_replicate]

theorem scanChunks_eq (identity n : Nat) (x : Nat → Nat) :
    scanChunks identity ((List.range n).map x) = (List.range ((n + 63) / 64)).map (chunkOf identity x n) := by
  unfold scanChunks
  rw [List.length_map, List.length_range, rangeFrom_zero]
  exact List.map_congr_left fun q _ => chunk_eq ..

theorem length_scanAll_chunk (f : Nat → Nat → Nat) (identity n q : Nat) (x : Nat → Nat) :
    (scanAll f (chunkOf identity x n q)).length = 64 := by
  rw [scanAll, foldl_scanStep_eq f (by decide) (by simp [chunkOf])]
  exact length_laneStep f _ 32

/-- The result at a column of a row that is scanned from a carry. -/
def scanned (f : Nat → Nat → Nat) (identity first : Nat) (x : Nat → Nat) (n c : Nat) : Nat :=
  f (carryInto f identity first x n (c / 64)) ((scanAll f (chunkOf identity x n (c / 64))).getD (c % 64) 0)

theorem scanned_chunk (f : Nat → Nat → Nat) (identity first : Nat) (x : Nat → Nat) (n q : Nat) :
    (scanAll f (chunkOf identity x n q)).map (f (carryInto f identity first x n q)) =
      (List.range 64).map (fun k => scanned f identity first x n (64 * q + k)) := by
  rw [map_eq_map_range (length_scanAll_chunk ..)]
  refine List.map_congr_left fun k hk => ?_
  have hlt := List.mem_range.1 hk
  rw [scanned, show (64 * q + k) / 64 = q by omega, show (64 * q + k) % 64 = k by omega]

theorem foldl_chunks (f : Nat → Nat → Nat) (identity first : Nat) (x : Nat → Nat) (n m : Nat) :
    ((List.range m).map (chunkOf identity x n)).foldl
        (fun (acc : List Nat × Nat) c => (acc.1 ++ (scanAll f c).map (f acc.2), f acc.2 ((scanAll f c).getD 63 0))) ([], first) =
      ((List.range (64 * m)).map (scanned f identity first x n), carryInto f identity first x n m) := by
  induction m with
  | zero => rfl
  | succ m ih =>
    rw [List.range_succ, List.map_append, List.foldl_append, ih, Nat.mul_succ, List.range_add, List.map_append, List.map_map]
    rw [List.map_singleton, List.foldl_cons, List.foldl_nil, scanned_chunk]
    rfl

theorem scanRow_eq (f : Nat → Nat → Nat) (identity first : Nat) (x : Nat → Nat) (n : Nat) :
    scanRow f identity first ((List.range n).map x) =
      ((List.range n).map (scanned f identity first x n), carryInto f identity first x n ((n + 63) / 64)) := by
  unfold scanRow
  rw [scanChunks_eq, List.length_map, List.length_range]
  dsimp only
  rw [foldl_chunks, ← List.map_take, List.take_range, Nat.min_eq_left (by omega)]

theorem scanRows_eq (j : LeafJob) :
    j.rowList.map (fun x => (x, scanRow (scanOp j).1 (scanOp j).2 (j.carry.getD x.1 (scanOp j).2) (j.rowA x.2.1 x.2.2))) =
      j.rowList.map (fun x => (x, (List.range j.leaf.cols).map
        (scanned (combination j).1 (combination j).2 (carryIn j x.1) (elementsAt j 1 x.2.1 x.2.2) j.leaf.cols),
          carryOut j x.1 x.2.1 x.2.2)) := by
  refine List.map_congr_left fun x _ => ?_
  rw [scanOp_eq, rowA_eq, scanRow_eq]
  rfl

theorem scan_eq (j : LeafJob) :
    leafScan false j = ⟨eachWhole j (fun n i pl c =>
      scanned (combination j).1 (combination j).2 (carryIn j n) (elementsAt j 1 i pl) j.leaf.cols c),
      j.rowList.map (fun x => carryOut j x.1 x.2.1 x.2.2)⟩ := by
  unfold leafScan
  dsimp only
  rw [scanRows_eq, if_pos (by decide), List.map_map, List.map_map]
  rfl

theorem reduce_eq (j : LeafJob) :
    leafScan true j = ⟨if j.leaf.col0 + j.leaf.cols = j.a.extent 0 then
        j.rowList.map (fun x => putRow j.d x.2.1 0 [carryOut j x.1 x.2.1 x.2.2] x.2.2) else [],
      j.rowList.map (fun x => carryOut j x.1 x.2.1 x.2.2)⟩ := by
  unfold leafScan
  dsimp only
  rw [scanRows_eq, if_neg (by decide), List.map_map, List.map_map]
  rfl

theorem scan_row {q : GtsRec} (h : rowLeaf s (.gscan q) = some t) : exec (.gscan q) s = .next t := by
  unfold rowLeaf at h
  refine stepLeaf_row (fun u v r i l t hword hrow => ?_) h
  have hopc : recOpc r.word = 0x08 := by rw [hword, recOpc_recordBits (by decide)]
  obtain rfl := Option.some.inj hrow
  exact computeNext_plain (by rw [hopc]; decide) (by rw [hopc]; decide)
    (plies_square (by rw [hopc]; decide) (by rw [hopc]; intro; rfl) l) (scan_eq _)

theorem reduce_row {q : GtsRec} (h : rowLeaf s (.gred q) = some t) : exec (.gred q) s = .next t := by
  unfold rowLeaf at h
  refine stepLeaf_row (fun u v r i l t hword hrow => ?_) h
  have hopc : recOpc r.word = 0x09 := by rw [hword, recOpc_recordBits (by decide)]
  obtain rfl := Option.some.inj hrow
  exact computeNext_plain (by rw [hopc]; decide) (by rw [hopc]; decide)
    (plies_square (by rw [hopc]; decide) (by rw [hopc]; intro; rfl) l) (reduce_eq _)

/-! ## The brine unit (R364) -/

theorem productLength_eq (w : Nat) : productLength w = 64 * 2 ^ (recOpf w % 8) := Nat.shiftLeft_eq ..

theorem stochastic_eq (j : LeafJob) :
    leafStochastic j = ⟨eachWhole j (fun row i pl c =>
      (List.range (64 * 2 ^ (recOpf j.word % 8))).countP (fun k =>
        panValue 14 (panOf (recArg j.word + 2 * j.rank) 0) (64 * 2 ^ (recOpf j.word % 8) * row + k) (c % 64) <
            min (elementsAt j 1 i pl c) 1024 &&
          panValue 15 (panOf (recArg j.word + 2 * j.rank + 1) 0) (64 * 2 ^ (recOpf j.word % 8) * row + k) (c % 64) <
            min (elementsAt j 2 i pl c) 1024)), []⟩ := by
  unfold leafStochastic eachWhole
  dsimp only
  rw [productLength_eq]
  refine congrArg (fun pieces => (⟨pieces, []⟩ : LeafResult)) (List.map_congr_left fun x _ => ?_)
  rw [rowA_eq, rowB_eq, List.zip_map', Tiles.mapIdx_map_range]
  refine congrArg (fun xs => putRow j.d x.2.1 j.leaf.col0 xs x.2.2) (List.map_congr_left fun c _ => ?_)
  rw [rangeFrom_zero, List.countP_eq_length_filter]
  rfl

theorem leavePans_product (c : Core) {w : Nat} (hopc : recOpc w = 0x0F) (rank rows : Nat) :
    leavePans c w rank rows =
      (c.setPan 14 (panOf (recArg w + 2 * rank) (64 * 2 ^ (recOpf w % 8) * rows))).setPan 15
        (panOf (recArg w + 2 * rank + 1) (64 * 2 ^ (recOpf w % 8) * rows)) := by
  rw [leavePans, if_pos hopc, productLength_eq]
  rfl

theorem stochastic_row {q : GtsRec} (h : rowLeaf s (.gbprod q) = some t) : exec (.gbprod q) s = .next t := by
  unfold rowLeaf at h
  refine stepLeaf_row (fun u v r i l t hword hrow => ?_) h
  have hopc : recOpc r.word = 0x0F := by rw [hword, recOpc_recordBits (by decide)]
  obtain rfl := Option.some.inj hrow
  rw [computeNext_eq, stochastic_eq, plies_square (tile := fun h => 4 * h + 8) (by rw [hopc]; decide) (by rw [hopc]; intro; rfl)]
  simp only [leavePans_product _ hopc]
  rfl

/-- The draws of weights that are given one by one. -/
theorem drawCategory_eq (w : Nat → Nat) (u : Nat) :
    lowBits (drawCategory ((List.range 16).map w) u) 32 =
      if ((List.range 16).map w).sum = 0 then 2 ^ 32 - 1
      else (List.range 16).countP (fun m => ((List.range (m + 1)).map w).sum ≤ u * ((List.range 16).map w).sum / 1024) := by
  unfold drawCategory
  dsimp only
  split
  · rfl
  · rw [rangeFrom_zero, List.length_map, List.length_range, lowBits_natCast, ← List.countP_eq_length_filter]
    have hcount (p : Nat → Bool) : (List.range 16).countP p < 2 ^ 32 :=
      Nat.lt_of_le_of_lt List.countP_le_length (by rw [List.length_range]; decide)
    rw [Nat.mod_eq_of_lt (hcount _)]
    refine List.countP_congr fun m hm => ?_
    have hlt := List.mem_range.1 hm
    rw [← List.map_take, List.take_range, Nat.min_eq_left (by omega)]

theorem weights_eq {cols g : Nat} (hg : g < cols) {ws : List Nat} (hlen : ws.length = 16 * cols) :
    (ws.drop (16 * g)).take 16 = (List.range 16).map (fun m => ws.getD (16 * g + m) 0) := by
  refine List.ext_getElem (by simp [hlen]; omega) fun m hm _ => ?_
  rw [List.getElem_take, List.getElem_drop, List.getElem_map, List.getElem_range, getD_of_lt]

theorem draw_eq (j : LeafJob) :
    leafDraw j = ⟨eachWhole j (fun row i pl c =>
      let w (m : Nat) : Nat := (rowOf j.rd 1 j.a i (16 * j.leaf.col0) (16 * j.leaf.cols) pl).getD (16 * c + m) 0
      let upTo (m : Nat) : Nat := ((List.range m).map w).sum
      if upTo 16 = 0 then 2 ^ 32 - 1
      else (List.range 16).countP (fun m =>
        upTo (m + 1) ≤ panValue 15 (panOf (recArg j.word + j.rank) 0) row (16 * c % 64) * upTo 16 / 1024)), []⟩ := by
  unfold leafDraw eachWhole
  dsimp only
  refine congrArg (fun pieces => (⟨pieces, []⟩ : LeafResult)) (List.map_congr_left fun x _ => ?_)
  rw [rangeFrom_zero]
  refine congrArg (fun xs => putRow j.d x.2.1 j.leaf.col0 xs x.2.2) (List.map_congr_left fun c hc => ?_)
  rw [weights_eq (List.mem_range.1 hc) (length_rowOf ..), drawCategory_eq]
  rfl

theorem leavePans_draw (c : Core) {w : Nat} (hopc : recOpc w = 0x10) (rank rows : Nat) :
    leavePans c w rank rows = c.setPan 15 (panOf (recArg w + rank) rows) := by
  rw [leavePans, if_neg (by rw [hopc]; decide), if_pos hopc]
  rfl

theorem plies_draw {w : Nat} (hopc : recOpc w = 0x10) (ts : List (Option Tensor)) (l : Leaf) :
    computeLength w ts l = computePlies l (64, 4) (fun h => h + 8) := by
  have hedges : nativeEdges (recOpc w) (ts.getD 0 none) (ts.getD 1 none) (ts.getD 2 none) = (64, 4) := by simp [nativeEdges, hopc]
  rw [computeLength_eq hedges (by decide), hopc]
  rfl

theorem draw_row {q : GtsRec} (h : rowLeaf s (.gbdraw q) = some t) : exec (.gbdraw q) s = .next t := by
  unfold rowLeaf at h
  refine stepLeaf_row (fun u v r i l t hword hrow => ?_) h
  have hopc : recOpc r.word = 0x10 := by rw [hword, recOpc_recordBits (by decide)]
  obtain rfl := Option.some.inj hrow
  rw [computeNext_eq, draw_eq, plies_draw hopc]
  simp only [leavePans_draw _ hopc]
  rfl

end

/-- Settles O46, operation by operation. -/
theorem leafEvents : Obligations.LeafEvents := by
  intro s i t h
  have hrow := h
  unfold rowLeaf at h
  cases i
  case gcopy => exact copy_row hrow
  case gconv => exact convert_row hrow
  case gfill => exact fill_row hrow
  case gelt => exact elt_row hrow
  case gelts => exact elts_row hrow
  case gmma => exact mma_row hrow
  case gmmaz => exact mmaz_row hrow
  case gscan => exact scan_row hrow
  case gred => exact reduce_row hrow
  case ggather => exact gather_row hrow
  case gbprod => exact stochastic_row hrow
  case gbdraw => exact draw_row hrow
  all_goals exact nomatch h

end Sys2Proof.Proofs.Leaves
end
end
